-- ==== Sys2Proof/Word.lean ====
section
/-! DEFINITION. The word types of the Sceros S6 and their plainest arithmetic (spec/00_scope.md R4, R6). -/
namespace Sys2Proof

/-- A byte, the unit of addressing (R4). -/
abbrev Byte := BitVec 8
/-- A 64-bit scalar (R9). -/
abbrev Word := BitVec 64
/-- A 96-bit instruction word (R56). -/
abbrev IWord := BitVec 96
/-- A tile register: 8 rows of 1,024 bits, row 0 in bits [1023:0] (R9, R10). -/
abbrev Tile := BitVec 8192
/-- A mask register: 4,096 bits (R9). -/
abbrev Mask := BitVec 4096
/-- A scale register: 128 scales of 8 bits (R9, R39). -/
abbrev Scale := BitVec 1024
/-- An accumulator's 16 KiB bit image (R140). -/
abbrev AccImage := BitVec 131072

end Sys2Proof
end

