-- ==== Sys2Proof/Config.lean ====
section
/-! DEFINITION. What an implementation fixes and the values the manual leaves open. A constant declared `opaque` has no
body a proof can see: a statement about it holds whatever it is. -/
namespace Sys2Proof.Config

/-- The byte of its private array that the engine reads for an item, by the array (0 `CELLS`, 1 `FACES`) and the item (R268). -/
opaque meshByte : Nat → Nat → BitVec 64
/-- The code of an engine's report of a reserved field, where the manual's table names none (R5, R280, R282). -/
opaque reservedCode : BitVec 8
/-- The code of an event the manual names no code for, by the model's kind of event (R403, R394, R395). -/
opaque eventCode : Nat → BitVec 16
/-- The eight bytes of detail of an event the manual gives no detail for. -/
opaque eventDetail : Nat → BitVec 64
/-- The carve-out slice count of a die of another package (R183), taken modulo 17. -/
opaque remoteCarve : Nat → Nat → BitVec 5
/-- The n-th free value drawn. -/
opaque freeValue : Nat → BitVec 64
/-- A free value of a hart's own instruction, by the hart and the instruction's number, and an index: no schedule changes it (R289). -/
opaque ownValue : Nat → Nat → BitVec 64
/-- What a fresh queue entry holds where its load writes nothing (R16, R26), by the hart and its instruction's number. -/
opaque freeTile : Nat → BitVec 8192
/-- The byte at an offset of a private array or image, by the stamp of its writing (R252, R268, R358). -/
opaque freeByte : List Nat → Nat → BitVec 8

/-- The 64-byte lines of the scheduler section of a save area, by the gangs and tasks of its context (R362). -/
opaque schedLines : Nat → Nat → BitVec 16
/-- The bank of HBM at a local physical address (R395). -/
opaque hbmBank : Nat → BitVec 32
/-- The bank of TCM, of the carve-out and of the die SRAM that holds an HBM line (R395), by local physical address. -/
opaque sramBank : Nat → BitVec 32
/-- The HBM channel of a local physical address (R395). -/
opaque hbmChannel : Nat → BitVec 6
/-- The switch that a package's ports are wired to (R336, R378). -/
opaque switchOf : Nat → BitVec 16
/-- The spare channels of a stack (R395). -/
opaque channelSpares : BitVec 8
/-- The nanoseconds of a replay window (R393). -/
opaque replayWindow : BitVec 32
/-- The links between two packages under a domain routing, by the changes of routing so far (R336, R378). -/
opaque links : Nat → Nat → Nat → BitVec 64
/-- The device identity's public key, byte by byte, and the signature that its key makes of a message, by the key and the message as
numbers and the byte (R400, R401). -/
opaque idKey : Nat → BitVec 8
opaque signature : Nat → Nat → Nat → BitVec 8
/-- The silicon revision (R372). -/
opaque revision : BitVec 8

end Sys2Proof.Config
end

