-- ==== Sys2Proof/Syntax.lean ====
section
/-! DEFINITION. The abstract syntax of the Sceros S6: registers, the decoded fields of a 96-bit word, and the one
inductive `Instr` with one constructor per row of spec/opcode_table.json (340 encoded instructions, 66 device events).
The manual's decoder reads the same fields in the same places for every major opcode (spec/03 R56), so every encoded
instruction carries the one record `Fields`; which of its fields a form uses is in the form table of Decode.lean. -/
namespace Sys2Proof

/-- The registers a register code can name (R59). An unused register field holds code 0x00, which is `x 0`. -/
inductive Reg where
  | x (n : Fin 64)
  | v (n : Fin 32)
  | k (n : Fin 16)
  | s (n : Fin 8)
  | ma (n : Fin 2)
  | q (n : Fin 4)
  | p (n : Fin 16)
  deriving DecidableEq, Repr

/-- The fields of a decoded instruction word other than `OPC` (R56). `c` is register code C where the form names a
third operand in IMM[7:0]; `imm` is then `IMM` with those eight bits zero. -/
structure Fields where
  fn : BitVec 8 := 0
  d : Reg := .x 0
  a : Reg := .x 0
  b : Reg := .x 0
  c : Reg := .x 0
  imm : BitVec 32 := 0
  xl : BitVec 3 := 0
  ta : Bool := false
  tb : Bool := false
  tc : Bool := false
  men : Bool := false
  k : Fin 16 := 0
  g : Fin 16 := 0
  gn : Bool := false
  strm : Fin 4 := 0
  stall : BitVec 3 := 0
  yld : Bool := false
  ecls : Fin 4 := 0
  deriving DecidableEq, Repr

/-- A core of the package: die 0-15, cluster 0-3, core 0-47 (R1, R9). -/
structure CorePlace where
  die : Nat
  cluster : Nat
  core : Nat
  deriving DecidableEq, Repr

/-- A hart slot: a core and a slot 0-7. -/
structure Place where
  die : Nat
  cluster : Nat
  core : Nat
  slot : Nat
  deriving DecidableEq, Repr

/-- A copy channel of a context in a cluster (R227). -/
structure ChannelId where
  ctx : Nat
  die : Nat
  cluster : Nat
  chan : Nat
  deriving DecidableEq, Repr

/-- A combine buffer of a context (R251). -/
structure BufferId where
  ctx : Nat
  cbid : Nat
  deriving DecidableEq, Repr

/-- A master of control: 0-31 are the PCIe functions, 32 is the board management port (R377). -/
abbrev Master := Fin 33

/-- The kinds of access a translation is asked for (R339). -/
inductive AccessKind where
  | fetch
  | load
  | store
  | atomic
  deriving DecidableEq, Repr

/-- An access that is due to be performed at its home (R195): the oldest access a hart has issued in a stream and not
yet performed, the next units of a copy record in flight (R232), or an access of an agent outside the package's harts
(another package, a bus agent). -/
inductive AccessRef where
  | hart (h : Nat) (stream : Fin 4)
  | copyUnits (ch : ChannelId) (flight units : Nat)
  | outsideWrite (pa : Nat) (bytes : List (BitVec 8))
  deriving DecidableEq, Repr

/-- Units that report errors and are tested, fenced or spared (R395). -/
inductive ErrUnit where
  | sramRow (die row : Nat)
  | hbmRow (die row : Nat)
  | hbmChannel (die channel : Nat)
  | laneGroup (core : CorePlace) (group : Nat)
  | port (n : Nat)
  /-- A UCIe die-to-die link (R392), by the chip that reports it: compute dies 0 to 15, I/O chiplets 16 to 19. -/
  | ucie (chip : Nat)
  | die (n : Nat)
  deriving DecidableEq, Repr

/-- Where a checkpoint's bytes go: a peer package, and the first address taken for them in its HBM (R396). -/
structure PeerPlace where
  peer : Nat
  base : Nat
  deriving DecidableEq, Repr

/-- What firmware restarts: a context, and for each page it moves the old and the new physical address (R341, R397). -/
structure Restart where
  ctx : Nat
  moves : List (Nat × Nat)
  deriving DecidableEq, Repr

/-- The MMIO and BAR0 registers whose write has no behaviour of its own (R5, R372, R400, R402, R382). -/
inductive MmioReg where
  | hdtgt (func : Nat)
  | lqbase (func q : Nat)
  | anonce (j : Fin 4)
  | adst
  | elsel
  | apertureBase (v : Nat)
  | apertureLimit (v : Nat)
  | ccomm (ctx : Nat)
  | unlisted (offset : Nat)
  deriving DecidableEq, Repr

/-- The instructions and device events of spec/opcode_table.json, one constructor per row. An event's arguments name
the unit it happens at; an encoded instruction carries its decoded fields. The events stand first, because compiled
code can build only the first 244 constructors. -/
inductive Instr where
  /-- `LONG_LATENCY_RESULT`, R23: A long-latency producer's result arrives and marks its destination full. -/
  | longLatencyResult (h : Nat) (r : Reg)
  /-- `LANE_GROUP_ARBITRATION`, R325: The core arbiter binds an E-queue head to a free lane group and advances its pass. -/
  | laneGroupArbitration (place : CorePlace)
  /-- `MEMORY_ACCESS_PERFORM`, R195: An access is performed at its home at one instant. -/
  | memoryAccessPerform (a : AccessRef)
  /-- `PAGE_TABLE_WALK`, R339: A TLB miss walks the page tables when a walker is free. -/
  | pageTableWalk (h : Nat) (kind : AccessKind) (va : Nat)
  /-- `ASYNC_CAUSE_TAKEN`, R350: A pending asynchronous cause is taken at an instruction boundary. -/
  | asyncCauseTaken (h : Nat)
  /-- `TTMO_EXPIRY`, R221: A wait's TTMO time elapses and it returns. -/
  | ttmoExpiry (h : Nat)
  /-- `WAITER_WAKE`, R218: A sleeping wait is woken and re-tests its object. -/
  | waiterWake (h : Nat)
  /-- `TIMER_EXPIRY`, R355: PREEMPT.TLEFT falls to zero and TIMER becomes pending. -/
  | timerExpiry (h : Nat)
  /-- `ENERGY_REFILL`, R326: At each microsecond of TIME the energy budget is refilled. -/
  | energyRefill (g : Nat)
  /-- `ISSUE_WINDOW`, R327: A new 256-cycle window resets the issue count limit. -/
  | issueWindow (place : CorePlace)
  /-- `CURRENT_BACKSTOP`, R328: The current sensor stalls a core's lane groups. -/
  | currentBackstop (place : CorePlace)
  /-- `COPY_RECORD_START`, R230: A channel checks and starts its next record. -/
  | copyRecordStart (ch : ChannelId)
  /-- `COPY_RECORD_RETIRE`, R233: A record completes and is retired in chain order. -/
  | copyRecordRetire (ch : ChannelId)
  /-- `COPY_RECORD_FAIL`, R234: A record fails and its channel stops. -/
  | copyRecordFail (ch : ChannelId) (code : BitVec 8)
  /-- `PREFETCH_SECTOR_DONE`, R174: A prefetched sector becomes resident and credits its barrier. -/
  | prefetchSectorDone (p : Nat)
  /-- `BASE_DIE_COMPLETION`, R177: A base-die command completes or fails and reports. -/
  | baseDieCompletion (n : Nat)
  /-- `TUPLE_DEPOSIT_AT_HOME`, R244: A deposit is delivered, stored or refused at its home slice. -/
  | tupleDepositAtHome (n : Nat)
  /-- `TUPLE_REQUEST_AT_HOME`, R245: A copy or take request matches, parks or ends at its home. -/
  | tupleRequestAtHome (n : Nat)
  /-- `TUPLE_CANCEL_AT_HOME`, R248: A cancellation withdraws a parked request. -/
  | tupleCancelAtHome (n : Nat)
  /-- `TUPLE_DELIVERY`, R245: A delivered tuple fills the requester's destination. -/
  | tupleDelivery (n : Nat)
  /-- `TUPLE_TIMEOUT`, R247: A parked request's TTMO expires and it is withdrawn. -/
  | tupleTimeout (n : Nat)
  /-- `CB_ALLOC_AT_HOME`, R257: An allocation binds the lowest free slot. -/
  | cbAllocAtHome (n : Nat)
  /-- `CB_PUT_AT_HOME`, R258: A contribution is accepted or refused at the slot's home. -/
  | cbPutAtHome (n : Nat)
  /-- `SLOT_COMBINE`, R260: The reduction engine combines a complete or partial slot into its output row. -/
  | slotCombine (b : BufferId) (slot : Nat)
  /-- `COMBINE_DEADLINE`, R261: A slot's deadline passes and it is combined partially. -/
  | combineDeadline (b : BufferId) (slot : Nat)
  /-- `SLOT_RELEASE`, R262: A DONE slot is released, its counter incremented and slot freed. -/
  | slotRelease (b : BufferId) (slot : Nat)
  /-- `MESH_JOB`, R277: A rebuild or balance job runs once the other buffer is unbound. -/
  | meshJob (n : Nat)
  /-- `GENERATION_PUBLISH`, R280: A job ends, publishing the new generation or recording failure. -/
  | generationPublish (n : Nat)
  /-- `FIELD_REMAP`, R282: A field remap for the new generation completes. -/
  | fieldRemap (n : Nat)
  /-- `GHOST_REFRESH`, R284: A ghost refresh writes entries and credits its barrier. -/
  | ghostRefresh (n : Nat)
  /-- `LAUNCH_RECORD_TAKE`, R313: The scheduler takes a launch record from a queue and checks it. -/
  | launchRecordTake (func q : Nat)
  /-- `LAUNCH_HART_BIND`, R314: A launched hart is bound to a free hart slot. -/
  | launchHartBind (g : Nat) (place : Place)
  /-- `GANG_END`, R315: A gang ends, writing its launch record and counter. -/
  | gangEnd (g : Nat)
  /-- `TASK_BIND`, R324: A READY record is bound to a free hart slot. -/
  | taskBind (ctx : Nat) (place : Place)
  /-- `PREEMPT_SEQUENCE`, R356: A hart takes PREEMPT, quiesces and writes its image. -/
  | preemptSequence (h : Nat)
  /-- `CTXRES_WRITE`, R365: A write of a save-area address starts a resume. -/
  | ctxresWrite (die : Nat) (value : BitVec 64)
  /-- `RESUME_SEQUENCE`, R366: Restores the context part and binds the saved harts. -/
  | resumeSequence (die : Nat) (placing : List (Nat × Place))
  /-- `RESUME_HART_BIND`, R366: A saved hart is bound to a free slot on its placed core. -/
  | resumeHartBind (die : Nat) (place : Place)
  /-- `SRCARVE_WRITE`, R184: Changes the die SRAM carve-out and moves home-slice state. -/
  | srcarveWrite (die : Nat) (value : BitVec 64)
  /-- `RASCNT_CLEAR`, R394: An owner write of zero clears the error counts. -/
  | rascntClear (m : Master) (die : Nat) (value : BitVec 64)
  /-- `CTXCR_WRITE`, R376: Creates, reassigns or ends a context. -/
  | ctxcrWrite (ctx : Nat) (value : BitVec 64)
  /-- `HOST_BAR2_ACCESS`, R372: A host access through BAR2 to package HBM. -/
  | hostBar2Access (func : Nat) (offset size : Nat) (write : Option Nat)
  /-- `HCLAIM_WRITE`, R377: Hands over ownership or records a claim. -/
  | hclaimWrite (m : Master) (value : BitVec 64)
  /-- `HBEAT_WRITE`, R377: The owner's heartbeat restarts the lapse interval. -/
  | hbeatWrite (m : Master)
  /-- `OWNER_LAPSE`, R377: Two seconds without heartbeat pass ownership to the lowest claimant. -/
  | ownerLapse
  /-- `HDOOR_WRITE`, R375: Makes HOST pending for the targeted hart. -/
  | hdoorWrite (func : Nat) (value : BitVec 64)
  /-- `HPRE_WRITE`, R375: Requests PREEMPT for a whole context. -/
  | hpreWrite (func : Nat) (value : BitVec 64)
  /-- `LQCFG_WRITE`, R373: Configures a launch queue and resets its pointers. -/
  | lqcfgWrite (func q : Nat) (value : BitVec 64)
  /-- `LQTAIL_WRITE`, R373: Advances a launch queue's tail as a release. -/
  | lqtailWrite (func q : Nat) (value : BitVec 64)
  /-- `ACMD_WRITE`, R400: Starts an attestation report. -/
  | acmdWrite (m : Master)
  /-- `ATTESTATION_REPORT`, R401: The controller writes a signed report and signals its master. -/
  | attestationReport
  /-- `ELRD_READ`, R403: Reads the next event-log word and advances the master's cursor. -/
  | elrdRead (m : Master)
  /-- `REGISTER_WRITE`, R5: Write to an MMIO or BAR0 register without behaviour of its own. -/
  | registerWrite (m : Master) (r : MmioReg) (value : BitVec 64)
  /-- `COLL_SENT`, R389: A rank's send buffer has been read and SENT is set. -/
  | collSent (n rank : Nat)
  /-- `COLL_DONE`, R389: A rank's receive buffer is written and DONE and CTR published. -/
  | collDone (n rank : Nat)
  /-- `COLL_FAIL`, R390: A collective fails on a rank and reports. -/
  | collFail (n rank : Nat) (code : BitVec 8)
  /-- `LINK_FLIT_RESEND`, R378: An unacknowledged flit is resent from the retry store. -/
  | linkFlitResend (u : ErrUnit)
  /-- `ROUTE_LOST`, R379: Firmware declares a route lost and in-flight accesses end. -/
  | routeLost (pkgA pkgB : Nat)
  /-- `CORRECTABLE_ERROR`, R392: A correctable error is corrected and written back. -/
  | correctableError (u : ErrUnit)
  /-- `HBM_PARITY_ALERT`, R393: A command (or, where `onAddress`, an address) parity alert rewinds and replays the channel. -/
  | hbmParityAlert (die channel : Nat) (onAddress : Bool)
  /-- `SELF_TEST_COMPLETE`, R395: A targeted self-test ends, classifying the error and fencing lasting faults. -/
  | selfTestComplete (u : ErrUnit) (pass : Bool)
  /-- `CHECKPOINT`, R396: A context is saved and copied to a peer package. -/
  | checkpoint (ctx : Nat) (dst : PeerPlace)
  /-- `CONTEXT_RESTART`, R397: A context restarts from its last checkpoint. -/
  | contextRestart (r : Restart)
  /-- `MEASURED_START`, R398: At reset each start stage is measured into MREG before it runs. -/
  | measuredStart (stage : Fin 8) (image : List (BitVec 8)) (loaded : Bool) (entry : BitVec 55)
  /-- `HOME_SLICE_STATE_MOVE`, R335: Firmware moves a context's home-slice state from every slice of physical die P to the same-numbered slice of Q, or the move is refused when  -/
  | homeSliceStateMove (ctx fromDie toDie : Nat)
  /-- `PACKAGE_SCHEDULER_PREEMPT`, R355: The package scheduler, acting for firmware, requests PREEMPT for the harts of a context. -/
  | packageSchedulerPreempt (ctx : Nat)
  /-- `ADD`, R83: Adds source B register to x[A] modulo 2^64 into x[D]. -/
  | add (f : Fields)
  /-- `ADD_I`, R83: Adds the sign-extended immediate to x[A] into x[D]. -/
  | addI (f : Fields)
  /-- `SUB`, R83: Subtracts x[B] from x[A] modulo 2^64 into x[D]. -/
  | sub (f : Fields)
  /-- `SUB_I`, R83: Subtracts the sign-extended immediate from x[A] into x[D]. -/
  | subI (f : Fields)
  /-- `MUL`, R83: Writes the low 64 bits of x[A] times x[B]. -/
  | mul (f : Fields)
  /-- `MUL_I`, R83: Writes the low 64 bits of x[A] times the immediate. -/
  | mulI (f : Fields)
  /-- `MULH`, R83: Writes the high 64 bits of the signed product of x[A] and x[B]. -/
  | mulh (f : Fields)
  /-- `MULH_I`, R83: Writes the high 64 bits of the signed product of x[A] and the immediate. -/
  | mulhI (f : Fields)
  /-- `MULHU`, R83: Writes the high 64 bits of the unsigned product of x[A] and x[B]. -/
  | mulhu (f : Fields)
  /-- `MULHU_I`, R83: Writes the high 64 bits of the unsigned product of x[A] and the immediate. -/
  | mulhuI (f : Fields)
  /-- `DIV`, R84: Signed division truncating toward zero, a long-latency producer with defined results for zero and overflow. -/
  | div (f : Fields)
  /-- `DIV_I`, R84: Signed division of x[A] by the immediate. -/
  | divI (f : Fields)
  /-- `DIVU`, R84: Unsigned division, all ones on division by zero. -/
  | divu (f : Fields)
  /-- `DIVU_I`, R84: Unsigned division of x[A] by the immediate. -/
  | divuI (f : Fields)
  /-- `REM`, R84: Signed remainder, x[A] on division by zero. -/
  | rem (f : Fields)
  /-- `REM_I`, R84: Signed remainder of x[A] by the immediate. -/
  | remI (f : Fields)
  /-- `REMU`, R84: Unsigned remainder, x[A] on division by zero. -/
  | remu (f : Fields)
  /-- `REMU_I`, R84: Unsigned remainder of x[A] by the immediate. -/
  | remuI (f : Fields)
  /-- `AND`, R83: Bitwise and of x[A] and x[B]. -/
  | and (f : Fields)
  /-- `AND_I`, R83: Bitwise and of x[A] and the immediate. -/
  | andI (f : Fields)
  /-- `OR`, R83: Bitwise or of x[A] and x[B]. -/
  | or (f : Fields)
  /-- `OR_I`, R83: Bitwise or of x[A] and the immediate. -/
  | orI (f : Fields)
  /-- `XOR`, R83: Bitwise exclusive or of x[A] and x[B]. -/
  | xor (f : Fields)
  /-- `XOR_I`, R83: Bitwise exclusive or of x[A] and the immediate. -/
  | xorI (f : Fields)
  /-- `ANDN`, R83: x[A] and not x[B]. -/
  | andn (f : Fields)
  /-- `ANDN_I`, R83: x[A] and not the immediate. -/
  | andnI (f : Fields)
  /-- `SLL`, R84: Shifts x[A] left by x[B][5:0]. -/
  | sll (f : Fields)
  /-- `SLL_I`, R84: Shifts x[A] left by an immediate 0-63. -/
  | sllI (f : Fields)
  /-- `SRL`, R84: Logical right shift of x[A] by x[B][5:0]. -/
  | srl (f : Fields)
  /-- `SRL_I`, R84: Logical right shift of x[A] by an immediate 0-63. -/
  | srlI (f : Fields)
  /-- `SRA`, R84: Arithmetic right shift of x[A] by x[B][5:0]. -/
  | sra (f : Fields)
  /-- `SRA_I`, R84: Arithmetic right shift of x[A] by an immediate 0-63. -/
  | sraI (f : Fields)
  /-- `ROL`, R84: Rotates x[A] left by x[B][5:0]. -/
  | rol (f : Fields)
  /-- `ROL_I`, R84: Rotates x[A] left by an immediate 0-63. -/
  | rolI (f : Fields)
  /-- `SLT`, R83: Writes 1 to an x or p destination when x[A] is signed-less than x[B]. -/
  | slt (f : Fields)
  /-- `SLT_I`, R83: Signed less-than against the immediate. -/
  | sltI (f : Fields)
  /-- `SLTU`, R83: Writes 1 when x[A] is unsigned-less than x[B]. -/
  | sltu (f : Fields)
  /-- `SLTU_I`, R83: Unsigned less-than against the immediate. -/
  | sltuI (f : Fields)
  /-- `MIN`, R83: Signed minimum of x[A] and x[B]. -/
  | min (f : Fields)
  /-- `MIN_I`, R83: Signed minimum of x[A] and the immediate. -/
  | minI (f : Fields)
  /-- `MAX`, R83: Signed maximum of x[A] and x[B]. -/
  | max (f : Fields)
  /-- `MAX_I`, R83: Signed maximum of x[A] and the immediate. -/
  | maxI (f : Fields)
  /-- `MINU`, R83: Unsigned minimum of x[A] and x[B]. -/
  | minu (f : Fields)
  /-- `MINU_I`, R83: Unsigned minimum of x[A] and the immediate. -/
  | minuI (f : Fields)
  /-- `MAXU`, R83: Unsigned maximum of x[A] and x[B]. -/
  | maxu (f : Fields)
  /-- `MAXU_I`, R83: Unsigned maximum of x[A] and the immediate. -/
  | maxuI (f : Fields)
  /-- `CLZ`, R83: Counts leading zeros of x[A], 64 for zero. -/
  | clz (f : Fields)
  /-- `CTZ`, R83: Counts trailing zeros of x[A], 64 for zero. -/
  | ctz (f : Fields)
  /-- `POPC`, R83: Counts the one bits of x[A]. -/
  | popc (f : Fields)
  /-- `SEXT`, R84: Sign-extends the low n bits of x[A], n from x[B][5:0]. -/
  | sext (f : Fields)
  /-- `SEXT_I`, R84: Sign-extends the low n bits of x[A], n an immediate. -/
  | sextI (f : Fields)
  /-- `ZEXT`, R84: Zero-extends the low n bits of x[A], n from x[B][5:0]. -/
  | zext (f : Fields)
  /-- `ZEXT_I`, R84: Zero-extends the low n bits of x[A], n an immediate. -/
  | zextI (f : Fields)
  /-- `LI`, R83: Loads the sign-extended 32-bit immediate into x[D]. -/
  | li (f : Fields)
  /-- `LIH`, R83: Writes IMM times 2^32 plus the low 32 bits of x[A]. -/
  | lih (f : Fields)
  /-- `SEL`, R83: Selects x[A] when predicate C is true, else x[B]. -/
  | sel (f : Fields)
  /-- `FADD`, R85: Rounded scalar floating-point sum in the format selected by FN. -/
  | fadd (f : Fields)
  /-- `FSUB`, R85: Rounded scalar floating-point difference. -/
  | fsub (f : Fields)
  /-- `FMUL`, R85: Rounded scalar floating-point product. -/
  | fmul (f : Fields)
  /-- `FMA`, R85: Fused multiply-add with one rounding. -/
  | fma (f : Fields)
  /-- `FDIV`, R85: Rounded scalar floating-point quotient, a long-latency producer. -/
  | fdiv (f : Fields)
  /-- `FSQRT`, R85: Rounded scalar square root, a long-latency producer. -/
  | fsqrt (f : Fields)
  /-- `FMIN`, R86: Lesser operand with -0 below +0 and NaN handling. -/
  | fmin (f : Fields)
  /-- `FMAX`, R86: Greater operand with -0 below +0 and NaN handling. -/
  | fmax (f : Fields)
  /-- `FSGN`, R85: A with the sign of B, copying bits. -/
  | fsgn (f : Fields)
  /-- `FSGN_N`, R85: A with the negated sign of B. -/
  | fsgnN (f : Fields)
  /-- `FSGN_X`, R85: A with the sign of A xor B. -/
  | fsgnX (f : Fields)
  /-- `FCLASS`, R87: Writes the 9-bit class value of the operand. -/
  | fclass (f : Fields)
  /-- `FCMP_EQ`, R87: Floating-point equality compare into x or p. -/
  | fcmpEq (f : Fields)
  /-- `FCMP_LT`, R87: Floating-point less-than compare, NV on NaN. -/
  | fcmpLt (f : Fields)
  /-- `FCMP_LE`, R87: Floating-point less-or-equal compare, NV on NaN. -/
  | fcmpLe (f : Fields)
  /-- `FCMP_UN`, R87: True when either operand is a NaN. -/
  | fcmpUn (f : Fields)
  /-- `FCVT`, R88: Converts one value between the floating-point and integer types named by FN. -/
  | fcvt (f : Fields)
  /-- `PCMP_EQ`, R89: Sets a predicate when x[A] equals x[B]. -/
  | pcmpEq (f : Fields)
  /-- `PCMP_NE`, R89: Sets a predicate when x[A] differs from x[B]. -/
  | pcmpNe (f : Fields)
  /-- `PCMP_LT`, R89: Sets a predicate on signed less-than. -/
  | pcmpLt (f : Fields)
  /-- `PCMP_GE`, R89: Sets a predicate on signed greater-or-equal. -/
  | pcmpGe (f : Fields)
  /-- `PCMP_LTU`, R89: Sets a predicate on unsigned less-than. -/
  | pcmpLtu (f : Fields)
  /-- `PCMP_GEU`, R89: Sets a predicate on unsigned greater-or-equal. -/
  | pcmpGeu (f : Fields)
  /-- `PCMP_EQ_I`, R89: Predicate compare for equality against the immediate. -/
  | pcmpEqI (f : Fields)
  /-- `PCMP_NE_I`, R89: Predicate compare for inequality against the immediate. -/
  | pcmpNeI (f : Fields)
  /-- `PCMP_LT_I`, R89: Signed less-than against the immediate. -/
  | pcmpLtI (f : Fields)
  /-- `PCMP_GE_I`, R89: Signed greater-or-equal against the immediate. -/
  | pcmpGeI (f : Fields)
  /-- `PCMP_LTU_I`, R89: Unsigned less-than against the immediate. -/
  | pcmpLtuI (f : Fields)
  /-- `PCMP_GEU_I`, R89: Unsigned greater-or-equal against the immediate. -/
  | pcmpGeuI (f : Fields)
  /-- `PLOG_AND`, R89: Predicate and. -/
  | plogAnd (f : Fields)
  /-- `PLOG_OR`, R89: Predicate or. -/
  | plogOr (f : Fields)
  /-- `PLOG_XOR`, R89: Predicate exclusive or. -/
  | plogXor (f : Fields)
  /-- `PLOG_ANDN`, R89: Predicate and-not. -/
  | plogAndn (f : Fields)
  /-- `PMOV`, R89: Copies predicate A to predicate D. -/
  | pmov (f : Fields)
  /-- `PMOV_PX`, R89: Sets predicate D when x[A] is non-zero. -/
  | pmovPx (f : Fields)
  /-- `PMOV_XP`, R89: Writes 1 or 0 to x[D] from predicate A. -/
  | pmovXp (f : Fields)
  /-- `PMOV_PK`, R89: Packs all sixteen predicates into x[D]. -/
  | pmovPk (f : Fields)
  /-- `PMOV_UPK`, R89: Unpacks bits 1-15 of x[A] into p1-p15. -/
  | pmovUpk (f : Fields)
  /-- `BR`, R90: Unconditional PC-relative branch. -/
  | br (f : Fields)
  /-- `BR_Z`, R90: Branches when x[A] is zero. -/
  | brZ (f : Fields)
  /-- `BR_NZ`, R90: Branches when x[A] is non-zero. -/
  | brNz (f : Fields)
  /-- `JAL`, R90: Writes the return address and jumps PC-relative. -/
  | jal (f : Fields)
  /-- `JR`, R90: Jumps to x[A] plus the immediate, writing the return address. -/
  | jr (f : Fields)
  /-- `LOOP_0`, R91: Sets up hardware loop 0 with count, begin and end. -/
  | loop0 (f : Fields)
  /-- `LOOP_1`, R91: Sets up hardware loop 1 with count, begin and end. -/
  | loop1 (f : Fields)
  /-- `LBRK_0`, R93: Breaks out of loop 0. -/
  | lbrk0 (f : Fields)
  /-- `LBRK_1`, R93: Breaks out of loop 1. -/
  | lbrk1 (f : Fields)
  /-- `YIELD`, R94: Ends the hart's current turn at the core arbiter. -/
  | yield (f : Fields)
  /-- `EXIT`, R95: Drains the hart, releases its accesses, performs task completion and frees the slot. -/
  | exit (f : Fields)
  /-- `GSR`, R96: Reads a system register into x[D]. -/
  | gsr (f : Fields)
  /-- `SSR`, R96: Writes x[A] to a system register with its own rules. -/
  | ssr (f : Fields)
  /-- `SSR_SET`, R96: Sets bits of a system register from x[A]. -/
  | ssrSet (f : Fields)
  /-- `SSR_CLR`, R96: Clears bits of a system register from x[A]. -/
  | ssrClr (f : Fields)
  /-- `FENCE`, R202: Acquire and/or release fence over chosen streams at a scope. -/
  | fence (f : Fields)
  /-- `SBAR`, R200: Orders the hart's accesses across a set of streams. -/
  | sbar (f : Fields)
  /-- `IFENCE`, R98: Discards prefetched instructions and restarts fetch. -/
  | ifence (f : Fields)
  /-- `SYS`, R99: Raises SYSCALL with the immediate. -/
  | sys (f : Fields)
  /-- `EBRK`, R99: Raises BREAK with the immediate. -/
  | ebrk (f : Fields)
  /-- `ERET`, R100: Returns from a trap at S or F, restoring privilege. -/
  | eret (f : Fields)
  /-- `TLBINV_ALL`, R101: Removes every non-global TLB entry within the scope. -/
  | tlbinvAll (f : Fields)
  /-- `TLBINV_ASID`, R101: Removes non-global TLB entries of one ASID within the scope. -/
  | tlbinvAsid (f : Fields)
  /-- `TLBINV_VA`, R101: Removes TLB entries mapping one VA within the scope. -/
  | tlbinvVa (f : Fields)
  /-- `TLBINV_GLOB`, R101: Removes every TLB entry within the scope. -/
  | tlbinvGlob (f : Fields)
  /-- `HCTL_WFI`, R102: Sleeps until an asynchronous cause is pending. -/
  | hctlWfi (f : Fields)
  /-- `HCTL_PRE`, R102: Requests PREEMPT for a named hart of the context. -/
  | hctlPre (f : Fields)
  /-- `SETVL`, R104: Grants VL from x[A] under the current VTYPE. -/
  | setvl (f : Fields)
  /-- `SETVL_I`, R104: Grants VL from the immediate. -/
  | setvlI (f : Fields)
  /-- `SETVR`, R103: Sets VR clamped to 1-8 from x[A]. -/
  | setvr (f : Fields)
  /-- `SETVR_I`, R103: Sets VR clamped to 1-8 from the immediate. -/
  | setvrI (f : Fields)
  /-- `SETVT`, R105: Checks and sets VTYPE from x[A] and regrants VL. -/
  | setvt (f : Fields)
  /-- `SETVT_I`, R105: Checks and sets VTYPE from the immediate and regrants VL. -/
  | setvtI (f : Fields)
  /-- `SETRL`, R104: Sets ROWLEN from x[A] and returns the tile element count. -/
  | setrl (f : Fields)
  /-- `SETRL_ROW`, R104: Sets one row length of ROWLEN and returns the tile element count. -/
  | setrlRow (f : Fields)
  /-- `VADD`, R110: Element-wise integer sum modulo 2^SEW. -/
  | vadd (f : Fields)
  /-- `VADD_I`, R110: Element-wise integer sum with the immediate. -/
  | vaddI (f : Fields)
  /-- `VSUB`, R110: Element-wise integer difference. -/
  | vsub (f : Fields)
  /-- `VSUB_I`, R110: Element-wise integer difference with the immediate. -/
  | vsubI (f : Fields)
  /-- `VMUL`, R110: Element-wise low product. -/
  | vmul (f : Fields)
  /-- `VMUL_I`, R110: Element-wise low product with the immediate. -/
  | vmulI (f : Fields)
  /-- `VMULH`, R110: Element-wise high product. -/
  | vmulh (f : Fields)
  /-- `VMULH_I`, R110: Element-wise high product with the immediate. -/
  | vmulhI (f : Fields)
  /-- `VMACC`, R110: Element-wise multiply-accumulate into the destination. -/
  | vmacc (f : Fields)
  /-- `VMACC_I`, R110: Element-wise multiply-accumulate with the immediate. -/
  | vmaccI (f : Fields)
  /-- `VMACC_N`, R110: Element-wise multiply-subtract from the destination. -/
  | vmaccN (f : Fields)
  /-- `VMACC_N_I`, R110: Element-wise multiply-subtract with the immediate. -/
  | vmaccNI (f : Fields)
  /-- `VAND`, R110: Element-wise bitwise and. -/
  | vand (f : Fields)
  /-- `VAND_I`, R110: Element-wise bitwise and with the immediate. -/
  | vandI (f : Fields)
  /-- `VOR`, R110: Element-wise bitwise or. -/
  | vor (f : Fields)
  /-- `VOR_I`, R110: Element-wise bitwise or with the immediate. -/
  | vorI (f : Fields)
  /-- `VXOR`, R110: Element-wise bitwise exclusive or. -/
  | vxor (f : Fields)
  /-- `VXOR_I`, R110: Element-wise bitwise exclusive or with the immediate. -/
  | vxorI (f : Fields)
  /-- `VSLL`, R110: Element-wise left shift. -/
  | vsll (f : Fields)
  /-- `VSLL_I`, R110: Element-wise left shift by the immediate. -/
  | vsllI (f : Fields)
  /-- `VSRL`, R110: Element-wise logical right shift. -/
  | vsrl (f : Fields)
  /-- `VSRL_I`, R110: Element-wise logical right shift by the immediate. -/
  | vsrlI (f : Fields)
  /-- `VSRA`, R110: Element-wise arithmetic right shift. -/
  | vsra (f : Fields)
  /-- `VSRA_I`, R110: Element-wise arithmetic right shift by the immediate. -/
  | vsraI (f : Fields)
  /-- `VMIN`, R110: Element-wise minimum. -/
  | vmin (f : Fields)
  /-- `VMIN_I`, R110: Element-wise minimum with the immediate. -/
  | vminI (f : Fields)
  /-- `VMAX`, R110: Element-wise maximum. -/
  | vmax (f : Fields)
  /-- `VMAX_I`, R110: Element-wise maximum with the immediate. -/
  | vmaxI (f : Fields)
  /-- `VSADD`, R110: Element-wise saturating sum, setting VSAT on clamp. -/
  | vsadd (f : Fields)
  /-- `VSADD_I`, R110: Element-wise saturating sum with the immediate. -/
  | vsaddI (f : Fields)
  /-- `VFADD`, R111: Element-wise rounded floating-point sum. -/
  | vfadd (f : Fields)
  /-- `VFSUB`, R111: Element-wise rounded floating-point difference. -/
  | vfsub (f : Fields)
  /-- `VFMUL`, R111: Element-wise rounded floating-point product. -/
  | vfmul (f : Fields)
  /-- `VFFMA`, R111: Element-wise fused a*b+c. -/
  | vffma (f : Fields)
  /-- `VFFMA_MS`, R111: Element-wise fused a*b-c. -/
  | vffmaMs (f : Fields)
  /-- `VFFMA_NM`, R111: Element-wise fused -a*b+c. -/
  | vffmaNm (f : Fields)
  /-- `VFFMA_NMS`, R111: Element-wise fused -a*b-c. -/
  | vffmaNms (f : Fields)
  /-- `VFDIV`, R111: Element-wise rounded quotient, a long-latency producer. -/
  | vfdiv (f : Fields)
  /-- `VFSQRT`, R111: Element-wise rounded square root, a long-latency producer. -/
  | vfsqrt (f : Fields)
  /-- `VFRCPE`, R47: Element-wise 12-bit reciprocal estimate. -/
  | vfrcpe (f : Fields)
  /-- `VFRSQE`, R47: Element-wise 12-bit reciprocal square-root estimate. -/
  | vfrsqe (f : Fields)
  /-- `VFMIN`, R86: Element-wise floating-point minimum. -/
  | vfmin (f : Fields)
  /-- `VFMAX`, R86: Element-wise floating-point maximum. -/
  | vfmax (f : Fields)
  /-- `VFSGN`, R111: Element-wise sign copy from B. -/
  | vfsgn (f : Fields)
  /-- `VFSGN_N`, R111: Element-wise negated sign copy from B. -/
  | vfsgnN (f : Fields)
  /-- `VFSGN_X`, R111: Element-wise sign xor. -/
  | vfsgnX (f : Fields)
  /-- `VFCMP_EQ`, R112: Element-wise equality compare into mask bits. -/
  | vfcmpEq (f : Fields)
  /-- `VFCMP_LT`, R112: Element-wise less-than compare into mask bits. -/
  | vfcmpLt (f : Fields)
  /-- `VFCMP_LE`, R112: Element-wise less-or-equal compare into mask bits. -/
  | vfcmpLe (f : Fields)
  /-- `VFCMP_UN`, R112: Element-wise unordered compare into mask bits. -/
  | vfcmpUn (f : Fields)
  /-- `VFCLASS`, R112: Element-wise class value. -/
  | vfclass (f : Fields)
  /-- `VFCVT`, R113: Converts each active element to the format named in IMM. -/
  | vfcvt (f : Fields)
  /-- `VMXQ`, R114: Quantises a tile into an MX format and writes its block scales. -/
  | vmxq (f : Fields)
  /-- `VMV`, R115: Copies active elements of A into D. -/
  | vmv (f : Fields)
  /-- `VMV_X`, R115: Broadcasts a scalar into active elements. -/
  | vmvX (f : Fields)
  /-- `VMV_XV`, R116: Reads one tile element into x[D]. -/
  | vmvXv (f : Fields)
  /-- `VMV_I`, R115: Broadcasts the immediate into active elements. -/
  | vmvI (f : Fields)
  /-- `VRND`, R117: Fills a tile from the counter-based generator. -/
  | vrnd (f : Fields)
  /-- `VRND_ADV`, R117: Fills a tile from the generator and advances the counter. -/
  | vrndAdv (f : Fields)
  /-- `CTABW`, R118: Writes the code table from row 0 of a tile. -/
  | ctabw (f : Fields)
  /-- `CTABW_X`, R118: Writes one code-table register from x[A]. -/
  | ctabwX (f : Fields)
  /-- `KAND`, R122: Mask and over all 4,096 bits. -/
  | kand (f : Fields)
  /-- `KOR`, R122: Mask or. -/
  | kor (f : Fields)
  /-- `KXOR`, R122: Mask exclusive or. -/
  | kxor (f : Fields)
  /-- `KANDN`, R122: Mask and-not. -/
  | kandn (f : Fields)
  /-- `KSET`, R122: Sets every mask bit to IMM[0]. -/
  | kset (f : Fields)
  /-- `KSET_TILE`, R122: Sets mask bits of the elements in the tile. -/
  | ksetTile (f : Fields)
  /-- `KSET_LT`, R122: Sets mask bits below x[A]. -/
  | ksetLt (f : Fields)
  /-- `KCNT`, R122: Counts active set mask bits into x[D]. -/
  | kcnt (f : Fields)
  /-- `KANY`, R122: Predicate true if any active mask bit is set. -/
  | kany (f : Fields)
  /-- `KANY_ALL`, R122: Predicate true if every active mask bit is set. -/
  | kanyAll (f : Fields)
  /-- `KFIRST`, R122: Index of the first active set mask bit. -/
  | kfirst (f : Fields)
  /-- `KMV`, R122: Copies a mask register. -/
  | kmv (f : Fields)
  /-- `KMV_V`, R122: Sets mask bits from non-zero tile elements. -/
  | kmvV (f : Fields)
  /-- `KMV_KV`, R122: Writes mask bits as integers into a tile. -/
  | kmvKv (f : Fields)
  /-- `KMV_X`, R122: Writes 64 mask bits from x[A]. -/
  | kmvX (f : Fields)
  /-- `KMV_KX`, R122: Reads 64 mask bits into x[D]. -/
  | kmvKx (f : Fields)
  /-- `VRED_SUM`, R124: Unordered tree sum reduction of active elements. -/
  | vredSum (f : Fields)
  /-- `VRED_MAX`, R124: Unordered maximum reduction. -/
  | vredMax (f : Fields)
  /-- `VRED_MIN`, R124: Unordered minimum reduction. -/
  | vredMin (f : Fields)
  /-- `VRED_AND`, R124: Unordered bitwise and reduction. -/
  | vredAnd (f : Fields)
  /-- `VRED_OR`, R124: Unordered bitwise or reduction. -/
  | vredOr (f : Fields)
  /-- `VRED_XOR`, R124: Unordered bitwise xor reduction. -/
  | vredXor (f : Fields)
  /-- `VFREDO_SUM`, R125: Ordered floating-point sum in ascending index. -/
  | vfredoSum (f : Fields)
  /-- `VREDROW_SUM`, R126: Per-row sum reduction into row 0 of D. -/
  | vredrowSum (f : Fields)
  /-- `VREDROW_MAX`, R126: Per-row maximum reduction. -/
  | vredrowMax (f : Fields)
  /-- `VREDROW_MIN`, R126: Per-row minimum reduction. -/
  | vredrowMin (f : Fields)
  /-- `VREDROW_AND`, R126: Per-row bitwise and reduction. -/
  | vredrowAnd (f : Fields)
  /-- `VREDROW_OR`, R126: Per-row bitwise or reduction. -/
  | vredrowOr (f : Fields)
  /-- `VREDROW_XOR`, R126: Per-row bitwise xor reduction. -/
  | vredrowXor (f : Fields)
  /-- `VPERM`, R128: Gathers tile elements by linear index. -/
  | vperm (f : Fields)
  /-- `VPERM_ROW`, R128: Gathers elements within each row by index. -/
  | vpermRow (f : Fields)
  /-- `VSLIDE_UP`, R129: Slides elements up within each row by x[B]. -/
  | vslideUp (f : Fields)
  /-- `VSLIDE_DN`, R129: Slides elements down within each row by x[B]. -/
  | vslideDn (f : Fields)
  /-- `VSLIDE_UP_I`, R129: Slides elements up by an immediate. -/
  | vslideUpI (f : Fields)
  /-- `VSLIDE_DN_I`, R129: Slides elements down by an immediate. -/
  | vslideDnI (f : Fields)
  /-- `VCOMP`, R130: Compresses selected elements densely and writes their count. -/
  | vcomp (f : Fields)
  /-- `VEXP`, R130: Expands dense elements to selected positions. -/
  | vexp (f : Fields)
  /-- `VPART`, R131: Partitions linear indices by a mask into a register pair. -/
  | vpart (f : Fields)
  /-- `VROWMV`, R132: Copies one 1,024-bit row between registers. -/
  | vrowmv (f : Fields)
  /-- `VTRN`, R133: Transposes the VR-square of a tile. -/
  | vtrn (f : Fields)
  /-- `VMERGE`, R134: Merges A and B under the mask. -/
  | vmerge (f : Fields)
  /-- `VZIP_LO`, R134: Interleaves the low halves of rows. -/
  | vzipLo (f : Fields)
  /-- `VZIP_HI`, R134: Interleaves the high halves of rows. -/
  | vzipHi (f : Fields)
  /-- `VZIP_EV`, R134: Selects even elements of the concatenated rows. -/
  | vzipEv (f : Fields)
  /-- `VZIP_OD`, R134: Selects odd elements of the concatenated rows. -/
  | vzipOd (f : Fields)
  /-- `VIOTA`, R135: Writes the prefix count of set mask bits. -/
  | viota (f : Fields)
  /-- `VIOTA_I`, R135: Writes each element's linear index. -/
  | viotaI (f : Fields)
  /-- `VBMV`, R137: Batched small matrix-vector product per row. -/
  | vbmv (f : Fields)
  /-- `VBMV_ACC`, R137: Batched matrix-vector product added to the destination. -/
  | vbmvAcc (f : Fields)
  /-- `VBMV_NACC`, R137: Batched matrix-vector product subtracted from the destination. -/
  | vbmvNacc (f : Fields)
  /-- `VBMM`, R137: Batched small matrix-matrix product per row. -/
  | vbmm (f : Fields)
  /-- `VBMM_ACC`, R137: Batched matrix-matrix product added to the destination. -/
  | vbmmAcc (f : Fields)
  /-- `VBMM_NACC`, R137: Batched matrix-matrix product subtracted from the destination. -/
  | vbmmNacc (f : Fields)
  /-- `VBLU`, R138: Batched LU factorisation without pivoting. -/
  | vblu (f : Fields)
  /-- `VBTRS`, R139: Batched triangular solve from an LU factor. -/
  | vbtrs (f : Fields)
  /-- `MCFG_I`, R145: Sets the accumulator shape from the immediate. -/
  | mcfgI (f : Fields)
  /-- `MCFG`, R145: Sets the accumulator shape from x[A]. -/
  | mcfg (f : Fields)
  /-- `MZERO`, R146: Zeroes a whole accumulator image. -/
  | mzero (f : Fields)
  /-- `MMAF`, R148: Floating-point outer-product accumulation over VR k-steps. -/
  | mmaf (f : Fields)
  /-- `MMAF_Z`, R148: Floating-point outer product starting from zero. -/
  | mmafZ (f : Fields)
  /-- `MMAX`, R149: Microscaled outer product of one K-block into the accumulator. -/
  | mmax (f : Fields)
  /-- `MMAX_Z`, R149: Microscaled outer product starting from zero. -/
  | mmaxZ (f : Fields)
  /-- `MMAI`, R148: INT8 outer-product accumulation with saturation. -/
  | mmai (f : Fields)
  /-- `MMAI_Z`, R148: INT8 outer product starting from zero. -/
  | mmaiZ (f : Fields)
  /-- `MTERN`, R148: Ternary-by-INT8 outer-product accumulation. -/
  | mtern (f : Fields)
  /-- `MTERN_Z`, R148: Ternary-by-INT8 outer product starting from zero. -/
  | mternZ (f : Fields)
  /-- `MRD`, R150: Converts accumulator rows from an immediate row into a tile. -/
  | mrd (f : Fields)
  /-- `MRD_X`, R150: Converts accumulator rows from x[B] into a tile. -/
  | mrdX (f : Fields)
  /-- `MWR`, R150: Converts tile rows into accumulator rows from an immediate row. -/
  | mwr (f : Fields)
  /-- `MWR_X`, R150: Converts tile rows into accumulator rows from x[B]. -/
  | mwrX (f : Fields)
  /-- `LD`, R155: Scalar load of 1-8 bytes into an x or p register. -/
  | ld (f : Fields)
  /-- `ST`, R155: Scalar store of 1-8 bytes. -/
  | st (f : Fields)
  /-- `VLD`, R156: Tile load with a row stride. -/
  | vld (f : Fields)
  /-- `VLD_C`, R156: Contiguous tile load, optionally through a base-die layout view. -/
  | vldC (f : Fields)
  /-- `VLD_R`, R163: Loads a whole v, k or s register image. -/
  | vldR (f : Fields)
  /-- `VLDS`, R156: Tile load with row and element strides. -/
  | vlds (f : Fields)
  /-- `VLDX`, R156: Indexed tile load. -/
  | vldx (f : Fields)
  /-- `VST`, R156: Tile store with a row stride. -/
  | vst (f : Fields)
  /-- `VST_C`, R156: Contiguous tile store. -/
  | vstC (f : Fields)
  /-- `VST_R`, R163: Stores a whole v, k or s register image. -/
  | vstR (f : Fields)
  /-- `VSTS`, R156: Tile store with row and element strides. -/
  | vsts (f : Fields)
  /-- `VSTX`, R156: Indexed tile store. -/
  | vstx (f : Fields)
  /-- `VLDBM`, R167: Loads a tile from bitmask-plus-values form. -/
  | vldbm (f : Fields)
  /-- `VSTBM`, R166: Stores a tile in bitmask-plus-values form within a reservation. -/
  | vstbm (f : Fields)
  /-- `AMO`, R169: Scalar atomic read-modify-write of 32 or 64 bits. -/
  | amo (f : Fields)
  /-- `VAMO`, R169: Vector atomics per element in no defined order. -/
  | vamo (f : Fields)
  /-- `VAMOO`, R169: Vector atomics performed in ascending element order. -/
  | vamoo (f : Fields)
  /-- `VREDM`, R171: Reduces a tile and applies one atomic with the result. -/
  | vredm (f : Fields)
  /-- `PF`, R174: Prefetches a range from HBM into die SRAM. -/
  | pf (f : Fields)
  /-- `PF_TX`, R174: Prefetches a range crediting a transaction barrier. -/
  | pfTx (f : Fields)
  /-- `HBGAT`, R176: Commands a base-die gather. -/
  | hbgat (f : Fields)
  /-- `HBRED`, R176: Commands a base-die indexed row reduction. -/
  | hbred (f : Fields)
  /-- `HBCVT`, R176: Commands a base-die format conversion. -/
  | hbcvt (f : Fields)
  /-- `BARV_TX`, R217: Arrives at a transaction barrier with a mask count. -/
  | barvTx (f : Fields)
  /-- `BARV_TX_X`, R217: Arrives at a transaction barrier with count x[B]. -/
  | barvTxX (f : Fields)
  /-- `BARV_G`, R220: Gang arrival with a mask count. -/
  | barvG (f : Fields)
  /-- `BARV_G_X`, R220: Gang arrival with count x[B]. -/
  | barvGX (f : Fields)
  /-- `BARW`, R220: Waits for the pending gang phase and returns its total. -/
  | barw (f : Fields)
  /-- `TXPOST`, R217: Posts expected sectors plus one arrival to a barrier. -/
  | txpost (f : Fields)
  /-- `TXARR`, R217: Arrives at a transaction barrier with count 1. -/
  | txarr (f : Fields)
  /-- `TXARR_INIT`, R217: Initialises a transaction barrier. -/
  | txarrInit (f : Fields)
  /-- `TXWAIT`, R218: Waits for the end of a barrier phase, an error or timeout. -/
  | txwait (f : Fields)
  /-- `CWAIT`, R222: Waits until a counter word reaches a threshold. -/
  | cwait (f : Fields)
  /-- `MARM`, R223: Arms the hart's monitor on a line. -/
  | marm (f : Fields)
  /-- `MWAIT`, R223: Sleeps until the monitor records a wake. -/
  | mwait (f : Fields)
  /-- `GSYNC`, R220: Gang arrival with count 1 followed by a wait. -/
  | gsync (f : Fields)
  /-- `PHASE_C`, R225: Switches the hart to the compute step kind. -/
  | phaseC (f : Fields)
  /-- `PHASE_X`, R225: Switches the hart to the exchange step kind. -/
  | phaseX (f : Fields)
  /-- `PHASE_GET`, R225: Reads the current step kind. -/
  | phaseGet (f : Fields)
  /-- `BDECL`, R187: Declares a scratchpad buffer. -/
  | bdecl (f : Fields)
  /-- `BDECL_FREE`, R187: Frees a declared buffer. -/
  | bdeclFree (f : Fields)
  /-- `BSET`, R188: Sets a buffer's state and clears its sector count. -/
  | bset (f : Fields)
  /-- `BSET_GET`, R188: Reads a buffer table entry. -/
  | bsetGet (f : Fields)
  /-- `CPH`, R228: Sets a copy channel's chain head and sequence word. -/
  | cph (f : Fields)
  /-- `CPH_GET`, R228: Reads a channel's CSTAT. -/
  | cphGet (f : Fields)
  /-- `CPT`, R229: Hands copy records up to a tail to a channel. -/
  | cpt (f : Fields)
  /-- `CPARM`, R236: Arms a channel tail update on a counter threshold. -/
  | cparm (f : Fields)
  /-- `TDEP`, R244: Deposits a tuple at its home. -/
  | tdep (f : Fields)
  /-- `TCPY`, R245: Blocking copy of a matching tuple. -/
  | tcpy (f : Fields)
  /-- `TCPY_NB`, R245: Non-blocking copy of a matching tuple. -/
  | tcpyNb (f : Fields)
  /-- `TTAKE`, R245: Blocking take of a matching tuple. -/
  | ttake (f : Fields)
  /-- `TTAKE_NB`, R245: Non-blocking take of a matching tuple. -/
  | ttakeNb (f : Fields)
  /-- `TCAN`, R248: Withdraws the hart's outstanding tuple request for a register. -/
  | tcan (f : Fields)
  /-- `CBALLOC`, R257: Binds a combine slot to a token and expected experts. -/
  | cballoc (f : Fields)
  /-- `CBPUT`, R258: Sends an expert contribution row to a slot. -/
  | cbput (f : Fields)
  /-- `CBSTAT`, R263: Reads the status of one combine slot. -/
  | cbstat (f : Fields)
  /-- `CBSTAT_BUF`, R263: Reads one count of a combine buffer. -/
  | cbstatBuf (f : Fields)
  /-- `MBIND`, R270: Binds the hart to the mesh's current generation. -/
  | mbind (f : Fields)
  /-- `MUNBIND`, R270: Removes the hart's binding to a mesh. -/
  | munbind (f : Fields)
  /-- `NBLD`, R273: Loads face neighbours of cells. -/
  | nbld (f : Fields)
  /-- `NBLD_ND`, R273: Loads node numbers of cells. -/
  | nbldNd (f : Fields)
  /-- `FCLD`, R274: Loads faces and their cells into a register pair. -/
  | fcld (f : Fields)
  /-- `FCLD_C`, R274: Loads faces of one colour. -/
  | fcldC (f : Fields)
  /-- `MMARK_R`, R275: Marks cells for refinement. -/
  | mmarkR (f : Fields)
  /-- `MMARK_C`, R275: Marks cells for coarsening. -/
  | mmarkC (f : Fields)
  /-- `MREBUILD`, R276: Starts a rebuild job for the next generation. -/
  | mrebuild (f : Fields)
  /-- `MREBUILD_INIT`, R276: Builds generation 0 from input cells. -/
  | mrebuildInit (f : Fields)
  /-- `MFIELD`, R281: Registers a field remap record. -/
  | mfield (f : Fields)
  /-- `MFIELD_RM`, R281: Unregisters a field handle. -/
  | mfieldRm (f : Fields)
  /-- `MGHOST`, R284: Starts a ghost-entry refresh for named fields. -/
  | mghost (f : Fields)
  /-- `MBAL`, R283: Starts a weighted repartition job. -/
  | mbal (f : Fields)
  /-- `VSFC_2D`, R285: Computes 2D curve keys element-wise. -/
  | vsfc2d (f : Fields)
  /-- `VSFC_3D`, R285: Computes 3D curve keys element-wise. -/
  | vsfc3d (f : Fields)
  /-- `MQ`, R286: Reads a selected mesh quantity. -/
  | mq (f : Fields)
  /-- `MQ_FIELD`, R286: Waits for a field's remap and returns its array address. -/
  | mqField (f : Fields)
  /-- `TKENQ`, R321: Enqueues a tile-task record to a chain. -/
  | tkenq (f : Fields)
  /-- `TKDONE`, R322: Performs the task-completion step early. -/
  | tkdone (f : Fields)
  /-- `TKNEXT`, R322: Advances to the task's next tile. -/
  | tknext (f : Fields)
  /-- `VDHOP`, R336: Writes the hop distance between two virtual dies. -/
  | vdhop (f : Fields)
  /-- `COLL`, R384: Starts a collective from a parameter block. -/
  | coll (f : Fields)
  deriving DecidableEq, Repr

end Sys2Proof
end

