-- ==== Sys2Proof/Decode.lean ====
section
/-! DEFINITION. Decoding a 96-bit word in the order of spec/03 R69 (steps 1 to 6, the checks that need no state beyond
the privilege level), the form table of every encoded instruction, and the encoder written from the same table. The
checks of step 6 that read the shape registers, step 7 and everything later are made by the meanings. -/
namespace Sys2Proof

/-- Privilege levels (R31, R346). -/
inductive Priv where
  | u
  | s
  | f
  deriving DecidableEq, Repr

/-- The code of a level in `SSTAT.PL`: 0 U, 1 S, 2 F (R346). -/
def Priv.code : Priv → Nat
  | .u => 0
  | .s => 1
  | .f => 2

/-- Why a word is illegal: `EVAL.SUB` and `EVAL.FIELD` of R70, and the system register concerned. -/
structure Illegal where
  sub : BitVec 8
  field : BitVec 4
  sreg : BitVec 12 := 0
  deriving DecidableEq, Repr

/-- `EVAL` after ILLEGAL (R70, Table 4). -/
def Illegal.eval (i : Illegal) : BitVec 64 :=
  i.sub.setWidth 64 ||| (i.field.setWidth 64 <<< 8) ||| (i.sreg.setWidth 64 <<< 16)

/-- The register a code names, or none for a reserved code (R59). -/
def regOf (code : BitVec 8) : Option Reg :=
  let n := code.toNat
  if n < 0x40 then some (.x (Fin.ofNat 64 n))
  else if n < 0x60 then some (.v (Fin.ofNat 32 (n - 0x40)))
  else if n < 0x70 then some (.k (Fin.ofNat 16 (n - 0x60)))
  else if n < 0x78 then some (.s (Fin.ofNat 8 (n - 0x70)))
  else if n < 0x7A then some (.ma (Fin.ofNat 2 (n - 0x78)))
  else if n < 0x7E then some (.q (Fin.ofNat 4 (n - 0x7A)))
  else if n < 0x80 then none
  else if n < 0x90 then some (.p (Fin.ofNat 16 (n - 0x80)))
  else none

/-- The code of a register (R59). -/
def Reg.code : Reg → BitVec 8
  | .x n => BitVec.ofNat 8 n.val
  | .v n => BitVec.ofNat 8 (0x40 + n.val)
  | .k n => BitVec.ofNat 8 (0x60 + n.val)
  | .s n => BitVec.ofNat 8 (0x70 + n.val)
  | .ma n => BitVec.ofNat 8 (0x78 + n.val)
  | .q n => BitVec.ofNat 8 (0x7A + n.val)
  | .p n => BitVec.ofNat 8 (0x80 + n.val)

/-- The classes an operand position can admit (R60); `x0` admits the one register x0 (vector atomics, R169). -/
inductive RegClass where
  | x
  | x0
  | v
  | k
  | s
  | ma
  | q
  | p
  deriving DecidableEq, Repr

/-- Whether a class admits a register. -/
def RegClass.admits : RegClass → Reg → Bool
  | .x, .x _ => true
  | .x0, .x n => n.val == 0
  | .v, .v _ => true
  | .k, .k _ => true
  | .s, .s _ => true
  | .ma, .ma _ => true
  | .q, .q _ => true
  | .p, .p _ => true
  | _, _ => false

/-- What a form does with an operand field: nothing (it must be zero), reads it as a source with a trap bit, reads it as
a source that takes no trap bit, or writes it. -/
inductive Opnd where
  | none
  | src (classes : List RegClass)
  | noTrap (classes : List RegClass)
  | dst (classes : List RegClass)

/-- Whether a form has a masked form (R63). -/
inductive MaskUse where
  | no
  | yes
  | required
  deriving DecidableEq, Repr

/-- One form of an instruction: which fields it uses and how (R58). `imm` holds the `IMM` bits that have a meaning,
`imm7` the ones whose misuse is sub-code 0x07 (R158), `limit` the operand limits its entry checks at decode. -/
structure Form where
  d : Opnd := .none
  a : Opnd := .none
  b : Opnd := .none
  /-- The `IMM` bits without which the form has no source B: `SEED` of the reductions (R123). -/
  bIf : BitVec 32 := 0
  c : Opnd := .none
  masked : MaskUse := .no
  xl : Bool := false
  strm : Bool := false
  imm : BitVec 32 := 0
  imm7 : BitVec 32 := 0
  priv : Priv := .u
  /-- Source A must be a `v` register where `BL` is not 0 (R113); `RM` must be zero where `FMT` is an integer (R123). -/
  aTile : Bool := false
  fpRm : Bool := false
  limit : Fields → Option Illegal := fun _ => Option.none

/- `noncomputable`: the compiled runtime has no more than 244 constructor tags that carry data, and `Instr` has more
rows than that. The kernel evaluates every definition below; only compiled code is left out. -/
noncomputable section

/-- One row of the opcode's function map. -/
structure Row where
  fnOk : BitVec 8 → Bool
  form : Form
  build : Fields → Instr

abbrev cx : List RegClass := [.x]
abbrev cp : List RegClass := [.p]
abbrev cxp : List RegClass := [.x, .p]
abbrev cv : List RegClass := [.v]
abbrev cvq : List RegClass := [.v, .q]
abbrev cvqd : List RegClass := [.v, .q]
abbrev cvqx : List RegClass := [.v, .q, .x]
abbrev cxv : List RegClass := [.x, .v]
abbrev ck : List RegClass := [.k]
abbrev cma : List RegClass := [.ma]
abbrev cvks : List RegClass := [.v, .k, .s]
abbrev cvx0 : List RegClass := [.v, .x0]
/-- Every bit of `IMM` has a meaning. -/
abbrev immAll : BitVec 32 := 0xFFFFFFFF

/-- Operand limit broken at decode with the immediate at fault (R70, sub-code 0x0A, `FIELD` 12). -/
def badImm : Option Illegal := some ⟨0x0A, 12, 0⟩
/-- A limit: the condition that breaks it. -/
def limitIf (bad : Bool) (e : Option Illegal := badImm) : Option Illegal := if bad then e else Option.none

/-- `RM`, bits [10:8] of `IMM` (R85). -/
def Fields.rm (f : Fields) : BitVec 3 := f.imm.extractLsb' 8 3
/-- A reserved rounding field (R42). -/
def limRm (f : Fields) : Option Illegal := limitIf (decide (6 ≤ f.rm.toNat))
/-- Shift and extension immediates lie in 0-63 (R84). -/
def limShift (f : Fields) : Option Illegal := limitIf (decide (64 ≤ f.imm.toNat))
/-- Branch offsets are multiples of 4 (R90). -/
def limBranch (f : Fields) : Option Illegal := limitIf (decide (f.imm.toNat % 4 ≠ 0))
/-- `loop` offsets are multiples of 4 and at least 12 (R91). -/
def limLoop (f : Fields) : Option Illegal := limitIf (decide (f.imm.toNat % 4 ≠ 0) || decide (f.imm.toInt < 12))
/-- `SMASK` of a fence (R97). -/
def Fields.smask (f : Fields) : BitVec 4 := f.imm.extractLsb' 4 4
/-- `fence` limits (R97). -/
def limFence (f : Fields) : Option Illegal :=
  limitIf (f.smask == 0 || decide (6 ≤ (f.imm.extractLsb' 0 3).toNat) || f.imm.extractLsb' 8 2 == 0)
/-- `sbar` limits (R97). -/
def limSbar (f : Fields) : Option Illegal := limitIf (f.smask == 0)
/-- `tlbinv` scopes are CORE, DIE, PKG and DOMAIN (R101). -/
def limTlb (f : Fields) : Option Illegal :=
  let sc := (f.imm.extractLsb' 0 3).toNat
  limitIf !(sc == 1 || sc == 3 || sc == 4 || sc == 5)

/-- The element width a `SEW` code gives, 0 for a reserved code (R12). -/
def sewBits (code : Nat) : Nat := if code ≤ 5 then 2 ^ (code + 1) else 0
/-- Legal triples of `FMT`, `SEW` (in bits) and block length (R33, Table 1). -/
def fmtLegal (fmt sew bl : Nat) : Bool :=
  match fmt with
  | 0 => (sew == 4 || sew == 8 || sew == 16 || sew == 32 || sew == 64) && bl == 0
  | 1 => (sew == 8 || sew == 16 || sew == 32 || sew == 64) && bl == 0
  | 2 => (sew == 16 || sew == 32 || sew == 64) && bl == 0
  | 3 => sew == 16 && bl == 0
  | 4 => sew == 8 && (bl == 0 || bl == 16 || bl == 32)
  | 5 => sew == 8 && (bl == 0 || bl == 16 || bl == 32)
  | 6 => sew == 4 && (bl == 0 || bl == 16 || bl == 32)
  | 7 => sew == 2 && bl == 0
  | 8 => sew == 4 && (bl == 16 || bl == 32)
  | 9 => sew == 8 && (bl == 16 || bl == 32)
  | _ => false
/-- The block length a `BL` code gives (R12); the reserved code gives 64, which no format admits. -/
def blLen (code : Nat) : Nat :=
  match code with
  | 0 => 0
  | 1 => 16
  | 2 => 32
  | _ => 64
/-- A `VTYPE` image that R105 accepts: reserved bits zero, no reserved code, a triple of Table 1. -/
def vtypeOk (t : BitVec 64) : Bool :=
  t.extractLsb' 12 52 == 0 && !t.getLsbD 3 &&
    fmtLegal (t.extractLsb' 4 5).toNat (sewBits (t.extractLsb' 0 3).toNat) (blLen (t.extractLsb' 9 2).toNat)
/-- `setvt` with an immediate (R105). -/
def limSetvt (f : Fields) : Option Illegal := limitIf !(vtypeOk ((f.imm.extractLsb' 0 12).setWidth 64))

/-- An `ACFG` value that R141 accepts; a reserved bit of Table 1 that is set is not accepted, in the register form of `mcfg` either
(DEDUCED from R5, log 52). -/
def acfgOk (t : BitVec 64) : Bool :=
  let rows := (t.extractLsb' 0 7).toNat
  let cols := (t.extractLsb' 8 7).toNat
  let fmt := (t.extractLsb' 16 2).toNat
  t.extractLsb' 18 46 == 0 && !t.getLsbD 15 && !t.getLsbD 7 && decide (1 ≤ rows ∧ rows ≤ 64 ∧ 1 ≤ cols ∧ cols ≤ 64) &&
    fmt != 3 && decide (rows * cols * (if fmt == 0 then 8 else 4) ≤ 16384)
/-- `mcfg` with an immediate (R145). -/
def limMcfg (f : Fields) : Option Illegal := limitIf !(acfgOk (f.imm.setWidth 64))

/-- Integer formats. -/
def fmtIsInt (fmt : Nat) : Bool := fmt == 0 || fmt == 1
/-- The destination formats of `vfcvt` (R113): `DFMT` and the width of `DSEW`. -/
def vfcvtDst (fmt sew : Nat) : Bool :=
  match fmt with
  | 0 => sew == 4 || sew == 8 || sew == 16 || sew == 32 || sew == 64
  | 1 => sew == 8 || sew == 16 || sew == 32 || sew == 64
  | 2 => sew == 16 || sew == 32 || sew == 64
  | 3 => sew == 16
  | 4 => sew == 8
  | 5 => sew == 8
  | 6 => sew == 4
  | _ => false
/-- `vfcvt` limits that need no state (R113). -/
def limVfcvt (f : Fields) : Option Illegal :=
  let fmt := (f.imm.extractLsb' 16 5).toNat
  limitIf (!(vfcvtDst fmt (sewBits (f.imm.extractLsb' 12 3).toNat)) || (f.imm.getLsbD 11 && fmtIsInt fmt)
    || decide (6 ≤ f.rm.toNat))
/-- The MX formats (R114, R149). -/
def mxFmt (fmt : Nat) : Bool := fmt == 4 || fmt == 5 || fmt == 6 || fmt == 9
/-- `vmxq` limits that need no state (R114). -/
def limVmxq (f : Fields) : Option Illegal :=
  let bl := (f.imm.extractLsb' 13 2).toNat
  limitIf (!(mxFmt (f.imm.extractLsb' 8 5).toNat) || !(bl == 1 || bl == 2))
/-- The number of an `x` register, 0 for another class. -/
def Reg.xNum : Reg → Nat
  | .x n => n.val
  | _ => 0
/-- The number of a `v` register, 0 for another class. -/
def Reg.vNum : Reg → Nat
  | .v n => n.val
  | _ => 0
/-- `vrnd`: B is an even code from 0x02 to 0x3E (R117). -/
def limVrnd (f : Fields) : Option Illegal :=
  limitIf (decide (f.b.xNum % 2 ≠ 0) || decide (f.b.xNum = 0)) (some ⟨0x0A, 5, 0⟩)
/-- Reductions: `RM` serves sums alone (R123, Table 3). -/
def limSeed (f : Fields) : Option Illegal :=
  if f.fn != 0 && f.rm != 0 then some ⟨0x08, 12, 0⟩ else limRm f
/-- The destination of a register pair is even (R131, R274). -/
def limEvenD (f : Fields) : Option Illegal := limitIf (decide (f.d.vNum % 2 ≠ 0)) (some ⟨0x0A, 3, 0⟩)
/-- `mmax` operands and formats (R149). Its unused `IMM` bits are those of R69 step 5, with sub-code 0x08 (R70; DESIGN CHOICE beside
R149's 'any other value', log 52). -/
def limMmax (f : Fields) : Option Illegal :=
  let mbl := (f.imm.extractLsb' 16 2).toNat
  if f.a.vNum % 4 ≠ 0 then some ⟨0x0A, 4, 0⟩
  else if f.b.vNum % 4 ≠ 0 ∨ f.a = f.b then some ⟨0x0A, 5, 0⟩
  else limitIf (!(mxFmt (f.imm.extractLsb' 0 5).toNat) || !(mxFmt (f.imm.extractLsb' 8 5).toNat) ||
    !(mbl == 1 || mbl == 2))
/-- `mwr` takes no `SAT` (R150). -/
def limMwr (f : Fields) : Option Illegal := limitIf (f.imm.getLsbD 11 || decide (6 ≤ f.rm.toNat))
/-- `SCOPE` of the tile forms: bits [15:13], with `ORD` bit 12 (R157). -/
def limScope (f : Fields) : Option Illegal :=
  let sc := (f.imm.extractLsb' 13 3).toNat
  limitIf (decide (6 ≤ sc) || (decide (sc ≠ 0) && !f.imm.getLsbD 12))
/-- `vld.c`: the scope, and `LAY` = 0b11 (R158). -/
def limVldc (f : Fields) : Option Illegal :=
  if f.imm.extractLsb' 8 2 == 3 then badImm else limScope f
/-- `SCOPE` of the atomics: bits [14:12] (R168). -/
def limAmo (f : Fields) : Option Illegal :=
  let sc := (f.imm.extractLsb' 12 3).toNat
  limitIf (decide (6 ≤ sc) || (decide (sc ≠ 0) && !(f.fn.getLsbD 5 || f.fn.getLsbD 6)))
/-- `vredm` with `fadd` also rounds (R168). -/
def limAmoRm (f : Fields) : Option Illegal := if 6 ≤ f.rm.toNat then badImm else limAmo f
/-- `bdecl` kinds (R187). -/
def limBdecl (f : Fields) : Option Illegal :=
  let kind := (f.imm.extractLsb' 8 2).toNat
  limitIf (kind == 3 || (kind == 2 && f.imm.getLsbD 10))
/-- `cbstat.buf` counts (R254). -/
def limCbBuf (f : Fields) : Option Illegal := limitIf (f.imm == 7)
/-- The quantities `mq` selects (R286). -/
def limMq (f : Fields) : Option Illegal :=
  let sel := f.imm.toNat
  limitIf !(decide (sel ≤ 6) || decide (0x10 ≤ sel ∧ sel ≤ 0x1F))

/-- FN[5:0] of the scalar FP forms (R85). -/
def fnLow6 (fn : BitVec 8) : Nat := fn.toNat % 64
/-- The legal type pairs of `fcvt` (R88). -/
def fcvtFnOk (fn : BitVec 8) : Bool :=
  let dst := (fn.extractLsb' 4 4).toNat
  let srcT := (fn.extractLsb' 0 4).toNat
  decide (dst < 8) && decide (srcT < 8) && dst != srcT && !(decide (4 ≤ dst) && decide (4 ≤ srcT))
/-- The legal FN values of `ld`: `SZ` [1:0], `U` [2], `ORD` [3], `SCOPE` [6:4] (R155). -/
def ldFnOk (fn : BitVec 8) : Bool :=
  let sc := (fn.extractLsb' 4 3).toNat
  !fn.getLsbD 7 && !(fn.getLsbD 2 && fn.extractLsb' 0 2 == 3) && decide (sc < 6) && (fn.getLsbD 3 || sc == 0)
/-- The legal FN values of `st` (R155). -/
def stFnOk (fn : BitVec 8) : Bool := ldFnOk fn && !fn.getLsbD 2
/-- `OP` of an atomic (R168). -/
def amoOp (fn : BitVec 8) : Nat := fn.toNat % 16
/-- The legal FN values of `amo` (R168). -/
def amoFnOk (fn : BitVec 8) : Bool := !fn.getLsbD 7 && decide (amoOp fn ≤ 10)
/-- The legal FN values of `vamo` and `vamoo` (R168). -/
def vamoFnOk (fn : BitVec 8) : Bool := amoFnOk fn && !fn.getLsbD 4 && amoOp fn != 9
/-- The legal FN values of `vredm` (R168). -/
def vredmFnOk (fn : BitVec 8) : Bool := vamoFnOk fn && amoOp fn != 8

/-- The functions of major opcode 0x01 (R71). -/
def rows01 : List Row :=
  [ ⟨(· == 0x00), { d := .dst cx, a := .src cx, b := .src cx }, .add⟩,
    ⟨(· == 0x80), { d := .dst cx, a := .src cx, imm := immAll }, .addI⟩,
    ⟨(· == 0x01), { d := .dst cx, a := .src cx, b := .src cx }, .sub⟩,
    ⟨(· == 0x81), { d := .dst cx, a := .src cx, imm := immAll }, .subI⟩ ]

/-- The functions of major opcode 0x02 (R71). -/
def rows02 : List Row :=
  [ ⟨(· == 0x00), { d := .dst cx, a := .src cx, b := .src cx }, .mul⟩,
    ⟨(· == 0x80), { d := .dst cx, a := .src cx, imm := immAll }, .mulI⟩,
    ⟨(· == 0x01), { d := .dst cx, a := .src cx, b := .src cx }, .mulh⟩,
    ⟨(· == 0x81), { d := .dst cx, a := .src cx, imm := immAll }, .mulhI⟩,
    ⟨(· == 0x02), { d := .dst cx, a := .src cx, b := .src cx }, .mulhu⟩,
    ⟨(· == 0x82), { d := .dst cx, a := .src cx, imm := immAll }, .mulhuI⟩ ]

/-- The functions of major opcode 0x03 (R71). -/
def rows03 : List Row :=
  [ ⟨(· == 0x00), { d := .dst cx, a := .src cx, b := .src cx }, .div⟩,
    ⟨(· == 0x80), { d := .dst cx, a := .src cx, imm := immAll }, .divI⟩,
    ⟨(· == 0x01), { d := .dst cx, a := .src cx, b := .src cx }, .divu⟩,
    ⟨(· == 0x81), { d := .dst cx, a := .src cx, imm := immAll }, .divuI⟩,
    ⟨(· == 0x02), { d := .dst cx, a := .src cx, b := .src cx }, .rem⟩,
    ⟨(· == 0x82), { d := .dst cx, a := .src cx, imm := immAll }, .remI⟩,
    ⟨(· == 0x03), { d := .dst cx, a := .src cx, b := .src cx }, .remu⟩,
    ⟨(· == 0x83), { d := .dst cx, a := .src cx, imm := immAll }, .remuI⟩ ]

/-- The functions of major opcode 0x04 (R71). -/
def rows04 : List Row :=
  [ ⟨(· == 0x00), { d := .dst cx, a := .src cx, b := .src cx }, .and⟩,
    ⟨(· == 0x80), { d := .dst cx, a := .src cx, imm := immAll }, .andI⟩,
    ⟨(· == 0x01), { d := .dst cx, a := .src cx, b := .src cx }, .or⟩,
    ⟨(· == 0x81), { d := .dst cx, a := .src cx, imm := immAll }, .orI⟩,
    ⟨(· == 0x02), { d := .dst cx, a := .src cx, b := .src cx }, .xor⟩,
    ⟨(· == 0x82), { d := .dst cx, a := .src cx, imm := immAll }, .xorI⟩,
    ⟨(· == 0x03), { d := .dst cx, a := .src cx, b := .src cx }, .andn⟩,
    ⟨(· == 0x83), { d := .dst cx, a := .src cx, imm := immAll }, .andnI⟩ ]

/-- The functions of major opcode 0x05 (R71). -/
def rows05 : List Row :=
  [ ⟨(· == 0x00), { d := .dst cx, a := .src cx, b := .src cx }, .sll⟩,
    ⟨(· == 0x80), { d := .dst cx, a := .src cx, imm := immAll, limit := limShift }, .sllI⟩,
    ⟨(· == 0x01), { d := .dst cx, a := .src cx, b := .src cx }, .srl⟩,
    ⟨(· == 0x81), { d := .dst cx, a := .src cx, imm := immAll, limit := limShift }, .srlI⟩,
    ⟨(· == 0x02), { d := .dst cx, a := .src cx, b := .src cx }, .sra⟩,
    ⟨(· == 0x82), { d := .dst cx, a := .src cx, imm := immAll, limit := limShift }, .sraI⟩,
    ⟨(· == 0x03), { d := .dst cx, a := .src cx, b := .src cx }, .rol⟩,
    ⟨(· == 0x83), { d := .dst cx, a := .src cx, imm := immAll, limit := limShift }, .rolI⟩ ]

/-- The functions of major opcode 0x06 (R71). -/
def rows06 : List Row :=
  [ ⟨(· == 0x00), { d := .dst cxp, a := .src cx, b := .src cx }, .slt⟩,
    ⟨(· == 0x80), { d := .dst cxp, a := .src cx, imm := immAll }, .sltI⟩,
    ⟨(· == 0x01), { d := .dst cxp, a := .src cx, b := .src cx }, .sltu⟩,
    ⟨(· == 0x81), { d := .dst cxp, a := .src cx, imm := immAll }, .sltuI⟩ ]

/-- The functions of major opcode 0x07 (R71). -/
def rows07 : List Row :=
  [ ⟨(· == 0x00), { d := .dst cx, a := .src cx, b := .src cx }, .min⟩,
    ⟨(· == 0x80), { d := .dst cx, a := .src cx, imm := immAll }, .minI⟩,
    ⟨(· == 0x01), { d := .dst cx, a := .src cx, b := .src cx }, .max⟩,
    ⟨(· == 0x81), { d := .dst cx, a := .src cx, imm := immAll }, .maxI⟩,
    ⟨(· == 0x02), { d := .dst cx, a := .src cx, b := .src cx }, .minu⟩,
    ⟨(· == 0x82), { d := .dst cx, a := .src cx, imm := immAll }, .minuI⟩,
    ⟨(· == 0x03), { d := .dst cx, a := .src cx, b := .src cx }, .maxu⟩,
    ⟨(· == 0x83), { d := .dst cx, a := .src cx, imm := immAll }, .maxuI⟩ ]

/-- The functions of major opcode 0x08 (R71). -/
def rows08 : List Row :=
  [ ⟨(· == 0x00), { d := .dst cx, a := .src cx }, .clz⟩,
    ⟨(· == 0x01), { d := .dst cx, a := .src cx }, .ctz⟩,
    ⟨(· == 0x02), { d := .dst cx, a := .src cx }, .popc⟩ ]

/-- The functions of major opcode 0x09 (R71). -/
def rows09 : List Row :=
  [ ⟨(· == 0x00), { d := .dst cx, a := .src cx, b := .src cx }, .sext⟩,
    ⟨(· == 0x80), { d := .dst cx, a := .src cx, imm := immAll, limit := limShift }, .sextI⟩,
    ⟨(· == 0x01), { d := .dst cx, a := .src cx, b := .src cx }, .zext⟩,
    ⟨(· == 0x81), { d := .dst cx, a := .src cx, imm := immAll, limit := limShift }, .zextI⟩ ]

/-- The functions of major opcode 0x0a (R71). -/
def rows0A : List Row :=
  [ ⟨(· == 0x80), { d := .dst cx, imm := immAll }, .li⟩ ]

/-- The functions of major opcode 0x0b (R71). -/
def rows0B : List Row :=
  [ ⟨(· == 0x80), { d := .dst cx, a := .src cx, imm := immAll }, .lih⟩ ]

/-- The functions of major opcode 0x0c (R71). -/
def rows0C : List Row :=
  [ ⟨(· == 0x00), { d := .dst cx, a := .src cx, b := .src cx, c := .src cp, imm := 0x000000ff }, .sel⟩ ]

/-- The functions of major opcode 0x10 (R71). -/
def rows10 : List Row :=
  [ ⟨(fnLow6 · == 0), { d := .dst cx, a := .src cx, b := .src cx, imm := 0x00000700, limit := limRm }, .fadd⟩,
    ⟨(fnLow6 · == 1), { d := .dst cx, a := .src cx, b := .src cx, imm := 0x00000700, limit := limRm }, .fsub⟩,
    ⟨(fnLow6 · == 2), { d := .dst cx, a := .src cx, b := .src cx, imm := 0x00000700, limit := limRm }, .fmul⟩ ]

/-- The functions of major opcode 0x11 (R71). -/
def rows11 : List Row :=
  [ ⟨(fnLow6 · == 0), { d := .dst cx, a := .src cx, b := .src cx, c := .src cx, imm := 0x000007ff, limit := limRm }, .fma⟩ ]

/-- The functions of major opcode 0x12 (R71). -/
def rows12 : List Row :=
  [ ⟨(fnLow6 · == 0), { d := .dst cx, a := .src cx, b := .src cx, imm := 0x00000700, limit := limRm }, .fdiv⟩,
    ⟨(fnLow6 · == 1), { d := .dst cx, a := .src cx, imm := 0x00000700, limit := limRm }, .fsqrt⟩ ]

/-- The functions of major opcode 0x13 (R71). -/
def rows13 : List Row :=
  [ ⟨(fnLow6 · == 0), { d := .dst cx, a := .src cx, b := .src cx }, .fmin⟩,
    ⟨(fnLow6 · == 1), { d := .dst cx, a := .src cx, b := .src cx }, .fmax⟩,
    ⟨(fnLow6 · == 2), { d := .dst cx, a := .src cx, b := .src cx }, .fsgn⟩,
    ⟨(fnLow6 · == 3), { d := .dst cx, a := .src cx, b := .src cx }, .fsgnN⟩,
    ⟨(fnLow6 · == 4), { d := .dst cx, a := .src cx, b := .src cx }, .fsgnX⟩ ]

/-- The functions of major opcode 0x14 (R71). -/
def rows14 : List Row :=
  [ ⟨fcvtFnOk, { d := .dst cx, a := .src cx, imm := 0x00000700, limit := limRm }, .fcvt⟩ ]

/-- The functions of major opcode 0x15 (R71). -/
def rows15 : List Row :=
  [ ⟨(fnLow6 · == 0), { d := .dst cx, a := .src cx }, .fclass⟩,
    ⟨(fnLow6 · == 1), { d := .dst cxp, a := .src cx, b := .src cx }, .fcmpEq⟩,
    ⟨(fnLow6 · == 2), { d := .dst cxp, a := .src cx, b := .src cx }, .fcmpLt⟩,
    ⟨(fnLow6 · == 3), { d := .dst cxp, a := .src cx, b := .src cx }, .fcmpLe⟩,
    ⟨(fnLow6 · == 4), { d := .dst cxp, a := .src cx, b := .src cx }, .fcmpUn⟩ ]

/-- The functions of major opcode 0x18 (R71). -/
def rows18 : List Row :=
  [ ⟨(· == 0x00), { d := .dst cp, a := .src cx, b := .src cx }, .pcmpEq⟩,
    ⟨(· == 0x01), { d := .dst cp, a := .src cx, b := .src cx }, .pcmpNe⟩,
    ⟨(· == 0x02), { d := .dst cp, a := .src cx, b := .src cx }, .pcmpLt⟩,
    ⟨(· == 0x03), { d := .dst cp, a := .src cx, b := .src cx }, .pcmpGe⟩,
    ⟨(· == 0x04), { d := .dst cp, a := .src cx, b := .src cx }, .pcmpLtu⟩,
    ⟨(· == 0x05), { d := .dst cp, a := .src cx, b := .src cx }, .pcmpGeu⟩,
    ⟨(· == 0x10), { d := .dst cp, a := .src cx, imm := immAll }, .pcmpEqI⟩,
    ⟨(· == 0x11), { d := .dst cp, a := .src cx, imm := immAll }, .pcmpNeI⟩,
    ⟨(· == 0x12), { d := .dst cp, a := .src cx, imm := immAll }, .pcmpLtI⟩,
    ⟨(· == 0x13), { d := .dst cp, a := .src cx, imm := immAll }, .pcmpGeI⟩,
    ⟨(· == 0x14), { d := .dst cp, a := .src cx, imm := immAll }, .pcmpLtuI⟩,
    ⟨(· == 0x15), { d := .dst cp, a := .src cx, imm := immAll }, .pcmpGeuI⟩ ]

/-- The functions of major opcode 0x19 (R71). -/
def rows19 : List Row :=
  [ ⟨(· == 0x00), { d := .dst cp, a := .src cp, b := .src cp }, .plogAnd⟩,
    ⟨(· == 0x01), { d := .dst cp, a := .src cp, b := .src cp }, .plogOr⟩,
    ⟨(· == 0x02), { d := .dst cp, a := .src cp, b := .src cp }, .plogXor⟩,
    ⟨(· == 0x03), { d := .dst cp, a := .src cp, b := .src cp }, .plogAndn⟩ ]

/-- The functions of major opcode 0x1a (R71). -/
def rows1A : List Row :=
  [ ⟨(· == 0x00), { d := .dst cp, a := .src cp }, .pmov⟩,
    ⟨(· == 0x01), { d := .dst cp, a := .src cx }, .pmovPx⟩,
    ⟨(· == 0x02), { d := .dst cx, a := .src cp }, .pmovXp⟩,
    ⟨(· == 0x03), { d := .dst cx }, .pmovPk⟩,
    ⟨(· == 0x04), { a := .src cx }, .pmovUpk⟩ ]

/-- The functions of major opcode 0x1c (R71). -/
def rows1C : List Row :=
  [ ⟨(· == 0x00), { imm := immAll, limit := limBranch }, .br⟩,
    ⟨(· == 0x01), { a := .src cx, imm := immAll, limit := limBranch }, .brZ⟩,
    ⟨(· == 0x02), { a := .src cx, imm := immAll, limit := limBranch }, .brNz⟩ ]

/-- The functions of major opcode 0x1d (R71). -/
def rows1D : List Row :=
  [ ⟨(· == 0x00), { d := .dst cx, imm := immAll, limit := limBranch }, .jal⟩ ]

/-- The functions of major opcode 0x1e (R71). -/
def rows1E : List Row :=
  [ ⟨(· == 0x00), { d := .dst cx, a := .src cx, imm := immAll }, .jr⟩ ]

/-- The functions of major opcode 0x1f (R71). -/
def rows1F : List Row :=
  [ ⟨(· == 0x00), { a := .src cx, imm := immAll, limit := limLoop }, .loop0⟩,
    ⟨(· == 0x01), { a := .src cx, imm := immAll, limit := limLoop }, .loop1⟩ ]

/-- The functions of major opcode 0x20 (R71). -/
def rows20 : List Row :=
  [ ⟨(· == 0x00), {  }, .lbrk0⟩,
    ⟨(· == 0x01), {  }, .lbrk1⟩ ]

/-- The functions of major opcode 0x21 (R71). -/
def rows21 : List Row :=
  [ ⟨(· == 0x00), {  }, .yield⟩ ]

/-- The functions of major opcode 0x22 (R71). -/
def rows22 : List Row :=
  [ ⟨(· == 0x00), {  }, .exit⟩ ]

/-- The functions of major opcode 0x28 (R71). -/
def rows28 : List Row :=
  [ ⟨(· == 0x00), { d := .dst cx, imm := 0x00000fff }, .gsr⟩,
    ⟨(· == 0x01), { a := .src cx, imm := 0x00000fff }, .ssr⟩,
    ⟨(· == 0x02), { a := .src cx, imm := 0x00000fff }, .ssrSet⟩,
    ⟨(· == 0x03), { a := .src cx, imm := 0x00000fff }, .ssrClr⟩ ]

/-- The functions of major opcode 0x29 (R71). -/
def rows29 : List Row :=
  [ ⟨(· == 0x00), { imm := 0x000003f7, limit := limFence }, .fence⟩,
    ⟨(· == 0x01), { imm := 0x000000f0, limit := limSbar }, .sbar⟩,
    ⟨(· == 0x02), {  }, .ifence⟩ ]

/-- The functions of major opcode 0x2a (R71). -/
def rows2A : List Row :=
  [ ⟨(· == 0x00), { imm := immAll }, .sys⟩,
    ⟨(· == 0x01), { imm := immAll }, .ebrk⟩ ]

/-- The functions of major opcode 0x2b (R71). -/
def rows2B : List Row :=
  [ ⟨(· == 0x00), { priv := .s }, .eret⟩ ]

/-- The functions of major opcode 0x2c (R71). -/
def rows2C : List Row :=
  [ ⟨(· == 0x00), { imm := 0x00000007, priv := .s, limit := limTlb }, .tlbinvAll⟩,
    ⟨(· == 0x01), { a := .src cx, imm := 0x00000007, priv := .s, limit := limTlb }, .tlbinvAsid⟩,
    ⟨(· == 0x02), { a := .src cx, b := .src cx, imm := 0x00000007, priv := .s, limit := limTlb }, .tlbinvVa⟩,
    ⟨(· == 0x03), { imm := 0x00000007, priv := .s, limit := limTlb }, .tlbinvGlob⟩ ]

/-- The functions of major opcode 0x2d (R71). -/
def rows2D : List Row :=
  [ ⟨(· == 0x00), { priv := .s }, .hctlWfi⟩,
    ⟨(· == 0x01), { d := .dst cx, a := .src cx, b := .src cx, priv := .s }, .hctlPre⟩ ]

/-- The functions of major opcode 0x30 (R71). -/
def rows30 : List Row :=
  [ ⟨(· == 0x00), { d := .dst cx, a := .src cx }, .setvl⟩,
    ⟨(· == 0x01), { d := .dst cx, imm := immAll }, .setvlI⟩ ]

/-- The functions of major opcode 0x31 (R71). -/
def rows31 : List Row :=
  [ ⟨(· == 0x00), { d := .dst cx, a := .src cx }, .setvr⟩,
    ⟨(· == 0x01), { d := .dst cx, imm := immAll }, .setvrI⟩ ]

/-- The functions of major opcode 0x32 (R71). -/
def rows32 : List Row :=
  [ ⟨(· == 0x00), { d := .dst cx, a := .src cx }, .setvt⟩,
    ⟨(· == 0x01), { d := .dst cx, imm := 0x00000fff, limit := limSetvt }, .setvtI⟩ ]

/-- The functions of major opcode 0x33 (R71). -/
def rows33 : List Row :=
  [ ⟨(· == 0x00), { d := .dst cx, a := .src cx }, .setrl⟩,
    ⟨(· == 0x01), { d := .dst cx, a := .src cx, b := .src cx }, .setrlRow⟩ ]

/-- The functions of major opcode 0x34 (R71). -/
def rows34 : List Row :=
  [ ⟨(· == 0x00), { d := .dst cv, a := .src cvq, b := .src cvqx, masked := .yes, xl := true }, .vadd⟩,
    ⟨(· == 0x80), { d := .dst cv, a := .src cvq, masked := .yes, imm := immAll }, .vaddI⟩,
    ⟨(· == 0x01), { d := .dst cv, a := .src cvq, b := .src cvqx, masked := .yes, xl := true }, .vsub⟩,
    ⟨(· == 0x81), { d := .dst cv, a := .src cvq, masked := .yes, imm := immAll }, .vsubI⟩ ]

/-- The functions of major opcode 0x35 (R71). -/
def rows35 : List Row :=
  [ ⟨(· == 0x00), { d := .dst cv, a := .src cvq, b := .src cvqx, masked := .yes, xl := true }, .vmul⟩,
    ⟨(· == 0x80), { d := .dst cv, a := .src cvq, masked := .yes, imm := immAll }, .vmulI⟩,
    ⟨(· == 0x01), { d := .dst cv, a := .src cvq, b := .src cvqx, masked := .yes, xl := true }, .vmulh⟩,
    ⟨(· == 0x81), { d := .dst cv, a := .src cvq, masked := .yes, imm := immAll }, .vmulhI⟩ ]

/-- The functions of major opcode 0x36 (R71). -/
def rows36 : List Row :=
  [ ⟨(· == 0x00), { d := .dst cv, a := .src cvq, b := .src cvqx, masked := .yes, xl := true }, .vmacc⟩,
    ⟨(· == 0x80), { d := .dst cv, a := .src cvq, masked := .yes, imm := immAll }, .vmaccI⟩,
    ⟨(· == 0x01), { d := .dst cv, a := .src cvq, b := .src cvqx, masked := .yes, xl := true }, .vmaccN⟩,
    ⟨(· == 0x81), { d := .dst cv, a := .src cvq, masked := .yes, imm := immAll }, .vmaccNI⟩ ]

/-- The functions of major opcode 0x37 (R71). -/
def rows37 : List Row :=
  [ ⟨(· == 0x00), { d := .dst cv, a := .src cvq, b := .src cvqx, masked := .yes, xl := true }, .vand⟩,
    ⟨(· == 0x80), { d := .dst cv, a := .src cvq, masked := .yes, imm := immAll }, .vandI⟩,
    ⟨(· == 0x01), { d := .dst cv, a := .src cvq, b := .src cvqx, masked := .yes, xl := true }, .vor⟩,
    ⟨(· == 0x81), { d := .dst cv, a := .src cvq, masked := .yes, imm := immAll }, .vorI⟩,
    ⟨(· == 0x02), { d := .dst cv, a := .src cvq, b := .src cvqx, masked := .yes, xl := true }, .vxor⟩,
    ⟨(· == 0x82), { d := .dst cv, a := .src cvq, masked := .yes, imm := immAll }, .vxorI⟩ ]

/-- The functions of major opcode 0x38 (R71). -/
def rows38 : List Row :=
  [ ⟨(· == 0x00), { d := .dst cv, a := .src cvq, b := .src cvqx, masked := .yes, xl := true }, .vsll⟩,
    ⟨(· == 0x80), { d := .dst cv, a := .src cvq, masked := .yes, imm := immAll }, .vsllI⟩,
    ⟨(· == 0x01), { d := .dst cv, a := .src cvq, b := .src cvqx, masked := .yes, xl := true }, .vsrl⟩,
    ⟨(· == 0x81), { d := .dst cv, a := .src cvq, masked := .yes, imm := immAll }, .vsrlI⟩,
    ⟨(· == 0x02), { d := .dst cv, a := .src cvq, b := .src cvqx, masked := .yes, xl := true }, .vsra⟩,
    ⟨(· == 0x82), { d := .dst cv, a := .src cvq, masked := .yes, imm := immAll }, .vsraI⟩ ]

/-- The functions of major opcode 0x39 (R71). -/
def rows39 : List Row :=
  [ ⟨(· == 0x00), { d := .dst cv, a := .src cvq, b := .src cvqx, masked := .yes, xl := true }, .vmin⟩,
    ⟨(· == 0x80), { d := .dst cv, a := .src cvq, masked := .yes, imm := immAll }, .vminI⟩,
    ⟨(· == 0x01), { d := .dst cv, a := .src cvq, b := .src cvqx, masked := .yes, xl := true }, .vmax⟩,
    ⟨(· == 0x81), { d := .dst cv, a := .src cvq, masked := .yes, imm := immAll }, .vmaxI⟩ ]

/-- The functions of major opcode 0x3a (R71). -/
def rows3A : List Row :=
  [ ⟨(· == 0x00), { d := .dst cv, a := .src cvq, b := .src cvqx, masked := .yes, xl := true }, .vsadd⟩,
    ⟨(· == 0x80), { d := .dst cv, a := .src cvq, masked := .yes, imm := immAll }, .vsaddI⟩ ]

/-- The functions of major opcode 0x40 (R71). -/
def rows40 : List Row :=
  [ ⟨(· == 0x00), { d := .dst cv, a := .src cvq, b := .src cvqx, masked := .yes, xl := true, imm := 0x00000700, limit := limRm }, .vfadd⟩,
    ⟨(· == 0x01), { d := .dst cv, a := .src cvq, b := .src cvqx, masked := .yes, xl := true, imm := 0x00000700, limit := limRm }, .vfsub⟩,
    ⟨(· == 0x02), { d := .dst cv, a := .src cvq, b := .src cvqx, masked := .yes, xl := true, imm := 0x00000700, limit := limRm }, .vfmul⟩ ]

/-- The functions of major opcode 0x41 (R71). -/
def rows41 : List Row :=
  [ ⟨(· == 0x00), { d := .dst cv, a := .src cvq, b := .src cvqx, c := .src cvq, masked := .yes, xl := true, imm := 0x000007ff, limit := limRm }, .vffma⟩,
    ⟨(· == 0x01), { d := .dst cv, a := .src cvq, b := .src cvqx, c := .src cvq, masked := .yes, xl := true, imm := 0x000007ff, limit := limRm }, .vffmaMs⟩,
    ⟨(· == 0x02), { d := .dst cv, a := .src cvq, b := .src cvqx, c := .src cvq, masked := .yes, xl := true, imm := 0x000007ff, limit := limRm }, .vffmaNm⟩,
    ⟨(· == 0x03), { d := .dst cv, a := .src cvq, b := .src cvqx, c := .src cvq, masked := .yes, xl := true, imm := 0x000007ff, limit := limRm }, .vffmaNms⟩ ]

/-- The functions of major opcode 0x42 (R71). -/
def rows42 : List Row :=
  [ ⟨(· == 0x00), { d := .dst cv, a := .src cvq, b := .src cvqx, masked := .yes, xl := true, imm := 0x00000700, limit := limRm }, .vfdiv⟩,
    ⟨(· == 0x01), { d := .dst cv, a := .src cvq, masked := .yes, imm := 0x00000700, limit := limRm }, .vfsqrt⟩ ]

/-- The functions of major opcode 0x43 (R71). -/
def rows43 : List Row :=
  [ ⟨(· == 0x00), { d := .dst cv, a := .src cvq, masked := .yes }, .vfrcpe⟩,
    ⟨(· == 0x01), { d := .dst cv, a := .src cvq, masked := .yes }, .vfrsqe⟩ ]

/-- The functions of major opcode 0x44 (R71). -/
def rows44 : List Row :=
  [ ⟨(· == 0x00), { d := .dst cv, a := .src cvq, b := .src cvqx, masked := .yes, xl := true }, .vfmin⟩,
    ⟨(· == 0x01), { d := .dst cv, a := .src cvq, b := .src cvqx, masked := .yes, xl := true }, .vfmax⟩,
    ⟨(· == 0x02), { d := .dst cv, a := .src cvq, b := .src cvqx, masked := .yes, xl := true }, .vfsgn⟩,
    ⟨(· == 0x03), { d := .dst cv, a := .src cvq, b := .src cvqx, masked := .yes, xl := true }, .vfsgnN⟩,
    ⟨(· == 0x04), { d := .dst cv, a := .src cvq, b := .src cvqx, masked := .yes, xl := true }, .vfsgnX⟩ ]

/-- The functions of major opcode 0x45 (R71). -/
def rows45 : List Row :=
  [ ⟨(· == 0x00), { d := .dst ck, a := .src cvq, b := .src cvqx, masked := .yes, xl := true }, .vfcmpEq⟩,
    ⟨(· == 0x01), { d := .dst ck, a := .src cvq, b := .src cvqx, masked := .yes, xl := true }, .vfcmpLt⟩,
    ⟨(· == 0x02), { d := .dst ck, a := .src cvq, b := .src cvqx, masked := .yes, xl := true }, .vfcmpLe⟩,
    ⟨(· == 0x03), { d := .dst ck, a := .src cvq, b := .src cvqx, masked := .yes, xl := true }, .vfcmpUn⟩,
    ⟨(· == 0x04), { d := .dst cv, a := .src cvq, masked := .yes }, .vfclass⟩ ]

/-- The functions of major opcode 0x46 (R71). -/
def rows46 : List Row :=
  [ ⟨(· == 0x00), { d := .dst cv, a := .src cvq, masked := .yes, imm := 0x001f7f00, aTile := true, limit := limVfcvt }, .vfcvt⟩ ]

/-- The functions of major opcode 0x47 (R71). -/
def rows47 : List Row :=
  [ ⟨(· == 0x00), { d := .dst cv, a := .src cvq, imm := 0x00007f00, limit := limVmxq }, .vmxq⟩ ]

/-- The functions of major opcode 0x48 (R71). -/
def rows48 : List Row :=
  [ ⟨(· == 0x00), { d := .dst cv, a := .src cvq, masked := .yes }, .vmv⟩,
    ⟨(· == 0x01), { d := .dst cv, a := .src cx, masked := .yes }, .vmvX⟩,
    ⟨(· == 0x02), { d := .dst cx, a := .src cvq, imm := 0x00000fff }, .vmvXv⟩,
    ⟨(· == 0x03), { d := .dst cv, masked := .yes, imm := immAll }, .vmvI⟩ ]

/-- The functions of major opcode 0x49 (R71). -/
def rows49 : List Row :=
  [ ⟨(· == 0x00), { d := .dst cv, a := .src cx, b := .src cx, masked := .yes, limit := limVrnd }, .vrnd⟩,
    ⟨(· == 0x01), { d := .dst cv, a := .src cx, b := .src cx, masked := .yes, limit := limVrnd }, .vrndAdv⟩ ]

/-- The functions of major opcode 0x4a (R71). -/
def rows4A : List Row :=
  [ ⟨(· == 0x00), { a := .src cvq }, .ctabw⟩,
    ⟨(· == 0x01), { a := .src cx, imm := 0x00000003 }, .ctabwX⟩ ]

/-- The functions of major opcode 0x50 (R71). -/
def rows50 : List Row :=
  [ ⟨(· == 0x00), { d := .dst ck, a := .src ck, b := .src ck }, .kand⟩,
    ⟨(· == 0x01), { d := .dst ck, a := .src ck, b := .src ck }, .kor⟩,
    ⟨(· == 0x02), { d := .dst ck, a := .src ck, b := .src ck }, .kxor⟩,
    ⟨(· == 0x03), { d := .dst ck, a := .src ck, b := .src ck }, .kandn⟩ ]

/-- The functions of major opcode 0x51 (R71). -/
def rows51 : List Row :=
  [ ⟨(· == 0x00), { d := .dst ck, imm := 0x00000001 }, .kset⟩,
    ⟨(· == 0x01), { d := .dst ck }, .ksetTile⟩,
    ⟨(· == 0x02), { d := .dst ck, a := .src cx }, .ksetLt⟩ ]

/-- The functions of major opcode 0x52 (R71). -/
def rows52 : List Row :=
  [ ⟨(· == 0x00), { d := .dst cx, a := .src ck, masked := .yes }, .kcnt⟩ ]

/-- The functions of major opcode 0x53 (R71). -/
def rows53 : List Row :=
  [ ⟨(· == 0x00), { d := .dst cp, a := .src ck, masked := .yes }, .kany⟩,
    ⟨(· == 0x01), { d := .dst cp, a := .src ck, masked := .yes }, .kanyAll⟩ ]

/-- The functions of major opcode 0x54 (R71). -/
def rows54 : List Row :=
  [ ⟨(· == 0x00), { d := .dst cx, a := .src ck, masked := .yes }, .kfirst⟩ ]

/-- The functions of major opcode 0x55 (R71). -/
def rows55 : List Row :=
  [ ⟨(· == 0x00), { d := .dst ck, a := .src ck }, .kmv⟩,
    ⟨(· == 0x01), { d := .dst ck, a := .src cvq, masked := .yes }, .kmvV⟩,
    ⟨(· == 0x02), { d := .dst cv, a := .src ck, masked := .yes }, .kmvKv⟩,
    ⟨(· == 0x03), { d := .dst ck, a := .src cx, imm := 0x0000003f }, .kmvX⟩,
    ⟨(· == 0x04), { d := .dst cx, a := .src ck, imm := 0x0000003f }, .kmvKx⟩ ]

/-- The functions of major opcode 0x58 (R71). -/
def rows58 : List Row :=
  [ ⟨(· == 0x00), { d := .dst cxv, a := .src cvq, b := .src cx, masked := .yes, bIf := 0x800, imm := 0x00000f00, fpRm := true, limit := limSeed }, .vredSum⟩,
    ⟨(· == 0x01), { d := .dst cxv, a := .src cvq, b := .src cx, masked := .yes, bIf := 0x800, imm := 0x00000f00, fpRm := true, limit := limSeed }, .vredMax⟩,
    ⟨(· == 0x02), { d := .dst cxv, a := .src cvq, b := .src cx, masked := .yes, bIf := 0x800, imm := 0x00000f00, fpRm := true, limit := limSeed }, .vredMin⟩,
    ⟨(· == 0x03), { d := .dst cxv, a := .src cvq, b := .src cx, masked := .yes, bIf := 0x800, imm := 0x00000f00, fpRm := true, limit := limSeed }, .vredAnd⟩,
    ⟨(· == 0x04), { d := .dst cxv, a := .src cvq, b := .src cx, masked := .yes, bIf := 0x800, imm := 0x00000f00, fpRm := true, limit := limSeed }, .vredOr⟩,
    ⟨(· == 0x05), { d := .dst cxv, a := .src cvq, b := .src cx, masked := .yes, bIf := 0x800, imm := 0x00000f00, fpRm := true, limit := limSeed }, .vredXor⟩ ]

/-- The functions of major opcode 0x59 (R71). -/
def rows59 : List Row :=
  [ ⟨(· == 0x00), { d := .dst cxv, a := .src cvq, b := .src cx, masked := .yes, bIf := 0x800, imm := 0x00000f00, fpRm := true, limit := limSeed }, .vfredoSum⟩ ]

/-- The functions of major opcode 0x5a (R71). -/
def rows5A : List Row :=
  [ ⟨(· == 0x00), { d := .dst cv, a := .src cvq, b := .src cx, masked := .yes, bIf := 0x800, imm := 0x00000f00, fpRm := true, limit := limSeed }, .vredrowSum⟩,
    ⟨(· == 0x01), { d := .dst cv, a := .src cvq, b := .src cx, masked := .yes, bIf := 0x800, imm := 0x00000f00, fpRm := true, limit := limSeed }, .vredrowMax⟩,
    ⟨(· == 0x02), { d := .dst cv, a := .src cvq, b := .src cx, masked := .yes, bIf := 0x800, imm := 0x00000f00, fpRm := true, limit := limSeed }, .vredrowMin⟩,
    ⟨(· == 0x03), { d := .dst cv, a := .src cvq, b := .src cx, masked := .yes, bIf := 0x800, imm := 0x00000f00, fpRm := true, limit := limSeed }, .vredrowAnd⟩,
    ⟨(· == 0x04), { d := .dst cv, a := .src cvq, b := .src cx, masked := .yes, bIf := 0x800, imm := 0x00000f00, fpRm := true, limit := limSeed }, .vredrowOr⟩,
    ⟨(· == 0x05), { d := .dst cv, a := .src cvq, b := .src cx, masked := .yes, bIf := 0x800, imm := 0x00000f00, fpRm := true, limit := limSeed }, .vredrowXor⟩ ]

/-- The functions of major opcode 0x60 (R71). -/
def rows60 : List Row :=
  [ ⟨(· == 0x00), { d := .dst cv, a := .src cvq, b := .src cvq, masked := .yes }, .vperm⟩,
    ⟨(· == 0x01), { d := .dst cv, a := .src cvq, b := .src cvq, masked := .yes }, .vpermRow⟩ ]

/-- The functions of major opcode 0x61 (R71). -/
def rows61 : List Row :=
  [ ⟨(· == 0x00), { d := .dst cv, a := .src cvq, b := .src cx, masked := .yes }, .vslideUp⟩,
    ⟨(· == 0x01), { d := .dst cv, a := .src cvq, b := .src cx, masked := .yes }, .vslideDn⟩,
    ⟨(· == 0x02), { d := .dst cv, a := .src cvq, masked := .yes, imm := 0x00000fff }, .vslideUpI⟩,
    ⟨(· == 0x03), { d := .dst cv, a := .src cvq, masked := .yes, imm := 0x00000fff }, .vslideDnI⟩ ]

/-- The functions of major opcode 0x62 (R71). -/
def rows62 : List Row :=
  [ ⟨(· == 0x00), { d := .dst cv, a := .src cvq, b := .src ck, c := .dst cx, imm := 0x000000ff }, .vcomp⟩,
    ⟨(· == 0x01), { d := .dst cv, a := .src cvq, b := .src ck }, .vexp⟩ ]

/-- The functions of major opcode 0x63 (R71). -/
def rows63 : List Row :=
  [ ⟨(· == 0x00), { d := .dst cv, a := .src ck, c := .dst cx, imm := 0x000000ff, limit := limEvenD }, .vpart⟩ ]

/-- The functions of major opcode 0x64 (R71). -/
def rows64 : List Row :=
  [ ⟨(· == 0x00), { d := .dst cv, a := .src cvq, imm := 0x0000003f }, .vrowmv⟩ ]

/-- The functions of major opcode 0x65 (R71). -/
def rows65 : List Row :=
  [ ⟨(· == 0x00), { d := .dst cv, a := .src cvq, masked := .yes }, .vtrn⟩ ]

/-- The functions of major opcode 0x66 (R71). -/
def rows66 : List Row :=
  [ ⟨(· == 0x00), { d := .dst cv, a := .src cvq, b := .src cvqx, masked := .required, xl := true }, .vmerge⟩,
    ⟨(· == 0x01), { d := .dst cv, a := .src cvq, b := .src cvq, masked := .yes }, .vzipLo⟩,
    ⟨(· == 0x02), { d := .dst cv, a := .src cvq, b := .src cvq, masked := .yes }, .vzipHi⟩,
    ⟨(· == 0x03), { d := .dst cv, a := .src cvq, b := .src cvq, masked := .yes }, .vzipEv⟩,
    ⟨(· == 0x04), { d := .dst cv, a := .src cvq, b := .src cvq, masked := .yes }, .vzipOd⟩ ]

/-- The functions of major opcode 0x67 (R71). -/
def rows67 : List Row :=
  [ ⟨(· == 0x00), { d := .dst cv, a := .src ck, masked := .yes }, .viota⟩,
    ⟨(· == 0x01), { d := .dst cv, masked := .yes }, .viotaI⟩ ]

/-- The functions of major opcode 0x68 (R71). -/
def rows68 : List Row :=
  [ ⟨(· == 0x00), { d := .dst cv, a := .src cvq, b := .src cvq, imm := 0x00000700, limit := limRm }, .vbmv⟩,
    ⟨(· == 0x01), { d := .dst cv, a := .src cvq, b := .src cvq, imm := 0x00000700, limit := limRm }, .vbmvAcc⟩,
    ⟨(· == 0x02), { d := .dst cv, a := .src cvq, b := .src cvq, imm := 0x00000700, limit := limRm }, .vbmvNacc⟩ ]

/-- The functions of major opcode 0x69 (R71). -/
def rows69 : List Row :=
  [ ⟨(· == 0x00), { d := .dst cv, a := .src cvq, b := .src cvq, imm := 0x00000700, limit := limRm }, .vbmm⟩,
    ⟨(· == 0x01), { d := .dst cv, a := .src cvq, b := .src cvq, imm := 0x00000700, limit := limRm }, .vbmmAcc⟩,
    ⟨(· == 0x02), { d := .dst cv, a := .src cvq, b := .src cvq, imm := 0x00000700, limit := limRm }, .vbmmNacc⟩ ]

/-- The functions of major opcode 0x6a (R71). -/
def rows6A : List Row :=
  [ ⟨(· == 0x00), { d := .dst cv, a := .src cvq, imm := 0x00000700, limit := limRm }, .vblu⟩ ]

/-- The functions of major opcode 0x6b (R71). -/
def rows6B : List Row :=
  [ ⟨(· == 0x00), { d := .dst cv, a := .src cvq, b := .src cvq, imm := 0x00000700, limit := limRm }, .vbtrs⟩ ]

/-- The functions of major opcode 0x6c (R71). -/
def rows6C : List Row :=
  [ ⟨(· == 0x00), { imm := 0x00037f7f, limit := limMcfg }, .mcfgI⟩,
    ⟨(· == 0x01), { a := .noTrap cx }, .mcfg⟩ ]

/-- The functions of major opcode 0x6d (R71). -/
def rows6D : List Row :=
  [ ⟨(· == 0x00), { d := .dst cma }, .mzero⟩ ]

/-- The functions of major opcode 0x6e (R71). -/
def rows6E : List Row :=
  [ ⟨(· == 0x00), { d := .dst cma, a := .src cvq, b := .src cvq }, .mmaf⟩,
    ⟨(· == 0x01), { d := .dst cma, a := .src cvq, b := .src cvq }, .mmafZ⟩ ]

/-- The functions of major opcode 0x6f (R71). -/
def rows6F : List Row :=
  [ ⟨(· == 0x00), { d := .dst cma, a := .src cv, b := .src cv, imm := 0x00031f1f, limit := limMmax }, .mmax⟩,
    ⟨(· == 0x01), { d := .dst cma, a := .src cv, b := .src cv, imm := 0x00031f1f, limit := limMmax }, .mmaxZ⟩ ]

/-- The functions of major opcode 0x70 (R71). -/
def rows70 : List Row :=
  [ ⟨(fun fn => fn < 8 && !fn.getLsbD 0), { d := .dst cma, a := .src cvq, b := .src cvq }, .mmai⟩,
    ⟨(fun fn => fn < 8 && fn.getLsbD 0), { d := .dst cma, a := .src cvq, b := .src cvq }, .mmaiZ⟩ ]

/-- The functions of major opcode 0x71 (R71). -/
def rows71 : List Row :=
  [ ⟨(fun fn => fn < 4 && !fn.getLsbD 0), { d := .dst cma, a := .src cvq, b := .src cvq }, .mtern⟩,
    ⟨(fun fn => fn < 4 && fn.getLsbD 0), { d := .dst cma, a := .src cvq, b := .src cvq }, .mternZ⟩ ]

/-- The functions of major opcode 0x72 (R71). -/
def rows72 : List Row :=
  [ ⟨(· == 0x00), { d := .dst cv, a := .noTrap cma, imm := 0x00000f3f, limit := limRm }, .mrd⟩,
    ⟨(· == 0x01), { d := .dst cv, a := .noTrap cma, b := .noTrap cx, imm := 0x00000f00, limit := limRm }, .mrdX⟩ ]

/-- The functions of major opcode 0x73 (R71). -/
def rows73 : List Row :=
  [ ⟨(· == 0x00), { d := .dst cma, a := .src cvq, imm := 0x00000f3f, limit := limMwr }, .mwr⟩,
    ⟨(· == 0x01), { d := .dst cma, a := .src cvq, b := .noTrap cx, imm := 0x00000f00, limit := limMwr }, .mwrX⟩ ]

/-- The functions of major opcode 0x78 (R71). -/
def rows78 : List Row :=
  [ ⟨ldFnOk, { d := .dst cxp, a := .src cx, strm := true, imm := immAll }, .ld⟩ ]

/-- The functions of major opcode 0x79 (R71). -/
def rows79 : List Row :=
  [ ⟨stFnOk, { a := .src cx, b := .src cx, strm := true, imm := immAll }, .st⟩ ]

/-- The functions of major opcode 0x7a (R71). -/
def rows7A : List Row :=
  [ ⟨(· == 0x00), { d := .dst cvqd, a := .src cx, b := .src cx, masked := .yes, strm := true, imm := 0x0000f400, imm7 := 0x00000300, limit := limScope }, .vld⟩,
    ⟨(· == 0x01), { d := .dst cvqd, a := .src cx, masked := .yes, strm := true, imm := 0x0000f700, limit := limVldc }, .vldC⟩,
    ⟨(· == 0x02), { d := .dst cvks, a := .src cx, strm := true, imm := 0x0000f000, imm7 := 0x00000300, limit := limScope }, .vldR⟩ ]

/-- The functions of major opcode 0x7b (R71). -/
def rows7B : List Row :=
  [ ⟨(· == 0x00), { d := .dst cvqd, a := .src cx, b := .src cx, masked := .yes, strm := true, imm := 0x0000f400, imm7 := 0x00000300, limit := limScope }, .vlds⟩ ]

/-- The functions of major opcode 0x7c (R71). -/
def rows7C : List Row :=
  [ ⟨(· == 0x00), { d := .dst cvqd, a := .src cx, b := .src cvq, masked := .yes, strm := true, imm := 0x0000fc00, imm7 := 0x00000300, limit := limScope }, .vldx⟩ ]

/-- The functions of major opcode 0x7d (R71). -/
def rows7D : List Row :=
  [ ⟨(· == 0x00), { a := .src cx, b := .src cx, c := .src cvq, masked := .yes, strm := true, imm := 0x0000f4ff, imm7 := 0x00000300, limit := limScope }, .vst⟩,
    ⟨(· == 0x01), { a := .src cx, c := .src cvq, masked := .yes, strm := true, imm := 0x0000f4ff, imm7 := 0x00000300, limit := limScope }, .vstC⟩,
    ⟨(· == 0x02), { a := .src cx, c := .src cvks, strm := true, imm := 0x0000f0ff, imm7 := 0x00000300, limit := limScope }, .vstR⟩ ]

/-- The functions of major opcode 0x7e (R71). -/
def rows7E : List Row :=
  [ ⟨(· == 0x00), { a := .src cx, b := .src cx, c := .src cvq, masked := .yes, strm := true, imm := 0x0000f4ff, imm7 := 0x00000300, limit := limScope }, .vsts⟩ ]

/-- The functions of major opcode 0x7f (R71). -/
def rows7F : List Row :=
  [ ⟨(· == 0x00), { a := .src cx, b := .src cvq, c := .src cvq, masked := .yes, strm := true, imm := 0x0000fcff, imm7 := 0x00000300, limit := limScope }, .vstx⟩ ]

/-- The functions of major opcode 0x80 (R71). -/
def rows80 : List Row :=
  [ ⟨(· == 0x00), { d := .dst cvqd, a := .src cx, strm := true }, .vldbm⟩ ]

/-- The functions of major opcode 0x81 (R71). -/
def rows81 : List Row :=
  [ ⟨(· == 0x00), { a := .src cx, b := .src cvq, strm := true, imm := immAll }, .vstbm⟩ ]

/-- The functions of major opcode 0x82 (R71). -/
def rows82 : List Row :=
  [ ⟨(fun fn => amoFnOk fn && amoOp fn != 9), { d := .dst cx, a := .src cx, b := .src cx, strm := true, imm := 0x00007000, limit := limAmo }, .amo⟩,
    ⟨(fun fn => amoFnOk fn && amoOp fn == 9), { d := .dst cx, a := .src cx, b := .src cx, c := .src cx, strm := true, imm := 0x000070ff, limit := limAmo }, .amo⟩ ]

/-- The functions of major opcode 0x83 (R71). -/
def rows83 : List Row :=
  [ ⟨vamoFnOk, { d := .dst cvx0, a := .src cx, b := .src cvq, c := .src cvq, masked := .yes, strm := true, imm := 0x000078ff, limit := limAmo }, .vamo⟩ ]

/-- The functions of major opcode 0x84 (R71). -/
def rows84 : List Row :=
  [ ⟨vamoFnOk, { d := .dst cvx0, a := .src cx, b := .src cvq, c := .src cvq, masked := .yes, strm := true, imm := 0x000078ff, limit := limAmo }, .vamoo⟩ ]

/-- The functions of major opcode 0x85 (R71). -/
def rows85 : List Row :=
  [ ⟨(fun fn => vredmFnOk fn && amoOp fn != 10), { d := .dst cx, a := .src cx, b := .src cvq, masked := .yes, strm := true, imm := 0x00007000, limit := limAmo }, .vredm⟩,
    ⟨(fun fn => vredmFnOk fn && amoOp fn == 10), { d := .dst cx, a := .src cx, b := .src cvq, masked := .yes, strm := true, imm := 0x00007700, limit := limAmoRm }, .vredm⟩ ]

/-- The functions of major opcode 0x86 (R71). -/
def rows86 : List Row :=
  [ ⟨(· == 0x00), { a := .src cx, b := .src cx, strm := true }, .pf⟩,
    ⟨(· == 0x01), { a := .src cx, b := .src cx, c := .src cx, strm := true, imm := 0x000000ff }, .pfTx⟩ ]

/-- The functions of major opcode 0x87 (R71). -/
def rows87 : List Row :=
  [ ⟨(· == 0x00), { a := .src cx, strm := true }, .hbgat⟩ ]

/-- The functions of major opcode 0x88 (R71). -/
def rows88 : List Row :=
  [ ⟨(· == 0x00), { a := .src cx, strm := true }, .hbred⟩ ]

/-- The functions of major opcode 0x89 (R71). -/
def rows89 : List Row :=
  [ ⟨(· == 0x00), { a := .src cx, strm := true }, .hbcvt⟩ ]

/-- The functions of major opcode 0x90 (R71). -/
def rows90 : List Row :=
  [ ⟨(· == 0x00), { d := .dst cx, a := .src cx, b := .src ck, strm := true }, .barvTx⟩,
    ⟨(· == 0x01), { d := .dst cx, a := .src cx, b := .src cx, strm := true }, .barvTxX⟩,
    ⟨(· == 0x02), { b := .src ck, strm := true }, .barvG⟩,
    ⟨(· == 0x03), { b := .src cx, strm := true }, .barvGX⟩ ]

/-- The functions of major opcode 0x91 (R71). -/
def rows91 : List Row :=
  [ ⟨(· == 0x00), { d := .dst cx, strm := true }, .barw⟩ ]

/-- The functions of major opcode 0x92 (R71). -/
def rows92 : List Row :=
  [ ⟨(· == 0x00), { d := .dst cx, a := .src cx, b := .src cx, strm := true }, .txpost⟩ ]

/-- The functions of major opcode 0x93 (R71). -/
def rows93 : List Row :=
  [ ⟨(· == 0x00), { d := .dst cx, a := .src cx, strm := true }, .txarr⟩,
    ⟨(· == 0x01), { a := .src cx, b := .src cx, strm := true }, .txarrInit⟩ ]

/-- The functions of major opcode 0x94 (R71). -/
def rows94 : List Row :=
  [ ⟨(· == 0x00), { d := .dst cx, a := .src cx, b := .src cx, strm := true }, .txwait⟩ ]

/-- The functions of major opcode 0x95 (R71). -/
def rows95 : List Row :=
  [ ⟨(· == 0x00), { d := .dst cx, a := .src cx, b := .src cx, strm := true }, .cwait⟩ ]

/-- The functions of major opcode 0x96 (R71). -/
def rows96 : List Row :=
  [ ⟨(· == 0x00), { a := .src cx, strm := true }, .marm⟩ ]

/-- The functions of major opcode 0x97 (R71). -/
def rows97 : List Row :=
  [ ⟨(· == 0x00), { d := .dst cx, strm := true }, .mwait⟩ ]

/-- The functions of major opcode 0x98 (R71). -/
def rows98 : List Row :=
  [ ⟨(· == 0x00), { d := .dst cx, strm := true }, .gsync⟩ ]

/-- The functions of major opcode 0x99 (R71). -/
def rows99 : List Row :=
  [ ⟨(· == 0x00), { strm := true }, .phaseC⟩,
    ⟨(· == 0x01), { strm := true }, .phaseX⟩,
    ⟨(· == 0x02), { d := .dst cx, strm := true }, .phaseGet⟩ ]

/-- The functions of major opcode 0x9a (R71). -/
def rows9A : List Row :=
  [ ⟨(· == 0x00), { a := .src cx, b := .src cx, imm := 0x0000073f, limit := limBdecl }, .bdecl⟩,
    ⟨(· == 0x01), { imm := 0x0000003f }, .bdeclFree⟩ ]

/-- The functions of major opcode 0x9b (R71). -/
def rows9B : List Row :=
  [ ⟨(· == 0x00), { imm := 0x0000033f }, .bset⟩,
    ⟨(· == 0x01), { d := .dst cx, imm := 0x0000003f }, .bsetGet⟩ ]

/-- The functions of major opcode 0x9c (R71). -/
def rows9C : List Row :=
  [ ⟨(· == 0x00), { d := .dst cx, a := .src cx, b := .src cx, strm := true, imm := 0x0000000f }, .cph⟩,
    ⟨(· == 0x01), { d := .dst cx, strm := true, imm := 0x0000000f }, .cphGet⟩ ]

/-- The functions of major opcode 0x9d (R71). -/
def rows9D : List Row :=
  [ ⟨(· == 0x00), { a := .src cx, strm := true, imm := 0x0000000f }, .cpt⟩ ]

/-- The functions of major opcode 0x9e (R71). -/
def rows9E : List Row :=
  [ ⟨(· == 0x00), { d := .dst cx, a := .src cx, b := .src cx, c := .src cx, strm := true, imm := 0x00000fff }, .cparm⟩ ]

/-- The functions of major opcode 0xa0 (R71). -/
def rowsA0 : List Row :=
  [ ⟨(· == 0x00), { a := .src cx, b := .src cvq, c := .dst cx, strm := true, imm := 0x00007fff }, .tdep⟩ ]

/-- The functions of major opcode 0xa1 (R71). -/
def rowsA1 : List Row :=
  [ ⟨(· == 0x00), { d := .dst cv, a := .src cx, b := .src cvq, c := .dst cx, strm := true, imm := 0x007f0fff }, .tcpy⟩,
    ⟨(· == 0x01), { d := .dst cv, a := .src cx, b := .src cvq, c := .dst cx, strm := true, imm := 0x007f0fff }, .tcpyNb⟩ ]

/-- The functions of major opcode 0xa2 (R71). -/
def rowsA2 : List Row :=
  [ ⟨(· == 0x00), { d := .dst cv, a := .src cx, b := .src cvq, c := .dst cx, strm := true, imm := 0x007f0fff }, .ttake⟩,
    ⟨(· == 0x01), { d := .dst cv, a := .src cx, b := .src cvq, c := .dst cx, strm := true, imm := 0x007f0fff }, .ttakeNb⟩ ]

/-- The functions of major opcode 0xa3 (R71). -/
def rowsA3 : List Row :=
  [ ⟨(· == 0x00), { d := .dst cx, a := .noTrap cv, strm := true }, .tcan⟩ ]

/-- The functions of major opcode 0xa4 (R71). -/
def rowsA4 : List Row :=
  [ ⟨(· == 0x00), { d := .dst cx, a := .src cx, b := .src cvq, strm := true }, .cballoc⟩ ]

/-- The functions of major opcode 0xa5 (R71). -/
def rowsA5 : List Row :=
  [ ⟨(· == 0x00), { d := .dst cx, a := .src cx, b := .src cx, c := .src cx, strm := true, imm := 0x000000ff }, .cbput⟩ ]

/-- The functions of major opcode 0xa6 (R71). -/
def rowsA6 : List Row :=
  [ ⟨(· == 0x00), { d := .dst cx, a := .src cx, b := .src cx, strm := true }, .cbstat⟩,
    ⟨(· == 0x01), { d := .dst cx, a := .src cx, strm := true, imm := 0x00000007, limit := limCbBuf }, .cbstatBuf⟩ ]

/-- The functions of major opcode 0xa8 (R71). -/
def rowsA8 : List Row :=
  [ ⟨(· == 0x00), { d := .dst cx, a := .src cx, strm := true }, .mbind⟩,
    ⟨(· == 0x01), { a := .src cx, strm := true }, .munbind⟩ ]

/-- The functions of major opcode 0xa9 (R71). -/
def rowsA9 : List Row :=
  [ ⟨(· == 0x00), { d := .dst cvqd, a := .src cx, b := .src cvq, masked := .yes, strm := true, imm := 0x0000000f }, .nbld⟩,
    ⟨(· == 0x01), { d := .dst cvqd, a := .src cx, b := .src cvq, masked := .yes, strm := true, imm := 0x00000003 }, .nbldNd⟩ ]

/-- The functions of major opcode 0xaa (R71). -/
def rowsAA : List Row :=
  [ ⟨(· == 0x00), { d := .dst cv, a := .src cx, b := .src cx, masked := .yes, strm := true, limit := limEvenD }, .fcld⟩,
    ⟨(· == 0x01), { d := .dst cv, a := .src cx, b := .src cx, masked := .yes, strm := true, imm := 0x0000000f, limit := limEvenD }, .fcldC⟩ ]

/-- The functions of major opcode 0xab (R71). -/
def rowsAB : List Row :=
  [ ⟨(· == 0x00), { d := .dst cx, a := .src cx, b := .src cvq, masked := .yes, strm := true }, .mmarkR⟩,
    ⟨(· == 0x01), { d := .dst cx, a := .src cx, b := .src cvq, masked := .yes, strm := true }, .mmarkC⟩ ]

/-- The functions of major opcode 0xac (R71). -/
def rowsAC : List Row :=
  [ ⟨(· == 0x00), { d := .dst cx, a := .src cx, strm := true }, .mrebuild⟩,
    ⟨(· == 0x01), { d := .dst cx, a := .src cx, b := .src cx, strm := true }, .mrebuildInit⟩ ]

/-- The functions of major opcode 0xad (R71). -/
def rowsAD : List Row :=
  [ ⟨(· == 0x00), { d := .dst cx, a := .src cx, b := .src cx, strm := true, imm := 0x0000003f }, .mfield⟩,
    ⟨(· == 0x01), { d := .dst cx, a := .src cx, strm := true, imm := 0x0000003f }, .mfieldRm⟩,
    ⟨(· == 0x02), { d := .dst cx, a := .src cx, b := .src cx, c := .src cx, strm := true, imm := 0x000000ff }, .mghost⟩ ]

/-- The functions of major opcode 0xae (R71). -/
def rowsAE : List Row :=
  [ ⟨(· == 0x00), { d := .dst cx, a := .src cx, b := .src cx, strm := true }, .mbal⟩ ]

/-- The functions of major opcode 0xaf (R71). -/
def rowsAF : List Row :=
  [ ⟨(· == 0x00), { d := .dst cvqd, a := .src cvq, b := .src cvq, masked := .yes, strm := true }, .vsfc2d⟩,
    ⟨(· == 0x01), { d := .dst cvqd, a := .src cvq, b := .src cvq, c := .src cvq, masked := .yes, strm := true, imm := 0x000000ff }, .vsfc3d⟩,
    ⟨(· == 0x02), { d := .dst cx, a := .src cx, strm := true, imm := 0x000000ff, limit := limMq }, .mq⟩,
    ⟨(· == 0x03), { d := .dst cx, a := .src cx, strm := true, imm := 0x0000003f }, .mqField⟩ ]

/-- The functions of major opcode 0xb0 (R71). -/
def rowsB0 : List Row :=
  [ ⟨(· == 0x00), { d := .dst cx, a := .src cx, strm := true, imm := 0x00000007 }, .tkenq⟩ ]

/-- The functions of major opcode 0xb1 (R71). -/
def rowsB1 : List Row :=
  [ ⟨(· == 0x00), { d := .dst cx }, .tkdone⟩ ]

/-- The functions of major opcode 0xb2 (R71). -/
def rowsB2 : List Row :=
  [ ⟨(· == 0x00), { d := .dst cx }, .tknext⟩ ]

/-- The functions of major opcode 0xb3 (R71). -/
def rowsB3 : List Row :=
  [ ⟨(· == 0x00), { d := .dst cx, a := .src cx, b := .src cx }, .vdhop⟩ ]

/-- The functions of major opcode 0xb4 (R71). -/
def rowsB4 : List Row :=
  [ ⟨(· == 0x00), { d := .dst cx, a := .src cx, strm := true }, .coll⟩ ]

/-- The functions of each major opcode; an opcode with none is reserved (R71, R72). -/
def rowsOf (opc : BitVec 8) : List Row :=
  match opc.toNat with
  | 0x01 => rows01
  | 0x02 => rows02
  | 0x03 => rows03
  | 0x04 => rows04
  | 0x05 => rows05
  | 0x06 => rows06
  | 0x07 => rows07
  | 0x08 => rows08
  | 0x09 => rows09
  | 0x0a => rows0A
  | 0x0b => rows0B
  | 0x0c => rows0C
  | 0x10 => rows10
  | 0x11 => rows11
  | 0x12 => rows12
  | 0x13 => rows13
  | 0x14 => rows14
  | 0x15 => rows15
  | 0x18 => rows18
  | 0x19 => rows19
  | 0x1a => rows1A
  | 0x1c => rows1C
  | 0x1d => rows1D
  | 0x1e => rows1E
  | 0x1f => rows1F
  | 0x20 => rows20
  | 0x21 => rows21
  | 0x22 => rows22
  | 0x28 => rows28
  | 0x29 => rows29
  | 0x2a => rows2A
  | 0x2b => rows2B
  | 0x2c => rows2C
  | 0x2d => rows2D
  | 0x30 => rows30
  | 0x31 => rows31
  | 0x32 => rows32
  | 0x33 => rows33
  | 0x34 => rows34
  | 0x35 => rows35
  | 0x36 => rows36
  | 0x37 => rows37
  | 0x38 => rows38
  | 0x39 => rows39
  | 0x3a => rows3A
  | 0x40 => rows40
  | 0x41 => rows41
  | 0x42 => rows42
  | 0x43 => rows43
  | 0x44 => rows44
  | 0x45 => rows45
  | 0x46 => rows46
  | 0x47 => rows47
  | 0x48 => rows48
  | 0x49 => rows49
  | 0x4a => rows4A
  | 0x50 => rows50
  | 0x51 => rows51
  | 0x52 => rows52
  | 0x53 => rows53
  | 0x54 => rows54
  | 0x55 => rows55
  | 0x58 => rows58
  | 0x59 => rows59
  | 0x5a => rows5A
  | 0x60 => rows60
  | 0x61 => rows61
  | 0x62 => rows62
  | 0x63 => rows63
  | 0x64 => rows64
  | 0x65 => rows65
  | 0x66 => rows66
  | 0x67 => rows67
  | 0x68 => rows68
  | 0x69 => rows69
  | 0x6a => rows6A
  | 0x6b => rows6B
  | 0x6c => rows6C
  | 0x6d => rows6D
  | 0x6e => rows6E
  | 0x6f => rows6F
  | 0x70 => rows70
  | 0x71 => rows71
  | 0x72 => rows72
  | 0x73 => rows73
  | 0x78 => rows78
  | 0x79 => rows79
  | 0x7a => rows7A
  | 0x7b => rows7B
  | 0x7c => rows7C
  | 0x7d => rows7D
  | 0x7e => rows7E
  | 0x7f => rows7F
  | 0x80 => rows80
  | 0x81 => rows81
  | 0x82 => rows82
  | 0x83 => rows83
  | 0x84 => rows84
  | 0x85 => rows85
  | 0x86 => rows86
  | 0x87 => rows87
  | 0x88 => rows88
  | 0x89 => rows89
  | 0x90 => rows90
  | 0x91 => rows91
  | 0x92 => rows92
  | 0x93 => rows93
  | 0x94 => rows94
  | 0x95 => rows95
  | 0x96 => rows96
  | 0x97 => rows97
  | 0x98 => rows98
  | 0x99 => rows99
  | 0x9a => rows9A
  | 0x9b => rows9B
  | 0x9c => rows9C
  | 0x9d => rows9D
  | 0x9e => rows9E
  | 0xa0 => rowsA0
  | 0xa1 => rowsA1
  | 0xa2 => rowsA2
  | 0xa3 => rowsA3
  | 0xa4 => rowsA4
  | 0xa5 => rowsA5
  | 0xa6 => rowsA6
  | 0xa8 => rowsA8
  | 0xa9 => rowsA9
  | 0xaa => rowsAA
  | 0xab => rowsAB
  | 0xac => rowsAC
  | 0xad => rowsAD
  | 0xae => rowsAE
  | 0xaf => rowsAF
  | 0xb0 => rowsB0
  | 0xb1 => rowsB1
  | 0xb2 => rowsB2
  | 0xb3 => rowsB3
  | 0xb4 => rowsB4
  | _ => []

/-- The row that an opcode and function select (R69 steps 1 and 2). -/
def findRow (opc fn : BitVec 8) : Option Row := (rowsOf opc).find? (·.fnOk fn)

/-- The ALU groups, in which FN[7] selects the immediate form (R61). -/
def isAluGroup (opc : BitVec 8) : Bool :=
  (decide (0x01 ≤ opc.toNat) && decide (opc.toNat ≤ 0x0F)) || (decide (0x34 ≤ opc.toNat) && decide (opc.toNat ≤ 0x3A))

/-- Checks one register field: an unused field is zero (R58), a reserved code comes before a wrong class (R60, R69). -/
def Opnd.check (o : Opnd) (field : BitVec 4) (code : BitVec 8) : Except Illegal Reg :=
  match o with
  | .none => if code = 0 then .ok (.x 0) else .error ⟨0x08, field, 0⟩
  | .src cs | .noTrap cs | .dst cs =>
    match regOf code with
    | Option.none => .error ⟨0x05, field, 0⟩
    | some r => if cs.any (·.admits r) then .ok r else .error ⟨0x06, field, 0⟩

/-- Whether a position is a source. -/
def Opnd.isSrc : Opnd → Bool
  | .src _ | .noTrap _ => true
  | _ => false
/-- Whether a position takes a trap bit (R64). -/
def Opnd.trapOk : Opnd → Bool
  | .src _ => true
  | _ => false
/-- Whether the form uses the position. -/
def Opnd.used : Opnd → Bool
  | .none => false
  | _ => true
/-- Whether a register is a load-data queue. -/
def Reg.isQ : Reg → Bool
  | .q _ => true
  | _ => false
/-- Whether a register holds a tile (a `v` register or a queue entry). -/
def Reg.isTile : Reg → Bool
  | .v _ | .q _ => true
  | _ => false

/-- The `IMM` bits of `Fields.imm` that have a meaning: C's code is held apart. -/
def Form.immBits (m : Form) : BitVec 32 := if m.c.used then m.imm &&& 0xFFFFFF00 else m.imm

/-- Whether two sources name one queue (R27). -/
def queueTwice (o₁ o₂ : Opnd) (r₁ r₂ : Reg) : Bool := o₁.isSrc && o₂.isSrc && r₁.isQ && decide (r₁ = r₂)

/-- What steps 4 and 5 of R69 read of the snapshot's `VTYPE` (R21): whether `BL` is not 0 (R65, R113), and whether `FMT` is INT or
UINT (R123). A word judged by itself is judged under neither. -/
structure Snap where
  blocked : Bool := false
  integer : Bool := false
  deriving DecidableEq, Repr
def snapOf (vtype : BitVec 64) : Snap :=
  ⟨vtype.extractLsb' 9 2 != 0, fmtIsInt (vtype.extractLsb' 4 5).toNat⟩

/-- Source B as the form has it under an immediate. -/
def Form.opndB (m : Form) (imm : BitVec 32) : Opnd := if m.bIf &&& ~~~ imm = 0 then m.b else .none

/-- Step 5 of R69 in its order: `XL`, trap bits, `MEN` and `K`, `G` and `GN`, `STRM`, the unused `IMM` bits and `RM` of an integer
reduction; then the limits of step 6 that the entry checks from the word alone. -/
def checkRest (v : Snap) (m : Form) (f : Fields) : Option Illegal :=
  if f.xl ≠ 0 ∧ ¬ (m.xl ∧ f.b.isTile ∧ ¬ v.blocked) then some ⟨0x07, 7, 0⟩
  else if (f.ta ∧ ¬ m.a.trapOk) ∨ (f.tb ∧ ¬ (m.opndB f.imm).trapOk) ∨ (f.tc ∧ ¬ m.c.trapOk) then some ⟨0x07, 8, 0⟩
  else if f.men ∧ m.masked = .no then some ⟨0x07, 9, 0⟩
  else if ¬ f.men ∧ m.masked = .required then some ⟨0x07, 9, 0⟩
  else if ¬ f.men ∧ f.k ≠ 0 then some ⟨0x08, 9, 0⟩
  else if f.gn ∧ f.g = 0 then some ⟨0x09, 10, 0⟩
  else if f.strm ≠ 0 ∧ ¬ m.strm then some ⟨0x07, 11, 0⟩
  else if f.imm &&& m.imm7 ≠ 0 then some ⟨0x07, 12, 0⟩
  else if f.imm &&& ~~~ m.immBits ≠ 0 then some ⟨0x08, 12, 0⟩
  else if m.fpRm ∧ v.integer ∧ f.rm ≠ 0 then some ⟨0x08, 12, 0⟩
  else m.limit f

/-- The fields of a word, given the register operands already read. -/
def fieldsOf (m : Form) (w : IWord) (d a b c : Reg) : Fields :=
  { fn := w.extractLsb' 8 8, d := d, a := a, b := b, c := c
    imm := if m.c.used then w.extractLsb' 64 32 &&& 0xFFFFFF00 else w.extractLsb' 64 32
    xl := w.extractLsb' 40 3, ta := w.getLsbD 45, tb := w.getLsbD 44, tc := w.getLsbD 43
    men := w.getLsbD 50, k := (w.extractLsb' 46 4).toFin, g := (w.extractLsb' 51 4).toFin, gn := w.getLsbD 55
    strm := (w.extractLsb' 56 2).toFin, stall := w.extractLsb' 58 3, yld := w.getLsbD 61
    ecls := (w.extractLsb' 62 2).toFin }

/-- The register operands of a word in the order D, A, B, C (R69 step 4); of two sources that name one queue the later is at
fault (R27). -/
def readRegs (v : Snap) (m : Form) (w : IWord) : Except Illegal (Reg × Reg × Reg × Reg) :=
  let ob := m.opndB (w.extractLsb' 64 32)
  match m.d.check 3 (w.extractLsb' 16 8) with
  | .error e => .error e
  | .ok d => match m.a.check 4 (w.extractLsb' 24 8) with
    | .error e => .error e
    | .ok a =>
      if m.aTile && v.blocked && a.isQ then .error ⟨0x06, 4, 0⟩
      else match ob.check 5 (w.extractLsb' 32 8) with
      | .error e => .error e
      | .ok b =>
        if queueTwice m.a ob a b then .error ⟨0x06, 5, 0⟩
        else match m.c.check 6 (if m.c.used then w.extractLsb' 64 8 else 0) with
          | .error e => .error e
          | .ok c => if queueTwice m.a m.c a c || queueTwice ob m.c b c then .error ⟨0x06, 6, 0⟩ else .ok (d, a, b, c)

/-- Reads the fields of a word in the given form, in the order of R69 steps 4 to 6. -/
def decodeForm (v : Snap) (m : Form) (w : IWord) : Except Illegal Fields :=
  match readRegs v m w with
  | .error e => .error e
  | .ok (d, a, b, c) =>
    let f := fieldsOf m w d a b c
    match checkRest v m f with
    | some e => .error e
    | Option.none => .ok f

/-- The instruction a word is at a privilege level under a snapshot, or why it is illegal (R69 steps 1 to 6). -/
def decodeSnap (v : Snap) (pl : Priv) (w : IWord) : Except Illegal Instr :=
  let opc := w.extractLsb' 0 8
  let fn := w.extractLsb' 8 8
  if opc = 0 then .error ⟨0x01, 1, 0⟩
  else if (rowsOf opc).isEmpty then .error ⟨0x02, 1, 0⟩
  else match findRow opc fn with
    | Option.none =>
      if isAluGroup opc ∧ (findRow opc (fn ^^^ 0x80)).isSome then .error ⟨0x07, 2, 0⟩ else .error ⟨0x03, 2, 0⟩
    | some r =>
      if pl.code < r.form.priv.code then .error ⟨0x04, 1, 0⟩
      else match decodeForm v r.form w with
        | .error e => .error e
        | .ok f => .ok (r.build f)
/-- The instruction a word is by itself: no check that reads the snapshot is made. -/
def decodeWord (pl : Priv) (w : IWord) : Except Illegal Instr := decodeSnap {} pl w
/-- The instruction a word is to a hart whose `VTYPE` is given (R21, R69). -/
def decodeAt (vtype : BitVec 64) (pl : Priv) (w : IWord) : Except Illegal Instr := decodeSnap (snapOf vtype) pl w

/-- The major opcode and fields of an encoded instruction; a device event has none. -/
def Instr.parts : Instr → Option (BitVec 8 × Fields)
  | .add f => some (0x01, f)
  | .addI f => some (0x01, f)
  | .sub f => some (0x01, f)
  | .subI f => some (0x01, f)
  | .mul f => some (0x02, f)
  | .mulI f => some (0x02, f)
  | .mulh f => some (0x02, f)
  | .mulhI f => some (0x02, f)
  | .mulhu f => some (0x02, f)
  | .mulhuI f => some (0x02, f)
  | .div f => some (0x03, f)
  | .divI f => some (0x03, f)
  | .divu f => some (0x03, f)
  | .divuI f => some (0x03, f)
  | .rem f => some (0x03, f)
  | .remI f => some (0x03, f)
  | .remu f => some (0x03, f)
  | .remuI f => some (0x03, f)
  | .and f => some (0x04, f)
  | .andI f => some (0x04, f)
  | .or f => some (0x04, f)
  | .orI f => some (0x04, f)
  | .xor f => some (0x04, f)
  | .xorI f => some (0x04, f)
  | .andn f => some (0x04, f)
  | .andnI f => some (0x04, f)
  | .sll f => some (0x05, f)
  | .sllI f => some (0x05, f)
  | .srl f => some (0x05, f)
  | .srlI f => some (0x05, f)
  | .sra f => some (0x05, f)
  | .sraI f => some (0x05, f)
  | .rol f => some (0x05, f)
  | .rolI f => some (0x05, f)
  | .slt f => some (0x06, f)
  | .sltI f => some (0x06, f)
  | .sltu f => some (0x06, f)
  | .sltuI f => some (0x06, f)
  | .min f => some (0x07, f)
  | .minI f => some (0x07, f)
  | .max f => some (0x07, f)
  | .maxI f => some (0x07, f)
  | .minu f => some (0x07, f)
  | .minuI f => some (0x07, f)
  | .maxu f => some (0x07, f)
  | .maxuI f => some (0x07, f)
  | .clz f => some (0x08, f)
  | .ctz f => some (0x08, f)
  | .popc f => some (0x08, f)
  | .sext f => some (0x09, f)
  | .sextI f => some (0x09, f)
  | .zext f => some (0x09, f)
  | .zextI f => some (0x09, f)
  | .li f => some (0x0a, f)
  | .lih f => some (0x0b, f)
  | .sel f => some (0x0c, f)
  | .fadd f => some (0x10, f)
  | .fsub f => some (0x10, f)
  | .fmul f => some (0x10, f)
  | .fma f => some (0x11, f)
  | .fdiv f => some (0x12, f)
  | .fsqrt f => some (0x12, f)
  | .fmin f => some (0x13, f)
  | .fmax f => some (0x13, f)
  | .fsgn f => some (0x13, f)
  | .fsgnN f => some (0x13, f)
  | .fsgnX f => some (0x13, f)
  | .fclass f => some (0x15, f)
  | .fcmpEq f => some (0x15, f)
  | .fcmpLt f => some (0x15, f)
  | .fcmpLe f => some (0x15, f)
  | .fcmpUn f => some (0x15, f)
  | .fcvt f => some (0x14, f)
  | .pcmpEq f => some (0x18, f)
  | .pcmpNe f => some (0x18, f)
  | .pcmpLt f => some (0x18, f)
  | .pcmpGe f => some (0x18, f)
  | .pcmpLtu f => some (0x18, f)
  | .pcmpGeu f => some (0x18, f)
  | .pcmpEqI f => some (0x18, f)
  | .pcmpNeI f => some (0x18, f)
  | .pcmpLtI f => some (0x18, f)
  | .pcmpGeI f => some (0x18, f)
  | .pcmpLtuI f => some (0x18, f)
  | .pcmpGeuI f => some (0x18, f)
  | .plogAnd f => some (0x19, f)
  | .plogOr f => some (0x19, f)
  | .plogXor f => some (0x19, f)
  | .plogAndn f => some (0x19, f)
  | .pmov f => some (0x1a, f)
  | .pmovPx f => some (0x1a, f)
  | .pmovXp f => some (0x1a, f)
  | .pmovPk f => some (0x1a, f)
  | .pmovUpk f => some (0x1a, f)
  | .br f => some (0x1c, f)
  | .brZ f => some (0x1c, f)
  | .brNz f => some (0x1c, f)
  | .jal f => some (0x1d, f)
  | .jr f => some (0x1e, f)
  | .loop0 f => some (0x1f, f)
  | .loop1 f => some (0x1f, f)
  | .lbrk0 f => some (0x20, f)
  | .lbrk1 f => some (0x20, f)
  | .yield f => some (0x21, f)
  | .exit f => some (0x22, f)
  | .gsr f => some (0x28, f)
  | .ssr f => some (0x28, f)
  | .ssrSet f => some (0x28, f)
  | .ssrClr f => some (0x28, f)
  | .fence f => some (0x29, f)
  | .sbar f => some (0x29, f)
  | .ifence f => some (0x29, f)
  | .sys f => some (0x2a, f)
  | .ebrk f => some (0x2a, f)
  | .eret f => some (0x2b, f)
  | .tlbinvAll f => some (0x2c, f)
  | .tlbinvAsid f => some (0x2c, f)
  | .tlbinvVa f => some (0x2c, f)
  | .tlbinvGlob f => some (0x2c, f)
  | .hctlWfi f => some (0x2d, f)
  | .hctlPre f => some (0x2d, f)
  | .setvl f => some (0x30, f)
  | .setvlI f => some (0x30, f)
  | .setvr f => some (0x31, f)
  | .setvrI f => some (0x31, f)
  | .setvt f => some (0x32, f)
  | .setvtI f => some (0x32, f)
  | .setrl f => some (0x33, f)
  | .setrlRow f => some (0x33, f)
  | .vadd f => some (0x34, f)
  | .vaddI f => some (0x34, f)
  | .vsub f => some (0x34, f)
  | .vsubI f => some (0x34, f)
  | .vmul f => some (0x35, f)
  | .vmulI f => some (0x35, f)
  | .vmulh f => some (0x35, f)
  | .vmulhI f => some (0x35, f)
  | .vmacc f => some (0x36, f)
  | .vmaccI f => some (0x36, f)
  | .vmaccN f => some (0x36, f)
  | .vmaccNI f => some (0x36, f)
  | .vand f => some (0x37, f)
  | .vandI f => some (0x37, f)
  | .vor f => some (0x37, f)
  | .vorI f => some (0x37, f)
  | .vxor f => some (0x37, f)
  | .vxorI f => some (0x37, f)
  | .vsll f => some (0x38, f)
  | .vsllI f => some (0x38, f)
  | .vsrl f => some (0x38, f)
  | .vsrlI f => some (0x38, f)
  | .vsra f => some (0x38, f)
  | .vsraI f => some (0x38, f)
  | .vmin f => some (0x39, f)
  | .vminI f => some (0x39, f)
  | .vmax f => some (0x39, f)
  | .vmaxI f => some (0x39, f)
  | .vsadd f => some (0x3a, f)
  | .vsaddI f => some (0x3a, f)
  | .vfadd f => some (0x40, f)
  | .vfsub f => some (0x40, f)
  | .vfmul f => some (0x40, f)
  | .vffma f => some (0x41, f)
  | .vffmaMs f => some (0x41, f)
  | .vffmaNm f => some (0x41, f)
  | .vffmaNms f => some (0x41, f)
  | .vfdiv f => some (0x42, f)
  | .vfsqrt f => some (0x42, f)
  | .vfrcpe f => some (0x43, f)
  | .vfrsqe f => some (0x43, f)
  | .vfmin f => some (0x44, f)
  | .vfmax f => some (0x44, f)
  | .vfsgn f => some (0x44, f)
  | .vfsgnN f => some (0x44, f)
  | .vfsgnX f => some (0x44, f)
  | .vfcmpEq f => some (0x45, f)
  | .vfcmpLt f => some (0x45, f)
  | .vfcmpLe f => some (0x45, f)
  | .vfcmpUn f => some (0x45, f)
  | .vfclass f => some (0x45, f)
  | .vfcvt f => some (0x46, f)
  | .vmxq f => some (0x47, f)
  | .vmv f => some (0x48, f)
  | .vmvX f => some (0x48, f)
  | .vmvXv f => some (0x48, f)
  | .vmvI f => some (0x48, f)
  | .vrnd f => some (0x49, f)
  | .vrndAdv f => some (0x49, f)
  | .ctabw f => some (0x4a, f)
  | .ctabwX f => some (0x4a, f)
  | .kand f => some (0x50, f)
  | .kor f => some (0x50, f)
  | .kxor f => some (0x50, f)
  | .kandn f => some (0x50, f)
  | .kset f => some (0x51, f)
  | .ksetTile f => some (0x51, f)
  | .ksetLt f => some (0x51, f)
  | .kcnt f => some (0x52, f)
  | .kany f => some (0x53, f)
  | .kanyAll f => some (0x53, f)
  | .kfirst f => some (0x54, f)
  | .kmv f => some (0x55, f)
  | .kmvV f => some (0x55, f)
  | .kmvKv f => some (0x55, f)
  | .kmvX f => some (0x55, f)
  | .kmvKx f => some (0x55, f)
  | .vredSum f => some (0x58, f)
  | .vredMax f => some (0x58, f)
  | .vredMin f => some (0x58, f)
  | .vredAnd f => some (0x58, f)
  | .vredOr f => some (0x58, f)
  | .vredXor f => some (0x58, f)
  | .vfredoSum f => some (0x59, f)
  | .vredrowSum f => some (0x5a, f)
  | .vredrowMax f => some (0x5a, f)
  | .vredrowMin f => some (0x5a, f)
  | .vredrowAnd f => some (0x5a, f)
  | .vredrowOr f => some (0x5a, f)
  | .vredrowXor f => some (0x5a, f)
  | .vperm f => some (0x60, f)
  | .vpermRow f => some (0x60, f)
  | .vslideUp f => some (0x61, f)
  | .vslideDn f => some (0x61, f)
  | .vslideUpI f => some (0x61, f)
  | .vslideDnI f => some (0x61, f)
  | .vcomp f => some (0x62, f)
  | .vexp f => some (0x62, f)
  | .vpart f => some (0x63, f)
  | .vrowmv f => some (0x64, f)
  | .vtrn f => some (0x65, f)
  | .vmerge f => some (0x66, f)
  | .vzipLo f => some (0x66, f)
  | .vzipHi f => some (0x66, f)
  | .vzipEv f => some (0x66, f)
  | .vzipOd f => some (0x66, f)
  | .viota f => some (0x67, f)
  | .viotaI f => some (0x67, f)
  | .vbmv f => some (0x68, f)
  | .vbmvAcc f => some (0x68, f)
  | .vbmvNacc f => some (0x68, f)
  | .vbmm f => some (0x69, f)
  | .vbmmAcc f => some (0x69, f)
  | .vbmmNacc f => some (0x69, f)
  | .vblu f => some (0x6a, f)
  | .vbtrs f => some (0x6b, f)
  | .mcfgI f => some (0x6c, f)
  | .mcfg f => some (0x6c, f)
  | .mzero f => some (0x6d, f)
  | .mmaf f => some (0x6e, f)
  | .mmafZ f => some (0x6e, f)
  | .mmax f => some (0x6f, f)
  | .mmaxZ f => some (0x6f, f)
  | .mmai f => some (0x70, f)
  | .mmaiZ f => some (0x70, f)
  | .mtern f => some (0x71, f)
  | .mternZ f => some (0x71, f)
  | .mrd f => some (0x72, f)
  | .mrdX f => some (0x72, f)
  | .mwr f => some (0x73, f)
  | .mwrX f => some (0x73, f)
  | .ld f => some (0x78, f)
  | .st f => some (0x79, f)
  | .vld f => some (0x7a, f)
  | .vldC f => some (0x7a, f)
  | .vldR f => some (0x7a, f)
  | .vlds f => some (0x7b, f)
  | .vldx f => some (0x7c, f)
  | .vst f => some (0x7d, f)
  | .vstC f => some (0x7d, f)
  | .vstR f => some (0x7d, f)
  | .vsts f => some (0x7e, f)
  | .vstx f => some (0x7f, f)
  | .vldbm f => some (0x80, f)
  | .vstbm f => some (0x81, f)
  | .amo f => some (0x82, f)
  | .vamo f => some (0x83, f)
  | .vamoo f => some (0x84, f)
  | .vredm f => some (0x85, f)
  | .pf f => some (0x86, f)
  | .pfTx f => some (0x86, f)
  | .hbgat f => some (0x87, f)
  | .hbred f => some (0x88, f)
  | .hbcvt f => some (0x89, f)
  | .barvTx f => some (0x90, f)
  | .barvTxX f => some (0x90, f)
  | .barvG f => some (0x90, f)
  | .barvGX f => some (0x90, f)
  | .barw f => some (0x91, f)
  | .txpost f => some (0x92, f)
  | .txarr f => some (0x93, f)
  | .txarrInit f => some (0x93, f)
  | .txwait f => some (0x94, f)
  | .cwait f => some (0x95, f)
  | .marm f => some (0x96, f)
  | .mwait f => some (0x97, f)
  | .gsync f => some (0x98, f)
  | .phaseC f => some (0x99, f)
  | .phaseX f => some (0x99, f)
  | .phaseGet f => some (0x99, f)
  | .bdecl f => some (0x9a, f)
  | .bdeclFree f => some (0x9a, f)
  | .bset f => some (0x9b, f)
  | .bsetGet f => some (0x9b, f)
  | .cph f => some (0x9c, f)
  | .cphGet f => some (0x9c, f)
  | .cpt f => some (0x9d, f)
  | .cparm f => some (0x9e, f)
  | .tdep f => some (0xa0, f)
  | .tcpy f => some (0xa1, f)
  | .tcpyNb f => some (0xa1, f)
  | .ttake f => some (0xa2, f)
  | .ttakeNb f => some (0xa2, f)
  | .tcan f => some (0xa3, f)
  | .cballoc f => some (0xa4, f)
  | .cbput f => some (0xa5, f)
  | .cbstat f => some (0xa6, f)
  | .cbstatBuf f => some (0xa6, f)
  | .mbind f => some (0xa8, f)
  | .munbind f => some (0xa8, f)
  | .nbld f => some (0xa9, f)
  | .nbldNd f => some (0xa9, f)
  | .fcld f => some (0xaa, f)
  | .fcldC f => some (0xaa, f)
  | .mmarkR f => some (0xab, f)
  | .mmarkC f => some (0xab, f)
  | .mrebuild f => some (0xac, f)
  | .mrebuildInit f => some (0xac, f)
  | .mfield f => some (0xad, f)
  | .mfieldRm f => some (0xad, f)
  | .mghost f => some (0xad, f)
  | .mbal f => some (0xae, f)
  | .vsfc2d f => some (0xaf, f)
  | .vsfc3d f => some (0xaf, f)
  | .mq f => some (0xaf, f)
  | .mqField f => some (0xaf, f)
  | .tkenq f => some (0xb0, f)
  | .tkdone f => some (0xb1, f)
  | .tknext f => some (0xb2, f)
  | .vdhop f => some (0xb3, f)
  | .coll f => some (0xb4, f)
  | .longLatencyResult .. => none
  | .laneGroupArbitration .. => none
  | .memoryAccessPerform .. => none
  | .pageTableWalk .. => none
  | .asyncCauseTaken .. => none
  | .ttmoExpiry .. => none
  | .waiterWake .. => none
  | .timerExpiry .. => none
  | .energyRefill .. => none
  | .issueWindow .. => none
  | .currentBackstop .. => none
  | .copyRecordStart .. => none
  | .copyRecordRetire .. => none
  | .copyRecordFail .. => none
  | .prefetchSectorDone .. => none
  | .baseDieCompletion .. => none
  | .tupleDepositAtHome .. => none
  | .tupleRequestAtHome .. => none
  | .tupleCancelAtHome .. => none
  | .tupleDelivery .. => none
  | .tupleTimeout .. => none
  | .cbAllocAtHome .. => none
  | .cbPutAtHome .. => none
  | .slotCombine .. => none
  | .combineDeadline .. => none
  | .slotRelease .. => none
  | .meshJob .. => none
  | .generationPublish .. => none
  | .fieldRemap .. => none
  | .ghostRefresh .. => none
  | .launchRecordTake .. => none
  | .launchHartBind .. => none
  | .gangEnd .. => none
  | .taskBind .. => none
  | .preemptSequence .. => none
  | .ctxresWrite .. => none
  | .resumeSequence .. => none
  | .resumeHartBind .. => none
  | .srcarveWrite .. => none
  | .rascntClear .. => none
  | .ctxcrWrite .. => none
  | .hostBar2Access .. => none
  | .hclaimWrite .. => none
  | .hbeatWrite .. => none
  | .ownerLapse .. => none
  | .hdoorWrite .. => none
  | .hpreWrite .. => none
  | .lqcfgWrite .. => none
  | .lqtailWrite .. => none
  | .acmdWrite .. => none
  | .attestationReport .. => none
  | .elrdRead .. => none
  | .registerWrite .. => none
  | .collSent .. => none
  | .collDone .. => none
  | .collFail .. => none
  | .linkFlitResend .. => none
  | .routeLost .. => none
  | .correctableError .. => none
  | .hbmParityAlert .. => none
  | .selfTestComplete .. => none
  | .checkpoint .. => none
  | .contextRestart .. => none
  | .measuredStart .. => none
  | .homeSliceStateMove .. => none
  | .packageSchedulerPreempt .. => none

/-- The form of an encoded instruction. -/
def Instr.form (i : Instr) : Option Form :=
  match i.parts with
  | Option.none => Option.none
  | some (opc, f) => (findRow opc f.fn).map (·.form)

/-- Packs fields into a word under a major opcode; `c` holds C's code where the form names C (R56, R58). -/
def packWord (opc : BitVec 8) (usesC : Bool) (f : Fields) : IWord :=
  let bit (b : Bool) : Nat := if b then 1 else 0
  let imm : Nat := if usesC then (f.imm &&& 0xFFFFFF00).toNat + f.c.code.toNat else f.imm.toNat
  BitVec.ofNat 96 (opc.toNat + f.fn.toNat * 2 ^ 8 + f.d.code.toNat * 2 ^ 16 + f.a.code.toNat * 2 ^ 24
    + f.b.code.toNat * 2 ^ 32 + f.xl.toNat * 2 ^ 40 + bit f.tc * 2 ^ 43 + bit f.tb * 2 ^ 44 + bit f.ta * 2 ^ 45
    + f.k.val * 2 ^ 46 + bit f.men * 2 ^ 50 + f.g.val * 2 ^ 51 + bit f.gn * 2 ^ 55 + f.strm.val * 2 ^ 56
    + f.stall.toNat * 2 ^ 58 + bit f.yld * 2 ^ 61 + f.ecls.val * 2 ^ 62 + imm * 2 ^ 64)

/-- The word of an encoded instruction; a device event has no word. -/
def encode (i : Instr) : Option IWord :=
  match i.parts with
  | Option.none => Option.none
  | some (opc, f) => match findRow opc f.fn with
    | Option.none => Option.none
    | some r => some (packWord opc r.form.c.used f)

/-- The instruction our decoder reads from the bits `w` of a table row, at firmware level, where no form is refused for
its privilege. Bit 0 is the least significant bit of the byte at the instruction's address (R4); bits from `nbits` up
to 95 are zero. -/
def decodeTableWord (nbits w : Nat) : Option Instr :=
  match decodeWord .f (BitVec.ofNat 96 (w % 2 ^ nbits)) with
  | .ok i => some i
  | .error _ => Option.none

end

end Sys2Proof
end

