-- ==== Sys2Proof/Machine/Flags.lean ====
section
/-! DEFINITION. Number formats, rounding and exception flags (spec/02). Every value is exact until one named helper
(`round`, `sround`, `cvti`) narrows it, as R7 asks. A quotient or root that has no finite binary form is carried with
one extra low bit set (`jam`), which keeps every comparison with a rounding boundary right. -/
namespace Sys2Proof.Machine

/-- The exception flags of one instruction, laid out as `FFLAGS` (R44). -/
abbrev Flags := BitVec 8

abbrev flNV : Flags := 0x01#8
abbrev flOF : Flags := 0x02#8
abbrev flUF : Flags := 0x04#8
abbrev flNX : Flags := 0x08#8
abbrev flDZ : Flags := 0x10#8
abbrev flVSAT : Flags := 0x20#8
abbrev flTRES : Flags := 0x40#8
abbrev flZPIV : Flags := 0x80#8

/-- A flag set when a condition holds. -/
def flagIf (b : Bool) (f : Flags) : Flags := if b then f else 0

/-- Rounding modes (R42, Table 3). -/
inductive Rm where
  | rne
  | rna
  | rtz
  | rdn
  | rup
  deriving DecidableEq, Repr

/-- The mode an `FRM` code names; codes 5 to 7 never stand in `FRM` (R42). -/
def Rm.ofFrm (n : Nat) : Rm :=
  if n = 1 then .rna else if n = 2 then .rtz else if n = 3 then .rdn else if n = 4 then .rup else .rne

/-- The mode of a 3-bit `RM` field under the dynamic mode `frm` (R42): 0 defers, n names `FRM` code n - 1. -/
def Rm.ofField (rm frm : Nat) : Rm := if rm = 0 then Rm.ofFrm frm else Rm.ofFrm (rm - 1)

/-- The floating-point formats (R35). -/
inductive FpFmt where
  | f64
  | f32
  | f16
  | bf16
  | e4m3
  | e5m2
  | e2m1
  deriving DecidableEq, Repr

/-- Exponent width (R35, Table 2). -/
def FpFmt.eb : FpFmt → Nat
  | .f64 => 11 | .f32 => 8 | .f16 => 5 | .bf16 => 8 | .e4m3 => 4 | .e5m2 => 5 | .e2m1 => 2
/-- Fraction width. -/
def FpFmt.fb : FpFmt → Nat
  | .f64 => 52 | .f32 => 23 | .f16 => 10 | .bf16 => 7 | .e4m3 => 3 | .e5m2 => 2 | .e2m1 => 1
/-- Exponent bias. -/
def FpFmt.bias : FpFmt → Nat
  | .f64 => 1023 | .f32 => 127 | .f16 => 15 | .bf16 => 127 | .e4m3 => 7 | .e5m2 => 15 | .e2m1 => 1
/-- Element width. -/
def FpFmt.width (f : FpFmt) : Nat := 1 + f.eb + f.fb
/-- Whether an all-ones exponent stands for infinity and NaN. -/
def FpFmt.ieee : FpFmt → Bool
  | .e4m3 | .e2m1 => false
  | _ => true
/-- Whether a NaN with a clear top fraction bit is signalling (R36). -/
def FpFmt.hasSignalling : FpFmt → Bool
  | .f64 | .f32 | .f16 | .bf16 => true
  | _ => false
/-- The canonical NaN (R36); E2M1 has none. -/
def FpFmt.canonNaN : FpFmt → Nat
  | .f64 => 0x7FF8000000000000 | .f32 => 0x7FC00000 | .f16 => 0x7E00 | .bf16 => 0x7FC0
  | .e4m3 => 0x7F | .e5m2 => 0x7E | .e2m1 => 0
/-- The bits of the largest finite magnitude (R35). -/
def FpFmt.maxBits (f : FpFmt) : Nat :=
  match f with
  | .e4m3 => 0x7E
  | .e2m1 => 0x7
  | _ => (2 ^ f.eb - 1) * 2 ^ f.fb - 1
/-- The bits of positive infinity in a format that has it. -/
def FpFmt.infBits (f : FpFmt) : Nat := (2 ^ f.eb - 1) * 2 ^ f.fb

/-- An exact real, an infinity or a NaN. `fin neg m e` is `(-1)^neg * m * 2^e`; `m = 0` is a signed zero. -/
inductive FVal where
  | nan (signalling : Bool)
  | inf (neg : Bool)
  | fin (neg : Bool) (m : Nat) (e : Int)
  deriving DecidableEq, Repr

/-- The value of an element's bits (R35, R36). -/
def FpFmt.decode (f : FpFmt) (bits : Nat) : FVal :=
  let neg := bits.testBit (f.eb + f.fb)
  let ex := bits / 2 ^ f.fb % 2 ^ f.eb
  let fr := bits % 2 ^ f.fb
  if f.ieee && ex == 2 ^ f.eb - 1 then
    if fr = 0 then .inf neg else .nan (f.hasSignalling && !fr.testBit (f.fb - 1))
  else if f == .e4m3 && ex == 15 && fr == 7 then .nan false
  else if ex = 0 then .fin neg fr (1 - (f.bias : Int) - f.fb)
  else .fin neg (2 ^ f.fb + fr) ((ex : Int) - f.bias - f.fb)

/-- The number of bits of a natural number. -/
def bitLen (n : Nat) : Nat := if n = 0 then 0 else Nat.log2 n + 1

/-- Rounds `m / 2^k` to an integer magnitude in a mode, with whether it was inexact. -/
def roundMag (mode : Rm) (neg : Bool) (m k : Nat) : Nat × Bool :=
  let q := m / 2 ^ k
  let r := m % 2 ^ k
  if r = 0 then (q, false)
  else
    let up : Bool := match mode with
      | .rne => decide (2 * r > 2 ^ k) || (decide (2 * r = 2 ^ k) && q % 2 == 1)
      | .rna => decide (2 * r ≥ 2 ^ k)
      | .rtz => false
      | .rdn => neg
      | .rup => !neg
    (if up then q + 1 else q, true)

/-- Rounds `m * 2^e` to a multiple of `2^g`: the multiple, and whether it was inexact. -/
def roundTo (mode : Rm) (neg : Bool) (m : Nat) (e g : Int) : Nat × Bool :=
  if e ≥ g then (m * 2 ^ (e - g).toNat, false) else roundMag mode neg m (g - e).toNat

/-- Whether `m * 2^e` is less than `n * 2^d`, as magnitudes. -/
def magLt (m : Nat) (e : Int) (n : Nat) (d : Int) : Bool :=
  if e ≥ d then decide (m * 2 ^ (e - d).toNat < n) else decide (m < n * 2 ^ (d - e).toNat)

/-- The sign bit of a format. -/
def FpFmt.sign (f : FpFmt) (neg : Bool) : Nat := if neg then 2 ^ (f.eb + f.fb) else 0

/-- Rounding with the two overflow rules: `sat` gives the largest finite magnitude for every overflow and every
infinity (R43). -/
def roundWith (sat : Bool) (f : FpFmt) (mode : Rm) (x : FVal) : Nat × Flags :=
  match x with
  | .nan _ => if f = .e2m1 then (0, flNV) else (f.canonNaN, 0)
  | .inf neg =>
    if sat then (f.sign neg + f.maxBits, flNV)
    else if f.ieee then (f.sign neg + f.infBits, 0)
    else if f = .e4m3 then (f.canonNaN, flNV)
    else (f.sign neg + f.maxBits, flNV)
  | .fin neg m e =>
    if m = 0 then (f.sign neg, 0)
    else
      let p : Int := f.fb + 1
      let top : Int := e + bitLen m                       -- x lies in [2^(top-1), 2^top)
      let gran : Int := top - p                           -- the granularity of p significant bits
      let y := roundTo mode neg m e gran
      let emin : Int := 1 - f.bias                        -- the least normal exponent
      let maxv := f.decode f.maxBits
      let exceeds : Bool := match maxv with
        | .fin _ mm me => magLt mm me y.1 gran
        | _ => false
      if exceeds then
        let away : Bool := match mode with
          | .rne | .rna => true
          | .rup => !neg
          | .rdn => neg
          | .rtz => false
        let bits :=
          if sat || f = .e2m1 then f.sign neg + f.maxBits
          else if !away then f.sign neg + f.maxBits
          else if f = .e4m3 then f.canonNaN
          else f.sign neg + f.infBits
        (bits, flOF ||| flNX)
      else
        let low : Int := emin - f.fb                      -- the granularity of subnormals
        let g := if gran < low then low else gran
        let z := roundTo mode neg m e g
        let tiny := magLt y.1 gran 1 emin
        let bits : Nat :=
          if z.1 < 2 ^ f.fb then z.1                      -- subnormal or zero; g is then `low`
          else if z.1 = 2 ^ (f.fb + 1) then (g + f.fb + 1 + f.bias).toNat * 2 ^ f.fb
          else (g + f.fb + f.bias).toNat * 2 ^ f.fb + (z.1 - 2 ^ f.fb)
        (f.sign neg + bits, flagIf z.2 flNX ||| flagIf (z.2 && tiny) flUF)

/-- `round(x, fmt, mode)` (R43): the bits and the flags it sets. -/
def round (f : FpFmt) (mode : Rm) (x : FVal) : Nat × Flags := roundWith false f mode x
/-- `sround(x, fmt, mode)` (R43). -/
def sround (f : FpFmt) (mode : Rm) (x : FVal) : Nat × Flags := roundWith true f mode x

/-- The bounds of a `w`-bit integer (R34). -/
def intMin (w : Nat) (sgn : Bool) : Int := if sgn then -(2 ^ (w - 1) : Nat) else 0
def intMax (w : Nat) (sgn : Bool) : Int := if sgn then (2 ^ (w - 1) - 1 : Nat) else (2 ^ w - 1 : Nat)
/-- The value of `w` bits as an integer. -/
def intOf (w : Nat) (sgn : Bool) (bits : Nat) : Int :=
  if sgn && bits.testBit (w - 1) then (bits : Int) - (2 ^ w : Nat) else bits
/-- The low `w` bits of an integer in two's complement. -/
def bitsOf (w : Nat) (z : Int) : Nat := (z % (2 ^ w : Nat)).toNat
/-- An integer clamped to a range, and whether it changed. -/
def clamp (w : Nat) (sgn : Bool) (z : Int) : Int × Bool :=
  if z < intMin w sgn then (intMin w sgn, true) else if z > intMax w sgn then (intMax w sgn, true) else (z, false)

/-- `cvti(x, w, sgn, mode)` (R46): the bits and the flags. -/
def cvti (w : Nat) (sgn : Bool) (mode : Rm) (x : FVal) : Nat × Flags :=
  match x with
  | .nan _ => (0, flNV)
  | .inf neg => (bitsOf w (if neg then intMin w sgn else intMax w sgn), flNV ||| flVSAT)
  | .fin neg m e =>
    let r := roundTo mode neg m e 0
    let z : Int := if neg then -(r.1 : Int) else r.1
    let c := clamp w sgn z
    (bitsOf w c.1, if c.2 then flNV ||| flVSAT else flagIf r.2 flNX)

/-- An integer as an exact value; a zero integer is +0. -/
def FVal.ofInt (z : Int) : FVal := .fin (decide (z < 0)) z.natAbs 0

/-- Whether a value is a signalling NaN. -/
def FVal.isSignalling : FVal → Bool
  | .nan s => s
  | _ => false
def FVal.isNaN : FVal → Bool
  | .nan _ => true
  | _ => false
def FVal.isInf : FVal → Bool
  | .inf _ => true
  | _ => false
def FVal.isZero : FVal → Bool
  | .fin _ m _ => m == 0
  | _ => false
def FVal.negative : FVal → Bool
  | .nan _ => false
  | .inf n => n
  | .fin n _ _ => n
/-- The value with its sign turned. -/
def FVal.neg : FVal → FVal
  | .nan s => .nan s
  | .inf n => .inf !n
  | .fin n m e => .fin (!n) m e
/-- The value times a power of two. -/
def FVal.scale (x : FVal) (k : Int) : FVal :=
  match x with
  | .fin n m e => .fin n m (e + k)
  | y => y
/-- The magnitude. -/
def FVal.abs : FVal → FVal
  | .nan s => .nan s
  | .inf _ => .inf false
  | .fin _ m e => .fin false m e

/-- The flag of reading floating-point operands: `NV` for a signalling NaN (R36). -/
def snanFlag (xs : List FVal) : Flags := flagIf (xs.any (·.isSignalling)) flNV

/-- The exact product, with `NV` for infinity times zero. Signalling operands are flagged by the caller. -/
def mulExact (x y : FVal) : FVal × Flags :=
  match x, y with
  | .nan _, _ => (.nan false, 0)
  | _, .nan _ => (.nan false, 0)
  | .inf a, .inf b => (.inf (a != b), 0)
  | .inf a, .fin b m _ => if m = 0 then (.nan false, flNV) else (.inf (a != b), 0)
  | .fin a m _, .inf b => if m = 0 then (.nan false, flNV) else (.inf (a != b), 0)
  | .fin a m e, .fin b n d => (.fin (a != b) (m * n) (e + d), 0)

/-- The exact sum in a mode, which decides only the sign of a zero sum (R43 step 5), with `NV` for the difference of
infinities. -/
def addExact (mode : Rm) (x y : FVal) : FVal × Flags :=
  match x, y with
  | .nan _, _ => (.nan false, 0)
  | _, .nan _ => (.nan false, 0)
  | .inf a, .inf b => if a = b then (.inf a, 0) else (.nan false, flNV)
  | .inf a, .fin .. => (.inf a, 0)
  | .fin .., .inf b => (.inf b, 0)
  | .fin a m e, .fin b n d =>
    let g := if e ≤ d then e else d
    let s (neg : Bool) (k : Nat) (ex : Int) : Int :=
      let v : Int := ((k * 2 ^ (ex - g).toNat : Nat) : Int)
      if neg then -v else v
    let t := s a m e + s b n d
    if t = 0 then
      let neg := if a = b then a else decide (mode = .rdn)
      (.fin neg 0 g, 0)
    else (.fin (decide (t < 0)) t.natAbs g, 0)

/-- The square root of a natural number rounded down, one binary digit at a time from bit `k - 1`. -/
def isqrt (n : Nat) : Nat → Nat → Nat
  | 0, r => r
  | k + 1, r =>
    let r' := r + 2 ^ k
    if r' * r' ≤ n then isqrt n k r' else isqrt n k r

/-- Sets the lowest bit of a magnitude doubled when a remainder was cut off. -/
def jam (q : Nat) (e : Int) (rest : Bool) : Nat × Int := (2 * q + (if rest then 1 else 0), e - 1)

/-- The quotient (R85, R111): NaN with `NV` for 0/0 and infinity/infinity, an infinity with `DZ` for a finite non-zero
value over zero. -/
def divExact (x y : FVal) : FVal × Flags :=
  match x, y with
  | .nan _, _ => (.nan false, 0)
  | _, .nan _ => (.nan false, 0)
  | .inf _, .inf _ => (.nan false, flNV)
  | .inf a, .fin b _ _ => (.inf (a != b), 0)
  | .fin a _ e, .inf b => (.fin (a != b) 0 e, 0)
  | .fin a m e, .fin b n d =>
    if n = 0 then (if m = 0 then (.nan false, flNV) else (.inf (a != b), flDZ))
    else
      let k := 70 + bitLen n
      let num := m * 2 ^ k
      let j := jam (num / n) (e - d - k) (num % n != 0)
      (.fin (a != b) j.1 j.2, 0)

/-- The square root: NaN with `NV` for a negative non-zero operand; the root of -0 is -0. -/
def sqrtExact (x : FVal) : FVal × Flags :=
  match x with
  | .nan _ => (.nan false, 0)
  | .inf neg => if neg then (.nan false, flNV) else (.inf false, 0)
  | .fin neg m e =>
    if m = 0 then (.fin neg 0 e, 0)
    else if neg then (.nan false, flNV)
    else
      let odd : Nat := (e % 2).toNat
      let k : Nat := 140 + odd                            -- e - k is even
      let n := m * 2 ^ k
      let w := (bitLen n + 1) / 2
      let r := isqrt n w 0
      let j := jam r ((e - k) / 2) (r * r != n)
      (.fin false j.1 j.2, 0)

/-- The reciprocal square root of a positive finite value, correctly truncated and jammed. -/
def rsqrtExact (m : Nat) (e : Int) : FVal :=
  -- 1/sqrt(m * 2^e) = sqrt(2^(-e) / m)
  let q := 2 ^ (300 + 2 * bitLen m) / m
  let rest : Bool := 2 ^ (300 + 2 * bitLen m) % m != 0
  let ex : Int := -e - (300 + 2 * bitLen m : Nat)
  let odd : Nat := (ex % 2).toNat
  let n := q * 2 ^ odd
  let w := (bitLen n + 1) / 2
  let r := isqrt n w 0
  let j := jam r ((ex - odd) / 2) (rest || r * r != n)
  .fin false j.1 j.2

/-- A value correctly rounded to 12 significant bits, ties to even, with an unbounded exponent (R47). -/
def round12 (x : FVal) : FVal :=
  match x with
  | .fin neg m e =>
    if m = 0 then x
    else
      let g : Int := e + bitLen m - 12
      .fin neg (roundTo .rne neg m e g).1 g
  | y => y

/-- Drops `NX` (R47: the estimates never set it). -/
def noNX (r : Nat × Flags) : Nat × Flags := (r.1, r.2 &&& ~~~ flNX)

/-- `vfrcpe` of one element (R47). -/
def recipEst (f : FpFmt) (x : FVal) : Nat × Flags :=
  match x with
  | .nan s => (f.canonNaN, flagIf s flNV)
  | .inf neg => (f.sign neg, 0)
  | .fin neg m e =>
    if m = 0 then (f.sign neg + f.infBits, flDZ)
    else
      let r := noNX (round f .rne (round12 (divExact (.fin neg 1 0) (.fin false m e)).1))
      r

/-- `vfrsqe` of one element (R47). -/
def rsqrtEst (f : FpFmt) (x : FVal) : Nat × Flags :=
  match x with
  | .nan s => (f.canonNaN, flagIf s flNV)
  | .inf neg => if neg then (f.canonNaN, flNV) else (0, 0)
  | .fin neg m e =>
    if m = 0 then (f.sign neg + f.infBits, flDZ)
    else if neg then (f.canonNaN, flNV)
    else noNX (round f .rne (round12 (rsqrtExact m e)))

/-- Comparison of two values that are not NaN. -/
def fLt (x y : FVal) : Bool :=
  match x, y with
  | .nan _, _ => false
  | _, .nan _ => false
  | .inf a, .inf b => a && !b
  | .inf a, .fin .. => a
  | .fin .., .inf b => !b
  | .fin a m e, .fin b n d =>
    if m = 0 && n = 0 then false
    else if m = 0 then !b
    else if n = 0 then a
    else if a && !b then true
    else if !a && b then false
    else if a then magLt n d m e
    else magLt m e n d
/-- Equality of values: zeros of either sign are equal, a NaN equals nothing. -/
def fEq (x y : FVal) : Bool := !x.isNaN && !y.isNaN && !fLt x y && !fLt y x

/-- Single-rounding sum, product, fused multiply-add (R43, R85, R111): bits and flags. -/
def fpAdd (f : FpFmt) (mode : Rm) (x y : FVal) : Nat × Flags :=
  let s := addExact mode x y
  let r := round f mode s.1
  (r.1, snanFlag [x, y] ||| s.2 ||| r.2)
def fpMul (f : FpFmt) (mode : Rm) (x y : FVal) : Nat × Flags :=
  let s := mulExact x y
  let r := round f mode s.1
  (r.1, snanFlag [x, y] ||| s.2 ||| r.2)
def fpFma (f : FpFmt) (mode : Rm) (x y z : FVal) : Nat × Flags :=
  let p := mulExact x y
  let s := addExact mode p.1 z
  let r := round f mode s.1
  (r.1, snanFlag [x, y, z] ||| p.2 ||| s.2 ||| r.2)
def fpDiv (f : FpFmt) (mode : Rm) (x y : FVal) : Nat × Flags :=
  let s := divExact x y
  let r := round f mode s.1
  (r.1, snanFlag [x, y] ||| s.2 ||| r.2)
def fpSqrt (f : FpFmt) (mode : Rm) (x : FVal) : Nat × Flags :=
  let s := sqrtExact x
  let r := round f mode s.1
  (r.1, snanFlag [x] ||| s.2 ||| r.2)

end Sys2Proof.Machine
end

