-- ==== Sys2Proof/Machine/State.lean ====
section
/-! DEFINITION. The state of one package of the Sceros S6 inside its scale-up domain, as plain data: harts with every
register of spec/01, memory in one canonical form, contexts, gangs, the engines' own state, and the schedule that says
which agent moves next. -/
namespace Sys2Proof.Machine

/-- The value of a register of any class. -/
inductive RegVal where
  | word (w : Word)
  | bit (b : Bool)
  | tile (t : Tile)
  | mask (m : Mask)
  | scale (t : Scale)
  | acc (a : AccImage)
  /-- The tile of the queue entry that a sequence number names (R26, R28). -/
  | entry (seq : Nat) (t : Tile)
  deriving DecidableEq, Repr

/-- The shape an E-side instruction or a queue entry carries from its fork (R21, R26). -/
structure Shape where
  vtype : Word := 0
  vl : Word := 0
  vr : Word := 1
  rowlen : Word := 0
  frm : Word := 0
  deriving DecidableEq, Repr

/-- One entry of a load-data queue (R26, R28, R361). `stopped` holds the element at which the load that fills it has stopped, and
`owner` the address of that load, which goes on filling the entry when it is executed again (R160). -/
structure QEntry where
  seq : Nat
  filled : Bool
  tile : Tile
  shape : Shape
  stopped : Option Nat
  owner : BitVec 55
  deriving DecidableEq, Repr

/-- Which full/empty bits stand at empty (R9, R23); a clear bit means full. -/
structure Empties where
  x : BitVec 64 := 0
  p : BitVec 16 := 0
  v : BitVec 32 := 0
  k : BitVec 16 := 0
  s : BitVec 8 := 0
  ma : BitVec 2 := 0
  deriving DecidableEq, Repr

/-- The system registers a hart holds for itself (R29, Table 5). Context-wide ones stand in `Ctx`, gang-wide ones in
`Gang`, identity in `Hart`. -/
structure SysRegs where
  vtype : Word := 1
  vl : Word := 0
  vr : Word := 1
  vstart : Word := 0
  rowlen : Word := 0
  dirty : Word := 0
  frm : Word := 0
  fflags : Word := 0
  acfg : Word := 0
  mstat : Word := 0
  ctab0 : Word := 0
  ctab1 : Word := 0
  ctab2 : Word := 0
  ctab3 : Word := 0
  lc0 : Word := 0
  lc1 : Word := 0
  lb0 : Word := 0
  lb1 : Word := 0
  le0 : Word := 0
  le1 : Word := 0
  task : Word := 0
  tile0 : Word := 0
  tile1 : Word := 0
  tile2 : Word := 0
  tn : Word := 0
  wshare : Word := 1
  dampstat : Word := 0
  ttmo : Word := 0
  detctl : Word := 0
  cycle : Word := 0
  instret : Word := 0
  stvec : Word := 0
  cause : Word := 0
  epc : Word := 0
  eval : Word := 0
  eidx : Word := 0
  sscratch : Word := 0
  tleft : Word := 0
  deriving DecidableEq, Repr

/-- The fields of `SSTAT` (R346); `PEND` is computed from the pending causes. -/
structure SStat where
  tf : Bool := false
  paie : Bool := false
  aie : Bool := false
  ppl : Priv := .u
  pl : Priv := .u
  deriving DecidableEq, Repr

/-- The firmware trap registers of a hart (R399); `FSTAT.PL` is the hart's current level. -/
structure FwRegs where
  tf : Bool := false
  ppl : Priv := .f
  ftvec : Word := 0
  fcause : Word := 0
  fepc : Word := 0
  feval : Word := 0
  feidx : Word := 0
  deriving DecidableEq, Repr

/-- One part of a load: `width` bits at bit `bit` of byte `pa`, to bit `dst` of the destination. -/
structure LoadPart where
  va : Nat
  pa : Nat
  bit : Nat
  width : Nat
  dst : Nat
  deriving DecidableEq, Repr

/-- One part of a store. -/
structure StorePart where
  va : Nat
  pa : Nat
  bit : Nat
  width : Nat
  value : Nat
  deriving DecidableEq, Repr

/-- How a loaded value enters its destination: as it stands, or extended from `w` bits (R155). -/
inductive Ext where
  | raw
  | signed (w : Nat)
  | unsigned (w : Nat)
  deriving DecidableEq, Repr

/-- One part of an atomic (R168): the word at `pa` of `width` bits, its operation and operands, and the place of the old
value in the destination. -/
structure RmwPart where
  va : Nat
  pa : Nat
  width : Nat
  op : Nat
  value : Nat
  alt : Nat
  dst : Nat
  deriving DecidableEq, Repr

/-- What a fence or a stream barrier orders (R200, R202): its streams against each other, its accesses before later writes, or its
reads before every later access. -/
inductive OrderKind where
  | streams
  | release
  | acquire
  deriving DecidableEq, Repr

/-- What an issued access does when it is performed at its home (R195). `base` is the destination's image that the
loaded parts overwrite; `seq` names the queue entry a load into a queue fills; a tuple request is named by its number (R245). An
order point is no access: it stands among them where a fence or a stream barrier of some streams was executed. -/
inductive AccessOp where
  | order (k : OrderKind) (m : BitVec 4)
  | request (id : Nat)
  | store (parts : List StorePart)
  | load (dest : Reg) (seq : Nat) (base : Nat) (ext : Ext) (parts : List LoadPart)
  | rmw (dest : Reg) (base : Nat) (ext : Ext) (parts : List RmwPart)
  deriving DecidableEq, Repr

/-- An access that has issued and is not yet performed; `sc` draws a ticket for each element (R162), `rel` marks a release write
(R202), and the load of a `view` reads each 64-byte sector at one instant (R164). -/
structure Access where
  stream : Fin 4
  sc : Bool
  rel : Bool
  op : AccessOp
  view : Bool
  deriving DecidableEq, Repr
/-- An access of a stream, of an instruction other than a view load. -/
def Access.of (stream : Fin 4) (sc rel : Bool) (op : AccessOp) : Access := ⟨stream, sc, rel, op, false⟩

/-- The monitor of a hart (R223): the armed line, and whether a wake has been recorded. -/
structure Monitor where
  line : Nat
  woken : Bool
  deriving DecidableEq, Repr

/-- A wait in progress: when it began (R221), the object it sleeps on, and whether a completion of that object has
happened since (R218). `none` as object is a wait on a register or a free place. -/
structure Wait where
  start : Nat
  obj : Option Nat
  seen : Bool
  asleep : Bool
  /-- `mwait` and `hctl.wfi`: a pending cause ends the wait (R102, R224). -/
  ends : Bool
  /-- The expiry of `TTMO` has come (R221). -/
  expired : Bool
  deriving DecidableEq, Repr

/-- The life of a hart. `held` is the firmware hart before the measured start has run (R398); `stopped` has reached step 6 of its save and waits for the other harts of its cluster (R356); `exiting` drains after `exit` (R95); `saved` has its image in a save area (R356). -/
inductive HartStatus where
  | held
  | running
  | stopped
  | exiting
  | exited
  | saved
  | halted
  deriving DecidableEq, Repr

/-- An operation a hart has sent to a home slice, whose reply it stalls for (R244, R248, R254, R297): a deposit, a tuple
request of a deterministic gang, a cancellation, an allocation, and a contribution with the physical ranges of its row. -/
inductive HomeKind where
  | deposit (tsid cap image : Nat)
  | request (take : Bool) (tsid : Nat)
  | cancel (req : Nat)
  | alloc (cbid : Nat) (row : Nat)
  | put (cbid : Nat) (tag : Word) (row : List (Nat × Nat))
  deriving DecidableEq, Repr
structure HomeOp where
  id : Nat
  f : Fields
  kind : HomeKind
  deriving DecidableEq, Repr

/-- An E-queue entry that could not start at its fork (R19, R21): the instruction and its address, the snapshot and the decode copy
of `ACFG` of its fork (R142), the scalar sources and the queue entries that travel with it (R26, R108), the registers it
has still to read and to write, and whether it is a long-latency producer (R23). -/
structure EEntry where
  instr : Instr
  pc : BitVec 55
  shape : Shape
  acfg : Word
  carried : List (Reg × RegVal)
  heads : List (Fin 4 × QEntry)
  reads : List Reg
  writes : List Reg
  long : Bool
  /-- Scalar sources whose parity check failed as the fork read them (R345). -/
  bad : List Reg
  deriving DecidableEq, Repr

/-- What an instruction that has left a load or an atomic in flight needs to trap after all (R154, R379): the destination and the queue
entry that the access fills, and the hart's pc, the one before it, the system registers and the heads of queues as it began. -/
structure Undo where
  dest : Reg
  seq : Nat
  pc : BitVec 55
  prevPc : BitVec 55
  sr : SysRegs
  heads : List (Fin 4 × QEntry)
  deriving DecidableEq, Repr

/-- One hart: its registers (R9), its system registers (R29), and the state of what it has in progress. -/
structure Hart where
  place : Place
  ctx : Nat
  gang : Nat
  hartid : Nat
  /-- The virtual die of `VDID`, found when the hart is bound (R333, R334). -/
  vdid : Nat
  member : Bool
  status : HartStatus
  x : Vector Word 64
  p : Vector Bool 16
  v : Vector Tile 32
  k : Vector Mask 16
  s : Vector Scale 8
  ma : Vector AccImage 2
  q : Vector (List QEntry) 4
  empty : Empties
  pc : BitVec 55
  /-- The address of the instruction that last completed, which `EPC` names after a misaligned fetch (R57). -/
  prevPc : BitVec 55
  sr : SysRegs
  st : SStat
  fw : FwRegs
  /-- The decode's own copy of `ACFG` (R142). -/
  acfgDec : Word
  /-- The next element-group sequence number (R28). -/
  seq : Nat
  /-- Results that have not arrived yet, oldest first (R23). -/
  results : List (Reg × RegVal)
  /-- Accesses issued and not performed, oldest first (R195, R199). -/
  pend : List Access
  /-- The schedule of this hart's long-latency results and accesses: the next one is late when the head is true. -/
  late : List Bool
  /-- E-queue entries not yet bound to a lane group, and the last of them that could not start at their fork, oldest first (R19,
  R325). -/
  equeue : Nat
  waiting : List EEntry
  /-- The energy class of a matrix instruction that the governor has stalled at the head of the E-queue (R326-R328). -/
  stalled : Option (Fin 4)
  /-- Pending asynchronous causes with their `EVAL` (R349), and a pending PREEMPT: whether it names the context. -/
  causes : List (Nat × Word)
  preempt : Option Bool
  monitor : Option Monitor
  wait : Option Wait
  /-- The gang phase at which an arrival of this hart is pending (R219). -/
  arrival : Option Nat
  /-- The step kind (R225): 0 none, 1 compute, 2 exchange. -/
  stepKind : Nat
  /-- The operation at a home slice the hart stalls for. -/
  homeOp : Option HomeOp
  /-- Mesh bindings held: descriptor address and bound generation (R270). -/
  binds : List (Nat × Nat)
  /-- Tile index and completion flag (R322). -/
  tileIndex : Nat
  taskDone : Bool
  /-- The record of the task the hart was bound to (R324). -/
  taskRec : Option Nat
  /-- Crossings of a microsecond of `TIME` that `TLEFT` has still to fall by (R355). -/
  ticks : Nat
  /-- The cause of a double trap whose save has not begun (R352). -/
  dcause : Option Nat
  /-- The last instruction, while its load or atomic is in flight and the hart has done nothing since (R154, R379). -/
  undo : Option Undo
  /-- Code words fetched ahead: the physical address of an aligned 4-byte word, and the value it was fetched with (R98). -/
  ahead : List (Nat × Nat)
  /-- Registers whose parity check fails when they are read (R345). -/
  struck : List Reg
  /-- The element at which the schedule stops the next interruptible instruction (R161), and whether the hart stands
  inside one it has stopped. -/
  cut : Option Nat
  mid : Bool
  /-- The instruction the hart last decoded, and whether its E-side stands inside the head of its queue; both are the model's
  own, and the second holds inside a step only. -/
  decoded : Option Instr
  onE : Bool
  deriving DecidableEq, Repr

/-- A context (R330, R376): its context-wide registers, its trap vector (R32), the function it belongs to, the next
`GANGID`, and a PREEMPT of the whole context waiting for `SAVEPTR` (R355). -/
structure Ctx where
  ctxid : Nat
  asid : Word
  ptroot : Word
  vdtbase : Word
  saveptr : Word
  dampcfg : Word
  stvec : Word
  func : Nat
  nextGid : Nat
  preempt : Bool
  /-- The whole context stands in its save area; and a save that found no room is being undone (R364). -/
  away : Bool
  undoing : Bool
  /-- The virtual die that each physical die of the package stood for when the context left it (R363). -/
  left : List (Nat × Nat)
  /-- A HART_CHECK, a harvest or a lost route has struck the context, which restarts from its checkpoint (R397). -/
  broken : Bool
  deriving DecidableEq, Repr

/-- A task of a gang: an enqueued tile-task record that has not ended (R317, R323), with the words it was enqueued with, its
enqueue order, and, once it is READY, the time and the step that made it so. -/
structure Task where
  ctx : Nat
  gang : Nat
  chain : Nat
  addr : Nat
  /-- Its epoch in a deterministic gang, and 0 in another (R290, R291). -/
  epoch : Nat
  order : Nat
  words : List Nat
  ready : Option (Nat × Nat)
  running : Bool
  deriving DecidableEq, Repr

/-- A cause that the context holds for a hart that is not bound (R350). -/
structure Held where
  ctx : Nat
  gang : Nat
  hartid : Nat
  cause : Nat
  eval : Word
  deriving DecidableEq, Repr

/-- A gang (R314): launch values, barrier tree (R219), energy budget (R326), and what its end must report (R315). -/
structure Gang where
  ctx : Nat
  gid : Nat
  record : Nat
  queue : Nat
  entry : Word
  nhart : Nat
  arg : Word
  vtype : Word
  vl : Word
  vr : Word
  wshare : Word
  vdfirst : Nat
  vdcount : Nat
  tqmask : Nat
  det : Bool
  phased : Bool
  ctr : Nat
  ebcap : Nat
  budget : Nat
  eclsw : Word
  erefill : Word
  bound : Nat
  exited : Nat
  taskBinds : Nat
  /-- The current phase, its arrivals and their total so far, and the totals of completed phases, last first. -/
  phase : Nat
  arrived : Nat
  total : Nat
  totals : List Nat
  /-- Crossings of a microsecond whose refill is still to come (R326). -/
  ticks : Nat
  taskFailed : Bool
  engineFailed : Bool
  ended : Bool
  deriving DecidableEq, Repr

/-- Buffer kinds and states (R186, R189). -/
inductive BufKind where
  | plain
  | staged
  | barrier
  deriving DecidableEq, Repr
inductive BufState where
  | empty
  | filling
  | full
  | draining
  deriving DecidableEq, Repr

/-- A declared buffer of a context in a cluster (R186). `base` is a scratchpad offset. -/
structure Buf where
  ctx : Nat
  die : Nat
  cluster : Nat
  n : Nat
  base : Nat
  size : Nat
  kind : BufKind
  discard : Bool
  state : BufState
  infl : Nat
  outfl : Nat
  xcnt : Nat
  deriving DecidableEq, Repr

/-- A range-scoreboard entry of a core (R194): a physical range of a record. -/
structure ScoreEntry where
  core : CorePlace
  lo : Nat
  hi : Nat
  isDest : Bool
  chan : ChannelId
  record : Nat
  deriving DecidableEq, Repr

/-- In whose name an engine operation runs: the hart that forked it, its gang and context, its place and its privilege
(R207, R231), and whether its gang is deterministic. -/
structure Agent where
  hart : Nat
  ctx : Nat
  gang : Nat
  place : Place
  pl : Priv
  det : Bool
  deriving DecidableEq, Repr

/-- A pending arm (R236): the counter's virtual and physical address, threshold, tail and arming order. -/
structure Arm where
  counter : Nat
  vaddr : Nat
  threshold : Nat
  tail : Nat
  order : Nat
  agent : Agent
  deriving DecidableEq, Repr

/-- A handed range of records: the last record, who handed it, and whether its scoreboard entries are still to be
claimed record by record (R229, R236). -/
structure Handed where
  addr : Nat
  agent : Agent
  deriving DecidableEq, Repr

/-- A record in flight (R230, R235): its address and words, its sequence number, and the units it has moved. -/
structure Flight where
  addr : Nat
  words : List Nat
  seq : Nat
  cursor : Nat
  agent : Agent
  /-- The values of the units from the cursor on that have been read and not written (R380); none where an error has struck the copy. -/
  held : List (Option Nat)
  /-- The span of its source under the index array as it stood when the record started, whose buffer counts it (R190). -/
  src : Nat × Nat
  deriving DecidableEq, Repr

/-- A copy channel of a context in a cluster (R227). -/
structure Channel where
  id : ChannelId
  head : Nat
  tail : Nat
  last : Nat
  seq : Nat
  seqw : Nat
  err : Bool
  ecode : Nat
  eseq : Nat
  handed : List Handed
  flights : List Flight
  arms : List Arm
  quiesced : Bool
  deriving DecidableEq, Repr

/-- A race summary of one line, gang and epoch (R292): writers, readers and adders as hart indexes. -/
structure Race where
  line : Nat
  gang : Nat
  ctx : Nat
  epoch : Nat
  writers : List Nat
  readers : List Nat
  adders : List Nat
  deriving DecidableEq, Repr

/-- An engine operation that marks lines (R295). -/
inductive EngOp where
  | copy (ch : ChannelId) (record : Nat)
  | base (n : Nat)
  | slot (b : BufferId) (slot : Nat)
  | coll (n rank : Nat)
  | mesh (n : Nat)
  | prefetch (n : Nat)
  deriving DecidableEq, Repr

/-- A mark of an engine operation on a physical range (R295). -/
structure EngMark where
  ctx : Nat
  gang : Nat
  lo : Nat
  hi : Nat
  write : Bool
  op : EngOp
  deriving DecidableEq, Repr

/-- Where a translation is held (R342): the bank of a lane of a core, by lane group and lane, the L1 TLB of a core, the L2 TLB of a
die. -/
inductive TlbLevel where
  | bank (c : CorePlace) (group lane : Nat)
  | l1 (c : CorePlace)
  | l2 (die : Nat)
  deriving DecidableEq, Repr
/-- A held translation (R342): the leaf that maps `vbase`, or a pointer on the way to it, what it covers, its PTE, and
where it is held. `run` marks the page of a contiguous run as another entry of the run maps it (R340), and `bars` names the cores that
no longer use an entry of their die, because a `tlbinv` of CORE scope has removed it for them (R101). -/
structure TlbEntry where
  level : TlbLevel
  run : Bool
  asid : Nat
  vbase : Nat
  size : Nat
  pte : Word
  bars : List CorePlace
  deriving DecidableEq, Repr

/-- What the schedule does next when it is not the current hart's turn: a hart steps, a device event happens, time
passes (in cycles), a held translation is dropped, a hart's die comes to hold a pointer of level 1, or of
level 2 where `deep` holds (R342), or a page as entry i of its contiguous run maps it (R340), a bank of a lane group of a hart's core takes
a translation that the core or its die holds (R343), a hart fetches a code word ahead (R98), an error strikes a memory unit, a register, or
the copy of what a copy record or a collective has read (R345, R380, R392), the package sequence of long-latency delays of a hart is set (R23), the next interruptible instruction of
a hart is stopped at an element (R161), a number of virtual functions is enabled (R371), a master accesses bytes of its BAR0 (R372). -/
inductive Act where
  | hart (h : Nat)
  | event (i : Instr)
  | pass (cycles : Nat)
  | evict (n : Nat)
  | point (h va : Nat) (deep : Bool)
  | run (h va i : Nat)
  | bank (h va group lane : Nat)
  | ahead (h va : Nat)
  | corrupt (pa : Nat) (sram : Bool)
  | strike (h : Nat) (r : Reg)
  | strikeUnit (ch : ChannelId) (k j : Nat)
  | strikeSend (id rank : Nat)
  | delay (h : Nat) (late : List Bool)
  | cut (h g : Nat)
  | readUnits (ch : ChannelId) (k n : Nat)
  | collRead (id rank unit : Nat)
  | collWrite (id rank unit : Nat)
  | functions (n : Nat)
  | bar0 (m off size : Nat) (write : Option Nat)
  deriving DecidableEq, Repr

/-- Matrix instructions of a context a core has issued in an aligned window of 256 cycles (R327). -/
structure IssueCount where
  core : CorePlace
  ctx : Nat
  window : Nat
  n : Nat
  deriving DecidableEq, Repr

/-- An entry of an event log (R403): 0-15 compute dies, 16-19 I/O chiplets, 20-35 base dies, 36-83 Tabex ports, 84 the
controller (DESIGN CHOICE, log 12: the manual numbers no sources). -/
structure LogEntry where
  source : Nat
  seq : Nat
  time : Nat
  code : Nat
  detail : Word
  deriving DecidableEq, Repr

/-- A context block as the hardware last read it (R333): the physical address it lies at, `NVD`, its existing virtual dies as
(number, package, die), `TSTBASE` and `CBTBASE`. -/
structure CtxBlock where
  base : Nat
  nvd : Nat
  dies : List (Nat × Nat × Nat)
  tst : Nat
  cbt : Nat
  deriving DecidableEq, Repr

/-- One die's own registers (R183, R365, R394), with the progress of a resume: the area, whether its context part stands
restored, and the cores placed for saved cores, named as in an image's word 0x0018. -/
structure Die where
  srcarve : Nat := 0
  rascnt : Word := 0
  resuming : Option Nat := none
  restored : Bool := false
  cores : List (Nat × CorePlace) := []
  deriving DecidableEq, Repr

/-- Where a tuple request stands (R245): on its way to its home, parked with a park number, answered with a status code
and the delivered tuple, or withdrawn with the time it may still wait, 0 for no limit (R250). -/
inductive ReqPhase where
  | flying
  | parked (order : Nat)
  | answered (status image : Nat)
  | withdrawn (left : Nat)
  deriving DecidableEq, Repr
/-- An outstanding tuple request (R245, R361). -/
structure TupleReq where
  id : Nat
  hart : Nat
  f : Fields
  take : Bool
  nb : Bool
  ctx : Nat
  tsid : Nat
  image : Nat
  mask : Nat
  deadline : Option Nat
  phase : ReqPhase
  deriving DecidableEq, Repr
/-- A stored tuple with its deposit number (R240), and the die whose slices keep it, by package (R335). -/
structure STuple where
  ctx : Nat
  tsid : Nat
  image : Nat
  order : Nat
  die : Nat × Nat
  deriving DecidableEq, Repr
/-- What a home keeps of a space and signature for an epoch of a deterministic gang (R297). -/
structure TDet where
  ctx : Nat
  gang : Nat
  tsid : Nat
  sig : Nat
  epoch : Nat
  dep : Option Nat
  taker : Option Nat
  copiers : List Nat
  deriving DecidableEq, Repr

/-- The life of a combine slot (R257-R262): `filling` is OPEN, `closing` has left OPEN and is not yet combined, `ready` is
DONE with its output row written or failed. -/
inductive SlotState where
  | free
  | filling
  | closing
  | ready
  deriving DecidableEq, Repr
/-- A combine slot. Entries are numbered 0 to `K` - 1; a staged row is held as a number. -/
structure CSlot where
  n : Nat
  state : SlotState
  token : Nat
  experts : List Nat
  weights : List Nat
  rows : List (Nat × Nat)
  missing : Nat
  alloc : Nat
  deadline : Option Nat
  isPartial : Bool
  err : Bool
  /-- An uncorrectable error was met in the input of a contribution (R266). -/
  spoilt : Bool
  flags : Flags
  agent : Agent
  deriving DecidableEq, Repr
/-- A combine buffer (R252): the virtual die it is homed on with the die that keeps it (R335), the last operation performed on it as cycle,
`HARTID` and `GANGID` (R259), its slots that have been allocated, and its counts of Table 6. -/
structure CBuf where
  ctx : Nat
  cbid : Nat
  home : Option (Nat × Nat × Nat)
  slots : List CSlot
  nextAlloc : Nat
  counts : Vector Word 7
  deriving DecidableEq, Repr

/-- What performs operations one at a time, those of one cycle in ascending `HARTID` and then `GANGID`: a home slice for its tuple spaces
(R249), a combine buffer (R259), the home of a mesh descriptor (R270). -/
inductive HomeKey where
  | slice (pkg die slice : Nat)
  | buffer (ctx cbid : Nat)
  | mesh (ctx va : Nat)
  deriving DecidableEq, Repr
/-- The last operation performed there: its cycle, and the `HARTID` and the `GANGID` of its issuer, or none after a generation publish, which
comes last in its cycle (R270). -/
structure Turn where
  key : HomeKey
  clock : Nat
  last : Option (Nat × Nat)
  deriving DecidableEq, Repr

/-- A prefetch that credits a barrier (R174): the sectors still to be counted, from an address on. -/
structure Prefetch where
  id : Nat
  agent : Agent
  va : Nat
  left : Nat
  txb : Nat
  deriving DecidableEq, Repr

/-- A base-die command (R175): the engine, the address and the copy of its block. -/
inductive BaseKind where
  | gather
  | reduce
  | convert
  deriving DecidableEq, Repr
structure BaseOp where
  id : Nat
  kind : BaseKind
  agent : Agent
  addr : Nat
  words : List Nat
  /-- A name for the instruction that gave the command, which no schedule changes (R289). -/
  own : Nat
  deriving DecidableEq, Repr

/-- A launch queue of a function (R373); `stale` holds when its context was reassigned since it was configured (R376). -/
structure LQueue where
  base : Nat := 0
  en : Bool := false
  log2n : Nat := 0
  ctxid : Nat := 0
  head : Nat := 0
  tail : Nat := 0
  bad : Bool := false
  stale : Bool := false
  deriving DecidableEq, Repr

/-- The registers of one master: a function's BAR0 (R372, R400, R402, R403); the counts of `HSTAT` wrap at 16 bits. Its
event-log cursors give, for a source, the next sequence number and the next word of that entry. -/
structure MasterRegs where
  hdtgt : Word := 0
  queues : Vector LQueue 8 := Vector.replicate 8 {}
  nown : BitVec 16 := 0
  ur : BitVec 16 := 0
  lqbad : BitVec 16 := 0
  drop : BitVec 16 := 0
  apBase : Nat := 0
  apLimit : Nat := 0
  anonce : Vector Word 4 := Vector.replicate 4 0
  adst : Word := 0
  abusy : Bool := false
  aerr : Bool := false
  elsel : Nat := 0
  cursors : List (Nat × Nat × Nat) := []
  deriving DecidableEq, Repr

/-- An attestation request, in the order of arrival (R400), with the snapshot of its start (R401): `ADST`, and the report's
words from word 2 on (master and `OEPOCH`, zero, the measurements, the nonce). -/
structure AttReq where
  master : Nat
  adst : Nat
  words : List Nat
  deriving DecidableEq, Repr

/-- What the outside world and the controller hold: the masters' registers, ownership (R377), measurements (R398),
attestation (R400), signals sent on MSI-X vectors as (function, vector), and the last value returned to a master. -/
structure HostState where
  masters : Vector MasterRegs 33 := Vector.replicate 33 {}
  enabled : List Nat := [0]
  owner : Nat := 32
  oepoch : BitVec 32 := 0
  claims : List Nat := []
  beatAt : Nat := 0
  ccomm : List (Nat × Word) := []
  mreg : Vector (BitVec 256) 8 := Vector.replicate 8 0
  halted : Bool := false
  requests : List AttReq := []
  reports : BitVec 32 := 0
  msix : List (Nat × Nat) := []
  reply : Nat := 0
  deriving DecidableEq, Repr

/-- Bytes whose contents the manual leaves to the hardware (private arrays and images, R252, R268, R358): physical
addresses `lo` to `hi` - 1 hold the free bytes of a stamp, from offset `off` of what was written on, until they are written. -/
structure Veil where
  lo : Nat
  hi : Nat
  off : Nat
  stamp : List Nat
  deriving DecidableEq, Repr

/-- A cell of a mesh generation (R273, R277): its nodes in ascending order, its level, its key, the family it belongs to
and its child index there. -/
structure MCell where
  nodes : List Nat
  level : Nat
  key : Nat
  fam : Option Nat
  child : Nat
  deriving DecidableEq, Repr
/-- The parent of a family: its nodes in parent-local order, and what it was as a cell. -/
structure MFam where
  nodes : List Nat
  level : Nat
  key : Nat
  fam : Option Nat
  child : Nat
  deriving DecidableEq, Repr
/-- What lies across a local face (R273): a cell, the finer cells, a coarser cell, nothing. -/
inductive MSide where
  | conf (c : Nat)
  | coarse (fines : List Nat)
  | fine (c : Nat)
  | boundary
  deriving DecidableEq, Repr
/-- A face (R274, R279). -/
structure MFace where
  c0 : Nat
  lf : Nat
  c1 : Option Nat
  hanging : Bool
  colour : Nat
  deriving DecidableEq, Repr
/-- A generation of a mesh (R268, R269): node coordinates as binary64 bits, cells, families, midpoints (a, b, node), sides of
each cell, faces, parts, and the private arrays as they were written. -/
structure MGen where
  dim : Nat
  nodes : List (List Nat)
  cells : List MCell
  fams : List MFam
  mids : List (Nat × Nat × Nat)
  sides : List (List MSide)
  faces : List MFace
  first : List Nat
  nown : List Nat
  ghosts : List (List Nat)
  secret : List Veil
  deriving DecidableEq, Repr
/-- A mesh, named by its descriptor's virtual address (R267): where the descriptor lies, the generations its buffers hold,
the marks of the current generation, and whether a job has taken their snapshot (R275). -/
structure Mesh where
  ctx : Nat
  va : Nat
  pa : Nat
  buf0 : Option MGen
  buf1 : Option MGen
  marks : List (Nat × Nat)
  snap : Bool
  deriving DecidableEq, Repr
inductive JobKind where
  | rebuild
  | init (cells : Nat)
  | balance (weights : Nat)
  deriving DecidableEq, Repr
/-- Where a new cell comes from (R277, R282); its sources are old cells, or places (part, local index) of old arrays. -/
inductive Origin (α : Type) where
  | same (o : α)
  | child (o : α)
  | coarse (kids : List α)
  deriving DecidableEq, Repr
/-- A running job (R276): the instruction whose D it answers, the marks it took, and, once it has run, its code (0 for
success) and the generation it has written. -/
structure MeshJob where
  id : Nat
  ctx : Nat
  va : Nat
  kind : JobKind
  f : Fields
  agent : Agent
  gen : Nat
  marks : List (Nat × Nat)
  code : Option Nat
  next : Option MGen
  origins : List (Origin Nat)
  deriving DecidableEq, Repr
/-- A field remap in progress (R282): what each new owned place takes its value from. -/
structure Remap where
  id : Nat
  ctx : Nat
  va : Nat
  pa : Nat
  agent : Agent
  gen : Nat
  field : Nat
  dim : Nat
  moves : List ((Nat × Nat) × Origin (Nat × Nat))
  /-- The private arrays of the generation it reads (R268). -/
  secret : List Veil
  deriving DecidableEq, Repr
/-- A ghost refresh in progress (R284): the fields and parts still to be refreshed, and its barrier. -/
structure Refresh where
  id : Nat
  ctx : Nat
  va : Nat
  pa : Nat
  agent : Agent
  gen : Nat
  todo : List (Nat × Nat)
  bar : Nat
  deriving DecidableEq, Repr

/-- A rank's call of a collective (R384, R385): its agent, its block's address and copied words, the 8-byte units of its send buffer read
so far, by number, the data once all of it has been read, whether an error has struck that copy (R392), the units of its receive buffer
written so far, whether all of it has been written, and whether the rank has ended. -/
structure CollCall where
  rank : Nat
  agent : Agent
  block : Nat
  words : List Nat
  early : List (Nat × Nat)
  data : Option Nat
  spoilt : Bool
  put : List Nat
  got : Bool
  ended : Bool
  deriving DecidableEq, Repr
/-- A collective (R385): the index-th of a communicator of a context, its ranks' virtual dies as the first call read them,
its calls, the code it fails with, and the flags of the whole collective once they are known. A call that joins nothing stands alone, with code 0x02. -/
structure Coll where
  id : Nat
  ctx : Nat
  comm : Nat
  index : Nat
  vds : List Nat
  calls : List CollCall
  code : Option Nat
  flags : Option Nat
  deriving DecidableEq, Repr
/-- The calls a rank of a communicator has had accepted (R385). -/
structure CollCount where
  ctx : Nat
  comm : Nat
  rank : Nat
  n : Nat
  deriving DecidableEq, Repr
/-- A page of a context, or one of its tables (R338, R341). -/
structure PageRef where
  pa : Nat
  size : Nat
  discard : Bool
  table : Bool
  deriving DecidableEq, Repr
/-- What an engine operation that ends while its context stands in its save area does in the local windows, which come back with the
context: credits of a barrier, an error there, a word written, a counter raised (R357). -/
inductive OwedAct where
  | credit (va n : Nat)
  | fail (va code : Nat)
  | put (va v : Nat)
  | bump (va : Nat)
  deriving DecidableEq, Repr
structure Owed where
  agent : Agent
  act : OwedAct
  deriving DecidableEq, Repr
/-- A standing checkpoint of a context on a peer package (R396): its save area, the place in the peer's HBM from which on the bytes of the
area and of the context's pages but those with `DISCARD` lie, those pages, and what the scheduler and the homes held. -/
structure Checkpoint where
  peer : Nat
  base : Nat
  ctx : Ctx
  area : Nat
  pages : List PageRef
  harts : List (Nat × Hart)
  gangs : List Gang
  tasks : List Task
  held : List Held
  chans : List Channel
  races : List Race
  tuples : List STuple
  tdet : List TDet
  cbufs : List CBuf
  meshes : List Mesh
  marks : List EngMark
  collCounts : List CollCount
  owed : List Owed
  deriving DecidableEq, Repr
/-- Errors reported by a unit that passed its test, by time (R395). -/
structure Transient where
  unit : ErrUnit
  at_ : Nat
  deriving DecidableEq, Repr

/-- The state of the package and of what it can see of its domain. -/
structure State where
  pkg : Nat
  /-- Packages of the domain, and harvested dies as (package, die) (R332, R337). -/
  packages : List Nat
  harvested : List (Nat × Nat)
  /-- Cycles since power-on reset (R2). -/
  clock : Nat
  /-- Memory: canonical, keyed by domain physical address (R337). -/
  mem : List Host.Cell
  /-- Units that hold an uncorrectable error, each its first byte and its size (R392). -/
  poison : List (Nat × Nat)
  veils : List Veil
  dies : Vector Die 16
  harts : List Hart
  cur : Nat
  agenda : List Act
  ctxs : List Ctx
  /-- Context blocks the hardware has read (R333). -/
  blocks : List CtxBlock
  gangs : List Gang
  tasks : List Task
  taskOrder : Nat
  held : List Held
  /-- The pass values of hart slots; a slot that is not named has 0 (R325). -/
  passes : List (Place × Nat)
  bufs : List Buf
  score : List ScoreEntry
  chans : List Channel
  armOrder : Nat
  races : List Race
  marks : List EngMark
  tlb : List TlbEntry
  issued : List IssueCount
  prefetches : List Prefetch
  baseOps : List BaseOp
  /-- The next identity of an engine operation or of a request. -/
  nextOp : Nat
  /-- Tuple spaces: requests in issue order, stored tuples, and the next park and deposit numbers (R240). -/
  reqs : List TupleReq
  tuples : List STuple
  parkNo : Nat
  depNo : Nat
  tdet : List TDet
  cbufs : List CBuf
  turns : List Turn
  meshes : List Mesh
  meshJobs : List MeshJob
  remaps : List Remap
  refreshes : List Refresh
  /-- What ended operations of saved contexts have still to do in their windows, oldest first (R357). -/
  owed : List Owed
  colls : List Coll
  collCounts : List CollCount
  /-- Routes firmware has declared lost, and the changes of routing so far (R378, R379). -/
  lostRoutes : List (Nat × Nat)
  routing : Nat
  /-- Units under self-test, units disabled or spared, and transient errors (R395). -/
  underTest : List ErrUnit
  fenced : List ErrUnit
  transients : List Transient
  /-- Parity alerts of HBM channels, as (die, channel, time) (R393). -/
  alerts : List (Nat × Nat × Nat)
  checkpoints : List Checkpoint
  host : HostState
  /-- The package sequence counter of `.sc` accesses (R162). -/
  ticket : Nat
  /-- Event logs, newest first, at most 256 entries of a source, and each source's next sequence number (R403). -/
  log : List LogEntry
  logNext : Vector Nat 85
  /-- The model's own counter of free values drawn. -/
  free : Nat
  deriving DecidableEq, Repr

/-- `TIME`, in nanoseconds: a cycle is one period of 1.5 GHz, and cycle 0 begins at power-on reset (R2, R30; the phase is a DESIGN CHOICE,
log 2). -/
def State.time (s : State) : Nat := 2 * s.clock / 3
/-- The first cycle that begins at or after an instant of `TIME` (R2). -/
def cycleOf (instant : Nat) : Nat := (3 * instant + 1) / 2

/-- A hart as it stands at a binding (R11, R32): every register zero and full. -/
def Hart.fresh (pl : Place) (ctx gang hartid : Nat) : Hart where
  place := pl
  ctx := ctx
  gang := gang
  hartid := hartid
  vdid := 0
  member := true
  status := .running
  x := Vector.replicate 64 0
  p := (Vector.replicate 16 false).set 0 true
  v := Vector.replicate 32 0
  k := Vector.replicate 16 0
  s := Vector.replicate 8 0
  ma := Vector.replicate 2 0
  q := Vector.replicate 4 []
  empty := {}
  pc := 0
  prevPc := 0
  sr := {}
  st := {}
  fw := {}
  acfgDec := 0
  seq := 0
  results := []
  pend := []
  late := []
  equeue := 0
  waiting := []
  stalled := none
  causes := []
  preempt := none
  monitor := none
  wait := none
  arrival := none
  stepKind := 0
  homeOp := none
  binds := []
  tileIndex := 0
  taskDone := true
  taskRec := none
  dcause := none
  undo := none
  ahead := []
  ticks := 0
  struck := []
  cut := none
  mid := false
  decoded := none
  onE := false

/-- A context with every register zero (R32, R376). -/
def Ctx.fresh (n func : Nat) : Ctx where
  ctxid := n
  asid := 0
  ptroot := 0
  vdtbase := 0
  saveptr := 0
  dampcfg := 0
  stvec := 0
  func := func
  nextGid := 1
  preempt := false
  away := false
  undoing := false
  left := []
  broken := false

/-- The machine right after reset: one firmware hart slot, held until the measured start has run its stages (R398,
R399), at F, in context 0, whose registers are all zero; memory with nothing listed; no engine operation. -/
def State.reset : State where
  pkg := 0
  packages := [0]
  harvested := []
  clock := 0
  mem := []
  poison := []
  veils := []
  dies := Vector.replicate 16 {}
  harts := [{ Hart.fresh ⟨0, 0, 0, 0⟩ 0 0 0 with status := .held, st := { pl := .f }, member := false }]
  cur := 0
  agenda := []
  ctxs := [Ctx.fresh 0 0]
  blocks := []
  gangs := []
  tasks := []
  taskOrder := 0
  held := []
  passes := []
  bufs := []
  score := []
  chans := []
  armOrder := 0
  races := []
  marks := []
  tlb := []
  issued := []
  prefetches := []
  baseOps := []
  nextOp := 0
  reqs := []
  tuples := []
  parkNo := 0
  depNo := 0
  tdet := []
  cbufs := []
  turns := []
  meshes := []
  meshJobs := []
  remaps := []
  refreshes := []
  owed := []
  colls := []
  collCounts := []
  lostRoutes := []
  routing := 0
  underTest := []
  fenced := []
  transients := []
  alerts := []
  checkpoints := []
  host := {}
  ticket := 0
  log := []
  logNext := Vector.replicate 85 0
  free := 0

/-- Why the machine stops with a fault. -/
inductive Fault where
  /-- Raised by `step` when `cur` names no hart of the state, which no state reached from reset does. Safe: nothing is
  claimed of such a state. -/
  | noHart
  deriving DecidableEq, Repr

/-- Why the model refuses an instruction. -/
inductive Refusal where
  /-- Raised by `exec` for an instruction that has no meaning yet. Safe: nothing is claimed. -/
  | notModelled (mnemonic : String)
  deriving DecidableEq, Repr

end Sys2Proof.Machine
end

