-- ==== Sys2Proof/Machine/Mem.lean ====
section
/-! DEFINITION. Memory: the canonical list of bytes, the local physical map (R337), page tables (R338-R340), and reads
and writes at their homes (R195), with the wakes a write records (R210) and the units that hold errors (R392). -/
namespace Sys2Proof.Machine

/-- A byte nothing has written reads as zero (DESIGN CHOICE, log 4). -/
def unlisted : Byte := 0

/-- Reads one byte of the list. -/
def Mem.get : List Host.Cell → Nat → Byte
  | [], _ => unlisted
  | (b, v) :: r, a => if a = b then v else if a < b then unlisted else Mem.get r a

/-- Writes one byte and keeps the form: addresses strictly rise, and no entry equals what an unlisted one reads as. -/
def Mem.set : List Host.Cell → Nat → Byte → List Host.Cell
  | [], a, v => if v = unlisted then [] else [(a, v)]
  | (b, w) :: r, a, v =>
    if a < b then (if v = unlisted then (b, w) :: r else (a, v) :: (b, w) :: r)
    else if a = b then (if v = unlisted then r else (a, v) :: r)
    else (b, w) :: Mem.set r a v

/-- The canonical form, as a test: every address lies above `lo` and above those before it, no byte is the unlisted
one. -/
def Mem.wfFrom (lo : Nat) : List Host.Cell → Bool
  | [] => true
  | (a, v) :: r => decide (lo ≤ a) && decide (v ≠ unlisted) && Mem.wfFrom (a + 1) r
/-- The canonical form of a memory. -/
def Mem.wf (m : List Host.Cell) : Bool := Mem.wfFrom 0 m

/-- `n` bytes from `a` as a little-endian number (R4). -/
def Mem.getN (m : List Host.Cell) (a : Nat) : Nat → Nat
  | 0 => 0
  | n + 1 => (Mem.get m a).toNat + 256 * Mem.getN m (a + 1) n
/-- Writes the low `n` bytes of a number, least significant first. -/
def Mem.setN (m : List Host.Cell) (a : Nat) (v : Nat) : Nat → List Host.Cell
  | 0 => m
  | n + 1 => Mem.setN (Mem.set m a (BitVec.ofNat 8 v)) (a + 1) (v / 256) n

/-! The local physical map (R337, Table 3). -/

/-- What stands at a local physical address of a package. -/
inductive Home where
  | hbm (die : Nat)
  | spad (die cluster off : Nat)
  | tcm (die cluster core off : Nat)
  | carve (die off : Nat)
  | dieMmio (die off : Nat)
  | iocMmio (ioc off : Nat)
  | hole
  deriving DecidableEq, Repr

/-- Bytes of a scratchpad, a TCM, a home slice. -/
abbrev spadBytes : Nat := 0xC00000
abbrev tcmBytes : Nat := 0x20000
abbrev sliceBytes : Nat := 0x200000

/-- The home of a local physical address; `carved` is the carve-out slice count of a die (R183). -/
def homeOf (carved : Nat → Nat) (l : Nat) : Home :=
  if l < 0x10000000000 then .hbm (l / 0x1000000000)
  else if l < 0x10100000000 then
    let d := (l - 0x10000000000) / 0x10000000
    let o := (l - 0x10000000000) % 0x10000000
    if o < 0x4000000 then
      (if o % 0x1000000 < spadBytes then .spad d (o / 0x1000000) (o % 0x1000000) else .hole)
    else if o < 0x4000000 + 192 * tcmBytes then
      let k := (o - 0x4000000) / tcmBytes
      .tcm d (k / 48) (k % 48) ((o - 0x4000000) % tcmBytes)
    else if 0x8000000 ≤ o ∧ o < 0x8000000 + carved d * sliceBytes then .carve d (o - 0x8000000)
    else if 0xC000000 ≤ o then .dieMmio d (o - 0xC000000)
    else .hole
  else if 0x20000000000 ≤ l ∧ l < 0x20400000000 then
    .iocMmio ((l - 0x20000000000) / 0x100000000) ((l - 0x20000000000) % 0x100000000)
  else .hole

/-- The package and local address of a domain physical address. -/
def pkgOf (pa : Nat) : Nat := pa / 2 ^ 45
def localOf (pa : Nat) : Nat := pa % 2 ^ 45
/-- The domain physical address of a place of this package. -/
def State.paOf (s : State) (l : Nat) : Nat := s.pkg * 2 ^ 45 + l
def dieWindow (die : Nat) : Nat := 0x10000000000 + die * 0x10000000
def State.spadPa (s : State) (die cluster off : Nat) : Nat := s.paOf (dieWindow die + cluster * 0x1000000 + off)
def State.tcmPa (s : State) (die cluster core off : Nat) : Nat :=
  s.paOf (dieWindow die + 0x4000000 + (48 * cluster + core) * tcmBytes + off)
/-- The carve-out count of a die (R183); another package's is not this package's state, and is left free. -/
def State.carved (s : State) (pkg d : Nat) : Nat :=
  if pkg = s.pkg then (if h : d < 16 then (s.dies[d]).srcarve else 0) else (Config.remoteCarve pkg d).toNat % 17

/-- The die of a home. -/
def Home.die : Home → Option Nat
  | .hbm d | .spad d _ _ | .tcm d _ _ _ | .carve d _ | .dieMmio d _ => some d
  | _ => none

/-- The package numbers of a domain (R378). -/
abbrev domainPackages : Nat := 6144
/-- What stands at a domain physical address: nothing for a package outside the domain and for a harvested die. -/
def State.home (s : State) (pa : Nat) : Home :=
  if domainPackages ≤ pkgOf pa ∨ !(s.packages.contains (pkgOf pa)) then .hole
  else
    let h := homeOf (s.carved (pkgOf pa)) (localOf pa)
    match h.die with
    | some d => if s.harvested.contains (pkgOf pa, d) then .hole else h
    | none => h

/-- Whether an address is HBM of a present die. -/
def State.isHbm (s : State) (pa : Nat) : Bool :=
  match s.home pa with
  | .hbm _ => true
  | _ => false

/-- Whether an address is ordinary memory that a page may hold: HBM, or the carve-out of a die (R183). -/
def State.isPageMemory (s : State) (pa : Nat) : Bool :=
  match s.home pa with
  | .hbm _ | .carve _ _ => true
  | _ => false

/-! Units that hold an uncorrectable error (R392): 64-byte sectors of HBM, 64-bit words of SRAM, which holds HBM lines too. -/

/-- The protection unit of an address, its base and size; `sram` names the word of die SRAM that holds a part of an HBM line. -/
def State.unit (s : State) (pa : Nat) (sram : Bool) : Nat × Nat :=
  match s.home pa with
  | .hbm _ => if sram then (pa / 8 * 8, 8) else (pa / 64 * 64, 64)
  | _ => (pa / 8 * 8, 8)
/-- Whether an address belongs to a package whose route is lost (R379). -/
def State.lost (s : State) (pa : Nat) : Bool :=
  pkgOf pa != s.pkg && s.lostRoutes.any fun r => r == (s.pkg, pkgOf pa) || r == (pkgOf pa, s.pkg)
/-- Whether a range of bytes touches a unit that holds an error. -/
def State.marred (s : State) (pa n : Nat) : Bool :=
  s.poison.any fun u => decide (u.1 < pa + n) && decide (pa < u.1 + u.2)
/-- Whether a range of bytes touches a unit that holds an error, or cannot be reached: its data are not returned. -/
def State.poisoned (s : State) (pa n : Nat) : Bool :=
  s.lost pa || s.poison.any fun u => decide (u.1 < pa + n) && decide (pa < u.1 + u.2)
/-- Whether a range covers only a part of some unit that holds an error. -/
def State.partPoisoned (s : State) (pa n : Nat) : Bool :=
  s.poison.any fun u =>
    decide (u.1 < pa + n) && decide (pa < u.1 + u.2) && !(decide (pa ≤ u.1) && decide (u.1 + u.2 ≤ pa + n))
/-- The bank in which a byte lies (R181, R395): in die SRAM, or in HBM itself. The manual gives the banks of scratchpads alone; the others,
and the channels of HBM, are left open (log 38). -/
def State.bankOf (s : State) (sram : Bool) (pa : Nat) : List Nat :=
  match s.home pa with
  | .spad d c off => [0, d, c, off / 8 % 768]
  | .tcm d c k _ => [1, d, c, k, (Config.sramBank (localOf pa)).toNat]
  | .carve d _ => [2, d, (Config.sramBank (localOf pa)).toNat]
  | .hbm d => if sram then [2, d, (Config.sramBank (localOf pa)).toNat] else [3, d, (Config.hbmBank (localOf pa)).toNat]
  | _ => []
/-- Whether a byte lies in a bank or a channel under self-test (R395). -/
def State.underUnit (s : State) (u : ErrUnit) (pa : Nat) : Bool :=
  match u with
  | .sramRow _ a => s.bankOf true a == s.bankOf true pa
  | .hbmRow _ a => s.bankOf false a == s.bankOf false pa
  | .hbmChannel d c => s.home pa == .hbm d && (Config.hbmChannel (localOf pa)).toNat == c
  | _ => false
/-- Whether some word of a range lies in a bank or a channel under self-test, so that accesses to it wait (R395). -/
def State.testing (s : State) (pa n : Nat) : Bool :=
  !s.underTest.isEmpty && pkgOf pa == s.pkg && s.underTest.any fun u =>
    s.underUnit u pa || (List.range ((n + 7) / 8)).any fun i => s.underUnit u (Nat.min ((pa / 8 + i + 1) * 8) (pa + n - 1))

/-! Reads and writes at the home. -/

/-- A byte, which a veil makes a free one. -/
def State.readByte (s : State) (pa : Nat) : Byte :=
  match s.veils.find? fun v => decide (v.lo ≤ pa) && decide (pa < v.hi) with
  | some v => Config.freeByte v.stamp (v.off + (pa - v.lo))
  | none => Mem.get s.mem pa
/-- `n` bytes read one by one. -/
def State.readVeiled (s : State) (pa : Nat) : Nat → Nat
  | 0 => 0
  | n + 1 => (s.readByte pa).toNat + 256 * s.readVeiled (pa + 1) n
def State.readN (s : State) (pa n : Nat) : Nat := if s.veils.isEmpty then Mem.getN s.mem pa n else s.readVeiled pa n
/-- A veil without the bytes from `lo` to `hi` - 1. -/
def Veil.without (lo hi : Nat) (v : Veil) : List Veil :=
  if hi ≤ v.lo ∨ v.hi ≤ lo then [v]
  else (if v.lo < lo then [{ v with hi := lo }] else []) ++ (if hi < v.hi then [{ v with lo := hi, off := v.off + (hi - v.lo) }] else [])
/-- Lifts the veils off a range of bytes. -/
def State.unveil (s : State) (pa n : Nat) : List Veil := s.veils.flatMap (Veil.without pa (pa + n))
/-- Changes one element of a list. -/
def updAt {α : Type} (l : List α) (n : Nat) (f : α → α) : List α :=
  match l, n with
  | [], _ => []
  | a :: r, 0 => f a :: r
  | a :: r, k + 1 => a :: updAt r k f

/-- Records a wake in every monitor armed on a line that the range touches (R210). -/
def Hart.wake (lo n : Nat) (h : Hart) : Hart :=
  match h.monitor with
  | some m =>
    if m.line < lo + n ∧ lo < m.line + 64 then { h with monitor := some { m with woken := true } } else h
  | none => h

/-- Writes `n` bytes at a home: the bytes, the wakes, and the errors that a write of a whole unit clears. -/
def State.putN (s : State) (pa v n : Nat) : State :=
  { s with
    mem := Mem.setN s.mem pa v n
    veils := s.unveil pa n
    harts := s.harts.map (Hart.wake pa n)
    poison := s.poison.filter fun u => !(decide (pa ≤ u.1) && decide (u.1 + u.2 ≤ pa + n)) }

/-- Stamps of what the hardware writes freely, by what names the writing: a number that the model draws, the staging of a row, a private
array of a generation, the entry of a remap or of a refresh, what a failed command leaves, what another package's data fix of a receive
buffer. But for the first two a stamp depends on no schedule (R289). -/
abbrev drawnStamp (n : Nat) : List Nat := [0, n]
abbrev stageStamp (n : Nat) : List Nat := [1, n]
abbrev meshStamp (ctx va gen array : Nat) : List Nat := [2, ctx, va, gen, array]
abbrev remapStamp (ctx va field gen : Nat) : List Nat := [3, ctx, va, field, gen]
abbrev ghostStamp (ctx va field gen part : Nat) : List Nat := [4, ctx, va, field, gen, part]
abbrev baseStamp (own : Nat) : List Nat := [5, own]
abbrev collStamp (ctx comm index rank : Nat) : List Nat := [6, ctx, comm, index, rank]
/-- The veils of physical ranges, each its first byte and its length, that hold what was written from an offset on. -/
def veilsOf (stamp : List Nat) (off : Nat) : List (Nat × Nat) → List Veil
  | [] => []
  | p :: r => ⟨p.1, p.1 + p.2, off, stamp⟩ :: veilsOf stamp (off + p.2) r
/-- Lays a veil: the hardware has written contents there that the manual leaves free. -/
def State.lay (s : State) (v : Veil) : State :=
  { s with
    veils := v :: s.unveil v.lo (v.hi - v.lo)
    harts := s.harts.map (Hart.wake v.lo (v.hi - v.lo))
    poison := s.poison.filter fun u => !(decide (v.lo ≤ u.1) && decide (u.1 + u.2 ≤ v.hi)) }

/-! Page tables (R338, R339). -/

/-- A table must lie wholly in the HBM of a present die. -/
def State.tableOk (s : State) (pa : Nat) : Bool := s.isHbm pa && s.isHbm (pa + 0xFFFF)

/-- The bits [h:l] of a PTE or record word. -/
def bitsAt (w lo n : Nat) : Nat := w / 2 ^ lo % 2 ^ n

/-- An image with `w` bits at a bit offset replaced. -/
def putBits (t off w v : Nat) : Nat := t / 2 ^ (off + w) * 2 ^ (off + w) + v % 2 ^ w * 2 ^ off + t % 2 ^ off

/-- One translation: the physical address, and the page class (R338, Table 4). -/
structure Xlat where
  pa : Nat
  cls : Nat
  deriving DecidableEq, Repr

/-- Walks the tables from a root for a virtual address; the leaf PTE and the bytes it covers, or none for a fault of
the walk (R339). The fuel is the number of levels left. -/
def State.walk (s : State) (table va : Nat) : Nat → Option (Nat × Nat)
  | 0 => none
  | lvl + 1 =>
    if !s.tableOk table then none
    else
      let shift := 16 + 13 * lvl
      let pte := s.readN (table + 8 * (va / 2 ^ shift % 8192)) 8
      let r := pte.testBit 1; let w := pte.testBit 2; let x := pte.testBit 3
      if !pte.testBit 0 then none
      else if bitsAt pte 58 6 ≠ 0 ∨ bitsAt pte 14 2 ≠ 0 ∨ pte.testBit 4 then none
      else if !r && !w && !x then
        (if bitsAt pte 4 10 ≠ 0 then none else s.walk (bitsAt pte 16 42 * 2 ^ 16) va lvl)
      else if lvl = 2 then none
      else if lvl = 1 ∧ (bitsAt pte 16 13 ≠ 0 ∨ pte.testBit 13) then none
      else if w && !r then none
      else if bitsAt pte 9 3 ≥ 5 then none
      else some (pte, 2 ^ shift)

/-- The checks of a leaf for an access of a kind at a level (R339). -/
def leafAllows (pte : Nat) (pl : Priv) (k : AccessKind) : Bool :=
  let r := pte.testBit 1; let w := pte.testBit 2; let x := pte.testBit 3
  let right := match k with
    | .fetch => x
    | .load => r
    | .store => w
    | .atomic => w && r
  let d := match k with
    | .store | .atomic => pte.testBit 8
    | _ => true
  (pte.testBit 5 || decide (pl ≠ .u)) && right && pte.testBit 7 && d

/-- Where a leaf maps an address. -/
def leafMap (pte size va : Nat) : Xlat :=
  ⟨bitsAt pte 16 42 * 2 ^ 16 / size * size + va % size, bitsAt pte 9 3⟩

/-- The core of a hart slot. -/
def coreOf (p : Place) : CorePlace := ⟨p.die, p.cluster, p.core⟩
/-- Whether a level serves a hart at a place. A lane is looked up in its bank, whichever lane group carries it. -/
def TlbLevel.serves (l : TlbLevel) (p : Place) (lane : Option Nat) : Bool :=
  match l with
  | .bank c _ n => c == coreOf p && lane == some n
  | .l1 c => c == coreOf p
  | .l2 d => d == p.die
/-- Whether a level is one of those that a core looks in, whatever the lane. -/
def TlbLevel.near (l : TlbLevel) (p : Place) : Bool :=
  match l with
  | .bank c _ _ | .l1 c => c == coreOf p
  | .l2 d => d == p.die
/-- Whether an access at a place may use an entry (R101, R342). -/
def TlbEntry.usable (e : TlbEntry) (p : Place) (lane : Option Nat) : Bool := e.level.serves p lane && !e.bars.contains (coreOf p)
/-- Whether a held entry covers an address of an address space (R342). -/
def TlbEntry.covers (e : TlbEntry) (asid va : Nat) : Bool :=
  (e.pte.toNat.testBit 6 || e.asid == asid) && decide (e.vbase ≤ va) && decide (va < e.vbase + e.size)
/-- Whether a held entry is a pointer (R339, R342). -/
def TlbEntry.isPointer (e : TlbEntry) : Bool := bitsAt e.pte.toNat 1 3 == 0
/-- The core and the die of a level. -/
def TlbLevel.core : TlbLevel → Option CorePlace
  | .bank c _ _ | .l1 c => some c
  | .l2 _ => none
def TlbLevel.die : TlbLevel → Nat
  | .bank c _ _ | .l1 c => c.die
  | .l2 d => d
/-- The order in which levels are looked up (R343). -/
def TlbLevel.rank : TlbLevel → Nat
  | .bank _ _ _ => 0
  | .l1 _ => 1
  | .l2 _ => 2
/-- The leaf that the lookup of an access finds: in the bank of its lane, then in L1, then in L2 (R343). -/
def State.heldLeaf (s : State) (p : Place) (lane : Option Nat) (asid va : Nat) : Option TlbEntry :=
  let l := s.tlb.filter fun e => !e.isPointer && e.usable p lane && e.covers asid va
  (l.find? (·.level.rank == 0)) <|> (l.find? (·.level.rank == 1)) <|> l.head?
/-- The entries a level holds (R342). -/
def TlbLevel.size : TlbLevel → Nat
  | .bank _ _ _ => 8
  | .l1 _ => 128
  | .l2 _ => 8192
/-- A level takes an entry in; a full one loses its oldest. -/
def holdEntry (e : TlbEntry) (l : List TlbEntry) : List TlbEntry :=
  e :: (l.filter (·.level == e.level)).take (e.level.size - 1) ++ l.filter (·.level != e.level)
/-- A walk that starts at a held pointer entry that serves, where the die holds one (R342), and else at the root. -/
def State.walkHeld (s : State) (p : Place) (asid ptroot va : Nat) : Option (Nat × Nat) :=
  match s.tlb.find? fun e => e.isPointer && e.usable p none && e.covers asid va with
  | some e => s.walk (bitsAt e.pte.toNat 16 42 * 2 ^ 16) va (if e.size = 2 ^ 42 then 2 else 1)
  | none => s.walk ptroot va 3
/-- The pointer that a walk meets at level 1, or under it at level 2 (R339), as a held entry of a die (R342). -/
def State.pointerAt (s : State) (die asid table va : Nat) (deep : Bool) : Option TlbEntry :=
  let at_ (table shift : Nat) : Option Nat :=
    let pte := s.readN (table + 8 * (va / 2 ^ shift % 8192)) 8
    if s.tableOk table && pte.testBit 0 && bitsAt pte 1 15 == 0 && bitsAt pte 58 6 == 0 then some pte else none
  let entry (pte shift : Nat) : TlbEntry := ⟨.l2 die, false, asid, va / 2 ^ shift * 2 ^ shift, 2 ^ shift, BitVec.ofNat 64 pte, []⟩
  match at_ table 42 with
  | none => none
  | some pte => if deep then (at_ (bitsAt pte 16 42 * 2 ^ 16) 29).map (entry · 29) else some (entry pte 42)

/-- The page of an address as entry `i` of its contiguous run translates it, as a held entry of a die (R340). -/
def State.runEntry (s : State) (die asid ptroot va i : Nat) : Option TlbEntry :=
  match s.walk ptroot (va / 2 ^ 21 * 2 ^ 21 + i % 32 * 2 ^ 16) 3 with
  | some (pte, size) =>
    if size = 2 ^ 16 ∧ pte.testBit 13 then
      some ⟨.l2 die, true, asid, va / size * size, size,
        BitVec.ofNat 64 (putBits pte 16 42 (bitsAt pte 16 42 + va / size % 32 + 2 ^ 42 - i % 32)), []⟩
    else none
  | none => none

/-- Translates for an access of a lane, or of none, of a hart at `p` by a context's tables: a held leaf that matches, or a walk (R339,
R342, R343). A held entry whose check fails is walked again, because no level holds a faulting check; an entry of a contiguous run
applies its own rights (R340). -/
def State.translateLane (s : State) (p : Place) (lane : Option Nat) (asid ptroot : Nat) (pl : Priv) (k : AccessKind) (va : Nat) :
    Option Xlat :=
  let walked : Option Xlat :=
    match s.walkHeld p asid ptroot va with
    | some (pte, size) => if leafAllows pte pl k then some (leafMap pte size va) else none
    | none => none
  match s.heldLeaf p lane asid va with
  | some e =>
    if leafAllows e.pte.toNat pl k then some (leafMap e.pte.toNat e.size va) else if e.run then none else walked
  | none => walked
/-- Whether an access must walk, and its walk meets a table entry in a bank under test (R395); the fuel is the number of levels left. -/
def State.pathWaits (s : State) (table va : Nat) : Nat → Bool
  | 0 => false
  | lvl + 1 =>
    let at_ := table + 8 * (va / 2 ^ (16 + 13 * lvl) % 8192)
    s.tableOk table && (s.testing at_ 8 || s.pathWaits (bitsAt (s.readN at_ 8) 16 42 * 2 ^ 16) va lvl)
def State.walkWaits (s : State) (p : Place) (lane : Option Nat) (asid ptroot va : Nat) : Bool :=
  !s.underTest.isEmpty && (s.heldLeaf p lane asid va).isNone && s.pathWaits ptroot va 3
/-- A fault is held at no level: the entries of a run that have refused an address are dropped, in the banks too (R340, R342). -/
def State.forgetRun (s : State) (p : Place) (va : Nat) : State :=
  { s with tlb := s.tlb.filter fun e => !(e.run && e.level.near p && decide (e.vbase ≤ va) && decide (va < e.vbase + e.size)) }
/-- Translates for an engine, whose accesses no lane carries. The entry of a run that refuses an engine is dropped and the address walked
(DESIGN CHOICE, log 16: R340 allows either translation). -/
def State.translateAt (s : State) (p : Place) (asid ptroot : Nat) (pl : Priv) (k : AccessKind) (va : Nat) : Option Xlat :=
  s.translateLane p none asid ptroot pl k va <|> (s.forgetRun p va).translateLane p none asid ptroot pl k va

/-! The context block (R333). -/

/-- Virtual-die entry v as (v, package, die), where it exists. An entry with a reserved bit set is not used: it reads as not valid
(DEDUCED from R5 and R333, log 45). -/
def State.readEntry (s : State) (base v : Nat) : Option (Nat × Nat × Nat) :=
  let w := s.readN (base + 64 + 8 * v) 8
  if w.testBit 63 && bitsAt w 17 46 == 0 then some (v, bitsAt w 4 13, bitsAt w 0 4) else none
/-- Whether every reserved bit of a block's header is zero. -/
def State.headerOk (s : State) (base : Nat) : Bool :=
  bitsAt (s.readN base 8) 17 47 == 0 && (List.range 5).all fun i => s.readN (base + 24 + 8 * i) 8 == 0
/-- Reads the block at a physical address. A header with a reserved bit set is not used: it names no virtual die and no table (DEDUCED
from R5 and R333, log 45). -/
def State.readBlock (s : State) (base : Nat) : CtxBlock :=
  let nvd := bitsAt (s.readN base 8) 0 17
  if !s.headerOk base then ⟨base, 0, [], 0, 0⟩
  else ⟨base, nvd, (List.range nvd).filterMap (s.readEntry base), s.readN (base + 8) 8, s.readN (base + 16) 8⟩
/-- The block as the hardware last read it, when it bound a hart or created a home. -/
def State.block (s : State) (base : Nat) : CtxBlock := (s.blocks.find? (·.base == base)).getD (s.readBlock base)
/-- `NVD`, and virtual-die entry v as (package, die). -/
def State.nvd (s : State) (vdtbase : Nat) : Nat := (s.block vdtbase).nvd
def State.vdEntry (s : State) (vdtbase v : Nat) : Option (Nat × Nat) :=
  ((s.block vdtbase).dies.find? (·.1 == v)).map (·.2)
/-- The existing virtual dies, ascending. -/
def State.vds (s : State) (vdtbase : Nat) : List Nat := (s.block vdtbase).dies.map (·.1)
/-- The virtual die of a physical die: the lowest number that names it (R333, R334). -/
def State.vdOf (s : State) (vdtbase pkg die : Nat) : Option Nat :=
  ((s.block vdtbase).dies.find? fun e => e.2 == (pkg, die)).map (·.1)

/-- Whether the page class fits what stands at the address (R337, Table 3). -/
def State.classFits (s : State) (x : Xlat) : Bool :=
  match s.home x.pa with
  | .hbm _ => decide (x.cls ≤ 3)
  | .hole => false
  | _ => decide (x.cls = 4)

end Sys2Proof.Machine
end

