-- ==== Sys2Proof/Machine/Records.lean ====
section
/-! DEFINITION. What every write may set off: the copy channels' records and arms (R227-R236), the range scoreboard (R194),
transaction barriers (R214, R215), engine failures (R349, R351), and the one write of memory that tests the arms. -/
namespace Sys2Proof.Machine

/-! Harts. -/

/-- The hart an index names, or an idle one. -/
def State.hartAt (s : State) (n : Nat) : Hart := s.harts.getD n (Hart.fresh ⟨0, 0, 0, 0⟩ 0 0 0)
/-- The hart whose turn it is. -/
def State.hart (s : State) : Hart := s.hartAt s.cur
/-- Changes one hart. -/
def State.modHartAt (s : State) (n : Nat) (f : Hart → Hart) : State := { s with harts := updAt s.harts n f }
/-- Changes the hart whose turn it is. -/
def State.modHart (s : State) (f : Hart → Hart) : State := s.modHartAt s.cur f
/-- Changes its system registers. -/
def State.modSr (s : State) (f : SysRegs → SysRegs) : State := s.modHart fun h => { h with sr := f h.sr }

/-- The context of a hart, and its gang. -/
def State.ctxOf (s : State) (n : Nat) : Option Ctx := s.ctxs.find? (·.ctxid == n)
def State.gangOf (s : State) (ctx gid : Nat) : Option Gang := s.gangs.find? fun g => g.ctx == ctx && g.gid == gid
def State.ctx (s : State) : Option Ctx := s.ctxOf s.hart.ctx
def State.gang (s : State) : Option Gang := s.gangOf s.hart.ctx s.hart.gang
def State.modCtx (s : State) (n : Nat) (f : Ctx → Ctx) : State :=
  { s with ctxs := s.ctxs.map fun c => if c.ctxid == n then f c else c }
def State.modGang (s : State) (ctx gid : Nat) (f : Gang → Gang) : State :=
  { s with gangs := s.gangs.map fun g => if g.ctx == ctx && g.gid == gid then f g else g }
/-- A die of the package. -/
def State.modDie (s : State) (d : Nat) (f : Die → Die) : State :=
  if h : d < 16 then { s with dies := s.dies.set d (f s.dies[d]) } else s
def State.die (s : State) (d : Nat) : Die := if h : d < 16 then s.dies[d] else {}
/-! Event logs (R403). -/

/-- Writes an event to the log of a source; the ring keeps the newest 256 entries, and function 0's vector 10 is signalled
(R402). -/
def State.logEvent (s : State) (source : Nat) (code : Nat) (detail : Word) : State :=
  if h : source < 85 then
    let e : LogEntry := ⟨source, s.logNext[source], s.time, code, detail⟩
    { s with
      log := e :: s.log.filter fun x => !(x.source == source && decide (x.seq + 256 ≤ e.seq))
      logNext := s.logNext.set source (s.logNext[source] + 1)
      host := { s.host with msix := s.host.msix ++ [(0, 10)] } }
  else s

/-- Kinds of events the manual gives no code for, as the model numbers them. -/
abbrev evEngine : Nat := 0
abbrev evError : Nat := 1
abbrev evLink : Nat := 2
abbrev evRoute : Nat := 3
abbrev evTest : Nat := 4
/-- Writes an event whose code and detail the manual leaves open. -/
def State.logOpen (s : State) (source kind : Nat) : State :=
  s.logEvent source (Config.eventCode kind).toNat (Config.eventDetail kind)

/-- Adds 1 to a count of a die's `RASCNT`, a field by its lowest bit and width (R394). -/
def State.addCount (s : State) (die lo width : Nat) : State :=
  s.modDie die fun d =>
    let w := d.rascnt.toNat
    { d with rascnt := BitVec.ofNat 64 (putBits w lo width (w / 2 ^ lo + 1)) }
/-- A detected error of a die (R394): a count, and an event of the source's log. -/
def State.countError (s : State) (die source lo width : Nat) : State := (s.addCount die lo width).logOpen source evError
def State.countCorr (s : State) (die source : Nat) : State := s.countError die source 0 32
def State.countUncorr (s : State) (die source : Nat) : State := s.countError die source 32 16
def State.countLasting (s : State) (die source : Nat) : State := s.countError die source 48 16

/-- Firmware begins the test of a reporting unit; a further error joins a test that runs, and is counted with it (R395). -/
def State.beginTest (s : State) (u : ErrUnit) : State := { s with underTest := s.underTest ++ [u] }

/-- The local-window region, the TCM window and the scratchpad window (R178). -/
abbrev localBase : Nat := 0x7FF00000000000
abbrev localEnd : Nat := 0x80000000000000
abbrev tcmWin : Nat := 0x7FF00000000000
abbrev spadWin : Nat := 0x7FF10000000000

/-- Where a local-window address of a core lies, or none outside the two windows. -/
def State.window (s : State) (c : CorePlace) (va : Nat) : Option Nat :=
  if tcmWin ≤ va ∧ va < tcmWin + tcmBytes then some (s.tcmPa c.die c.cluster c.core (va - tcmWin))
  else if spadWin ≤ va ∧ va < spadWin + spadBytes then some (s.spadPa c.die c.cluster (va - spadWin))
  else none

/-- The buffer of a context in a cluster that holds a scratchpad offset. -/
def State.bufAt (s : State) (ctx die cluster off : Nat) : Option Buf :=
  s.bufs.find? fun b => b.ctx == ctx && b.die == die && b.cluster == cluster && decide (b.base ≤ off)
    && decide (off < b.base + b.size)
/-- Whether an address lies in the scratchpad window. -/
def inSpadWin (va : Nat) : Bool := decide (spadWin ≤ va) && decide (va < spadWin + spadBytes)


/-- The hart as an agent (R207). -/
def State.agentOf (s : State) (n : Nat) : Agent :=
  let h := s.hartAt n
  ⟨n, h.ctx, h.gang, h.place, h.st.pl, h.sr.detctl.getLsbD 0⟩
def State.agent (s : State) : Agent := s.agentOf s.cur

/-! Engine addresses (R178, R207). -/

/-- Where an engine's access of one address of its agent goes, or the copy `ECODE` of its failure: 0x05 for a failed
translation or a page class other than normal or deterministic-tagged, 0x06 outside every buffer (R186, R234). A window
address names the agent's core and the given cluster. -/
def State.engAddr (s : State) (ag : Agent) (die cluster : Nat) (k : AccessKind) (va : Nat) : Except Nat Nat :=
  if va ≥ 2 ^ 55 then .error 5
  else if localBase ≤ va then
    match s.window ⟨ag.place.die, cluster, ag.place.core⟩ va with
    | none => .error 5
    | some pa =>
      if inSpadWin va then
        (match s.bufAt ag.ctx die cluster (va - spadWin) with
          | some _ => .ok (s.spadPa die cluster (va - spadWin))
          | none => .error 6)
      else .ok pa
  else match s.ctxOf ag.ctx with
    | none => .error 5
    | some c => match s.translateAt ag.place c.asid.toNat c.ptroot.toNat ag.pl k va with
      | none => .error 5
      | some x => if s.classFits x && decide (x.cls ≤ 1) && !(k == .store && ag.det && x.cls == 0) then .ok x.pa else .error 5

/-- A range cut where translation may change, at 64 KiB; the fuel is the number of pieces at most. -/
def pageCuts (va n : Nat) : Nat → List (Nat × Nat)
  | 0 => []
  | k + 1 =>
    if n = 0 then []
    else
      let m := Nat.min n (0x10000 - va % 0x10000)
      (va, m) :: pageCuts (va + m) (n - m) k
/-- Whether every byte of a scratchpad range lies in a declared buffer, whose bounds are multiples of 64 (R186). -/
def State.declared (s : State) (ctx die cluster off n : Nat) : Bool :=
  (List.range ((off % 64 + n + 63) / 64)).all fun i => (s.bufAt ctx die cluster (off / 64 * 64 + 64 * i)).isSome
/-- The physical ranges of a virtual range for an engine, or its failure. -/
def State.engRange (s : State) (ag : Agent) (die cluster : Nat) (k : AccessKind) (va n : Nat) : Except Nat (List (Nat × Nat)) :=
  (pageCuts va n (n / 0x10000 + 2)).foldr (fun p acc =>
    match s.engAddr ag die cluster k p.1, s.engAddr ag die cluster k (p.1 + p.2 - 1), acc with
    | .ok pa, .ok _, .ok l =>
      if inSpadWin p.1 && !s.declared ag.ctx die cluster (p.1 - spadWin) p.2 then .error 6 else .ok ((pa, p.2) :: l)
    | .error e, _, _ => .error e
    | _, .error e, _ => .error e
    | _, _, .error e => .error e) (.ok [])
/-- Reads `n` bytes for an engine: its failure, with 0x0B for uncorrectable data. -/
def State.engRead (s : State) (ag : Agent) (die cluster va n : Nat) : Except Nat Nat :=
  match s.engRange ag die cluster .load va n with
  | .error e => .error e
  | .ok l =>
    if l.any fun p => s.poisoned p.1 p.2 then .error 0x0B
    else .ok (l.foldr (fun p acc => s.readN p.1 p.2 + 2 ^ (8 * p.2) * acc) 0)

/-- Whether some virtual range of an engine lies in a bank under test, for which its accesses wait (R395). -/
def State.engHeld (s : State) (ag : Agent) (die cluster : Nat) (l : List (Nat × Nat)) : Bool :=
  !s.underTest.isEmpty && l.any fun x => match s.engRange ag die cluster .load x.1 x.2 with
    | .ok ps => ps.any fun p => s.testing p.1 p.2
    | .error _ => false
/-- The same for an agent's own die and cluster. -/
def State.agentHeld (s : State) (ag : Agent) (l : List (Nat × Nat)) : Bool := s.engHeld ag ag.place.die ag.place.cluster l

/-! Transfer records (R231, R232). -/

/-- The words of a record. -/
structure Rec where
  next : Nat
  len : Nat
  fsize : Nat
  fields : Nat
  op : Nat
  own : Bool
  resv : Bool
  src : Nat
  dst : Nat
  dstStride : Nat
  srcStride : Nat
  idx : Nat
  txb : Nat
  ctr : Nat
  inc : Bool
  deriving DecidableEq, Repr
/-- Decodes a record (R231, Table 8); `resv` holds when a reserved field is not zero. -/
def recOf (w : List Nat) : Rec :=
  let g (i : Nat) : Nat := w.getD i 0
  { next := g 0, len := bitsAt (g 1) 32 32, fsize := bitsAt (g 1) 24 8, fields := bitsAt (g 1) 16 8
    op := bitsAt (g 1) 8 8, own := (g 1).testBit 0, resv := bitsAt (g 1) 1 7 != 0 || bitsAt (g 7) 1 2 != 0
    src := g 2, dst := g 3, dstStride := bitsAt (g 4) 32 32, srcStride := bitsAt (g 4) 0 32, idx := g 5, txb := g 6
    ctr := g 7 / 8 * 8, inc := (g 7).testBit 0 }
/-- The eight words of a 64-byte image. -/
def words8 (n : Nat) : List Nat := (List.range 8).map fun i => bitsAt n (64 * i) 64

/-- The default of a stride. -/
def orDefault (a b : Nat) : Nat := if a = 0 then b else a
/-- The records or elements a record counts (R232): `LEN`/sz, and for DEINT n. -/
def Rec.count (r : Rec) : Nat :=
  if r.op = 2 then r.len / (Nat.max 1 (r.fields * r.fsize)) else r.len / Nat.max 1 r.fsize
/-- One unit that a record moves: the index element that selects its source, if one does, its source, or none for a fill, its
destination, its bytes, and a fill's byte. -/
structure CopyUnit where
  via : Option Nat
  src : Option Nat
  dst : Nat
  n : Nat
  pat : Nat
  deriving DecidableEq, Repr
/-- The units of a record in loop order (R232), given the index array. -/
def Rec.units (r : Rec) (idx : Nat → Nat) : List CopyUnit :=
  let sz := r.fsize
  let ss := orDefault r.srcStride sz
  let ds := orDefault r.dstStride sz
  match r.op with
  | 0 => (List.range r.count).map fun i => ⟨none, some (r.src + i * ss), r.dst + i * ds, sz, 0⟩
  | 1 => (List.range r.len).map fun j => ⟨none, none, r.dst + j, 1, bitsAt r.src (8 * (j % 8)) 8⟩
  | 2 =>
    let n := r.count
    let rs := orDefault r.srcStride (r.fields * sz)
    let fs := orDefault r.dstStride (n * sz)
    (List.range r.fields).flatMap fun f => (List.range n).map fun i =>
      ⟨if r.idx = 0 then none else some (r.idx + 4 * i), some (r.src + (if r.idx = 0 then i else idx i) * rs + f * sz), r.dst + f * fs + i * sz, sz, 0⟩
  | _ => (List.range r.count).map fun i => ⟨some (r.idx + 4 * i), some (r.src + idx i * ss), r.dst + i * ds, sz, 0⟩
/-- The bounding span of the bytes of the source that a record touches, given the index array, and of the destination (R194, R234): base
and length. -/
def Rec.srcSpan (r : Rec) (idx : Nat → Nat) : Nat × Nat :=
  let unit := if r.op = 2 then r.fields * r.fsize else r.fsize
  let stride := orDefault r.srcStride unit
  let sel := (List.range r.count).map fun i => if r.idx = 0 then i else idx i
  let lo := sel.foldl Nat.min (sel.headD 0)
  if r.op = 1 ∨ r.count = 0 then (r.src, 0)
  else (r.src + lo * stride, (sel.foldl Nat.max 0 - lo) * stride + unit)
def Rec.dstSpan (r : Rec) : Nat × Nat :=
  let sz := r.fsize
  if r.op = 1 then (r.dst, r.len)
  else if r.count = 0 then (r.dst, 0)
  else if r.op = 2 then
    (r.dst, (r.fields - 1) * orDefault r.dstStride (r.count * sz) + r.count * sz)
  else (r.dst, (r.count - 1) * orDefault r.dstStride sz + sz)

/-- Element i of a record's index array. One that cannot be read fails the unit it selects (`State.readUnit`); the ranges of the record
are those of 0 until then (DESIGN CHOICE, log 48). -/
def State.idxOf (s : State) (ag : Agent) (die cluster : Nat) (r : Rec) (i : Nat) : Nat :=
  match s.engRead ag die cluster (r.idx + 4 * i) 4 with
  | .ok v => v
  | .error _ => 0
/-- The source span of a record under its index array as it stands. -/
def State.srcSpan (s : State) (ag : Agent) (ch : ChannelId) (r : Rec) : Nat × Nat := r.srcSpan (s.idxOf ag ch.die ch.cluster r)
/-- The record at an address. -/
def State.recAt (s : State) (ag : Agent) (die cluster addr : Nat) : Except Nat (List Nat) :=
  if addr % 64 ≠ 0 then .error 4
  else (s.engRead ag die cluster addr 64).map words8

/-! Channels (R227, R230). -/

def Channel.fresh (id : ChannelId) : Channel where
  id := id
  head := 0
  tail := 0
  last := 0
  seq := 0
  seqw := 0
  err := false
  ecode := 0
  eseq := 0
  handed := []
  flights := []
  arms := []
  quiesced := false
/-- A channel of a context; one never used holds zeros. -/
def State.chan (s : State) (id : ChannelId) : Channel :=
  match s.chans.find? (·.id == id) with
  | some c => c
  | none => Channel.fresh id
def State.setChan (s : State) (c : Channel) : State :=
  { s with chans := if s.chans.any (·.id == c.id) then s.chans.map fun x => if x.id == c.id then c else x
                    else s.chans ++ [c] }
/-- `BUSY` (R227). -/
def Channel.busy (c : Channel) : Bool :=
  if c.err then !c.flights.isEmpty else c.tail != 0 && (c.last != c.tail || !c.flights.isEmpty)
/-- The records from the successor of a tail up to another, at most `fuel`; none where the chain ends before. -/
def State.chain (s : State) (ag : Agent) (c : Channel) (last : Nat) : Nat → Nat → Option (List Nat)
  | 0, _ => none
  | fuel + 1, addr =>
    if addr = 0 then none
    else if addr = last then some [addr]
    else match s.engRead ag c.id.die c.id.cluster addr 8 with
      | .ok next => (s.chain ag c last fuel next).map (addr :: ·)
      | .error _ => none
/-- The record after a channel's tail. -/
def State.afterTail (s : State) (ag : Agent) (c : Channel) : Nat :=
  if c.tail = 0 then c.head
  else match s.engRead ag c.id.die c.id.cluster c.tail 8 with
    | .ok n => n
    | .error _ => 0

/-! The range scoreboard (R194). -/

abbrev scoreSize : Nat := 32
/-- The claim a span makes: it lies in the core's TCM or in a PLAIN buffer. -/
def State.claimOf (s : State) (ag : Agent) (ch : ChannelId) (record : Nat) (isDest : Bool) (span : Nat × Nat) :
    List ScoreEntry :=
  let core : CorePlace := ⟨ag.place.die, ag.place.cluster, ag.place.core⟩
  if span.2 = 0 then []
  else match s.window core span.1 with
    | none => []
    | some pa =>
      let plain : Bool := !inSpadWin span.1 || (match s.bufAt ag.ctx ch.die ch.cluster (span.1 - spadWin) with
        | some b => b.kind == .plain
        | none => false)
      if plain then [⟨core, pa, pa + span.2, isDest, ch, record⟩] else []
/-- The claims of a record: one for its destination, one for its source. -/
def State.claimsOf (s : State) (ag : Agent) (ch : ChannelId) (addr : Nat) : List ScoreEntry :=
  match s.recAt ag ch.die ch.cluster addr with
  | .error _ => []
  | .ok w => let r := recOf w; s.claimOf ag ch addr true r.dstSpan ++ s.claimOf ag ch addr false (s.srcSpan ag ch r)
/-- The free entries of a core. -/
def State.scoreFree (s : State) (core : CorePlace) : Nat := scoreSize - (s.score.filter (·.core == core)).length
/-- Whether a record has its claims already. -/
def State.claimed (s : State) (ch : ChannelId) (addr : Nat) : Bool := s.score.any fun e => e.chan == ch && e.record == addr
/-- Claims the entries of a list of records while they fit, in chain order. -/
def State.claimSome (s : State) (ag : Agent) (ch : ChannelId) : List Nat → State
  | [] => s
  | a :: rest =>
    let l := s.claimsOf ag ch a
    if l.length ≤ s.scoreFree ⟨ag.place.die, ag.place.cluster, ag.place.core⟩ then
      { s with score := s.score ++ l }.claimSome ag ch rest
    else s
/-- Retires one record's entries. -/
def State.unclaim (s : State) (ch : ChannelId) (addr : Nat) : State :=
  let drop (l : List ScoreEntry) (d : Bool) : List ScoreEntry :=
    l.eraseP fun e => e.chan == ch && e.record == addr && e.isDest == d
  { s with score := drop (drop s.score true) false }

/-! Marks of engine operations in a deterministic gang (R295). -/

/-- The checked physical ranges of a virtual range (R292). -/
def State.checkedRanges (s : State) (ag : Agent) (die cluster va n : Nat) : List (Nat × Nat) :=
  (pageCuts va n (n / 0x10000 + 2)).filterMap fun p =>
    if localBase ≤ p.1 then
      if inSpadWin p.1 then
        (match s.bufAt ag.ctx die cluster (p.1 - spadWin) with
          | some b => if b.kind == .barrier then none else some (s.spadPa die cluster (p.1 - spadWin), p.2)
          | none => none)
      else (s.window ⟨ag.place.die, cluster, ag.place.core⟩ p.1).map fun pa => (pa, p.2)
    else match s.ctxOf ag.ctx with
      | none => none
      | some c => match s.translateAt ag.place c.asid.toNat c.ptroot.toNat ag.pl .load p.1 with
        | some x => if x.cls = 1 then some (x.pa, p.2) else none
        | none => none
/-- Marks a virtual range for an operation. -/
def State.mark (s : State) (ag : Agent) (die cluster : Nat) (op : EngOp) (write : Bool) (va n : Nat) : State :=
  if !ag.det then s
  else { s with marks := s.marks ++ (s.checkedRanges ag die cluster va n).map fun p =>
    ⟨ag.ctx, ag.gang, p.1, p.1 + p.2, write, op⟩ }
/-- Removes an operation's marks. -/
def State.unmark (s : State) (op : EngOp) : State := { s with marks := s.marks.filter fun m => m.op != op }
/-- Marks the lines a record reads and writes, unit by unit. -/
def State.markRecord (s : State) (ag : Agent) (ch : ChannelId) (addr : Nat) : State :=
  if !ag.det then s
  else match s.recAt ag ch.die ch.cluster addr with
    | .error _ => s
    | .ok w =>
      let r := recOf w
      (r.units (s.idxOf ag ch.die ch.cluster r)).foldl (fun s u =>
        let s := s.mark ag ch.die ch.cluster (.copy ch addr) true u.dst u.n
        let rd (s : State) (a : Option Nat) (n : Nat) : State :=
          match a with
          | some v => s.mark ag ch.die ch.cluster (.copy ch addr) false v n
          | none => s
        rd (rd s u.via 4) u.src u.n) s

/-- Ends a channel's stop on an error: once nothing is in flight, the entries and marks of records handed and not
started go (R194, R234). -/
def State.settleStopped (s : State) (id : ChannelId) : State :=
  let c := s.chan id
  if c.err && c.flights.isEmpty then
    { s with score := s.score.filter fun e => e.chan != id
             marks := s.marks.filter fun m => match m.op with
               | .copy ch _ => ch != id
               | _ => true }
  else s

/-- Hands the records up to a tail: the tail moves, entries are claimed while they fit, lines are marked (R229, R236). What is handed to
a channel that already stands stopped claims and marks nothing that lasts (DESIGN CHOICE, log 48). -/
def State.hand (s : State) (ag : Agent) (id : ChannelId) (tail : Nat) : State :=
  let c := s.chan id
  let l := (s.chain ag c tail 65 (s.afterTail ag c)).getD []
  let s := s.setChan { c with tail := tail, handed := c.handed ++ [⟨tail, ag⟩] }
  (l.foldl (fun s a => s.markRecord ag id a) (s.claimSome ag id l)).settleStopped id

/-! Armed triggers (R236). -/

/-- Inserts an arm with its channel in the order of firing: ascending threshold, then arming order. -/
def insertArm (x : ChannelId × Arm) : List (ChannelId × Arm) → List (ChannelId × Arm)
  | [] => [x]
  | y :: r =>
    if x.2.threshold < y.2.threshold ∨ (x.2.threshold = y.2.threshold ∧ x.2.order < y.2.order) then x :: y :: r
    else y :: insertArm x r
/-- Whether a context stands in its save area. -/
def State.isAway (s : State) (ctx : Nat) : Bool := (s.ctxOf ctx).any (·.away)
/-- The arms that a write of a range satisfies, in their firing order. The arms of a context that stands in its save area are tested when
it is resumed (R236). -/
def State.firing (s : State) (pa n : Nat) : List (ChannelId × Arm) :=
  (s.chans.filter fun c => !s.isAway c.id.ctx).foldl (fun l c => c.arms.foldl (fun l a =>
    if decide (a.counter < pa + n) && decide (pa < a.counter + 8) && decide (a.threshold ≤ s.readN a.counter 8)
    then insertArm (c.id, a) l else l) l) []
/-- Fires one arm: it is removed and its channel's tail is updated. -/
def State.fire (s : State) (x : ChannelId × Arm) : State :=
  let c := s.chan x.1
  (s.setChan { c with arms := c.arms.erase x.2 }).hand x.2.agent x.1 x.2.tail

/-- The arms of the package's channels. -/
def State.armCount (s : State) : Nat := s.chans.foldl (fun n c => n + c.arms.length) 0

/-! Tables of tuple spaces and combine buffers (R237, R251, R333). -/

/-- A word of memory at a virtual address of a context, by a walk of its tables; none where it does not translate, and none in the
local-window region, which is never translated (R178). -/
def State.walkRead (s : State) (c : Ctx) (va : Nat) : Option Nat :=
  if localBase ≤ va then none
  else match s.walk c.ptroot.toNat va 3 with
  | some (pte, size) =>
    if leafAllows pte .s .load && decide (bitsAt pte 9 3 ≤ 1) && s.isHbm (leafMap pte size va).pa
    then some (s.readN (leafMap pte size va).pa 8) else none
  | none => none
/-- `TSTBASE` and `CBTBASE` of a context. -/
def State.tstBase (s : State) (c : Ctx) : Nat := (s.block c.vdtbase.toNat).tst
def State.cbtBase (s : State) (c : Ctx) : Nat := (s.block c.vdtbase.toNat).cbt
/-- Whether a descriptor of a table reads as not valid. -/
def State.descDead (s : State) (ctx : Nat) (base : Ctx → Nat) (off : Nat) : Bool :=
  match s.ctxOf ctx with
  | none => true
  | some c =>
    if base c = 0 then true
    else match s.walkRead c (base c + off) with
      | some w => !w.testBit 63
      | none => false
def State.spaceDead (s : State) (ctx tsid : Nat) : Bool := s.descDead ctx s.tstBase (32 * tsid)
def State.bufDead (s : State) (ctx cbid : Nat) : Bool := s.descDead ctx s.cbtBase (128 * cbid)
/-- Discards what a space or a buffer that has been made invalid held: its tuples, its parked requests, which end with
CANCELLED, and its slots (R237, R251). -/
def State.purge (s : State) : State :=
  { s with
    tuples := s.tuples.filter fun t => !s.spaceDead t.ctx t.tsid
    reqs := s.reqs.map fun r => match r.phase with
      | .parked _ => if s.spaceDead r.ctx r.tsid then { r with phase := .answered 4 0 } else r
      | _ => r
    cbufs := s.cbufs.filter fun b => !s.bufDead b.ctx b.cbid
    marks := s.marks.filter fun m => match m.op with
      | .slot b _ => !s.bufDead b.ctx b.cbid
      | _ => true }

/-- The hardware reads a context block, which it does when it binds a hart and when it creates a home (R333). -/
def State.takeBlock (s : State) (base : Nat) : State :=
  { s with blocks := s.readBlock base :: s.blocks.filter (·.base != base) }.purge

/-- Writes `n` bytes at a home, and fires the arms that the write satisfies (R195, R236). -/
def State.writeN (s : State) (pa v n : Nat) : State :=
  let s := (s.putN pa v n).purge
  (s.firing pa n).foldl State.fire s

/-- The hardware writes contents that the manual leaves free over physical ranges, from an offset of what it writes on: a write as any
other. -/
def State.writeFree (s : State) (stamp : List Nat) (off : Nat) (l : List (Nat × Nat)) : State :=
  (veilsOf stamp off l).foldl (fun s v => (s.firing v.lo (v.hi - v.lo)).foldl State.fire (s.lay v)) s

/-- Writes `width` bits at bit `bit` of byte `pa`, keeping the other bits (R159). -/
def State.writeBits (s : State) (pa bit width v : Nat) : State :=
  let n := (bit + width + 7) / 8
  let old := s.readN pa n
  let hi := old / 2 ^ (bit + width)
  s.writeN pa (hi * 2 ^ (bit + width) + v % 2 ^ width * 2 ^ bit + old % 2 ^ bit) n

end Sys2Proof.Machine
end

