-- ==== Sys2Proof/Machine/Ops.lean ====
section
/-! DEFINITION. The named operations every meaning is written in: registers (R9, R18, R23), the current hart, event logs,
taking a trap and returning from one (R348-R353, R399), performing accesses (R195), and `issue`, the one path an
instruction takes from decode to completion (R62, R69, R92). -/
namespace Sys2Proof.Machine

/-- Whether the hart's gang runs in deterministic mode (R288). -/
def Hart.det (h : Hart) : Bool := h.sr.detctl.getLsbD 0
def Hart.phased (h : Hart) : Bool := h.sr.detctl.getLsbD 1
def Hart.epoch (h : Hart) : Nat := h.sr.detctl.toNat / 2 ^ 32
def Hart.core (h : Hart) : CorePlace := ⟨h.place.die, h.place.cluster, h.place.core⟩

/-! Registers (R9). -/

/-- `x` registers: x0 reads zero and discards writes. -/
def Hart.getX (h : Hart) (n : Fin 64) : Word := if n = 0 then 0 else h.x[n]
def Hart.setX (h : Hart) (n : Fin 64) (w : Word) : Hart := if n = 0 then h else { h with x := h.x.set n w }
/-- Predicates: p0 reads true and discards writes. -/
def Hart.getP (h : Hart) (n : Fin 16) : Bool := if n = 0 then true else h.p[n]
def Hart.setP (h : Hart) (n : Fin 16) (b : Bool) : Hart := if n = 0 then h else { h with p := h.p.set n b }
/-- A write of a tile register sets its `DIRTY` bit (R18). -/
def Hart.setV (h : Hart) (n : Fin 32) (t : Tile) : Hart :=
  { h with v := h.v.set n t, sr := { h.sr with dirty := h.sr.dirty ||| (1#64 <<< n.val) } }

/-- Reads of an operand as a scalar, a predicate, a tile (a queue gives its head entry), a mask. -/
def Hart.xr (h : Hart) : Reg → Word
  | .x n => h.getX n
  | _ => 0
def Hart.pr (h : Hart) : Reg → Bool
  | .p n => h.getP n
  | _ => false
def Hart.tr (h : Hart) : Reg → Tile
  | .v n => h.v[n]
  | .q n => match h.q[n] with
    | e :: _ => e.tile
    | [] => 0
  | _ => 0
def Hart.kr (h : Hart) : Reg → Mask
  | .k n => h.k[n]
  | _ => 0
/-- The scale register that serves a tile register's group (R39). -/
def Hart.scaleFor (h : Hart) : Reg → Scale
  | .v n => h.s[(⟨n.val / 4, by omega⟩ : Fin 8)]
  | _ => 0

/-- A name for the instruction that a hart is executing: the hart, and the instructions it has completed. -/
def Hart.own (h : Hart) : Nat := ((h.ctx * 2 ^ 32 + h.gang) * 2 ^ 32 + h.hartid) * 2 ^ 64 + h.sr.instret.toNat

/-- Fills the queue entry with a sequence number, wherever it stands (R26, R160). -/
def Hart.fillQ (h : Hart) (n : Fin 4) (seq : Nat) (t : Tile) : Hart :=
  let fill (e : QEntry) : QEntry := if e.seq == seq then { e with filled := true, tile := t } else e
  { h with
    q := h.q.set n ((h.q[n]).map fill)
    waiting := h.waiting.map fun x => { x with heads := x.heads.map fun p => (p.1, fill p.2) } }

/-- The register no longer holds a value whose parity fails (R345). -/
def Hart.mend (h : Hart) (r : Reg) : Hart := { h with struck := h.struck.filter (· != r) }

/-- Writes a value to a register of its class; a value of another class writes nothing. A write replaces a value whose parity fails
(R345, R392). -/
def Hart.put (h : Hart) (r : Reg) (v : RegVal) : Hart :=
  let h := h.mend r
  match r, v with
  | .x n, .word w => h.setX n w
  | .p n, .bit b => h.setP n b
  | .v n, .tile t => h.setV n t
  | .k n, .mask m => { h with k := h.k.set n m }
  | .s n, .scale t => { h with s := h.s.set n t }
  | .ma n, .acc a => { h with ma := h.ma.set n a }
  | .q n, .entry seq t => h.fillQ n seq t
  | _, _ => h

/-- The value of a scalar as it enters an `x` or a `p` destination: true when non-zero (R83, R155). -/
def asScalar (r : Reg) (w : Word) : RegVal :=
  match r with
  | .p _ => .bit (w != 0)
  | _ => .word w

/-- The image of a register as a number, for loads and stores of its bits. -/
def Hart.image (h : Hart) : Reg → Nat
  | .x n => (h.getX n).toNat
  | .p n => if h.getP n then 1 else 0
  | .v n => (h.v[n]).toNat
  | .k n => (h.k[n]).toNat
  | .s n => (h.s[n]).toNat
  | .ma n => (h.ma[n]).toNat
  | .q n => match h.q[n] with
    | e :: _ => e.tile.toNat
    | [] => 0
/-- A number as the value of a register. -/
def regVal (r : Reg) (n : Nat) : RegVal :=
  match r with
  | .x _ => .word (BitVec.ofNat 64 n)
  | .p _ => .bit (n != 0)
  | .v _ | .q _ => .tile (BitVec.ofNat 8192 n)
  | .k _ => .mask (BitVec.ofNat 4096 n)
  | .s _ => .scale (BitVec.ofNat 1024 n)
  | .ma _ => .acc (BitVec.ofNat 131072 n)

/-! Full/empty bits (R23, R24). -/

/-- Whether a register stands empty; as a source, a queue is empty while its head entry lacks its data. -/
def Hart.isEmpty (h : Hart) : Reg → Bool
  | .x n => n != 0 && h.empty.x.getLsbD n.val
  | .p n => n != 0 && h.empty.p.getLsbD n.val
  | .v n => h.empty.v.getLsbD n.val
  | .k n => h.empty.k.getLsbD n.val
  | .s n => h.empty.s.getLsbD n.val
  | .ma n => h.empty.ma.getLsbD n.val
  | .q n => match h.q[n] with
    | e :: _ => !e.filled
    | [] => false

/-- Whether a register is of a class whose sources travel with an E-queue entry (R108). -/
def isScalar : Reg → Bool
  | .x _ | .p _ => true
  | _ => false
/-- Whether a register is `x0` or `p0`. -/
def isFixed (r : Reg) : Bool := r == .x 0 || r == .p 0
/-- Whether a register stands empty for a trap bit and for a reader: itself, or because a long-latency E-side producer of it
has not started (R23, R25). -/
def Hart.unready (h : Hart) (r : Reg) : Bool :=
  h.isEmpty r || h.waiting.any fun e => (e.long || isScalar r) && e.writes.contains r
/-- Whether an A-side instruction that reads or writes `regs` and writes `ds` waits for an E-side instruction that has not started:
the writer of a register it uses (R25), or the reader of one it writes (R20). -/
def Hart.hazard (h : Hart) (regs ds : List Reg) : Bool :=
  h.waiting.any fun e => regs.any e.writes.contains || ds.any e.reads.contains

def setBit {w : Nat} (b : BitVec w) (i : Nat) (v : Bool) : BitVec w :=
  if v then b ||| (1#w <<< i) else b &&& ~~~ (1#w <<< i)

/-- Marks a register empty or full; x0 and p0 stay full. -/
def Hart.markEmpty (h : Hart) (r : Reg) (v : Bool) : Hart :=
  match r with
  | .x n => if n = 0 then h else { h with empty := { h.empty with x := setBit h.empty.x n.val v } }
  | .p n => if n = 0 then h else { h with empty := { h.empty with p := setBit h.empty.p n.val v } }
  | .v n => { h with empty := { h.empty with v := setBit h.empty.v n.val v } }
  | .k n => { h with empty := { h.empty with k := setBit h.empty.k n.val v } }
  | .s n => { h with empty := { h.empty with s := setBit h.empty.s n.val v } }
  | .ma n => { h with empty := { h.empty with ma := setBit h.empty.ma n.val v } }
  | .q _ => h

/-- Takes the next entry of a hart's schedule of delays. -/
def Hart.popLate (h : Hart) : Bool × Hart :=
  match h.late with
  | [] => (false, h)
  | b :: r => (b, { h with late := r })

/-- A long-latency producer's result (R23): written at once, or late, with the destination empty until it arrives. -/
def Hart.produce (h : Hart) (r : Reg) (v : RegVal) : Hart :=
  let (late, h) := h.popLate
  if late then { h.markEmpty r true with results := h.results ++ [(r, v)] } else h.put r v

/-- Several results of one producer. -/
def Hart.produceAll (h : Hart) : List (Reg × RegVal) → Hart
  | [] => h
  | (r, v) :: rest => (h.produce r v).produceAll rest

/-- Delivers the oldest late result of one register or queue, if it has one. -/
def Hart.deliverReg (h : Hart) (r : Reg) : Hart :=
  match h.results.find? (·.1 == r) with
  | some (_, v) => ({ h with results := h.results.eraseP (·.1 == r) }.put r v).markEmpty r false
  | none => h

/-- Delivers every late result. -/
def Hart.deliverAll (h : Hart) : Hart :=
  let h' := h.results.foldl (fun h rv => (h.put rv.1 rv.2).markEmpty rv.1 false) h
  { h' with results := [] }

/-- Cycles pass for a hart (R30), and while its matrix issue stalls (R328). -/
def SysRegs.ran (r : SysRegs) (cycles : Nat) : SysRegs := { r with cycle := r.cycle + BitVec.ofNat 64 cycles }
def SysRegs.stalled (r : SysRegs) (cycles : Nat) : SysRegs :=
  { r with dampstat := BitVec.ofNat 64 (putBits r.dampstat.toNat 0 32 (r.dampstat.toNat + cycles)) }

/-! Traps. -/

/-- Trap causes (R345, Table 1). -/
abbrev cILLEGAL : Nat := 0x01
abbrev cPCMIS : Nat := 0x02
abbrev cFETCH : Nat := 0x03
abbrev cLOAD : Nat := 0x04
abbrev cSTORE : Nat := 0x05
abbrev cACCESS : Nat := 0x06
abbrev cMISALIGNED : Nat := 0x07
abbrev cREGEMPTY : Nat := 0x08
abbrev cBUFFER : Nat := 0x09
abbrev cBARRIER : Nat := 0x0A
abbrev cSPARSE : Nat := 0x0B
abbrev cRACE : Nat := 0x0C
abbrev cNONDET : Nat := 0x0D
abbrev cPHASE : Nat := 0x0E
abbrev cTUPLE : Nat := 0x0F
abbrev cCOMBINE : Nat := 0x10
abbrev cMESH : Nat := 0x11
abbrev cDATA : Nat := 0x12
abbrev cBREAK : Nat := 0x13
abbrev cSYSCALL : Nat := 0x14
abbrev cHARTCHECK : Nat := 0x15
abbrev cTIMER : Nat := 0x81
abbrev cENGINE : Nat := 0x82
abbrev cHOST : Nat := 0x83

/-- Enters the handler at S (R348): the saved pc, cause, value and element; `PPL`, `PAIE`, `PL`, `AIE`, `TF`; PC. -/
def Hart.enterS (h : Hart) (epc : BitVec 55) (cause : Nat) (eval : Word) (eidx : Nat) : Hart :=
  { h with
    sr := { h.sr with epc := epc.setWidth 64, cause := BitVec.ofNat 64 cause, eval := eval, eidx := BitVec.ofNat 64 eidx }
    st := { tf := true, paie := h.st.aie, aie := false, ppl := h.st.pl, pl := .s }
    prevPc := h.pc
    pc := h.sr.stvec.setWidth 55
    wait := none
    undo := none
    mid := false }

/-- Enters the firmware handler (R399). -/
def Hart.enterF (h : Hart) (epc : BitVec 55) (cause : Nat) (eval : Word) (eidx : Nat) : Hart :=
  { h with
    fw := { h.fw with
            fepc := epc.setWidth 64, fcause := BitVec.ofNat 64 cause, feval := eval, feidx := BitVec.ofNat 64 eidx
            ppl := .f, tf := true }
    prevPc := h.pc
    pc := h.fw.ftvec.setWidth 55
    wait := none
    undo := none
    mid := false }

/-- Takes a trap of hart `n` whose saved address is `epc`: at S for a cause raised at U or S, at F for one raised at F
(R348, R399). A second synchronous cause at S is a double trap, whose save follows (R352); at F the slot halts. -/
def State.trapAt (s : State) (n : Nat) (epc : BitVec 55) (cause : Nat) (eval : Word) (eidx : Nat) : State :=
  let h := s.hartAt n
  match h.st.pl with
  | .f =>
    if h.fw.tf then
      (s.modHartAt n fun h => { h with status := .halted, wait := none }).logEvent h.place.die 0x02 (BitVec.ofNat 64 cause)
    else s.modHartAt n fun h => h.enterF epc cause eval eidx
  | .s =>
    if h.st.tf && decide (cause < 0x80) then
      s.modHartAt n fun h => { h with dcause := some cause, wait := none }
    else s.modHartAt n fun h => h.enterS epc cause eval eidx
  | .u => s.modHartAt n fun h => h.enterS epc cause eval eidx

/-- Takes a trap of the current hart at the instruction at its pc. -/
def State.trap (s : State) (cause : Nat) (eval : Word) (eidx : Nat) : State :=
  s.trapAt s.cur s.hart.pc cause eval eidx

/-- Returns from a trap at S (R353) and at F (R399). A return at S never raises the privilege to F: the manual says what no image and no
register can hold, and the model returns to S (DESIGN CHOICE, log 46). -/
def Hart.eret (h : Hart) : Hart :=
  match h.st.pl with
  | .f =>
    { h with
      prevPc := h.pc, pc := h.fw.fepc.setWidth 55, st := { h.st with pl := h.fw.ppl }
      fw := { h.fw with ppl := .f, tf := false } }
  | _ =>
    { h with
      prevPc := h.pc, pc := h.sr.epc.setWidth 55
      st := { tf := false, paie := h.st.paie, aie := h.st.paie, ppl := .u, pl := if h.st.ppl = .f then .s else h.st.ppl } }

/-! Asynchronous causes (R349-R351). -/

/-- Whether a hart is bound to a slot and has not ended. -/
def Hart.bound (h : Hart) : Bool := h.status == .running || h.status == .stopped || h.status == .exiting
/-- Whether a hart counts as exited for causes (R351). -/
def Hart.gone (h : Hart) : Bool := h.status == .exiting || h.status == .exited || h.status == .halted

/-- The order in which pending causes are taken: ENGINE_ERROR, HOST, TIMER (R349). -/
def Hart.nextCause (h : Hart) : Option (Nat × Word) :=
  match h.causes.find? (·.1 == cENGINE) with
  | some c => some c
  | none => match h.causes.find? (·.1 == cHOST) with
    | some c => some c
    | none => h.causes.find? (·.1 == cTIMER)

/-- Whether asynchronous causes may be taken at a boundary (R350). -/
def Hart.mayTake (h : Hart) : Bool :=
  match h.st.pl with
  | .u => true
  | .s => h.st.aie
  | .f => false

/-! Pre-emption at a boundary (R350, R355). -/

/-- Whether a resume of an area is under way. -/
def State.resumeOf (s : State) (area : Nat) : Bool := s.dies.toList.any fun d => d.resuming == some area
/-- Whether a context's save area may be written: it is named, and no resume of it is under way (R355, R364). -/
def State.mayWrite (s : State) (ctx : Nat) : Bool :=
  match s.ctxOf ctx with
  | some c => c.saveptr != 0 && !s.resumeOf c.saveptr.toNat
  | none => false
/-- Whether a hart takes PREEMPT, or a double trap's save, at its boundary (R350, R352, R355). -/
def State.takesSave (s : State) (n : Nat) : Bool :=
  let h := s.hartAt n
  h.status == .running && h.homeOp.isNone && s.mayWrite h.ctx
    && (h.dcause.isSome || (h.preempt.isSome && h.mayTake && !(h.wait.any (·.ends))))

/-- Whether a mesh job has still to answer its hart: the register it writes is full before an image is written (R276, R356). -/
def State.awaitsJob (s : State) (n : Nat) : Bool := s.meshJobs.any fun j => j.agent.hart == n
/-- Makes a cause pending for a bound hart; the first of a kind keeps its `EVAL` (R349). -/
def Hart.post (h : Hart) (cause : Nat) (eval : Word) : Hart :=
  if h.causes.any (·.1 == cause) then h else { h with causes := h.causes ++ [(cause, eval)] }
/-- Holds a cause for a hart that is not bound; the context keeps the first of a hart (R350). -/
def State.hold (s : State) (ctx gang hartid cause : Nat) (eval : Word) : State :=
  if s.held.any fun x => x.ctx == ctx && x.gang == gang && x.hartid == hartid then s
  else { s with held := s.held ++ [⟨ctx, gang, hartid, cause, eval⟩] }
/-- Delivers a cause to hart `n`, bound or saved. -/
def State.postTo (s : State) (n cause : Nat) (eval : Word) : State :=
  let h := s.hartAt n
  if h.status = .saved then s.hold h.ctx h.gang h.hartid cause eval else s.modHartAt n fun h => h.post cause eval
/-- Makes the causes held for hart `n` pending at its binding (R350). -/
def State.takeHeld (s : State) (n : Nat) : State :=
  let h := s.hartAt n
  let mine (x : Held) : Bool := x.ctx == h.ctx && x.gang == h.gang && x.hartid == h.hartid
  { s.modHartAt n fun h => (s.held.filter mine).foldl (fun (h : Hart) x => h.post x.cause x.eval) h with
    held := s.held.filter fun x => !mine x }

/-! The schedule's own view of memory: issued accesses are performed at their homes (R195). -/

/-- The value a load takes at its homes: its base image with each part overwritten. -/
def State.loadImage (s : State) (base : Nat) : List LoadPart → Nat
  | [] => base
  | p :: r =>
    let n := (p.bit + p.width + 7) / 8
    let v := s.readN p.pa n / 2 ^ p.bit % 2 ^ p.width
    let hi := base / 2 ^ (p.dst + p.width)
    s.loadImage (hi * 2 ^ (p.dst + p.width) + v * 2 ^ p.dst + base % 2 ^ p.dst) r

/-- Extends a loaded value (R155). -/
def Ext.apply (e : Ext) (n : Nat) : Nat :=
  match e with
  | .raw => n
  | .signed w => if n.testBit (w - 1) then 2 ^ 64 - 2 ^ w + n % 2 ^ w else n % 2 ^ w
  | .unsigned w => n % 2 ^ w

/-- The new value of an atomic's word of `w` bits (R168, Table 7): m is the memory value, v and alt the operands. -/
def atomicNew (op w m v alt : Nat) : Nat :=
  match op with
  | 0x0 => (m + v) % 2 ^ w
  | 0x1 => m &&& v
  | 0x2 => m ||| v
  | 0x3 => m ^^^ v
  | 0x4 => if intOf w true m ≤ intOf w true v then m else v
  | 0x5 => if intOf w true m ≤ intOf w true v then v else m
  | 0x6 => Nat.min m v
  | 0x7 => Nat.max m v
  | 0x8 => v
  | 0x9 => if m = v then alt else m
  | _ =>
    let fmt : FpFmt := if w = 32 then .f32 else .f64
    (fpAdd fmt .rne (fmt.decode m) (fmt.decode v)).1

/-- Whether an atomic writes its word: a `cas` whose comparison fails does not (R210). -/
def atomicWrites (op m v : Nat) : Bool := !(op == 0x9 && m != v)

/-- One atomic at its home (R206): the old value, and the state after it. -/
def State.rmw (s : State) (p : RmwPart) : Nat × State :=
  let m := s.readN p.pa (p.width / 8)
  (m, if atomicWrites p.op m p.value then s.writeN p.pa (atomicNew p.op p.width m p.value p.alt) (p.width / 8) else s)

/-- Draws the ticket of an element of a `.sc` access (R162). -/
def State.drawTicket (s : State) (sc : Bool) (pa : Nat) : State :=
  if sc && pkgOf pa == s.pkg then { s with ticket := s.ticket + 1 } else s

/-- Gives a load's or an atomic's finished value to its destination, which becomes full. -/
def State.land (s : State) (n : Nat) (dest : Reg) (seq v : Nat) : State :=
  match dest with
  | .q i => s.modHartAt n fun h => h.fillQ i seq (BitVec.ofNat 8192 v)
  | r => s.modHartAt n fun h => (h.put r (regVal r v)).markEmpty r false

/-! Tuple requests at their homes (R239, R240, R243, R245): accesses of their hart's streams, like loads (R67). -/

/-- The home of a signature of a space: its virtual die, package, die and slice (R240). -/
structure Slice where
  vd : Nat
  pkg : Nat
  die : Nat
  slice : Nat
  deriving DecidableEq, Repr
def tupleHash (sig tsid : Nat) : Nat := (sig ^^^ tsid) * 0x9E3779B97F4A7C15 % 2 ^ 64 / 2 ^ 32
def State.tupleHome (s : State) (ctx tsid sig : Nat) : Option Slice :=
  match s.ctxOf ctx with
  | none => none
  | some c =>
    let vs := s.vds c.vdtbase.toNat
    let z := tupleHash sig tsid
    match vs[z % vs.length]? with
    | none => none
    | some v => match s.vdEntry c.vdtbase.toNat v with
      | none => none
      | some (p, d) => some ⟨v, p, d, z / vs.length % (32 - s.carved p d)⟩

/-- Word w of a tuple image, and matching (R239). -/
def tupleWord (image w : Nat) : Nat := bitsAt image (64 * w) 64
/-- Whether the home of a stored tuple lies on the die that keeps it: after a rebinding without a move it does not (R335). -/
def State.keeps (s : State) (t : STuple) : Bool :=
  (s.tupleHome t.ctx t.tsid (tupleWord t.image 0)).any fun h => (h.pkg, h.die) == t.die
def tupleMatches (image mask t : Nat) : Bool :=
  tupleWord image 0 == tupleWord t 0 &&
    (List.range 7).all fun i => !mask.testBit i || tupleWord image (i + 1) == tupleWord t (i + 1)

def psReg (f : Fields) : Reg := .p (Fin.ofNat 16 (bitsAt f.imm.toNat 8 4))
/-- The registers a request writes. -/
def TupleReq.regs (r : TupleReq) : List Reg := [r.f.d, psReg r.f, r.f.c]
/-- Writes p[PS] and x[C] (R243). -/
def Hart.putStatus (h : Hart) (f : Fields) (code : Nat) : Hart :=
  (h.put (psReg f) (.bit (code == 0))).put f.c (.word (BitVec.ofNat 64 code))
/-- An answered request ends: its registers are written and full; a tuple enters row 0 of D. -/
def State.deliver (s : State) (r : TupleReq) (status image : Nat) : State :=
  let s := { s with reqs := s.reqs.filter (·.id != r.id) }
  s.modHartAt r.hart fun h =>
    let h := if status = 0 then h.put r.f.d (.tile (BitVec.ofNat 8192 (putBits (h.tr r.f.d).toNat 0 512 image))) else h
    r.regs.foldl (fun h x => h.markEmpty x false) (h.putStatus r.f status)
/-- A request is answered at its home; the answer reaches its hart at once, or when the schedule says. -/
def State.answer (s : State) (r : TupleReq) (status image : Nat) : State :=
  let p := (s.hartAt r.hart).popLate
  let s := s.modHartAt r.hart fun _ => p.2
  if p.1 then { s with reqs := s.reqs.map fun x => if x.id == r.id then { x with phase := .answered status image } else x }
  else s.deliver r status image

/-- The park number of a request, and whether it is parked (R245). -/
def TupleReq.order (r : TupleReq) : Nat :=
  match r.phase with
  | .parked n => n
  | _ => 0
def TupleReq.isParked (r : TupleReq) : Bool :=
  match r.phase with
  | .parked _ => true
  | _ => false
/-- The matching stored tuple with the lowest deposit number. -/
def State.oldest (s : State) (r : TupleReq) : Option STuple :=
  (s.tuples.filter fun t => t.ctx == r.ctx && t.tsid == r.tsid && tupleMatches r.image r.mask t.image && s.keeps t).foldl
    (fun best t => match best with
      | some b => if t.order < b.order then some t else some b
      | none => some t) none
/-- The physical slice at which a request parks. -/
def State.parkSlice (s : State) (r : TupleReq) : Option (Nat × Nat × Nat) :=
  (s.tupleHome r.ctx r.tsid (tupleWord r.image 0)).map fun h => (h.pkg, h.die, h.slice)
abbrev parkTable : Nat := 4096
abbrev parkOverflow : Nat := 65536
/-- Whether a request may park (R246): the table fills first, and the overflow holds the rest of every slice of the die. -/
def State.parkRoom (s : State) (r : TupleReq) : Bool :=
  match s.parkSlice r with
  | none => false
  | some (p, d, sl) =>
    let at_ := (s.reqs.filter (·.isParked)).filterMap s.parkSlice
    let count (i : Nat) : Nat := (at_.filter (· == (p, d, i))).length
    decide (count sl < parkTable) ||
      decide (((List.range 32).map fun i => count i - parkTable).foldl (· + ·) 0 < parkOverflow)
/-! The order in one cycle (R249, R259, R270). -/

/-- Whether an operation may follow the last one of a home. -/
def Turn.allows (t : Turn) (clock hartid gang : Nat) : Bool :=
  t.clock != clock || (match t.last with
    | some (i, g) => decide (i < hartid) || (i == hartid && decide (g ≤ gang))
    | none => false)
/-- Whether an operation of a hart is not out of order at a home; one that is out of order waits for the next cycle. -/
def State.inTurn (s : State) (k : HomeKey) (h : Hart) : Bool := s.turns.all fun t => t.key != k || t.allows s.clock h.hartid h.gang
/-- A home has performed an operation in this cycle, of a hart or a publish. -/
def State.setTurn (s : State) (k : HomeKey) (last : Option (Nat × Nat)) : State :=
  { s with turns := ⟨k, s.clock, last⟩ :: s.turns.filter (·.key != k) }
def State.takeTurn (s : State) (k : HomeKey) (h : Hart) : State := s.setTurn k (some (h.hartid, h.gang))
/-- The slice at which the tuples of a signature are (R238). -/
def State.tupleKey (s : State) (ctx tsid sig : Nat) : HomeKey :=
  match s.tupleHome ctx tsid sig with
  | some h => .slice h.pkg h.die h.slice
  | none => .slice s.pkg 0 0
def State.reqKey (s : State) (r : TupleReq) : HomeKey := s.tupleKey r.ctx r.tsid (tupleWord r.image 0)
def State.reqInTurn (s : State) (r : TupleReq) : Bool := s.inTurn (s.reqKey r) (s.hartAt r.hart)
/-- Whether a request of a hart is on its way to a slice that has performed a later operation of this cycle: it reaches it in the next
one. -/
def State.behind (s : State) (n : Nat) : Bool := s.reqs.any fun r => r.hart == n && r.phase == .flying && !s.reqInTurn r
/-- What a request finds at its home (R245). -/
inductive Found where
  | tuple (t : STuple)
  | noMatch
  | park
  | full
  deriving DecidableEq, Repr
def State.find (s : State) (r : TupleReq) : Found :=
  match s.oldest r with
  | some t => .tuple t
  | none => if r.nb then .noMatch else if s.parkRoom r then .park else .full
/-- A request of the list is performed at its home (R245). -/
def State.request (s : State) (r : TupleReq) : State :=
  let s := s.takeTurn (s.reqKey r) (s.hartAt r.hart)
  match s.find r with
  | .tuple t => (if r.take then { s with tuples := s.tuples.erase t } else s).answer r 0 t.image
  | .noMatch => s.answer r 1 0
  | .full => s.answer r 2 0
  | .park =>
    { s with parkNo := s.parkNo + 1
             reqs := s.reqs.map fun x => if x.id == r.id then { x with phase := .parked s.parkNo } else x }
/-! Engine failures (R349, R351). -/

/-- Rewrites word 8 of a launch record with `ERR` and a code unless `ERR` is set (R315, R351). -/
def State.recordError (s : State) (g : Gang) (code : Nat) : State :=
  let w := s.readN (g.record + 64) 8
  if w.testBit 62 then s else s.writeN (g.record + 64) (putBits (putBits w 62 1 1) 48 8 code) 8
/-- Delivers ENGINE_ERROR to the hart an operation was forked by, or records it against its gang (R351). -/
def State.deliverEngine (s : State) (ag : Agent) (eval : Nat) : State :=
  let s := s.logOpen ag.place.die evEngine
  if (s.hartAt ag.hart).gone then
    match s.gangOf ag.ctx ag.gang with
    | some g => if g.ended then s.recordError g 5 else s.modGang ag.ctx ag.gang fun g => { g with engineFailed := true }
    | none => s
  else s.postTo ag.hart cENGINE (BitVec.ofNat 64 eval)

/-- A write that may or may not be performed (R379). -/
def State.perhaps (s done : State) : State :=
  let t := if (Config.freeValue s.free).getLsbD 0 then done else s
  { t with free := s.free + 1 }
/-- A write on a lost route: it may or may not be performed, and its hart receives ENGINE_ERROR (R351, R379). -/
def State.lostWrite (s : State) (n va : Nat) (done : State) : State := (s.perhaps done).deliverEngine (s.agentOf n) va
/-- The parts that one step performs first: the first alone, and for the load of a view every part in its sector (R164). -/
def Access.sector (a : Access) (p : LoadPart) (r : List LoadPart) : List LoadPart × List LoadPart :=
  if a.view then r.partition fun x => x.pa / 64 == p.pa / 64 else ([], r)
/-- Performs the first part of an access, with nothing before it; what is left of it, if anything is (R195). An error met by an access raises DATA_ERROR at its
instruction (R154): it is met where the access issues, because what is in flight is performed before an error strikes its unit
(`corruptUnit`) and ends with its instruction where its route is lost (`failFlight`). -/
def State.doPart (s : State) (n : Nat) (a : Access) : State × Option Access :=
  match a.op with
  | .order _ _ => (s, none)
  | .request id => (match s.reqs.find? fun r => r.id == id && r.phase == .flying with
    | some r => s.request r
    | none => s, none)
  | .store [] => (s, none)
  | .store (p :: r) =>
    let go := (s.drawTicket a.sc p.pa).writeBits p.pa p.bit p.width p.value
    (if s.lost p.pa then s.lostWrite n p.va go else go, if r.isEmpty then none else some { a with op := .store r })
  | .load dest seq base ext [] => (s.land n dest seq (ext.apply base), none)
  | .load dest seq base ext (p :: r) =>
    let q := a.sector p r
    let s := (p :: q.1).foldl (fun (s : State) x => s.drawTicket a.sc x.pa) s
    let base := s.loadImage base (p :: q.1)
    if q.2.isEmpty then (s.land n dest seq (ext.apply base), none) else (s, some { a with op := .load dest seq base ext q.2 })
  | .rmw dest base ext [] => (s.land n dest 0 (ext.apply base), none)
  | .rmw dest base ext (p :: r) =>
    let m := (s.drawTicket a.sc p.pa).rmw p
    let m := if s.lost p.pa then (m.1, s.lostWrite n p.va m.2) else m
    let base := putBits base p.dst p.width m.1
    if r.isEmpty then (m.2.land n dest 0 (ext.apply base), none) else (m.2, some { a with op := .rmw dest base ext r })

/-- Whether an access is an order point. -/
def Access.isOrder (a : Access) : Bool :=
  match a.op with
  | .order _ _ => true
  | _ => false
/-- The number of parts of an access. -/
def Access.size (a : Access) : Nat :=
  match a.op with
  | .order _ _ | .request _ => 1
  | .store l => l.length
  | .load _ _ _ _ l => l.length
  | .rmw _ _ _ l => l.length

/-- Performs parts of an access one after another, with nothing before them; the fuel is the number of its parts. -/
def State.doParts (s : State) (n : Nat) : Nat → Access → State
  | 0, _ => s
  | k + 1, a => match s.doPart n a with
    | (s', some a') => s'.doParts n k a'
    | (s', none) => s'
/-- Takes an access that is performed out of the list, with the order points that nothing precedes any more. -/
def Hart.dropAccess (a : Access) (h : Hart) : Hart := { h with pend := (h.pend.erase a).dropWhile Access.isOrder }
/-- Performs the first part of an access (R195). A write that fires an arm forks the records it hands, so what its hart has issued before
it is performed first, in every stream (R207, R236). -/
def State.performPart (s : State) (n : Nat) (a : Access) : State × Option Access :=
  let r := s.doPart n a
  if r.1.armCount < s.armCount then
    ((((s.hartAt n).pend.takeWhile (· != a)).filter fun b => !b.isOrder).foldl
      (fun (s : State) b => (s.doParts n (b.size + 1) b).modHartAt n (Hart.dropAccess b)) s).doPart n a
  else r
/-- Performs an access part by part; the fuel is the number of its parts. -/
def State.performParts (s : State) (n : Nat) : Nat → Access → State
  | 0, _ => s
  | k + 1, a => match s.performPart n a with
    | (s', some a') => s'.performParts n k a'
    | (s', none) => s'
/-- Performs one access of hart `n` wholly (R195). -/
def State.perform (s : State) (n : Nat) (a : Access) : State := s.performParts n (a.size + 1) a

/-! The order among the accesses of one hart (R97, R199, R200, R202). -/

/-- Whether an access reads and whether it writes; a tuple request does both. -/
def Access.isRead (a : Access) : Bool :=
  match a.op with
  | .load _ _ _ _ _ | .rmw _ _ _ _ | .request _ => true
  | _ => false
def Access.isWrite (a : Access) : Bool :=
  match a.op with
  | .store _ | .rmw _ _ _ _ | .request _ => true
  | _ => false
/-- Whether an order point that stands between two accesses keeps them in order. -/
def Access.keeps (o a b : Access) : Bool :=
  match o.op with
  | .order .streams m => m.getLsbD a.stream.val && m.getLsbD b.stream.val
  | .order .release m => m.getLsbD a.stream.val && b.isWrite
  | .order .acquire m => m.getLsbD a.stream.val && a.isRead
  | _ => false
/-- Whether access `a` must be performed before one of the accesses `after` it, given the order points passed since `a`: one of its
stream (R199), a release write (R202), one that an order point keeps behind it. -/
def Access.mustPrecede (a : Access) (orders : List Access) : List Access → Bool
  | [] => false
  | b :: r =>
    if b.isOrder then a.mustPrecede (b :: orders) r
    else a.stream == b.stream || b.rel || orders.any (fun o => o.keeps a b) || a.mustPrecede orders r
/-- The accesses of a list that satisfy a test, with every access that must be performed before one of them, in their order; the
order points behind them are kept, and `tail` is what is needed of what follows. -/
def needed (t : Access → Bool) (tail : List Access) : List Access → List Access
  | [] => tail
  | a :: r =>
    let l := needed t tail r
    if a.isOrder || t a || a.mustPrecede [] l then a :: l else l
/-- The accesses that must be performed before an access which follows a list. -/
def precursors (l : List Access) (a : Access) : List Access := ((needed (fun _ => false) [a] l).dropLast).filter fun x => !x.isOrder

/-- Performs accesses of a hart in the order of a list. -/
def State.performAll (s : State) (n : Nat) (l : List Access) : State :=
  l.foldl (fun s a => (s.perform n a).modHartAt n (Hart.dropAccess a)) s
/-- Performs every access of some streams of a hart, and what must precede them (R199, R200). -/
def State.drainStreams (s : State) (n : Nat) (m : Fin 4 → Bool) : State :=
  s.performAll n ((needed (fun a => m a.stream) [] (s.hartAt n).pend).filter fun x => !x.isOrder)
/-- Performs every pending access of a hart (R202, R203). -/
def State.drainAll (s : State) (n : Nat) : State := s.drainStreams n fun _ => true
/-- Performs what must precede an access of hart `n`. -/
def State.clearFor (s : State) (n : Nat) (a : Access) : State := s.performAll n (precursors (s.hartAt n).pend a)
/-- The state in which the current hart makes an access of a stream at its own place, a write or a read. -/
def State.inStream (s : State) (strm : Fin 4) (write : Bool) : State :=
  s.clearFor s.cur (.of strm false false (if write then .store [] else .load (.x 0) 0 0 .raw []))
/-- A fence or a stream barrier: an order point stands behind the accesses that are still to be performed. -/
def Hart.order (k : OrderKind) (m : BitVec 4) (h : Hart) : Hart :=
  if h.pend.isEmpty then h else { h with pend := h.pend ++ [Access.of 0 false false (.order k m)] }

/-- Whether an access loads a register; a queue's head entry is named by its sequence number. -/
def Access.loads (a : Access) (h : Hart) (r : Reg) : Bool :=
  match a.op with
  | .load d seq _ _ _ =>
    match r, d with
    | .q i, .q j => i == j && (match h.q[i] with
      | e :: _ => e.seq == seq
      | [] => false)
    | _, _ => d == r
  | .rmw d _ _ _ => d == r
  | .store _ | .order _ _ | .request _ => false

/-- Brings a register to full if its producer is one the hart waits for alone: a late result, or a pending load, which
is performed with every access of its stream before it (R24, R199). -/
def State.settle (s : State) (n : Nat) (r : Reg) : State :=
  let h := s.hartAt n
  if !h.isEmpty r then s
  else match h.pend.find? (·.loads h r) with
    | some a => s.performAll n (precursors (h.pend.takeWhile (· != a)) a ++ [a])
    | none => s.modHartAt n fun h => h.deliverReg r

/-! A route lost under accesses in flight (R379). -/

/-- Whether an access fills a register, or the queue entry of a sequence number. -/
def Access.fills (a : Access) (d : Reg) (seq : Nat) : Bool :=
  match a.op with
  | .load e k _ _ _ => e == d && k == seq
  | .rmw e _ _ _ => e == d && !isFixed d
  | .store _ | .order _ _ | .request _ => false
/-- Whether an access returns values, and the addresses of the parts that it has still to perform, virtual and physical. -/
def Access.returns (a : Access) : Bool :=
  match a.op with
  | .load _ _ _ _ _ => true
  | .rmw d _ _ _ => !isFixed d
  | .store _ | .order _ _ | .request _ => false
def Access.places (a : Access) : List (Nat × Nat × Nat) :=
  match a.op with
  | .load _ _ _ _ l => l.map fun p => (p.va, p.pa, (p.bit + p.width + 7) / 8)
  | .rmw _ _ _ l => l.map fun p => (p.va, p.pa, p.width / 8)
  | .store l => l.map fun p => (p.va, p.pa, (p.bit + p.width + 7) / 8)
  | .order _ _ | .request _ => []
/-- Performs the accesses of hart `n` that satisfy a test, with what must precede them. -/
def State.performSome (s : State) (n : Nat) (t : Access → Bool) : State :=
  s.performAll n ((needed (fun a => !a.isOrder && t a) [] (s.hartAt n).pend).filter fun x => !x.isOrder)
/-- The instruction of an access in flight has not completed: the hart stands at it again, its destination is full, its queue entry waits
for it to be executed again, and the entries it popped are back (R154, R160). What counts cycles and crossings goes on. -/
def Hart.takeBack (h : Hart) (u : Undo) : Hart :=
  let h := match u.dest with
    | .q n =>
      let stop (x : QEntry) : QEntry := if x.seq == u.seq then { x with stopped := some u.sr.vstart.toNat } else x
      { h with q := h.q.set n ((h.q[n]).map stop) }
    | r => h.markEmpty r false
  { h with
    undo := none, pc := u.pc, prevPc := u.prevPc
    q := u.heads.foldl (fun (q : Vector (List QEntry) 4) x => q.set x.1 (x.2 :: q[x.1])) h.q
    sr := { u.sr with cycle := h.sr.cycle, tleft := h.sr.tleft, dampstat := h.sr.dampstat } }
/-- The access in flight of the instruction that a hart has executed last, while it has done nothing since. -/
def Hart.inFlight (h : Hart) : Option (Undo × Access) :=
  match h.undo with
  | some u => (h.pend.find? fun a => a.fills u.dest u.seq).map fun a => (u, a)
  | none => none
/-- A load or an atomic in flight of the last instruction of hart `n` ends as DATA_ERROR at that instruction where a part of it lies on a
lost route; the atomic may or may not be performed there (R154, R379). -/
def State.failFlight (s : State) (n : Nat) : State :=
  match (s.hartAt n).inFlight with
  | none => s
  | some (u, a) => match a.places.find? fun p => s.lost p.2.1 with
    | none => s
    | some p =>
      let s := match a.op with
        | .rmw _ _ _ (r :: _) => s.perhaps (s.rmw r).2
        | _ => s
      ((s.modHartAt n fun h => (h.dropAccess a).takeBack u)).trapAt n u.pc cDATA (BitVec.ofNat 64 p.1) u.sr.vstart.toNat

/-- The hart as its instruction began, whose access to a destination is about to stay in flight. -/
def Hart.mayUndo (h : Hart) (d : Reg) (seq : Nat) : Undo := ⟨d, seq, h.pc, h.prevPc, h.sr, []⟩
/-- Whether a part of an access lies in a bank under test, so that it waits (R395). -/
def State.heldUp (s : State) (a : Access) : Bool := a.places.any fun p => s.testing p.2.1 p.2.2
/-- Whether what a step of hart `n` has led to performs an access that waits for a test: the step then waits too (R395). -/
def State.overrun (s : State) (n : Nat) (t : State) : Bool :=
  !s.underTest.isEmpty && (s.hartAt n).pend.any fun a => s.heldUp a && !(t.hartAt n).pend.contains a
/-- Issues an access in its stream: performed at once after the earlier ones of the stream, or left pending by the
hart's schedule of delays. A pending load leaves its destination empty. -/
def State.issueAccess (s : State) (n : Nat) (a : Access) : State :=
  let (late, h') := (s.hartAt n).popLate
  let s := s.modHartAt n fun _ => h'
  if late then
    s.modHartAt n fun h =>
      let h := { h with pend := h.pend ++ [a] }
      match a.op with
      | .load d seq _ _ _ => { h.markEmpty d true with undo := some (h.mayUndo d seq) }
      | .rmw d _ _ _ => { h.markEmpty d true with undo := if isFixed d then none else some (h.mayUndo d 0) }
      | .store _ | .order _ _ | .request _ => h
  else (s.clearFor n a).perform n a

/-! Issue. -/

/-- What the body of an instruction answers: it completed, it transferred control, it raised a cause (with the state it
left, R154, R161), it waits at its place, or it completed by a step of its own. -/
inductive Res where
  | done (s : State)
  | jump (s : State) (target : BitVec 55)
  | trap (s : State) (cause : Nat) (eval : Word) (eidx : Nat)
  | wait (s : State)
  | other (s : State)

/-- The loop-end step (R92): the next pc and the stepped counts. -/
def loopEnd (pc : BitVec 55) (sr : SysRegs) : BitVec 55 × SysRegs :=
  let seqPc := pc + 12
  let at1 := decide (pc.setWidth 64 = sr.le1) && decide (sr.lc1 ≠ 0)
  let sr1 := if at1 then { sr with lc1 := sr.lc1 - 1 } else sr
  let npc1 := if at1 && decide (sr1.lc1 ≠ 0) then sr.lb1.setWidth 55 else seqPc
  let at0 := decide (npc1 = seqPc) && decide (pc.setWidth 64 = sr.le0) && decide (sr.lc0 ≠ 0)
  let sr0 := if at0 then { sr1 with lc0 := sr1.lc0 - 1 } else sr1
  let npc0 := if at0 && decide (sr0.lc0 ≠ 0) then sr.lb0.setWidth 55 else npc1
  (npc0, sr0)

/-- Completes the instruction at the pc without a transfer of control: `INSTRET` and the loop-end step (R30, R92). -/
def Hart.retire (h : Hart) : Hart :=
  let (npc, sr) := loopEnd h.pc h.sr
  { h with prevPc := h.pc, pc := npc, sr := { sr with instret := sr.instret + 1 }, wait := none, mid := false }
/-- Completes it with a transfer of control. -/
def Hart.retireTo (h : Hart) (target : BitVec 55) : Hart :=
  { h with prevPc := h.pc, pc := target, sr := { h.sr with instret := h.sr.instret + 1 }, wait := none, mid := false }

/-- How an instruction issues: on which sequencer, its decode checks that read state (R69 step 6 and R29), further
registers it waits for, its destinations besides D and its sources besides A, B, C, the guard and the mask (R24), whether it is
all-or-nothing (R17, R154), and what it does when its guard is true. A register of C is a source unless `writes` holds it. -/
structure Issue where
  eside : Bool := false
  illegal : State → Option Illegal := fun _ => none
  also : List Reg := []
  writes : List Reg := []
  reads : List Reg := []
  wholly : Bool := false
  resumesQ : Bool := false
  /-- Of an E-side instruction: a long-latency producer of a tile or an accumulator (R23), and whether it takes effect at its fork
  (R142). -/
  long : Bool := false
  atFork : Bool := false
  body : State → Res

/-- The queue-occupancy checks of R27 at decode. `resumesQ` holds for a load that continues into the entry it pushed. -/
def queueCheck (h : Hart) (f : Fields) (resumes : Bool) : Option Illegal :=
  let full : Option Illegal := match f.d with
    | .q n => if (h.q[n]).length ≥ 4 && !resumes then some ⟨0x0B, 3, 0⟩ else none
    | _ => none
  let under (r : Reg) (field : BitVec 4) : Option Illegal := match r with
    | .q n => if (h.q[n]).isEmpty then some ⟨0x0C, field, 0⟩ else none
    | _ => none
  full <|> under f.a 4 <|> under f.b 5 <|> under f.c 6

/-- REG_EMPTY (R24): the code of the first empty trapping source in the order A, B, C. -/
def regEmpty (h : Hart) (f : Fields) : Option Reg :=
  if f.ta && h.unready f.a then some f.a
  else if f.tb && h.unready f.b then some f.b
  else if f.tc && h.unready f.c then some f.c
  else none

/-- The registers an instruction waits for: named sources, destination, guard, mask, and those its entry adds. -/
def waitsFor (f : Fields) (also : List Reg) : List Reg :=
  let d := match f.d with
    | .q _ => []
    | r => [r]
  d ++ [f.a, f.b, f.c, .p f.g] ++ (if f.men then [.k f.k] else []) ++ also

/-- The head entry of each queue that is a source. -/
def sourceHeads (h : Hart) (f : Fields) : List (Fin 4 × QEntry) :=
  [f.a, f.b, f.c].filterMap fun r => match r with
    | .q n => (h.q[n]).head?.map fun e => (n, e)
    | _ => none
/-- Removes the head entry of each queue that is a source (R26); an instruction that has left an access in flight notes them. -/
def popQueues (h : Hart) (f : Fields) : Hart :=
  let h := { h with undo := h.undo.map fun u => { u with heads := sourceHeads h f } }
  let pop (h : Hart) (r : Reg) : Hart := match r with
    | .q n => { h with q := h.q.set n (h.q[n]).tail }
    | _ => h
  pop (pop (pop h f.a) f.b) f.c

/-- The shape an instruction sees at its own place (R21, R152). -/
def Hart.shape (h : Hart) : Shape := ⟨h.sr.vtype, h.sr.vl, h.sr.vr, h.sr.rowlen, h.sr.frm⟩

/-- Pushes an entry onto a queue (R26). -/
def Hart.pushQ (h : Hart) (n : Fin 4) (filled : Bool) (t : Tile) : Hart :=
  { h with q := h.q.set n (h.q[n] ++ [⟨h.seq, filled, t, h.shape, none, h.pc⟩]), seq := h.seq + 1 }

/-- The guard (R62). -/
def Hart.guard (h : Hart) (f : Fields) : Bool := h.getP f.g != f.gn

/-- Which file a failing register belongs to (R345, HART_CHECK). -/
def checkFile : Reg → Nat
  | .x _ | .p _ => 1
  | .v _ | .k _ | .s _ => 2
  | .ma _ => 3
  | .q _ => 4

/-- The sources A, B and C, and every register an instruction reads: those, the guard, the mask, and what its entry adds. A merging form
reads its destination where a mask may keep elements of it (R24). -/
def Issue.sources (o : Issue) (f : Fields) : List Reg :=
  (f.a :: f.b :: if o.writes.contains f.c then [] else [f.c]).filter fun r => !isFixed r
def Issue.allReads (o : Issue) (f : Fields) : List Reg :=
  (o.sources f ++ [Reg.p f.g] ++ (if f.men then [Reg.k f.k] else []) ++ o.reads).filter fun r => !isFixed r
/-- The scalar sources of an E-side instruction, which it reads at its fork (R108). -/
def Issue.scalars (o : Issue) (f : Fields) : List Reg := (o.sources f ++ o.reads).filter isScalar
/-- The destinations of an instruction. -/
def Issue.dests (o : Issue) (f : Fields) : List Reg := (f.d :: o.writes).filter fun r => !isFixed r
/-- D as a source of a masked tile or mask destination (R16, R24). -/
def mergeReads (f : Fields) : List Reg := if f.men && !isScalar f.d && !f.d.isQ then [f.d] else []

/-- The first register an instruction reads whose parity check fails (R345). -/
def parityFails (h : Hart) (f : Fields) (o : Issue) : Option Reg := (o.allReads f).find? h.struck.contains

/-- Takes a cause at the instruction; an all-or-nothing instruction also clears `VSTART`, except for DATA_ERROR
(R17). No level holds a fault (R342). -/
def trapOf (s : State) (wholly : Bool) (cause : Nat) (eval : Word) (eidx : Nat) : State :=
  let s := if wholly && decide (cause ≠ cDATA) then s.modSr fun r => { r with vstart := 0 } else s
  let s := if cause = cLOAD ∨ cause = cSTORE then s.forgetRun s.hart.place eval.toNat else s
  s.trap cause eval eidx

/-- The harts bound on a core whose E-queues are not empty (R325). -/
def State.queued (s : State) (c : CorePlace) : List Hart :=
  s.harts.filter fun h => h.bound && h.core == c && h.equeue != 0
/-- The pass value of a hart slot, which it keeps from hart to hart (R325). -/
def State.passOf (s : State) (p : Place) : Nat := ((s.passes.find? (·.1 == p)).map (·.2)).getD 0
def State.setPass (s : State) (p : Place) (n : Nat) : State := { s with passes := (p, n) :: s.passes.filter (·.1 != p) }
/-- The addition to a slot's pass for each of a hart's entries that a lane group takes (R325). -/
def Hart.share (h : Hart) : Nat := 0x10000 / Nat.max 1 (bitsAt h.sr.wshare.toNat 0 4)
/-- The entries left in the E-queue of hart `n` are bound to lane groups, one choice of the arbiter for each (R325). -/
def State.bindRest (s : State) (n : Nat) : State :=
  let h := s.hartAt n
  if h.equeue = 0 then s
  else (s.modHartAt n fun h => { h with equeue := 0 }).setPass h.place (s.passOf h.place + h.equeue * h.share)
/-- Counts the fork of an E-side instruction (R19): a queue that becomes non-empty raises its slot's pass to the least pass of its
core's other queues (R325). -/
def State.fork (s : State) : State :=
  let h := s.hart
  let s' := s.modHart fun h => { h with equeue := h.equeue + 1, seq := h.seq + 1 }
  if h.equeue ≠ 0 then s'
  else match (s.queued h.core).map fun x => s.passOf x.place with
    | [] => s'
    | p :: r => s'.setPass h.place (Nat.max (s.passOf h.place) (r.foldl Nat.min p))
/-- The entries of an E-queue; a full one stalls the A-side (R19). -/
abbrev queueSize : Nat := 16

/-- Leaves a forked instruction in the E-queue, its source entries popped (R19, R26). -/
def waitInQueue (f : Fields) (o : Issue) (s : State) : State :=
  let h := s.hart
  match h.decoded with
  | none => s
  | some i =>
      let carried := (o.scalars f).map fun r => match r with
        | .p n => (r, RegVal.bit (h.getP n))
        | _ => (r, RegVal.word (h.xr r))
      let reads := (o.allReads f).filter fun r => !(o.scalars f).contains r
      let writes := o.dests f
      let heads := sourceHeads h f
      let bad := (o.scalars f).filter h.struck.contains
      s.fork.modHart fun h =>
        let h := (popQueues h f).retire
        { h with waiting := h.waiting ++ [⟨i, h.prevPc, h.shape, h.acfgDec, carried, heads, reads, writes, o.long, bad⟩] }

/-- Finishes a body's answer. -/
def finish (f : Fields) (o : Issue) (r : Res) : State :=
  match r with
  | .done s => (if o.eside then s.fork else s).modHart fun h => (popQueues h f).retire
  | .jump s t => s.modHart fun h => (popQueues h f).retireTo t
  | .trap s c e i => trapOf s o.wholly c e i
  | .wait s => if o.eside then waitInQueue f o s else s
  | .other s => s

/-- An instruction whose guard is false (R62): nothing but `INSTRET` and the loop-end step, a filled zero entry for a
queue destination, and the entries it would have read, which its decode counted (R26, R27). -/
def guardFalse (f : Fields) (s : State) : State :=
  s.modHart fun h =>
    let h := popQueues h f
    let h := match f.d with
      | .q n => h.pushQ n true 0
      | _ => h
    h.retire

/-- HART_CHECK (R345): its value, after the error has been counted, a test begun and the context marked for its restart (R394, R395, R397). The manual does not say which unit a
register's storage reports as, and the model takes the first lane group of its core (DESIGN CHOICE, log 42). -/
def State.hartCheck (s : State) (r : Reg) : State × Word :=
  (((s.countUncorr s.hart.place.die s.hart.place.die).beginTest (.laneGroup s.hart.core 0)).modCtx s.hart.ctx (fun c => { c with broken := true }),
    BitVec.ofNat 64 (checkFile r))

/-- HART_CHECK of the instruction at the pc. -/
def checkTrap (o : Issue) (r : Reg) (s : State) : State := trapOf (s.hartCheck r).1 o.wholly cHARTCHECK (s.hartCheck r).2 0
/-- Runs the body of an instruction whose checks have passed and whose registers are full. The guard is read first, and where it is false
nothing else is read (R62). -/
def runBody (f : Fields) (o : Issue) (s : State) : State :=
  if s.hart.struck.contains (.p f.g) then checkTrap o (.p f.g) s
  else if !s.hart.guard f then guardFalse f (if o.eside then s.fork else s)
  else match parityFails s.hart f o with
    | some r => checkTrap o r s
    | none => finish f o (o.body s)

/-- Goes on from the checks of an A-side instruction: it waits for its registers, whatever its guard, then has its effect (R24, R25; DESIGN
CHOICE, log 54: R62 does not say that a false guard waits for less). -/
def runA (f : Fields) (o : Issue) (s : State) : State :=
  let regs := (waitsFor f o.also).filter fun r => !isFixed r
  let s := regs.foldl (fun s r => s.settle s.cur r) s
  if regs.any s.hart.unready || s.hart.hazard regs (o.dests f) || (o.eside && decide (queueSize ≤ s.hart.equeue)) then s
  else runBody f o s
/-- Goes on from the checks of an E-side instruction: it waits for its scalar sources and forks. It has its effect there if
nothing is in its way, and otherwise when it reaches the head of its queue (R19, R25, R108). -/
def runFork (f : Fields) (o : Issue) (s : State) : State :=
  let regs := waitsFor f o.also
  let s := regs.foldl (fun s r => s.settle s.cur r) s
  if (o.scalars f).any s.hart.unready ∨ queueSize ≤ s.hart.equeue then s
  else if s.hart.waiting.isEmpty && !regs.any s.hart.isEmpty then runBody f o s
  else waitInQueue f o s
/-- An E-side instruction at the head of its queue: its effect, once its registers are full. -/
def runHead (f : Fields) (o : Issue) (s : State) : State :=
  let done (s : State) : State := s.modHart fun h => { h with onE := false }
  let regs := (waitsFor f o.also).filter fun r => !(o.scalars f).contains r
  let s := regs.foldl (fun s r => s.settle s.cur r) s
  if regs.any s.hart.isEmpty then s
  else if !s.hart.guard f then done s
  else match o.body s with
    | .done s => done s
    | .wait s => s
    | .jump s _ | .trap s _ _ _ | .other s => done s

/-- The path of an instruction from decode to completion (R69, R24, R62): the decode checks that read state, queue
occupancy, REG_EMPTY, the waits, the guard, then its effect. -/
def issue (f : Fields) (o : Issue) (s : State) : Host.Outcome State Fault Refusal :=
  if s.hart.onE then .next (runHead f o s)
  else match o.illegal s with
  | some e => .next (trapOf s o.wholly cILLEGAL e.eval 0)
  | none =>
  match queueCheck s.hart f o.resumesQ with
  | some e => .next (trapOf s o.wholly cILLEGAL e.eval 0)
  | none =>
  match regEmpty s.hart f with
  | some r => .next (trapOf s o.wholly cREGEMPTY (r.code.setWidth 64) 0)
  | none => .next (if o.eside && !o.atFork then runFork f o s else runA f o s)

/-! The head of an E-queue that could not start at its fork. -/

/-- What the E-side of the current hart finds at its step: nothing, a register whose parity check fails (R22, R345), or an
instruction to run in the given state. -/
inductive Head where
  | none
  | struck (s : State)
  | run (i : Instr) (s : State)

/-- The hart as the entry at the head of its queue sees it: the snapshot, its scalar sources, the queue entries it has popped. -/
def Hart.enter (h : Hart) (e : EEntry) (rest : List EEntry) : Hart :=
  let h := { e.carried.foldl (fun (h : Hart) c => h.put c.1 c.2) h with struck := h.struck }
  { h with
    onE := true, waiting := rest, acfgDec := e.acfg, undo := none
    q := e.heads.foldl (fun (q : Vector (List QEntry) 4) x => q.set x.1 (x.2 :: q[x.1])) h.q
    sr := { h.sr with vtype := e.shape.vtype, vl := e.shape.vl, vr := e.shape.vr, rowlen := e.shape.rowlen, frm := e.shape.frm } }
/-- The register of an entry whose parity check fails as it executes: its guard, and where that holds, a register it reads now or a scalar
source that its fork read (R62, R345). -/
def EEntry.fails (e : EEntry) (h : Hart) : Option Reg :=
  match e.instr.parts with
  | none => none
  | some (_, f) =>
    if h.struck.contains (.p f.g) then some (.p f.g)
    else if !h.guard f then none
    else (e.reads.find? h.struck.contains) <|> e.bad.head?
/-- The head of the current hart's queue. A check that fails while the hart drains to be saved ends its save (R345). An entry that raises HART_CHECK has trapped and is taken out of `INSTRET` again (R30). -/
def State.head (s : State) : Head :=
  let h := s.hart
  match h.waiting with
  | [] => .none
  | e :: rest =>
    if !h.bound then .none
    else match e.fails h with
      | some r =>
        let saving := s.takesSave s.cur
        .struck ((s.modHart fun h =>
          { h with
            waiting := rest, stalled := none, sr := { h.sr with instret := h.sr.instret - 1 }
            preempt := if saving then none else h.preempt, dcause := if saving then none else h.dcause }).hartCheck r |> fun x =>
          x.1.trapAt s.cur e.pc cHARTCHECK x.2 0)
      | none => .run e.instr (s.modHart fun h => h.enter e rest)
/-- The state after the head has run in `t`: what the A-side holds is as it was. A head that could not start stays. -/
def State.leaveHead (s t : State) : State :=
  let h := s.hart
  match h.waiting with
  | [] => t
  | e :: _ =>
    if t.hart.onE then s.modHart fun h => { h with stalled := t.hart.stalled }
    else t.modHart fun x =>
      let x := { (e.carried.filter fun c => !e.writes.contains c.1).foldl (fun (x : Hart) c => match c.1 with
        | .x n => x.put c.1 (.word (h.getX n))
        | .p n => x.put c.1 (.bit (h.getP n))
        | _ => x) x with struck := x.struck }
      { x with
        acfgDec := h.acfgDec
        q := e.heads.foldl (fun (q : Vector (List QEntry) 4) y => q.set y.1 (q[y.1]).tail) x.q
        sr := { x.sr with vtype := h.sr.vtype, vl := h.sr.vl, vr := h.sr.vr, rowlen := h.sr.rowlen, frm := h.sr.frm } }

/-- An A-side instruction with no decode check of its own. -/
def aside (f : Fields) (body : State → Res) (s : State) : Host.Outcome State Fault Refusal :=
  issue f { body := body } s

end Sys2Proof.Machine
end

