-- ==== Sys2Proof/Machine/ScalarInt.lean ====
section
/-! DEFINITION. Scalar integer instructions (R83, R84) and predicate instructions (R89). -/
namespace Sys2Proof.Machine

/-- What a meaning answers. -/
abbrev Out := Host.Outcome State Fault Refusal

/-- The immediate of R61 as a 64-bit operand. -/
def immX (f : Fields) : Word := f.imm.signExtend 64
/-- Source B: the register, or the sign-extended immediate. -/
def srcB (imm : Bool) (h : Hart) (f : Fields) : Word := if imm then immX f else h.xr f.b

/-- A scalar instruction that writes D at completion (R81). -/
def alu (f : Fields) (imm : Bool) (op : Word → Word → Word) (s : State) : Out :=
  aside f (fun s => .done (s.modHart fun h => h.put f.d (asScalar f.d (op (h.xr f.a) (srcB imm h f))))) s

/-- A scalar long-latency producer (R23). -/
def aluLong (f : Fields) (imm : Bool) (op : Word → Word → Word) (s : State) : Out :=
  aside f (fun s => .done (s.modHart fun h => h.produce f.d (.word (op (h.xr f.a) (srcB imm h f))))) s

/-- The high half of the signed and of the unsigned product. -/
def mulHigh (a b : Word) : Word := BitVec.ofInt 64 (a.toInt * b.toInt / 2 ^ 64)
def mulHighU (a b : Word) : Word := BitVec.ofNat 64 (a.toNat * b.toNat / 2 ^ 64)
/-- Division and remainder (R84). -/
def divS (a b : Word) : Word :=
  if b = 0 then 0xFFFFFFFFFFFFFFFF else BitVec.ofInt 64 (a.toInt.tdiv b.toInt)
def remS (a b : Word) : Word :=
  if b = 0 then a else BitVec.ofInt 64 (a.toInt - b.toInt * a.toInt.tdiv b.toInt)
def divU (a b : Word) : Word := if b = 0 then 0xFFFFFFFFFFFFFFFF else BitVec.ofNat 64 (a.toNat / b.toNat)
def remU (a b : Word) : Word := if b = 0 then a else BitVec.ofNat 64 (a.toNat % b.toNat)
/-- The shift amount (R84). -/
def sh (b : Word) : Nat := b.toNat % 64
def rolW (a b : Word) : Word := (a <<< sh b) ||| (a >>> (64 - sh b))
/-- Extension of the low n bits; n = 0 gives the operand (R84). -/
def sextN (a b : Word) : Word :=
  if sh b = 0 then a else BitVec.ofInt 64 (intOf (sh b) true (a.toNat % 2 ^ sh b))
def zextN (a b : Word) : Word := if sh b = 0 then a else BitVec.ofNat 64 (a.toNat % 2 ^ sh b)
/-- A truth value as a scalar. -/
def truth (b : Bool) : Word := if b then 1 else 0
/-- Leading zeros, trailing zeros, count of ones; 64 for zero. -/
def clzW (a : Word) : Word := BitVec.ofNat 64 (64 - bitLen a.toNat)
def ctzN (n : Nat) : Nat → Nat
  | 0 => 0
  | k + 1 => if n % 2 = 1 then 0 else 1 + ctzN (n / 2) k
def ctzW (a : Word) : Word := BitVec.ofNat 64 (ctzN a.toNat 64)
def popN (n : Nat) : Nat → Nat
  | 0 => 0
  | k + 1 => n % 2 + popN (n / 2) k
def popcW (a : Word) : Word := BitVec.ofNat 64 (popN a.toNat 64)

/-- `add` (R83). -/
def execAdd (f : Fields) (s : State) : Out := alu f false (· + ·) s
/-- `add`, immediate form (R83). -/
def execAddI (f : Fields) (s : State) : Out := alu f true (· + ·) s

/-- `sub` (R83). -/
def execSub (f : Fields) (s : State) : Out := alu f false (· - ·) s
/-- `sub`, immediate form (R83). -/
def execSubI (f : Fields) (s : State) : Out := alu f true (· - ·) s

/-- `mul` (R83). -/
def execMul (f : Fields) (s : State) : Out := alu f false (· * ·) s
/-- `mul`, immediate form (R83). -/
def execMulI (f : Fields) (s : State) : Out := alu f true (· * ·) s

/-- `mulh` (R83). -/
def execMulh (f : Fields) (s : State) : Out := alu f false mulHigh s
/-- `mulh`, immediate form (R83). -/
def execMulhI (f : Fields) (s : State) : Out := alu f true mulHigh s

/-- `mulhu` (R83). -/
def execMulhu (f : Fields) (s : State) : Out := alu f false mulHighU s
/-- `mulhu`, immediate form (R83). -/
def execMulhuI (f : Fields) (s : State) : Out := alu f true mulHighU s

/-- `and` (R83). -/
def execAnd (f : Fields) (s : State) : Out := alu f false (· &&& ·) s
/-- `and`, immediate form (R83). -/
def execAndI (f : Fields) (s : State) : Out := alu f true (· &&& ·) s

/-- `or` (R83). -/
def execOr (f : Fields) (s : State) : Out := alu f false (· ||| ·) s
/-- `or`, immediate form (R83). -/
def execOrI (f : Fields) (s : State) : Out := alu f true (· ||| ·) s

/-- `xor` (R83). -/
def execXor (f : Fields) (s : State) : Out := alu f false (· ^^^ ·) s
/-- `xor`, immediate form (R83). -/
def execXorI (f : Fields) (s : State) : Out := alu f true (· ^^^ ·) s

/-- `andn` (R83). -/
def execAndn (f : Fields) (s : State) : Out := alu f false (fun a b => a &&& ~~~ b) s
/-- `andn`, immediate form (R83). -/
def execAndnI (f : Fields) (s : State) : Out := alu f true (fun a b => a &&& ~~~ b) s

/-- `sll` (R84). -/
def execSll (f : Fields) (s : State) : Out := alu f false (fun a b => a <<< sh b) s
/-- `sll`, immediate form (R84). -/
def execSllI (f : Fields) (s : State) : Out := alu f true (fun a b => a <<< sh b) s

/-- `srl` (R84). -/
def execSrl (f : Fields) (s : State) : Out := alu f false (fun a b => a >>> sh b) s
/-- `srl`, immediate form (R84). -/
def execSrlI (f : Fields) (s : State) : Out := alu f true (fun a b => a >>> sh b) s

/-- `sra` (R84). -/
def execSra (f : Fields) (s : State) : Out := alu f false (fun a b => a.sshiftRight (sh b)) s
/-- `sra`, immediate form (R84). -/
def execSraI (f : Fields) (s : State) : Out := alu f true (fun a b => a.sshiftRight (sh b)) s

/-- `rol` (R84). -/
def execRol (f : Fields) (s : State) : Out := alu f false rolW s
/-- `rol`, immediate form (R84). -/
def execRolI (f : Fields) (s : State) : Out := alu f true rolW s

/-- `slt` (R83). -/
def execSlt (f : Fields) (s : State) : Out := alu f false (fun a b => truth (a.slt b)) s
/-- `slt`, immediate form (R83). -/
def execSltI (f : Fields) (s : State) : Out := alu f true (fun a b => truth (a.slt b)) s

/-- `sltu` (R83). -/
def execSltu (f : Fields) (s : State) : Out := alu f false (fun a b => truth (a.ult b)) s
/-- `sltu`, immediate form (R83). -/
def execSltuI (f : Fields) (s : State) : Out := alu f true (fun a b => truth (a.ult b)) s

/-- `min` (R83). -/
def execMin (f : Fields) (s : State) : Out := alu f false (fun a b => if b.slt a then b else a) s
/-- `min`, immediate form (R83). -/
def execMinI (f : Fields) (s : State) : Out := alu f true (fun a b => if b.slt a then b else a) s

/-- `max` (R83). -/
def execMax (f : Fields) (s : State) : Out := alu f false (fun a b => if a.slt b then b else a) s
/-- `max`, immediate form (R83). -/
def execMaxI (f : Fields) (s : State) : Out := alu f true (fun a b => if a.slt b then b else a) s

/-- `minu` (R83). -/
def execMinu (f : Fields) (s : State) : Out := alu f false (fun a b => if b.ult a then b else a) s
/-- `minu`, immediate form (R83). -/
def execMinuI (f : Fields) (s : State) : Out := alu f true (fun a b => if b.ult a then b else a) s

/-- `maxu` (R83). -/
def execMaxu (f : Fields) (s : State) : Out := alu f false (fun a b => if a.ult b then b else a) s
/-- `maxu`, immediate form (R83). -/
def execMaxuI (f : Fields) (s : State) : Out := alu f true (fun a b => if a.ult b then b else a) s

/-- `sext` (R84). -/
def execSext (f : Fields) (s : State) : Out := alu f false sextN s
/-- `sext`, immediate form (R84). -/
def execSextI (f : Fields) (s : State) : Out := alu f true sextN s

/-- `zext` (R84). -/
def execZext (f : Fields) (s : State) : Out := alu f false zextN s
/-- `zext`, immediate form (R84). -/
def execZextI (f : Fields) (s : State) : Out := alu f true zextN s

/-- `div` (R84). -/
def execDiv (f : Fields) (s : State) : Out := aluLong f false divS s
/-- `div`, immediate form (R84). -/
def execDivI (f : Fields) (s : State) : Out := aluLong f true divS s

/-- `divu` (R84). -/
def execDivu (f : Fields) (s : State) : Out := aluLong f false divU s
/-- `divu`, immediate form (R84). -/
def execDivuI (f : Fields) (s : State) : Out := aluLong f true divU s

/-- `rem` (R84). -/
def execRem (f : Fields) (s : State) : Out := aluLong f false remS s
/-- `rem`, immediate form (R84). -/
def execRemI (f : Fields) (s : State) : Out := aluLong f true remS s

/-- `remu` (R84). -/
def execRemu (f : Fields) (s : State) : Out := aluLong f false remU s
/-- `remu`, immediate form (R84). -/
def execRemuI (f : Fields) (s : State) : Out := aluLong f true remU s

/-- `clz` (R83). -/
def execClz (f : Fields) (s : State) : Out := alu f false (fun a _ => clzW a) s
/-- `ctz` (R83). -/
def execCtz (f : Fields) (s : State) : Out := alu f false (fun a _ => ctzW a) s
/-- `popc` (R83). -/
def execPopc (f : Fields) (s : State) : Out := alu f false (fun a _ => popcW a) s
/-- `li`: the immediate sign-extended (R83). -/
def execLi (f : Fields) (s : State) : Out := alu f true (fun _ b => b) s
/-- `lih`: IMM × 2^32 + a[31:0] (R83). -/
def execLih (f : Fields) (s : State) : Out :=
  alu f true (fun a _ => (f.imm.setWidth 64 <<< 32) ||| (a.setWidth 32).setWidth 64) s
/-- `sel`: a when p(C) is true, else b (R83). -/
def execSel (f : Fields) (s : State) : Out :=
  aside f (fun s => .done (s.modHart fun h =>
    h.put f.d (.word (if h.pr f.c then h.xr f.a else h.xr f.b)))) s

/-! Predicates (R89). -/

/-- A comparison of scalars into a predicate. -/
def pcmp (f : Fields) (imm : Bool) (op : Word → Word → Bool) (s : State) : Out :=
  aside f (fun s => .done (s.modHart fun h => h.put f.d (.bit (op (h.xr f.a) (srcB imm h f))))) s
/-- A predicate from two predicates. -/
def plog (f : Fields) (op : Bool → Bool → Bool) (s : State) : Out :=
  aside f (fun s => .done (s.modHart fun h => h.put f.d (.bit (op (h.pr f.a) (h.pr f.b))))) s

/-- `pcmp.eq` (R89). -/
def execPcmpEq (f : Fields) (s : State) : Out := pcmp f false (· == ·) s
/-- `pcmp.eq`, immediate form (R89). -/
def execPcmpEqI (f : Fields) (s : State) : Out := pcmp f true (· == ·) s

/-- `pcmp.ne` (R89). -/
def execPcmpNe (f : Fields) (s : State) : Out := pcmp f false (· != ·) s
/-- `pcmp.ne`, immediate form (R89). -/
def execPcmpNeI (f : Fields) (s : State) : Out := pcmp f true (· != ·) s

/-- `pcmp.lt` (R89). -/
def execPcmpLt (f : Fields) (s : State) : Out := pcmp f false BitVec.slt s
/-- `pcmp.lt`, immediate form (R89). -/
def execPcmpLtI (f : Fields) (s : State) : Out := pcmp f true BitVec.slt s

/-- `pcmp.ge` (R89). -/
def execPcmpGe (f : Fields) (s : State) : Out := pcmp f false (fun a b => !a.slt b) s
/-- `pcmp.ge`, immediate form (R89). -/
def execPcmpGeI (f : Fields) (s : State) : Out := pcmp f true (fun a b => !a.slt b) s

/-- `pcmp.ltu` (R89). -/
def execPcmpLtu (f : Fields) (s : State) : Out := pcmp f false BitVec.ult s
/-- `pcmp.ltu`, immediate form (R89). -/
def execPcmpLtuI (f : Fields) (s : State) : Out := pcmp f true BitVec.ult s

/-- `pcmp.geu` (R89). -/
def execPcmpGeu (f : Fields) (s : State) : Out := pcmp f false (fun a b => !a.ult b) s
/-- `pcmp.geu`, immediate form (R89). -/
def execPcmpGeuI (f : Fields) (s : State) : Out := pcmp f true (fun a b => !a.ult b) s

/-- `plog.and` (R89). -/
def execPlogAnd (f : Fields) (s : State) : Out := plog f (· && ·) s

/-- `plog.or` (R89). -/
def execPlogOr (f : Fields) (s : State) : Out := plog f (· || ·) s

/-- `plog.xor` (R89). -/
def execPlogXor (f : Fields) (s : State) : Out := plog f (fun a b => a != b) s

/-- `plog.andn` (R89). -/
def execPlogAndn (f : Fields) (s : State) : Out := plog f (fun a b => a && !b) s

/-- `pmov pD, pA` (R89). -/
def execPmov (f : Fields) (s : State) : Out :=
  aside f (fun s => .done (s.modHart fun h => h.put f.d (.bit (h.pr f.a)))) s
/-- `pmov pD, xA`: whether x[A] is not zero (R89). -/
def execPmovPx (f : Fields) (s : State) : Out :=
  aside f (fun s => .done (s.modHart fun h => h.put f.d (.bit (h.xr f.a != 0)))) s
/-- `pmov xD, pA` (R89). -/
def execPmovXp (f : Fields) (s : State) : Out :=
  aside f (fun s => .done (s.modHart fun h => h.put f.d (.word (truth (h.pr f.a))))) s

/-- Every predicate but p0, as registers. -/
def allPreds : List Reg := (List.finRange 16).tail.map Reg.p
/-- The predicates packed into a word, p0 in bit 0, which is always 1 (R89). -/
def Hart.packP (h : Hart) : Nat := (List.finRange 16).foldl (fun n i => n + if h.getP i then 2 ^ i.val else 0) 0
/-- `pmov.pk`: packs the predicates (R89). -/
def execPmovPk (f : Fields) (s : State) : Out :=
  issue f { also := allPreds, reads := allPreds
            body := fun s => .done (s.modHart fun h => h.put f.d (.word (BitVec.ofNat 64 h.packP))) } s
/-- `pmov.upk`: p1 to p15 from x[A] (R89). -/
def execPmovUpk (f : Fields) (s : State) : Out :=
  issue f { also := allPreds, writes := allPreds
            body := fun s => .done (s.modHart fun h =>
              let w := h.xr f.a
              (List.finRange 16).foldl (fun h i => h.put (.p i) (.bit (w.getLsbD i.val))) h) } s

end Sys2Proof.Machine
end

