-- ==== Sys2Proof/Machine/ScalarFp.lean ====
section
/-! DEFINITION. Scalar floating-point instructions (R85-R88). -/
namespace Sys2Proof.Machine

/-- The format `FT` = FN[7:6] names (R85). -/
def ftOf (f : Fields) : FpFmt :=
  match f.fn.toNat / 64 with
  | 0 => .f64
  | 1 => .f32
  | 2 => .f16
  | _ => .bf16
/-- The rounding mode of `RM` in IMM[10:8] (R85, R42). -/
def rmOf (f : Fields) (frm : Nat) : Rm := Rm.ofField (bitsAt f.imm.toNat 8 3) frm
def Hart.rm (h : Hart) (f : Fields) : Rm := rmOf f h.sr.frm.toNat
/-- An operand's bits at a width. -/
def Hart.fbits (h : Hart) (fmt : FpFmt) (r : Reg) : Nat := (h.xr r).toNat % 2 ^ fmt.width
/-- ORs flags into `FFLAGS` (R44). -/
def Hart.flag (h : Hart) (fl : Flags) : Hart := { h with sr := { h.sr with fflags := h.sr.fflags ||| fl.setWidth 64 } }

/-- A scalar FP instruction: its result and flags from the operands' bits. -/
def fpOp (f : Fields) (op : FpFmt → Rm → Nat → Nat → Nat → Nat × Flags) (long : Bool) (s : State) : Out :=
  aside f (fun s => .done (s.modHart fun h =>
    let fmt := ftOf f
    let r := op fmt (h.rm f) (h.fbits fmt f.a) (h.fbits fmt f.b) (h.fbits fmt f.c)
    let h := h.flag r.2
    if long then h.produce f.d (asScalar f.d (BitVec.ofNat 64 r.1))
    else h.put f.d (asScalar f.d (BitVec.ofNat 64 r.1)))) s

/-- `fadd` (R85). -/
def execFadd (f : Fields) (s : State) : Out :=
  fpOp f (fun t m a b _ => fpAdd t m (t.decode a) (t.decode b)) false s
/-- `fsub` (R85). -/
def execFsub (f : Fields) (s : State) : Out :=
  fpOp f (fun t m a b _ => fpAdd t m (t.decode a) (t.decode b).neg) false s
/-- `fmul` (R85). -/
def execFmul (f : Fields) (s : State) : Out :=
  fpOp f (fun t m a b _ => fpMul t m (t.decode a) (t.decode b)) false s
/-- `fma`: one rounding (R85). -/
def execFma (f : Fields) (s : State) : Out :=
  fpOp f (fun t m a b c => fpFma t m (t.decode a) (t.decode b) (t.decode c)) false s
/-- `fdiv` (R85). -/
def execFdiv (f : Fields) (s : State) : Out :=
  fpOp f (fun t m a b _ => fpDiv t m (t.decode a) (t.decode b)) true s
/-- `fsqrt` (R85). -/
def execFsqrt (f : Fields) (s : State) : Out := fpOp f (fun t m a _ _ => fpSqrt t m (t.decode a)) true s

/-- Whether a lies below b with -0 below +0 (R86). -/
def minBelow (a b : FVal) : Bool := fLt a b || (a.isZero && b.isZero && a.negative && !b.negative)
/-- `fmin` and `fmax` of bits (R86). -/
def fpMinMax (isMax : Bool) (t : FpFmt) (a b : Nat) : Nat × Flags :=
  let x := t.decode a
  let y := t.decode b
  let r :=
    if x.isNaN && y.isNaN then t.canonNaN
    else if x.isNaN then b
    else if y.isNaN then a
    else if isMax then (if minBelow x y then b else a)
    else (if minBelow y x then b else a)
  (r, snanFlag [x, y])
/-- `fmin` (R86). -/
def execFmin (f : Fields) (s : State) : Out := fpOp f (fun t _ a b _ => fpMinMax false t a b) false s
/-- `fmax` (R86). -/
def execFmax (f : Fields) (s : State) : Out := fpOp f (fun t _ a b _ => fpMinMax true t a b) false s

/-- The magnitude of a's bits with a given sign. -/
def withSign (t : FpFmt) (a : Nat) (neg : Bool) : Nat := a % 2 ^ (t.width - 1) + t.sign neg
def signOf (t : FpFmt) (a : Nat) : Bool := a.testBit (t.width - 1)
/-- `fsgn`: a with the sign of b (R85). -/
def execFsgn (f : Fields) (s : State) : Out := fpOp f (fun t _ a b _ => (withSign t a (signOf t b), 0)) false s
/-- `fsgn.n` (R85). -/
def execFsgnN (f : Fields) (s : State) : Out := fpOp f (fun t _ a b _ => (withSign t a (!signOf t b), 0)) false s
/-- `fsgn.x` (R85). -/
def execFsgnX (f : Fields) (s : State) : Out :=
  fpOp f (fun t _ a b _ => (withSign t a (signOf t a != signOf t b), 0)) false s

/-- The class bits of R87 (Table 3). -/
def fpClass (t : FpFmt) (a : Nat) : Nat :=
  let c := match t.decode a with
    | .nan true => 0x20
    | .nan false => 0x10
    | .inf _ => 0x08
    | .fin _ m _ => if m = 0 then 0x01 else if m < 2 ^ t.fb then 0x02 else 0x04
  c + if signOf t a then 0x100 else 0
/-- `fclass` (R87). It reads its operand as a floating-point operand, so a signalling NaN sets `NV` (R36). -/
def execFclass (f : Fields) (s : State) : Out := fpOp f (fun t _ a _ _ => (fpClass t a, snanFlag [t.decode a])) false s

/-- The four comparisons (R87): 0 eq, 1 lt, 2 le, 3 un. -/
def fpCmp (k : Nat) (t : FpFmt) (a b : Nat) : Bool × Flags :=
  let x := t.decode a
  let y := t.decode b
  let nan := x.isNaN || y.isNaN
  match k with
  | 0 => (fEq x y, snanFlag [x, y])
  | 1 => (fLt x y, flagIf nan flNV)
  | 2 => (!nan && !fLt y x, flagIf nan flNV)
  | _ => (nan, snanFlag [x, y])
def fcmpOp (k : Nat) (f : Fields) (s : State) : Out :=
  fpOp f (fun t _ a b _ => let r := fpCmp k t a b; (if r.1 then 1 else 0, r.2)) false s
/-- `fcmp.eq` (R87). -/
def execFcmpEq (f : Fields) (s : State) : Out := fcmpOp 0 f s
/-- `fcmp.lt` (R87). -/
def execFcmpLt (f : Fields) (s : State) : Out := fcmpOp 1 f s
/-- `fcmp.le` (R87). -/
def execFcmpLe (f : Fields) (s : State) : Out := fcmpOp 2 f s
/-- `fcmp.un` (R87). -/
def execFcmpUn (f : Fields) (s : State) : Out := fcmpOp 3 f s

/-- The types of `fcvt` (R88, Table 4): a format, or an integer of a width. -/
inductive CvtType where
  | fp (t : FpFmt)
  | int (w : Nat) (sgn : Bool)
  deriving DecidableEq, Repr
def cvtType : Nat → CvtType
  | 0 => .fp .f64
  | 1 => .fp .f32
  | 2 => .fp .f16
  | 3 => .fp .bf16
  | 4 => .int 64 true
  | 5 => .int 64 false
  | 6 => .int 32 true
  | _ => .int 32 false
/-- A source's value. -/
def CvtType.read (t : CvtType) (w : Word) : FVal :=
  match t with
  | .fp f => f.decode (w.toNat % 2 ^ f.width)
  | .int n sgn => FVal.ofInt (intOf n sgn (w.toNat % 2 ^ n))
/-- The converted value as it enters D, and its flags (R88). -/
def CvtType.write (t : CvtType) (mode : Rm) (x : FVal) : Word × Flags :=
  match t with
  | .fp f => let r := round f mode x; (BitVec.ofNat 64 r.1, snanFlag [x] ||| r.2)
  | .int w sgn => let r := cvti w sgn mode x; (BitVec.ofInt 64 (intOf w sgn r.1), r.2)
/-- `fcvt` (R88). -/
def execFcvt (f : Fields) (s : State) : Out :=
  aside f (fun s => .done (s.modHart fun h =>
    let r := (cvtType (f.fn.toNat / 16)).write (h.rm f) ((cvtType (f.fn.toNat % 16)).read (h.xr f.a))
    (h.flag r.2).put f.d (.word r.1))) s

end Sys2Proof.Machine
end

