-- ==== Sys2Proof/Machine/Operands.lean ====
section
/-! DEFINITION. The operands of the instructions that sweep a tile: the shape of R12-R16, elements and their values
(R33-R41), source B with its modifier (R65, R108), the sweep of R109, and the decode checks of R107 and R120. -/
namespace Sys2Proof.Machine

/-- The shape of a tile, with the fields of `VTYPE` decoded (R12-R14, R21). -/
structure Geom where
  sew : Nat
  fmt : Nat
  bl : Nat
  ragged : Bool
  vl : Nat
  vr : Nat
  rowlen : Nat
  frm : Nat
  deriving DecidableEq, Repr

/-- `SEW` in bits, `FMT`, and the block length of a `VTYPE` (R12). -/
def vtSew (t : Word) : Nat := sewBits (bitsAt t.toNat 0 3)
def vtFmt (t : Word) : Nat := bitsAt t.toNat 4 5
def vtBl (t : Word) : Nat := blLen (bitsAt t.toNat 9 2)
/-- The shape registers as one shape. -/
def Shape.geom (s : Shape) : Geom :=
  { sew := vtSew s.vtype, fmt := vtFmt s.vtype, bl := vtBl s.vtype, ragged := s.vtype.getLsbD 11
    vl := s.vl.toNat, vr := s.vr.toNat, rowlen := s.rowlen.toNat, frm := s.frm.toNat }
def Hart.geom (h : Hart) : Geom := h.shape.geom

/-- `ROWLEN`[r], and the row length L(r) (R14). -/
def Geom.rl (g : Geom) (r : Nat) : Nat := bitsAt g.rowlen (8 * r) 8
def Geom.len (g : Geom) (r : Nat) : Nat := if g.ragged then Nat.min (g.rl r) g.vl else g.vl
/-- Whether a linear index is in the tile (R15). -/
def Geom.intile (g : Geom) (e : Nat) : Bool :=
  g.vl != 0 && decide (e / g.vl < g.vr) && decide (e % g.vl < g.len (e / g.vl))

/-- One element position: its row, its column, its linear index (R15). -/
structure Cell where
  r : Nat
  c : Nat
  e : Nat
  deriving DecidableEq, Repr

/-- The positions of a row and of the tile, in ascending linear index. -/
def Geom.row (g : Geom) (r : Nat) : List Cell := (List.range (g.len r)).map fun c => ⟨r, c, r * g.vl + c⟩
def Geom.cells (g : Geom) : List Cell := (List.range g.vr).flatMap g.row

/-- The bits of an element of width `w` at row r, column c of a tile's image. -/
def elemBits (t w r c : Nat) : Nat := bitsAt t (1024 * r + w * c) w
/-- A pass over some positions: each writes `w` bits at its offset, and raises flags; whether any was written. Values
are computed from operands read before the pass (R66). -/
def pass (cells : List Cell) (off : Cell → Nat) (w : Nat) (fn : Cell → Nat × Flags) (t : Nat) : Nat × Flags × Bool :=
  cells.foldl (fun acc p => let r := fn p; (putBits acc.1 (off p) w r.1, acc.2.1 ||| r.2, true)) (t, 0, false)
/-- Where an element of width `w` lies in a tile. -/
def tileOff (w : Nat) (p : Cell) : Nat := 1024 * p.r + w * p.c

/-- The mask bit of a linear index in register K, and activity (R15, R63). -/
def Hart.maskBit (h : Hart) (f : Fields) (e : Nat) : Bool := (h.k[f.k]).getLsbD e
def Hart.active (h : Hart) (f : Fields) (p : Cell) : Bool := !f.men || h.maskBit f p.e
/-- The active positions, ascending. -/
def Hart.activeCells (h : Hart) (f : Fields) (g : Geom) : List Cell := g.cells.filter (h.active f)

/-- The position of source B that position (r, c) reads under `XL` (R65, Table 3); none below column 0. -/
def xlPos (g : Geom) (xl r c : Nat) : Option (Nat × Nat) :=
  match xl with
  | 1 => some (r, c + 1)
  | 2 => if c = 0 then none else some (r, c - 1)
  | 3 => some (r, (c + 1) % g.len r)
  | 4 => some (r, (c + g.len r - 1) % g.len r)
  | 5 => some (r, 0)
  | 6 => some (0, c)
  | 7 => some (r, if c % 2 = 0 then c + 1 else c - 1)
  | _ => some (r, c)
/-- The bits source B delivers to position (r, c) from a tile under `XL`: zero outside the row (R65). -/
def xlRead (g : Geom) (xl t r c : Nat) : Nat :=
  match xlPos g xl r c with
  | none => 0
  | some (r', c') => if c' < g.len r' then elemBits t g.sew r' c' else 0

/-- Source B of an element-wise instruction (R61, R65, R108). -/
def Hart.elemB (h : Hart) (f : Fields) (imm : Bool) (g : Geom) (p : Cell) : Nat :=
  if imm then (f.imm.signExtend 64).toNat % 2 ^ g.sew
  else match f.b with
    | .x n => (h.getX n).toNat % 2 ^ g.sew
    | b => xlRead g f.xl.toNat (h.tr b).toNat p.r p.c

/-- Writes a tile register after a pass: nothing where no element was written (R104, R18). -/
def Hart.putTile (h : Hart) (r : Reg) (t : Nat) (any : Bool) : Hart :=
  if any then h.put r (.tile (BitVec.ofNat 8192 t)) else h
/-- ORs flags into `FFLAGS` (R44). -/
def Hart.raise (h : Hart) (fl : Flags) : Hart := { h with sr := { h.sr with fflags := h.sr.fflags ||| fl.setWidth 64 } }

/-! Formats. -/

def fmtINT : Nat := 0
def fmtUINT : Nat := 1
def fmtTERN2 : Nat := 7
/-- Whether a format is a signed integer, and whether it is an arithmetic FP format (R107). -/
def Geom.signed (g : Geom) : Bool := g.fmt == 0
def Geom.isInt (g : Geom) : Bool := g.fmt == 0 || g.fmt == 1
def Geom.isFp (g : Geom) : Bool := g.fmt == 2 || g.fmt == 3

/-- The floating-point format of a code and a width (R33). -/
def fpFmtOf (fmt sew : Nat) : FpFmt :=
  match fmt with
  | 3 => .bf16
  | 4 => .e4m3
  | 5 => .e5m2
  | 6 => .e2m1
  | _ => if sew = 16 then .f16 else if sew = 32 then .f32 else .f64
def Geom.fp (g : Geom) : FpFmt := fpFmtOf g.fmt g.sew
/-- The rounding mode of `RM` in IMM[10:8] under the snapshot's `FRM` (R42). -/
def Geom.rm (g : Geom) (f : Fields) : Rm := Rm.ofField (bitsAt f.imm.toNat 8 3) g.frm

/-- A code-table entry (R41). -/
def ctabEntry (r : SysRegs) (j : Nat) : Nat :=
  let w := match j / 4 with
    | 0 => r.ctab0
    | 1 => r.ctab1
    | 2 => r.ctab2
    | _ => r.ctab3
  bitsAt w.toNat (16 * (j % 4)) 16

/-- Applies a block scale (R37, R38): 0xFF makes a NaN. -/
def scaled (x : FVal) (e : Nat) : FVal := if e = 255 then .nan false else x.scale ((e : Int) - 127)
/-- The scale of block b of tile register number i (R39). -/
def scaleOf (t : Scale) (i b : Nat) : Nat := bitsAt t.toNat (8 * (32 * (i % 4) + b)) 8

/-- An element's own value and the flags of reading it (R34, R35, R38, R41). -/
def elemVal (r : SysRegs) (fmt sew bits : Nat) : FVal × Flags :=
  match fmt with
  | 0 => (FVal.ofInt (intOf sew true bits), 0)
  | 1 => (FVal.ofInt bits, 0)
  | 7 => if bits = 1 then (.fin false 1 0, 0) else if bits = 3 then (.fin true 1 0, 0)
         else (.fin false 0 0, flagIf (bits == 2) flTRES)
  | 8 => let v := FpFmt.bf16.decode (ctabEntry r bits); (v, snanFlag [v])
  | 9 => ((FVal.ofInt (intOf 8 true bits)).scale (-6), 0)
  | _ => ((fpFmtOf fmt sew).decode bits, 0)
/-- The value of an element of source A with its block scale (R38, R39). -/
def Hart.valA (h : Hart) (f : Fields) (g : Geom) (p : Cell) : FVal × Flags :=
  let v := elemVal h.sr g.fmt g.sew (elemBits (h.tr f.a).toNat g.sew p.r p.c)
  if g.bl = 0 then v else (scaled v.1 (scaleOf (h.scaleFor f.a) f.a.vNum (p.e / g.bl)), v.2)

/-- The scale register that serves a tile register (R39). -/
def scaleReg : Reg → List Reg
  | .v n => [.s ⟨n.val / 4, by omega⟩]
  | _ => []

/-! Decode checks that read the snapshot (R107, R120). -/

def badFmt : Option Illegal := some ⟨0x0A, 0, 0⟩
/-- R39: the tile needs more scales than belong to one register. -/
def Geom.tooManyBlocks (g : Geom) : Bool := g.bl != 0 && decide (g.vr * g.vl > 32 * g.bl)
/-- R39 for a form of any format whose operand is a register that may be a tile register. -/
def blocksFit (r : Reg) (g : Geom) : Option Illegal :=
  match r with
  | .v _ => if g.tooManyBlocks then badFmt else none
  | _ => none
/-- The check of an element-wise or permuting form: `XL` with a blocked B (R65), the admitted formats, `BL`, R39. -/
def fmtChk (f : Fields) (ok : Nat → Bool) (anyBl : Bool) (g : Geom) : Option Illegal :=
  if g.bl != 0 && f.xl != 0 then some ⟨0x07, 7, 0⟩
  else if !ok g.fmt || (!anyBl && g.bl != 0) then badFmt
  else if anyBl && g.tooManyBlocks then badFmt
  else none
def anyFmt (_ : Nat) : Bool := true
def intFmts (n : Nat) : Bool := n == 0 || n == 1
def fpFmts (n : Nat) : Bool := n == 2 || n == 3
def intFpFmts (n : Nat) : Bool := intFmts n || fpFmts n
def notTern (n : Nat) : Bool := n != 7

/-- An E-side instruction (R19, R107): its check, the registers it waits for beyond those it names, and what it does to
the hart under the shape of its fork. -/
def esideOp (long : Bool) (writes reads : List Reg) (f : Fields) (chk : Geom → Option Illegal) (also : Hart → List Reg)
    (body : Hart → Geom → Hart) (s : State) : Host.Outcome State Fault Refusal :=
  issue f { eside := true, long := long, writes := writes, reads := reads, illegal := fun s => chk s.hart.geom, also := also s.hart
            body := fun s => .done (s.modHart fun h => body h h.geom) } s
/-- One that writes D alone and is no long-latency producer of a tile. -/
def eside (f : Fields) (chk : Geom → Option Illegal) (also : Hart → List Reg) (body : Hart → Geom → Hart) (s : State) :
    Host.Outcome State Fault Refusal :=
  esideOp false [] (mergeReads f) f chk also body s
def noneAlso (_ : Hart) : List Reg := []

/-- The sweep of R109 over the active elements: `op` maps the bits of a, b, cc and old to the new bits and flags. -/
def sweepBody (f : Fields) (imm long : Bool) (op : Geom → Nat → Nat → Nat → Nat → Nat × Flags) (h : Hart) (g : Geom) :
    Hart :=
  let a := (h.tr f.a).toNat
  let c := (h.tr f.c).toNat
  let old := (h.tr f.d).toNat
  let r := pass (h.activeCells f g) (tileOff g.sew) g.sew
    (fun p => op g (elemBits a g.sew p.r p.c) (h.elemB f imm g p) (elemBits c g.sew p.r p.c)
      (elemBits old g.sew p.r p.c)) old
  let h := h.raise r.2.1
  if long && r.2.2 then h.produce f.d (.tile (BitVec.ofNat 8192 r.1)) else h.putTile f.d r.1 r.2.2

end Sys2Proof.Machine
end

