-- ==== Sys2Proof/Machine/Access.lean ====
section
/-! DEFINITION. Where a hart access may go and what it raises: the order of R153, the local windows (R178, R179), declared
buffers (R186-R192), the range scoreboard (R194), phased mode (R226) and the checks of deterministic mode (R292-R296). -/
namespace Sys2Proof.Machine

/-- What an access does to the race summary of its line (R293). -/
inductive RaceKind where
  | read
  | write
  | add
  deriving DecidableEq, Repr

/-- The answer of the checks of one access: where it is performed, the cause it raises, or a stall (R194, R395). -/
inductive Chk where
  | ok (pa : Nat) (window : Bool) (cls : Nat)
  | trap (cause eval : Nat)
  | stall
  deriving DecidableEq, Repr

/-- Whether an access kind writes. -/
def kindWrites : AccessKind → Bool
  | .store | .atomic => true
  | _ => false
/-- The page-fault cause of an access kind (R339). -/
def pageFaultOf : AccessKind → Nat
  | .fetch => cFETCH
  | .load => cLOAD
  | .store | .atomic => cSTORE

/-- Whether a domain physical address lies in some package's die-window range (R179). -/
def inDieWindow (pa : Nat) : Bool :=
  decide (0x10000000000 ≤ localOf pa) && decide (localOf pa < 0x20000000000)

/-- Whether only S and F reach an address: the die windows (R179), and the registers `CTXCR` of an `IOC0` (R376). -/
def runtimeOnly (pa : Nat) : Bool :=
  inDieWindow pa || (decide (0x20000200000 ≤ localOf pa) && decide (localOf pa < 0x20000280000))

/-- Whether the page class admits a form (R153): scalar accesses of 4 or 8 naturally aligned bytes reach MMIO. -/
def classAdmits (cls : Nat) (scalar : Bool) (va size : Nat) : Bool :=
  if cls ≤ 1 then true else if cls = 4 then scalar && (size == 4 || size == 8) && va % size == 0 else false

/-- Steps 2 and 3 of R153 for the current hart, for an access that a lane carries, or none; it stalls while its walk or its bank
is under test (R395). -/
def State.resolveLane (s : State) (lane : Option Nat) (k : AccessKind) (scalar : Bool) (va size : Nat) : Chk :=
  let h := s.hart
  if va ≥ 2 ^ 55 then .trap (pageFaultOf k) va
  else if localBase ≤ va then
    match s.window h.core va with
    | some pa => if s.testing pa size then .stall else .ok pa true 0
    | none => .trap cACCESS va
  else
    match s.ctx with
    | none => .trap (pageFaultOf k) va
    | some c => if s.walkWaits h.place lane c.asid.toNat c.ptroot.toNat va then .stall else match s.translateLane h.place lane c.asid.toNat c.ptroot.toNat h.st.pl k va with
      | none => .trap (pageFaultOf k) va
      | some x =>
        if !s.classFits x then .trap cACCESS va
        else if runtimeOnly x.pa && h.st.pl == .u then .trap cACCESS va
        else if !classAdmits x.cls scalar va size then .trap cACCESS va
        else if s.testing x.pa size then .stall
        else .ok x.pa false x.cls

def State.resolve (s : State) (k : AccessKind) (scalar : Bool) (va size : Nat) : Chk := s.resolveLane none k scalar va size

/-- Whether a buffer state allows a hart load or store (R189, Table 5). -/
def BufState.hartOk (st : BufState) (write : Bool) : Bool :=
  match st with
  | .empty => false
  | .filling => write
  | .full => true
  | .draining => !write

/-- Step 4 of R153 for one access inside the scratchpad window. -/
def State.bufChk (s : State) (va : Nat) (write : Bool) : Option (Nat × Nat) :=
  if !inSpadWin va then none
  else
    let h := s.hart
    match s.bufAt h.ctx h.place.die h.place.cluster (va - spadWin) with
    | none => some (cACCESS, va)
    | some b =>
      if b.kind = .barrier then (if write then some (cBARRIER, va) else none)
      else if b.state.hartOk write then none else some (cBUFFER, va)

/-- Whether an access of the hart's core stalls on the range scoreboard (R194). -/
def State.scoreStalls (s : State) (pa size : Nat) (write : Bool) : Bool :=
  let c := s.hart.core
  s.score.any fun e => e.core == c && (e.isDest || write) && decide (e.lo < pa + size) && decide (pa < e.hi)

/-- Whether an access is to checked memory (R292): the windows but for BARRIER buffers, deterministic-tagged pages. -/
def State.checked (s : State) (va : Nat) (window : Bool) (cls : Nat) : Bool :=
  if window then
    !inSpadWin va || (match s.bufAt s.hart.ctx s.hart.place.die s.hart.place.cluster (va - spadWin) with
      | some b => b.kind != .barrier
      | none => false)
  else cls == 1

/-- The summary of a line for the hart's gang and epoch; an older one reads as empty (R292). -/
def State.raceOf (s : State) (line : Nat) : Race :=
  let h := s.hart
  match s.races.find? fun r => r.line == line && r.gang == h.gang && r.ctx == h.ctx && r.epoch == h.epoch with
  | some r => r
  | none => ⟨line, h.gang, h.ctx, h.epoch, [], [], []⟩

def othersThan (n : Nat) (l : List Nat) : Bool := l.any (· != n)

/-- Whether an access completes a conflict (R293), or meets a mark of an engine operation of the gang (R295). -/
def State.raceConflict (s : State) (pa : Nat) (k : RaceKind) : Bool :=
  let h := s.hart
  let line := pa / 64 * 64
  let r := s.raceOf line
  let write := k != .read
  let bySummary := match k with
    | .read => othersThan s.cur r.writers || othersThan s.cur r.adders
    | .write => othersThan s.cur r.writers || othersThan s.cur r.readers || othersThan s.cur r.adders
    | .add => othersThan s.cur r.writers || othersThan s.cur r.readers
  let byMark := s.marks.any fun m =>
    m.ctx == h.ctx && m.gang == h.gang && (m.write || write) && decide (m.lo < line + 64) && decide (line < m.hi)
  bySummary || byMark

/-- Enters an access in the summary of its line (R293). -/
def State.raceNote (s : State) (va pa : Nat) (window : Bool) (cls : Nat) (k : RaceKind) : State :=
  if !s.hart.det || !s.checked va window cls then s
  else
    let r := s.raceOf (pa / 64 * 64)
    let add (l : List Nat) : List Nat := if l.contains s.cur then l else l ++ [s.cur]
    let r' := match k with
      | .read => { r with readers := add r.readers }
      | .write => { r with writers := add r.writers }
      | .add => { r with adders := add r.adders }
    { s with races := r' :: s.races.filter fun q => q != r }

/-- Steps 5 and 6 of R153: phased mode, then deterministic mode. `none` when nothing is raised. -/
def State.modeChk (s : State) (va pa : Nat) (window : Bool) (cls : Nat) (k : RaceKind) : Option (Nat × Nat) :=
  let h := s.hart
  if h.phased && (h.stepKind == 2 || !window) then some (cPHASE, va)
  else if !h.det then none
  else if !window && cls == 0 && k != .read then some (cNONDET, 0x04)
  else if s.checked va window cls && h.arrival.isSome then some (cNONDET, 0x02)
  else if s.checked va window cls && s.raceConflict pa k then some (cRACE, va)
  else none

/-- Every check of one access of the current hart after its alignment (R153). -/
def State.accessLane (s : State) (lane : Option Nat) (k : AccessKind) (rk : RaceKind) (scalar : Bool) (va size : Nat) : Chk :=
  match s.resolveLane lane k scalar va size with
  | .ok pa window cls =>
    match (if window then s.bufChk va (kindWrites k) else none) with
    | some (c, e) => .trap c e
    | none =>
      if window && s.scoreStalls pa size (kindWrites k) then .stall
      else match s.modeChk va pa window cls rk with
        | some (c, e) => .trap c e
        | none => .ok pa window cls
  | r => r

def State.accessChk (s : State) (k : AccessKind) (rk : RaceKind) (scalar : Bool) (va size : Nat) : Chk :=
  s.accessLane none k rk scalar va size

/-- An instruction that phased mode refuses in a compute step, and in an exchange step too where `both` holds (R226). -/
def phased (both : Bool) (body : State → Res) (s : State) : Res :=
  if s.hart.phased && (both || s.hart.stepKind != 2) then .trap s cPHASE 0 0 else body s
/-- An instruction that deterministic mode refuses with a code (R296). -/
def refusedDet (code : Nat) (body : State → Res) (s : State) : Res :=
  if s.hart.det then .trap s cNONDET (BitVec.ofNat 64 code) 0 else body s

/-- A checked piece of an access: its virtual and physical address, its bytes, and what its race check needs. -/
structure Piece where
  va : Nat
  pa : Nat
  n : Nat
  win : Bool
  cls : Nat
  deriving DecidableEq, Repr

/-- Cuts a range into pieces that do not cross a 64-byte line; the fuel is the number of pieces at most. -/
def pieces (va n : Nat) : Nat → List (Nat × Nat)
  | 0 => []
  | k + 1 =>
    if n = 0 then []
    else
      let m := Nat.min n (64 - va % 64)
      (va, m) :: pieces (va + m) (n - m) k

/-- The checks of an all-or-nothing transfer (R154): every piece is checked; the physical pieces, or what is raised. -/
def State.chkAll (s : State) (k : AccessKind) (rk : RaceKind) : List (Nat × Nat) → Except Chk (List Piece)
  | [] => .ok []
  | (va, n) :: rest =>
    match s.accessChk k rk false (va % 2 ^ 64) n with
    | .ok pa win cls =>
      match s.chkAll k rk rest with
      | .ok l => .ok (⟨va % 2 ^ 64, pa, n, win, cls⟩ :: l)
      | .error e => .error e
    | e => .error e

/-- Checks a whole range of bytes. -/
def State.chkRange (s : State) (k : AccessKind) (rk : RaceKind) (va n : Nat) : Except Chk (List Piece) :=
  s.chkAll k rk (pieces va n (n / 64 + 2))

/-- The first piece of a list that touches a unit holding an error, for a read, or covers one in part, for a write
(R392). -/
def State.firstPoison (s : State) (write : Bool) (l : List Piece) : Option Nat :=
  (l.find? fun p => if write then s.partPoisoned p.pa p.n else s.poisoned p.pa p.n).map (·.va)

/-- The first piece that an atomic cannot use: it reads its word, so a unit holding an error stops it also where it covers the whole of
it (R154, R392; DEDUCED, log 7), and on a lost route an atomic that returns old values ends as a load does (R379). -/
def State.firstSpoilt (s : State) (returns : Bool) (l : List Piece) : Option Nat :=
  (l.find? fun p => if s.lost p.pa then returns else s.poisoned p.pa p.n).map (·.va)

/-- Reads the bytes of checked pieces as one little-endian number. -/
def State.gather (s : State) : List Piece → Nat
  | [] => 0
  | p :: rest => s.readN p.pa p.n + 2 ^ (8 * p.n) * s.gather rest

/-- The parts of a load and of a store over checked pieces. -/
def loadParts (dst : Nat) : List Piece → List LoadPart
  | [] => []
  | p :: rest => ⟨p.va, p.pa, 0, 8 * p.n, dst⟩ :: loadParts (dst + 8 * p.n) rest
def storeParts (v : Nat) : List Piece → List StorePart
  | [] => []
  | p :: rest => ⟨p.va, p.pa, 0, 8 * p.n, v % 2 ^ (8 * p.n)⟩ :: storeParts (v / 2 ^ (8 * p.n)) rest

/-- Enters every piece of a transfer in the race summaries. -/
def State.noteAll (s : State) (rk : RaceKind) (l : List Piece) : State :=
  l.foldl (fun s p => s.raceNote p.va p.pa p.win p.cls rk) s

end Sys2Proof.Machine
end

