-- ==== Sys2Proof/Machine/Engine.lean ====
section
/-! DEFINITION. What engines share: transaction barriers (R214, R215), completion counters, failures (R351), declared buffers'
counts (R190), and the copy channels' walk (R230-R235). -/
namespace Sys2Proof.Machine

/-! Transaction barriers (R214-R216). -/

/-- The fields of a barrier image (R214, Table 2). -/
def barPhase (v : Nat) : Nat := bitsAt v 0 4
def barArrPend (v : Nat) : Nat := bitsAt v 8 24
def barSect (v : Nat) : Int := intOf 32 true (bitsAt v 32 32)
def barInit (v : Nat) : Nat := bitsAt v 64 24
def barErrBit (v : Nat) : Bool := v.testBit 127
/-- `STATUS`, bits [127:96]. -/
def barStatus (v : Nat) : Nat := bitsAt v 96 32

/-- err(bar, c, s): the first error stays (R215). -/
def barErr (v c s : Nat) : Nat :=
  if barErrBit v then v else v % 2 ^ 96 + (2 ^ 31 + c % 128 * 2 ^ 24 + s % 2 ^ 24) * 2 ^ 96
/-- update(bar, da, ds) with the `POSTED` of a post: the new image, whether the phase completed, whether it failed
(R215). -/
def barUpdate (v da : Nat) (ds : Int) (posted : Bool) : Nat × Bool × Bool :=
  let sect := barSect v + ds
  if da > barArrPend v then (barErr v 0x01 0, false, true)
  else if sect < intMin 32 true ∨ sect > intMax 32 true then (barErr v 0x02 0, false, true)
  else
    let v := if posted then v ||| 0x20 else v
    let arr := barArrPend v - da
    if arr = 0 ∧ sect = 0 then
      (putBits (putBits (putBits (putBits v 0 4 ((barPhase v + 1) % 16)) 4 4 0) 8 24 (barInit v)) 32 32 0, true, false)
    else (putBits (putBits v 8 24 arr) 32 32 (bitsOf 32 sect), false, false)

/-- Where a barrier of a context lies, if its address names one (R214): 16-byte aligned, in a BARRIER buffer. -/
def State.barAt (s : State) (ctx die cluster va : Nat) : Option Nat :=
  if va % 16 ≠ 0 ∨ !inSpadWin va then none
  else match s.bufAt ctx die cluster (va - spadWin) with
    | some b => if b.kind = .barrier then some (s.spadPa die cluster (va - spadWin)) else none
    | none => none
/-- Wakes the waits on an object; a completion is also recorded (R218). -/
def State.wakeWaiters (s : State) (obj : Nat) (completed : Bool) : State :=
  { s with harts := s.harts.map fun h => match h.wait with
      | some w => if w.obj = some obj then { h with wait := some { w with seen := w.seen || completed, asleep := false } } else h
      | none => h }
/-- One atomic update step at a barrier (R215). -/
def State.barStep (s : State) (pa da : Nat) (ds : Int) (posted : Bool) : State :=
  let r := barUpdate (s.readN pa 16) da ds posted
  let s := s.writeN pa r.1 16
  if r.2.1 || r.2.2 then s.wakeWaiters pa r.2.1 else s
/-- An engine credit of one sector. -/
def State.credit (s : State) (pa : Nat) : State := s.barStep pa 0 (-1) false
/-- An engine's error at a barrier. -/
def State.barFail (s : State) (pa code seq : Nat) : State :=
  (s.writeN pa (barErr (s.readN pa 16) code seq) 16).wakeWaiters pa false

/-- Whether a virtual range of an agent touches a BARRIER buffer. -/
def State.hitsBarrier (s : State) (ctx die cluster va n : Nat) : Bool :=
  inSpadWin va && s.bufs.any fun b => b.ctx == ctx && b.die == die && b.cluster == cluster && b.kind == BufKind.barrier
    && decide (b.base < va - spadWin + n) && decide (va - spadWin < b.base + b.size)
/-- Writes `n` bytes for an engine, or its failure: 0x0B where the write would cover a unit that holds an error in
part (R392), 0x08 where it would change a barrier word otherwise than by a credit (R192; that a completion word there fails is a DESIGN
CHOICE, log 48). -/
def State.engWrite (s : State) (ag : Agent) (die cluster va v n : Nat) : Except Nat State :=
  match s.engRange ag die cluster .store va n with
  | .error e => .error e
  | .ok l =>
    if l.any fun p => s.lost p.1 || s.partPoisoned p.1 p.2 then .error 0x0B
    else if s.hitsBarrier ag.ctx die cluster va n then .error 0x08
    else .ok (l.foldl (fun acc p => (acc.1.writeN p.1 (acc.2 % 2 ^ (8 * p.2)) p.2, acc.2 / 2 ^ (8 * p.2))) (s, v)).1
/-- The agent as it publishes: completion words may lie in any writable page. -/
def Agent.publish (ag : Agent) : Agent := { ag with det := false }
/-- Increments a counter for an engine (R233, R177). -/
def State.bump (s : State) (ag : Agent) (die cluster va : Nat) : Except Nat State :=
  match s.engRead ag.publish die cluster va 8 with
  | .error e => .error e
  | .ok v => s.engWrite ag.publish die cluster va ((v + 1) % 2 ^ 64) 8

/-! What engine operations do in the local windows. While their context stands in its save area its windows stand there too, so it is owed
until the context is restored (R357; DEDUCED, log 51). -/

/-- Whether an address of an agent lies in windows that stand in a save area. -/
def State.awayAt (s : State) (ag : Agent) (va : Nat) : Bool := decide (localBase ≤ va) && s.isAway ag.ctx
def State.owe (s : State) (ag : Agent) (act : OwedAct) : State := { s with owed := s.owed ++ [⟨ag, act⟩] }
/-- Credits `n` sectors at the barrier an operation names, if it names one. -/
def State.creditAt (s : State) (ag : Agent) (va n : Nat) : State :=
  if s.awayAt ag va then s.owe ag (.credit va n)
  else match s.barAt ag.ctx ag.place.die ag.place.cluster va with
    | some pa => (List.range n).foldl (fun (s : State) _ => s.credit pa) s
    | none => s
/-- Reports an error at it. -/
def State.failAt (s : State) (ag : Agent) (va code : Nat) : State :=
  if s.awayAt ag va then s.owe ag (.fail va code)
  else match s.barAt ag.ctx ag.place.die ag.place.cluster va with
    | some pa => s.barFail pa code 0
    | none => s
/-- Publishes 8 bytes for an engine; a write that fails is skipped. -/
def State.publish (s : State) (ag : Agent) (va v : Nat) : State :=
  if s.awayAt ag va then s.owe ag (.put va v)
  else match s.engWrite ag.publish ag.place.die ag.place.cluster va v 8 with
    | .ok s' => s'
    | .error _ => s
/-- Increments a counter for an engine; one that cannot be written is skipped. -/
def State.bumpFor (s : State) (ag : Agent) (va : Nat) : State :=
  if s.awayAt ag va then s.owe ag (.bump va)
  else match s.bump ag ag.place.die ag.place.cluster va with
    | .ok s' => s'
    | .error _ => s
/-- Does what was owed, by an agent at its place now. -/
def State.settleOwed (s : State) (o : Owed) : State :=
  match o.act with
  | .credit va n => s.creditAt o.agent va n
  | .fail va code => s.failAt o.agent va code
  | .put va v => s.publish o.agent va v
  | .bump va => s.bumpFor o.agent va

/-! Buffer counts (R189, R190). -/

def State.modBuf (s : State) (b : Buf) (f : Buf → Buf) : State :=
  { s with bufs := s.bufs.map fun x =>
      if x.ctx == b.ctx && x.die == b.die && x.cluster == b.cluster && x.n == b.n then f x else x }
/-- The buffer that holds a window address. -/
def State.bufOf (s : State) (ctx : Nat) (ch : ChannelId) (va : Nat) : Option Buf :=
  if inSpadWin va then s.bufAt ctx ch.die ch.cluster (va - spadWin) else none
def Buf.sector (b : Buf) : Buf := { b with xcnt := Nat.min (b.xcnt + 1) 0x3FFFF }
def Buf.startIn (b : Buf) : Buf :=
  if b.kind = .staged ∧ b.state = .empty then { b with state := .filling, xcnt := 0, infl := b.infl + 1 }
  else { b with infl := b.infl + 1 }
def Buf.startOut (b : Buf) : Buf :=
  if b.kind = .staged ∧ b.state = .full then { b with state := .draining, xcnt := 0, outfl := b.outfl + 1 }
  else { b with outfl := b.outfl + 1 }
/-- A copy ends: the count falls, and a completion may end the phase (R190). A count that a restored DISCARD buffer began afresh stays 0
(R193; DESIGN CHOICE, log 55). -/
def Buf.endIn (done : Bool) (b : Buf) : Buf :=
  let b := { b with infl := b.infl - 1 }
  if done ∧ b.kind = .staged ∧ b.state = .filling ∧ b.infl = 0 ∧ b.xcnt ≥ b.size / 64 then { b with state := .full } else b
def Buf.endOut (done : Bool) (b : Buf) : Buf :=
  let b := { b with outfl := b.outfl - 1 }
  if done ∧ b.kind = .staged ∧ b.state = .draining ∧ b.outfl = 0 ∧ b.xcnt ≥ b.size / 64 then { b with state := .empty } else b
/-- Applies a change to the buffer of an address, if it has one. -/
def State.atBuf (s : State) (ctx : Nat) (ch : ChannelId) (va : Nat) (f : Buf → Buf) : State :=
  match s.bufOf ctx ch va with
  | some b => s.modBuf b f
  | none => s

/-! Starting a record (R230, R234). -/

/-- Whether a span lies within one declared buffer, where it lies in the scratchpad window. -/
def State.inOneBuf (s : State) (ctx : Nat) (ch : ChannelId) (span : Nat × Nat) : Bool :=
  if span.2 = 0 ∨ !inSpadWin span.1 then true
  else match s.bufOf ctx ch span.1 with
    | some b => decide (span.1 - spadWin + span.2 ≤ b.base + b.size)
    | none => false
/-- Whether the buffer of a span allows a copy into it or out of it to start (R189, R193). -/
def State.copyAllowed (s : State) (ctx : Nat) (ch : ChannelId) (into : Bool) (va : Nat) : Bool :=
  match s.bufOf ctx ch va with
  | none => true
  | some b => match b.kind with
    | .plain => decide (b.state = .full)
    | .barrier => true
    | .staged => if into then decide (b.state = .empty ∨ b.state = .filling)
                 else decide (b.state = .full ∨ b.state = .draining)
def overlaps (a b : Nat × Nat) : Bool := decide (a.2 ≠ 0) && decide (b.2 ≠ 0) && decide (a.1 < b.1 + b.2) && decide (b.1 < a.1 + a.2)
def okRange {α : Type} (r : Except Nat α) (code : Nat) : Bool :=
  match r with
  | .error e => e == code
  | .ok _ => false

/-- A malformed record, given its source span (R234, 0x03). -/
def Rec.malformed (r : Rec) (src : Nat × Nat) : Bool :=
  let unit := if r.op = 2 then r.fields * r.fsize else r.fsize
  r.resv || decide (r.op > 3) || !(r.fsize == 1 || r.fsize == 2 || r.fsize == 4 || r.fsize == 8)
    || (if r.op = 2 then decide (r.fields < 2 ∨ r.fields > 8) else r.fields != 0)
    || decide (r.len % Nat.max 1 unit ≠ 0) || ((r.op == 0 || r.op == 1) && r.idx != 0) || (r.op == 3 && r.idx == 0)
    || (r.op == 1 && (r.srcStride != 0 || r.dstStride != 0)) || overlaps src r.dstSpan
/-- A misaligned address or stride (0x04). -/
def Rec.misaligned (r : Rec) : Bool :=
  let sz := Nat.max 1 r.fsize
  (r.op != 1 && r.src % sz != 0) || r.dst % sz != 0 || r.srcStride % sz != 0 || r.dstStride % sz != 0 || r.idx % 4 != 0
/-- A barrier that cannot be credited by whole sectors (0x0A). -/
def Rec.badSectors (r : Rec) : Bool :=
  let n := r.count * r.fsize
  r.len % 64 != 0 || r.dst % 64 != 0 ||
    (if r.op = 2 then decide (orDefault r.dstStride n % 64 ≠ 0) || n % 64 != 0
     else r.op != 1 && decide (orDefault r.dstStride r.fsize ≠ r.fsize))

/-- The units of a record under the index array as it stands. -/
def State.unitsOf (s : State) (ag : Agent) (ch : ChannelId) (r : Rec) : List CopyUnit :=
  r.units (s.idxOf ag ch.die ch.cluster r)
/-- The first failure code a test of the units gives. -/
def State.unitFails (s : State) (ag : Agent) (ch : ChannelId) (l : List CopyUnit) (code : Nat) : Bool :=
  l.any fun u =>
    okRange (s.engRange ag ch.die ch.cluster .store u.dst u.n) code ||
      (match u.src with
        | some v => okRange (s.engRange ag ch.die ch.cluster .load v u.n) code
        | none => false)

/-- The lowest code of the start checks that a record fails (R234, Table 9). -/
def State.startCode (s : State) (ag : Agent) (ch : ChannelId) (r : Rec) : Option Nat :=
  let src := s.srcSpan ag ch r
  if !r.own then some 0x01
  else if r.malformed src then some 0x03
  else if r.misaligned then some 0x04
  else
    let units := s.unitsOf ag ch r
    let idxRange := s.engRange ag ch.die ch.cluster .load r.idx (if r.idx = 0 then 0 else 4 * r.count)
    if s.unitFails ag ch units 5 || okRange idxRange 5 then some 0x05
    else if s.unitFails ag ch units 6 || okRange idxRange 6 || !s.inOneBuf ag.ctx ch src || !s.inOneBuf ag.ctx ch r.dstSpan
        || (r.idx != 0 && !s.inOneBuf ag.ctx ch (r.idx, 4 * r.count)) then some 0x06
    else if (decide (r.dstSpan.2 ≠ 0) && !s.copyAllowed ag.ctx ch true r.dst)
        || (decide (src.2 ≠ 0) && !s.copyAllowed ag.ctx ch false src.1) then some 0x07
    else if ((s.bufOf ag.ctx ch r.dst).map fun b => b.kind == BufKind.barrier).getD false then some 0x08
    else if r.idx != 0 && (List.range r.count).any (fun i => decide (s.idxOf ag ch.die ch.cluster r i ≥ r.count)) then some 0x09
    else if r.txb != 0 && (r.badSectors || (s.barAt ag.ctx ch.die ch.cluster r.txb).isNone) then some 0x0A
    else none

/-- Takes a flight out of its buffers, the scoreboard and the marks. -/
def State.dropFlight (s : State) (id : ChannelId) (done : Bool) (fl : Flight) : State :=
  let r := recOf fl.words
  let s := if r.dstSpan.2 = 0 then s else s.atBuf fl.agent.ctx id r.dst (Buf.endIn done)
  let s := if fl.src.2 = 0 then s else s.atBuf fl.agent.ctx id fl.src.1 (Buf.endOut done)
  (s.unclaim id fl.addr).unmark (.copy id fl.addr)
/-- A record fails (R234): the channel keeps the flights before it, stops those after it, records the error, reports it
at the record's barrier and to the hart that handed it. -/
def State.failRecord (s : State) (id : ChannelId) (keep : Nat) (ag : Agent) (seq code eval : Nat) (txb : Nat) : State :=
  let c := s.chan id
  let s := s.setChan { c with flights := c.flights.take keep, err := true, ecode := code, eseq := seq % 2 ^ 24 }
  let s := (c.flights.drop keep).foldl (fun s fl => s.dropFlight id false fl) s
  let s := if eval = c.last then s else s.unclaim id eval
  let s := match (if txb = 0 then none else s.barAt ag.ctx id.die id.cluster txb) with
    | some pa => s.barFail pa (0x20 + code) (seq % 2 ^ 24)
    | none => s
  (s.deliverEngine ag eval).settleStopped id

/-- The physical ranges of a record's destination and of everything it touches: bounding spans, page by page, a page of which nothing
translates left out (R194, R230). -/
def State.touched (s : State) (ag : Agent) (ch : ChannelId) (r : Rec) (all : Bool) : List (Nat × Nat) :=
  let ranges (k : AccessKind) (va n : Nat) : List (Nat × Nat) :=
    (pageCuts va n (n / 0x10000 + 2)).flatMap fun p =>
      match s.window ⟨ag.place.die, ch.cluster, ag.place.core⟩ p.1 with
      | some pa => [(if inSpadWin p.1 then s.spadPa ch.die ch.cluster (p.1 - spadWin) else pa, p.2)]
      | none => match s.engRange ag ch.die ch.cluster k p.1 p.2 with
        | .ok l => l
        | .error _ => []
  ranges .store r.dst r.dstSpan.2 ++
    (if all then ranges .load (s.srcSpan ag ch r).1 (s.srcSpan ag ch r).2 ++ (if r.idx = 0 then [] else ranges .load r.idx (4 * r.count)) else [])
/-- Whether a record must wait for an earlier one in flight (R230). -/
def State.mustWait (s : State) (id : ChannelId) (ag : Agent) (r : Rec) : Bool :=
  let mine := s.touched ag id r true
  (s.chan id).flights.any fun fl => (s.touched fl.agent id (recOf fl.words) false).any fun x => mine.any (overlaps x)

/-- Whether a unit of a record waits for a test (R395). -/
def State.unitHeld (s : State) (ag : Agent) (ch : ChannelId) (u : CopyUnit) : Bool :=
  s.engHeld ag ch.die ch.cluster ((u.dst, u.n) :: ((u.src.map fun a => (a, u.n)).toList ++ (u.via.map fun a => (a, 4)).toList))
/-- What the walk of a channel finds next (R230). -/
inductive Walk where
  | idle
  | fail (ag : Agent) (code eval txb : Nat)
  | go (ag : Agent) (addr : Nat) (words : List Nat)
  deriving DecidableEq, Repr
/-- The next record of a channel, with its checks. -/
def State.walkNext (s : State) (id : ChannelId) : Walk :=
  let c := s.chan id
  match c.handed with
  | [] => .idle
  | h :: _ =>
    if c.tail = 0 ∨ c.last = c.tail ∨ c.err ∨ c.flights.length ≥ 4 ∨ c.quiesced then .idle
    else
      let ag := h.agent
      if c.last ≠ 0 ∧ s.engHeld ag id.die id.cluster [(c.last, 8)] then .idle
      else match (if c.last = 0 then .ok c.head else s.engRead ag id.die id.cluster c.last 8 : Except Nat Nat) with
      | .error e => .fail ag e c.last 0
      | .ok addr =>
        if addr = 0 then .fail ag 0x02 c.last 0
        else if s.engHeld ag id.die id.cluster [(addr, 64)] then .idle
        else match s.recAt ag id.die id.cluster addr with
          | .error e => .fail ag e addr 0
          | .ok w =>
            if s.mustWait id ag (recOf w) || s.engHeld ag id.die id.cluster [((recOf w).idx, if (recOf w).idx = 0 then 0 else 4 * (recOf w).count)]
            then .idle
            else match s.startCode ag id (recOf w) with
              | some code => .fail ag code addr (recOf w).txb
              | none => .go ag addr w
/-- The sequence number of the next record (R233). -/
def Channel.nextSeq (c : Channel) : Nat := c.seq + c.flights.length + 1
/-- Starts a record: its claims, its buffers, its place in the chain. A record of `LEN` 0 touches no byte, so it claims and counts nothing
and starts no copy into or out of a buffer (DESIGN CHOICE, log 48). -/
def State.startRecord (s : State) (id : ChannelId) (ag : Agent) (addr : Nat) (w : List Nat) : State :=
  let c := s.chan id
  let r := recOf w
  let src := s.srcSpan ag id r
  let claims := if s.claimed id addr then [] else s.claimsOf ag id addr
  if claims.length > s.scoreFree ⟨ag.place.die, ag.place.cluster, ag.place.core⟩ then s
  else
    let s := { s with score := s.score ++ claims }
    let s := if r.dstSpan.2 = 0 then s else s.atBuf ag.ctx id r.dst Buf.startIn
    let s := if src.2 = 0 then s else s.atBuf ag.ctx id src.1 Buf.startOut
    s.setChan { c with
      last := addr, flights := c.flights ++ [⟨addr, w, c.nextSeq, 0, ag, [], src⟩]
      handed := match c.handed with
        | h :: rest => if h.addr = addr then rest else c.handed
        | [] => [] }

/-- `COPY_RECORD_START`: the channel checks its next record and starts it, or the record fails (R230, R234). -/
def execCopyRecordStart (id : ChannelId) (s : State) : Host.Outcome State Fault Refusal :=
  match s.walkNext id with
  | .idle => .next s
  | .fail ag code eval txb =>
    .next (s.failRecord id (s.chan id).flights.length ag (s.chan id).nextSeq code eval txb)
  | .go ag addr w => .next (s.startRecord id ag addr w)

/-! Moving a record's bytes (R232). -/

/-- For each unit, whether it is the last of the record to touch its destination sector, and its source sector. -/
def lastTouches (l : List CopyUnit) : List (Bool × Bool) :=
  (l.foldr (fun u (acc : List Nat × List Nat × List (Bool × Bool)) =>
    let d := u.dst / 64
    let newD := !acc.1.contains d
    match u.src with
    | some v =>
      let newS := !acc.2.1.contains (v / 64)
      (if newD then d :: acc.1 else acc.1, if newS then v / 64 :: acc.2.1 else acc.2.1, (newD, newS) :: acc.2.2)
    | none => (if newD then d :: acc.1 else acc.1, acc.2.1, (newD, false) :: acc.2.2)) ([], [], [])).2.2
/-- Reads the source of one unit, by its index element where it has one. -/
def State.readUnit (s : State) (ag : Agent) (ch : ChannelId) (u : CopyUnit) : Except Nat Nat :=
  let sel : Except Nat Nat := match u.via with
    | some a => s.engRead ag ch.die ch.cluster a 4
    | none => .ok 0
  match sel, u.src with
  | .error e, _ => .error e
  | .ok _, some a => s.engRead ag ch.die ch.cluster a u.n
  | .ok _, none => .ok u.pat
/-- Moves one unit, whose source may have been read before, with the sector counts and the credit it completes. -/
def State.moveUnit (s : State) (ag : Agent) (ch : ChannelId) (txb : Nat) (held : Option (Option Nat)) (u : CopyUnit) (last : Bool × Bool) :
    Except Nat State :=
  match (match held with
    | some (some v) => .ok v
    | some none => .error 0x0B
    | none => s.readUnit ag ch u : Except Nat Nat) with
  | .error e => .error e
  | .ok v => match s.engWrite ag ch.die ch.cluster u.dst v u.n with
    | .error e => .error e
    | .ok s =>
      let s := if last.1 then s.atBuf ag.ctx ch u.dst Buf.sector else s
      let s := match u.src with
        | some a => if last.2 then s.atBuf ag.ctx ch a Buf.sector else s
        | none => s
      let s := match (if last.1 && txb != 0 then s.barAt ag.ctx ch.die ch.cluster txb else none) with
        | some pa => s.credit pa
        | none => s
      .ok s
/-- Moves units in order until one fails: the state, how many moved, and the failure. -/
def State.moveUnits (s : State) (ag : Agent) (ch : ChannelId) (txb : Nat) :
    List (Option (Option Nat) × CopyUnit × (Bool × Bool)) → State × Nat × Option Nat
  | [] => (s, 0, none)
  | (v, u, t) :: rest => match s.moveUnit ag ch txb v u t with
    | .error e => (s, 0, some e)
    | .ok s' => let r := s'.moveUnits ag ch txb rest; (r.1, r.2.1 + 1, r.2.2)
/-- Moves up to `n` further units of a flight, up to one that waits for a test (R395). With the last credit at its barrier the record is published there, and its marks have gone
(R208, R295). -/
def State.advance (s : State) (id : ChannelId) (k n : Nat) : State × Option Nat :=
  match (s.chan id).flights[k]? with
  | none => (s, none)
  | some fl =>
    let r := recOf fl.words
    let units := s.unitsOf fl.agent id r
    let next := ((units.zip (lastTouches units)).drop fl.cursor).take n
    let todo := (next.takeWhile fun x => !s.unitHeld fl.agent id x.1).zipIdx.map fun x => (fl.held[x.2]?, x.1)
    let m := s.moveUnits fl.agent id r.txb todo
    let c := m.1.chan id
    let s := m.1.setChan { c with
      flights := updAt c.flights k fun f => { f with cursor := f.cursor + m.2.1, held := f.held.drop m.2.1 } }
    (if m.2.2.isNone ∧ r.txb ≠ 0 ∧ units.length ≤ fl.cursor + m.2.1 then s.unmark (.copy id fl.addr) else s, m.2.2)
/-- The entries that a record in flight still has to claim, as after a resumption (R194). -/
def State.owedClaims (s : State) (id : ChannelId) (fl : Flight) : List ScoreEntry :=
  if s.claimed id fl.addr then [] else s.claimsOf fl.agent id fl.addr
/-- Whether the next units of a record in flight may move: its entries fit, and it writes nothing that a record in flight before it
touches, so the results are those of one record after another (R194, R230). -/
def State.mayMove (s : State) (id : ChannelId) (k : Nat) : Bool :=
  match (s.chan id).flights[k]? with
  | none => true
  | some fl =>
    let mine := s.touched fl.agent id (recOf fl.words) false
    decide ((s.owedClaims id fl).length ≤ s.scoreFree ⟨fl.agent.place.die, fl.agent.place.cluster, fl.agent.place.core⟩) &&
    !((s.chan id).flights.take k).any fun e => (s.touched e.agent id (recOf e.words) true).any fun x => mine.any (overlaps x)
/-- Reads up to `n` further units of a flight, which wait in an I/O chiplet's chunk buffer or a link's retry store until they are written
(R380). -/
def State.readAhead (s : State) (id : ChannelId) (k n : Nat) : State :=
  match (s.chan id).flights[k]? with
  | none => s
  | some fl =>
    if (s.chan id).quiesced || !s.mayMove id k then s
    else
      let units := (s.unitsOf fl.agent id (recOf fl.words)).drop (fl.cursor + fl.held.length)
      let next := (units.take n).takeWhile fun u => !s.unitHeld fl.agent id u
      let vs := (next.map (s.readUnit fl.agent id)).takeWhile (·.isOk)
      let c := s.chan id
      s.setChan { c with flights := updAt c.flights k fun f => { f with held := f.held ++ vs.map (·.toOption) } }
/-- Performs one write of a retirement; a failure is reported and the write skipped (R233). -/
def orReport (s : State) (ag : Agent) (addr : Nat) (r : Except Nat State) : State :=
  match r with
  | .ok s' => s'
  | .error _ => s.deliverEngine ag addr
/-- The completion of the oldest record in flight (R233). -/
def State.retireRecord (s : State) (id : ChannelId) (fl : Flight) : State :=
  let r := recOf fl.words
  let s := s.dropFlight id true fl
  let w1 := fl.words.getD 1 0
  let s := orReport s fl.agent fl.addr
    (s.engWrite fl.agent.publish id.die id.cluster (fl.addr + 8) (w1 / 2 * 2) 8)
  let c := s.chan id
  let s := s.setChan { c with seq := c.seq + 1, flights := c.flights.drop 1 }
  let s := if c.seqw = 0 then s else orReport s fl.agent fl.addr
    (s.engWrite fl.agent.publish id.die id.cluster c.seqw ((c.seq + 1) % 2 ^ 64) 8)
  let s := if r.inc then orReport s fl.agent fl.addr (s.bump fl.agent id.die id.cluster r.ctr) else s
  s.settleStopped id
/-- Whether a record's last units, or the words its retirement writes, wait for a test (R395). -/
def State.retireHeld (s : State) (id : ChannelId) (fl : Flight) : Bool :=
  let r := recOf fl.words
  let words := (fl.addr + 8, 8) :: [(s.chan id).seqw, if r.inc then r.ctr else 0].filterMap fun a => if a = 0 then none else some (a, 8)
  s.engHeld fl.agent id.die id.cluster words || ((s.unitsOf fl.agent id r).drop fl.cursor).any (s.unitHeld fl.agent id)
/-- `COPY_RECORD_RETIRE`: the oldest record in flight moves what is left of it and completes, or fails (R232-R234). -/
def execCopyRecordRetire (id : ChannelId) (s : State) : Host.Outcome State Fault Refusal :=
  match (s.chan id).flights with
  | [] => .next s
  | fl :: _ =>
    if (s.chan id).quiesced || !s.mayMove id 0 || s.retireHeld id fl then .next s
    else
      let s := { s with score := s.score ++ s.owedClaims id fl }
      let n := (s.unitsOf fl.agent id (recOf fl.words)).length
      let r := s.advance id 0 n
      match r.2 with
      | some code => .next (r.1.failRecord id 0 fl.agent fl.seq code fl.addr (recOf fl.words).txb)
      | none => .next (r.1.retireRecord id fl)
/-- `COPY_RECORD_FAIL`: a record that fails a start check, or a record in flight whose next unit fails, fails with that
code (R234). A quiesced channel issues no unit (R235). -/
def execCopyRecordFail (id : ChannelId) (code : BitVec 8) (s : State) : Host.Outcome State Fault Refusal :=
  if (s.chan id).quiesced then .next s
  else match s.walkNext id with
  | .fail ag c eval txb =>
    if c = code.toNat then .next (s.failRecord id (s.chan id).flights.length ag (s.chan id).nextSeq c eval txb) else .next s
  | _ =>
    let bad := (List.range (s.chan id).flights.length).find? fun k => s.mayMove id k && (s.advance id k 1).2 == some code.toNat
    match bad with
    | none => .next s
    | some k => match (s.chan id).flights[k]? with
      | some fl => .next (s.failRecord id k fl.agent fl.seq code.toNat fl.addr (recOf fl.words).txb)
      | none => .next s

/-! Quiescing a channel (R235). -/

/-- The cursor of a flight (R235): in sectors where the record has a barrier, else in its units. -/
def Flight.saved (f : Flight) : Nat :=
  let r := recOf f.words
  if r.txb = 0 then f.cursor else f.cursor * (if r.op = 1 then 1 else r.fsize) / 64
def unsaved (words : List Nat) (n : Nat) : Nat :=
  let r := recOf words
  if r.txb = 0 then n else n * 64 / Nat.max 1 (if r.op = 1 then 1 else r.fsize)
/-- Ends the units that a quiesced channel has issued: what it has read lands, and a sector with a barrier lands whole (R235). -/
def State.landFlights (s : State) (id : ChannelId) : State :=
  (List.range (s.chan id).flights.length).foldl (fun (s : State) k =>
    match (s.chan id).flights[k]? with
    | none => s
    | some f =>
      let r := recOf f.words
      let unit := if r.op = 1 then 1 else Nat.max 1 r.fsize
      let extra := f.held.length + (if r.txb = 0 then 0 else (64 - (f.cursor + f.held.length) * unit % 64) % 64 / unit)
      if extra = 0 then s
      else
        let a := s.advance id k extra
        match a.2 with
        | some code => a.1.failRecord id k f.agent f.seq code f.addr r.txb
        | none => a.1) s
/-- Pre-emption quiesces the channels of a context that satisfy a test: what they have issued lands, they issue no more, and the entries of
their records retire (R194, R235). -/
def State.quiesce (s : State) (ctx : Nat) (here : ChannelId → Bool) : State :=
  (s.chans.filter fun c => c.id.ctx == ctx && here c.id && !c.quiesced).foldl (fun (s : State) c =>
    let s := s.landFlights c.id
    { s.setChan { s.chan c.id with quiesced := true } with score := s.score.filter fun e => e.chan != c.id }) s

end Sys2Proof.Machine
end

