-- ==== Sys2Proof/Machine/System.lean ====
section
/-! DEFINITION. System instructions: system registers (R29, R96), fences (R97), new code (R98), traps (R99, R100), TLB
invalidation (R101) and `hctl` (R102). -/
namespace Sys2Proof.Machine

/-- Who may write a system register (R29, Table 5): anyone, S and F, nobody. -/
inductive SrRights where
  | all
  | sup
  | ro
  deriving DecidableEq, Repr

/-- The listed system registers and their rights (R29 Table 5, R399 Table 1). -/
def srRights (n : Nat) : Option SrRights :=
  if n ≤ 0x007 ∨ n = 0x009 then some .all
  else if n = 0x008 ∨ (0x00A ≤ n ∧ n ≤ 0x00D) then some .sup
  else if 0x010 ≤ n ∧ n ≤ 0x015 then some .all
  else if 0x020 ≤ n ∧ n ≤ 0x023 then some .ro
  else if 0x024 ≤ n ∧ n ≤ 0x028 then some .sup
  else if n = 0x030 ∨ n = 0x032 then some .sup
  else if n = 0x031 ∨ n = 0x034 then some .ro
  else if n = 0x033 then some .all
  else if 0x040 ≤ n ∧ n ≤ 0x042 then some .ro
  else if 0x100 ≤ n ∧ n ≤ 0x10E then some .sup
  else if 0x200 ≤ n ∧ n ≤ 0x205 then some .sup
  else none

/-- The least privilege of a number's range (R29). -/
def srPriv (n : Nat) : Priv := if n < 0x100 then .u else if n < 0x200 then .s else if n < 0x300 then .f else .u

/-- The register number of `gsr` and `ssr` (R96). -/
def srNum (f : Fields) : Nat := bitsAt f.imm.toNat 0 12

/-- The access checks of R29: sub-code 0x04 or 0x0D, `FIELD` 12 (R70). -/
def srCheck (f : Fields) (write : Bool) (s : State) : Option Illegal :=
  let n := srNum f
  let pl := s.hart.st.pl
  if pl.code < (srPriv n).code then some ⟨0x04, 12, BitVec.ofNat 12 n⟩
  else match srRights n with
    | none => some ⟨0x0D, 12, BitVec.ofNat 12 n⟩
    | some r =>
      let ok := !write || r == .all || (r == .sup && pl != .u)
      if ok then none else some ⟨0x0D, 12, BitVec.ofNat 12 n⟩

/-- A check made when the instruction executes, so under a true guard only, and before the trap-on-empty test where the guard is known
(R62, R69, R96). -/
def ifExecuted (f : Fields) (chk : State → Option Illegal) (s : State) : Option Illegal :=
  if s.hart.unready (.p f.g) || !s.hart.guard f then none else chk s
/-- The same check after a wait for the guard. -/
def orIllegal (e : Option Illegal) (s : State) (r : Res) : Res :=
  match e with
  | some e => .trap s cILLEGAL e.eval 0
  | none => r

/-- `SSTAT` as it reads (R346). -/
def Hart.sstat (h : Hart) : Word :=
  let b (c : Bool) (k : Nat) : Nat := if c then 2 ^ k else 0
  let pend := b h.preempt.isSome 0 + b (h.causes.any (·.1 == cTIMER)) 1 + b (h.causes.any (·.1 == cENGINE)) 2
    + b (h.causes.any (·.1 == cHOST)) 3
  BitVec.ofNat 64 (pend * 2 ^ 20 + b h.st.tf 8 + b h.st.paie 5 + b h.st.aie 4 + h.st.ppl.code * 4 + h.st.pl.code)

/-- `FSTAT` as it reads (R399). -/
def Hart.fstat (h : Hart) : Word :=
  BitVec.ofNat 64 ((if h.fw.tf then 0x100 else 0) + h.fw.ppl.code * 4 + h.st.pl.code)

/-- The value of a system register of the current hart. -/
def State.srGet (s : State) (n : Nat) : Word :=
  let h := s.hart
  let r := h.sr
  let c := s.ctx.getD (Ctx.fresh 0 0)
  match n with
  | 0x000 => r.vtype | 0x001 => r.vl | 0x002 => r.vr | 0x003 => r.vstart | 0x004 => r.rowlen | 0x005 => r.dirty
  | 0x006 => r.frm | 0x007 => r.fflags | 0x008 => r.acfg | 0x009 => r.mstat
  | 0x00A => r.ctab0 | 0x00B => r.ctab1 | 0x00C => r.ctab2 | 0x00D => r.ctab3
  | 0x010 => r.lc0 | 0x011 => r.lc1 | 0x012 => r.lb0 | 0x013 => r.lb1 | 0x014 => r.le0 | 0x015 => r.le1
  | 0x020 => BitVec.ofNat 64 h.hartid
  | 0x021 => BitVec.ofNat 64 h.gang
  | 0x022 => BitVec.ofNat 64 h.ctx
  | 0x023 => BitVec.ofNat 64 h.vdid
  | 0x024 => r.task | 0x025 => r.tile0 | 0x026 => r.tile1 | 0x027 => r.tile2 | 0x028 => r.tn
  | 0x030 => r.wshare
  | 0x031 => match s.gang with
    | some g => if g.ebcap = 0 then 0 else BitVec.ofNat 64 g.budget
    | none => 0
  | 0x032 => r.dampstat | 0x033 => r.ttmo | 0x034 => r.detctl
  | 0x040 => r.cycle | 0x041 => r.instret | 0x042 => BitVec.ofNat 64 s.time
  | 0x100 => h.sstat | 0x101 => r.stvec | 0x102 => r.cause | 0x103 => r.epc | 0x104 => r.eval | 0x105 => r.eidx
  | 0x106 => r.sscratch
  | 0x107 => c.asid | 0x108 => c.ptroot | 0x109 => c.vdtbase
  | 0x10A => match s.gang with
    | some g => g.eclsw
    | none => 0
  | 0x10B => match s.gang with
    | some g => g.erefill
    | none => 0
  | 0x10C => c.dampcfg | 0x10D => r.tleft | 0x10E => c.saveptr
  | 0x200 => h.fstat | 0x201 => h.fw.ftvec | 0x202 => h.fw.fcause | 0x203 => h.fw.fepc | 0x204 => h.fw.feval
  | 0x205 => h.fw.feidx
  | _ => 0

/-- `VLMAX` of a `VTYPE` (R8, R13). -/
def vlmaxOf (t : Word) : Nat := 1024 / Nat.max 1 (sewBits (bitsAt t.toNat 0 3))
/-- Whether `VL` fits a `VTYPE` (R13). -/
def vlFits (t vl : Word) : Bool :=
  let bl := blLen (bitsAt t.toNat 9 2)
  decide (vl.toNat ≤ vlmaxOf t) && (bl == 0 || vl.toNat % bl == 0)

/-- The bits of a register that are not reserved (R5). `TASK`, `TILE0`-`TILE2`, `TN`, `LB0`, `LB1`, `LE0` and `LE1`, which no
rule gives a layout, hold 64 bits here, none of them reserved (DESIGN CHOICE, log 44). -/
def srMask (n : Nat) : Word :=
  match n with
  | 0x000 => 0xFFF | 0x001 => 0x3FF | 0x002 => 0xF | 0x003 => 0xFFF | 0x005 => 0xFFFFFFFF | 0x006 => 0x7
  | 0x007 => 0xFF | 0x008 => 0x37F7F | 0x009 => 0x3 | 0x030 => 0xF | 0x033 => 0xFFFFFFFFFFFF
  | 0x100 => 0xF0013F | 0x101 => 0x7FFFFFFFFFFFFC | 0x102 => 0xFF | 0x103 => 0x7FFFFFFFFFFFFF | 0x105 => 0xFFF
  | 0x107 => 0xFFFF | 0x108 => 0x3FFFFFFFFFF0000 | 0x109 => 0x3FFFFFFFFFFFFC0 | 0x10B => 0xFFFFFFFFFFFF
  | 0x10C => 0x80000000000000FF | 0x10D => 0x8000FFFFFFFFFFFF | 0x10E => 0x3FFFFFFFFFFF000
  | 0x200 => 0x10F | 0x201 => 0x7FFFFFFFFFFFFC | 0x202 => 0xFF | 0x203 => 0x7FFFFFFFFFFFFF | 0x205 => 0xFFF
  | _ => 0xFFFFFFFFFFFFFFFF

/-- Whether a register's own rules accept a value (R5, R13, R42, R92, R141, R325-R327, R346, R355). -/
def State.srAccepts (s : State) (n : Nat) (w : Word) : Bool :=
  let r := s.hart.sr
  let ppl := bitsAt w.toNat 2 2
  (w &&& ~~~ srMask n == 0) && (match n with
    | 0x000 => vtypeOk w && vlFits w r.vl
    | 0x001 => vlFits r.vtype w
    | 0x002 => decide (1 ≤ w.toNat) && decide (w.toNat ≤ 8)
    | 0x006 => decide (w.toNat ≤ 4)
    | 0x008 => acfgOk w
    | 0x012 | 0x013 | 0x014 | 0x015 => w.toNat % 4 == 0
    | 0x030 => w != 0
    | 0x100 => ppl != 3 && !(ppl == 2 && s.hart.st.pl == .s)
    | 0x200 => ppl != 3
    | 0x10A => match s.gang with
      | some g => g.ebcap == 0 || (List.range 4).all fun c => decide (bitsAt w.toNat (16 * c) 16 ≤ g.ebcap)
      | none => true
    | 0x10C => !(w.getLsbD 63 && bitsAt w.toNat 0 8 == 0)
    | _ => true)

/-- The privilege a 2-bit code names (R346). -/
def privOf (n : Nat) : Priv := if n = 0 then .u else if n = 1 then .s else .f

/-- A write of `DIRTY`: a bit cleared from 1 zeroes its register (R18), which no longer holds a value whose parity fails. -/
def Hart.setDirty (h : Hart) (w : Word) : Hart :=
  let clean := (List.finRange 32).filter fun i => h.sr.dirty.getLsbD i.val && !w.getLsbD i.val
  { h with v := clean.foldl (fun (v : Vector Tile 32) (i : Fin 32) => v.set i 0) h.v, sr := { h.sr with dirty := w }
           struck := h.struck.filter fun r => !clean.any fun i => r == .v i }

/-- Requests PREEMPT for one hart; requests merge (R355). -/
def Hart.askPreempt (ctxWide : Bool) (h : Hart) : Hart :=
  { h with preempt := some (ctxWide || h.preempt == some true) }
/-- Whether a hart holds a slot of a cluster for a context. -/
def Hart.holds (ctx die cluster : Nat) (h : Hart) : Bool :=
  h.bound && h.ctx == ctx && h.place.die == die && h.place.cluster == cluster
/-- Requests PREEMPT for a whole context (R355): every bound hart, and at once the channels of clusters where no hart of
the context is bound (R356 step 6). A context that stands in its save area has nothing to save (R367). -/
def State.askContext (s : State) (ctx : Nat) : State :=
  if s.isAway ctx then s
  else
    let s := s.modCtx ctx fun c => { c with preempt := true }
    let s : State := { s with harts := s.harts.map fun h => if h.ctx == ctx && h.status == .running then h.askPreempt true else h }
    s.quiesce ctx fun id => !s.harts.any (Hart.holds ctx id.die id.cluster)

/-- Writes a system register with the effect its own rule gives it (R96). -/
def State.srPut (s : State) (n : Nat) (w : Word) : State :=
  let sr (f : SysRegs → SysRegs) : State := s.modSr f
  let cx (f : Ctx → Ctx) : State := s.modCtx s.hart.ctx f
  let gg (f : Gang → Gang) : State := s.modGang s.hart.ctx s.hart.gang f
  match n with
  | 0x000 => sr fun r => { r with vtype := w }
  | 0x001 => sr fun r => { r with vl := w }
  | 0x002 => sr fun r => { r with vr := w }
  | 0x003 => sr fun r => { r with vstart := w }
  | 0x004 => sr fun r => { r with rowlen := w }
  | 0x005 => s.modHart fun h => h.setDirty w
  | 0x006 => sr fun r => { r with frm := w }
  | 0x007 => sr fun r => { r with fflags := w }
  | 0x008 => s.modHart fun h => { h with sr := { h.sr with acfg := w }, acfgDec := w }
  | 0x009 => sr fun r => { r with mstat := w }
  | 0x00A => sr fun r => { r with ctab0 := w }
  | 0x00B => sr fun r => { r with ctab1 := w }
  | 0x00C => sr fun r => { r with ctab2 := w }
  | 0x00D => sr fun r => { r with ctab3 := w }
  | 0x010 => sr fun r => { r with lc0 := w }
  | 0x011 => sr fun r => { r with lc1 := w }
  | 0x012 => sr fun r => { r with lb0 := w }
  | 0x013 => sr fun r => { r with lb1 := w }
  | 0x014 => sr fun r => { r with le0 := w }
  | 0x015 => sr fun r => { r with le1 := w }
  | 0x024 => sr fun r => { r with task := w }
  | 0x025 => sr fun r => { r with tile0 := w }
  | 0x026 => sr fun r => { r with tile1 := w }
  | 0x027 => sr fun r => { r with tile2 := w }
  | 0x028 => sr fun r => { r with tn := w }
  | 0x030 => sr fun r => { r with wshare := w }
  | 0x032 => sr fun r => { r with dampstat := w }
  | 0x033 => sr fun r => { r with ttmo := w }
  | 0x100 => s.modHart fun h =>
      { h with st := { h.st with tf := w.getLsbD 8, paie := w.getLsbD 5, aie := w.getLsbD 4
                                 ppl := privOf (bitsAt w.toNat 2 2) } }
  | 0x101 => (cx fun c => { c with stvec := w }).modSr fun r => { r with stvec := w }
  | 0x102 => sr fun r => { r with cause := w }
  | 0x103 => sr fun r => { r with epc := w }
  | 0x104 => sr fun r => { r with eval := w }
  | 0x105 => sr fun r => { r with eidx := w }
  | 0x106 => sr fun r => { r with sscratch := w }
  | 0x107 => cx fun c => { c with asid := w }
  | 0x108 => cx fun c => { c with ptroot := w }
  | 0x109 => cx fun c => { c with vdtbase := w }
  | 0x10A => gg fun g => { g with eclsw := w }
  | 0x10B => gg fun g => { g with erefill := w }
  | 0x10C => cx fun c => { c with dampcfg := w }
  | 0x10D =>
    let s' := s.modHart fun h => { h with sr := { h.sr with tleft := w &&& 0xFFFFFFFFFFFF }, ticks := 0 }
    if w.getLsbD 63 then s'.askContext s.hart.ctx else s'
  | 0x10E => cx fun c => { c with saveptr := w }
  | 0x200 => s.modHart fun h =>
      { h with fw := { h.fw with tf := w.getLsbD 8, ppl := privOf (bitsAt w.toNat 2 2) } }
  | 0x201 => s.modHart fun h => { h with fw := { h.fw with ftvec := w } }
  | 0x202 => s.modHart fun h => { h with fw := { h.fw with fcause := w } }
  | 0x203 => s.modHart fun h => { h with fw := { h.fw with fepc := w } }
  | 0x204 => s.modHart fun h => { h with fw := { h.fw with feval := w } }
  | 0x205 => s.modHart fun h => { h with fw := { h.fw with feidx := w } }
  | _ => s

/-- The registers that E-side instructions read or write, whose accesses wait for the E-queue (R21). -/
def esideSr (n : Nat) : Bool := n == 0x005 || n == 0x007 || n == 0x008 || n == 0x009 || (0x00A ≤ n && n ≤ 0x00D)
/-- The registers an access waits for: `DIRTY` tells of every write before it, so of each tile register that stands empty
(R18, R20). -/
def srAlso (f : Fields) : List Reg := if srNum f = 0x005 then (List.finRange 32).map Reg.v else []
/-- Whether an access waits for the E-queue. -/
def State.srWaits (s : State) (f : Fields) : Bool := esideSr (srNum f) && !s.hart.waiting.isEmpty
/-- `gsr` (R96); `CYCLE`, `TIME`, `EBUDGET` and `DAMPSTAT` are refused in a deterministic gang (R296). -/
def execGsr (f : Fields) (s : State) : Out :=
  issue f { illegal := ifExecuted f (srCheck f false)
            also := srAlso f
            body := fun s =>
              let n := srNum f
              orIllegal (srCheck f false s) s <|
              if s.srWaits f then .wait s
              else if s.hart.det && (n == 0x040 || n == 0x042 || n == 0x031 || n == 0x032) then .trap s cNONDET 0x07 0
              else .done (s.modHart fun h => h.put f.d (.word (s.srGet n))) } s

/-- The three forms of `ssr`: the value is checked, then written with its register's own effect (R96). A form whose guard is false
writes no value, and its value is not checked (DESIGN CHOICE, log 11). -/
def ssrOp (f : Fields) (op : Word → Word → Word) (s : State) : Out :=
  issue f { illegal := ifExecuted f (srCheck f true)
            also := srAlso f
            body := fun s =>
              let n := srNum f
              orIllegal (srCheck f true s) s <|
              let w := op (s.srGet n) (s.hart.xr f.a)
              if s.srWaits f then .wait s
              else if s.srAccepts n w then .done (s.srPut n w)
              else .trap s cILLEGAL (Illegal.eval ⟨0x0E, 4, BitVec.ofNat 12 n⟩) 0 } s
/-- `ssr` (R96). -/
def execSsr (f : Fields) (s : State) : Out := ssrOp f (fun _ a => a) s
/-- `ssr.set` (R96). -/
def execSsrSet (f : Fields) (s : State) : Out := ssrOp f (· ||| ·) s
/-- `ssr.clr` (R96). -/
def execSsrClr (f : Fields) (s : State) : Out := ssrOp f (fun o a => o &&& ~~~ a) s

/-- `fence`: `REL` puts the earlier accesses of its streams before later writes, `ACQ` their reads before every later access (R97,
R202). -/
def execFence (f : Fields) (s : State) : Out :=
  aside f (fun s => .done (s.modHart fun h =>
    let h := if f.imm.getLsbD 9 then h.order .release f.smask else h
    if f.imm.getLsbD 8 then h.order .acquire f.smask else h)) s
/-- `sbar`: the accesses of its streams before it come before those of its streams after it (R97, R200). -/
def execSbar (f : Fields) (s : State) : Out :=
  aside f (fun s => .done (s.modHart fun h => h.order .streams f.smask)) s
/-- `ifence`: the code words fetched ahead are discarded, so that later fetches read memory afresh (R98). It
waits for no acquire read before it that is still to be performed (DESIGN CHOICE, log 54). -/
def execIfence (f : Fields) (s : State) : Out := aside f (fun s => .done (s.modHart fun h => { h with ahead := [] })) s

/-- `sys`: SYSCALL with the code in `EVAL` (R99). -/
def execSys (f : Fields) (s : State) : Out :=
  aside f (fun s => .trap s cSYSCALL (f.imm.setWidth 64) 0) s
/-- `ebrk`: BREAK (R99). -/
def execEbrk (f : Fields) (s : State) : Out :=
  aside f (fun s => .trap s cBREAK (f.imm.setWidth 64) 0) s
/-- `eret` at S and at F (R100, R353, R399). -/
def execEret (f : Fields) (s : State) : Out :=
  aside f (fun s => .other (s.modHart fun h =>
    let h := h.eret
    { h with sr := { h.sr with instret := h.sr.instret + 1 }, wait := none })) s

/-- Whether a held translation lies within a scope of the hart (R101). -/
def tlbScope (f : Fields) (p : Place) (e : TlbEntry) : Bool :=
  match bitsAt f.imm.toNat 0 3 with
  | 1 => e.level.core == some (coreOf p)
  | 3 => e.level.die == p.die
  | _ => true
/-- Whether a hart lies within a scope of the hart at a place. -/
def tlbHart (f : Fields) (p : Place) (h : Hart) : Bool :=
  match bitsAt f.imm.toNat 0 3 with
  | 1 => h.core == coreOf p
  | 3 => h.place.die == p.die
  | _ => true
/-- What `tlbinv` leaves of an entry: a matching one goes where its level lies within the scope, and at CORE scope the core's die keeps it
for its other cores (R101). -/
def tlbKeeps (f : Fields) (p : Place) (hit : TlbEntry → Bool) (e : TlbEntry) : Option TlbEntry :=
  if !hit e then some e
  else if tlbScope f p e then none
  else if bitsAt f.imm.toNat 0 3 = 1 ∧ e.level = .l2 p.die then some { e with bars := coreOf p :: e.bars }
  else some e
/-- The accesses of a hart that stand behind an acquire that is still to be performed. -/
def Hart.acquired (h : Hart) : List Access :=
  h.pend.dropWhile fun a => match a.op with
    | .order .acquire _ => false
    | _ => true
/-- Performs, for every hart of a scope, what it has issued behind an acquire and translated before now, so that none of it comes after the
`tlbinv` with an old translation (R101, R344). -/
def State.settleScope (s : State) (f : Fields) : State :=
  ((List.range s.harts.length).filter fun n => tlbHart f s.hart.place (s.hartAt n)).foldl
    (fun (s : State) n => s.performSome n (s.hartAt n).acquired.contains) s
/-- `tlbinv`: every earlier store is performed, then the matching entries are removed (R101). -/
def tlbinvOp (f : Fields) (hit : Hart → TlbEntry → Bool) (s : State) : Out :=
  aside f (fun s =>
    let s := (s.drainAll s.cur).settleScope f
    .done { s with tlb := s.tlb.filterMap (tlbKeeps f s.hart.place (hit s.hart)) }) s
def TlbEntry.global (e : TlbEntry) : Bool := e.pte.getLsbD 6
/-- `tlbinv.all`: every entry with G = 0 (R101). -/
def execTlbinvAll (f : Fields) (s : State) : Out := tlbinvOp f (fun _ e => !e.global) s
/-- `tlbinv.asid` (R101). -/
def execTlbinvAsid (f : Fields) (s : State) : Out :=
  tlbinvOp f (fun h e => !e.global && e.asid == (h.xr f.a).toNat % 2 ^ 16) s
/-- `tlbinv.va` (R101). -/
def execTlbinvVa (f : Fields) (s : State) : Out :=
  tlbinvOp f (fun h e =>
    let va := (h.xr f.a).toNat
    decide (e.vbase ≤ va) && decide (va < e.vbase + e.size)
      && (e.global || e.asid == (h.xr f.b).toNat % 2 ^ 16)) s
/-- `tlbinv.glob`: every entry (R101). -/
def execTlbinvGlob (f : Fields) (s : State) : Out := tlbinvOp f (fun _ _ => true) s

/-- Records that the hart waits, and since when (R221). -/
def Hart.sleep (h : Hart) (now : Nat) (obj : Option Nat) (ends : Bool) : Hart :=
  match h.wait with
  | some w => { h with wait := some { w with asleep := true } }
  | none => { h with wait := some ⟨now, obj, false, true, ends, false⟩ }

/-- `hctl.wfi`: completes once an asynchronous cause is pending for the hart (R102). -/
def execHctlWfi (f : Fields) (s : State) : Out :=
  aside f (fun s =>
    let h := s.hart
    if h.preempt.isSome || !h.causes.isEmpty then .done s
    else .wait (s.modHart fun h => h.sleep s.time none true)) s

/-- `hctl.pre`: requests PREEMPT for one hart of the context (R102). -/
def execHctlPre (f : Fields) (s : State) : Out :=
  aside f (fun s =>
    let h := s.hart
    let gid := if (h.xr f.b).toNat % 2 ^ 32 = 0 then h.gang else (h.xr f.b).toNat % 2 ^ 32
    let hit (x : Hart) : Bool :=
      x.ctx == h.ctx && x.gang == gid && x.hartid == (h.xr f.a).toNat && x.bound
    let found := s.harts.any hit
    let s := { s with harts := s.harts.map fun x => if hit x && x.status == HartStatus.running then x.askPreempt false else x }
    .done (s.modHart fun h => h.put f.d (.word (truth found)))) s

end Sys2Proof.Machine
end

