-- ==== Sys2Proof/Machine/VecCfg.lean ====
section
/-! DEFINITION. Vector configuration (R103-R105). -/
namespace Sys2Proof.Machine

/-- The granted length (R104). -/
def grant (vtype : Word) (n : Nat) : Nat :=
  let g := Nat.min n (vlmaxOf vtype)
  let bl := vtBl vtype
  if bl = 0 then g else bl * (g / bl)
/-- The element count of the tile (R104). -/
def Geom.count (g : Geom) : Nat := ((List.range g.vr).map g.len).foldl (· + ·) 0

/-- Sets a shape register and D (R103). -/
def cfgOp (f : Fields) (set : Hart → Hart) (val : Hart → Word) (s : State) : Out :=
  aside f (fun s => .done (s.modHart fun h => let h := set h; h.put f.d (.word (val h)))) s
def setVl (n : Nat) (h : Hart) : Hart := { h with sr := { h.sr with vl := BitVec.ofNat 64 (grant h.sr.vtype n) } }
def setVr (n : Nat) (h : Hart) : Hart := { h with sr := { h.sr with vr := BitVec.ofNat 64 (Nat.min (Nat.max n 1) 8) } }
def setVt (t : Word) (h : Hart) : Hart :=
  { h with sr := { h.sr with vtype := t, vl := BitVec.ofNat 64 (grant t h.sr.vl.toNat) } }
def countX (h : Hart) : Word := BitVec.ofNat 64 h.geom.count

/-- `setvl` (R104). -/
def execSetvl (f : Fields) (s : State) : Out := cfgOp f (fun h => setVl (h.xr f.a).toNat h) (·.sr.vl) s
/-- `setvl`, immediate form. -/
def execSetvlI (f : Fields) (s : State) : Out := cfgOp f (setVl f.imm.toNat) (·.sr.vl) s
/-- `setvr` (R103). -/
def execSetvr (f : Fields) (s : State) : Out := cfgOp f (fun h => setVr (h.xr f.a).toNat h) (·.sr.vr) s
/-- `setvr`, immediate form. -/
def execSetvrI (f : Fields) (s : State) : Out := cfgOp f (setVr f.imm.toNat) (·.sr.vr) s
/-- `setvt`: a value that fails is ILLEGAL when the instruction executes (R105). -/
def execSetvt (f : Fields) (s : State) : Out :=
  aside f (fun s =>
    let t := s.hart.xr f.a
    if vtypeOk t then .done (s.modHart fun h => let h := setVt t h; h.put f.d (.word h.sr.vl))
    else .trap s cILLEGAL (Illegal.eval ⟨0x0A, 4, 0⟩) 0) s
/-- `setvt`, immediate form: the value was checked at decode (R105). -/
def execSetvtI (f : Fields) (s : State) : Out := cfgOp f (setVt ((f.imm.extractLsb' 0 12).setWidth 64)) (·.sr.vl) s
/-- `setrl` (R104). -/
def execSetrl (f : Fields) (s : State) : Out :=
  cfgOp f (fun h => { h with sr := { h.sr with rowlen := h.xr f.a } }) countX s
/-- `setrl.row`: one byte of `ROWLEN` (R103). -/
def execSetrlRow (f : Fields) (s : State) : Out :=
  cfgOp f (fun h =>
    let n := (h.xr f.b).toNat % 8
    { h with sr := { h.sr with
        rowlen := BitVec.ofNat 64 (putBits h.sr.rowlen.toNat (8 * n) 8 (Nat.min (h.xr f.a).toNat 255)) } }) countX s

end Sys2Proof.Machine
end

