-- ==== Sys2Proof/Machine/VecArith.lean ====
section
/-! DEFINITION. Element-wise vector arithmetic, conversion, quantisation, moves, random numbers and the code table
(R107-R118). -/
namespace Sys2Proof.Machine

/-! Integer arithmetic (R110). -/

/-- An integer form: `op` on the elements' values, taken modulo 2^w. -/
def vint (f : Fields) (imm : Bool) (op : Int → Int → Int) (s : State) : Out :=
  eside f (fmtChk f intFmts false) noneAlso (sweepBody f imm false fun g a b _ _ =>
    let v := intOf g.sew g.signed
    (bitsOf g.sew (op (v a) (v b)), 0)) s
/-- An accumulating form, which reads its destination (R24, R110). -/
def vaccum (f : Fields) (imm : Bool) (op : Int → Int → Int → Int) (s : State) : Out :=
  esideOp false [] [f.d] f (fmtChk f intFmts false) noneAlso (sweepBody f imm false fun g a b _ old =>
    let v := intOf g.sew g.signed
    (bitsOf g.sew (op (v old) (v a) (v b)), 0)) s
/-- A bitwise form (R110). -/
def vbits (f : Fields) (imm : Bool) (op : Nat → Nat → Nat) (s : State) : Out :=
  eside f (fmtChk f notTern true) noneAlso (sweepBody f imm false fun _ a b _ _ => (op a b, 0)) s
/-- A shift of the w-bit pattern by b mod w (R110). -/
def vshift (f : Fields) (imm : Bool) (op : Nat → Nat → Nat → Nat) (s : State) : Out :=
  eside f (fmtChk f intFmts false) noneAlso (sweepBody f imm false fun g a b _ _ => (op g.sew a (b % g.sew) % 2 ^ g.sew, 0)) s
/-- The high half of a product (R110): the product over 2^w, rounded down. -/
def vmulhOp (f : Fields) (imm : Bool) (s : State) : Out :=
  eside f (fmtChk f intFmts false) noneAlso (sweepBody f imm false fun g a b _ _ =>
    let v := intOf g.sew g.signed
    (bitsOf g.sew (v a * v b / (2 ^ g.sew : Nat)), 0)) s
/-- The clamped sum (R110). -/
def vsaddOp (f : Fields) (imm : Bool) (s : State) : Out :=
  eside f (fmtChk f intFmts false) noneAlso (sweepBody f imm false fun g a b _ _ =>
    let v := intOf g.sew g.signed
    let c := clamp g.sew g.signed (v a + v b)
    (bitsOf g.sew c.1, flagIf c.2 flVSAT)) s

/-- `vadd` (R110). -/
def execVadd (f : Fields) (s : State) : Out := vint f false (fun a b => a + b) s
/-- `vadd`, immediate form (R110). -/
def execVaddI (f : Fields) (s : State) : Out := vint f true (fun a b => a + b) s
/-- `vsub` (R110). -/
def execVsub (f : Fields) (s : State) : Out := vint f false (fun a b => a - b) s
/-- `vsub`, immediate form (R110). -/
def execVsubI (f : Fields) (s : State) : Out := vint f true (fun a b => a - b) s
/-- `vmul` (R110). -/
def execVmul (f : Fields) (s : State) : Out := vint f false (fun a b => a * b) s
/-- `vmul`, immediate form (R110). -/
def execVmulI (f : Fields) (s : State) : Out := vint f true (fun a b => a * b) s
/-- `vmulh` (R110). -/
def execVmulh (f : Fields) (s : State) : Out := vmulhOp f false s
/-- `vmulh`, immediate form (R110). -/
def execVmulhI (f : Fields) (s : State) : Out := vmulhOp f true s
/-- `vmacc` (R110). -/
def execVmacc (f : Fields) (s : State) : Out := vaccum f false (fun o a b => o + a * b) s
/-- `vmacc`, immediate form (R110). -/
def execVmaccI (f : Fields) (s : State) : Out := vaccum f true (fun o a b => o + a * b) s
/-- `vmacc.n` (R110). -/
def execVmaccN (f : Fields) (s : State) : Out := vaccum f false (fun o a b => o - a * b) s
/-- `vmacc.n`, immediate form (R110). -/
def execVmaccNI (f : Fields) (s : State) : Out := vaccum f true (fun o a b => o - a * b) s
/-- `vand` (R110). -/
def execVand (f : Fields) (s : State) : Out := vbits f false (· &&& ·) s
/-- `vand`, immediate form (R110). -/
def execVandI (f : Fields) (s : State) : Out := vbits f true (· &&& ·) s
/-- `vor` (R110). -/
def execVor (f : Fields) (s : State) : Out := vbits f false (· ||| ·) s
/-- `vor`, immediate form (R110). -/
def execVorI (f : Fields) (s : State) : Out := vbits f true (· ||| ·) s
/-- `vxor` (R110). -/
def execVxor (f : Fields) (s : State) : Out := vbits f false (· ^^^ ·) s
/-- `vxor`, immediate form (R110). -/
def execVxorI (f : Fields) (s : State) : Out := vbits f true (· ^^^ ·) s
/-- `vsll` (R110). -/
def execVsll (f : Fields) (s : State) : Out := vshift f false (fun _ a n => a * 2 ^ n) s
/-- `vsll`, immediate form (R110). -/
def execVsllI (f : Fields) (s : State) : Out := vshift f true (fun _ a n => a * 2 ^ n) s
/-- `vsrl` (R110). -/
def execVsrl (f : Fields) (s : State) : Out := vshift f false (fun _ a n => a / 2 ^ n) s
/-- `vsrl`, immediate form (R110). -/
def execVsrlI (f : Fields) (s : State) : Out := vshift f true (fun _ a n => a / 2 ^ n) s
/-- `vsra` (R110). -/
def execVsra (f : Fields) (s : State) : Out := vshift f false (fun w a n => bitsOf w (intOf w true a / (2 ^ n : Nat))) s
/-- `vsra`, immediate form (R110). -/
def execVsraI (f : Fields) (s : State) : Out := vshift f true (fun w a n => bitsOf w (intOf w true a / (2 ^ n : Nat))) s
/-- `vmin` (R110). -/
def execVmin (f : Fields) (s : State) : Out := vint f false (fun a b => if a < b then a else b) s
/-- `vmin`, immediate form (R110). -/
def execVminI (f : Fields) (s : State) : Out := vint f true (fun a b => if a < b then a else b) s
/-- `vmax` (R110). -/
def execVmax (f : Fields) (s : State) : Out := vint f false (fun a b => if a < b then b else a) s
/-- `vmax`, immediate form (R110). -/
def execVmaxI (f : Fields) (s : State) : Out := vint f true (fun a b => if a < b then b else a) s
/-- `vsadd` (R110). -/
def execVsadd (f : Fields) (s : State) : Out := vsaddOp f false s
/-- `vsadd`, immediate form (R110). -/
def execVsaddI (f : Fields) (s : State) : Out := vsaddOp f true s

/-! Floating-point arithmetic (R111). -/

/-- A floating-point form on the elements' bits. -/
def vfp (f : Fields) (long : Bool) (op : FpFmt → Rm → Nat → Nat → Nat → Nat × Flags) (s : State) : Out :=
  esideOp long [] (mergeReads f) f (fmtChk f fpFmts false) noneAlso (sweepBody f false long fun g a b c _ => op g.fp (g.rm f) a b c) s

/-- `vfadd` (R111). -/
def execVfadd (f : Fields) (s : State) : Out :=
  vfp f false (fun t m a b _ => fpAdd t m (t.decode a) (t.decode b)) s
/-- `vfsub` (R111). -/
def execVfsub (f : Fields) (s : State) : Out :=
  vfp f false (fun t m a b _ => fpAdd t m (t.decode a) (t.decode b).neg) s
/-- `vfmul` (R111). -/
def execVfmul (f : Fields) (s : State) : Out :=
  vfp f false (fun t m a b _ => fpMul t m (t.decode a) (t.decode b)) s
/-- `vffma` (R111). -/
def execVffma (f : Fields) (s : State) : Out :=
  vfp f false (fun t m a b c => fpFma t m (t.decode a) (t.decode b) (t.decode c)) s
/-- `vffma.ms` (R111). -/
def execVffmaMs (f : Fields) (s : State) : Out :=
  vfp f false (fun t m a b c => fpFma t m (t.decode a) (t.decode b) (t.decode c).neg) s
/-- `vffma.nm` (R111). -/
def execVffmaNm (f : Fields) (s : State) : Out :=
  vfp f false (fun t m a b c => fpFma t m (t.decode a).neg (t.decode b) (t.decode c)) s
/-- `vffma.nms` (R111). -/
def execVffmaNms (f : Fields) (s : State) : Out :=
  vfp f false (fun t m a b c => fpFma t m (t.decode a).neg (t.decode b) (t.decode c).neg) s
/-- `vfdiv` (R111). -/
def execVfdiv (f : Fields) (s : State) : Out :=
  vfp f true (fun t m a b _ => fpDiv t m (t.decode a) (t.decode b)) s
/-- `vfsqrt` (R111). -/
def execVfsqrt (f : Fields) (s : State) : Out :=
  vfp f true (fun t m a _ _ => fpSqrt t m (t.decode a)) s
/-- `vfrcpe` (R47). -/
def execVfrcpe (f : Fields) (s : State) : Out :=
  vfp f false (fun t _ a _ _ => recipEst t (t.decode a)) s
/-- `vfrsqe` (R47). -/
def execVfrsqe (f : Fields) (s : State) : Out :=
  vfp f false (fun t _ a _ _ => rsqrtEst t (t.decode a)) s
/-- `vfmin` (R86). -/
def execVfmin (f : Fields) (s : State) : Out :=
  vfp f false (fun t _ a b _ => fpMinMax false t a b) s
/-- `vfmax` (R86). -/
def execVfmax (f : Fields) (s : State) : Out :=
  vfp f false (fun t _ a b _ => fpMinMax true t a b) s
/-- `vfsgn` (R111). -/
def execVfsgn (f : Fields) (s : State) : Out :=
  vfp f false (fun t _ a b _ => (withSign t a (signOf t b), 0)) s
/-- `vfsgn.n` (R111). -/
def execVfsgnN (f : Fields) (s : State) : Out :=
  vfp f false (fun t _ a b _ => (withSign t a (!signOf t b), 0)) s
/-- `vfsgn.x` (R111). -/
def execVfsgnX (f : Fields) (s : State) : Out :=
  vfp f false (fun t _ a b _ => (withSign t a (signOf t a != signOf t b), 0)) s
/-- `vfclass` (R112). A signalling NaN sets `NV` (R36). -/
def execVfclass (f : Fields) (s : State) : Out :=
  vfp f false (fun t _ a _ _ => (fpClass t a, snanFlag [t.decode a])) s

/-- A comparison of two elements in the snapshot's format (R112). -/
def elemCmp (k : Nat) (g : Geom) (a b : Nat) : Bool × Flags :=
  if g.isFp then fpCmp k g.fp a b
  else
    let x := intOf g.sew g.signed a
    let y := intOf g.sew g.signed b
    (match k with
      | 0 => decide (x = y)
      | 1 => decide (x < y)
      | 2 => decide (x ≤ y)
      | _ => false, 0)
/-- Writes a mask register after a pass; nothing where no bit was written. -/
def Hart.putMask (h : Hart) (r : Reg) (t : Nat) : Hart := h.put r (.mask (BitVec.ofNat 4096 t))
/-- `vfcmp`: one mask bit for each active element (R112). -/
def vfcmpOp (k : Nat) (f : Fields) (s : State) : Out :=
  eside f (fmtChk f intFpFmts false) noneAlso (fun h g =>
    let a := (h.tr f.a).toNat
    let r := pass (h.activeCells f g) (·.e) 1
      (fun p => let c := elemCmp k g (elemBits a g.sew p.r p.c) (h.elemB f false g p); (if c.1 then 1 else 0, c.2))
      (h.kr f.d).toNat
    (h.raise r.2.1).putMask f.d r.1) s
/-- `vfcmp.eq` (R112). -/
def execVfcmpEq (f : Fields) (s : State) : Out := vfcmpOp 0 f s
/-- `vfcmp.lt` (R112). -/
def execVfcmpLt (f : Fields) (s : State) : Out := vfcmpOp 1 f s
/-- `vfcmp.le` (R112). -/
def execVfcmpLe (f : Fields) (s : State) : Out := vfcmpOp 2 f s
/-- `vfcmp.un` (R112). -/
def execVfcmpUn (f : Fields) (s : State) : Out := vfcmpOp 3 f s

/-! Conversion and quantisation (R113, R114). -/

/-- The destination format and width of `vfcvt` (Table 6). -/
def cvtFmt (f : Fields) : Nat := bitsAt f.imm.toNat 16 5
def cvtWidth (f : Fields) : Nat := sewBits (bitsAt f.imm.toNat 12 3)
/-- The checks of `vfcvt` that read the snapshot (R113): the class of A, R39, and the destination's size. -/
def vfcvtChk (f : Fields) (g : Geom) : Option Illegal :=
  let isQ : Bool := match f.a with
    | .q _ => true
    | _ => false
  if g.bl != 0 && isQ then some ⟨0x06, 4, 0⟩
  else if decide (g.vl * cvtWidth f > 1024) || g.tooManyBlocks then badFmt
  else none
/-- A value in the destination format of `vfcvt` (R113). -/
def cvtTo (fmt d : Nat) (sat : Bool) (mode : Rm) (x : FVal) : Nat × Flags :=
  if fmtIsInt fmt then cvti d (fmt == 0) mode x
  else
    let r := if sat then sround (fpFmtOf fmt d) mode x else round (fpFmtOf fmt d) mode x
    (r.1, snanFlag [x] ||| r.2)
/-- The scale register that a conversion of blocked elements reads (R39). -/
def scalesRead (f : Fields) (h : Hart) : List Reg := if h.geom.bl = 0 then [] else scaleReg f.a
/-- `vfcvt` (R113). -/
def execVfcvt (f : Fields) (s : State) : Out :=
  esideOp false [] (mergeReads f ++ scalesRead f s.hart) f (vfcvtChk f) (scalesRead f) (fun h g =>
    let d := cvtWidth f
    let r := pass (h.activeCells f g) (tileOff d) d
      (fun p =>
        let v := h.valA f g p
        let c := cvtTo (cvtFmt f) d (f.imm.getLsbD 11) (g.rm f) v.1
        (c.1, v.2 ||| c.2)) (h.tr f.d).toNat
    (h.raise r.2.1).putTile f.d r.1 r.2.2) s

/-- `emax` of a quantised format (R40). -/
def mxEmax (fmt : Nat) : Int := if fmt = 4 then 8 else if fmt = 5 then 15 else if fmt = 6 then 2 else 0
/-- floor(log2) of the largest magnitude of a block, or none where every value is zero (R40). -/
def maxLog (xs : List FVal) : Option Int :=
  xs.foldl (fun acc x => match x with
    | .fin _ m e => if m = 0 then acc else
        let t := e + bitLen m - 1
        match acc with
        | some u => some (if u < t then t else u)
        | none => some t
    | _ => acc) none
/-- `mxscale` (R40): the scale, the elements and the flags. -/
def mxScale (xs : List FVal) (fmt : Nat) : Nat × List Nat × Flags :=
  if xs.any fun x => x.isNaN || x.isInf then (255, xs.map fun _ => 0, flNV)
  else match maxLog xs with
    | none => (0, xs.map fun _ => 0, 0)
    | some l =>
      let x0 := l - mxEmax fmt
      let x1 : Int := if x0 < -127 then -127 else if x0 > 127 then 127 else x0
      let rs := xs.map fun x =>
        if fmt = 9 then cvti 8 true .rne (x.scale (6 - x1)) else sround (fpFmtOf fmt 8) .rne (x.scale (-x1))
      ((x1 + 127).toNat, rs.map (·.1), rs.foldl (fun a r => a ||| r.2) 0)

/-- The checks of `vmxq` that read the snapshot (R114). -/
def vmxqChk (f : Fields) (g : Geom) : Option Illegal :=
  let dbl := blLen (bitsAt f.imm.toNat 13 2)
  if !fpFmts g.fmt || g.bl != 0 then badFmt
  else if g.vl % dbl ≠ 0 ∨ g.vr * g.vl > 32 * dbl then badFmt
  else none
/-- One block of `vmxq`: the image of the tile and of the scales, and the flags (R114). -/
def vmxqBlock (h : Hart) (f : Fields) (g : Geom) (dbl w : Nat) (acc : Nat × Nat × Flags × Bool) (b : Nat) :
    Nat × Nat × Flags × Bool :=
  let idx := (List.range dbl).map (b * dbl + ·)
  if !idx.any g.intile then acc
  else
    let a := (h.tr f.a).toNat
    let cell (e : Nat) : Cell := ⟨e / g.vl, e % g.vl, e⟩
    let xs := idx.map fun e =>
      if g.intile e then g.fp.decode (elemBits a g.sew (e / g.vl) (e % g.vl)) else .fin false 0 0
    let q := mxScale xs (bitsAt f.imm.toNat 8 5)
    let t := ((idx.zip q.2.1).filter fun p => g.intile p.1).foldl
      (fun t p => putBits t (tileOff w (cell p.1)) w p.2) acc.1
    (t, putBits acc.2.1 (8 * (32 * (f.d.vNum % 4) + b)) 8 q.1, acc.2.2.1 ||| q.2.2, true)
/-- `vmxq` (R114). -/
def execVmxq (f : Fields) (s : State) : Out :=
  esideOp false (scaleReg f.d) [] f (vmxqChk f) (fun _ => scaleReg f.d) (fun h g =>
    let dbl := blLen (bitsAt f.imm.toNat 13 2)
    let w := if bitsAt f.imm.toNat 8 5 = 6 then 4 else 8
    let r := (List.range (g.vr * g.vl / Nat.max 1 dbl)).foldl (vmxqBlock h f g dbl w)
      ((h.tr f.d).toNat, (h.scaleFor f.d).toNat, 0, false)
    let h := (h.raise r.2.2.1).putTile f.d r.1 r.2.2.2
    match scaleReg f.d with
    | sr :: _ => h.put sr (.scale (BitVec.ofNat 1024 r.2.1))
    | [] => h) s

/-! Moves (R115, R116). -/

/-- A bit pattern as a move writes it: a TERN2 0b10 becomes 0b00 and sets `TRES` (R115, R120). -/
def moved (g : Geom) (bits : Nat) : Nat × Flags := if g.fmt = 7 ∧ bits = 2 then (0, flTRES) else (bits, 0)
/-- The check of the `vmv` forms: every format and `BL`, and R39. -/
def moveChk (f : Fields) : Geom → Option Illegal := fmtChk f anyFmt true
/-- `vmv` (R115). -/
def execVmv (f : Fields) (s : State) : Out :=
  eside f (moveChk f) noneAlso (sweepBody f false false fun g a _ _ _ => moved g a) s
/-- `vmv.x`: x[A] at every active element (R115). -/
def execVmvX (f : Fields) (s : State) : Out :=
  eside f (moveChk f) noneAlso (fun h g =>
    sweepBody f false false (fun g _ _ _ _ => moved g ((h.xr f.a).toNat % 2 ^ g.sew)) h g) s
/-- `vmv.i` (R115). -/
def execVmvI (f : Fields) (s : State) : Out :=
  eside f (moveChk f) noneAlso (sweepBody f true false fun g _ b _ _ => moved g b) s
/-- An element as a scalar: sign-extended when `FMT` = INT (R116, R124). -/
def extElem (g : Geom) (bits : Nat) : Word :=
  if g.signed then BitVec.ofInt 64 (intOf g.sew true bits) else BitVec.ofNat 64 bits
/-- The check of `vmv.xv`, to which R39 applies where its source is a `v` register. -/
def moveXvChk (f : Fields) : Geom → Option Illegal :=
  match f.a with
  | .v _ => moveChk f
  | _ => fun g => fmtChk f anyFmt false { g with bl := 0 }
/-- `vmv.xv` (R116). A TERN2 0b10 is read as 0 and sets `TRES` (R34; that R116 adds nothing to it is DEDUCED, log 52). -/
def execVmvXv (f : Fields) (s : State) : Out :=
  eside f (moveXvChk f) noneAlso (fun h g =>
    let idx := bitsAt f.imm.toNat 0 12
    let m := if g.intile idx then moved g (elemBits (h.tr f.a).toNat g.sew (idx / g.vl) (idx % g.vl)) else (0, 0)
    (h.raise m.2).produce f.d (.word (extElem g m.1))) s

/-! Random numbers (R48, R117). -/

def rotl64 (a : Word) (n : Nat) : Word := (a <<< n) ||| (a >>> (64 - n))
/-- RHO and SIG (R48). -/
def rho (i : Nat) : Nat := if i % 4 = 0 then 11 else if i % 4 = 1 then 27 else if i % 4 = 2 then 41 else 5
def sig (i : Nat) : Nat := if i % 4 = 0 then 19 else if i % 4 = 1 then 37 else if i % 4 = 2 then 3 else 53
/-- The rounds of `mix`, the fuel counting those that remain. -/
def mixRounds (i : Nat) (a b k : Word) : Nat → Word × Word
  | 0 => (a, b)
  | n + 1 =>
    let a := rotl64 (a + (b ^^^ k)) (rho i)
    let b := rotl64 (b + (a ^^^ rotl64 k 17)) (sig i) ^^^ a
    mixRounds (i + 1) a b (k + 0xA0C61B395D27E8F3) n
/-- `mix(key, ctr)` (R48). -/
def mix (key : Word) (ctr : Nat) : Word :=
  let r := mixRounds 0 (BitVec.ofNat 64 ctr) (BitVec.ofNat 64 (ctr / 2 ^ 64)) key 12
  let z := r.1 ^^^ r.2
  let z := (z ^^^ (z >>> 33)) * 0x9C2E5F17B4A36D81
  z ^^^ (z >>> 29)
/-- The element drawn from 64 bits (R117, Table 8). -/
def vrndElem (g : Geom) (z : Nat) : Nat :=
  if g.isInt then z % 2 ^ g.sew
  else
    let n : Nat := match g.fp with
      | .f64 => 53
      | .f32 => 24
      | .f16 => 11
      | _ => 8
    (round g.fp .rne (.fin false (z / 2 ^ (64 - n)) (-(n : Int)))).1
/-- x[B] and the register after it. -/
def regAfter : Reg → Reg
  | .x n => if h : n.val + 1 < 64 then .x ⟨n.val + 1, h⟩ else .x n
  | r => r
/-- The 128-bit counter of `vrnd`. -/
def Hart.counter (h : Hart) (f : Fields) : Nat := (h.xr (regAfter f.b)).toNat * 2 ^ 64 + (h.xr f.b).toNat
/-- `vrnd` with and without the advance of its counter (R117). -/
def vrndOp (adv : Bool) (f : Fields) (s : State) : Out :=
  esideOp false (if adv then [f.b, regAfter f.b] else []) (f.b :: regAfter f.b :: mergeReads f) f (fmtChk f intFpFmts false) (fun _ => [regAfter f.b]) (fun h g =>
    let ctr := h.counter f
    let r := pass (h.activeCells f g) (tileOff g.sew) g.sew
      (fun p => (vrndElem g (mix (h.xr f.a) ((ctr + p.e) % 2 ^ 128)).toNat, 0)) (h.tr f.d).toNat
    let h := h.putTile f.d r.1 r.2.2
    if adv then
      let n := (ctr + g.vr * g.vl) % 2 ^ 128
      h.produceAll [(f.b, .word (BitVec.ofNat 64 n)), (regAfter f.b, .word (BitVec.ofNat 64 (n / 2 ^ 64)))]
    else h) s
/-- `vrnd` (R117). -/
def execVrnd (f : Fields) (s : State) : Out := vrndOp false f s
/-- `vrnd.adv` (R117). -/
def execVrndAdv (f : Fields) (s : State) : Out := vrndOp true f s

/-! The code table (R118). -/

def SysRegs.setCtab (r : SysRegs) (n : Nat) (w : Word) : SysRegs :=
  match n with
  | 0 => { r with ctab0 := w }
  | 1 => { r with ctab1 := w }
  | 2 => { r with ctab2 := w }
  | _ => { r with ctab3 := w }
/-- `ctabw`: the sixteen entries from row 0 of A (R118). -/
def execCtabw (f : Fields) (s : State) : Out :=
  eside f (fun _ => none) noneAlso (fun h _ =>
    let t := (h.tr f.a).toNat
    let w (n : Nat) : Word := BitVec.ofNat 64 (bitsAt t (64 * n) 64)
    { h with sr := { h.sr with ctab0 := w 0, ctab1 := w 1, ctab2 := w 2, ctab3 := w 3 } }) s
/-- `ctabw.x` (R118). -/
def execCtabwX (f : Fields) (s : State) : Out :=
  eside f (fun _ => none) noneAlso (fun h _ =>
    { h with sr := h.sr.setCtab (bitsAt f.imm.toNat 0 2) (h.xr f.a) }) s

end Sys2Proof.Machine
end

