-- ==== Sys2Proof/Machine/Masks.lean ====
section
/-! DEFINITION. Mask instructions (R122) and reductions (R49, R50, R123-R126). -/
namespace Sys2Proof.Machine

/-! Mask instructions (R122). -/

/-- A mask instruction over whole masks. -/
def kOp (f : Fields) (op : Hart → Geom → Mask) (s : State) : Out :=
  eside f (fun _ => none) noneAlso (fun h g => h.put f.d (.mask (op h g))) s
/-- `kand` (R122). -/
def execKand (f : Fields) (s : State) : Out := kOp f (fun h _ => h.kr f.a &&& h.kr f.b) s
/-- `kor` (R122). -/
def execKor (f : Fields) (s : State) : Out := kOp f (fun h _ => h.kr f.a ||| h.kr f.b) s
/-- `kxor` (R122). -/
def execKxor (f : Fields) (s : State) : Out := kOp f (fun h _ => h.kr f.a ^^^ h.kr f.b) s
/-- `kandn` (R122). -/
def execKandn (f : Fields) (s : State) : Out := kOp f (fun h _ => h.kr f.a &&& ~~~ h.kr f.b) s
/-- `kset`: every bit := IMM[0] (R122). -/
def execKset (f : Fields) (s : State) : Out :=
  kOp f (fun _ _ => if f.imm.getLsbD 0 then BitVec.allOnes 4096 else 0) s
/-- The mask of the tile's positions. -/
def Geom.tileMask (g : Geom) : Nat := g.cells.foldl (fun m p => m ||| 2 ^ p.e) 0
/-- `kset.tile` (R122). -/
def execKsetTile (f : Fields) (s : State) : Out := kOp f (fun _ g => BitVec.ofNat 4096 g.tileMask) s
/-- `kset.lt` (R122). -/
def execKsetLt (f : Fields) (s : State) : Out :=
  kOp f (fun h _ => BitVec.ofNat 4096 (2 ^ Nat.min (h.xr f.a).toNat 4096 - 1)) s
/-- `kmv` (R122). -/
def execKmv (f : Fields) (s : State) : Out := kOp f (fun h _ => h.kr f.a) s
/-- `kmv.x`: bits [64n+63:64n] of D := x[A] (R122). -/
def execKmvX (f : Fields) (s : State) : Out :=
  esideOp false [] [f.d] f (fun _ => none) noneAlso (fun h _ => h.put f.d (.mask
    (BitVec.ofNat 4096 (putBits (h.kr f.d).toNat (64 * bitsAt f.imm.toNat 0 6) 64 (h.xr f.a).toNat)))) s

/-- The active positions at which mask A is set, ascending (R122). -/
def Hart.activeSet (h : Hart) (f : Fields) (g : Geom) : List Cell :=
  (h.activeCells f g).filter fun p => (h.kr f.a).getLsbD p.e
/-- An E-side instruction whose scalar result an A-side reader waits for (R120). -/
def kScalar (f : Fields) (op : Hart → Geom → Word) (s : State) : Out :=
  eside f (fun _ => none) noneAlso (fun h g => h.produce f.d (asScalar f.d (op h g))) s
/-- `kcnt` (R122). -/
def execKcnt (f : Fields) (s : State) : Out := kScalar f (fun h g => BitVec.ofNat 64 (h.activeSet f g).length) s
/-- `kany` (R122). -/
def execKany (f : Fields) (s : State) : Out := kScalar f (fun h g => truth !(h.activeSet f g).isEmpty) s
/-- `kany.all` (R122). -/
def execKanyAll (f : Fields) (s : State) : Out :=
  kScalar f (fun h g => truth ((h.activeCells f g).all fun p => (h.kr f.a).getLsbD p.e)) s
/-- `kfirst` (R122). -/
def execKfirst (f : Fields) (s : State) : Out :=
  kScalar f (fun h g => match h.activeSet f g with
    | p :: _ => BitVec.ofNat 64 p.e
    | [] => 0xFFFFFFFFFFFFFFFF) s
/-- `kmv.kx` (R122). -/
def execKmvKx (f : Fields) (s : State) : Out :=
  kScalar f (fun h _ => BitVec.ofNat 64 (bitsAt (h.kr f.a).toNat (64 * bitsAt f.imm.toNat 0 6) 64)) s
/-- `kmv.v` (R122), whose tile R39 bounds too (R69 step 6). -/
def execKmvV (f : Fields) (s : State) : Out :=
  eside f (blocksFit f.a) noneAlso (fun h g =>
    let a := (h.tr f.a).toNat
    let r := pass (h.activeCells f g) (·.e) 1
      (fun p => (if elemBits a g.sew p.r p.c = 0 then 0 else 1, 0)) (h.kr f.d).toNat
    h.putMask f.d r.1) s
/-- `kmv.kv`: INT and UINT only (R122). -/
def execKmvKv (f : Fields) (s : State) : Out :=
  eside f (fmtChk f intFmts false) noneAlso (fun h g =>
    let r := pass (h.activeCells f g) (tileOff g.sew) g.sew
      (fun p => (if (h.kr f.a).getLsbD p.e then 1 else 0, 0)) (h.tr f.d).toNat
    h.putTile f.d r.1 r.2.2) s

/-! Reductions. -/

/-- The operations of Table 2 of R123. -/
inductive RedOp where
  | sum
  | max
  | min
  | and
  | or
  | xor
  deriving DecidableEq, Repr

/-- ⊕ on two elements' bits (R123, Table 2). -/
def redStep (o : RedOp) (g : Geom) (mode : Rm) (a b : Nat) : Nat × Flags :=
  let v := intOf g.sew g.signed
  match o with
  | .sum =>
    if g.isFp then fpAdd g.fp mode (g.fp.decode a) (g.fp.decode b) else ((a + b) % 2 ^ g.sew, 0)
  | .max => if g.isFp then fpMinMax true g.fp a b else (if v a < v b then b else a, 0)
  | .min => if g.isFp then fpMinMax false g.fp a b else (if v b < v a then b else a, 0)
  | .and => (a &&& b, 0)
  | .or => (a ||| b, 0)
  | .xor => (a ^^^ b, 0)
/-- The identity of ⊕ (R49, Table 5). -/
def redId (o : RedOp) (g : Geom) : Nat :=
  match o with
  | .sum => if g.isFp then g.fp.sign true else 0
  | .max => if g.isFp then g.fp.sign true + g.fp.infBits else bitsOf g.sew (intMin g.sew g.signed)
  | .min => if g.isFp then g.fp.infBits else bitsOf g.sew (intMax g.sew g.signed)
  | .and => 2 ^ g.sew - 1
  | .or => 0
  | .xor => 0

/-- One step of ⊕ that carries flags. -/
def redAcc (o : RedOp) (g : Geom) (mode : Rm) (a b : Nat × Flags) : Nat × Flags :=
  let r := redStep o g mode a.1 b.1
  (r.1, a.2 ||| b.2 ||| r.2)
/-- One level of the tree: lane j takes lane j + s (R49). -/
def redFold (o : RedOp) (g : Geom) (mode : Rm) (s : Nat) (p : List (Nat × Flags)) : List (Nat × Flags) :=
  List.zipWith (redAcc o g mode) (p.take s) (p.drop s)
/-- The 64 virtual lanes and their tree over (lane index, bits), in the given order (R49, R126). -/
def redTree (o : RedOp) (g : Geom) (mode : Rm) (xs : List (Nat × Nat)) : Nat × Flags :=
  let lane (j : Nat) : Nat × Flags :=
    (xs.filter fun x => x.1 % 64 == j).foldl (fun acc x => redAcc o g mode acc (x.2, 0)) (redId o g, 0)
  let p := [32, 16, 8, 4, 2, 1].foldl (fun p s => redFold o g mode s p) ((List.range 64).map lane)
  p.headD (redId o g, 0)

/-- The seed, where IMM[11] names one (R123). -/
def Hart.seedOf (h : Hart) (f : Fields) (g : Geom) : Option Nat :=
  if f.imm.getLsbD 11 then some ((h.xr f.b).toNat % 2 ^ g.sew) else none
/-- Combines the seed after a result. -/
def withSeed (o : RedOp) (g : Geom) (mode : Rm) (t : Nat × Flags) (seed : Option Nat) : Nat × Flags :=
  match seed with
  | some s => redAcc o g mode t (s, 0)
  | none => t

/-- The decode checks of a reduction that read the snapshot (R123): `RM` with an integer format, the format, `BL`. -/
def redChk (f : Fields) (ok : Nat → Bool) (g : Geom) : Option Illegal :=
  if bitsAt f.imm.toNat 8 3 ≠ 0 ∧ intFmts g.fmt then some ⟨0x08, 12, 0⟩
  else if !ok g.fmt || g.bl != 0 then badFmt
  else none
/-- Writes a reduction's result (R124); over a tile with `VL` = 0 a tile destination is left as it is (R104). -/
def Hart.putRed (h : Hart) (f : Fields) (g : Geom) (r : Nat × Flags) : Hart :=
  let h := h.raise r.2
  match f.d with
  | .x _ => h.produce f.d (.word (extElem g r.1))
  | d => h.putTile d (putBits (h.tr d).toNat 0 g.sew r.1) (g.vl != 0)

/-- The active elements of A with their linear indices. -/
def Hart.activeVals (h : Hart) (f : Fields) (g : Geom) : List (Nat × Nat) :=
  let a := (h.tr f.a).toNat
  (h.activeCells f g).map fun p => (p.e, elemBits a g.sew p.r p.c)
/-- `vred` of an operation (R124). -/
def vredOp (o : RedOp) (ok : Nat → Bool) (f : Fields) (s : State) : Out :=
  esideOp false [] [] f (redChk f ok) noneAlso (fun h g =>
    let mode := g.rm f
    h.putRed f g (withSeed o g mode (redTree o g mode (h.activeVals f g)) (h.seedOf f g))) s
/-- `vred.sum` (R124). -/
def execVredSum (f : Fields) (s : State) : Out := vredOp .sum intFpFmts f s
/-- `vred.max` (R124). -/
def execVredMax (f : Fields) (s : State) : Out := vredOp .max intFpFmts f s
/-- `vred.min` (R124). -/
def execVredMin (f : Fields) (s : State) : Out := vredOp .min intFpFmts f s
/-- `vred.and` (R124). -/
def execVredAnd (f : Fields) (s : State) : Out := vredOp .and intFmts f s
/-- `vred.or` (R124). -/
def execVredOr (f : Fields) (s : State) : Out := vredOp .or intFmts f s
/-- `vred.xor` (R124). -/
def execVredXor (f : Fields) (s : State) : Out := vredOp .xor intFmts f s

/-- `vfredo.sum`: the seed, or -0.0, then the active elements in order (R50, R125). -/
def execVfredoSum (f : Fields) (s : State) : Out :=
  esideOp false [] [] f (redChk f fpFmts) noneAlso (fun h g =>
    let start := ((h.seedOf f g).getD (redId .sum g), (0 : Flags))
    h.putRed f g ((h.activeVals f g).foldl (fun acc x => redAcc .sum g (g.rm f) acc (x.2, 0)) start)) s

/-- `vredrow` of an operation: element (0, r) for every r below `VR` (R126). -/
def vredrowOp (o : RedOp) (ok : Nat → Bool) (f : Fields) (s : State) : Out :=
  esideOp false [] [] f (redChk f ok) noneAlso (fun h g =>
    let mode := g.rm f
    let a := (h.tr f.a).toNat
    let res (p : Cell) : Nat × Flags :=
      let xs := ((g.row p.c).filter (h.active f)).map fun q => (q.c, elemBits a g.sew q.r q.c)
      withSeed o g mode (redTree o g mode xs) (h.seedOf f g)
    let r := pass ((List.range g.vr).map fun r => ⟨0, r, r⟩) (tileOff g.sew) g.sew res (h.tr f.d).toNat
    (h.raise r.2.1).putTile f.d r.1 r.2.2) s
/-- `vredrow.sum` (R126). -/
def execVredrowSum (f : Fields) (s : State) : Out := vredrowOp .sum intFpFmts f s
/-- `vredrow.max` (R126). -/
def execVredrowMax (f : Fields) (s : State) : Out := vredrowOp .max intFpFmts f s
/-- `vredrow.min` (R126). -/
def execVredrowMin (f : Fields) (s : State) : Out := vredrowOp .min intFpFmts f s
/-- `vredrow.and` (R126). -/
def execVredrowAnd (f : Fields) (s : State) : Out := vredrowOp .and intFmts f s
/-- `vredrow.or` (R126). -/
def execVredrowOr (f : Fields) (s : State) : Out := vredrowOp .or intFmts f s
/-- `vredrow.xor` (R126). -/
def execVredrowXor (f : Fields) (s : State) : Out := vredrowOp .xor intFmts f s

end Sys2Proof.Machine
end

