-- ==== Sys2Proof/Machine/Mmio.lean ====
section
/-! DEFINITION. Registers that lie in memory: the die windows' `SRCARVE`, `CTXRES` and `RASCNT` (R183, R365, R394), and `IOC0`'s
launch-queue mirrors, communicator bases and context registers (R373, R376, R382). -/
namespace Sys2Proof.Machine

def State.modHost (s : State) (f : HostState → HostState) : State := { s with host := f s.host }
def State.modMaster (s : State) (m : Nat) (f : MasterRegs → MasterRegs) : State :=
  if h : m < 33 then s.modHost fun x => { x with masters := x.masters.set m (f x.masters[m]) } else s
def State.master (s : State) (m : Nat) : MasterRegs := if h : m < 33 then s.host.masters[m] else {}

/-! The carve-out (R183, R184). -/

/-- Forgets the bytes of a physical range: they read as zero afterwards. -/
def State.forget (s : State) (pa n : Nat) : State :=
  { s with mem := s.mem.filter fun c => decide (c.1 < pa) || decide (pa + n ≤ c.1)
           veils := s.unveil pa n
           poison := s.poison.filter fun u => decide (u.1 + u.2 ≤ pa) || decide (pa + n ≤ u.1) }
/-- A write of `SRCARVE`: ignored as a whole when it is out of range; else n changes in one step of the die. The home of
every tuple, request and slot follows n (R240, R252), so it is moved by the change itself; carve-out bytes that come or
go are lost. -/
def State.writeSrcarve (s : State) (d w : Nat) : State :=
  if w > 16 then s
  else
    let n := (s.die d).srcarve
    let lo := Nat.min n w
    (s.forget (s.paOf (dieWindow d + 0x8000000 + lo * sliceBytes)) ((Nat.max n w - lo) * sliceBytes)).modDie d
      fun x => { x with srcarve := w }

/-! Resumes (R358, R365). -/

/-- The header words of a save area. -/
def State.saveWord (s : State) (area i : Nat) : Nat := s.readN (area + 8 * i) 8
/-- Sets `ERR` and `ECODE` of a header unless `ERR` is set. -/
def State.saveError (s : State) (area code : Nat) : State :=
  if (s.saveWord area 5).testBit 63 then s else s.writeN (area + 40) (2 ^ 63 + code) 8
/-- Rewrites `STATE` of a header. -/
def State.saveState (s : State) (area v : Nat) : State :=
  s.writeN area (putBits (s.saveWord area 0) 16 8 v) 8
/-- Whether a header refuses a resume (R365). -/
def State.resumeRefused (s : State) (area : Nat) : Bool :=
  let w0 := s.saveWord area 0
  bitsAt w0 24 8 != 1 || bitsAt w0 32 32 != 0 || bitsAt w0 16 8 == 1 || bitsAt w0 16 8 == 3
    || bitsAt (s.saveWord area 5) 8 55 != 0 || (s.saveWord area 5).testBit 63
    || (List.range 25).any fun i => s.saveWord area (7 + i) != 0
/-- A write of `CTXRES` (R365). -/
def State.writeCtxres (s : State) (d w : Nat) : State :=
  if (s.die d).resuming.isSome ∨ w % 2 ^ 12 ≠ 0 ∨ w ≥ 2 ^ 58 then s
  else if s.resumeRefused w then s.saveError w 3
  else (s.saveState w 3).modDie d fun x => { x with resuming := some w }

/-! Launch queues (R373). -/

def MasterRegs.queue (m : MasterRegs) (q : Nat) : LQueue := if h : q < 8 then m.queues[q] else {}
def MasterRegs.setQueue (m : MasterRegs) (q : Nat) (x : LQueue) : MasterRegs :=
  if h : q < 8 then { m with queues := m.queues.set q x } else m
/-- Whether a function acts for a context (R376). -/
def State.assigned (s : State) (func ctx : Nat) : Bool :=
  match s.ctxOf ctx with
  | some c => c.func == func || func == 0
  | none => false
/-- The image of `LQCFG`. -/
def LQueue.cfg (q : LQueue) : Nat := (if q.en then 2 ^ 63 else 0) + q.log2n * 2 ^ 16 + q.ctxid
def State.writeLqbase (s : State) (func q w : Nat) : State :=
  s.modMaster func fun m => m.setQueue q { m.queue q with base := bitsAt w 7 33 * 128 }
def State.writeLqcfg (s : State) (func q w : Nat) : State :=
  let n := bitsAt w 16 5
  if n < 4 ∨ n > 16 ∨ !s.assigned func (bitsAt w 0 16) then s.modMaster func fun m => { m with lqbad := m.lqbad + 1 }
  else s.modMaster func fun m => m.setQueue q
    { m.queue q with en := w.testBit 63, log2n := n, ctxid := bitsAt w 0 16, head := 0, tail := 0, bad := false, stale := false }
def State.writeLqtail (s : State) (func q w : Nat) : State :=
  let x := (s.master func).queue q
  let t := w % 2 ^ 32
  let ahead (v : Nat) : Nat := (v + 2 ^ 32 - x.head) % 2 ^ 32
  let bad := decide (ahead t > 2 ^ x.log2n) || decide (ahead t < ahead x.tail)
  s.modMaster func fun m => m.setQueue q (if bad then { x with bad := true } else { x with tail := t })
/-- Register r of queue q of a function: its value, its listed bits, and its write. -/
def State.lqRead (s : State) (func q r : Nat) : Nat :=
  let x := (s.master func).queue q
  match r with
  | 0x00 => x.base
  | 0x08 => x.cfg
  | 0x10 => x.head
  | 0x18 => x.tail
  | 0x20 => if x.bad then 1 else 0
  | _ => 0
def lqMask (r : Nat) : Nat :=
  match r with
  | 0x00 => 0xFFFFFFFF80
  | 0x08 => 0x80000000001FFFFF
  | 0x18 => 0xFFFFFFFF
  | _ => 0
def State.lqWrite (s : State) (func q r w : Nat) : State :=
  match r with
  | 0x00 => s.writeLqbase func q w
  | 0x08 => s.writeLqcfg func q w
  | 0x18 => s.writeLqtail func q w
  | _ => s

/-! Contexts (R376). -/

/-- Whether a rank of a collective waits for its end (R385). -/
def Coll.isOpen (c : Coll) : Bool := c.code.isNone || c.calls.any fun r => !r.ended
/-- Whether an engine operation of a context is unfinished. -/
def State.unfinished (s : State) (ctx : Nat) : Bool :=
  s.chans.any (fun c => c.id.ctx == ctx && c.busy) || s.prefetches.any (·.agent.ctx == ctx)
    || s.baseOps.any (·.agent.ctx == ctx) || s.meshJobs.any (·.ctx == ctx) || s.remaps.any (·.ctx == ctx)
    || s.refreshes.any (·.ctx == ctx) || s.colls.any (fun c => c.ctx == ctx && c.isOpen) || s.reqs.any (fun r => r.ctx == ctx && r.phase == .flying)
    || s.cbufs.any fun b => b.ctx == ctx && b.slots.any fun t => t.state == .closing
/-- A number no context has: harts of an ended context carry it. -/
abbrev noContext : Nat := 0x10000
/-- Removes a context and everything the package holds for it. A slot that firmware's double trap has halted stays halted (R399). -/
def State.endContext (s : State) (ctx : Nat) : State :=
  { s with
    ctxs := s.ctxs.filter (·.ctxid != ctx)
    gangs := s.gangs.filter (·.ctx != ctx)
    tasks := s.tasks.filter (·.ctx != ctx)
    bufs := s.bufs.filter (·.ctx != ctx)
    chans := s.chans.filter (·.id.ctx != ctx)
    score := s.score.filter (·.chan.ctx != ctx)
    races := s.races.filter (·.ctx != ctx)
    marks := s.marks.filter (·.ctx != ctx)
    issued := s.issued.filter (·.ctx != ctx)
    reqs := s.reqs.filter (·.ctx != ctx)
    tuples := s.tuples.filter (·.ctx != ctx)
    tdet := s.tdet.filter (·.ctx != ctx)
    cbufs := s.cbufs.filter (·.ctx != ctx)
    meshes := s.meshes.filter (·.ctx != ctx)
    colls := s.colls.filter (·.ctx != ctx)
    collCounts := s.collCounts.filter (·.ctx != ctx)
    owed := s.owed.filter (·.agent.ctx != ctx)
    checkpoints := s.checkpoints.filter (·.ctx.ctxid != ctx)
    blocks := match s.ctxOf ctx with
      | some c => s.blocks.filter (·.base != c.vdtbase.toNat)
      | none => s.blocks
    held := s.held.filter (·.ctx != ctx)
    harts := s.harts.map fun h =>
      if h.ctx == ctx && !h.bound then { h with ctx := noContext, status := if h.status = .halted then .halted else .exited } else h }
/-- A write of `CTXCR` (R376, R5). -/
def State.writeCtxcr (s : State) (ctx w : Nat) : State :=
  if bitsAt w 37 26 ≠ 0 ∨ bitsAt w 0 32 ≠ 0 then s
  else
    let func := bitsAt w 32 5
    match s.ctxOf ctx with
    | none => if w.testBit 63 then { s with ctxs := s.ctxs ++ [Ctx.fresh ctx func] } else s
    | some c =>
      if w.testBit 63 then
        if c.func = func then s
        else
          let s := s.modCtx ctx fun c => { c with func := func }
          s.modHost fun h => { h with masters := (h.masters.zipIdx).map fun (m, i) =>
            if i = func ∨ i = 0 then m
            else { m with queues := m.queues.map fun q => if q.ctxid = ctx then { q with stale := true } else q } }
      else if s.harts.any (fun h => h.ctx == ctx && (h.bound || h.status == .held))
          || s.unfinished ctx then
        s.logOpen 16 evError
      else s.endContext ctx
def State.ctxcr (s : State) (ctx : Nat) : Nat :=
  match s.ctxOf ctx with
  | some c => 2 ^ 63 + c.func * 2 ^ 32
  | none => 0
def State.ccommOf (s : State) (ctx : Nat) : Word :=
  match s.host.ccomm.find? (·.1 == ctx) with
  | some x => x.2
  | none => 0
def State.writeCcomm (s : State) (ctx w : Nat) : State :=
  s.modHost fun h => { h with ccomm := (if w = 0 then [] else [(ctx, BitVec.ofNat 64 w)]) ++ h.ccomm.filter (·.1 != ctx) }

/-! The windows. -/

/-- The registers of this package's windows. -/
inductive MmioAt where
  | srcarve (d : Nat)
  | ctxres (d : Nat)
  | rascnt (d : Nat)
  | queue (func q r : Nat)
  | ccomm (ctx : Nat)
  | ctxcr (ctx : Nat)
  | nothing
  deriving DecidableEq, Repr
/-- The 8-byte register at a place of a window. -/
def mmioAt (h : Home) : MmioAt :=
  match h with
  | .dieMmio d o => if o = 0 then .srcarve d else if o = 8 then .ctxres d else if o = 0x10 then .rascnt d else .nothing
  | .iocMmio 0 o =>
    if 0x1000 ≤ o ∧ o < 0x9000 then
      let b := (o - 0x1000) % 0x400
      if 0x100 ≤ b ∧ b < 0x300 then .queue ((o - 0x1000) / 0x400) ((b - 0x100) / 0x40) ((b - 0x100) % 0x40) else .nothing
    else if 0x100000 ≤ o ∧ o < 0x180000 then .ccomm ((o - 0x100000) / 8)
    else if 0x200000 ≤ o ∧ o < 0x280000 then .ctxcr ((o - 0x200000) / 8)
    else .nothing
  | _ => .nothing
def State.mmioGet (s : State) (r : MmioAt) : Nat :=
  match r with
  | .srcarve d => (s.die d).srcarve
  | .ctxres d => if (s.die d).resuming.isSome then 2 ^ 63 else 0
  | .rascnt d => (s.die d).rascnt.toNat
  | .queue f q r => s.lqRead f q r
  | .ccomm c => (s.ccommOf c).toNat
  | .ctxcr c => s.ctxcr c
  | .nothing => 0
def State.mmioPut (s : State) (r : MmioAt) (w : Nat) : State :=
  match r with
  | .srcarve d => s.writeSrcarve d w
  | .ctxres d => s.writeCtxres d w
  | .rascnt _ => s
  | .queue f q r => if w = w &&& lqMask r then s.lqWrite f q r w else s
  | .ccomm c => s.writeCcomm c w
  | .ctxcr c => s.writeCtxcr c w
  | .nothing => s

/-- Draws a free value. -/
def State.draw (s : State) : Word × State := (Config.freeValue s.free, { s with free := s.free + 1 })
/-- Whether an address lies in a register window: its bytes are registers, not memory. -/
def State.isMmio (s : State) (pa : Nat) : Bool :=
  match s.home pa with
  | .dieMmio _ _ | .iocMmio _ _ => true
  | _ => false
/-- Whether an address of a die MMIO window names no register. -/
def State.dieUnlisted (s : State) (pa : Nat) : Bool :=
  match s.home pa with
  | .dieMmio _ _ => mmioAt (s.home pa) == .nothing
  | _ => false
/-- A read of 4 or 8 aligned bytes of a register window. The registers of another package are no part of this state: a
read of them gives a free value, and one of an offset that names none gives zero (R337). -/
def State.mmioRead (s : State) (pa n : Nat) : Nat × State :=
  if s.dieUnlisted (pa / 8 * 8) then (0, s)
  else if pkgOf pa ≠ s.pkg then let d := s.draw; (d.1.toNat % 2 ^ (8 * n), d.2)
  else (bitsAt (s.mmioGet (mmioAt (s.home (pa / 8 * 8)))) (8 * (pa % 8)) (8 * n), s)
/-- A write of 4 or 8 aligned bytes; four bytes merge with the other half of the register. -/
def State.mmioWrite (s : State) (pa v n : Nat) : State :=
  if pkgOf pa ≠ s.pkg then s
  else
    let r := mmioAt (s.home (pa / 8 * 8))
    s.mmioPut r (putBits (s.mmioGet r) (8 * (pa % 8)) (8 * n) v)

end Sys2Proof.Machine
end

