-- ==== Sys2Proof/Machine/Memory.lean ====
section
/-! DEFINITION. Loads and stores: scalar (R155), tile (R156-R164) and sparse (R165-R167). -/
namespace Sys2Proof.Machine

/-- The register that an access fills. -/
def Access.dest (a : Access) : Option Reg :=
  match a.op with
  | .load d _ _ _ _ => some d
  | .rmw d _ _ _ => if isFixed d then none else some d
  | .store _ | .order _ _ | .request _ => none
/-- The value of a register, or of the entry that an access fills in a queue. -/
def Hart.valueFor (h : Hart) (a : Access) (r : Reg) : RegVal :=
  match r, a.op with
  | .q n, .load _ seq _ _ _ => .entry seq (((h.q[n]).find? (·.seq == seq)).elim 0 (·.tile))
  | r, _ => regVal r (h.image r)
/-- An access that has been performed for a hart whose result is still on its way: its register stands empty as it was (R23). -/
def Hart.delayed (a : Access) (r : Reg) (old now : Hart) : Hart :=
  { old.markEmpty r true with monitor := now.monitor, results := old.results ++ [(r, now.valueFor a r)] }
/-- Performs an access of the current hart at once, with what must precede it; its result may arrive later. -/
def State.accessNow (s : State) (a : Access) : State :=
  let (late, h) := s.hart.popLate
  let s0 := ({ s with harts := updAt s.harts s.cur fun _ => h }).clearFor s.cur a
  let s1 := s0.perform s.cur a
  match late, a.dest with
  | true, some r => s1.modHart fun x => s0.hart.delayed a r x
  | _, _ => s1
/-- Performs the part of an instruction that stops. -/
def State.accessStop (s : State) (a : Access) : State := (s.clearFor s.cur a).perform s.cur a
/-- Makes an access of the current hart. It is performed at once, with what must precede it, when it must precede every later one
(an acquire) or its check and its performance are one step; else the schedule decides. -/
def State.access (s : State) (a : Access) (now : Bool) : State :=
  if now then s.accessNow a else s.issueAccess s.cur a
/-- Whether an access must be performed with its checks: some piece lies in the scratchpad window, whose buffer state is checked at
performance (R191), or is tested for a race, which is one step with the performance at the line's home (R293, R294). A TCM access meets the scoreboard at its
issue (R194; DESIGN CHOICE, log 54). -/
def State.oneStep (s : State) (l : List Piece) : Bool :=
  l.any fun p => (p.win && inSpadWin p.va) || (s.hart.det && s.checked p.va p.win p.cls)
/-- `VSTART` as an element index (R17). -/
def Hart.vstart (h : Hart) : Nat := h.sr.vstart.toNat % 4096
/-- A DATA_ERROR (R154): `VSTART` stays, and `EIDX` equals it. -/
def dataError (s : State) (va : Nat) : Res := .trap s cDATA (BitVec.ofNat 64 va) s.hart.vstart
/-- What a failed check of an all-or-nothing access answers: its cause at element 0, or a stall. -/
def Chk.res (c : Chk) (s : State) : Res :=
  match c with
  | .trap cause eval => .trap s cause (BitVec.ofNat 64 eval) 0
  | _ => .wait s

/-! Scalar loads and stores (R155). -/

def memAddr (h : Hart) (f : Fields) : Nat := (h.xr f.a + f.imm.signExtend 64).toNat
def memSize (f : Fields) : Nat := 2 ^ bitsAt f.fn.toNat 0 2
def memOrd (f : Fields) : Bool := f.fn.getLsbD 3
/-- The address of an all-or-nothing access that is not a multiple of `n` (R153). -/
def misaligned (s : State) (a : Nat) : Res := .trap s cMISALIGNED (BitVec.ofNat 64 a) 0

/-- `ld` (R155). -/
def ldBody (f : Fields) (s : State) : Res :=
  let a := memAddr s.hart f
  let n := memSize f
  let ext : Ext := if f.fn.getLsbD 2 then .unsigned (8 * n) else .signed (8 * n)
  if a % n ≠ 0 then misaligned s a
  else match s.accessChk .load .read true a n with
    | .ok pa win cls =>
      let p : Piece := ⟨a, pa, n, win, cls⟩
      if s.isMmio pa then
        let r := (s.inStream f.strm false).mmioRead pa n
        .done (r.2.modHart fun h => h.produce f.d (asScalar f.d (BitVec.ofNat 64 (ext.apply r.1))))
      else if s.poisoned pa n then dataError s a
      else .done ((s.noteAll .read [p]).access
        (.of f.strm false false (.load f.d 0 0 ext [⟨a, pa, 0, 8 * n, 0⟩])) (memOrd f || s.oneStep [p]))
    | e => e.res s
def execLd (f : Fields) (s : State) : Host.Outcome State Fault Refusal :=
  issue f { wholly := true, body := ldBody f } s

/-- `st` (R155). -/
def stBody (f : Fields) (s : State) : Res :=
  let a := memAddr s.hart f
  let n := memSize f
  let v := (s.hart.xr f.b).toNat % 2 ^ (8 * n)
  if a % n ≠ 0 then misaligned s a
  else match s.accessChk .store .write true a n with
    | .ok pa win cls =>
      let p : Piece := ⟨a, pa, n, win, cls⟩
      if s.isMmio pa then .done ((s.clearFor s.cur (.of f.strm false (memOrd f) (.store []))).mmioWrite pa v n)
      else if s.partPoisoned pa n then dataError s a
      else .done ((s.noteAll .write [p]).access (.of f.strm false (memOrd f) (.store [⟨a, pa, 0, 8 * n, v⟩])) (s.oneStep [p]))
    | e => e.res s
def execSt (f : Fields) (s : State) : Host.Outcome State Fault Refusal :=
  issue f { wholly := true, body := stBody f } s

/-! The sweep of an interruptible instruction (R161). -/

/-- One element to be accessed: its index, the address it is named by, the address, bytes and bits accessed, where its bits lie in the
tile, and the lane whose bank translates it, of a strided or an indexed form (R343). -/
structure Elem where
  e : Nat
  va : Nat
  at_ : Nat
  n : Nat
  bit : Nat
  width : Nat
  off : Nat
  lane : Option Nat
  deriving DecidableEq, Repr
/-- Where a sweep stops: nowhere, at a fault of element e, at a stall. -/
inductive Stop where
  | none
  | fault (cause eval e : Nat)
  | stall
  deriving DecidableEq, Repr
/-- The probe pass: the elements that pass every check, in order, and where it stops. -/
def State.probe (s : State) (k : AccessKind) (rk : RaceKind) : List Elem → List (Elem × Piece) × Stop
  | [] => ([], .none)
  | x :: rest =>
    if 8 ≤ x.width ∧ x.at_ % x.n ≠ 0 then ([], .fault cMISALIGNED x.va x.e)
    else match s.accessLane x.lane k rk false x.at_ x.n with
      | .ok pa win cls => let r := s.probe k rk rest; ((x, ⟨x.at_, pa, x.n, win, cls⟩) :: r.1, r.2)
      | .trap c v => ([], .fault c (if v = x.at_ then x.va else v) x.e)
      | .stall => ([], .stall)
/-- What a sweep does: the access kinds, whether it writes, and the effect of the elements performed, with the element at which the
instruction stops behind them, if it does. `returns` marks an atomic that returns old values (R379). -/
structure Sweep where
  kind : AccessKind
  race : RaceKind
  elems : List Elem
  perform : State → List (Elem × Piece) → Option Nat → State
  returns : Bool
/-- Performs the active elements from `VSTART` on, up to the one that fails (R161), or up to the element at which the
schedule stops the instruction. Of an instruction whose first failing element raises PHASE nothing is performed, and `VSTART` stays (R226;
DEDUCED against R161, log 53). -/
def sweep (w : Sweep) (s : State) : Res :=
  let h := s.hart
  let todo := w.elems.filter (h.vstart ≤ ·.e)
  let cut : Option Nat := match h.cut with
    | some g => if h.vstart < g ∧ todo.any (g ≤ ·.e) then some g else none
    | none => none
  let todo := match cut with
    | some g => todo.filter (·.e < g)
    | none => todo
  let r := s.probe w.kind w.race todo
  let ps := r.1.map (·.2)
  let bad := (if w.kind = .atomic then s.firstSpoilt w.returns ps else s.firstPoison (kindWrites w.kind) ps).map fun va =>
    ((todo.find? (·.at_ == va)).map (·.va)).getD va
  match r.2, bad with
  | .stall, _ => .wait s
  | _, some va => dataError (w.perform s [] (some h.vstart)) va
  | .none, none =>
    let s := w.perform (s.noteAll w.race ps) r.1 cut
    match cut with
    | none => .done (s.modSr fun x => { x with vstart := 0 })
    | some g => .other (s.modHart fun h =>
        { h with sr := { h.sr with vstart := BitVec.ofNat 64 g }, cut := none, mid := true })
  | .fault c v e, none =>
    if c = cPHASE then .trap s c (BitVec.ofNat 64 v) e
    else
    let s := w.perform (s.noteAll w.race ps) r.1 (some e)
    .trap (s.modSr fun x => { x with vstart := BitVec.ofNat 64 e }) c (BitVec.ofNat 64 v) e

/-! Tile loads and stores (R156-R162). -/

/-- Fields of `IMM` (R157). -/
def tileOrd (f : Fields) : Bool := f.imm.getLsbD 12
def tileSc (f : Fields) : Bool := f.imm.getLsbD 10
def tileLay (f : Fields) : Nat := bitsAt f.imm.toNat 8 2
def offWidth (f : Fields) : Nat := if f.imm.getLsbD 11 then 64 else 32

/-- A signed stride of `w` bits. -/
def stride (w n : Nat) : Int := intOf w true (n % 2 ^ w)
/-- An address modulo 2^64. -/
def wrap (i : Int) : Nat := (i % (2 ^ 64 : Nat)).toNat
/-- The element at a byte address of its own (R159). -/
def wideElem (g : Geom) (p : Cell) (va : Nat) : Elem := ⟨p.e, va, va, g.sew / 8, 0, g.sew, tileOff g.sew p, none⟩
/-- An element that its lane translates by itself: the 16 lanes of a lane group carry 64 bits of a row each (R343; DEDUCED, log 16). -/
def laneElem (g : Geom) (p : Cell) (va : Nat) : Elem := { wideElem g p va with lane := some (p.c * g.sew / 64) }
/-- The element c of a row at a byte address: below 8 bits it is a part of a byte (R159). -/
def rowElemAt (g : Geom) (p : Cell) (row : Int) : Elem :=
  if 8 ≤ g.sew then wideElem g p (wrap (row + (p.c * (g.sew / 8) : Nat)))
  else
    let va := wrap (row + (p.c * g.sew / 8 : Nat))
    ⟨p.e, va, va, 1, p.c * g.sew % 8, g.sew, tileOff g.sew p, none⟩
/-- The base address x[A]. -/
def baseA (h : Hart) (f : Fields) : Int := (h.xr f.a).toNat
/-- Addresses of the four patterns (R156, Table 2). -/
def elemRow (h : Hart) (f : Fields) (g : Geom) (p : Cell) : Elem :=
  rowElemAt g p (baseA h f + p.r * stride 64 (h.xr f.b).toNat)
def elemPacked (h : Hart) (f : Fields) (g : Geom) (p : Cell) : Elem :=
  rowElemAt g p (baseA h f + (p.r * (g.vl * g.sew / 8) : Nat))
def elemStrided (h : Hart) (f : Fields) (g : Geom) (p : Cell) : Elem :=
  let b := (h.xr f.b).toNat
  laneElem g p (wrap (baseA h f + p.r * stride 32 b + p.c * stride 32 (b / 2 ^ 32)))
/-- Element (r, c) of the offset tile: 32 bits unsigned or 64 bits signed. An offset element that would lie beyond its
row of 1,024 bits has no value in the manual: it is a free value. -/
def offElem (s : State) (f : Fields) (p : Cell) : Int :=
  let w := offWidth f
  if w * p.c + w ≤ 1024 then intOf w (w == 64) (elemBits (s.hart.tr f.b).toNat w p.r p.c)
  else intOf w (w == 64) ((Config.ownValue s.hart.own p.e).toNat % 2 ^ w)
def elemIndexed (s : State) (f : Fields) (g : Geom) (p : Cell) : Elem :=
  laneElem g p (wrap (baseA s.hart f + offElem s f p))

/-- Rewrites the queue entry of a sequence number. -/
def Hart.modEntry (h : Hart) (n : Fin 4) (seq : Nat) (f : QEntry → QEntry) : Hart :=
  { h with q := h.q.set n ((h.q[n]).map fun e => if e.seq == seq then f e else e) }
/-- Pushes an unfilled queue entry for the load at the pc, which is about to fill it (R26, R160). -/
def State.openEntry (s : State) (n : Fin 4) : State :=
  s.modHart fun h => (h.pushQ n false (Config.freeTile h.own)).modEntry n h.seq fun e => { e with stopped := some h.vstart }
/-- The entry that the load at the hart's pc has pushed and not filled, because it stopped (R160). -/
def Hart.stoppedQ (h : Hart) (n : Fin 4) : Option QEntry := (h.q[n]).find? fun e => !e.filled && e.stopped.isSome && e.owner == h.pc
/-- Whether a load into a queue continues into the entry it has pushed before (R160). -/
def Hart.resumesQ (h : Hart) (f : Fields) : Bool :=
  match f.d with
  | .q n => (h.stoppedQ n).isSome
  | _ => false
/-- The parts of a load and of a store of elements. -/
def partsIn (l : List (Elem × Piece)) : List LoadPart := l.map fun x => ⟨x.2.va, x.2.pa, x.1.bit, x.1.width, x.1.off⟩
def partsOut (t : Nat) (l : List (Elem × Piece)) : List StorePart :=
  l.map fun x => ⟨x.2.va, x.2.pa, x.1.bit, x.1.width, bitsAt t x.1.off x.1.width⟩
/-- Whether an element of a `.sc` instruction lies in another package: the instruction is then an acquire or a release (R162, R205). -/
def State.scFar (s : State) (sc : Bool) (l : List (Elem × Piece)) : Bool := sc && l.any fun x => pkgOf x.2.pa != s.pkg
/-- Performs elements of a tile load: into a register, or into the queue entry that its first part pushed. A load that stops does so at
an element, which its entry keeps. -/
def loadElems (f : Fields) (acq sc : Bool) (s : State) (l : List (Elem × Piece)) (stop : Option Nat) : State :=
  let acc (op : AccessOp) : Access := { Access.of f.strm sc false op with view := tileLay f != 0 }
  match f.d with
  | .q n =>
    let seq := ((s.hart.stoppedQ n).map (·.seq)).getD s.hart.seq
    let old := ((s.hart.stoppedQ n).map (·.tile)).getD (Config.freeTile s.hart.own)
    let s := if s.hart.resumesQ f then s else s.openEntry n
    let op : AccessOp := .load (.q n) seq old.toNat .raw (partsIn l)
    match stop with
    | none => (s.modHart fun h => h.modEntry n seq fun x => { x with stopped := none }).access (acc op)
        (acq || s.scFar sc l || s.oneStep (l.map (·.2)) || l.isEmpty)
    | some g => (s.accessStop (acc op)).modHart fun h =>
        h.modEntry n seq fun x => { x with filled := false, stopped := some g }
  | d =>
    if l.isEmpty then s
    else
      let a := acc (.load d 0 (s.hart.image d) .raw (partsIn l))
      if stop.isSome then s.accessStop a else s.access a (acq || s.scFar sc l || s.oneStep (l.map (·.2)))
/-- Performs elements of a tile store; `rel` makes each a release write (R202). -/
def storeElems (f : Fields) (rel sc : Bool) (s : State) (l : List (Elem × Piece)) (stop : Option Nat) : State :=
  if l.isEmpty then s
  else
    let a := Access.of f.strm sc (rel || s.scFar sc l) (.store (partsOut (s.hart.tr f.c).toNat l))
    if stop.isSome then s.accessStop a else s.access a (s.oneStep (l.map (·.2)))
/-- The decode checks of R158 that read the shape. -/
def memLimit (bad : Bool) : Option Illegal := if bad then badFmt else none
def narrow (g : Geom) : Option Illegal := memLimit (decide (g.sew < 8))
def unpacked (g : Geom) : Option Illegal := memLimit (decide (g.vl * g.sew % 8 ≠ 0))
def offsetsFit (f : Fields) (g : Geom) : Option Illegal :=
  memLimit (decide (g.sew < 8) || decide (g.vl * offWidth f > 1024))

/-- A tile load of the elements that `el` gives for the active positions. R39 bounds its tile register, and a store's (R69 step 6). -/
def tileLoad (f : Fields) (chk : Geom → Option Illegal) (el : State → Geom → Cell → Elem) (s : State) :
    Host.Outcome State Fault Refusal :=
  issue f { illegal := fun s => chk s.hart.geom <|> blocksFit f.d s.hart.geom, resumesQ := s.hart.resumesQ f, reads := mergeReads f
            body := fun s =>
              let g := s.hart.geom
              sweep ⟨.load, .read, (s.hart.activeCells f g).map (el s g), loadElems f (tileOrd f) (tileSc f), false⟩ s } s
/-- A tile store. -/
def tileStore (f : Fields) (chk : Geom → Option Illegal) (el : State → Geom → Cell → Elem) (s : State) :
    Host.Outcome State Fault Refusal :=
  issue f { illegal := fun s => chk s.hart.geom <|> blocksFit f.c s.hart.geom
            body := fun s =>
              let g := s.hart.geom
              sweep ⟨.store, .write, (s.hart.activeCells f g).map (el s g), storeElems f (tileOrd f) (tileSc f), false⟩ s } s
def anyShape (_ : Geom) : Option Illegal := none

/-- `vld` (R156). -/
def execVld (f : Fields) (s : State) : Host.Outcome State Fault Refusal :=
  tileLoad f anyShape (fun s => elemRow s.hart f) s
/-- `vlds` (R156). -/
def execVlds (f : Fields) (s : State) : Host.Outcome State Fault Refusal :=
  tileLoad f narrow (fun s => elemStrided s.hart f) s
/-- `vldx` (R156). -/
def execVldx (f : Fields) (s : State) : Host.Outcome State Fault Refusal :=
  tileLoad f (offsetsFit f) (fun s => elemIndexed s f) s
/-- `vst` (R156). -/
def execVst (f : Fields) (s : State) : Host.Outcome State Fault Refusal :=
  tileStore f anyShape (fun s => elemRow s.hart f) s
/-- `vst.c` (R156). -/
def execVstC (f : Fields) (s : State) : Host.Outcome State Fault Refusal :=
  tileStore f unpacked (fun s => elemPacked s.hart f) s
/-- `vsts` (R156). -/
def execVsts (f : Fields) (s : State) : Host.Outcome State Fault Refusal :=
  tileStore f narrow (fun s => elemStrided s.hart f) s
/-- `vstx` (R156). -/
def execVstx (f : Fields) (s : State) : Host.Outcome State Fault Refusal :=
  tileStore f (offsetsFit f) (fun s => elemIndexed s f) s

/-! Transformed views (R164). -/

/-- Where element (r, c) of the view lies in its block, as a bit offset; `o` is the tile's byte offset in the view. -/
def layBit (lay : Nat) (g : Geom) (o : Nat) (p : Cell) : Nat :=
  let w := g.vl * g.sew / 8
  let v := 8 * (o + w * p.r) + g.sew * p.c
  if lay = 1 then
    let n := 512 / g.sew
    let k := v / g.sew
    g.sew * (k % 64 * n + k / 64)
  else
    let b := v / 8
    8 * (b / 64 % 8 * 512 + b / 512 * 64 + b % 64) + v % 8
/-- An element of a view, named by its address of Table 2 and read at its place in the block. -/
def elemView (h : Hart) (f : Fields) (g : Geom) (p : Cell) : Elem :=
  let a := (h.xr f.a).toNat
  let block := a / 4096 * 4096
  let bit := layBit (tileLay f) g (a - block) p
  ⟨p.e, wrap (a + (p.r * (g.vl * g.sew / 8) + p.c * g.sew / 8 : Nat)), block + bit / 8, Nat.max 1 (g.sew / 8), bit % 8,
    g.sew, tileOff g.sew p, none⟩
/-- Whether a view may be asked for (R164): x[A] must not translate to anything but normal or deterministic-tagged
HBM. -/
def layRefused (s : State) (f : Fields) : Bool :=
  let g := s.hart.geom
  let a := (s.hart.xr f.a).toNat
  let w := g.vl * g.sew
  f.men || tileSc f || g.ragged || !(w == 256 || w == 512 || w == 1024) || a % w != 0 ||
    (match s.resolve .load false a 1 with
      | .ok pa win cls => win || !s.isHbm pa || decide (cls > 1)
      | .trap c _ => decide (c = cACCESS)
      | .stall => false)
/-- `vld.c`, with its views (R156, R164). -/
def execVldC (f : Fields) (s : State) : Host.Outcome State Fault Refusal :=
  issue f { illegal := fun s => unpacked s.hart.geom <|> blocksFit f.d s.hart.geom, resumesQ := s.hart.resumesQ f, reads := mergeReads f
            body := fun s =>
              let g := s.hart.geom
              let load := loadElems f (tileOrd f) (tileSc f)
              let el := if tileLay f = 0 then elemPacked s.hart f g else elemView s.hart f g
              if tileLay f ≠ 0 ∧ layRefused s f then
                .trap (load s [] (some s.hart.vstart)) cACCESS (s.hart.xr f.a) s.hart.vstart
              else sweep ⟨.load, .read, (s.hart.activeCells f g).map el, load, false⟩ s } s

/-! Register images (R163). -/

/-- The bytes of a register image. -/
def imageBytes : Reg → Nat
  | .v _ => 1024
  | .k _ => 512
  | _ => 128
/-- `vld.r` (R163). -/
def execVldR (f : Fields) (s : State) : Host.Outcome State Fault Refusal :=
  issue f { wholly := true
            body := fun s =>
              let a := (s.hart.xr f.a).toNat
              if a % 64 ≠ 0 then misaligned s a
              else match s.chkRange .load .read a (imageBytes f.d) with
                | .error e => e.res s
                | .ok l => match s.firstPoison false l with
                  | some va => dataError s va
                  | none => .done ((s.noteAll .read l).access
                      (.of f.strm false false (.load f.d 0 0 .raw (loadParts 0 l))) (tileOrd f || s.oneStep l)) } s
/-- `vst.r` (R163). -/
def execVstR (f : Fields) (s : State) : Host.Outcome State Fault Refusal :=
  issue f { wholly := true
            body := fun s =>
              let a := (s.hart.xr f.a).toNat
              if a % 64 ≠ 0 then misaligned s a
              else match s.chkRange .store .write a (imageBytes f.c) with
                | .error e => e.res s
                | .ok l => match s.firstPoison true l with
                  | some va => dataError s va
                  | none => .done ((s.noteAll .write l).access
                      (.of f.strm false (tileOrd f) (.store (storeParts (s.hart.image f.c) l))) (s.oneStep l)) } s

/-! Sparse tiles (R165-R167). -/

/-- The bits of the tile's elements in their order, and how many there are. -/
def Geom.elements (g : Geom) (t : Nat) : List Nat := g.cells.map fun p => elemBits t g.sew p.r p.c
/-- The bytes of the bitmask of n elements. -/
def maskBytes (n : Nat) : Nat := 8 * ((n + 63) / 64)
/-- Packs values of w bits, first lowest. -/
def packBits (w : Nat) (l : List Nat) : Nat := l.foldr (fun v acc => v % 2 ^ w + 2 ^ w * acc) 0
/-- The image of a tile and its size (R165, Table 4). -/
def sparseImage (g : Geom) (t : Nat) : Nat × Nat :=
  let es := g.elements t
  let n := es.length
  let nz := es.filter (· != 0)
  let m := maskBytes n
  let mask := packBits 1 (es.map fun v => if v = 0 then 0 else 1)
  (nz.length + 2 ^ 32 * n + 2 ^ 64 * mask + 2 ^ (64 + 8 * m) * packBits g.sew nz,
    8 * ((8 + m + nz.length * (g.sew / 8) + 7) / 8))
def sparseChk (g : Geom) : Option Illegal := memLimit (decide (g.sew < 8) || g.bl != 0)
/-- `vstbm` (R166). -/
def execVstbm (f : Fields) (s : State) : Host.Outcome State Fault Refusal :=
  issue f { illegal := fun s => sparseChk s.hart.geom, wholly := true
            body := fun s =>
              let im := sparseImage s.hart.geom (s.hart.tr f.b).toNat
              let a := (s.hart.xr f.a).toNat
              if im.2 > f.imm.toNat then .trap s cSPARSE (BitVec.ofNat 64 im.2) 0
              else if a % 8 ≠ 0 then misaligned s a
              else match s.chkRange .store .write a im.2 with
                | .error e => e.res s
                | .ok l => match s.firstPoison true l with
                  | some va => dataError s va
                  | none => .done ((s.noteAll .write l).access (.of f.strm false false (.store (storeParts im.1 l))) (s.oneStep l)) } s

/-- The read of a range for `vldbm`: its pieces and its bytes, or what it raises. -/
def State.readChk (s : State) (va n : Nat) : Except Res (List Piece × Nat) :=
  match s.chkRange .load .read va n with
  | .error e => .error (e.res s)
  | .ok l => match s.firstPoison false l with
    | some a => .error (dataError s a)
    | none => .ok (l, s.gather l)
/-- The hart as it would stand outside phased mode: the reads that a command makes are no loads of R226. -/
def State.unphased (s : State) : State := s.modSr fun r => { r with detctl := r.detctl &&& ~~~(2#64) }
/-- Checks the read of a command's record or block and gives its bytes. -/
def State.commandChk (s : State) (va n : Nat) : Except Res (List Piece × Nat) :=
  match s.unphased.chkRange .load .read va n with
  | .error e => .error (e.res s)
  | .ok l => match s.firstPoison false l with
    | some a => .error (dataError s a)
    | none => .ok (l, s.gather l)
/-- The tile that the mask and the packed values give (R167). -/
def unpackTile (g : Geom) (mask vals old : Nat) : Nat :=
  (g.cells.zipIdx.foldl (fun (acc : Nat × Nat) x =>
    let bit := mask.testBit x.2
    (putBits acc.1 (tileOff g.sew x.1) g.sew (if bit then bitsAt vals (g.sew * acc.2) g.sew else 0),
      if bit then acc.2 + 1 else acc.2)) (old, 0)).1
/-- The number of one bits below n. -/
def popBelow (m n : Nat) : Nat := ((List.range n).filter m.testBit).length
/-- Gives a tile to the destination of a load: a new queue entry, whose data may arrive late (R23, R26), or a register, which stays as
it is where no element is written (R18, R104). -/
def State.giveTile (s : State) (d : Reg) (any : Bool) (t : Nat → Nat) : State :=
  match d with
  | .q n =>
    let v : Tile := BitVec.ofNat 8192 (t (Config.freeTile s.hart.own).toNat)
    s.modHart fun h =>
      let (late, h) := h.popLate
      if late then { h.pushQ n false v with results := h.results ++ [(.q n, .entry h.seq v)] } else h.pushQ n true v
  | d => if any then s.modHart fun h => h.produce d (.tile (BitVec.ofNat 8192 (t (h.image d)))) else s
/-- `vldbm` (R167). The ACCESS of a mask that does not fit has x[A] in `EVAL`, and its reads are performed at its issue (DESIGN CHOICE, log
54). -/
def execVldbm (f : Fields) (s : State) : Host.Outcome State Fault Refusal :=
  issue f { illegal := fun s => sparseChk s.hart.geom, wholly := true
            body := fun s0 =>
              let s := s0.inStream f.strm false
              let g := s.hart.geom
              let a := (s.hart.xr f.a).toNat
              let bad : Res := .trap s cACCESS (s.hart.xr f.a) 0
              match s.readChk a 8 with
              | .error e => e
              | .ok (l1, hd) =>
                let n := hd / 2 ^ 32
                let nnz := hd % 2 ^ 32
                if n ≠ g.cells.length ∨ nnz > n then bad
                else match s.readChk ((a + 8) % 2 ^ 64) (maskBytes n) with
                  | .error e => e
                  | .ok (l2, m) =>
                    if popBelow m n ≠ nnz ∨ m ≥ 2 ^ n then bad
                    else match s.readChk ((a + 8 + maskBytes n) % 2 ^ 64) (nnz * (g.sew / 8)) with
                      | .error e => e
                      | .ok (l3, vals) => .done ((s.noteAll .read (l1 ++ l2 ++ l3)).giveTile f.d (!g.cells.isEmpty) (unpackTile g m vals)) } s

end Sys2Proof.Machine
end

