-- ==== Sys2Proof/Machine/Atomics.lean ====
section
/-! DEFINITION. Atomics (R168-R173). -/
namespace Sys2Proof.Machine

/-- Fields of FN (R168, Table 5). -/
def amOp (f : Fields) : Nat := bitsAt f.fn.toNat 0 4
def amAcq (f : Fields) : Bool := f.fn.getLsbD 5
def amRel (f : Fields) : Bool := f.fn.getLsbD 6
/-- What an atomic does to the race summaries: without a return, `OP` 0x0-0x7 is an adder (R293). -/
def amRace (f : Fields) : RaceKind := if amOp f ≤ 7 ∧ f.d = .x 0 then .add else .write
/-- How an old value of w bits enters x[D] (R169). -/
def amExt (op w : Nat) : Ext := if w = 32 then (if op == 6 || op == 7 || op == 10 then .unsigned 32 else .signed 32) else .raw
/-- `fadd` in a deterministic gang (R173). -/
def addRefused (f : Fields) (s : State) : Bool := s.hart.det && amOp f == 10

/-- One atomic of `w` bits at x[A] after its checks, with its old value to x[D] (R169). -/
def atomicAt (f : Fields) (w v alt : Nat) (s : State) : Res :=
  let a := (s.hart.xr f.a).toNat
  let n := w / 8
  if a % n ≠ 0 then misaligned s a
  else match s.accessChk .atomic (amRace f) false a n with
    | .ok pa win cls =>
      let p : Piece := ⟨a, pa, n, win, cls⟩
      if (s.firstSpoilt (f.d != .x 0) [p]).isSome then dataError s a
      else .done ((s.noteAll (amRace f) [p]).access
        (.of f.strm false (amRel f) (.rmw f.d 0 (amExt (amOp f) w) [⟨a, pa, w, amOp f, v, alt, 0⟩])) (amAcq f || s.oneStep [p]))
    | e => e.res s
/-- `amo` (R169). -/
def execAmo (f : Fields) (s : State) : Host.Outcome State Fault Refusal :=
  issue f { body := fun s =>
              let w := if f.fn.getLsbD 4 then 64 else 32
              if addRefused f s then .trap s cNONDET 0x01 0
              else atomicAt f w ((s.hart.xr f.b).toNat % 2 ^ w) ((s.hart.xr f.c).toNat % 2 ^ w) s } s

/-- The formats of the vector atomics (R169). -/
def amChk (f : Fields) (g : Geom) : Option Illegal :=
  memLimit (!(g.sew == 32 || g.sew == 64) || !(if amOp f = 10 then g.fmt == 2 else intFmts g.fmt))
/-- Performs elements of a vector atomic: data from C, old values to D (R169). -/
def amElems (f : Fields) (s : State) (l : List (Elem × Piece)) (stop : Option Nat) : State :=
  if l.isEmpty then s
  else
    let c := (s.hart.tr f.c).toNat
    let parts := l.map fun x => (⟨x.2.va, x.2.pa, x.1.width, amOp f, bitsAt c x.1.off x.1.width, 0, x.1.off⟩ : RmwPart)
    let a := Access.of f.strm false (amRel f) (.rmw f.d (s.hart.image f.d) .raw parts)
    if stop.isSome then s.accessStop a else s.access a (amAcq f || s.oneStep (l.map (·.2)))
/-- `vamo` and `vamoo`: one atomic at x[A] + off(e) for each active element, in ascending order (R169-R171). -/
def vamoOp (ordered : Bool) (f : Fields) (s : State) : Host.Outcome State Fault Refusal :=
  issue f { illegal := fun s => amChk f s.hart.geom, reads := mergeReads f
            body := fun s =>
              if addRefused f s || (s.hart.det && !ordered && f.d != .x 0) then .trap s cNONDET 0x01 0
              else
                let g := s.hart.geom
                sweep ⟨.atomic, amRace f, (s.hart.activeCells f g).map (elemIndexed s f g), amElems f, f.d != .x 0⟩ s } s
/-- `vamo` (R169). -/
def execVamo (f : Fields) (s : State) : Host.Outcome State Fault Refusal := vamoOp false f s
/-- `vamoo` (R169, R170). -/
def execVamoo (f : Fields) (s : State) : Host.Outcome State Fault Refusal := vamoOp true f s

/-- The reduction that an atomic operation makes of a tile (R171). -/
def amRed (op : Nat) : RedOp :=
  match op with
  | 1 => .and
  | 2 => .or
  | 3 => .xor
  | 4 | 6 => .min
  | 5 | 7 => .max
  | _ => .sum
/-- The shape with the signedness of the operation. -/
def amGeom (op : Nat) (g : Geom) : Geom := if op = 10 then g else { g with fmt := if op == 4 || op == 5 then 0 else 1 }
/-- `vredm` (R171). -/
def execVredm (f : Fields) (s : State) : Host.Outcome State Fault Refusal :=
  issue f { illegal := fun s => amChk f s.hart.geom, wholly := true
            body := fun s =>
              if addRefused f s then .trap s cNONDET 0x01 0
              else
                let h := s.hart
                let g := amGeom (amOp f) h.geom
                let b := (h.tr f.b).toNat
                let xs := (h.activeCells f g).map fun p => (p.e, elemBits b g.sew p.r p.c)
                let t := redTree (amRed (amOp f)) g (g.rm f) xs
                match atomicAt f g.sew t.1 0 s with
                | .done s => .done (s.modHart fun h => h.raise t.2)
                | r => r } s

end Sys2Proof.Machine
end

