-- ==== Sys2Proof/Machine/BaseDie.lean ====
section
/-! DEFINITION. Prefetch (R174) and the base-die engines (R175-R177). -/
namespace Sys2Proof.Machine

/-! Prefetch. -/

/-- `pf` changes no value and raises no fault (R174). -/
def execPf (f : Fields) (s : State) : Host.Outcome State Fault Refusal := aside f (phased true fun s => .done s) s
/-- The largest length of a prefetch. -/
abbrev prefetchMax : Nat := 0x4000000
/-- The barrier that x[n] names for the hart, if it is one (R214). -/
def State.hartBar (s : State) (va : Nat) : Option Nat :=
  let h := s.hart
  s.barAt h.ctx h.place.die h.place.cluster va
/-- `pf.tx` (R174). -/
def execPfTx (f : Fields) (s : State) : Host.Outcome State Fault Refusal :=
  aside f (phased true fun s =>
    let h := s.hart
    let a := h.xr f.a
    let n := h.xr f.b
    let c := h.xr f.c
    if a.toNat % 64 ≠ 0 then .trap s cACCESS a 0
    else if n.toNat % 64 ≠ 0 ∨ n.toNat > prefetchMax then .trap s cACCESS n 0
    else if (s.hartBar c.toNat).isNone then .trap s cACCESS c 0
    else
      let s := s.drainAll s.cur
      let p : Prefetch := ⟨s.nextOp, s.agent, a.toNat, n.toNat / 64, c.toNat⟩
      .done (if n = 0 then s
        else { s with nextOp := s.nextOp + 1, prefetches := s.prefetches ++ [p] }.mark p.agent h.place.die h.place.cluster
          (.prefetch p.id) false a.toNat n.toNat)) s

/-- One sector of a prefetch is resident, or found not prefetchable: its barrier is credited (R174). -/
def State.prefetchOne (s : State) (p : Prefetch) : State :=
  let ps := s.prefetches.filter (·.id != p.id)
  let s := if p.left ≤ 1 then { s with prefetches := ps }.unmark (.prefetch p.id)
    else { s with prefetches := ps ++ [{ p with va := p.va + 64, left := p.left - 1 }] }
  s.creditAt p.agent p.txb 1
/-- `PREFETCH_SECTOR_DONE` (R174). -/
def execPrefetchSectorDone (p : Nat) (s : State) : Host.Outcome State Fault Refusal :=
  match s.prefetches.find? (·.id == p) with
  | some x => .next (if s.agentHeld x.agent [(x.va, 64)] then s else s.prefetchOne x)
  | none => .next s

/-! Command blocks (R175, Table 8). -/

structure Block where
  src : Nat
  dst : Nat
  idx : Nat
  sat : Bool
  rm : Nat
  dsew : Nat
  dfmt : Nat
  ssew : Nat
  sfmt : Nat
  iw : Nat
  unit : Nat
  count : Nat
  op : Nat
  len : Nat
  txb : Nat
  ctr : Nat
  deriving DecidableEq, Repr
def blockOf (w : List Nat) : Block :=
  let g (i : Nat) : Nat := w.getD i 0
  { src := g 0, dst := g 1, idx := g 2, sat := (g 3).testBit 59, rm := bitsAt (g 3) 56 3
    dsew := sewBits (bitsAt (g 3) 53 3), dfmt := bitsAt (g 3) 48 5, ssew := sewBits (bitsAt (g 3) 45 3), sfmt := bitsAt (g 3) 40 5
    iw := if (g 3).testBit 36 then 8 else 4, unit := bitsAt (g 3) 32 4, count := bitsAt (g 3) 0 32
    op := bitsAt (g 4) 32 4, len := bitsAt (g 4) 0 32, txb := g 5, ctr := g 6 }
/-- Non-zero reserved or unused fields, and bad values (0x40). -/
def Block.bad (b : Block) (k : BaseKind) (w : List Nat) : Bool :=
  let g (i : Nat) : Nat := w.getD i 0
  let fmtBad := b.rm == 0 || decide (b.rm > 5) || !vfcvtDst b.dfmt b.dsew || (b.sat && fmtIsInt b.dfmt)
  let reserved := bitsAt (g 3) 60 4 != 0 || bitsAt (g 3) 37 3 != 0 || bitsAt (g 4) 36 28 != 0
  let own := match k with
    | .gather => bitsAt (g 3) 40 20 != 0 || g 4 != 0 || decide (b.unit > 12)
        || b.src % 2 ^ b.unit != 0 || b.dst % 2 ^ b.unit != 0 || b.idx % b.iw != 0
    | .reduce => fmtBad || b.unit != 0 || decide (b.op > 2)
        || !((b.sfmt == 2 && (b.ssew == 64 || b.ssew == 32)) || (b.sfmt == 3 && b.ssew == 16)
              || (b.sfmt == 0 && (b.ssew == 32 || b.ssew == 64) && b.dfmt == 0 && b.dsew == b.ssew))
        || b.len * b.dsew % 8 != 0 || b.src % (b.ssew / 8) != 0 || b.dst % Nat.max 1 (b.dsew / 8) != 0 || b.idx % b.iw != 0
    | .convert => fmtBad || b.unit != 0 || bitsAt (g 3) 36 1 != 0 || g 2 != 0 || g 4 != 0 || !fmtLegal b.sfmt b.ssew 0
        || b.count * b.ssew % 8 != 0 || b.count * b.dsew % 8 != 0
        || b.src % Nat.max 1 (b.ssew / 8) != 0 || b.dst % Nat.max 1 (b.dsew / 8) != 0
  reserved || own || b.ctr % 8 != 0
/-- The bytes of the destination. -/
def Block.dstBytes (b : Block) (k : BaseKind) : Nat :=
  match k with
  | .gather => b.count * 2 ^ b.unit
  | .reduce => b.len * b.dsew / 8
  | .convert => b.count * b.dsew / 8
/-- The bytes of one source unit that an index selects. -/
def Block.srcUnit (b : Block) (k : BaseKind) : Nat :=
  match k with
  | .gather => 2 ^ b.unit
  | .reduce => b.len * (b.ssew / 8)
  | .convert => 0

/-- The physical ranges of a virtual range, which must lie in the HBM of the stack that holds `SRC`. -/
def State.stackRange (s : State) (ag : Agent) (stack : Home × Nat) (k : AccessKind) (va n : Nat) : Except Nat (List (Nat × Nat)) :=
  match s.engRange ag ag.place.die ag.place.cluster k va n with
  | .error _ => .error 0x41
  | .ok l => if l.all fun p => (s.home p.1, pkgOf p.1) == stack then .ok l else .error 0x41
/-- Reads a range of the stack: 0x43 for uncorrectable data. -/
def State.stackRead (s : State) (ag : Agent) (stack : Home × Nat) (va n : Nat) : Except Nat Nat :=
  match s.stackRange ag stack .load va n with
  | .error e => .error e
  | .ok l => if l.any fun p => s.poisoned p.1 p.2 then .error 0x43
             else .ok (l.foldr (fun p acc => s.readN p.1 p.2 + 2 ^ (8 * p.2) * acc) 0)
/-- The indices of a command. -/
def State.indices (s : State) (ag : Agent) (stack : Home × Nat) (b : Block) : Except Nat (List Nat) :=
  match s.stackRead ag stack b.idx (b.count * b.iw) with
  | .error e => .error e
  | .ok v => .ok ((List.range b.count).map fun i => bitsAt v (8 * b.iw * i) (8 * b.iw))
/-- The source units an index list selects, each as a number. -/
def State.selected (s : State) (ag : Agent) (stack : Home × Nat) (b : Block) (k : BaseKind) : List Nat → Except Nat (List Nat)
  | [] => .ok []
  | i :: rest =>
    match s.stackRead ag stack ((b.src + i * b.srcUnit k) % 2 ^ 64) (b.srcUnit k), s.selected ag stack b k rest with
    | .ok v, .ok l => .ok (v :: l)
    | .error e, _ => .error e
    | _, .error e => .error e

/-! What the engines compute (R176). -/

/-- The rounding mode of a coded `RM`. -/
def Block.mode (b : Block) : Rm := Rm.ofField b.rm 0
/-- Packs results of w bits and joins their flags. -/
def packResults (w : Nat) (l : List (Nat × Flags)) : Nat × Flags :=
  (packBits w (l.map (·.1)), l.foldl (fun a x => a ||| x.2) 0)
/-- `hbcvt`. -/
def Block.convert (b : Block) (src : Nat) : Nat × Flags :=
  packResults b.dsew ((List.range b.count).map fun i =>
    let v := elemVal {} b.sfmt b.ssew (bitsAt src (b.ssew * i) b.ssew)
    let c := cvtTo b.dfmt b.dsew b.sat b.mode v.1
    (c.1, v.2 ||| c.2))
/-- The shape in which `hbred` accumulates. -/
def Block.accGeom (b : Block) : Geom :=
  { sew := if b.sfmt = 3 then 32 else b.ssew, fmt := if b.sfmt = 0 then 0 else 2, bl := 0, ragged := false, vl := 1, vr := 1
    rowlen := 0, frm := 0 }
def redOpOf (n : Nat) : RedOp := if n = 0 then .sum else if n = 1 then .max else .min
/-- `hbred` of element j over the rows selected. -/
def Block.reduceAt (b : Block) (rows : List Nat) (j : Nat) : Nat × Flags :=
  let g := b.accGeom
  let o := redOpOf b.op
  let elem (row : Nat) : Nat := let v := bitsAt row (b.ssew * j) b.ssew; if b.sfmt = 3 then v * 2 ^ 16 else v
  let acc := rows.foldl (fun acc r => redAcc o g .rne acc (elem r, 0)) (redId o g, 0)
  let x : FVal := if g.fmt = 0 then FVal.ofInt (intOf g.sew true acc.1) else g.fp.decode acc.1
  let c := cvtTo b.dfmt b.dsew b.sat b.mode x
  (c.1, acc.2 ||| c.2)
/-- The destination image and flags of a command, or its failure. -/
def State.baseResult (s : State) (o : BaseOp) (stack : Home × Nat) : Except Nat (Nat × Flags) :=
  let b := blockOf o.words
  match o.kind with
  | .convert => (s.stackRead o.agent stack b.src (b.count * b.ssew / 8)).map b.convert
  | k => match s.indices o.agent stack b with
    | .error e => .error e
    | .ok is => match s.selected o.agent stack b k is with
      | .error e => .error e
      | .ok us => .ok (match k with
        | .gather => (packBits (8 * 2 ^ b.unit) us, 0)
        | _ => packResults b.dsew ((List.range b.len).map (b.reduceAt us)))

/-- Runs a command: its result and where it goes, or the code of its failure (R175-R177). -/
def State.baseRun (s : State) (o : BaseOp) : Except Nat ((Nat × Flags) × List (Nat × Nat)) :=
  let b := blockOf o.words
  let ag := o.agent
  let n := b.dstBytes o.kind
  if b.bad o.kind o.words || (b.txb != 0 && (s.barAt ag.ctx ag.place.die ag.place.cluster b.txb).isNone) then .error 0x40
  else if b.txb ≠ 0 ∧ (b.dst % 64 ≠ 0 ∨ n % 64 ≠ 0) then .error 0x42
  else match s.engAddr ag ag.place.die ag.place.cluster .load b.src with
    | .error _ => .error 0x41
    | .ok pa =>
      if !s.isHbm pa then .error 0x41
      else
        let stack := (s.home pa, pkgOf pa)
        match s.stackRange ag stack .store b.dst n, s.baseResult o stack with
        | .error e, _ => .error e
        | _, .error e => .error e
        | .ok l, .ok r =>
          if b.ctr ≠ 0 ∧ !(s.engRange ag.publish ag.place.die ag.place.cluster .store b.ctr 8).isOk then .error 0x41
          else if l.any fun p => s.lost p.1 || s.partPoisoned p.1 p.2 then .error 0x43
          else .ok (r, l)

/-- Writes a number over physical ranges in order. -/
def State.writeRanges (s : State) (v : Nat) (l : List (Nat × Nat)) : State :=
  (l.foldl (fun acc p => (acc.1.writeN p.1 (acc.2 % 2 ^ (8 * p.2)) p.2, acc.2 / 2 ^ (8 * p.2))) (s, v)).1
/-- What a command that fails with 0x41 or 0x43 leaves of its destination, which may be partly written (R177): every byte there that it
could write is free. -/
def State.baseSpoil (s : State) (o : BaseOp) (code : Nat) : State :=
  if code = 0x41 ∨ code = 0x43 then
    let b := blockOf o.words
    let at' (k : AccessKind) (va : Nat) : Option Nat := (s.engAddr o.agent o.agent.place.die o.agent.place.cluster k va).toOption
    let n := b.dstBytes o.kind
    (pageCuts b.dst n (n / 0x10000 + 2)).foldl (fun (s : State) p => match at' .store p.1, at' .load b.src with
      | some pa, some src =>
        if s.isHbm pa && s.home pa == s.home src && pkgOf pa == pkgOf src && !s.lost pa then s.writeFree (baseStamp o.own) (p.1 - b.dst) [(pa, p.2)]
        else s
      | _, _ => s) s
  else s
/-- A command ends (R177). It makes all its reads and then all its writes at this instant (DESIGN CHOICE, log 48: R207 leaves the accesses
within one operation unordered). -/
def State.baseEnd (s : State) (o : BaseOp) : State :=
  let b := blockOf o.words
  let ag := o.agent
  let s' := { s with baseOps := s.baseOps.filter (·.id != o.id) }
  match s.baseRun o with
  | .error code =>
    let s := ((s'.baseSpoil o code).unmark (.base o.id)).publish ag (o.addr + 56) (2 ^ 62 + code * 2 ^ 48)
    (s.failAt ag b.txb code).deliverEngine ag o.addr
  | .ok ((v, fl), l) =>
    let s := ((s'.writeRanges v l).unmark (.base o.id)).creditAt ag b.txb (b.dstBytes o.kind / 64)
    let s := s.publish ag (o.addr + 56) (2 ^ 63 + fl.toNat)
    if b.ctr = 0 then s else s.bumpFor ag b.ctr
/-- What a command reads, each with its bytes: the source, the indices and the units they select, in the order of their marks. -/
def State.baseReads (s : State) (o : BaseOp) : List (Nat × Nat) :=
  let b := blockOf o.words
  match o.kind with
  | .convert => [(b.src, b.count * b.ssew / 8)]
  | k => (b.idx, b.count * b.iw) :: (List.range b.count).filterMap fun i =>
    match s.engRead o.agent o.agent.place.die o.agent.place.cluster (b.idx + i * b.iw) b.iw with
    | .ok j => some ((b.src + j * b.srcUnit k) % 2 ^ 64, b.srcUnit k)
    | .error _ => none
/-- Whether an access of a command waits for a test (R395). -/
def State.baseHeld (s : State) (o : BaseOp) : Bool :=
  let b := blockOf o.words
  !s.underTest.isEmpty &&
    s.agentHeld o.agent ((o.addr + 56, 8) :: (b.ctr, if b.ctr = 0 then 0 else 8) :: (b.dst, b.dstBytes o.kind) :: s.baseReads o)
/-- `BASE_DIE_COMPLETION`: a command completes or fails (R177). -/
def execBaseDieCompletion (n : Nat) (s : State) : Host.Outcome State Fault Refusal :=
  match s.baseOps.find? (·.id == n) with
  | some o => .next (if s.baseHeld o then s else s.baseEnd o)
  | none => .next s

/-- Marks what a command reads and writes (R295). -/
def State.markBase (s : State) (o : BaseOp) : State :=
  let b := blockOf o.words
  let ag := o.agent
  let mk (s : State) (w : Bool) (va n : Nat) : State := s.mark ag ag.place.die ag.place.cluster (.base o.id) w va n
  (s.baseReads o).foldl (fun s x => mk s false x.1 x.2) (mk s true b.dst (b.dstBytes o.kind))
/-- An instruction that commands an engine with the block at x[A] (R175). -/
def baseOp (k : BaseKind) (f : Fields) (s : State) : Host.Outcome State Fault Refusal :=
  issue f { wholly := true
            body := phased true fun s0 =>
              let s := s0.inStream f.strm false
              let a := (s.hart.xr f.a).toNat
              if a % 64 ≠ 0 then misaligned s a
              else match s.readChk a 64 with
                | .error e => e
                | .ok (l, v) =>
                  let s := (s.noteAll .read l).drainAll s.cur
                  let o : BaseOp := ⟨s.nextOp, k, s.agent, a, words8 v, s.hart.own⟩
                  .done ({ s with nextOp := s.nextOp + 1, baseOps := s.baseOps ++ [o] }.markBase o) } s
/-- `hbgat` (R175, R176). -/
def execHbgat (f : Fields) (s : State) : Host.Outcome State Fault Refusal := baseOp .gather f s
/-- `hbred` (R175, R176). -/
def execHbred (f : Fields) (s : State) : Host.Outcome State Fault Refusal := baseOp .reduce f s
/-- `hbcvt` (R175, R176). -/
def execHbcvt (f : Fields) (s : State) : Host.Outcome State Fault Refusal := baseOp .convert f s

end Sys2Proof.Machine
end

