-- ==== Sys2Proof/Machine/Sync.lean ====
section
/-! DEFINITION. Barriers, waits, monitors and phased mode (R213-R226), and declared buffers (R186-R191). -/
namespace Sys2Proof.Machine

/-! Waiting (R221). -/

/-- The hart goes on waiting at its instruction. -/
def waitOn (s : State) (obj : Option Nat) : Res := .wait (s.modHart fun h => h.sleep s.time obj false)
/-- Whether the wait in progress has expired: `TTMO` is 0 in a deterministic gang. -/
def State.expired (s : State) : Bool :=
  let h := s.hart
  let t := h.sr.ttmo.toNat
  !h.det && t != 0 && (match h.wait with
    | some w => decide (w.start + t ≤ s.time)
    | none => false)
/-- Completes an instruction with a value for D. -/
def give (f : Fields) (s : State) (w : Word) : Res := .done (s.modHart fun h => h.put f.d (.word w))

/-! Transaction barriers (R214-R218). -/

/-- A barrier instruction at x[A]: the address checks come first (R214), then the word must be sound (R392). -/
def onBarrier (f : Fields) (body : Nat → State → Res) (s : State) : Res :=
  match s.hartBar (s.hart.xr f.a).toNat with
  | none => .trap s cACCESS (s.hart.xr f.a) 0
  | some pa => if s.testing pa 16 then .wait s else if s.poisoned pa 16 then dataError s (s.hart.xr f.a).toNat else body pa s
/-- One arrival of a hart, a release over all its streams (R203, R217): D takes the phase it found. -/
def arrive (f : Fields) (da : Nat) (ds : Int) (posted : Bool) (pa : Nat) (s : State) : Res :=
  let s := s.drainAll s.cur
  let ph := barPhase (s.readN pa 16)
  give f (s.barStep pa da ds posted) (BitVec.ofNat 64 ph)
/-- The mask count of `barv` (R217): the set bits of B at positions in the tile. -/
def maskCount (h : Hart) (f : Fields) : Nat := (h.geom.cells.filter fun p => (h.kr f.b).getLsbD p.e).length
/-- `barv.tx` (R217). -/
def execBarvTx (f : Fields) (s : State) : Host.Outcome State Fault Refusal :=
  aside f (fun s => onBarrier f (arrive f (maskCount s.hart f) 0 false) s) s
/-- `barv.tx.x` (R217). -/
def execBarvTxX (f : Fields) (s : State) : Host.Outcome State Fault Refusal :=
  aside f (fun s => onBarrier f (arrive f (s.hart.xr f.b).toNat 0 false) s) s
/-- `txarr` (R217). -/
def execTxarr (f : Fields) (s : State) : Host.Outcome State Fault Refusal :=
  aside f (onBarrier f (arrive f 1 0 false)) s
/-- `txpost` (R217). -/
def execTxpost (f : Fields) (s : State) : Host.Outcome State Fault Refusal :=
  aside f (onBarrier f fun pa s =>
    let n := (s.hart.xr f.b).toNat
    if n > 0x7FFFFFFF then .trap s cACCESS (s.hart.xr f.b) 0 else arrive f 1 n true pa s) s
/-- `txarr.init`: the whole barrier in one step, and its waiters test again (R217, R218). -/
def execTxarrInit (f : Fields) (s : State) : Host.Outcome State Fault Refusal :=
  aside f (onBarrier f fun pa s =>
    let n := (s.hart.xr f.b).toNat
    if n = 0 ∨ n > 0xFFFFFF then .trap s cACCESS (s.hart.xr f.b) 0
    else
      let s := s.inStream f.strm true
      let put (s : State) : State := s.writeN pa (n * 2 ^ 64 + n * 2 ^ 8) 16
      let s := if (put s).armCount < s.armCount then s.drainAll s.cur else s
      .done ((put s).wakeWaiters pa false)) s
/-- `txwait` (R218). -/
def execTxwait (f : Fields) (s : State) : Host.Outcome State Fault Refusal :=
  aside f (onBarrier f fun pa s0 =>
    let s := s0.inStream f.strm false
    let v := s.readN pa 16
    let seen : Bool := match s.hart.wait with
      | some w => w.seen
      | none => false
    if barPhase v ≠ (s.hart.xr f.b).toNat % 16 ∨ seen then give f s 0
    else if barErrBit v then give f s (BitVec.ofNat 64 (barStatus v))
    else if s.expired then give f s 1
    else waitOn s (some pa)) s

/-! The gang barrier (R219, R220, R290, R291). -/

/-- Completes the phase in progress once every member has arrived, and, in a deterministic gang, every task of the epoch
it ends has ended and the `exit` of its hart is complete (R291); members that have exited count as arrived in the next phase. Once all have exited, a phase still
completes for a tile-task hart that waits at it. -/
def State.gangTest (s : State) (ctx gid : Nat) : State :=
  match s.gangOf ctx gid with
  | none => s
  | some g =>
    let e := (g.phase - 1) % 2 ^ 32
    let owed := g.det && ((s.tasks.any fun t => t.ctx == ctx && t.gang == gid && t.epoch == e)
      || s.harts.any fun h => h.ctx == ctx && h.gang == gid && !h.member && h.epoch == e
        && (h.bound || h.status == .saved))
    let waited := s.harts.any fun h => h.ctx == ctx && h.gang == gid && h.arrival == some g.phase
    if g.arrived ≥ g.nhart ∧ (g.exited < g.nhart ∨ waited) ∧ !owed then
      s.modGang ctx gid fun g =>
        { g with phase := g.phase + 1, arrived := g.exited, total := 0, totals := g.total :: g.totals }
    else s
/-- A member arrives at the phase in progress with a count. -/
def State.gangArrive (s : State) (ctx gid n : Nat) : State :=
  (s.modGang ctx gid fun g => { g with arrived := g.arrived + 1, total := (g.total + n) % 2 ^ 63 }).gangTest ctx gid
/-- The total of a completed phase. -/
def Gang.totalOf (g : Gang) (phase : Nat) : Nat := g.totals.getD (g.phase - 1 - phase) 0
/-- Raises the hart's epoch by one, modulo 2^32 (R290). -/
def Hart.nextEpoch (h : Hart) : Hart :=
  { h with sr := { h.sr with detctl := BitVec.ofNat 64 ((h.epoch + 1) % 2 ^ 32 * 2 ^ 32 + h.sr.detctl.toNat % 2 ^ 32) } }
/-- The current hart's arrival at the phase in progress: a member's counts, a tile-task hart's only stands pending. -/
def State.hartArrive (s : State) (n : Nat) : State :=
  match s.gang with
  | none => s
  | some g =>
    let h := s.hart
    let s := (s.drainAll s.cur).modHart fun h => { h with arrival := some g.phase }
    if h.member then s.gangArrive h.ctx h.gang n else s.gangTest h.ctx h.gang
/-- Code 0x02 of R296 for a gang instruction: a tile-task hart; for an arrival, also a hart whose arrival is pending. -/
def gangRefused (arrival : Bool) (h : Hart) : Bool := h.det && (!h.member || (arrival && h.arrival.isSome))
/-- `barv.g` with a count (R220). -/
def barvG (f : Fields) (count : Hart → Nat) (s : State) : Host.Outcome State Fault Refusal :=
  aside f (fun s =>
    let h := s.hart
    if gangRefused true h then .trap s cNONDET 0x02 0
    else match h.arrival, s.gang with
      | some p, some g =>
        if g.phase ≤ p then waitOn s none
        else .done ((s.modHart fun h => { h.nextEpoch with arrival := none }).hartArrive (count h))
      | _, _ => .done (s.hartArrive (count h))) s
/-- `barv.g` (R220). -/
def execBarvG (f : Fields) (s : State) : Host.Outcome State Fault Refusal := barvG f (fun h => maskCount h f) s
/-- `barv.g.x` (R220). -/
def execBarvGX (f : Fields) (s : State) : Host.Outcome State Fault Refusal := barvG f (fun h => (h.xr f.b).toNat) s
/-- The wait of `barw` and of `gsync` (R220). -/
def gangWait (f : Fields) (s : State) : Res :=
  match s.hart.arrival, s.gang with
  | some p, some g =>
    if p < g.phase then
      give f (s.modHart fun h => { h.nextEpoch with arrival := none }) (BitVec.ofNat 64 (g.totalOf p))
    else if s.expired then give f s 0xFFFFFFFFFFFFFFFF
    else waitOn s none
  | _, some g => give f s (BitVec.ofNat 64 (g.totals.headD 0))
  | _, none => give f s 0
/-- `barw` (R220). -/
def execBarw (f : Fields) (s : State) : Host.Outcome State Fault Refusal :=
  aside f (fun s => if gangRefused false s.hart then .trap s cNONDET 0x02 0 else gangWait f s) s
/-- `gsync` (R220). -/
def execGsync (f : Fields) (s : State) : Host.Outcome State Fault Refusal :=
  aside f (fun s =>
    if gangRefused false s.hart then .trap s cNONDET 0x02 0
    else gangWait f (if s.hart.arrival.isSome then s else s.hartArrive 1)) s

/-! Counted waits and monitors (R222, R223). -/

/-- The checks of a wait's address (R222): where it lies, or the cause it raises. -/
def State.waitAddr (s : State) (va : Nat) : Chk :=
  match s.resolve .load false va 1 with
  | .ok pa win cls =>
    (match (if win then s.bufChk va false else none) with
      | some (c, e) => .trap c e
      | none => .ok pa win cls)
  | r => r
/-- `cwait` (R222, R296). -/
def execCwait (f : Fields) (s : State) : Host.Outcome State Fault Refusal :=
  aside f (fun s0 =>
    let s := s0.inStream f.strm false
    let a := (s.hart.xr f.a).toNat
    if a % 8 ≠ 0 then misaligned s a
    else match s.waitAddr a with
      | .ok pa win _ =>
        if win && s.scoreStalls pa 8 false then waitOn s none
        else if s.poisoned pa 8 then dataError s a
        else
          let v := s.readN pa 8
          if v ≥ (s.hart.xr f.b).toNat then give f s (if s.hart.det then s.hart.xr f.b else BitVec.ofNat 64 v)
          else if s.expired then give f s (BitVec.ofNat 64 v)
          else waitOn s (some (pa / 64 * 64))
      | e => e.res s) s
/-- The home slice of an HBM line (R182): package, die, slice. -/
def State.lineSlice (s : State) (pa : Nat) : Nat × Nat × Nat :=
  let l := localOf pa
  let die := l / 0x1000000000
  let h := (List.range 6).foldl (fun x i => x ^^^ bitsAt l (6 + 5 * i) 5) 0
  let n := s.carved (pkgOf pa) die
  (pkgOf pa, die, if h < 32 - n then h else (h - n) % (32 - n))
/-- The remote watches a home slice holds (R381). -/
abbrev watchLimit : Nat := 4096
/-- Whether the slice of a line in another package has no free watch: the harts whose monitors it watches, but the current one, fill
it (R381). -/
def State.watchesFull (s : State) (pa : Nat) : Bool :=
  pkgOf pa != s.pkg && decide (watchLimit ≤ ((List.range s.harts.length).filter fun n =>
    n != s.cur && (s.hartAt n).monitor.any fun m => s.lineSlice m.line == s.lineSlice pa).length)
/-- `marm` (R210, R223, R381). -/
def execMarm (f : Fields) (s : State) : Host.Outcome State Fault Refusal :=
  aside f (refusedDet 0x05 fun s0 =>
    let s := s0.inStream f.strm false
    match s.waitAddr (s.hart.xr f.a).toNat with
    | .ok pa _ _ => if s.watchesFull pa then .wait s else .done (s.modHart fun h => { h with monitor := some ⟨pa / 64 * 64, false⟩ })
    | e => e.res s) s
/-- `mwait` (R210, R223). -/
def execMwait (f : Fields) (s : State) : Host.Outcome State Fault Refusal :=
  aside f (refusedDet 0x05 fun s =>
    let h := s.hart
    let back (w : Word) : Res := give f (s.modHart fun h => { h with monitor := none }) w
    match h.monitor with
    | none => back 3
    | some m =>
      if m.woken then back 0
      else if s.expired then back 1
      else if h.preempt.isSome || !h.causes.isEmpty then back 2
      else .wait (s.modHart fun h => h.sleep s.time (some m.line) true)) s

/-! Phased mode (R225). -/

/-- `phase.c` and `phase.x`. -/
def setPhase (f : Fields) (k : Nat) (s : State) : Host.Outcome State Fault Refusal :=
  aside f (fun s =>
    if s.hart.phased then .done (s.modHart fun h => { h with stepKind := k }) else .trap s cPHASE 0 0) s
/-- `phase.c` (R225). -/
def execPhaseC (f : Fields) (s : State) : Host.Outcome State Fault Refusal := setPhase f 1 s
/-- `phase.x` (R225). -/
def execPhaseX (f : Fields) (s : State) : Host.Outcome State Fault Refusal := setPhase f 2 s
/-- `phase.get` (R225). -/
def execPhaseGet (f : Fields) (s : State) : Host.Outcome State Fault Refusal :=
  aside f (fun s => give f s (if s.hart.phased then BitVec.ofNat 64 s.hart.stepKind else 0)) s

/-! Declared buffers (R187, R188). -/

def bufIndex (f : Fields) : Nat := bitsAt f.imm.toNat 0 6
def BufKind.code : BufKind → Nat
  | .plain => 0
  | .staged => 1
  | .barrier => 2
def bufKindOf (n : Nat) : BufKind := if n = 0 then .plain else if n = 1 then .staged else .barrier
def BufState.code : BufState → Nat
  | .empty => 0
  | .filling => 1
  | .full => 2
  | .draining => 3
def bufStateOf (n : Nat) : BufState := if n = 0 then .empty else if n = 1 then .filling else if n = 2 then .full else .draining
/-- Entry n of the table of the hart's context in its cluster. -/
def State.bufEntry (s : State) (n : Nat) : Option Buf :=
  let h := s.hart
  s.bufs.find? fun b => b.ctx == h.ctx && b.die == h.place.die && b.cluster == h.place.cluster && b.n == n
/-- BUFFER_STATE of `bdecl` and `bset` names the buffer. -/
def badEntry (f : Fields) (s : State) : Res := .trap s cBUFFER (BitVec.ofNat 64 (bufIndex f)) 0
/-- `bdecl` (R187, R191). -/
def execBdecl (f : Fields) (s : State) : Host.Outcome State Fault Refusal :=
  aside f (fun s0 =>
    let s := s0.drainAll s0.cur
    let h := s.hart
    let a := (h.xr f.a).toNat
    let n := (h.xr f.b).toNat
    let off := a - spadWin
    if !inSpadWin a ∨ a % 64 ≠ 0 then .trap s cACCESS (h.xr f.a) 0
    else if n = 0 ∨ n % 64 ≠ 0 ∨ off + n > spadBytes then .trap s cACCESS (h.xr f.b) 0
    else if (s.bufEntry (bufIndex f)).isSome then badEntry f s
    else if s.bufs.any (fun b => b.ctx == h.ctx && b.die == h.place.die && b.cluster == h.place.cluster
        && decide (b.base < off + n) && decide (off < b.base + b.size)) then .trap s cACCESS (h.xr f.a) 0
    else
      let kind := bufKindOf (bitsAt f.imm.toNat 8 2)
      let b : Buf := ⟨h.ctx, h.place.die, h.place.cluster, bufIndex f, off, n, kind, f.imm.getLsbD 10,
        if kind = .staged then .empty else .full, 0, 0, 0⟩
      let s := { s with bufs := s.bufs ++ [b] }
      .done (if kind = .barrier then s.writeN (s.spadPa b.die b.cluster off) 0 n else s)) s
/-- `bdecl.free` (R187). -/
def execBdeclFree (f : Fields) (s : State) : Host.Outcome State Fault Refusal :=
  aside f (fun s0 =>
    let s := s0.drainAll s0.cur
    match s.bufEntry (bufIndex f) with
    | none => badEntry f s
    | some b => if b.infl + b.outfl ≠ 0 then badEntry f s else .done { s with bufs := s.bufs.filter (· != b) }) s
/-- `bset` (R188). -/
def execBset (f : Fields) (s : State) : Host.Outcome State Fault Refusal :=
  aside f (fun s0 =>
    let s := s0.drainAll s0.cur
    let st := bufStateOf (bitsAt f.imm.toNat 8 2)
    match s.bufEntry (bufIndex f) with
    | none => badEntry f s
    | some b =>
      if b.kind = .barrier ∨ (b.kind = .plain ∧ st ≠ .full) ∨ b.infl + b.outfl ≠ 0 then badEntry f s
      else .done (s.modBuf b fun b => { b with state := st, xcnt := 0 })) s
/-- The value of `bset.get` (R188, Table 4). -/
def Buf.image (b : Buf) : Nat :=
  2 ^ 63 + b.kind.code * 2 ^ 61 + (if b.discard then 2 ^ 60 else 0) + b.state.code * 2 ^ 58 + b.size / 64 * 2 ^ 40
    + b.xcnt * 2 ^ 22 + b.base / 64
/-- `bset.get` (R188). -/
def execBsetGet (f : Fields) (s : State) : Host.Outcome State Fault Refusal :=
  aside f (fun s0 =>
    let s := s0.drainAll s0.cur
    give f s (match s.bufEntry (bufIndex f) with
      | some b => BitVec.ofNat 64 b.image
      | none => 0)) s

/-! Copy channels (R228, R229, R236). -/

/-- The hart's channel n. -/
def State.hartChan (s : State) (n : Nat) : ChannelId :=
  let h := s.hart
  ⟨h.ctx, h.place.die, h.place.cluster, n⟩
/-- `CSTAT` (R227). -/
def Channel.cstat (c : Channel) : Nat :=
  (if c.err then 2 ^ 63 else 0) + (if c.busy then 2 ^ 62 else 0) + c.flights.length * 2 ^ 56 + c.ecode * 2 ^ 48
    + c.arms.length * 2 ^ 24 + c.eseq
/-- `cph` (R228). -/
def execCph (f : Fields) (s : State) : Host.Outcome State Fault Refusal :=
  aside f (phased false fun s =>
    let h := s.hart
    let a := (h.xr f.a).toNat
    let b := (h.xr f.b).toNat
    if a % 64 ≠ 0 then misaligned s a
    else if b % 8 ≠ 0 then misaligned s b
    else
      let c := s.chan (s.hartChan (bitsAt f.imm.toNat 0 4))
      if c.busy then give f s 1
      else give f (s.setChan { c with
        head := a, seqw := b, tail := 0, last := 0, err := false, ecode := 0, eseq := 0, arms := [], handed := [] }) 0) s
/-- `cph.get` (R228). -/
def execCphGet (f : Fields) (s : State) : Host.Outcome State Fault Refusal :=
  aside f (phased false fun s => give f s (BitVec.ofNat 64 (s.chan (s.hartChan (bitsAt f.imm.toNat 0 4))).cstat)) s

/-- The walk of `cpt` over the records from an address up to x[A], read by the hart: their addresses, none where the chain
ends before (R229). -/
def State.cptWalk (s : State) (last : Nat) : Nat → Nat → Except Res (State × Option (List Nat))
  | 0, _ => .ok (s, none)
  | fuel + 1, addr =>
    if addr = 0 then .ok (s, none)
    else match s.commandChk addr 64 with
      | .error e => .error e
      | .ok (l, v) =>
        let s := s.noteAll .read l
        if addr = last then .ok (s, some [addr])
        else match s.cptWalk last fuel (v % 2 ^ 64) with
          | .error e => .error e
          | .ok (s, r) => .ok (s, r.map (addr :: ·))
/-- The first record that `cpt` hands: `CHEAD`, or `NEXT` of the tail. -/
def State.cptFirst (s : State) (c : Channel) : Except Res (State × Nat) :=
  if c.tail = 0 then .ok (s, c.head)
  else match s.commandChk c.tail 8 with
    | .error e => .error e
    | .ok (l, v) => .ok (s.noteAll .read l, v)
/-- `cpt` (R229). -/
def execCpt (f : Fields) (s : State) : Host.Outcome State Fault Refusal :=
  aside f (phased false fun s0 =>
    let s1 := s0.inStream f.strm false
    let id := s1.hartChan (bitsAt f.imm.toNat 0 4)
    let last := (s1.hart.xr f.a).toNat
    match s1.cptFirst (s1.chan id) with
    | .error e => e
    | .ok (s2, first) =>
      match s2.cptWalk last 64 first with
      | .error e => e
      | .ok (_, none) => .trap s1 cACCESS (s1.hart.xr f.a) 0
      | .ok (s, some l) =>
        let need := (l.flatMap (s.claimsOf s.agent id)).length
        if need > scoreSize then .trap s1 cACCESS (s1.hart.xr f.a) 0
        else if need > s.scoreFree s.hart.core then waitOn s1 none
        else .done ((s.drainAll s.cur).hand s.agent id last)) s

/-- Where a counter that may be armed lies (R236): a word of normal or deterministic-tagged HBM, or of the hart's scratchpad window, where
the buffer must allow a load of it; or the cause (a buffer's state raises R189's, DEDUCED, log 48). -/
def State.counterAt (s : State) (va : Nat) : Chk :=
  match s.resolve .load false va 8 with
  | .ok pa win cls =>
    if win then
      (if !inSpadWin va then .trap cACCESS va
       else match s.bufChk va false with
         | some (c, _) => .trap c va
         | none => .ok pa win cls)
    else if s.isHbm pa then .ok pa win cls else .trap cACCESS va
  | .trap _ _ => .trap cACCESS va
  | .stall => .stall
/-- `cparm` (R236). -/
def execCparm (f : Fields) (s : State) : Host.Outcome State Fault Refusal :=
  aside f (phased false fun s0 =>
    let s := s0.drainAll s0.cur
    let h := s.hart
    let a := (h.xr f.a).toNat
    let c := s.chan (s.hartChan (bitsAt f.imm.toNat 8 4))
    if a % 8 ≠ 0 then misaligned s a
    else match s.counterAt a with
      | .ok pa _ _ =>
        if c.arms.length ≥ 4 then give f s 1
        else
          let arm : Arm := ⟨pa, a, (h.xr f.b).toNat, (h.xr f.c).toNat, s.armOrder, s.agent⟩
          let s := { s.setChan { c with arms := c.arms ++ [arm] } with armOrder := s.armOrder + 1 }
          give f (if s.readN pa 8 ≥ arm.threshold then s.fire (c.id, arm) else s) 0
      | e => e.res s) s

end Sys2Proof.Machine
end

