-- ==== Sys2Proof/Machine/Tuple.lean ====
section
/-! DEFINITION. Tuple space (R237-R250, R297). -/
namespace Sys2Proof.Machine

/-- Runs a step of another hart: it is the current one meanwhile. -/
def State.onHart (s : State) (n : Nat) (g : State → State) : State := { g { s with cur := n } with cur := s.cur }

/-! Spaces and homes (R237-R242). -/

/-- The agent that reads a context's tables for a hart: at S (R237, R251). -/
def Agent.tables (a : Agent) : Agent := { a with pl := .s, det := false }
/-- Reads `n` bytes of a table entry; none where it cannot be read. -/
def State.tableRead (s : State) (ag : Agent) (va n : Nat) : Option Nat :=
  if localBase ≤ va then none
  else match s.engRead ag.tables ag.place.die ag.place.cluster va n with
    | .ok v => some v
    | .error _ => none
/-- Whether every page of a range translates, at S, to a page class and a home that satisfies a test. -/
def State.pagesAre (s : State) (ag : Agent) (cls : Nat) (ok : Home → Nat → Bool) (va n : Nat) : Bool :=
  match s.ctxOf ag.ctx with
  | none => false
  | some c => (List.range ((va + n + 0xFFFF) / 0x10000 - va / 0x10000)).all fun i =>
      let a := (va / 0x10000 + i) * 0x10000
      decide (a < localBase) && (match s.translateAt ag.place c.asid.toNat c.ptroot.toNat .s .load a with
        | some x => x.cls == cls && s.classFits x && ok (s.home x.pa) (pkgOf x.pa)
        | none => false)

/-- A valid space: capacity and base. -/
structure Space where
  tsid : Nat
  cap : Nat
  base : Nat
  deriving DecidableEq, Repr
/-- The checks of R242 on x[A] and a signature: the space, or the reason. -/
def State.spaceOf (s : State) (ag : Agent) (a sig : Nat) : Except Nat Space :=
  if a ≥ 2 ^ 12 then .error 0x01
  else
    let no (r : Nat) : Except Nat Space := .error (r + a * 2 ^ 8)
    match s.ctxOf ag.ctx with
    | none => no 0x02
    | some c =>
      let tst := s.tstBase c
      if tst = 0 then no 0x02
      else match s.tableRead ag (tst + 32 * a) 32 with
        | none => no 0x03
        | some v =>
          let cap := bitsAt v 0 17
          let base := bitsAt v 64 64
          if !v.testBit 63 then no 0x02
          else if bitsAt v 17 46 ≠ 0 ∨ bitsAt v 128 128 ≠ 0 ∨ cap = 0 ∨ cap > 65536 ∨ base % 0x10000 ≠ 0 then no 0x03
          else match s.tupleHome ag.ctx a sig with
            | none => no 0x04
            | some h =>
              if s.pagesAre ag 2 (fun _ _ => true) (base + (32 * h.vd + h.slice) * cap * 64) (cap * 64)
              then .ok ⟨a, cap, base⟩ else no 0x04

/-! Deterministic gangs (R297). -/

/-- What the home keeps for a hart's epoch. -/
def State.tdetOf (s : State) (n tsid sig : Nat) : TDet :=
  let h := s.hartAt n
  match s.tdet.find? fun d => d.ctx == h.ctx && d.gang == h.gang && d.tsid == tsid && d.sig == sig && d.epoch == h.epoch with
  | some d => d
  | none => ⟨h.ctx, h.gang, tsid, sig, h.epoch, none, none, []⟩
def another (n : Nat) : Option Nat → Bool
  | some m => m != n
  | none => false
/-- Whether a deterministic gang refuses an operation: a deposit, or a request. -/
def TDet.refusesDep (d : TDet) (n : Nat) : Bool := another n d.dep
def TDet.refusesReq (d : TDet) (n : Nat) (take : Bool) : Bool :=
  another n d.taker || (take && othersThan n d.copiers)
/-- Records an operation that was not refused. -/
def State.setTdet (s : State) (d d' : TDet) : State := { s with tdet := d' :: s.tdet.filter (· != d) }
def State.noteDep (s : State) (n tsid sig : Nat) : State :=
  if !(s.hartAt n).det then s
  else let d := s.tdetOf n tsid sig; s.setTdet d { d with dep := some n }
def State.noteReq (s : State) (n tsid sig : Nat) (take : Bool) : State :=
  if !(s.hartAt n).det then s
  else
    let d := s.tdetOf n tsid sig
    s.setTdet d (if take then { d with taker := some n }
      else { d with copiers := if d.copiers.contains n then d.copiers else d.copiers ++ [n] })

/-! The steps at a home. -/

/-- The stored tuples of a partition (R238, R240), as the slices now are: after a change of `N` FULL is judged by the partition that holds
them then (R184; DEDUCED, log 55). -/
def State.partitionCount (s : State) (ctx tsid : Nat) (h : Option Slice) : Nat :=
  (s.tuples.filter fun t => t.ctx == ctx && t.tsid == tsid && s.tupleHome ctx tsid (tupleWord t.image 0) == h && s.keeps t).length
/-- Requests parked on a tuple's space that it matches, in park order. -/
def insertReq (r : TupleReq) : List TupleReq → List TupleReq
  | [] => [r]
  | x :: rest => if r.order < x.order then r :: x :: rest else x :: insertReq r rest
def State.parkedFor (s : State) (ctx tsid image : Nat) (take : Bool) : List TupleReq :=
  (s.reqs.filter fun r => r.ctx == ctx && r.tsid == tsid && r.isParked && r.take == take
    && tupleMatches r.image r.mask image).foldl (fun l r => insertReq r l) []
/-- A deposit is performed (R244): the state and the status. -/
def State.deposit (s : State) (ctx tsid cap image : Nat) : State × Nat :=
  let takers := s.parkedFor ctx tsid image true
  let die := ((s.tupleHome ctx tsid (tupleWord image 0)).map fun h => (h.pkg, h.die)).getD (0, 0)
  if takers.isEmpty ∧ s.partitionCount ctx tsid (s.tupleHome ctx tsid (tupleWord image 0)) ≥ cap then (s, 2)
  else
    let s := (s.parkedFor ctx tsid image false).foldl (fun s r => s.answer r 0 image) s
    match takers with
    | r :: _ => (s.answer r 0 image, 0)
    | [] => ({ s with tuples := s.tuples ++ [⟨ctx, tsid, image, s.depNo, die⟩], depNo := s.depNo + 1 }, 0)

/-! Instructions (R241). -/

def tupleTrap (s : State) (eval : Nat) : Res := .trap s cTUPLE (BitVec.ofNat 64 eval) 0
/-- The tuple image of B. -/
def imageB (h : Hart) (f : Fields) : Nat := bitsAt (h.tr f.b).toNat 0 512
/-- Sends an operation to a home: performed at once, or after a stall that the schedule ends. -/
def atHome (f : Fields) (k : HomeKind) (run : HomeKind → State → Res) (s : State) : Res :=
  let p := s.hart.popLate
  let s := s.modHart fun _ => p.2
  if p.1 then .wait { s.modHart (fun h => { h with homeOp := some ⟨s.nextOp, f, k⟩ }) with nextOp := s.nextOp + 1 }
  else run k s
/-- Whether the instruction of an operation is all-or-nothing: a contribution (R17, R154, R255). -/
def HomeKind.wholly : HomeKind → Bool
  | .put _ _ _ => true
  | _ => false
/-- The home's step ends an operation that a hart stalls for: the instruction completes or traps. -/
def State.homeEnd (s : State) (id : Nat) (run : Fields → HomeKind → State → Option Res) : State :=
  match s.harts.findIdx? fun h => h.homeOp.any (·.id == id) with
  | none => s
  | some n => match (s.hartAt n).homeOp with
    | none => s
    | some o => s.onHart n fun s =>
      match run o.f o.kind (s.modHart fun h => { h with homeOp := none }) with
      | some r => finish o.f { wholly := o.kind.wholly, body := fun s => .wait s } r
      | none => s

/-- The hardware creates the home of a space of a context, or of a buffer, and reads the context block for it (R333). -/
def State.createHome (s : State) (ctx : Nat) : State :=
  match s.ctxOf ctx with
  | some c => s.takeBlock c.vdtbase.toNat
  | none => s
/-- The home of a space stands while the space holds a tuple or a parked request, and an operation creates it otherwise (DEDUCED from R237
and R333, log 45). -/
def State.openSpace (s : State) (ctx tsid : Nat) : State :=
  if (s.tuples.any fun t => t.ctx == ctx && t.tsid == tsid) || (s.reqs.any fun r => r.ctx == ctx && r.tsid == tsid && r.isParked) then s
  else s.createHome ctx
/-- A deposit of the current hart at its home (R244, R296, R297). -/
def depositRun (f : Fields) (tsid cap image : Nat) (s : State) : Res :=
  let h := s.hart
  let sig := tupleWord image 0
  let s := (s.openSpace h.ctx tsid).takeTurn (s.tupleKey h.ctx tsid sig) h
  if h.det && (s.tdetOf s.cur tsid sig).refusesDep s.cur then .trap s cNONDET 0x03 0
  else
    let r := s.deposit h.ctx tsid cap image
    if h.det && r.2 == 2 then .trap s cNONDET 0x08 0
    else .done ((r.1.noteDep s.cur tsid sig).modHart fun h => h.putStatus f r.2)
/-- `tdep` (R244). -/
def execTdep (f : Fields) (s : State) : Host.Outcome State Fault Refusal :=
  issue f { also := [psReg f], writes := [psReg f, f.c]
            body := phased true fun s0 =>
              let s := s0.drainAll s0.cur
              let image := imageB s.hart f % 2 ^ (64 * (bitsAt f.imm.toNat 12 3 + 1))
              match s.spaceOf s.agent (s.hart.xr f.a).toNat (tupleWord image 0) with
              | .error e => tupleTrap s e
              | .ok p =>
                if !s.inTurn (s.tupleKey s.hart.ctx p.tsid (tupleWord image 0)) s.hart then .wait s
                else atHome f (.deposit p.tsid p.cap image) (fun _ => depositRun f p.tsid p.cap image) s } s

/-- The request an instruction makes. -/
def requestOf (take nb : Bool) (f : Fields) (tsid : Nat) (s : State) : TupleReq :=
  let h := s.hart
  let t := h.sr.ttmo.toNat
  ⟨s.nextOp, s.cur, f, take, nb, h.ctx, tsid, imageB h f, bitsAt f.imm.toNat 16 7,
    if h.det || t == 0 then none else some (s.time + t), .flying⟩
/-- Adds a request: its registers stand empty until it is answered. -/
def State.addReq (s : State) (r : TupleReq) : State :=
  { s.modHartAt r.hart (fun h => r.regs.foldl (fun h x => h.markEmpty x true) h) with
    reqs := s.reqs ++ [r], nextOp := s.nextOp + 1 }
/-- Adds a request that is on its way: an access of its stream (R67, R195). -/
def State.sendReq (s : State) (r : TupleReq) : State :=
  (s.addReq r).modHartAt r.hart fun h => { h with pend := h.pend ++ [(.of r.f.strm false false (.request r.id))] }
/-- A request of a deterministic gang, answered or parked before its hart goes on (R297). -/
def requestNow (take : Bool) (f : Fields) (tsid : Nat) (s : State) : Res :=
  let s := s.openSpace s.hart.ctx tsid
  let r := requestOf take false f tsid s
  let sig := tupleWord r.image 0
  if (s.tdetOf s.cur tsid sig).refusesReq s.cur take then .trap s cNONDET 0x03 0
  else if s.find r = .full then .trap s cNONDET 0x08 0
  else .done (((s.addReq r).request r).noteReq s.cur tsid sig take)
/-- `tcpy` and `ttake` (R245). -/
def requestOp (take nb : Bool) (f : Fields) (s : State) : Host.Outcome State Fault Refusal :=
  issue f { also := [psReg f], writes := [psReg f, f.c]
            body := phased true fun s =>
              let h := s.hart
              if h.det && nb then .trap s cNONDET 0x06 0
              else match s.spaceOf s.agent (h.xr f.a).toNat (tupleWord (imageB h f) 0) with
                | .error e => tupleTrap s e
                | .ok p =>
                  let turn := s.inTurn (s.tupleKey h.ctx p.tsid (tupleWord (imageB h f) 0)) h
                  if (s.reqs.filter (·.hart == s.cur)).length ≥ 8 ∨ (h.det ∧ !turn) then .wait s
                  else if h.det then atHome f (.request take p.tsid) (fun _ => requestNow take f p.tsid) (s.inStream f.strm true)
                  else
                    let r := requestOf take nb f p.tsid s
                    let l := h.popLate
                    let s := s.modHart fun _ => l.2
                    .done (if l.1 || !turn then s.sendReq r
                      else (((s.inStream f.strm true).openSpace h.ctx p.tsid).addReq r).request r) } s
/-- `tcpy` (R245). -/
def execTcpy (f : Fields) (s : State) : Host.Outcome State Fault Refusal := requestOp false false f s
/-- `tcpy.nb` (R245). -/
def execTcpyNb (f : Fields) (s : State) : Host.Outcome State Fault Refusal := requestOp false true f s
/-- `ttake` (R245). -/
def execTtake (f : Fields) (s : State) : Host.Outcome State Fault Refusal := requestOp true false f s
/-- `ttake.nb` (R245). -/
def execTtakeNb (f : Fields) (s : State) : Host.Outcome State Fault Refusal := requestOp true true f s

/-- A cancellation at its home (R248). -/
def cancelRun (f : Fields) (id : Nat) (s : State) : Res :=
  match s.reqs.find? (·.id == id) with
  | some r => let s := s.takeTurn (s.reqKey r) s.hart; if r.isParked then give f (s.answer r 4 0) 1 else give f s 0
  | none => give f s 0
/-- `tcan`: vA is named, and neither read nor waited for (R248). -/
def execTcan (f : Fields) (s : State) : Host.Outcome State Fault Refusal :=
  issue { f with a := .x 0 }
    { body := phased true (refusedDet 0x06 fun s =>
        match s.reqs.find? fun r => r.hart == s.cur && r.f.d == f.a with
        | none => give f s 0
        | some r =>
          let s := s.inStream r.f.strm true
          if !s.inTurn (s.reqKey r) s.hart then .wait s
          else atHome { f with a := .x 0 } (.cancel r.id) (fun _ => cancelRun f r.id) s) } s

/-! Events. -/

/-- `TUPLE_DEPOSIT_AT_HOME` (R244). -/
def execTupleDepositAtHome (n : Nat) (s : State) : Host.Outcome State Fault Refusal :=
  .next (s.homeEnd n fun f k s => match k with
    | .deposit tsid cap image =>
      if s.inTurn (s.tupleKey s.hart.ctx tsid (tupleWord image 0)) s.hart then some (depositRun f tsid cap image s) else none
    | _ => none)
/-- The place of a request among the accesses that its hart has still to perform. -/
def TupleReq.access (r : TupleReq) : Access := (.of r.f.strm false false (.request r.id))
/-- Whether an earlier access of the same hart must be performed before a request (R199, R200, R202). -/
def State.overtakes (s : State) (r : TupleReq) : Bool :=
  !(precursors ((s.hartAt r.hart).pend.takeWhile (· != r.access)) r.access).isEmpty
/-- `TUPLE_REQUEST_AT_HOME` (R245). -/
def execTupleRequestAtHome (n : Nat) (s : State) : Host.Outcome State Fault Refusal :=
  match s.reqs.find? (·.id == n) with
  | some r => .next (if r.phase = .flying ∧ !s.overtakes r ∧ s.reqInTurn r then ((s.modHartAt r.hart (Hart.dropAccess r.access)).openSpace r.ctx r.tsid).request r
      else s)
  | none => .next (s.homeEnd n fun f k s => match k with
      | .request take tsid =>
        if s.inTurn (s.tupleKey s.hart.ctx tsid (tupleWord (imageB s.hart f) 0)) s.hart then some (requestNow take f tsid s) else none
      | _ => none)
/-- `TUPLE_CANCEL_AT_HOME` (R248). -/
def execTupleCancelAtHome (n : Nat) (s : State) : Host.Outcome State Fault Refusal :=
  .next (s.homeEnd n fun f k s => match k with
    | .cancel id =>
      if (s.reqs.find? (·.id == id)).all fun r => s.inTurn (s.reqKey r) s.hart then some (cancelRun f id s) else none
    | _ => none)
/-- `TUPLE_DELIVERY` (R245). -/
def execTupleDelivery (n : Nat) (s : State) : Host.Outcome State Fault Refusal :=
  match s.reqs.find? (·.id == n) with
  | some r => (match r.phase with
    | .answered status image => .next (s.deliver r status image)
    | _ => .next s)
  | none => .next s
/-- Whether an instant's cycle is over: what falls in a cycle at a home comes after every hart operation of it (R2, R249, R259). -/
def State.over (s : State) (instant : Nat) : Bool := decide (cycleOf instant < s.clock)
/-- `TUPLE_TIMEOUT`: a parked request whose time has passed is withdrawn (R247). -/
def execTupleTimeout (n : Nat) (s : State) : Host.Outcome State Fault Refusal :=
  match s.reqs.find? (·.id == n) with
  | some r => .next (if r.isParked ∧ r.deadline.any s.over then s.answer r 3 0 else s)
  | none => .next s

end Sys2Proof.Machine
end

