-- ==== Sys2Proof/Machine/Combine.lean ====
section
/-! DEFINITION. Expert combine buffers (R251-R266, R296). -/
namespace Sys2Proof.Machine

/-! Descriptors (R251-R253, Table 1). -/

structure CDesc where
  cbid : Nat
  homevd : Nat
  nslot : Nat
  subst : Nat
  asComplete : Bool
  nexp : Nat
  k : Nat
  ofmt : Nat
  ifmt : Nat
  rowlen : Nat
  timeout : Nat
  stage : Nat
  out : Nat
  ostride : Nat
  fbase : Nat
  ctr : Nat
  deriving DecidableEq, Repr
/-- The descriptor of an image of 128 bytes. -/
def cdescOf (cbid v : Nat) : CDesc :=
  let b (w lo n : Nat) : Nat := bitsAt v (64 * w + lo) n
  { cbid := cbid, homevd := b 0 32 16, nslot := b 0 0 17, subst := b 1 42 2, asComplete := b 1 41 1 == 1, nexp := b 1 28 13
    k := b 1 24 4, ofmt := b 1 20 4, ifmt := b 1 16 4, rowlen := b 1 0 15, timeout := b 2 0 48, stage := b 3 0 64
    out := b 4 0 64, ostride := b 5 0 32, fbase := b 6 0 64, ctr := b 7 3 61 * 8 }
/-- Bytes of an output element, of an input row, of a staged row and of an output row. -/
def CDesc.osize (d : CDesc) : Nat := if d.ofmt = 1 then 4 else 2
def CDesc.rowBytes (d : CDesc) : Nat :=
  if d.ifmt = 0 then 2 * d.rowlen else if d.ifmt = 1 then 4 * d.rowlen else d.rowlen + d.rowlen / 32
def CDesc.capRow (d : CDesc) : Nat := (d.rowBytes + 63) / 64 * 64
def CDesc.outBytes (d : CDesc) : Nat := d.rowlen * d.osize
def CDesc.outRow (d : CDesc) (t : Nat) : Nat := (d.out + t * orDefault d.ostride d.outBytes) % 2 ^ 64
def CDesc.fallRow (d : CDesc) (t : Nat) : Nat := (d.fbase + t * d.rowlen * 4) % 2 ^ 64
/-- A reserved field that is not zero, or a field out of its range (reason 0x03). -/
def CDesc.bad (d : CDesc) (v : Nat) : Bool :=
  let z (w lo n : Nat) : Bool := bitsAt v (64 * w + lo) n != 0
  z 0 48 15 || z 0 17 15 || z 1 44 20 || z 1 15 1 || z 2 48 16 || z 5 32 32 || z 7 0 3 || z 8 0 512
    || d.nslot == 0 || decide (d.nslot > 65536) || d.subst == 3 || d.nexp == 0 || decide (d.nexp > 4096)
    || d.k == 0 || decide (d.k > 8) || decide (d.ofmt > 1) || decide (d.ifmt > 3) || d.rowlen == 0
    || decide (d.rowlen > 16384) || (decide (d.ifmt ≥ 2) && d.rowlen % 32 != 0) || d.stage % 0x10000 != 0
    || d.out % 64 != 0 || d.ostride % d.osize != 0 || (if d.subst = 2 then d.fbase % 64 != 0 else d.fbase != 0)

/-- The slots of a context's valid descriptors that are homed on a die (R251). -/
def State.slotsHomed (s : State) (c : Ctx) (home : Nat × Nat) : Nat :=
  let base := s.cbtBase c
  if base = 0 then 0
  else (List.range 256).foldl (fun n i => match s.walkRead c (base + 128 * i) with
    | some w =>
      if w.testBit 63 ∧ s.vdEntry c.vdtbase.toNat (bitsAt w 32 16) = some home then n + bitsAt w 0 17 else n
    | none => n) 0
abbrev dieSlots : Nat := 65536
def State.overCapacity (s : State) (home : Nat × Nat) : Bool :=
  decide ((s.ctxs.map fun c => s.slotsHomed c home).foldl (· + ·) 0 > dieSlots)

/-- The checks of R255 on x[A]: the descriptor, or `EVAL`. -/
def State.cbufDesc (s : State) (ag : Agent) (a : Nat) : Except Nat CDesc :=
  if a ≥ 2 ^ 8 then .error 0x01
  else
    let no (r : Nat) : Except Nat CDesc := .error (r + a * 2 ^ 8)
    match s.ctxOf ag.ctx with
    | none => no 0x02
    | some c =>
      let base := s.cbtBase c
      if base = 0 then no 0x02
      else match s.tableRead ag (base + 128 * a) 128 with
        | none => no 0x03
        | some v =>
          let d := cdescOf a v
          if !v.testBit 63 then no 0x02
          else if d.bad v then no 0x03
          else match s.vdEntry c.vdtbase.toNat d.homevd with
            | none => no 0x03
            | some (p, q) =>
              if s.pagesAre ag 3 (fun h k => h == .hbm q && k == p) d.stage (d.nslot * d.k * d.capRow)
                  && !s.overCapacity (p, q) then .ok d else no 0x03
/-- The descriptor as the engine reads it for a slot already allocated. -/
def State.slotDesc (s : State) (ag : Agent) (a : Nat) : Option CDesc :=
  match s.ctxOf ag.ctx with
  | none => none
  | some c => (s.tableRead ag (s.cbtBase c + 128 * a) 128).map (cdescOf a)
def combineTrap (s : State) (eval : Nat) : Res := .trap s cCOMBINE (BitVec.ofNat 64 eval) 0

/-! Buffers and slots. -/

def CBuf.fresh (ctx cbid : Nat) : CBuf := ⟨ctx, cbid, none, [], 0, Vector.replicate 7 0⟩
/-- The die that a virtual die of a context names, by package. -/
def State.dieOf (s : State) (ctx vd : Nat) : Option (Nat × Nat) := (s.ctxOf ctx).bind fun c => s.vdEntry c.vdtbase.toNat vd
/-- The home slice of a buffer on its virtual die (R252). -/
def State.bufferHome (s : State) (ctx cbid homevd : Nat) : Option Slice :=
  (s.dieOf ctx homevd).map fun x => ⟨homevd, x.1, x.2, cbid % (32 - s.carved x.1 x.2)⟩
/-- Whether the die that keeps a buffer is still the one its home lies on: after a rebinding without a move it is not (R335). -/
def State.keepsBuf (s : State) (b : CBuf) : Bool :=
  match b.home with
  | none => true
  | some (vd, p, d) => (s.bufferHome b.ctx b.cbid vd).any fun h => (h.pkg, h.die) == (p, d)
def State.cbuf (s : State) (ctx cbid : Nat) : CBuf :=
  (s.cbufs.find? fun b => b.ctx == ctx && b.cbid == cbid && s.keepsBuf b).getD (CBuf.fresh ctx cbid)
/-- The home of a buffer, which the first operation creates (R333). -/
def State.openBuf (s : State) (ctx cbid : Nat) : State := if (s.cbuf ctx cbid).home.isSome then s else s.createHome ctx
/-- The buffer at its home (R252). -/
def State.cbufAt (s : State) (ctx : Nat) (d : CDesc) : CBuf :=
  let b := s.cbuf ctx d.cbid
  if b.home.isSome then b
  else { b with home := (s.bufferHome ctx d.cbid d.homevd).map fun h => (h.vd, h.pkg, h.die) }
def State.setCbuf (s : State) (b : CBuf) : State :=
  { s with cbufs := b :: s.cbufs.filter fun x => !(x.ctx == b.ctx && x.cbid == b.cbid && x.home == b.home) }
def CBuf.slot (b : CBuf) (n : Nat) : Option CSlot := b.slots.find? (·.n == n)
def CBuf.setSlot (b : CBuf) (t : CSlot) : CBuf := { b with slots := t :: b.slots.filter (·.n != t.n) }
/-- Counts of Table 6, by their codes. -/
abbrev nLATE : Fin 7 := 0
abbrev nDUP : Fin 7 := 1
abbrev nUNEXP : Fin 7 := 2
abbrev nPARTIAL : Fin 7 := 3
abbrev nNOSLOT : Fin 7 := 4
abbrev nALLOC : Fin 7 := 5
abbrev nRELEASE : Fin 7 := 6
def CBuf.count (b : CBuf) (n : Fin 7) : CBuf := { b with counts := b.counts.set n (b.counts[n] + 1) }
/-- The lowest-numbered free slot. -/
def CBuf.freeSlot (b : CBuf) (n : Nat) : Option Nat :=
  (List.range n).find? fun i => match b.slot i with
    | some t => t.state == .free
    | none => true
/-- The arrival bitmap, by entries. -/
def CSlot.arrived (t : CSlot) : Nat := t.rows.foldl (fun m r => m ||| 2 ^ r.1) 0
def CSlot.full (t : CSlot) : Bool := t.arrived == 2 ^ t.experts.length - 1
/-- The tag of a slot (R258). -/
def CSlot.tag (t : CSlot) : Nat := t.token * 2 ^ 32 + t.n

/-! Instructions and their steps at the home (R257, R258). -/

def giveStatus (f : Fields) (s : State) (status slot : Nat) : Res := give f s (BitVec.ofNat 64 (status * 2 ^ 32 + slot))
/-- The token, experts and weights of row 0 of B (Table 4). -/
def allocToken (row : Nat) : Nat := bitsAt row 384 32
def allocExperts (k row : Nat) : List Nat := (List.range k).map fun i => bitsAt row (256 + 16 * i) 16
def allocWeights (k row : Nat) : List Nat := (List.range k).map fun i => bitsAt row (32 * i) 32
/-- An allocation of the current hart at its home (R257, R264, R295). One that has stalled finds the descriptor as it is by then, and the
checks of R255 fail as they would have before (DESIGN CHOICE, log 29). -/
def allocRun (f : Fields) (cbid row : Nat) (s : State) : Res :=
  let h := s.hart
  match s.cbufDesc s.agent cbid with
  | .error e => combineTrap s e
  | .ok d =>
    let s := (s.openBuf h.ctx cbid).takeTurn (.buffer h.ctx cbid) h
    let b := s.cbufAt h.ctx d
    match b.freeSlot d.nslot with
    | none => if h.det then .trap s cNONDET 0x08 0 else giveStatus f (s.setCbuf (b.count nNOSLOT)) 1 0
    | some n =>
      let t : CSlot :=
        { n := n, state := .filling, token := allocToken row, experts := allocExperts d.k row
          weights := allocWeights d.k row, rows := [], missing := 0, alloc := b.nextAlloc
          deadline := if d.timeout = 0 ∨ h.det then none else some (s.time + d.timeout)
          isPartial := false, err := false, spoilt := false, flags := 0, agent := s.agent }
      let s := s.setCbuf { (b.setSlot t).count nALLOC with nextAlloc := b.nextAlloc + 1 }
      let s := s.mark t.agent h.place.die h.place.cluster (.slot ⟨h.ctx, cbid⟩ n) true (d.outRow t.token) d.outBytes
      giveStatus f s 0 n
/-- `cballoc` (R254, R255, R257). -/
def execCballoc (f : Fields) (s : State) : Host.Outcome State Fault Refusal :=
  aside f (phased true fun s0 =>
    let s := s0.inStream f.strm true
    let a := (s.hart.xr f.a).toNat
    match s.cbufDesc s.agent a with
    | .error e => combineTrap s e
    | .ok d =>
      let row := bitsAt (s.hart.tr f.b).toNat 0 1024
      let es := allocExperts d.k row
      if es.any (fun e => decide (e ≥ d.nexp)) || !es.Nodup then combineTrap s (0x04 + a * 2 ^ 8)
      else if !s.inTurn (.buffer s.hart.ctx a) s.hart then .wait s
      else atHome f (.alloc a row) (fun _ => allocRun f a row) s) s

/-- Fields of a contribution's tag (R258). -/
def tagSlot (w : Nat) : Nat := bitsAt w 0 16
def tagExpert (w : Nat) : Nat := bitsAt w 16 12
def tagToken (w : Nat) : Nat := bitsAt w 32 32
/-- Where staged entry i of slot n lies (R252). -/
def State.stagePa (s : State) (ag : Agent) (d : CDesc) (n i : Nat) : List (Nat × Nat) :=
  match s.ctxOf ag.ctx with
  | none => []
  | some c => (pageCuts (d.stage + (n * d.k + i) * d.capRow) d.capRow (d.capRow / 0x10000 + 2)).filterMap fun p =>
      (s.translateAt ag.place c.asid.toNat c.ptroot.toNat .s .load p.1).map fun x => (x.pa, p.2)
/-- Stages a row: its units are written whole, which clears their errors; what they hold is private to the hardware. -/
def State.stageClear (s : State) (l : List (Nat × Nat)) : State :=
  let s := s.writeFree (stageStamp s.nextOp) 0 l
  { s with nextOp := s.nextOp + 1
           poison := s.poison.filter fun u => !l.any fun p => decide (p.1 < u.1 + u.2) && decide (u.1 < p.1 + p.2) }
/-- A contribution at its home (R258, R266): tag and the physical ranges of its row. One that has stalled finds the descriptor as it is by
then, and the checks of R255 fail as they would have before (DESIGN CHOICE, log 29). -/
def putRun (f : Fields) (cbid tag : Nat) (row : List (Nat × Nat)) (s : State) : Res :=
  let h := s.hart
  match s.cbufDesc s.agent cbid with
  | .error e => combineTrap s e
  | .ok d =>
    let s := (s.openBuf h.ctx cbid).takeTurn (.buffer h.ctx cbid) h
    let b := s.cbufAt h.ctx d
    let late : Res := if h.det then .trap s cNONDET 0x08 0 else giveStatus f (s.setCbuf (b.count nLATE)) 2 0
    match b.slot (tagSlot tag) with
    | none => late
    | some t =>
      if t.state ≠ .filling ∨ t.token ≠ tagToken tag then late
      else match t.experts.idxOf? (tagExpert tag) with
        | none => giveStatus f (s.setCbuf (b.count nUNEXP)) 4 0
        | some i =>
          if t.rows.any (·.1 == i) then
            (if h.det then .trap s cNONDET 0x08 0 else giveStatus f (s.setCbuf (b.count nDUP)) 3 0)
          else
            let v := row.foldr (fun p acc => s.readN p.1 p.2 + 2 ^ (8 * p.2) * acc) 0
            let t := { t with rows := t.rows ++ [(i, v)], spoilt := t.spoilt || row.any fun p => s.poisoned p.1 p.2 }
            let t := if t.full then { t with state := .closing } else t
            giveStatus f ((s.setCbuf (b.setSlot t)).stageClear (s.stagePa t.agent d t.n i)) 0 0
/-- `cbput` (R254, R255, R258, R265). -/
def execCbput (f : Fields) (s : State) : Host.Outcome State Fault Refusal :=
  issue f { wholly := true, body := phased true fun s0 =>
    let s := s0.drainAll s0.cur
    let a := (s.hart.xr f.a).toNat
    let va := (s.hart.xr f.b).toNat
    let tag := (s.hart.xr f.c).toNat
    match s.cbufDesc s.agent a with
    | .error e => combineTrap s e
    | .ok d =>
      if bitsAt tag 28 4 ≠ 0 ∨ tagSlot tag ≥ d.nslot ∨ tagExpert tag ≥ d.nexp then combineTrap s (0x05 + a * 2 ^ 8)
      else if va % 64 ≠ 0 then misaligned s va
      else if !s.inTurn (.buffer s.hart.ctx a) s.hart then .wait s
      else match s.chkRange .load .read va d.rowBytes with
        | .error e => e.res s
        | .ok l =>
          let row := l.map fun p => (p.pa, p.n)
          atHome f (.put a (BitVec.ofNat 64 tag) row) (fun _ => putRun f a tag row) (s.noteAll .read l) } s

/-- `STATE` of Table 5. -/
def SlotState.code : SlotState → Nat
  | .free => 0
  | .filling => 1
  | _ => 2
/-- The value of `cbstat` (R263, Table 5). -/
def CSlot.image (t : CSlot) : Nat :=
  t.state.code * 2 ^ 62 + (if t.isPartial then 2 ^ 61 else 0) + (if t.err then 2 ^ 60 else 0) + t.flags.toNat * 2 ^ 48
    + t.arrived * 2 ^ 40 + t.missing * 2 ^ 32 + t.token
/-- The checks of `cbstat` and the value it produces (R23). -/
def cbstatOp (f : Fields) (val : Nat → CDesc → State → Except Nat Word) (s : State) : Host.Outcome State Fault Refusal :=
  aside f (phased true fun s0 =>
    let s := s0.inStream f.strm true
    let a := (s.hart.xr f.a).toNat
    match s.cbufDesc s.agent a with
    | .error e => combineTrap s e
    | .ok d => match val a d s with
      | .error e => combineTrap s e
      | .ok w => .done (s.modHart fun h => if h.det then h.put f.d (.word w) else h.produce f.d (.word w))) s
/-- `cbstat` (R263). -/
def execCbstat (f : Fields) (s : State) : Host.Outcome State Fault Refusal :=
  cbstatOp f (fun a d s =>
    let n := (s.hart.xr f.b).toNat
    if n ≥ d.nslot then .error (0x06 + a * 2 ^ 8)
    else match (s.cbuf s.hart.ctx a).slot n with
      | some t => .ok (BitVec.ofNat 64 t.image)
      | none => .ok 0) s
/-- `cbstat.buf` (R263). -/
def execCbstatBuf (f : Fields) (s : State) : Host.Outcome State Fault Refusal :=
  cbstatOp f (fun a _ s => .ok ((s.cbuf s.hart.ctx a).counts.toList.getD (bitsAt f.imm.toNat 0 3) 0)) s
/-- `CB_ALLOC_AT_HOME` (R257). -/
def execCbAllocAtHome (n : Nat) (s : State) : Host.Outcome State Fault Refusal :=
  .next (s.homeEnd n fun f k s => match k with
    | .alloc cbid row => if s.inTurn (.buffer s.hart.ctx cbid) s.hart then some (allocRun f cbid row s) else none
    | _ => none)
/-- `CB_PUT_AT_HOME` (R258). -/
def execCbPutAtHome (n : Nat) (s : State) : Host.Outcome State Fault Refusal :=
  .next (s.homeEnd n fun f k s => match k with
    | .put cbid tag row =>
      if s.inTurn (.buffer s.hart.ctx cbid) s.hart then some (putRun f cbid tag.toNat row s) else none
    | _ => none)

/-! Combination (R260, R261). -/

/-- Element j of an input row, as binary32 (R253, R260 step 2). -/
def CDesc.input (d : CDesc) (row j : Nat) : Nat × Flags :=
  if d.ifmt = 1 then (bitsAt row (32 * j) 32, 0)
  else
    let v : FVal := if d.ifmt = 0 then FpFmt.bf16.decode (bitsAt row (16 * j) 16)
      else scaled ((fpFmtOf (if d.ifmt = 2 then 4 else 5) 8).decode (bitsAt row (8 * j) 8))
        (bitsAt row (8 * (d.rowlen + j / 32)) 8)
    let r := round .f32 .rne v
    (r.1, snanFlag [v] ||| r.2)
/-- One term of a combination: the expert, the entry, its weight. -/
structure Term where
  expert : Nat
  entry : Nat
  weight : Nat
  deriving DecidableEq, Repr
def insertTerm (t : Term) : List Term → List Term
  | [] => [t]
  | x :: r => if t.expert < x.expert then t :: x :: r else x :: insertTerm t r
/-- The terms of some entries, in ascending expert index. -/
def CSlot.terms (t : CSlot) (ok : Nat → Bool) : List Term :=
  ((List.range t.experts.length).filter ok).foldl
    (fun l i => insertTerm ⟨t.experts.getD i 0, i, t.weights.getD i 0⟩ l) []
/-- Terms with the weights of R261, their flags, and whether every element is +0.0 instead. -/
def CSlot.weighted (t : CSlot) (subst : Nat) : List Term × Flags × Bool :=
  let came (i : Nat) : Bool := t.rows.any (·.1 == i)
  if !t.isPartial then (t.terms fun _ => true, 0, false)
  else if subst = 2 then (t.terms fun _ => true, 0, false)
  else
    let p := t.terms came
    if subst = 1 then (p, 0, false)
    else
      let g := p.foldl (fun (acc : Nat × Flags) x =>
        let r := fpAdd .f32 .rne (FpFmt.f32.decode acc.1) (FpFmt.f32.decode x.weight)
        (r.1, acc.2 ||| r.2)) (0, 0)
      if g.1 % 2 ^ 31 = 0 then ([], g.2, true)
      else
        let q := p.map fun x => (x, fpDiv .f32 .rne (FpFmt.f32.decode x.weight) (FpFmt.f32.decode g.1))
        (q.map fun x => { x.1 with weight := x.2.1 }, q.foldl (fun a x => a ||| x.2.2) g.2, false)
/-- Element j of the output, in `OFMT`. -/
def CDesc.combine (d : CDesc) (t : CSlot) (terms : List Term) (fall : Option Nat) (j : Nat) : Nat × Flags :=
  let y (i : Nat) : Nat × Flags := match t.rows.find? (·.1 == i), fall with
    | some r, _ => d.input r.2 j
    | none, some fb => (bitsAt fb (32 * j) 32, 0)
    | none, none => (0, 0)
  let acc := terms.foldl (fun (acc : Nat × Flags) x =>
    let e := y x.entry
    let r := fpFma .f32 .rne (FpFmt.f32.decode x.weight) (FpFmt.f32.decode e.1) (FpFmt.f32.decode acc.1)
    (r.1, acc.2 ||| e.2 ||| r.2)) (0, 0)
  if d.ofmt = 1 then acc
  else let r := cvtTo 3 16 false .rne (FpFmt.f32.decode acc.1); (r.1, acc.2 ||| r.2)
/-- The output row and its flags. -/
def CDesc.combineRow (d : CDesc) (t : CSlot) (fall : Option Nat) : Nat × Flags :=
  let w := t.weighted d.subst
  let r := (List.range d.rowlen).map (d.combine t w.1 fall)
  (packBits (8 * d.osize) (r.map (·.1)), r.foldl (fun a x => a ||| x.2) w.2.1)

/-- The physical ranges of a row in normal or deterministic-tagged HBM. -/
def State.hbmRange (s : State) (ag : Agent) (k : AccessKind) (va n : Nat) : Option (List (Nat × Nat)) :=
  match s.engRange ag ag.place.die ag.place.cluster k va n with
  | .ok l => if l.all fun p => s.isHbm p.1 then some l else none
  | .error _ => none
/-- What a combination reads besides the staged rows, and where it writes: none for a failure of R266. -/
def State.combinePlan (s : State) (d : CDesc) (t : CSlot) : Option (Option Nat × List (Nat × Nat)) :=
  let staged := t.rows.flatMap fun r => s.stagePa t.agent d t.n r.1
  match s.hbmRange t.agent .store (d.outRow t.token) d.outBytes with
  | none => none
  | some out =>
    if t.spoilt || staged.any (fun p => s.poisoned p.1 p.2) || out.any (fun p => s.lost p.1 || s.partPoisoned p.1 p.2) then none
    else if t.isPartial ∧ d.subst = 2 then
      (match s.hbmRange t.agent .load (d.fallRow t.token) (4 * d.rowlen) with
        | none => none
        | some l =>
          if l.any fun p => s.poisoned p.1 p.2 then none
          else some (some (l.foldr (fun p acc => s.readN p.1 p.2 + 2 ^ (8 * p.2) * acc) 0), out))
    else some (none, out)
/-- A failed combination (R266). -/
def CSlot.failed (t : CSlot) : CSlot := { t with state := .ready, err := true }
/-- The engine combines a slot that has left OPEN (R260, R266). A descriptor that cannot be read fails the combination (DESIGN CHOICE, log
55). -/
def State.combineSlot (s : State) (b : CBuf) (t : CSlot) : State :=
  let fail : State := (s.setCbuf (b.setSlot t.failed)).deliverEngine t.agent t.tag
  match s.slotDesc t.agent b.cbid with
  | none => fail
  | some d => match s.combinePlan d t with
    | none => fail
    | some (fall, out) =>
      let r := d.combineRow t fall
      (s.setCbuf (b.setSlot { t with state := .ready, flags := r.2 })).writeRanges r.1 out
/-- Whether an access of a combination waits for a test (R395). -/
def State.combineHeld (s : State) (b : BufferId) (t : CSlot) : Bool :=
  !s.underTest.isEmpty && (match s.slotDesc t.agent b.cbid with
    | none => false
    | some d => s.agentHeld t.agent [(d.outRow t.token, d.outBytes), (d.fallRow t.token, if d.subst = 2 then 4 * d.rowlen else 0)]
        || t.rows.any fun r => (s.stagePa t.agent d t.n r.1).any fun p => s.testing p.1 p.2)
/-- A slot of a buffer in a given state. -/
def State.slotIn (s : State) (b : BufferId) (n : Nat) (st : SlotState) : Option CSlot :=
  ((s.cbuf b.ctx b.cbid).slot n).bind fun t => if t.state = st then some t else none
/-- `SLOT_COMBINE` (R260). -/
def execSlotCombine (b : BufferId) (slot : Nat) (s : State) : Host.Outcome State Fault Refusal :=
  match s.slotIn b slot .closing with
  | some t => .next (if s.combineHeld b t then s else s.combineSlot (s.cbuf b.ctx b.cbid) t)
  | none => .next s
/-- `COMBINE_DEADLINE`: the deadline of a slot still OPEN (R261). -/
def execCombineDeadline (b : BufferId) (slot : Nat) (s : State) : Host.Outcome State Fault Refusal :=
  match s.slotIn b slot .filling with
  | some t =>
    if t.deadline.any s.over then
      let t := { t with state := .closing, isPartial := true, missing := 2 ^ t.experts.length - 1 - t.arrived }
      .next (s.setCbuf (((s.cbuf b.ctx b.cbid).setSlot t).count nPARTIAL))
    else .next s
  | none => .next s

/-! Release (R262, R264). -/

/-- Whether a slot that is combined may be released. Where the descriptor cannot be read the order is that of IN_ORDER (DESIGN CHOICE,
log 49). -/
def CBuf.mayRelease (b : CBuf) (d : Option CDesc) (t : CSlot) : Bool :=
  (d.any (·.asComplete) && !t.agent.det) || !b.slots.any fun x => x.state != .free && decide (x.alloc < t.alloc)
/-- Adds 1 to the counter at `CTR`, if it is writable. -/
def State.bumpCtr (s : State) (ag : Agent) (va : Nat) : Option State :=
  match s.hbmRange ag.publish .atomic va 8 with
  | some [(pa, 8)] => if s.poisoned pa 8 then none else some (s.writeN pa ((s.readN pa 8 + 1) % 2 ^ 64) 8)
  | _ => none
/-- A release; a descriptor that cannot be read gives no counter that can be written. -/
def State.releaseSlot (s : State) (id : BufferId) (d : Option CDesc) (t : CSlot) : State :=
  let s := s.unmark (.slot id t.n)
  let end_ (s : State) (t : CSlot) : State :=
    s.setCbuf (((s.cbuf id.ctx id.cbid).setSlot { t with state := .free }).count nRELEASE)
  match d.bind fun d => s.bumpCtr t.agent d.ctr with
  | some s' => end_ s' t
  | none => (end_ s { t with err := true }).deliverEngine t.agent t.tag
/-- `SLOT_RELEASE` (R262). -/
def execSlotRelease (b : BufferId) (slot : Nat) (s : State) : Host.Outcome State Fault Refusal :=
  match s.slotIn b slot .ready with
  | some t =>
    let d := s.slotDesc t.agent b.cbid
    .next (if (s.cbuf b.ctx b.cbid).mayRelease d t && !d.any fun d => s.agentHeld t.agent [(d.ctr, 8)] then s.releaseSlot b d t else s)
  | none => .next s

end Sys2Proof.Machine
end

