-- ==== Sys2Proof/Machine/Control.lean ====
section
/-! DEFINITION. Control transfer, hardware loops and `yield` (R90-R94). -/
namespace Sys2Proof.Machine

/-- PC + sext(IMM), modulo 2^55 (R90). -/
def target (h : Hart) (f : Fields) : BitVec 55 := h.pc + f.imm.signExtend 55
/-- PC + 12 as a scalar (R57). -/
def linkX (h : Hart) : Word := (h.pc + 12).setWidth 64

/-- A branch whose condition reads the hart. -/
def branchIf (f : Fields) (c : Hart → Bool) (s : State) : Out :=
  aside f (fun s => if c s.hart then .jump s (target s.hart f) else .done s) s
/-- `br` (R90). -/
def execBr (f : Fields) (s : State) : Out := branchIf f (fun _ => true) s
/-- `br.z` (R90). -/
def execBrZ (f : Fields) (s : State) : Out := branchIf f (fun h => h.xr f.a == 0) s
/-- `br.nz` (R90). -/
def execBrNz (f : Fields) (s : State) : Out := branchIf f (fun h => h.xr f.a != 0) s
/-- `jal` (R90). -/
def execJal (f : Fields) (s : State) : Out :=
  aside f (fun s => .jump (s.modHart fun h => h.put f.d (.word (linkX h))) (target s.hart f)) s
/-- `jr`: x[A] is read before x[D] is written (R90). -/
def execJr (f : Fields) (s : State) : Out :=
  aside f (fun s =>
    .jump (s.modHart fun h => h.put f.d (.word (linkX h))) ((s.hart.xr f.a + immX f).setWidth 55)) s

/-- The registers of loop 0 or 1 set by `loop` (R91). -/
def SysRegs.setLoop (r : SysRegs) (one : Bool) (lc lb le : Word) : SysRegs :=
  if one then { r with lc1 := lc, lb1 := lb, le1 := le } else { r with lc0 := lc, lb0 := lb, le0 := le }
/-- `loop.0` and `loop.1` (R91). -/
def loopOp (f : Fields) (one : Bool) (s : State) : Out :=
  aside f (fun s =>
    let h := s.hart
    let le := target h f
    let s' := s.modSr fun r => r.setLoop one (h.xr f.a) (linkX h) (le.setWidth 64)
    if h.xr f.a = 0 then .jump s' (le + 12) else .done s') s
/-- `loop.0` (R91). -/
def execLoop0 (f : Fields) (s : State) : Out := loopOp f false s
/-- `loop.1` (R91). -/
def execLoop1 (f : Fields) (s : State) : Out := loopOp f true s
/-- `lbrk.0`: LC0 := 0 and PC := LE0 + 12 (R93). -/
def execLbrk0 (f : Fields) (s : State) : Out :=
  aside f (fun s => .jump (s.modSr fun r => { r with lc0 := 0 }) (s.hart.sr.le0.setWidth 55 + 12)) s
/-- `lbrk.1` (R93). -/
def execLbrk1 (f : Fields) (s : State) : Out :=
  aside f (fun s => .jump (s.modSr fun r => { r with lc1 := 0 }) (s.hart.sr.le1.setWidth 55 + 12)) s
/-- `yield` changes nothing but `INSTRET` and the pc (R94). -/
def execYield (f : Fields) (s : State) : Out := aside f (fun s => .done s) s

end Sys2Proof.Machine
end

