-- ==== Sys2Proof/Machine/MeshGeom.lean ====
section
/-! DEFINITION. What the mesh engine computes (R273-R283, R285, R303): keys, red refinement, renumbering, faces, colours,
parts and ghosts, as functions of one generation. Coordinates are binary64 bits, and every operation rounds once. -/
namespace Sys2Proof.Machine

/-! Arithmetic. -/

def d64 (n : Nat) : FVal := FpFmt.f64.decode n
def add64 (a b : Nat) : Nat := (fpAdd .f64 .rne (d64 a) (d64 b)).1
def mul64 (a b : Nat) : Nat := (fpMul .f64 .rne (d64 a) (d64 b)).1
def div64 (a b : Nat) : Nat := (fpDiv .f64 .rne (d64 a) (d64 b)).1
def sub64 (a b : Nat) : Nat := add64 a (b ^^^ 2 ^ 63)
def half64 : Nat := 0x3FE0000000000000
/-- round(1/3) and 0.25 (R278), 2^-2 and 2^-3 (R282). -/
def centre64 (dim : Nat) : Nat := if dim = 2 then 0x3FD5555555555555 else 0x3FD0000000000000
def mean64 (dim : Nat) : Nat := if dim = 2 then 0x3FD0000000000000 else 0x3FC0000000000000
/-- totalOrder of IEEE 754-2019 on binary64 bits, as an unsigned key (R303). -/
def total64 (b : Nat) : Nat := if b.testBit 63 then 2 ^ 64 - 1 - b else b + 2 ^ 63

/-! Orders. -/

/-- Lexicographic order of lists of numbers. -/
def lexLt : List Nat → List Nat → Bool
  | [], [] => false
  | [], _ :: _ => true
  | _ :: _, [] => false
  | a :: r, b :: t => if a = b then lexLt r t else decide (a < b)
def insertBy {α : Type} (key : α → List Nat) (x : α) : List α → List α
  | [] => [x]
  | y :: r => if lexLt (key x) (key y) then x :: y :: r else y :: insertBy key x r
/-- Sorts by a key; equal keys keep their order. -/
def sortBy {α : Type} (key : α → List Nat) (l : List α) : List α := l.foldl (fun acc x => insertBy key x acc) []
def sortNat (l : List Nat) : List Nat := sortBy (fun n => [n]) l

/-! Keys (R278, R285). -/

def keyBits (dim : Nat) : Nat := if dim = 2 then 32 else 21
/-- Interleaves the low bits of the axes, x lowest. -/
def interleave (dim : Nat) (qs : List Nat) : Nat :=
  (List.range (keyBits dim)).foldl (fun k i =>
    (qs.zipIdx).foldl (fun k q => if q.1.testBit i then k + 2 ^ (dim * i + q.2) else k) k) 0
/-- The quantised coordinate. -/
def quant (dim x lo hi : Nat) : Nat :=
  let top := 2 ^ keyBits dim - 1
  match d64 (div64 (sub64 x lo) (sub64 hi lo)) with
  | .nan _ => 0
  | .inf neg => if neg then 0 else top
  | .fin neg m e =>
    if neg then 0
    else
      let k : Int := e + keyBits dim
      Nat.min top (if k ≥ 0 then m * 2 ^ k.toNat else m / 2 ^ (-k).toNat)
/-- The bounding box: low and high corner. -/
structure Box where
  lo : List Nat
  hi : List Nat
  deriving DecidableEq, Repr
def Box.key (b : Box) (dim : Nat) (p : List Nat) : Nat :=
  interleave dim ((List.range dim).map fun i => quant dim (p.getD i 0) (b.lo.getD i 0) (b.hi.getD i 0))

/-- A node while a generation is built: a carried node or an input node (0, its number, 0), or the midpoint of the edge
of two old nodes (1, lower, higher) (R276, R303). -/
structure Vert where
  id : Nat × Nat × Nat
  p : List Nat
  deriving DecidableEq, Repr
/-- Node-key order (R303). -/
def Box.order (b : Box) (dim : Nat) (v : Vert) : List Nat :=
  b.key dim v.p :: v.p.map total64 ++ [v.id.1, v.id.2.1, v.id.2.2]
/-- The centroid of a cell (R278). -/
def Box.centroid (b : Box) (dim : Nat) (vs : List Vert) : List Nat :=
  let l := sortBy (b.order dim) vs
  (List.range dim).map fun i =>
    match l.map fun v => v.p.getD i 0 with
    | [] => 0
    | x :: r => mul64 (r.foldl add64 x) (centre64 dim)
def Box.cellKey (b : Box) (dim : Nat) (vs : List Vert) : Nat := b.key dim (b.centroid dim vs)

/-! Red refinement (R277 step 4). -/

def midOf (a b : Vert) : Vert :=
  let m := a.id.2.1; let n := b.id.2.1
  ⟨(1, Nat.min m n, Nat.max m n), List.zipWith (fun x y => mul64 (add64 x y) half64) a.p b.p⟩
/-- The children of a cell whose vertices are given in parent-local order (R277). Inner cells whose key and centroid both tie keep the order
of the list (DESIGN CHOICE, log 55). -/
def Box.split (b : Box) (dim : Nat) (vs : List Vert) : List (List Vert) :=
  match dim, vs with
  | 2, [v0, v1, v2] =>
    let m01 := midOf v0 v1; let m02 := midOf v0 v2; let m12 := midOf v1 v2
    [[v0, m01, m02], [v1, m01, m12], [v2, m02, m12], [m01, m02, m12]]
  | 3, [v0, v1, v2, v3] =>
    let m01 := midOf v0 v1; let m02 := midOf v0 v2; let m03 := midOf v0 v3
    let m12 := midOf v1 v2; let m13 := midOf v1 v3; let m23 := midOf v2 v3
    let inner := [[m02, m13, m01, m12], [m02, m13, m12, m23], [m02, m13, m23, m03], [m02, m13, m03, m01]]
    [[v0, m01, m02, m03], [v1, m01, m12, m13], [v2, m02, m12, m23], [v3, m03, m13, m23]]
      ++ sortBy (fun t => b.cellKey 3 t :: (b.centroid 3 t).map total64) inner
  | _, _ => []

/-! A generation from its leaves (R279). -/

/-- A leaf of the new generation, before numbering: its sort key of R279, its nodes, what it will be, where it is from. -/
structure Leaf where
  sort : List Nat
  vs : List Vert
  level : Nat
  key : Nat
  fam : Option Nat
  child : Nat
  origin : Origin Nat
  deriving DecidableEq, Repr
/-- A family before numbering: its nodes by identity. -/
abbrev PreFam := List (Nat × Nat × Nat) × MFam

/-- Numbers the nodes in order of first use. -/
def Box.number (b : Box) (dim : Nat) (leaves : List Leaf) : List Vert :=
  leaves.foldl (fun tab l =>
    let fresh := (l.vs.filter fun v => !tab.any (·.id == v.id))
    tab ++ sortBy (b.order dim) (fresh.foldl (fun acc v => if acc.any (·.id == v.id) then acc else acc ++ [v]) [])) []
def nodeNum (tab : List Vert) (id : Nat × Nat × Nat) : Option Nat := tab.findIdx? (·.id == id)
def numOf (tab : List Vert) (id : Nat × Nat × Nat) : Nat := (nodeNum tab id).getD 0

/-- Local face i of a cell: its nodes without local vertex i (R273). -/
def MCell.face (c : MCell) (i : Nat) : List Nat := c.nodes.eraseIdx i
/-- The cells that hold a face, ascending. -/
def holders (cells : List MCell) (dim : Nat) (f : List Nat) : List Nat :=
  (cells.zipIdx.filter fun x => (List.range (dim + 1)).any fun i => x.1.face i == f).map (·.2)
/-- Midpoints of an edge. -/
def midsOf (mids : List (Nat × Nat × Nat)) (a b : Nat) : List Nat :=
  (mids.filter fun m => (m.1 == a && m.2.1 == b) || (m.1 == b && m.2.1 == a)).map (·.2.2)
/-- The ways a face can be cut at midpoints of its edges. -/
def cuts (mids : List (Nat × Nat × Nat)) (f : List Nat) : List (List (List Nat)) :=
  match f with
  | [a, b] => (midsOf mids a b).map fun m => [sortNat [a, m], sortNat [m, b]]
  | [a, b, c] => (midsOf mids a b).flatMap fun x => (midsOf mids a c).flatMap fun y => (midsOf mids b c).map fun z =>
      [sortNat [a, x, y], sortNat [b, x, z], sortNat [c, y, z], sortNat [x, y, z]]
  | _ => []
/-- A cut of a face whose every part is a face of some cell: the parts. -/
def cutOf (cells : List MCell) (dim : Nat) (mids : List (Nat × Nat × Nat)) (f : List Nat) : Option (List (List Nat)) :=
  (cuts mids f).find? fun parts => parts.all fun p => !(holders cells dim p).isEmpty
/-- The cell on the coarse side of a face, if the face is a part of one. -/
def coarseOf (cells : List MCell) (dim : Nat) (mids : List (Nat × Nat × Nat)) (c : Nat) (f : List Nat) : Option Nat :=
  (cells.zipIdx.find? fun x => x.2 != c && (List.range (dim + 1)).any fun i =>
    match cutOf cells dim mids (x.1.face i) with
    | some parts => parts.contains f
    | none => false).map (·.2)
/-- What lies across each face of a cell. -/
def sidesOf (cells : List MCell) (dim : Nat) (mids : List (Nat × Nat × Nat)) (c : MCell) (n : Nat) : List MSide :=
  (List.range (dim + 1)).map fun i =>
    let f := c.face i
    match (holders cells dim f).find? (· != n) with
    | some o => .conf o
    | none => match cutOf cells dim mids f with
      | some parts => .coarse (sortNat (parts.flatMap (holders cells dim)))
      | none => match coarseOf cells dim mids n f with
        | some o => .fine o
        | none => .boundary
/-- The cells across a side. -/
def MSide.cells : MSide → List Nat
  | .conf c | .fine c => [c]
  | .coarse l => l
  | .boundary => []
def neighbours (sides : List (List MSide)) (c : Nat) : List Nat := (sides.getD c []).flatMap MSide.cells

/-- The faces in face order, uncoloured. -/
def facesOf (sides : List (List MSide)) : List MFace :=
  sides.zipIdx.flatMap fun x => x.1.zipIdx.flatMap fun y => match y.1 with
    | .boundary => [⟨x.2, y.2, none, false, 0⟩]
    | .conf c => if x.2 < c then [⟨x.2, y.2, some c, false, 0⟩] else []
    | .fine c => if x.2 < c then [⟨x.2, y.2, some c, true, 0⟩] else []
    | .coarse l => (l.filter (x.2 < ·)).map fun c => ⟨x.2, y.2, some c, true, 0⟩
def MFace.touches (f : MFace) (g : MFace) : Bool :=
  let of (h : MFace) : List Nat := h.c0 :: h.c1.toList
  (of f).any fun c => (of g).contains c
/-- The smallest number not in a list. -/
def leastFree (l : List Nat) : Nat := ((List.range (l.length + 1)).find? fun i => !l.contains i).getD 0
/-- Colours the faces greedily (R279). -/
def colourAll (fs : List MFace) : List MFace :=
  fs.foldl (fun acc f => acc ++ [{ f with colour := leastFree ((acc.filter f.touches).map (·.colour)) }]) []

/-- The number of cells that each part owns, from the parts' first cells. -/
def ownsOf (first : List Nat) (n : Nat) : List Nat := (first.zip (first.drop 1 ++ [n])).map fun p => p.2 - p.1
/-- The ghost list of a part (R269). -/
def ghostsOf (sides : List (List MSide)) (lo n : Nat) : List Nat :=
  let l := (List.range n).flatMap fun i => neighbours sides (lo + i)
  sortNat ((l.filter fun c => decide (c < lo) || decide (lo + n ≤ c)).foldl
    (fun acc c => if acc.contains c then acc else acc ++ [c]) [])
/-- Gives a generation its parts. -/
def MGen.withParts (g : MGen) (first : List Nat) : MGen :=
  let own := ownsOf first g.cells.length
  { g with first := first, nown := own, ghosts := (first.zip own).map fun p => ghostsOf g.sides p.1 p.2 }

/-- Builds a generation from its leaves, its families and its midpoints; the parts follow from the cells. -/
def Box.build (b : Box) (dim : Nat) (leaves : List Leaf) (fams : List PreFam)
    (mids : List ((Nat × Nat × Nat) × (Nat × Nat × Nat) × (Nat × Nat × Nat))) (parts : List MCell → List Nat) :
    MGen × List (Origin Nat) :=
  let leaves := sortBy Leaf.sort leaves
  let tab := b.number dim leaves
  let cells : List MCell := leaves.map fun l => ⟨sortNat (l.vs.map fun v => numOf tab v.id), l.level, l.key, l.fam, l.child⟩
  let ms := mids.filterMap fun m => match nodeNum tab m.1, nodeNum tab m.2.1, nodeNum tab m.2.2 with
    | some x, some y, some z => some (x, y, z)
    | _, _, _ => none
  let sides := cells.zipIdx.map fun x => sidesOf cells dim ms x.1 x.2
  let g : MGen :=
    { dim := dim, nodes := tab.map (·.p), cells := cells
      fams := fams.map fun f => { f.2 with nodes := f.1.map (numOf tab) }
      mids := ms, sides := sides, faces := colourAll (facesOf sides), first := [], nown := [], ghosts := [], secret := [] }
  (g.withParts (parts cells), leaves.map (·.origin))

/-! Generation 0 (R276). -/

/-- A bad input cell (code 0x05). -/
def badCell (nnode : Nat) (t : List Nat) : Bool := t.any (fun v => decide (nnode ≤ v)) || !t.Nodup
/-- Generation 0 from input nodes and cells: part 0 owns every cell. -/
def Box.initial (b : Box) (dim npart : Nat) (coords : List (List Nat)) (cells : List (List Nat)) : MGen × List (Origin Nat) :=
  let leaf (t : List Nat) (i : Nat) : Leaf :=
    let vs : List Vert := t.map fun v => ⟨(0, v, 0), coords.getD v []⟩
    let k := b.cellKey dim vs
    ⟨[k, 0, 0, i, 0], vs, 0, k, none, 0, .same i⟩
  b.build dim (cells.zipIdx.map fun x => leaf x.1 x.2) [] [] fun cs => 0 :: List.replicate (npart - 1) cs.length

/-! The next generation (R277, R279). -/

def markOf (marks : List (Nat × Nat)) (c : Nat) : Nat := ((marks.find? (·.1 == c)).map (·.2)).getD 0
def MGen.level (g : MGen) (c : Nat) : Nat := ((g.cells[c]?).map (·.level)).getD 0
/-- Steps 1 and 2: the leaves to refine, closed; the fuel is the number of cells. -/
def MGen.close (g : MGen) : Nat → List Nat → List Nat
  | 0, r => r
  | k + 1, r =>
    let lv (c : Nat) : Nat := g.level c + (if r.contains c then 1 else 0)
    let more := (List.range g.cells.length).filter fun c =>
      !r.contains c && (neighbours g.sides c).any fun n => decide (lv n > g.level c + 1)
    if more.isEmpty then r else g.close k (r ++ more)
def MGen.refined (g : MGen) (marks : List (Nat × Nat)) (maxlvl : Nat) : List Nat :=
  g.close g.cells.length ((List.range g.cells.length).filter fun c => markOf marks c == 2 && decide (g.level c < maxlvl))
/-- The leaves of a family, in child-index order. -/
def MGen.members (g : MGen) (fam : Nat) : List Nat :=
  (sortBy (fun x : MCell × Nat => [x.1.child]) (g.cells.zipIdx.filter fun x => x.1.fam == some fam)).map (·.2)
/-- Step 3: whether a family coarsens. -/
def MGen.coarsens (g : MGen) (marks : List (Nat × Nat)) (r : List Nat) (fam : Nat) : Bool :=
  let l := g.members fam
  let lv (c : Nat) : Nat := g.level c + (if r.contains c then 1 else 0)
  l.length == 2 ^ g.dim && l.all (fun c => markOf marks c == 1 && !r.contains c)
    && l.all fun c => (neighbours g.sides c).all fun n => l.contains n || decide (lv n ≤ g.level c)
def MGen.vert (g : MGen) (n : Nat) : Vert := ⟨(0, n, 0), g.nodes.getD n []⟩
/-- Pairs of a list's elements. -/
def pairs {α : Type} : List α → List (α × α)
  | [] => []
  | a :: r => r.map (fun b => (a, b)) ++ pairs r
/-- The parts of the next generation: part p starts at the first new cell whose key is at least that of its old first
cell (R279). -/
def MGen.carryParts (g : MGen) (new : List MCell) : List Nat :=
  let n := new.length
  let start (p : Nat) : Option Nat :=
    if g.nown.getD p 0 = 0 then none
    else
      let k := ((g.cells[g.first.getD p 0]?).map (·.key)).getD 0
      some ((new.findIdx? fun (c : MCell) => decide (k ≤ c.key)).getD n)
  let l := (List.range g.first.length).foldr (fun p acc => (start p).getD (acc.headD n) :: acc) []
  0 :: l.drop 1
/-- The next generation and where its cells come from. -/
def MGen.next (g : MGen) (b : Box) (marks : List (Nat × Nat)) (maxlvl : Nat) : MGen × List (Origin Nat) :=
  let r := g.refined marks maxlvl
  let back := (List.range g.fams.length).filter (g.coarsens marks r)
  let famIdx (c : Nat) : Nat := g.fams.length + (r.findIdx? (· == c)).getD 0
  let leaf (c : MCell) (i : Nat) : List Leaf :=
    let vs := c.nodes.map g.vert
    if r.contains i then
      (b.split g.dim vs).zipIdx.map fun x =>
        let k := b.cellKey g.dim x.1
        ⟨[k, c.level + 1, c.key, i, x.2], x.1, c.level + 1, k, some (famIdx i), x.2, .child i⟩
    else match back.find? fun f => c.fam == some f with
      | some f =>
        if c.child ≠ 0 then []
        else match g.fams[f]? with
          | some p => [⟨[p.key, p.level, p.key, i, 0], p.nodes.map g.vert, p.level, p.key, p.fam, p.child, .coarse (g.members f)⟩]
          | none => []
      | none => [⟨[c.key, c.level, c.key, i, 0], vs, c.level, c.key, c.fam, c.child, .same i⟩]
  let old (n : Nat) : Nat × Nat × Nat := (0, n, 0)
  let newFams : List PreFam := r.map fun i => match g.cells[i]? with
    | some c => (c.nodes.map old, ⟨[], c.level, c.key, c.fam, c.child⟩)
    | none => ([], ⟨[], 0, 0, none, 0⟩)
  let newMids := (r.flatMap fun i => pairs (((g.cells[i]?).map (·.nodes)).getD [])).map fun e =>
    (old e.1, old e.2, (1, Nat.min e.1 e.2, Nat.max e.1 e.2))
  b.build g.dim (g.cells.zipIdx.flatMap fun x => leaf x.1 x.2) (g.fams.map (fun f => (f.nodes.map old, f)) ++ newFams)
    (g.mids.map (fun m => (old m.1, old m.2.1, old m.2.2)) ++ newMids.foldl (fun acc m => if acc.contains m then acc else acc ++ [m]) [])
    g.carryParts

/-! Balance (R283). -/

/-- The value of a binary32 weight as binary64, or none for a negative, infinite or NaN one. -/
def weight64 (w : Nat) : Option Nat :=
  match FpFmt.f32.decode w with
  | .fin neg m e => if neg && m != 0 then none else some (round .f64 .rne (.fin neg m e)).1
  | _ => none
/-- The prefix weights. -/
def prefixes (ws : List Nat) : List Nat := (ws.foldl (fun (acc : List Nat × Nat) w => let t := add64 acc.2 w; (acc.1 ++ [t], t)) ([], 0)).1
/-- The parts of a balance: none where the total is zero. -/
def balanceParts (npart : Nat) (ws : List Nat) : Option (List Nat) :=
  let s := prefixes ws
  let w := s.getLastD 0
  if w % 2 ^ 63 = 0 then none
  else
    let start (k : Nat) : Nat :=
      let t := (round .f64 .rne (FVal.ofInt k)).1
      let tk := div64 (mul64 t w) (round .f64 .rne (FVal.ofInt npart)).1
      (s.findIdx? fun x => fLt (d64 tk) (d64 x)).getD ws.length
    some (0 :: (List.range (npart - 1)).map fun i => start (i + 1))

/-! Queries (R269, R273, R274). -/

def noCell : Nat := 0xFFFFFFFF
def noLocal : Nat := 0xFFFFFFF
/-- The local index of a cell in a part. -/
def MGen.localOf (g : MGen) (part : Option Nat) (c : Nat) : Nat :=
  match part with
  | none => noLocal
  | some p =>
    let lo := g.first.getD p 0
    let n := g.nown.getD p 0
    if lo ≤ c ∧ c < lo + n then c - lo
    else match (g.ghosts.getD p []).findIdx? (· == c) with
      | some i => n + i
      | none => noLocal
/-- The value of `nbld` (R273). A face without fine neighbours ignores SUB (DESIGN CHOICE, log 55). -/
def MGen.neighbour (g : MGen) (part : Option Nat) (c face sub : Nat) : Nat :=
  let none_ (fl : Nat) : Nat := fl + noLocal * 2 ^ 32 + noCell
  let at_ (fl n : Nat) : Nat := fl + g.localOf part n * 2 ^ 32 + n
  match (g.sides.getD c []).getD face .boundary with
  | .boundary => none_ (2 ^ 60)
  | .conf n => at_ 0 n
  | .fine n => at_ (2 ^ 61) n
  | .coarse l => match l[sub]? with
    | some n => at_ (2 ^ 62 + 2 ^ 61) n
    | none => none_ (2 ^ 62 + 2 ^ 61)
/-- The two values of `fcld` (R274). -/
def MGen.facePair (g : MGen) (part : Option Nat) (f : Option MFace) : Nat × Nat :=
  match f with
  | none => (2 ^ 64 - 1, 0)
  | some f =>
    let c1 := f.c1.getD noCell
    let l1 := match f.c1 with
      | some c => g.localOf part c
      | none => noLocal
    (f.c0 + c1 * 2 ^ 32, g.localOf part f.c0 + l1 * 2 ^ 28 + f.colour * 2 ^ 56 + (if f.c1.isNone then 2 ^ 60 else 0)
      + (if f.hanging then 2 ^ 61 else 0))

end Sys2Proof.Machine
end

