-- ==== Sys2Proof/Machine/Mesh.lean ====
section
/-! DEFINITION. The mesh engine (R267-R287): descriptors, bindings, queries, marks, jobs, fields and refreshes. -/
namespace Sys2Proof.Machine

/-! Descriptors (R267, R268). -/

/-- A descriptor: its virtual and physical address and its 32 words. -/
structure MDesc where
  va : Nat
  pa : Nat
  w : List Nat
  deriving DecidableEq, Repr
def MDesc.word (d : MDesc) (i : Nat) : Nat := d.w.getD i 0
def MDesc.dim (d : MDesc) : Nat := bitsAt (d.word 0) 0 2
def MDesc.npart (d : MDesc) : Nat := bitsAt (d.word 0) 48 16
def MDesc.nfield (d : MDesc) : Nat := bitsAt (d.word 0) 40 8
def MDesc.maxlvl (d : MDesc) : Nat := bitsAt (d.word 0) 32 4
def MDesc.built (d : MDesc) : Bool := (d.word 0).testBit 31
def MDesc.gen (d : MDesc) : Nat := d.word 1
def MDesc.busy (d : MDesc) : Bool := (d.word 2).testBit 63
def MDesc.err (d : MDesc) : Bool := (d.word 2).testBit 62
def MDesc.ecode (d : MDesc) : Nat := bitsAt (d.word 2) 48 8
def MDesc.parts (d : MDesc) : Nat := d.word 3
def MDesc.fields (d : MDesc) : Nat := d.word 4
def MDesc.capnode (d : MDesc) : Nat := bitsAt (d.word 5) 32 32
def MDesc.capcell (d : MDesc) : Nat := bitsAt (d.word 5) 0 32
/-- Word i of buffer block b (Table 2). -/
def MDesc.blk (d : MDesc) (b i : Nat) : Nat := d.word (12 + 10 * b + i)
def MDesc.box (d : MDesc) : Box := ⟨[d.word 6, d.word 7, d.word 8], [d.word 9, d.word 10, d.word 11]⟩
/-- A field reserved or out of range (reason 0x01). -/
def MDesc.bad (d : MDesc) : Bool :=
  let w0 := d.word 0
  let above (i : Nat) : Bool := fLt (d64 (d.word (6 + i))) (d64 (d.word (9 + i)))
  let bases := (List.range 7).flatMap fun i => [d.blk 0 (3 + i), d.blk 1 (3 + i)]
  bitsAt w0 36 4 != 0 || bitsAt w0 2 29 != 0 || d.npart == 0 || decide (d.npart > 4096) || decide (d.nfield > 64)
    || d.maxlvl == 0 || decide (d.dim < 2) || decide (d.capcell > 0xFFFFFFFE) || d.parts % 64 != 0 || d.fields % 64 != 0
    || bitsAt (d.word 2) 56 6 != 0 || bitsAt (d.word 2) 0 48 != 0 || bitsAt (d.blk 0 1) 36 28 != 0 || bitsAt (d.blk 1 1) 36 28 != 0
    || (d.nfield == 0 && d.fields != 0) || !above 0 || !above 1
    || (if d.dim = 3 then !above 2 else d.word 8 != 0 || d.word 11 != 0) || bases.any (· % 64 != 0)
/-- Where the 8-byte word i of a descriptor lies. -/
def descWord (pa i : Nat) : Nat := pa + 8 * i
def State.readDesc (s : State) (va pa : Nat) : MDesc := ⟨va, pa, (List.range 32).map fun i => s.readN (descWord pa i) 8⟩
/-- Where a descriptor lies: 256-aligned, in normal or deterministic-tagged HBM. -/
def State.descPa (s : State) (ag : Agent) (va : Nat) : Option Nat :=
  if va % 256 ≠ 0 then none
  else match s.hbmRange ag .load va 256 with
    | some [(pa, _)] => some pa
    | _ => none

def meshTrap (s : State) (eval eidx : Nat) : Res := .trap s cMESH (BitVec.ofNat 64 eval) eidx
/-- The first checks of R272: runs the rest with the descriptor. -/
def withMesh (f : Fields) (s : State) (k : MDesc → Res) : Res :=
  let va := (s.hart.xr f.a).toNat
  match s.descPa s.agent va with
  | none => meshTrap s 0x01 0
  | some pa =>
    if s.poisoned pa 256 then dataError s va
    else let d := s.readDesc va pa; if d.bad then meshTrap s 0x01 0 else k d
/-- Reason 0x05. -/
def withNoErr (s : State) (d : MDesc) (k : Res) : Res := if d.err then meshTrap s (0x05 + d.ecode * 2 ^ 8) 0 else k
/-- The hart's binding to a mesh (R270), or reason 0x02. -/
def State.bindOf (s : State) (d : MDesc) : Option Nat := (s.hart.binds.find? (·.1 == d.va)).map (·.2)
def withBind (s : State) (d : MDesc) (k : Nat → Res) : Res :=
  match s.bindOf d with
  | some g => k g
  | none => meshTrap s 0x02 0

/-- Runs the rest as an operation of the descriptor's home, in its turn (R270). -/
def withTurn (s : State) (d : MDesc) (k : State → Res) : Res :=
  let key : HomeKey := .mesh s.hart.ctx d.va
  if s.inTurn key s.hart then k (s.takeTurn key s.hart) else .wait s

/-! Meshes and the part table (R269). -/

def Mesh.fresh (ctx va pa : Nat) : Mesh := ⟨ctx, va, pa, none, none, [], false⟩
def State.mesh (s : State) (ctx va : Nat) : Mesh := (s.meshes.find? fun m => m.ctx == ctx && m.va == va).getD (Mesh.fresh ctx va 0)
def State.setMesh (s : State) (m : Mesh) : State :=
  { s with meshes := m :: s.meshes.filter fun x => !(x.ctx == m.ctx && x.va == m.va) }
/-- The generation that buffer g mod 2 holds. -/
def Mesh.buf (m : Mesh) (g : Nat) : Option MGen := if g % 2 = 0 then m.buf0 else m.buf1
def Mesh.setBuf (m : Mesh) (g : Nat) (x : MGen) : Mesh := if g % 2 = 0 then { m with buf0 := some x } else { m with buf1 := some x }
/-- Whether the private arrays of a generation still hold what the engine wrote (R268). -/
def State.intact (s : State) (g : MGen) : Bool := g.secret.all s.veils.contains

/-- The part-table entries as 64-byte images: none where the table cannot be read. -/
def State.partTable (s : State) (ag : Agent) (d : MDesc) : Option (List Nat) :=
  match s.hbmRange ag .load d.parts (64 * d.npart) with
  | none => none
  | some l =>
    let v := l.foldr (fun p acc => s.readN p.1 p.2 + 2 ^ (8 * p.2) * acc) 0
    some ((List.range d.npart).map fun p => bitsAt v (512 * p) 512)
def partVd (e : Nat) : Nat := bitsAt e 32 16
def partCap (e : Nat) : Nat := bitsAt e 0 32
def partFirst (e b : Nat) : Nat := bitsAt e (64 * (3 + b)) 32
def partOwn (e b : Nat) : Nat := bitsAt e (64 * (3 + b) + 32) 32
/-- The hart's part: the only one of its virtual die. -/
def partOf (tab : List Nat) (vd : Nat) : Option Nat :=
  match tab.zipIdx.filter fun e => partVd e.1 == vd with
  | [e] => some e.2
  | _ => none
/-- A reserved field of a part-table entry that is not zero (R5, Table 4). -/
def partBad (e : Nat) : Bool := bitsAt e 48 16 != 0 || bitsAt e 384 128 != 0
/-- The first part-table entry that holds an uncorrectable error. -/
def State.partLost (s : State) (ag : Agent) (d : MDesc) : Option Nat :=
  ((List.range d.npart).map fun p => d.parts + 64 * p).find? fun va => match s.hbmRange ag .load va 64 with
    | some l => l.any fun p => s.poisoned p.1 p.2
    | none => false
/-- Runs the rest with the part table, or reason 0x01, which a reserved field raises too (DEDUCED from R5 and R272, log 50). -/
def withParts (s : State) (d : MDesc) (k : List Nat → Res) : Res :=
  match s.partTable s.agent d with
  | none => meshTrap s 0x01 0
  | some t => match s.partLost s.agent d with
    | some va => dataError s va
    | none => if t.any partBad then meshTrap s 0x01 0 else k t
/-- The first of some items whose byte of a private array holds an uncorrectable error: its address and its element (R154). -/
def State.privateLost (s : State) (ag : Agent) (array base bytes : Nat) (items : List (Nat × Nat)) : Option Nat :=
  (items.map fun x => base + (Config.meshByte array x.2).toNat % Nat.max 1 bytes).find? fun va => match s.hbmRange ag .load va 1 with
    | some l => l.any fun p => s.poisoned p.1 p.2
    | none => false
/-- Runs the rest where none is lost. -/
def withPrivate (s : State) (d : MDesc) (g array : Nat) (items : List (Nat × Nat)) (k : Res) : Res :=
  let n := if array = 0 then d.capcell * 32 else d.capcell * (d.dim + 1) * 32
  match s.privateLost s.agent array (d.blk (g % 2) (4 + array)) n items with
  | some va => dataError s va
  | none => k

/-- A mesh instruction (R271): its stream's earlier accesses come first. A tile form is all-or-nothing (R272), so a trap of it
clears `VSTART` (R17). -/
def meshOp (f : Fields) (chk : Geom → Option Illegal) (also : List Reg) (tile : Bool) (body : State → Res) (s : State) :
    Host.Outcome State Fault Refusal :=
  issue f { illegal := fun s => chk s.hart.geom, also := also, writes := also, wholly := tile
            body := phased true fun s => body (s.inStream f.strm true) } s
def noShape (_ : Geom) : Option Illegal := none
/-- The shape of a form with a tile operand (R271). -/
def meshShape (g : Geom) : Option Illegal := memLimit (g.sew != 64 || !intFmts g.fmt || g.bl != 0)
/-- Gives a produced value to D (R23). -/
def produceX (f : Fields) (s : State) (w : Nat) : Res := .done (s.modHart fun h => h.produce f.d (.word (BitVec.ofNat 64 w)))

/-! Bindings (R270). -/

/-- Adds to `RCNT` of the buffer of a generation. -/
def State.addRcnt (s : State) (pa g : Nat) (up : Bool) : State :=
  let a := descWord pa (14 + 10 * (g % 2))
  let n := s.readN a 8
  s.writeN a (if up then (n + 1) % 2 ^ 64 else n - 1) 8
/-- `mbind` (R270). -/
def execMbind (f : Fields) (s : State) : Host.Outcome State Fault Refusal :=
  meshOp f noShape [] false (fun s => withMesh f s fun d =>
    if (s.bindOf d).isSome ∨ s.hart.binds.length ≥ 4 ∨ !d.built then meshTrap s 0x02 0
    else withTurn s d fun s =>
      let s := (s.addRcnt d.pa d.gen true).setMesh { s.mesh s.hart.ctx d.va with pa := d.pa }
      produceX f (s.modHart fun h => { h with binds := h.binds ++ [(d.va, d.gen)] }) d.gen) s
/-- `munbind` (R270). -/
def execMunbind (f : Fields) (s : State) : Host.Outcome State Fault Refusal :=
  meshOp f noShape [] false (fun s => withMesh f s fun d => withBind s d fun g => withTurn s d fun s =>
    .done ((s.addRcnt d.pa g false).modHart fun h => { h with binds := h.binds.filter (·.1 != d.va) })) s
/-- Whether a hart's bindings may be removed in this cycle (R270). -/
def State.mayUnbind (s : State) (n : Nat) : Bool :=
  (s.hartAt n).binds.all fun b => s.inTurn (.mesh (s.hartAt n).ctx b.1) (s.hartAt n)
/-- The `munbind` of every binding that a hart holds (R95, R270). -/
def State.unbindAll (s : State) (n : Nat) : State :=
  let h := s.hartAt n
  (h.binds.foldl (fun (s : State) b => (s.addRcnt (s.mesh h.ctx b.1).pa b.2 false).takeTurn (.mesh h.ctx b.1) h) s).modHartAt n fun h => { h with binds := [] }

/-! Queries (R273, R274). -/

/-- A value, or a free one of the instruction in its place. -/
def orFree (s : State) (ok : Bool) (i v : Nat) : Nat := if ok then v else (Config.ownValue s.hart.own i).toNat
/-- The cells that the active elements of B name, or the first element that names none (R272, 0x03). -/
def cellsOf (h : Hart) (f : Fields) (ncell : Nat) : Except Nat (List (Cell × Nat)) :=
  let t := (h.tr f.b).toNat
  (h.activeCells f h.geom).foldr (fun p acc =>
    let v := elemBits t 64 p.r p.c
    if v ≥ ncell then .error p.e
    else match acc with
      | .ok l => .ok ((p, v) :: l)
      | .error e => .error e) (.ok [])
/-- A tile image with 64-bit values at some positions. -/
def putElems (old : Nat) (l : List (Cell × Nat)) : Nat := l.foldl (fun t x => putBits t (tileOff 64 x.1) 64 x.2) old
/-- Gives the values of the active elements to a tile destination. -/
def State.giveElems (s : State) (d : Reg) (l : List (Cell × Nat)) : State :=
  match d, l with
  | .q n, l => s.giveTile (.q n) true fun old => putElems old l
  | _, [] => s
  | d, l => s.giveTile d true fun old => putElems old l
/-- `nbld` and `nbld.nd`: `val` gives the value of a cell in the bound generation and the hart's part. -/
def nbldOp (f : Fields) (needParts : Bool) (val : MGen → Option Nat → Nat → Nat) (s : State) : Host.Outcome State Fault Refusal :=
  meshOp f meshShape [] true (fun s => withMesh f s fun d =>
    if bitsAt f.imm.toNat 0 2 > d.dim then meshTrap s 0x01 0
    else
      let go (part : Option Nat) : Res := withBind s d fun g =>
        match (s.mesh s.hart.ctx d.va).buf g with
        | none => meshTrap s 0x02 0
        | some x => match cellsOf s.hart f x.cells.length with
          | .error e => meshTrap s 0x03 e
          | .ok l => withNoErr s d <| withPrivate s d g 0 (l.map fun c => (c.1.e, c.2))
            (.done (s.giveElems f.d (l.map fun c => (c.1, orFree s (s.intact x) c.1.e (val x part c.2)))))
      if needParts then withParts s d fun t => go (partOf t s.hart.vdid) else go none) s
/-- `nbld` (R273). -/
def execNbld (f : Fields) (s : State) : Host.Outcome State Fault Refusal :=
  nbldOp f true (fun g part c => g.neighbour part c (bitsAt f.imm.toNat 0 2) (bitsAt f.imm.toNat 2 2)) s
/-- `nbld.nd` (R273). -/
def execNbldNd (f : Fields) (s : State) : Host.Outcome State Fault Refusal :=
  nbldOp f false (fun g _ c => (((g.cells[c]?).map (·.nodes)).getD []).getD (bitsAt f.imm.toNat 0 2) 0) s
/-- The second register of a pair. -/
def pairReg : Reg → Reg
  | .v n => .v (n + 1)
  | r => r
/-- `fcld` and `fcld.c`, by the face they take for an index. -/
def fcldOp (f : Fields) (pick : MGen → Nat → Option MFace) (s : State) : Host.Outcome State Fault Refusal :=
  meshOp f meshShape [pairReg f.d] true (fun s => withMesh f s fun d => withParts s d fun t => withBind s d fun g =>
    match (s.mesh s.hart.ctx d.va).buf g with
    | none => meshTrap s 0x02 0
    | some x => withNoErr s d <| withPrivate s d g 1 ((s.hart.activeCells f s.hart.geom).map fun p => (p.e, (s.hart.xr f.b).toNat + p.e)) (
      let ok := s.intact x
      let l := (s.hart.activeCells f s.hart.geom).map fun p =>
        (p, x.facePair (partOf t s.hart.vdid) (pick x ((s.hart.xr f.b).toNat + p.e)))
      let s' := s.giveElems f.d (l.map fun y => (y.1, orFree s ok y.1.e y.2.1))
      .done (s'.giveElems (pairReg f.d) (l.map fun y => (y.1, orFree s ok (1024 + y.1.e) y.2.2))))) s
/-- `fcld` (R274). -/
def execFcld (f : Fields) (s : State) : Host.Outcome State Fault Refusal := fcldOp f (fun g n => g.faces[n]?) s
/-- `fcld.c` (R274). -/
def execFcldC (f : Fields) (s : State) : Host.Outcome State Fault Refusal :=
  fcldOp f (fun g n => (g.faces.filter (·.colour == bitsAt f.imm.toNat 0 4))[n]?) s

/-! Marks (R275). -/

/-- Raises the mark of a cell to a value. -/
def raiseMark (v : Nat) (l : List (Nat × Nat)) (c : Nat) : List (Nat × Nat) :=
  (c, Nat.max v (markOf l c)) :: l.filter (·.1 != c)
/-- `mmark`. -/
def mmarkOp (v : Nat) (f : Fields) (s : State) : Host.Outcome State Fault Refusal :=
  meshOp f meshShape [] true (fun s => withMesh f s fun d => withBind s d fun g =>
    let m := s.mesh s.hart.ctx d.va
    match m.buf g with
    | none => meshTrap s 0x02 0
    | some x => match cellsOf s.hart f x.cells.length with
      | .error e => meshTrap s 0x03 e
      | .ok l => withNoErr s d (
        if g ≠ d.gen ∨ m.snap then produceX f s 1
        else produceX f (s.setMesh { m with marks := l.foldl (fun acc c => raiseMark v acc c.2) m.marks }) 0)) s
/-- `mmark.r` (R275). -/
def execMmarkR (f : Fields) (s : State) : Host.Outcome State Fault Refusal := mmarkOp 2 f s
/-- `mmark.c` (R275). -/
def execMmarkC (f : Fields) (s : State) : Host.Outcome State Fault Refusal := mmarkOp 1 f s

/-! Jobs (R276-R280, R283). -/

/-- Sets word i of a descriptor. -/
def State.setDesc (s : State) (pa i v : Nat) : State := s.writeN (descWord pa i) v 8
/-- The private arrays of buffer b, and its plain ones (R268, Table 3): base and bytes. -/
def MDesc.privates (d : MDesc) (b : Nat) : List (Nat × Nat) :=
  [(d.blk b 4, d.capcell * 32), (d.blk b 5, d.capcell * (d.dim + 1) * 32), (d.blk b 6, d.capcell * 16)]
def MDesc.plains (d : MDesc) (b : Nat) : List (Nat × Nat) :=
  [(d.blk b 3, d.capnode * d.dim * 8), (d.blk b 7, d.capcell * 8), (d.blk b 8, d.capcell * 2), (d.blk b 9, d.capcell * (d.dim + 1))]
/-- The arrays of generation `GEN` from which a job builds the next one: nodes and keys as far as they are used, and the whole of the private
arrays (DESIGN CHOICE, log 30). The engine does not read them while that generation is bound (R268). -/
def MDesc.oldArrays (d : MDesc) : List (Nat × Nat) :=
  let b := d.gen % 2
  if d.blk b 2 ≠ 0 then []
  else (d.blk b 3, bitsAt (d.blk b 0) 32 32 * d.dim * 8) :: (d.blk b 7, bitsAt (d.blk b 0) 0 32 * 8) :: d.privates b
/-- What a job reads (R276, R277, R283): base and bytes. -/
def MDesc.sources (d : MDesc) (kind : JobKind) : List (Nat × Nat) :=
  match kind with
  | .rebuild => d.oldArrays
  | .init cin => [(d.blk 1 3, bitsAt (d.blk 1 0) 32 32 * d.dim * 8), (cin, bitsAt (d.blk 1 0) 0 32 * (d.dim + 1) * 4)]
  | .balance w => (w, bitsAt (d.blk (d.gen % 2) 0) 0 32 * 4) :: d.oldArrays
/-- The descriptor with its part and field tables (R266, R269, R281). -/
def MDesc.own (d : MDesc) : List (Nat × Nat) := [(d.va, 256), (d.parts, 64 * d.npart), (d.fields, 64 * d.nfield)]
/-- Marks every line of some arrays for a job (R295). -/
def State.markJob (s : State) (j : MeshJob) (write : Bool) (l : List (Nat × Nat)) : State :=
  l.foldl (fun (s : State) a => s.mark j.agent j.agent.place.die j.agent.place.cluster (.mesh j.id) write a.1 a.2) s
/-- The engine's own reads, with the codes of Table 6. -/
def State.meshRead (s : State) (ag : Agent) (va n : Nat) : Except Nat Nat :=
  match s.hbmRange ag .load va n with
  | none => .error 0x06
  | some l =>
    if l.any fun p => s.poisoned p.1 p.2 then .error 0x07
    else .ok (l.foldr (fun p acc => s.readN p.1 p.2 + 2 ^ (8 * p.2) * acc) 0)
/-- The word of a field-table entry. -/
def fieldAddr (d : MDesc) (n i : Nat) : Nat := d.fields + 64 * n + 8 * i
/-- The local arrays of the valid fields in a buffer, every part's whole room: what the remaps of a job read or write, as far as it is
known at its fork (R281, R295). -/
def State.fieldArrays (s : State) (ag : Agent) (d : MDesc) (gen : Nat) : List (Nat × Nat) :=
  (List.range d.nfield).filterMap fun n => match s.meshRead ag (fieldAddr d n 0) 64 with
    | .ok w => if w.testBit 63 then some (bitsAt w (64 * (1 + gen % 2)) 64, d.npart * bitsAt w 192 32) else none
    | .error _ => none
/-- Starts a job at the descriptor home: x[D] stays empty until it ends. -/
def State.startJob (s : State) (d : MDesc) (kind : JobKind) (f : Fields) : State :=
  let h := s.hart
  let s := s.drainAll s.cur
  let m := { s.mesh h.ctx d.va with pa := d.pa }
  let b := match kind with
    | .init _ => 0
    | _ => (d.gen + 1) % 2
  let snap := match kind with
    | .init _ => m.snap
    | _ => true
  let remaps : Bool := match kind with
    | .init _ => false
    | _ => true
  let j : MeshJob := ⟨s.nextOp, h.ctx, d.va, kind, f, s.agent, d.gen, m.marks, none, none, []⟩
  let s := (s.setDesc d.pa 2 (d.word 2 ||| 2 ^ 63)).setMesh { m with snap := snap }
  let s := { s with nextOp := s.nextOp + 1, meshJobs := s.meshJobs ++ [j] }
  let s := s.markJob j true (d.privates b ++ d.plains b ++ if remaps then s.fieldArrays j.agent d (d.gen + 1) else [])
  let s := s.markJob j false (d.sources kind ++ if remaps then s.fieldArrays j.agent d d.gen else [])
  s.modHart fun h => h.markEmpty f.d true
/-- `mrebuild` (R276). -/
def execMrebuild (f : Fields) (s : State) : Host.Outcome State Fault Refusal :=
  meshOp f noShape [] false (fun s => withMesh f s fun d => withNoErr s d (withTurn s d fun s =>
    if d.busy || !d.built then produceX f s 1 else .done (s.startJob d .rebuild f))) s
/-- `mrebuild.init` (R276). -/
def execMrebuildInit (f : Fields) (s : State) : Host.Outcome State Fault Refusal :=
  meshOp f noShape [] false (fun s => withMesh f s fun d => withNoErr s d (withTurn s d fun s =>
    if d.busy || d.gen != 0 || d.blk 0 2 != 0 || d.blk 1 2 != 0 then produceX f s 1
    else .done (s.startJob d (.init (s.hart.xr f.b).toNat) f))) s
/-- `mbal` (R283). -/
def execMbal (f : Fields) (s : State) : Host.Outcome State Fault Refusal :=
  meshOp f noShape [] false (fun s => withMesh f s fun d => withNoErr s d (withTurn s d fun s =>
    if d.busy || !d.built then produceX f s 1 else .done (s.startJob d (.balance (s.hart.xr f.b).toNat) f))) s

/-- The engine's own writes, with the codes of Table 6. -/
def meshCode (e : Nat) : Nat := if e = 0x0B then 0x07 else 0x06
def State.meshWrite (s : State) (ag : Agent) (va v n : Nat) : Except Nat State :=
  match s.hbmRange ag .store va n with
  | none => .error 0x06
  | some _ => match s.engWrite ag ag.place.die ag.place.cluster va v n with
    | .ok s' => .ok s'
    | .error e => .error (meshCode e)
/-- A list of writes (address, image, bytes). -/
def State.meshWrites (s : State) (ag : Agent) : List (Nat × Nat × Nat) → Except Nat State
  | [] => .ok s
  | (va, v, n) :: r => match s.meshWrite ag va v n with
    | .ok s' => s'.meshWrites ag r
    | .error e => .error e

/-- Writes bytes that the manual leaves free over virtual ranges (address, bytes), numbered from some offset on; the veils they lie
under. -/
def State.meshVeil (s : State) (ag : Agent) (stamp : List Nat) : List (Nat × Nat) → Except Nat (State × List Veil)
  | [] => .ok (s, [])
  | (va, n) :: r => match s.hbmRange ag .store va n with
    | none => .error 0x06
    | some l =>
      if l.any fun p => s.lost p.1 || s.partPoisoned p.1 p.2 then .error 0x07
      else match (s.writeFree stamp 0 l).meshVeil ag (stamp ++ [0]) r with
        | .ok (s', vs) => .ok (s', veilsOf stamp 0 l ++ vs)
        | .error e => .error e
/-- A range that a job reads whole, or its code. -/
def State.meshProbe (s : State) (ag : Agent) : List (Nat × Nat) → Option Nat
  | [] => none
  | (va, n) :: r => match s.hbmRange ag .load va n with
    | none => some 0x06
    | some l => if l.any fun p => s.poisoned p.1 p.2 then some 0x07 else s.meshProbe ag r

/-- The new generation of a job (R276, R277, R283), or its code. -/
def State.jobGen (s : State) (j : MeshJob) (d : MDesc) (old : Option MGen) : Except Nat (MGen × List (Origin Nat)) :=
  match j.kind, old with
  | .init cin, _ =>
    let nn := bitsAt (d.blk 1 0) 32 32
    let nc := bitsAt (d.blk 1 0) 0 32
    (match s.meshRead j.agent (d.blk 1 3) (nn * d.dim * 8), s.meshRead j.agent cin (nc * (d.dim + 1) * 4) with
      | .error e, _ => .error e
      | _, .error e => .error e
      | .ok c, .ok t =>
        let cells := (List.range nc).map fun i => (List.range (d.dim + 1)).map fun k => bitsAt t (32 * (i * (d.dim + 1) + k)) 32
        let coords := (List.range nn).map fun i => (List.range d.dim).map fun k => bitsAt c (64 * (i * d.dim + k)) 64
        if cells.any (badCell nn) then .error 0x05 else .ok (d.box.initial d.dim d.npart coords cells))
  | .rebuild, some g => (match s.meshProbe j.agent (d.sources j.kind) with
    | some e => .error e
    | none => .ok (g.next d.box j.marks d.maxlvl))
  | .balance w, some g =>
    match s.meshProbe j.agent d.oldArrays with
    | some e => .error e
    | none => (match s.meshRead j.agent w (g.cells.length * 4) with
      | .error e => .error e
      | .ok t =>
        match ((List.range g.cells.length).map fun i => weight64 (bitsAt t (32 * i) 32)).foldr
            (fun x acc => match x, acc with
              | some v, some l => some (v :: l)
              | _, _ => (none : Option (List Nat))) (some []) with
        | none => .error 0x04
        | some ws => match balanceParts d.npart ws with
          | none => .error 0x04
          | some first => .ok (g.withParts first, (List.range g.cells.length).map .same))
  | _, none => .error 0x06
/-- The checks of a generation against its room (Table 6, 0x01 to 0x03). -/
def jobRoom (d : MDesc) (tab fields : List Nat) (g : MGen) : Option Nat :=
  if g.cells.length > d.capcell ∨ g.nodes.length > d.capnode then some 0x01
  else if g.faces.any (·.colour ≥ 16) then some 0x02
  else
    let sizes := g.nown.zip (g.ghosts.map List.length)
    if (tab.zip g.ghosts).any fun x => decide (x.2.length > partCap x.1) then some 0x03
    else if fields.any (fun e => e.testBit 63 && sizes.any fun n => decide ((n.1 + n.2) * bitsAt e 0 16 > bitsAt e 192 32)) then some 0x03
    else none
/-- What a job writes outside the descriptor: the plain arrays, the ghost lists and the part-table words. -/
def jobWrites (d : MDesc) (tab : List Nat) (b : Nat) (g : MGen) : List (Nat × Nat × Nat) :=
  let n := g.cells.length
  let owner (c : Nat) : Nat :=
    ((((g.first.zip g.nown).zip tab).find? fun x => decide (x.1.1 ≤ c) && decide (c < x.1.1 + x.1.2)).map fun x => partVd x.2).getD 0
  let ncol := g.faces.foldl (fun m f => Nat.max m f.colour) 0
  let part (p : Nat) : List (Nat × Nat × Nat) :=
    let e := tab.getD p 0
    let gh := g.ghosts.getD p []
    let at_ := d.parts + 64 * p
    [(bitsAt e (64 * (1 + b)) 64, packBits 32 gh, 4 * gh.length),
     (at_ + 8 * (3 + b), g.first.getD p 0 + g.nown.getD p 0 * 2 ^ 32, 8),
     (at_ + 40, putBits (bitsAt e 320 64) (32 * b) 32 gh.length, 8)]
  [(d.blk b 3, packBits 64 g.nodes.flatten, g.nodes.length * d.dim * 8),
   (d.blk b 7, packBits 64 (g.cells.map (·.key)), 8 * n),
   (d.blk b 8, packBits 16 ((List.range n).map owner), 2 * n),
   (d.blk b 9, packBits 8 (g.faces.map (·.colour)), g.faces.length)]
    ++ (List.range g.first.length).flatMap part
    ++ [(d.va + 8 * (12 + 10 * b), n + g.nodes.length * 2 ^ 32, 8),
        (d.va + 8 * (13 + 10 * b), g.faces.length + ncol * 2 ^ 32, 8), (d.va + 8 * (14 + 10 * b), 0, 8)]
/-- A veil that no range lies under. -/
abbrev brokenVeil : Veil := ⟨1, 0, 0, []⟩
/-- A generation of which the manual fixes nothing: its sizes and its parts' sizes are free, and so is every answer about it (R268). -/
def freeGen (d : MDesc) (stamp : List Nat) : MGen :=
  let pick (i most : Nat) : Nat :=
    ((List.range 4).foldl (fun v k => v + 256 ^ k * (Config.freeByte stamp (4 * i + k)).toNat) 0) % (most + 1)
  let n := pick 1 d.capcell
  { dim := d.dim, nodes := List.replicate (pick 0 d.capnode) (List.replicate d.dim 0), cells := List.replicate n ⟨[], 0, 0, none, 0⟩
    fams := [], mids := [], sides := [], faces := List.replicate (pick 2 (d.capcell * (d.dim + 1))) ⟨0, 0, none, false, 0⟩
    first := 0 :: List.replicate (d.npart - 1) n, nown := n :: List.replicate (d.npart - 1) 0, ghosts := List.replicate d.npart []
    secret := [brokenVeil] }
/-- The generation of a job and what it leaves of its plain arrays, or its code. Where the private arrays of the generation it starts from
have been overwritten, its outcome and what it writes are free (R268). -/
def State.jobResult (s : State) (j : MeshJob) (d : MDesc) (fields tab : List Nat) : Except Nat (MGen × List (Origin Nat) × Bool) :=
  let old := (s.mesh j.ctx j.va).buf j.gen
  let broken : Bool := match j.kind with
    | .init _ => false
    | _ => old.any fun g => !s.intact g
  if broken then
    let stamp := meshStamp j.ctx j.va (j.gen + 1) 3
    let code := (Config.freeByte stamp 0).toNat % 8
    if code ≠ 0 then .error code
    else let g := freeGen d stamp; .ok (g, List.replicate g.cells.length (.same 0), true)
  else match s.jobGen j d old with
    | .error e => .error e
    | .ok (g, o) => match jobRoom d tab fields g with
      | some code => .error code
      | none => .ok (g, o, false)
/-- Runs a job (R277-R279): the generation it has built and written. What the private arrays hold is the hardware's own (R268). -/
def State.runJob (s : State) (j : MeshJob) (d : MDesc) : Except Nat (State × MGen × List (Origin Nat)) :=
  let b := match j.kind with
    | .init _ => 0
    | _ => (j.gen + 1) % 2
  let gen := match j.kind with
    | .init _ => 0
    | _ => j.gen + 1
  let words (ag : Agent) (va n : Nat) : Except Nat (List Nat) :=
    (s.meshRead ag va (64 * n)).map fun v => (List.range n).map fun i => bitsAt v (512 * i) 512
  match words j.agent d.parts d.npart, words j.agent d.fields d.nfield with
  | .error e, _ => .error e
  | _, .error e => .error e
  | .ok tab, .ok fields =>
    if tab.any partBad then .error Config.reservedCode.toNat
    else match s.jobResult j d fields tab with
    | .error e => .error e
    | .ok (g, o, free) => match s.meshVeil j.agent (meshStamp j.ctx j.va gen 0) (d.privates b) with
      | .error e => .error e
      | .ok (s, vs) =>
        let writes := jobWrites d tab b g
        match (if free then (s.meshVeil j.agent (meshStamp j.ctx j.va gen 1) (d.plains b)).map (·.1)
          else s.meshWrites j.agent (writes.take 4)) with
        | .error e => .error e
        | .ok s => match s.meshWrites j.agent.publish (writes.drop 4) with
          | .error e => .error e
          | .ok s => .ok (s, { g with secret := if free then [brokenVeil] else vs }, o)
def State.modJob (s : State) (id : Nat) (f : MeshJob → MeshJob) : State :=
  { s with meshJobs := s.meshJobs.map fun j => if j.id == id then f j else j }
/-- A place (part, local index) of an owned cell. -/
def MGen.place (g : MGen) (c : Nat) : Nat × Nat :=
  ((((g.first.zip g.nown).zipIdx).find? fun x => decide (x.1.1 ≤ c) && decide (c < x.1.1 + x.1.2)).map
    fun x => (x.2, c - x.1.1)).getD (0, 0)
def Origin.map {α β : Type} (f : α → β) : Origin α → Origin β
  | .same o => .same (f o)
  | .child o => .child (f o)
  | .coarse l => .coarse (l.map f)
/-- Where an entry of a field's array of a generation lies, from the words of its record (R281). -/
def arrayAt (w gen : Nat) (p : Nat × Nat) : Nat := bitsAt w (64 * (1 + gen % 2)) 64 + p.1 * bitsAt w 192 32 + p.2 * bitsAt w 0 16
def Origin.list {α : Type} : Origin α → List α
  | .same o => [o]
  | .child o => [o]
  | .coarse l => l
/-- Marks what a remap reads and writes (R295). -/
def State.markRemap (s : State) (r : Remap) : State :=
  if !r.agent.det then s
  else match s.meshRead r.agent (fieldAddr (s.readDesc r.va r.pa) r.field 0) 64 with
    | .error _ => s
    | .ok w => r.moves.foldl (fun (s : State) m =>
      let mk (s : State) (write : Bool) (gen : Nat) (p : Nat × Nat) : State :=
        s.mark r.agent r.agent.place.die r.agent.place.cluster (.mesh r.id) write (arrayAt w gen p) (bitsAt w 0 16)
      m.2.list.foldl (fun s p => mk s false r.gen p) (mk s true (r.gen + 1) m.1)) s
/-- Starts the remaps of the valid fields (R282). -/
def State.startRemaps (s : State) (j : MeshJob) (d : MDesc) (old new : MGen) : State :=
  (List.range d.nfield).foldl (fun (s : State) n => match s.meshRead j.agent (fieldAddr d n 0) 8 with
    | .error _ => s
    | .ok w =>
      if !w.testBit 63 then s
      else
        let moves := j.origins.zipIdx.map fun x => (new.place x.2, x.1.map old.place)
        let r : Remap := ⟨s.nextOp, j.ctx, j.va, d.pa, j.agent, j.gen, n, d.dim, moves, if s.intact old then old.secret else [brokenVeil]⟩
        let s := { s with nextOp := s.nextOp + 1, remaps := s.remaps ++ [r] }.markRemap r
        s.publish j.agent (fieldAddr d n 0) (putBits (putBits w 61 2 2) 48 8 0)) s
/-- Answers the instruction that started a job. Its hart is not saved before that (R356). -/
def State.answerJob (s : State) (j : MeshJob) (w : Nat) : State :=
  s.modHartAt j.agent.hart fun h => (h.put j.f.d (.word (BitVec.ofNat 64 w))).markEmpty j.f.d false
/-- A job ends (R280). -/
def State.endJob (s : State) (j : MeshJob) (code : Nat) : State :=
  let m := s.mesh j.ctx j.va
  let d := s.readDesc j.va m.pa
  let s := ({ s with meshJobs := s.meshJobs.filter (·.id != j.id) }.unmark (.mesh j.id)).setTurn (.mesh j.ctx j.va) none
  match j.next with
  | none => ((s.setDesc d.pa 2 (2 ^ 62 + code * 2 ^ 48)).setMesh { m with snap := false }).answerJob j (2 + code * 256)
  | some g =>
    let init : Bool := match j.kind with
      | .init _ => true
      | _ => false
    let gen := if init then 0 else (j.gen + 1) % 2 ^ 64
    let s := if init then s.setDesc d.pa 0 (d.word 0 ||| 2 ^ 31) else s
    let s := (s.setDesc d.pa 1 gen).setDesc d.pa 2 (d.word 2 % 2 ^ 63)
    let s := (s.setMesh { m.setBuf gen g with marks := [], snap := false }).answerJob j 0
    match m.buf j.gen with
    | some old => if init then s else s.startRemaps j d old g
    | none => s
/-- `MESH_JOB`: a job runs once the buffer it writes is unbound (R276 step 3); `mrebuild.init` publishes in the same step, so that no hart
binds what it rewrites (R270). -/
def execMeshJob (n : Nat) (s : State) : Host.Outcome State Fault Refusal :=
  match s.meshJobs.find? (·.id == n) with
  | none => .next s
  | some j =>
    let d := s.readDesc j.va (s.mesh j.ctx j.va).pa
    let init : Bool := match j.kind with
      | .init _ => true
      | _ => false
    let b := if init then 0 else (j.gen + 1) % 2
    if j.code.isSome ∨ d.blk b 2 ≠ 0 ∨ s.agentHeld j.agent (d.own ++ d.sources j.kind ++ d.privates b ++ d.plains b) then .next s
    else
      let r : State × MeshJob := match s.runJob j d with
        | .error e => (s, { j with code := some e })
        | .ok (s, g, o) => (s, { j with code := some 0, next := some g, origins := o })
      .next (if init then r.1.endJob r.2 (r.2.code.getD 0) else r.1.modJob n fun _ => r.2)
/-- `GENERATION_PUBLISH` (R280). -/
def execGenerationPublish (n : Nat) (s : State) : Host.Outcome State Fault Refusal :=
  match s.meshJobs.find? (·.id == n) with
  | none => .next s
  | some j => match j.code with
    | some code => .next (if s.agentHeld j.agent (s.readDesc j.va (s.mesh j.ctx j.va).pa).own then s else s.endJob j code)
    | none => .next s

/-! Fields and remaps (R281, R282). -/

/-- A reserved field or value of a remap record, which is then not used (R5, Table 7). -/
def badRecord (w : Nat) : Bool :=
  bitsAt w 59 2 != 0 || decide (bitsAt w 56 3 > 3) || bitsAt w 16 32 != 0 || bitsAt w 224 32 != 0 || bitsAt w 384 128 != 0
/-- The field-table entry n to be read or written, or reason 0x04, which a reserved field of an entry that is read raises too (DEDUCED
from R5 and R272, log 50). -/
def withField (s : State) (d : MDesc) (n : Nat) (write : Bool) (k : Nat → Res) : Res :=
  if n ≥ d.nfield then meshTrap s 0x04 0
  else match s.hbmRange s.agent.publish (if write then .store else .load) (fieldAddr d n 0) 64 with
    | some [(pa, _)] =>
      if s.poisoned pa 64 then dataError s (fieldAddr d n 0)
      else if !write && badRecord (s.readN pa 64) then meshTrap s 0x04 0
      else k pa
    | _ => meshTrap s 0x04 0
/-- A template that R281 refuses. -/
def badTemplate (v : Nat) : Bool :=
  let w0 := bitsAt v 0 64
  let e := bitsAt w0 0 16
  bitsAt w0 59 4 != 0 || decide (bitsAt w0 56 3 > 3) || bitsAt w0 16 40 != 0 || e == 0 || e % 8 != 0 || decide (e > 4096)
    || bitsAt v 64 64 % 64 != 0 || bitsAt v 128 64 % 64 != 0 || bitsAt v 192 64 % 64 != 0 || bitsAt v 224 32 != 0
def State.dropRemaps (s : State) (d : MDesc) (n : Nat) : State :=
  let mine (r : Remap) : Bool := r.ctx == s.hart.ctx && r.va == d.va && r.field == n
  { (s.remaps.filter mine).foldl (fun (s : State) r => s.unmark (.mesh r.id)) s with remaps := s.remaps.filter fun r => !mine r }
/-- `mfield` (R281). -/
def execMfield (f : Fields) (s : State) : Host.Outcome State Fault Refusal :=
  meshOp f noShape [] false (fun s => withMesh f s fun d => withField s d (bitsAt f.imm.toNat 0 6) true fun pa =>
    match s.readChk (s.hart.xr f.b).toNat 32 with
    | .error e => e
    | .ok (l, v) =>
      if badTemplate v then meshTrap s 0x04 0
      else withNoErr s d (
        let s := s.noteAll .read l
        if d.busy then produceX f s 1
        else
          let img := putBits v 63 1 1 + d.gen * 2 ^ 256 + d.gen * 2 ^ 320
          produceX f ((s.writeN pa img 48).dropRemaps d (bitsAt f.imm.toNat 0 6)) 0)) s
/-- `mfield.rm` (R281). -/
def execMfieldRm (f : Fields) (s : State) : Host.Outcome State Fault Refusal :=
  meshOp f noShape [] false (fun s => withMesh f s fun d => withField s d (bitsAt f.imm.toNat 0 6) true fun pa => withNoErr s d (
    if d.busy then produceX f s 1
    else produceX f ((s.writeN pa (putBits (s.readN pa 8) 63 1 0) 8).dropRemaps d (bitsAt f.imm.toNat 0 6)) 0)) s

/-- AVERAGE (R282) over the images of the children, each of `n` bytes. -/
def average (dim n : Nat) (kids : List Nat) : Nat :=
  packBits 64 ((List.range (n / 8)).map fun k =>
    mul64 (kids.foldl (fun acc v => add64 acc (bitsAt v (64 * k) 64)) 0) (mean64 dim))
/-- The new value of a cell under a rule (R282). -/
def remapValue (dim rule n : Nat) : Origin Nat → Nat
  | .same v => v
  | .child v => if rule = 3 then 0 else v
  | .coarse kids => if rule = 0 then kids.headD 0 else if rule = 2 then average dim n kids else 0
/-- Reads the sources of a move. -/
def readOrigin (rd : Nat × Nat → Except Nat Nat) : Origin (Nat × Nat) → Except Nat (Origin Nat)
  | .same o => (rd o).map .same
  | .child o => (rd o).map .child
  | .coarse l => (l.foldr (fun o (acc : Except Nat (List Nat)) => match rd o, acc with
      | .ok v, .ok r => .ok (v :: r)
      | .error e, _ => .error e
      | _, .error e => .error e) (.ok [])).map .coarse
/-- The writes of a remap: none of them is performed before every source is read. -/
def State.remapWrites (s : State) (r : Remap) (w : Nat) : Except Nat (List (Nat × Nat × Nat)) :=
  let rule := bitsAt w 56 3
  let n := bitsAt w 0 16
  let arr (g : Nat) (p : Nat × Nat) : Nat := arrayAt w g p
  r.moves.foldr (fun m acc => match readOrigin (fun p => s.meshRead r.agent (arr r.gen p) n) m.2, acc with
    | .ok o, .ok l => .ok ((arr (r.gen + 1) m.1, remapValue r.dim rule n o, n) :: l)
    | .error e, _ => .error e
    | _, .error e => .error e) (.ok [])
/-- Whether the private arrays of the generation that a remap reads have been overwritten while it stood in its buffer (R268). -/
def State.remapBroken (s : State) (r : Remap) : Bool :=
  r.secret.contains brokenVeil ||
    (((s.mesh r.ctx r.va).buf r.gen).any (·.secret == r.secret) && !r.secret.all s.veils.contains)
/-- A remap ends (R282). -/
def State.endRemap (s : State) (r : Remap) : State :=
  let d := s.readDesc r.va r.pa
  let e := fieldAddr d r.field 0
  let broken := s.remapBroken r
  let s := { s with remaps := s.remaps.filter (·.id != r.id) }.unmark (.mesh r.id)
  let report (s : State) : State := s.setDesc r.pa 2 (putBits (s.readN (descWord r.pa 2) 8) 62 1 1)
  let fail (s : State) (w code : Nat) : State := report (s.publish r.agent e (putBits (putBits w 61 2 1) 48 8 code))
  match s.meshRead r.agent e 64 with
  | .error _ => report s
  | .ok w => match (if badRecord w then .error Config.reservedCode.toNat else s.remapWrites r w) with
    | .error code => fail s (bitsAt w 0 64) code
    | .ok l => match (if broken then
          (s.meshVeil r.agent (remapStamp r.ctx r.va r.field (r.gen + 1)) (l.map fun x => (x.1, x.2.2))).map (·.1)
        else s.meshWrites r.agent l) with
      | .error code => fail s (bitsAt w 0 64) code
      | .ok s =>
        let s := (s.publish r.agent e (putBits (bitsAt w 0 64) 62 1 0)).publish r.agent (e + 32) r.gen
        s.publish r.agent (e + 40) ((r.gen + 1) % 2 ^ 64)
/-- Whether an access of a remap waits for a test (R395): of the descriptor, the entry, or an array of the field. -/
def State.remapHeld (s : State) (r : Remap) : Bool :=
  let d := s.readDesc r.va r.pa
  !s.underTest.isEmpty && (s.agentHeld r.agent d.own || s.agentHeld r.agent (s.fieldArrays r.agent d r.gen ++ s.fieldArrays r.agent d (r.gen + 1)))
/-- `FIELD_REMAP`: the remaps of one field run in the order of their generations (R282). -/
def execFieldRemap (n : Nat) (s : State) : Host.Outcome State Fault Refusal :=
  match s.remaps.find? (·.id == n) with
  | none => .next s
  | some r =>
    if s.remaps.any fun x => decide (x.id < n) && x.ctx == r.ctx && x.va == r.va && x.field == r.field then .next s
    else .next (if s.remapHeld r then s else s.endRemap r)

/-! Ghosts (R284). -/

/-- The fields that x[B] names: reason 0x04 for a bad one. -/
def namedFields (b : Nat) : List Nat := (List.range 64).filter b.testBit
/-- The sectors of one part's ghosts of one field. -/
def ghostSectors (g : MGen) (p n : Nat) : Nat := ((g.ghosts.getD p []).length * n + 63) / 64
/-- The copies of one part's ghosts of one field: destination, source, bytes. -/
def ghostMoves (g : MGen) (w gen p : Nat) : List (Nat × Nat × Nat) :=
  let n := bitsAt w 0 16
  let arr (q i : Nat) : Nat := arrayAt w gen (q, i)
  (g.ghosts.getD p []).zipIdx.map fun x =>
    let o := g.place x.1
    (arr p (g.nown.getD p 0 + x.2), arr o.1 o.2, n)
/-- Marks what a refresh reads and writes of one field (R295). -/
def State.markGhosts (s : State) (r : Refresh) (g : MGen) (w : Nat) : State :=
  if !r.agent.det then s
  else ((List.range g.first.length).flatMap (ghostMoves g w r.gen)).foldl (fun (s : State) m =>
    let mk (s : State) (write : Bool) (va : Nat) : State :=
      s.mark r.agent r.agent.place.die r.agent.place.cluster (.mesh r.id) write va m.2.2
    mk (mk s true m.1) false m.2.1) s
/-- The record of a valid entry n of the field table, or what `mghost` raises of it (R272; DEDUCED for a reserved field, log 50). -/
def State.entryOf (s : State) (d : MDesc) (n : Nat) : Except Res Nat :=
  if n ≥ d.nfield then .error (meshTrap s 0x04 0)
  else match s.meshRead s.agent (fieldAddr d n 0) 64 with
    | .error 0x07 => .error (dataError s (fieldAddr d n 0))
    | .error _ => .error (meshTrap s 0x04 0)
    | .ok w => if !w.testBit 63 || badRecord w then .error (meshTrap s 0x04 0) else .ok w
/-- The records of some entries, each with its number, or what the first that has none raises. -/
def State.entriesOf (s : State) (d : MDesc) : List Nat → Except Res (List (Nat × Nat))
  | [] => .ok []
  | n :: r => match s.entryOf d n with
    | .error e => .error e
    | .ok w => (s.entriesOf d r).map ((n, w) :: ·)
/-- `mghost` (R284). -/
def execMghost (f : Fields) (s : State) : Host.Outcome State Fault Refusal :=
  meshOp f noShape [] false (fun s => withMesh f s fun d => withParts s d fun _ => withBind s d fun g =>
    match (s.mesh s.hart.ctx d.va).buf g with
    | none => meshTrap s 0x02 0
    | some x => match s.entriesOf d (namedFields (s.hart.xr f.b).toNat) with
      | .error e => e
      | .ok entries => withNoErr s d (
        if f.c ≠ .x 0 ∧ (s.hartBar (s.hart.xr f.c).toNat).isNone then .trap s cACCESS (s.hart.xr f.c) 0
        else
          let parts := List.range x.first.length
          let todo := entries.flatMap fun e => parts.map fun p => (e.1, p)
          let total := (entries.flatMap fun e => parts.map fun p => ghostSectors x p (bitsAt e.2 0 16)).foldl (· + ·) 0
          let s := s.drainAll s.cur
          let r : Refresh := ⟨s.nextOp, s.hart.ctx, d.va, d.pa, s.agent, g, todo, if f.c = .x 0 then 0 else (s.hart.xr f.c).toNat⟩
          let s := { s with nextOp := s.nextOp + 1, refreshes := s.refreshes ++ [r] }
          produceX f (entries.foldl (fun (s : State) e => s.markGhosts r x e.2) s) total)) s
/-- Performs copies until one fails: the bytes written, and the failure. A stamp stands for values that the manual leaves free (R268). -/
def State.ghostCopy (s : State) (ag : Agent) (stamp : Option (List Nat)) : List (Nat × Nat × Nat) → State × Nat × Option Nat
  | [] => (s, 0, none)
  | (dst, src, n) :: r => match s.meshRead ag src n with
    | .error e => (s, 0, some e)
    | .ok v => match (match stamp with
        | some k => (s.meshVeil ag (k ++ [r.length]) [(dst, n)]).map (·.1)
        | none => s.meshWrite ag dst v n : Except Nat State) with
      | .error e => (s, 0, some e)
      | .ok s' => let x := s'.ghostCopy ag stamp r; (x.1, n + x.2.1, x.2.2)
/-- Ends a refresh (R295). -/
def State.dropRefresh (s : State) (r : Refresh) : State :=
  { s with refreshes := s.refreshes.filter (·.id != r.id) }.unmark (.mesh r.id)
/-- A refresh fails. -/
def State.failRefresh (s : State) (r : Refresh) (code : Nat) : State :=
  let s := (s.dropRefresh r).setDesc r.pa 2 (putBits (putBits (s.readN (descWord r.pa 2) 8) 62 1 1) 48 8 code)
  (s.failAt r.agent r.bar (0x60 + code)).deliverEngine r.agent r.va
/-- Credits the barrier of a refresh with the sectors written. -/
def State.refreshCredit (s : State) (r : Refresh) (n : Nat) : State := s.creditAt r.agent r.bar n
/-- The next part of a refresh: one sector is credited for each 64 bytes written. Its last credit comes after the marks have gone: parts
without ghosts have none. -/
def State.refreshOne (s : State) (r : Refresh) : State :=
  match r.todo, (s.mesh r.ctx r.va).buf r.gen with
  | (n, p) :: rest, some g =>
    let d := s.readDesc r.va r.pa
    let stamp := if s.intact g then none else some (ghostStamp r.ctx r.va n r.gen p)
    (match s.meshRead r.agent (fieldAddr d n 0) 64 with
      | .error e => s.failRefresh r e
      | .ok w =>
        if badRecord w then s.failRefresh r Config.reservedCode.toNat
        else match s.ghostCopy r.agent stamp (ghostMoves g w r.gen p) with
        | (s, n, some e) => (s.refreshCredit r (n / 64)).failRefresh r e
        | (s, _, none) =>
          let s := if rest.all fun x => (g.ghosts.getD x.2 []).isEmpty then s.dropRefresh r
            else { s with refreshes := s.refreshes.map fun x => if x.id == r.id then { x with todo := rest } else x }
          s.refreshCredit r (ghostSectors g p (bitsAt w 0 16)))
  | _, _ => s.dropRefresh r
/-- `GHOST_REFRESH`: a refresh writes the next part's entries and credits its barrier (R284). -/
def execGhostRefresh (n : Nat) (s : State) : Host.Outcome State Fault Refusal :=
  match s.refreshes.find? (·.id == n) with
  | none => .next s
  | some r =>
    let d := s.readDesc r.va r.pa
    .next (if !s.underTest.isEmpty && (s.agentHeld r.agent d.own || s.agentHeld r.agent (s.fieldArrays r.agent d r.gen)) then s else s.refreshOne r)

/-! Keys and quantities (R285, R286). -/

/-- `vsfc`. -/
def vsfcOp (dim : Nat) (regs : Fields → List Reg) (f : Fields) (s : State) : Host.Outcome State Fault Refusal :=
  issue f { illegal := fun s => meshShape s.hart.geom
            body := phased true fun s =>
              let h := s.hart
              let ts := (regs f).map fun r => (h.tr r).toNat
              .done (s.giveElems f.d ((h.activeCells f h.geom).map fun p =>
                (p, interleave dim (ts.map fun t => elemBits t 64 p.r p.c)))) } s
/-- `vsfc.2d` (R285). -/
def execVsfc2d (f : Fields) (s : State) : Host.Outcome State Fault Refusal := vsfcOp 2 (fun f => [f.a, f.b]) f s
/-- `vsfc.3d` (R285). -/
def execVsfc3d (f : Fields) (s : State) : Host.Outcome State Fault Refusal := vsfcOp 3 (fun f => [f.a, f.b, f.c]) f s

/-- The quantity that sel selects, of the bound generation or of `GEN` (R286). -/
def State.mqValue (s : State) (d : MDesc) (part : Option Nat) (tab : List Nat) (sel : Nat) : Nat :=
  let g := (s.bindOf d).getD d.gen
  let b := g % 2
  match sel with
  | 0 => d.gen
  | 1 => bitsAt (d.blk b 0) 0 32
  | 2 => bitsAt (d.blk b 1) 0 32
  | 3 => bitsAt (d.blk b 0) 32 32
  | 4 => d.word 2
  | 5 => (s.bindOf d).getD (2 ^ 64 - 1)
  | 6 => match part with
    | some p => partFirst (tab.getD p 0) b + partOwn (tab.getD p 0) b * 2 ^ 32
    | none => 2 ^ 64 - 1
  | _ => match (s.mesh s.hart.ctx d.va).buf g with
    | some x => orFree s (s.intact x) 0 (x.faces.filter (·.colour == sel - 0x10)).length
    | none => 0
/-- `mq` (R286). -/
def execMq (f : Fields) (s : State) : Host.Outcome State Fault Refusal :=
  meshOp f noShape [] false (fun s => withMesh f s fun d =>
    let sel := bitsAt f.imm.toNat 0 8
    if sel = 6 then withParts s d fun t => produceX f s (s.mqValue d (partOf t s.hart.vdid) t sel)
    else produceX f s (s.mqValue d none [] sel)) s
/-- `mq.field` (R286). -/
def execMqField (f : Fields) (s : State) : Host.Outcome State Fault Refusal :=
  meshOp f noShape [] false (fun s => withMesh f s fun d => withBind s d fun g =>
    withField s d (bitsAt f.imm.toNat 0 6) false fun pa =>
      if !(s.readN pa 8).testBit 63 then meshTrap s 0x04 0
      else withNoErr s d (
        if s.readN (pa + 40) 8 < g then waitOn s none
        else produceX f s (s.readN (pa + 8 * (1 + g % 2)) 8))) s

end Sys2Proof.Machine
end

