-- ==== Sys2Proof/Machine/Save.lean ====
section
/-! DEFINITION. Pre-emption (R355-R367): stopping a hart, its image in the save area, the context part, and their restoration. -/
namespace Sys2Proof.Machine

/-! The scheduler's accesses (R313, R316, R318). -/

/-- The scheduler as an agent of a context: its records and counters translate at S. -/
def schedAgent (ctx gang : Nat) : Agent := ⟨0, ctx, gang, ⟨0, 0, 0, 0⟩, .s, false⟩
/-- Reads `n` bytes of normal or deterministic-tagged HBM of a context; none where they cannot be read. -/
def State.schedRead (s : State) (ctx va n : Nat) : Option Nat :=
  match s.hbmRange (schedAgent ctx 0) .load va n with
  | some l =>
    if l.any fun p => s.poisoned p.1 p.2 then none
    else some (l.foldr (fun (p : Nat × Nat) acc => s.readN p.1 p.2 + 2 ^ (8 * p.2) * acc) 0)
  | none => none
/-- Writes them. -/
def State.schedWrite (s : State) (ctx va v n : Nat) : Option State :=
  match s.hbmRange (schedAgent ctx 0) .store va n with
  | some l => if l.any fun p => s.lost p.1 || s.partPoisoned p.1 p.2 then none else some (s.writeRanges v l)
  | none => none

/-- Increments a counter of a context, where it can be written. -/
def State.bumpAt (s : State) (ctx ctr : Nat) : Option State :=
  if ctr % 8 = 0 then s.bumpCtr (schedAgent ctx 0) ctr else none
/-! Slots (R314, R324). -/

/-- Whether a hart holds its slot. -/
def Hart.onSlot (h : Hart) : Bool :=
  h.status == .held || h.bound || h.status == .halted
/-- Whether a slot exists on a present die of the package. -/
def State.slotExists (s : State) (p : Place) : Bool :=
  decide (p.die < 16) && decide (p.cluster < 4) && decide (p.core < 48) && decide (p.slot < 8)
    && !s.harvested.contains (s.pkg, p.die)
/-- Whether a slot is free. -/
def State.slotFree (s : State) (p : Place) : Bool := s.slotExists p && !s.harts.any fun h => h.onSlot && h.place == p
/-- The slots of a die, and of a cluster. -/
abbrev slotsOfDie : Nat := 1536
abbrev slotsOfCluster : Nat := 384
/-- Whether a die of the package has a free slot, and a cluster of it. -/
def State.dieFree (s : State) (d : Nat) : Bool :=
  !s.harvested.contains (s.pkg, d) && decide ((s.harts.filter fun h => h.onSlot && h.place.die == d).length < slotsOfDie)
def State.clusterFree (s : State) (d c : Nat) : Bool :=
  !s.harvested.contains (s.pkg, d)
    && decide ((s.harts.filter fun h => h.onSlot && h.place.die == d && h.place.cluster == c).length < slotsOfCluster)
/-- The die of this package that a virtual die of a context names. -/
def State.localDie (s : State) (c : Ctx) (v : Nat) : Option Nat :=
  match s.vdEntry c.vdtbase.toNat v with
  | some (p, d) => if p = s.pkg then some d else none
  | none => none

/-! The save area (R358). -/

/-- Writes pieces (offset, value, bytes) from a base. -/
def State.writePieces (s : State) (base : Nat) (l : List (Nat × Nat × Nat)) : State :=
  l.foldl (fun (s : State) p => s.writeN (base + p.1) p.2.1 p.2.2) s
/-- A list of 8-byte words as pieces from an offset. -/
def wordPieces (off : Nat) (l : List Nat) : List (Nat × Nat × Nat) := (l.zipIdx).map fun x => (off + 8 * x.2, x.1, 8)
/-- Whether a save may be written for the current hart. -/
def State.canSave (s : State) : Bool := s.mayWrite s.hart.ctx
/-- Takes `n` bytes of an area through `FILL` (R364): the offset, or none where there is no room. -/
def State.take (s : State) (area n : Nat) : Option (Nat × State) :=
  let o := s.saveWord area 1
  if o + n > s.saveWord area 2 then none else some (o, s.writeN (area + 8) (o + n) 8)

/-! Hart images (R359-R361). -/

/-- The place of a hart as images and sections name it: bits [63:40] of word 0x0018. -/
def placeKey (vdid cluster core : Nat) : Nat := vdid * 256 + cluster * 64 + core
/-- The system-register block (R360). -/
def Hart.sysBlock (h : Hart) : List Nat :=
  let r := h.sr
  let b (i : Nat) : List Nat := match h.binds[i]? with
    | some x => [x.1, x.2]
    | none => [0, 0]
  ([r.vtype, r.vl, r.vr, r.vstart, r.rowlen, r.frm, r.fflags, r.acfg, r.mstat, r.ctab0, r.ctab1, r.ctab2, r.ctab3,
    r.lc0, r.lc1, r.lb0, r.lb1, r.le0, r.le1, r.task, r.tile0, r.tile1, r.tile2, r.tn, r.wshare, r.ttmo, r.detctl,
    r.cycle, r.instret, { h with preempt := none }.sstat, r.stvec, r.cause, r.epc, r.eval, r.eidx, r.sscratch,
    r.tleft].map BitVec.toNat) ++
  [h.tileIndex % 2 ^ 16 + (if h.taskDone then 2 ^ 16 else 0), h.stepKind, h.binds.length] ++ b 0 ++ b 1 ++ b 2 ++ b 3
    ++ List.replicate 16 0
/-- The pieces of entry j of queue i (R361). -/
def queuePieces (i j : Nat) (e : Option QEntry) : List (Nat × Nat × Nat) :=
  let o := 0xA840 + (4 * i + j) * 0x440
  match e with
  | none => wordPieces o [0, 0, 0, 0, 0, 0, 0, 0]
  | some e =>
    wordPieces o [e.seq, 1 + (if e.filled then 2 else 0) + (e.stopped.getD 0) * 8 + e.shape.vtype.toNat * 2 ^ 52,
      e.shape.vl.toNat + e.shape.vr.toNat * 2 ^ 16, e.shape.rowlen.toNat, 0, 0, 0, 0] ++ [(o + 64, e.tile.toNat, 1024)]
/-- The pieces of a pending-operation record (R361). -/
def recordPieces (o : Nat) (r : TupleReq) : List (Nat × Nat × Nat) :=
  let w := packWord (if r.take then 0xA2 else 0xA1) true r.f
  let left := match r.phase with
    | .withdrawn n => n
    | _ => 0
  wordPieces o [if r.take then 2 else 1, (w.extractLsb' 0 64).toNat, (w.extractLsb' 64 32).toNat, r.tsid, left, 0, 0, 0]
    ++ [(o + 64, r.image, 64)]
/-- The dirty `v` registers. -/
def Hart.dirtyRegs (h : Hart) : List (Fin 32) := (List.finRange 32).filter fun i => h.sr.dirty.getLsbD i.val
/-- `IMGSIZE` (R359). -/
def Hart.imageSize (h : Hart) (npend : Nat) : Nat := 0xEC40 + 0x400 * h.dirtyRegs.length + 0x80 * npend
/-- The pieces of a hart image but for word 0 (R359). -/
def Hart.imagePieces (h : Hart) (withCtx : Bool) (reqs : List TupleReq) : List (Nat × Nat × Nat) :=
  let pend := bitsAt ({ h with preempt := none }.sstat).toNat 20 4
  let w18 := placeKey h.vdid h.place.cluster h.place.core * 2 ^ 40 + h.place.slot * 2 ^ 37 + (if withCtx then 2 ^ 36 else 0)
    + pend * 2 ^ 32 + h.sr.dirty.toNat % 2 ^ 32
  let arr := match h.arrival with
    | some p => 2 ^ 63 + p
    | none => 0
  let after := 0xEC40 + 0x400 * h.dirtyRegs.length
  wordPieces 8 [h.gang * 2 ^ 32 + h.hartid, h.pc.toNat, w18, h.empty.p.toNat * 2 ^ 32 + h.empty.v.toNat, h.empty.x.toNat,
    arr, h.seq]
    ++ wordPieces 0x40 (h.packP :: ((List.finRange 64).drop 1).map fun i => (h.getX i).toNat)
    ++ wordPieces 0x240 h.sysBlock
    ++ (List.finRange 16).map (fun i => (0x440 + 512 * i.val, (h.k[i]).toNat, 512))
    ++ (List.finRange 8).map (fun i => (0x2440 + 128 * i.val, (h.s[i]).toNat, 128))
    ++ (List.finRange 2).map (fun i => (0x2840 + 16384 * i.val, (h.ma[i]).toNat, 16384))
    ++ (List.finRange 4).flatMap (fun i => (List.range 4).flatMap fun j => queuePieces i.val j (h.q[i])[j]?)
    ++ (h.dirtyRegs.zipIdx).map (fun x => (0xEC40 + 0x400 * x.2, (h.v[x.1]).toNat, 1024))
    ++ (reqs.zipIdx).flatMap (fun x => recordPieces (after + 0x80 * x.2) x.1)

/-- The offsets of the images of an area; the fuel is `NIMG`. -/
def State.imagesFrom (s : State) (area o : Nat) : Nat → List Nat
  | 0 => []
  | n + 1 =>
    let size := bitsAt (s.readN (area + o) 8) 32 32
    if size = 0 then [o] else o :: s.imagesFrom area (o + size) n
def State.images (s : State) (area : Nat) : List Nat := s.imagesFrom area 0x100 (Nat.min (s.saveWord area 3) 0x1000000)
/-- `ISTATE` and `WITHCTX` of an image, the place it names, and its hart. -/
def State.imgState (s : State) (area o : Nat) : Nat := bitsAt (s.readN (area + o) 8) 8 8
def State.imgWith (s : State) (area o : Nat) : Bool := (s.readN (area + o + 0x18) 8).testBit 36
def State.imgKey (s : State) (area o : Nat) : Nat := s.readN (area + o + 0x18) 8 / 2 ^ 40
/-- The core a key names now (R333): the die its virtual die names, the same cluster and core. -/
def State.coreOf (s : State) (c : Ctx) (key : Nat) : Option CorePlace :=
  (s.localDie c (key / 256)).map fun d => ⟨d, key / 64 % 4, key % 64⟩

/-! Stopping a hart (R356, steps 1 to 5). -/

/-- Withdraws a request at its home (R250): an answered one is delivered, another waits to be issued again. -/
def State.withdraw (s : State) (r : TupleReq) : State :=
  match r.phase with
  | .answered status image => s.deliver r status image
  | _ =>
    let left := match r.deadline with
      | some d => Nat.max 1 (d - s.time)
      | none => 0
    { s with reqs := s.reqs.map fun x => if x.id == r.id then { x with phase := .withdrawn left } else x }
/-- Issues the withdrawn requests of a hart again as new requests (R250). -/
def State.reissue (s : State) (n : Nat) : State :=
  let l := s.reqs.filter fun r => r.hart == n
  l.foldl (fun (s : State) r => match r.phase with
    | .withdrawn left =>
      { s.modHartAt n (fun h => { h with pend := h.pend ++ [(.of r.f.strm false false (.request s.nextOp))] }) with
        nextOp := s.nextOp + 1
        reqs := s.reqs.filter (·.id != r.id) ++
          [{ r with id := s.nextOp, phase := .flying, deadline := if left = 0 then none else some (s.time + left) }] }
    | _ => s) s
/-- Cancels a prefetch: the sectors it has not brought are credited (R174). -/
def State.cancelPrefetch (s : State) (p : Prefetch) : State :=
  ({ s with prefetches := s.prefetches.filter (·.id != p.id) }.unmark (.prefetch p.id)).creditAt p.agent p.txb p.left
/-- Stops hart `n`: its wait is withdrawn, its E-queue drains, its loads and accesses are performed (its requests
among them), its requests that are parked are withdrawn, its monitor is disarmed and its prefetches are cancelled. -/
def State.stopHart (s : State) (n : Nat) : State :=
  let s := (s.bindRest n).modHartAt n fun h => { h with wait := none, mid := false, monitor := none, undo := none }
  let s := s.modHartAt n Hart.deliverAll
  let s := s.drainAll n
  let s := (s.reqs.filter (·.hart == n)).foldl State.withdraw s
  (s.prefetches.filter (·.agent.hart == n)).foldl State.cancelPrefetch s

/-! The context part (R362, R363). -/

/-- A section's cluster: the virtual die it is saved under and the physical cluster. -/
structure Section where
  vdid : Nat
  die : Nat
  cluster : Nat
  deriving DecidableEq, Repr
def insertNat (a : Nat) : List Nat → List Nat
  | [] => [a]
  | b :: r => if a < b then a :: b :: r else if a = b then b :: r else b :: insertNat a r
/-- Whether a channel must be saved. -/
def Channel.toSave (c : Channel) : Bool := c.busy || !c.arms.isEmpty
/-- The keys of the cores whose images carry `WITHCTX`, ascending. -/
def State.tcmKeys (s : State) (area : Nat) : List Nat :=
  ((s.images area).filter fun o => s.imgState area o == 1 && s.imgWith area o).foldl
    (fun l o => insertNat (s.imgKey area o) l) []
/-- The clusters with a section: those of saved cores, of channels to save and of declared buffers, ascending by virtual die
and cluster. -/
def State.sections (s : State) (c : Ctx) (area : Nat) : List Section :=
  let vd (d : Nat) : Nat := (s.vdOf c.vdtbase.toNat s.pkg d).getD 0
  let keys := (s.tcmKeys area).map (· / 64)
  let chans := (s.chans.filter fun x => x.id.ctx == c.ctxid && x.toSave).map fun x => vd x.id.die * 4 + x.id.cluster
  let bufs := (s.bufs.filter (·.ctx == c.ctxid)).map fun b => vd b.die * 4 + b.cluster
  ((keys ++ chans ++ bufs).foldl (fun l k => insertNat k l) []).filterMap fun k =>
    (s.localDie c (k / 4)).map fun d => ⟨k / 4, d, k % 4⟩
/-- The declared buffers of a cluster, by index. -/
def State.bufsIn (s : State) (ctx die cluster : Nat) : List Buf :=
  (List.range 64).filterMap fun n => s.bufs.find? fun b => b.ctx == ctx && b.die == die && b.cluster == cluster && b.n == n
/-- Whether a context has a deterministic gang. -/
def State.hasDet (s : State) (ctx : Nat) : Bool := s.gangs.any fun g => g.ctx == ctx && g.det && !g.ended
/-- The bytes that `n` bytes of a section take with their race summaries. -/
def withSummary (det : Bool) (n : Nat) : Nat := if det then n + n / 32 else n
def sectionBytes (det : Bool) (l : List Buf) : Nat :=
  (l.filter (!·.discard)).foldl (fun n b => n + withSummary det b.size) 0x1840
/-- Copies bytes of memory from one physical range to another. -/
def State.copyBytes (s : State) (src dst n : Nat) : State :=
  (List.range ((n + 1023) / 1024)).foldl (fun (s : State) i =>
    s.writeN (dst + 1024 * i) (s.readN (src + 1024 * i) (Nat.min 1024 (n - 1024 * i))) (Nat.min 1024 (n - 1024 * i))) s
/-- Copies a private summary's place: its bytes are the hardware's own. -/
def State.putSummary (s : State) (det : Bool) (pa n : Nat) : State :=
  if det then { s.writeFree (drawnStamp s.free) 0 [(pa, n / 32)] with free := s.free + 1 } else s

/-- The 32 words of a channel block (R363). -/
def Channel.block (c : Channel) (cstat : Nat) : List Nat :=
  let arm (i : Nat) : List Nat := match c.arms[i]? with
    | some a => [a.vaddr, a.threshold, a.tail, a.order]
    | none => [0, 0, 0, 0]
  let fl (i : Nat) : Nat := (c.flights[i]?.map (·.addr)).getD 0
  let cu (i : Nat) : Nat := (c.flights[i]?.map Flight.saved).getD 0
  [c.head, c.tail, c.last, c.seq, c.seqw, cstat] ++ arm 0 ++ arm 1 ++ arm 2 ++ arm 3
    ++ [fl 0, fl 1, fl 2, fl 3, cu 0, cu 1, cu 2, cu 3, 0, 0]
/-- Writes one cluster section; its bytes (R363). -/
def State.putSection (s : State) (ctx : Nat) (det : Bool) (pa : Nat) (x : Section) : State × Nat :=
  let bufs := s.bufsIn ctx x.die x.cluster
  let size := sectionBytes det bufs
  let blocks := (List.range 16).flatMap fun i =>
    let c := s.chan ⟨ctx, x.die, x.cluster, i⟩
    wordPieces (0x40 + 256 * i) (c.block c.cstat)
  let table := (List.range 64).flatMap fun i => wordPieces (0x1040 + 32 * i) (match bufs.find? (·.n == i) with
    | some b => [b.image, b.outfl * 2 ^ 32 + b.infl, 0, 0]
    | none => [0, 0, 0, 0])
  let s := s.writePieces pa (wordPieces 0 [placeKey x.vdid x.cluster 0 * 2 ^ 40, size, 0, 0, 0, 0, 0, 0] ++ blocks ++ table)
  ((bufs.filter (!·.discard)).foldl (fun (acc : State × Nat) b =>
    let s := (acc.1.copyBytes (acc.1.spadPa x.die x.cluster b.base) (pa + acc.2) b.size).putSummary det (pa + acc.2 + b.size) b.size
    (s, acc.2 + withSummary det b.size)) (s, 0x1840)).1 |> fun s => (s, size)
/-- Writes one TCM block (R362). -/
def State.putTcm (s : State) (det : Bool) (pa key : Nat) (core : CorePlace) : State :=
  let s := s.writePieces pa (wordPieces 0 [key * 2 ^ 40, 0, 0, 0, 0, 0, 0, 0])
  (s.copyBytes (s.tcmPa core.die core.cluster core.core 0) (pa + 64) tcmBytes).putSummary det (pa + 64 + tcmBytes) tcmBytes
abbrev tcmBlock (det : Bool) : Nat := 64 + withSummary det tcmBytes

/-- A die number that stands for a virtual die while a context is away. -/
def awayDie (vdid : Nat) : Nat := 0x10000 + vdid
/-- Renames a channel in everything that names it. -/
def State.moveChan (s : State) (old new : ChannelId) (f : Channel → Channel) : State :=
  { s with
    chans := s.chans.map fun c => if c.id = old then f { c with id := new } else c
    marks := s.marks.map fun m => match m.op with
      | .copy ch r => if ch = old then { m with op := .copy new r } else m
      | _ => m }
/-- Changes the agents of a channel. -/
def Channel.mapAgents (g : Agent → Agent) (c : Channel) : Channel :=
  { c with handed := c.handed.map fun h => { h with agent := g h.agent }
           flights := c.flights.map fun h => { h with agent := g h.agent }
           arms := c.arms.map fun h => { h with agent := g h.agent } }
/-- An agent as it stands aside: under the virtual die that its physical die stood for. -/
def Agent.aside (left : List (Nat × Nat)) (a : Agent) : Agent :=
  { a with place := { a.place with die := awayDie (((left.find? (·.1 == a.place.die)).map (·.2)).getD 0) } }
/-- Changes the agents of a context's engine operations, and of what they owe. -/
def State.mapEngines (s : State) (ctx : Nat) (g : Agent → Agent) : State :=
  let of (a : Agent) : Agent := if a.ctx == ctx then g a else a
  { s with
    baseOps := s.baseOps.map fun (o : BaseOp) => { o with agent := of o.agent }
    prefetches := s.prefetches.map fun (o : Prefetch) => { o with agent := of o.agent }
    refreshes := s.refreshes.map fun (o : Refresh) => { o with agent := of o.agent }
    meshJobs := s.meshJobs.map fun (o : MeshJob) => { o with agent := of o.agent }
    remaps := s.remaps.map fun (o : Remap) => { o with agent := of o.agent }
    owed := s.owed.map fun (o : Owed) => { o with agent := of o.agent } }
/-- Where a window address of a die stands while its context is away: by virtual die. -/
def awayPa (vdid off : Nat) : Nat := 2 ^ 62 + vdid * 2 ^ 28 + off
/-- Maps the summaries and marks of a context that lie in windows. -/
def State.mapLines (s : State) (ctx : Nat) (g : Nat → Nat) : State :=
  { s with races := s.races.map fun r => if r.ctx == ctx then { r with line := g r.line } else r
           marks := s.marks.map fun m => if m.ctx == ctx then { m with lo := g m.lo, hi := g m.lo + (m.hi - m.lo) } else m }
/-- The virtual die of each physical die of the package. -/
def State.leftOf (s : State) (c : Ctx) : List (Nat × Nat) :=
  (List.range 16).filterMap fun d => (s.vdOf c.vdtbase.toNat s.pkg d).map (d, ·)
/-- The context leaves its clusters: channels stand aside under their virtual dies, scoreboard entries go. The buffer tables stand until they
are restored, for engine operations that go on (R357). -/
def State.leave (s : State) (c : Ctx) (l : List Section) : State :=
  let left := s.leftOf c
  let vd (d : Nat) : Nat := ((left.find? (·.1 == d)).map (·.2)).getD 0
  let away := Agent.aside left
  let ids := (s.chans.filter fun x => x.id.ctx == c.ctxid && l.any fun y => y.die == x.id.die && y.cluster == x.id.cluster).map (·.id)
  let s := ids.foldl (fun (s : State) id =>
    s.moveChan id { id with die := awayDie (vd id.die) } fun x => { x.mapAgents away with quiesced := true }) s
  let s := (s.modCtx c.ctxid fun c => { c with left := left }).mapLines c.ctxid fun p =>
    if inDieWindow p && pkgOf p == s.pkg then
      let o := localOf p - 0x10000000000
      awayPa (vd (o / 0x10000000)) (o % 0x10000000)
    else p
  { s with score := s.score.filter (·.chan.ctx != c.ctxid) }

/-! No room (R364). -/

/-- Marks the header of an area with an error. -/
def State.areaError (s : State) (area code : Nat) : State := s.writeN (area + 40) (2 ^ 63 + code) 8
/-- A hart goes on where it stopped. -/
def State.goOn (s : State) (n : Nat) : State :=
  (s.modHartAt n fun h => { h with status := .running, preempt := none, dcause := none }).reissue n

/-! Restoring a hart (R366). -/

/-- The word i of the system-register block of an image. -/
def State.imgSys (s : State) (img i : Nat) : Word := BitVec.ofNat 64 (s.readN (img + 0x240 + 8 * i) 8)
/-- Entry j of queue i of an image; a load that stopped is the one at the address that its hart goes on from. -/
def State.imgQueue (s : State) (img : Nat) (owner : BitVec 55) (i j : Nat) : Option QEntry :=
  let o := img + 0xA840 + (4 * i + j) * 0x440
  let w1 := s.readN (o + 8) 8
  let w2 := s.readN (o + 16) 8
  if !w1.testBit 0 then none
  else some ⟨s.readN o 8, w1.testBit 1, BitVec.ofNat 8192 (s.readN (o + 64) 1024),
    { vtype := BitVec.ofNat 64 (bitsAt w1 52 12), vl := BitVec.ofNat 64 (bitsAt w2 0 10)
      vr := BitVec.ofNat 64 (bitsAt w2 16 4), rowlen := BitVec.ofNat 64 (s.readN (o + 24) 8) },
    if w1.testBit 1 then none else some (bitsAt w1 3 12), owner⟩
/-- The pending-operation record at an address, as a request of hart `n`. -/
def State.imgRequest (s : State) (n ctx o : Nat) : TupleReq :=
  let w : IWord := BitVec.ofNat 96 (s.readN (o + 8) 8 + bitsAt (s.readN (o + 16) 8) 0 32 * 2 ^ 64)
  let reg (lo : Nat) : Reg := (regOf (w.extractLsb' lo 8)).getD (.x 0)
  let f := fieldsOf { c := .dst [.x] } w (reg 16) (reg 24) (reg 32) (reg 64)
  ⟨0, n, f, bitsAt (s.readN o 8) 0 8 == 2, f.fn.getLsbD 0, ctx, s.readN (o + 24) 8, s.readN (o + 64) 64,
    bitsAt f.imm.toNat 16 7, none, .withdrawn (s.readN (o + 32) 8)⟩
/-- The shape that an image gives its hart: the one it holds, and where that is none R13 allows, which no hart can have saved, the shape
of reset (DESIGN CHOICE, log 46). -/
def shapeSaved (vtype vl vr : Word) : Word × Word × Word :=
  if vtypeOk vtype && vlFits vtype vl && decide (1 ≤ vr.toNat) && decide (vr.toNat ≤ 8) then (vtype, vl, vr) else (1, 0, 1)
/-- The system registers of an image, whose reserved bits read as zero (R5); `DAMPSTAT`, which it does not hold, is free. -/
def State.imgRegs (s : State) (img : Nat) (damp : Word) : SysRegs :=
  let w := s.imgSys img
  let m (n i : Nat) : Word := w i &&& srMask n
  let shape := shapeSaved (m 0x000 0) (m 0x001 1) (m 0x002 2)
  { vtype := shape.1, vl := shape.2.1, vr := shape.2.2, vstart := m 0x003 3, rowlen := w 4, frm := m 0x006 5, fflags := m 0x007 6
    acfg := m 0x008 7, mstat := m 0x009 8
    ctab0 := w 9, ctab1 := w 10, ctab2 := w 11, ctab3 := w 12, lc0 := w 13, lc1 := w 14, lb0 := w 15, lb1 := w 16
    le0 := w 17, le1 := w 18, task := w 19, tile0 := w 20, tile1 := w 21, tile2 := w 22, tn := w 23, wshare := m 0x030 24
    ttmo := m 0x033 25, detctl := w 26 &&& 0xFFFFFFFF00000003, cycle := w 27, instret := w 28, stvec := m 0x101 30
    cause := m 0x102 31, epc := m 0x103 32, eval := w 33
    eidx := m 0x105 34, sscratch := w 35, tleft := w 36 &&& 0xFFFFFFFFFFFF, dampstat := damp
    dirty := BitVec.ofNat 64 (bitsAt (s.readN (img + 0x18) 8) 0 32) }
/-- The causes an image names, with the values the context has kept for them. -/
def keptCauses (h : Hart) (pend : Nat) (free : Word) : List (Nat × Word) :=
  [(1, cTIMER), (2, cENGINE), (3, cHOST)].filterMap fun x =>
    if pend.testBit x.1 then
      some (x.2, match h.causes.find? (·.1 == x.2) with
        | some y => y.2
        | none => if x.2 = cTIMER then 0 else free)
    else none
/-- A privilege level as a saved hart may have it: no image leads to F (R399), and its code stands for U as a reserved one does (DESIGN
CHOICE, log 46). -/
def privSaved (n : Nat) : Priv := if n = 1 then .s else .u
/-- The hart of an image, from what the package kept of it (R366). No instruction transferred control to the pc of an image: where it is
misaligned, `EPC` of PC_MISALIGNED is the last such address the package kept of the hart, or 0 (R57; DESIGN CHOICE, log 54). -/
def State.imgHart (s : State) (img : Nat) (h : Hart) (p : Place) (vdid : Nat) : Hart :=
  let w := fun o => s.readN (img + o) 8
  let sstat := (s.imgSys img 29).toNat
  let pend := bitsAt (w 0x18) 32 4
  let task := (s.imgSys img 37).toNat
  let dirty := bitsAt (w 0x18) 0 32
  let vAt (i : Nat) : Nat := ((List.range i).filter dirty.testBit).length
  let nb := (s.imgSys img 39).toNat
  { h with
    place := p
    vdid := vdid
    status := .running
    x := Vector.ofFn fun i => if i = 0 then 0 else BitVec.ofNat 64 (w (0x40 + 8 * i.val))
    p := Vector.ofFn fun i => i = 0 || (w 0x40).testBit i.val
    v := Vector.ofFn fun i =>
      if dirty.testBit i.val then BitVec.ofNat 8192 (s.readN (img + 0xEC40 + 0x400 * vAt i.val) 1024) else 0
    k := Vector.ofFn fun i => BitVec.ofNat 4096 (s.readN (img + 0x440 + 512 * i.val) 512)
    s := Vector.ofFn fun i => BitVec.ofNat 1024 (s.readN (img + 0x2440 + 128 * i.val) 128)
    ma := Vector.ofFn fun i => BitVec.ofNat 131072 (s.readN (img + 0x2840 + 16384 * i.val) 16384)
    q := Vector.ofFn fun i => (List.range 4).filterMap (s.imgQueue img (BitVec.ofNat 55 (if sstat.testBit 8 then (s.imgSys img 32).toNat else w 0x10)) i.val)
    empty := { x := BitVec.ofNat 64 (w 0x28), p := BitVec.ofNat 16 (bitsAt (w 0x20) 32 16), v := BitVec.ofNat 32 (bitsAt (w 0x20) 0 32) }
    pc := BitVec.ofNat 55 (w 0x10)
    sr := s.imgRegs img (Config.freeValue s.free)
    st := { tf := sstat.testBit 8, paie := sstat.testBit 5, aie := sstat.testBit 4, ppl := privSaved (bitsAt sstat 2 2)
            pl := privSaved (bitsAt sstat 0 2) }
    acfgDec := s.imgSys img 7
    seq := w 0x38
    equeue := 0
    waiting := []
    causes := keptCauses h pend (Config.freeValue (s.free + 1))
    preempt := if pend.testBit 0 then some false else none
    arrival := if (w 0x30).testBit 63 then some (w 0x30 % 2 ^ 63) else none
    stepKind := bitsAt (s.imgSys img 38).toNat 0 2
    binds := (List.range (Nat.min nb 4)).map fun i => ((s.imgSys img (40 + 2 * i)).toNat, (s.imgSys img (41 + 2 * i)).toNat)
    tileIndex := bitsAt task 0 16
    taskDone := task.testBit 16
    struck := [] }

/-- Binds the hart of an image to a free slot (R366): its image becomes RESUMED and its requests are issued again. -/
def State.bindImage (s : State) (c : Ctx) (area o : Nat) (p : Place) : State :=
  let img := area + o
  let w := s.readN (img + 8) 8
  let gang := w / 2 ^ 32
  let hartid := w % 2 ^ 32
  let vdid := (s.vdOf c.vdtbase.toNat s.pkg p.die).getD 0
  let saved := s.harts.findIdx? fun h => h.status == .saved && h.ctx == c.ctxid && h.gang == gang && h.hartid == hartid
  let member := (match s.gangOf c.ctxid gang with
    | some g => decide (hartid < g.nhart)
    | none => false)
  let fresh := { Hart.fresh p c.ctxid gang hartid with
                 member := member, taskRec := if member then none else some (s.imgSys img 19).toNat }
  let n := saved.getD s.harts.length
  let h := s.imgHart img (match saved with
    | some i => s.hartAt i
    | none => fresh) p vdid
  let npend := bitsAt (s.readN img 8) 16 8
  let first := img + 0xEC40 + 0x400 * h.dirtyRegs.length
  let reqs := (List.range npend).map fun i => s.imgRequest n c.ctxid (first + 0x80 * i)
  let s := { s with harts := if saved.isSome then s.harts.set n h else s.harts ++ [h], free := s.free + 2 }
  let s := reqs.foldl (fun (s : State) r => { s with reqs := s.reqs ++ [{ r with id := s.nextOp }], nextOp := s.nextOp + 1 }) s
  let s := (s.reissue n).takeHeld n
  s.writeN img (putBits (s.readN img 8) 8 8 2) 8
/-- The first image of an area that waits for a core. -/
def State.imgFor (s : State) (area : Nat) (core : Nat → Option CorePlace) (p : Place) : Option Nat :=
  (s.images area).find? fun o => s.imgState area o == 1 && core o == some ⟨p.die, p.cluster, p.core⟩
/-- The header after a resume, or after a save that found no room is undone: `STATE` LIVE, nothing in the area. -/
def State.emptyArea (s : State) (area : Nat) : State :=
  let s := s.saveState area 0
  ((s.writeN (area + 8) 0x100 8).writeN (area + 24) 0 8).writeN (area + 48) 0 8
/-- Whether every image of an area is RESUMED. -/
def State.allResumed (s : State) (area : Nat) : Bool := (s.images area).all fun o => s.imgState area o != 1
/-- The end of the undoing of a save. -/
def State.undone (s : State) (c : Ctx) : State :=
  if s.allResumed c.saveptr.toNat then
    (s.emptyArea c.saveptr.toNat).modCtx c.ctxid fun c => { c with undoing := false }
  else s
/-- The records in flight of a context's channels claim their entries again, while they fit (R194). -/
def State.reclaim (s : State) (ctx : Nat) : State :=
  (s.chans.filter (·.id.ctx == ctx)).foldl (fun (s : State) c =>
    c.flights.foldl (fun (s : State) f => s.claimSome f.agent c.id [f.addr]) s) s
/-- A whole-context save that found no room (R364): harts not yet written go on, written ones return to their cores as slots
are free, and channels continue. -/
def State.undoSave (s : State) (c : Ctx) : State :=
  let area := c.saveptr.toNat
  let s := (s.areaError area 1).modCtx c.ctxid fun c => { c with preempt := false, undoing := true }
  let here := (List.range s.harts.length).filter fun n => (s.hartAt n).ctx == c.ctxid
  let s := (here.filter fun n => (s.hartAt n).status == .stopped).foldl State.goOn s
  let s := { s with
    harts := s.harts.map fun (h : Hart) => if h.ctx == c.ctxid && h.status == HartStatus.running then { h with preempt := none } else h
    chans := s.chans.map fun (x : Channel) => if x.id.ctx == c.ctxid then { x with quiesced := false } else x }
  let s := s.reclaim c.ctxid
  let s := (s.images area).foldl (fun (s : State) o =>
    if s.imgState area o = 1 then
      let s := s.takeBlock c.vdtbase.toNat
      match s.coreOf c (s.imgKey area o) with
      | none => s
      | some k =>
        let p : Place := ⟨k.die, k.cluster, k.core, bitsAt (s.readN (area + o + 0x18) 8) 37 3⟩
        if s.slotFree p then s.bindImage c area o p else s
    else s) s
  s.undone c

/-! Writing (R364). -/

/-- Writes the image of a stopped hart and frees its slot; a save of that hart alone that finds no room leaves it running. -/
def State.writeHart (s : State) (c : Ctx) (n : Nat) : State :=
  let area := c.saveptr.toNat
  let h := s.hartAt n
  let reqs := s.reqs.filter (·.hart == n)
  let size := h.imageSize reqs.length
  match s.take area size with
  | none => if c.preempt then s.undoSave c else (s.areaError area 1).goOn n
  | some (o, s) =>
    let s := s.writePieces (area + o) (h.imagePieces c.preempt reqs)
    let s := s.writeN (area + o) (size * 2 ^ 32 + (h.dcause.getD 0) * 2 ^ 24 + reqs.length * 2 ^ 16 + 0x101) 8
    let s := s.writeN (area + 24) ((s.saveWord area 3 + 1) % 2 ^ 64) 8
    let s := if h.dcause.isSome then s.areaError area 2 else s
    let s := { s with reqs := s.reqs.filter (·.hart != n) }
    s.modHartAt n fun h => { h with status := .saved, preempt := none, dcause := none }
/-- The harts of a context that hold slots. -/
def State.boundOf (s : State) (ctx : Nat) : List Nat :=
  (List.range s.harts.length).filter fun n => (s.hartAt n).ctx == ctx && (s.hartAt n).bound
/-- The scheduler section's bytes: the manual leaves its layout, and so its size, to the hardware (R362). -/
def State.schedBytes (s : State) (ctx : Nat) : Nat :=
  64 * (Config.schedLines (s.gangs.filter (·.ctx == ctx)).length (s.tasks.filter (·.ctx == ctx)).length).toNat
/-- Writes the context part once no hart of the context holds a slot, and ends its save (R364). -/
def State.saveContext (s : State) (c : Ctx) : State :=
  let area := c.saveptr.toNat
  let s := s.quiesce c.ctxid fun _ => true
  let det := s.hasDet c.ctxid
  let secs := s.sections c area
  let tcms := (s.tcmKeys area).filterMap fun k => (s.coreOf c k).map fun p => (k, p)
  let sched := s.schedBytes c.ctxid
  let secSize := secs.foldl (fun n x => n + sectionBytes det (s.bufsIn c.ctxid x.die x.cluster)) 0
  match s.take area (64 + sched + secSize + tcms.length * tcmBlock det) with
  | none => s.undoSave c
  | some (o, s) =>
    let s := s.writePieces (area + o) (wordPieces 0
      [secs.length + tcms.length * 2 ^ 16 + (if det then 2 ^ 32 else 0), c.asid.toNat, c.ptroot.toNat, c.vdtbase.toNat,
        c.dampcfg.toNat, sched, o + 64 + sched, o + 64 + sched + secSize])
    let s := { s.writeFree (drawnStamp s.free) 0 [(area + o + 64, sched)] with free := s.free + 1 }
    let r := secs.foldl (fun (acc : State × Nat) x =>
      let p := acc.1.putSection c.ctxid det (area + acc.2) x
      (p.1, acc.2 + p.2)) (s, o + 64 + sched)
    let t := tcms.foldl (fun (acc : State × Nat) x => (acc.1.putTcm det (area + acc.2) x.1 x.2, acc.2 + tcmBlock det))
      (r.1, o + 64 + sched + secSize)
    let s := (t.1.leave c secs).modCtx c.ctxid fun c => { c with preempt := false, away := true }
    let s := (s.writeN (area + 48) o 8).saveState area 2
    let ctr := s.saveWord area 4
    if ctr = 0 then s else (s.bumpAt c.ctxid ctr).getD s
/-- Ends the save of a context whose harts have all gone, if one is due. -/
def State.finishSave (s : State) (ctx : Nat) : State :=
  match s.ctxOf ctx with
  | some c => if c.preempt ∧ (s.boundOf ctx).isEmpty ∧ s.mayWrite ctx then
      (if bitsAt (s.saveWord c.saveptr.toNat 0) 16 8 = 1 then s else s.saveState c.saveptr.toNat 1).saveContext c else s
  | none => s

/-! The sequence (R356). -/

/-- The stopped harts of a cluster go on with step 6 once every hart of the context bound there has reached it. -/
def State.cluster6 (s : State) (c : Ctx) (die cluster : Nat) : State :=
  let here := (s.boundOf c.ctxid).filter fun n => (s.hartAt n).place.die == die && (s.hartAt n).place.cluster == cluster
  if here.all fun n => (s.hartAt n).status == .stopped then
    let s := s.quiesce c.ctxid fun x => x.die == die && x.cluster == cluster
    here.foldl (fun (s : State) n => if (s.hartAt n).status = .stopped then s.writeHart c n else s) s
  else s
/-- `PREEMPT_SEQUENCE`: a hart stops, and its image is written: at once for a save of the hart alone, else once every hart of its
cluster has stopped; the last hart of a context ends its save (R356, R364). A hart whose last accesses meet an error takes that first, and
PREEMPT stays pending (R154, R350); one whose accesses wait for a test waits (R395). -/
def execPreemptSequence (h : Nat) (s : State) : Host.Outcome State Fault Refusal :=
  if !s.takesSave h || !(s.hartAt h).waiting.isEmpty || s.awaitsJob h || (s.hartAt h).pend.any s.heldUp then .next s
  else
    let x := s.hartAt h
    match s.ctxOf x.ctx with
    | none => .next s
    | some c =>
      let s := s.stopHart h
      if c.preempt then
        let s := if bitsAt (s.saveWord c.saveptr.toNat 0) 16 8 = 1 then s else s.saveState c.saveptr.toNat 1
        let s := s.modHartAt h fun h => { h with status := .stopped }
        .next ((s.cluster6 c x.place.die x.place.cluster).finishSave x.ctx)
      else .next (s.writeHart c h)
/-- `PACKAGE_SCHEDULER_PREEMPT`: a request for every hart of a context (R355). -/
def execPackageSchedulerPreempt (ctx : Nat) (s : State) : Host.Outcome State Fault Refusal :=
  .next ((s.askContext ctx).finishSave ctx)

end Sys2Proof.Machine
end

