-- ==== Sys2Proof/Machine/Resume.lean ====
section
/-! DEFINITION. Resumption (R365, R366): `CTXRES`, the context part, and the binding of saved harts. -/
namespace Sys2Proof.Machine

/-- `CTXRES_WRITE` (R365). -/
def execCtxresWrite (die : Nat) (value : BitVec 64) (s : State) : Host.Outcome State Fault Refusal :=
  .next (s.writeCtxres die value.toNat)

/-- What a resume places: sections and TCM blocks with their offsets in the area, in the order of the context part. -/
structure Placed where
  /-- Bits [63:40] of the header's word 0: the virtual die and the cluster, and for a block the core. -/
  key : Nat
  off : Nat
  place : Place
  deriving DecidableEq, Repr
/-- Sections in order, from an offset. -/
def State.readSections (s : State) (area off : Nat) : Nat → List (Nat × Nat)
  | 0 => []
  | n + 1 => (s.readN (area + off) 8 / 2 ^ 40, off) :: s.readSections area (off + s.readN (area + off + 8) 8) n
/-- The sections and blocks of a context part, and the places given for them by index, where each has one. -/
def State.placedOf (s : State) (area off : Nat) (placing : List (Nat × Place)) : Option (List Placed × List Placed) :=
  let w (i : Nat) : Nat := s.readN (area + off + 8 * i) 8
  let nsec := bitsAt (w 0) 0 16
  let det := (w 0).testBit 32
  let secs := s.readSections area (w 6) nsec
  let tcms := (List.range (bitsAt (w 0) 16 16)).map fun j =>
    let o := w 7 + j * tcmBlock det
    (s.readN (area + o) 8 / 2 ^ 40, o)
  let give (base : Nat) (l : List (Nat × Nat)) : Option (List Placed) :=
    (l.zipIdx).mapM fun x => (placing.find? (·.1 == base + x.2)).map fun p => ⟨x.1.1, x.1.2, p.2⟩
  match give 0 secs, give nsec tcms with
  | some a, some b => some (a, b)
  | _, _ => none
/-- Whether places are as R366 asks: on the dies the virtual dies name, distinct sections on distinct clusters, distinct blocks on
distinct cores of their section's cluster. -/
def State.placingOk (s : State) (c : Ctx) (secs tcms : List Placed) : Bool :=
  let cl (p : Placed) : Nat × Nat := (p.place.die, p.place.cluster)
  let co (p : Placed) : Nat × Nat × Nat := (p.place.die, p.place.cluster, p.place.core)
  secs.all (fun p => s.localDie c (p.key / 256) == some p.place.die && s.slotExists p.place)
    && tcms.all (fun p => s.slotExists p.place && secs.any fun q => q.key / 64 == p.key / 64 && cl q == cl p)
    && decide ((secs.map cl).Nodup) && decide ((tcms.map co).Nodup)

/-- The core placed for a saved core: its block's, or the same core of its section's cluster. -/
def coreFor (secs tcms : List Placed) (key : Nat) : Option CorePlace :=
  match tcms.find? (·.key == key) with
  | some p => some ⟨p.place.die, p.place.cluster, p.place.core⟩
  | none => (secs.find? (·.key / 64 == key / 64)).map fun p => ⟨p.place.die, p.place.cluster, key % 64⟩
/-- An agent at its new place. -/
def Agent.placed (secs tcms : List Placed) (a : Agent) : Agent :=
  match coreFor secs tcms (placeKey (a.place.die - awayDie 0) a.place.cluster a.place.core) with
  | some k => { a with place := { a.place with die := k.die, cluster := k.cluster, core := k.core } }
  | none => a
/-- An agent for a channel of which the package kept nothing. -/
def chanAgent (ctx die cluster : Nat) : Agent := ⟨0, ctx, 0, ⟨die, cluster, 0, 0⟩, .u, false⟩

/-- The channel of a block of a section (R363). -/
def State.blockChannel (s : State) (kept : Option Channel) (new : ChannelId) (pa : Nat) : Channel :=
  let w (i : Nat) : Nat := s.readN (pa + 8 * i) 8
  let c := (kept.getD (Channel.fresh new))
  let ag := chanAgent new.ctx new.die new.cluster
  let arm (i : Nat) : Option Arm :=
    let b := 6 + 4 * i
    if w b = 0 then none
    else
      let old := c.arms.find? fun a => a.order == w (b + 3) && a.vaddr == w b
      let g := (old.map (·.agent)).getD ag
      let at_ := (match s.engAddr g.publish new.die new.cluster .load (w b) with
        | .ok a => a
        | .error _ => (old.map (·.counter)).getD 0)
      some ⟨at_, w b, w (b + 1), w (b + 2), w (b + 3), g⟩
  let flight (i : Nat) : Option Flight :=
    if w (22 + i) = 0 then none
    else
      let old := c.flights.find? (·.addr == w (22 + i))
      let g := (old.map (·.agent)).getD ag
      let words := match old with
        | some f => f.words
        | none => match s.recAt g new.die new.cluster (w (22 + i)) with
          | .ok l => l
          | .error _ => []
      some ⟨w (22 + i), words, (old.map (·.seq)).getD (w 3 + i + 1), unsaved words (w (26 + i)), g, [],
        match old with
        | some f => f.src
        | none => s.srcSpan g new (recOf words)⟩
  { c with
    id := new, head := w 0, tail := w 1, last := w 2, seq := w 3, seqw := w 4
    handed := if kept.isSome then c.handed else if w 1 = 0 ∨ w 2 = w 1 then [] else [⟨w 1, ag⟩]
    err := (w 5).testBit 63, ecode := bitsAt (w 5) 48 8, eseq := bitsAt (w 5) 0 24
    arms := (List.range 4).filterMap arm, flights := (List.range 4).filterMap flight, quiesced := false }
/-- The buffer of a table entry (R188, R363); a DISCARD buffer comes back EMPTY (R193). -/
def State.tableBuf (s : State) (ctx die cluster n pa : Nat) : Option Buf :=
  let w := s.readN pa 8
  let c := s.readN (pa + 8) 8
  if !w.testBit 63 then none
  else
    let b : Buf := ⟨ctx, die, cluster, n, bitsAt w 0 18 * 64, bitsAt w 40 18 * 64, bufKindOf (bitsAt w 61 2), w.testBit 60,
      bufStateOf (bitsAt w 58 2), bitsAt c 0 32, bitsAt c 32 32, bitsAt w 22 18⟩
    some (if b.discard then { b with state := .empty, infl := 0, outfl := 0, xcnt := 0 } else b)
/-- Restores the contents of one cluster section: buffers, then channels. -/
def State.restoreSection (s : State) (ctx area : Nat) (det : Bool) (agents : Agent → Agent) (p : Placed) : State :=
  let pa := area + p.off
  let d := p.place.die
  let k := p.place.cluster
  let bufs := (List.range 64).filterMap fun n => s.tableBuf ctx d k n (pa + 0x1040 + 32 * n)
  let s := { s with bufs := (s.bufs.filter fun b => !(b.ctx == ctx && b.die == d && b.cluster == k)) ++ bufs }
  let r := bufs.foldl (fun (acc : State × Nat) b =>
    if b.discard then (acc.1.forget (acc.1.spadPa d k b.base) b.size, acc.2)
    else (acc.1.copyBytes (pa + acc.2) (acc.1.spadPa d k b.base) b.size, acc.2 + withSummary det b.size)) (s, 0x1840)
  (List.range 16).foldl (fun (s : State) i =>
    let old : ChannelId := ⟨ctx, awayDie (p.key / 256), p.key / 64 % 4, i⟩
    let new : ChannelId := ⟨ctx, d, k, i⟩
    let kept := (s.chans.find? (·.id == old)).map (Channel.mapAgents agents)
    let c := s.blockChannel kept new (pa + 0x40 + 256 * i)
    if kept.isNone && c == Channel.fresh new then s
    else
      let s := { s with chans := s.chans.filter fun x => x.id != new && x.id != old }
      let s := { s with chans := s.chans ++ [c], marks := s.marks.map fun m => match m.op with
        | .copy ch rec => if ch = old then { m with op := .copy new rec } else m
        | _ => m }
      c.flights.foldl (fun (s : State) f => s.claimSome f.agent new [f.addr]) s) r.1
/-- Where a line that stood aside with its context lies now. -/
def State.placedLine (s : State) (secs tcms : List Placed) (p : Nat) : Nat :=
  if p < 2 ^ 62 then p
  else
    let vd := (p - 2 ^ 62) / 2 ^ 28
    let o := (p - 2 ^ 62) % 2 ^ 28
    if o < 0x4000000 then
      match secs.find? fun q => q.key / 64 == vd * 4 + o / 0x1000000 with
      | some q => s.spadPa q.place.die q.place.cluster (o % 0x1000000)
      | none => p
    else
      let k := (o - 0x4000000) / tcmBytes
      match coreFor secs tcms (placeKey vd (k / 48) (k % 48)) with
      | some c => s.tcmPa c.die c.cluster c.core ((o - 0x4000000) % tcmBytes)
      | none => p
/-- Fires the arms of a context that stand satisfied, in their order (R236). -/
def State.testArms (s : State) (ctx : Nat) : State :=
  let l := (s.chans.filter (·.id.ctx == ctx)).foldl (fun (l : List (ChannelId × Arm)) c =>
    c.arms.foldl (fun (l : List (ChannelId × Arm)) a =>
      if a.threshold ≤ s.readN a.counter 8 then insertArm (c.id, a) l else l) l) []
  l.foldl State.fire s
/-- Restores the context part (R366, step 2): none where the places do not fit. Reserved bits of a context register read as zero whatever
the area holds (R5). -/
def State.restoreContext (s : State) (c : Ctx) (area off : Nat) (placing : List (Nat × Place)) : Option (State × List (Nat × CorePlace)) :=
  let w (i : Nat) : Word := BitVec.ofNat 64 (s.readN (area + off + 8 * i) 8)
  let m (i n : Nat) : Word := w i &&& srMask n
  let c' : Ctx := { c with asid := m 1 0x107, ptroot := m 2 0x108, vdtbase := m 3 0x109, dampcfg := m 4 0x10C, away := false }
  let s := s.takeBlock c'.vdtbase.toNat
  match s.placedOf area off placing with
  | none => none
  | some (secs, tcms) =>
    if !s.placingOk c' secs tcms then none
    else
      let det := (w 0).getLsbD 32
      let s := { s.modCtx c.ctxid fun _ => c' with bufs := s.bufs.filter (·.ctx != c.ctxid) }
      let s := tcms.foldl (fun (s : State) p =>
        s.copyBytes (area + p.off + 64) (s.tcmPa p.place.die p.place.cluster p.place.core 0) tcmBytes) s
      let s := secs.foldl (fun (s : State) p => s.restoreSection c.ctxid area det (Agent.placed secs tcms) p) s
      let s := (s.mapEngines c.ctxid fun a => (a.aside c.left).placed secs tcms).mapLines c.ctxid (s.placedLine secs tcms)
      let s := (s.owed.filter (·.agent.ctx == c.ctxid)).foldl State.settleOwed
        { s with owed := s.owed.filter (·.agent.ctx != c.ctxid) }
      some (s.testArms c.ctxid, tcms.map fun p => (p.key, ⟨p.place.die, p.place.cluster, p.place.core⟩))

/-- The context an area names. -/
def State.areaCtx (s : State) (area : Nat) : Option Ctx := s.ctxOf (bitsAt (s.saveWord area 0) 0 16)
/-- The end of a resume (R366, step 4). -/
def State.endResume (s : State) (die area : Nat) (ctx : Nat) : State :=
  if s.allResumed area then
    let ctr := s.saveWord area 4
    let s := (s.emptyArea area).modDie die fun x => { x with resuming := none, restored := false, cores := [] }
    if ctr = 0 then s else (s.bumpAt ctx ctr).getD s
  else s
/-- `RESUME_SEQUENCE`: the context part is restored at the places that device software gives; harts may then be bound
(R366). -/
def execResumeSequence (die : Nat) (placing : List (Nat × Place)) (s : State) : Host.Outcome State Fault Refusal :=
  match (s.die die).resuming with
  | none => .next s
  | some area =>
    if (s.die die).restored then .next s
    else match s.areaCtx area with
      | none => .next s
      | some c =>
        let off := s.saveWord area 6
        if off = 0 then
          .next ((s.modDie die fun x => { x with restored := true }).endResume die area c.ctxid)
        else match s.restoreContext c area off placing with
          | none => .next s
          | some (s, cores) =>
            .next ((s.modDie die fun x => { x with restored := true, cores := cores }).endResume die area c.ctxid)

/-- The core an image is bound on (R366): with `WITHCTX` the one placed for its saved core, else its saved core. -/
def State.imgCore (s : State) (c : Ctx) (die area o : Nat) : Option CorePlace :=
  let key := s.imgKey area o
  if s.imgWith area o then
    match (s.die die).cores.find? (·.1 == key) with
    | some x => some x.2
    | none => s.coreOf c key
  else s.coreOf c key
/-- A hart of a context whose save is being undone returns to its saved core (R364). -/
def State.undoBind (s : State) (p : Place) : State :=
  match s.ctxs.find? fun c => c.undoing && (s.imgFor c.saveptr.toNat (fun o => s.coreOf c (s.imgKey c.saveptr.toNat o)) p).isSome with
  | none => s
  | some c =>
    let s := s.takeBlock c.vdtbase.toNat
    match s.imgFor c.saveptr.toNat (fun o => s.coreOf c (s.imgKey c.saveptr.toNat o)) p with
    | none => s
    | some o => (s.bindImage c c.saveptr.toNat o p).undone c
/-- `RESUME_HART_BIND`: a saved hart is bound to a free slot of its core (R366). -/
def execResumeHartBind (die : Nat) (place : Place) (s : State) : Host.Outcome State Fault Refusal :=
  if !s.slotFree place then .next s
  else match (s.die die).resuming with
    | none => .next (s.undoBind place)
    | some area =>
      if !(s.die die).restored then .next s
      else match s.areaCtx area with
        | none => .next s
        | some c => match (s.takeBlock c.vdtbase.toNat).imgFor area ((s.takeBlock c.vdtbase.toNat).imgCore c die area) place with
          | none => .next s
          | some o => .next (((s.takeBlock c.vdtbase.toNat).bindImage c area o place).endResume die area c.ctxid)

/-- `SRCARVE_WRITE` (R184). -/
def execSrcarveWrite (die : Nat) (value : BitVec 64) (s : State) : Host.Outcome State Fault Refusal :=
  .next (s.writeSrcarve die value.toNat)

end Sys2Proof.Machine
end

