-- ==== Sys2Proof/Machine/VirtualDies.lean ====
section
/-! DEFINITION. Virtual dies: `vdhop` (R336) and the move of a context's home-slice state (R335). -/
namespace Sys2Proof.Machine

def natDist (a b : Nat) : Nat := a - b + (b - a)
/-- The hops from a die to its nearest I/O chiplet (R332, R336). -/
def ioHops (d : Nat) : Nat :=
  1 + Nat.min (Nat.min (d / 4) (3 - d / 4)) (Nat.min (d % 4) (3 - d % 4))
/-- The links between two packages: 2 on one switch, and else those of the domain routing as it stands. -/
def State.linksOf (s : State) (p q : Nat) : Word :=
  if Config.switchOf p = Config.switchOf q then 2 else Config.links s.routing p q
/-- The distance of two places. -/
def State.hops (s : State) (a b : Nat × Nat) : Word :=
  if a.1 = b.1 then BitVec.ofNat 64 (natDist (a.2 / 4) (b.2 / 4) + natDist (a.2 % 4) (b.2 % 4))
  else BitVec.ofNat 64 (ioHops a.2) + s.linksOf a.1 b.1 + BitVec.ofNat 64 (ioHops b.2)
/-- The value `vdhop` writes: all ones where either virtual die does not exist. -/
def State.vdhop (s : State) (v w : Nat) : Word :=
  match s.ctx with
  | none => BitVec.allOnes 64
  | some c => match s.vdEntry c.vdtbase.toNat v, s.vdEntry c.vdtbase.toNat w with
    | some a, some b => s.hops a b
    | _, _ => BitVec.allOnes 64
/-- `vdhop` (R336). -/
def execVdhop (f : Fields) (s : State) : Host.Outcome State Fault Refusal :=
  aside f (refusedDet 0x07 fun s => give f s (s.vdhop (s.hart.xr f.a).toNat (s.hart.xr f.b).toNat)) s

/-- Whether an unfinished collective of a context has a rank on a die of the package (R391). -/
def State.collOn (s : State) (c : Ctx) (die : Nat) : Bool :=
  s.colls.any fun x => x.ctx == c.ctxid && x.isOpen && x.vds.any fun v => s.vdEntry c.vdtbase.toNat v == some (s.pkg, die)
/-- `HOME_SLICE_STATE_MOVE` (R335): refused unless both dies carve out the same slices; it waits while the context still has a
bound hart or a collective on the die. The tuples and the buffers that the one die keeps come to be kept by the other, with their numbers,
and the carve-out's bytes are copied, slice by slice. -/
def execHomeSliceStateMove (ctx fromDie toDie : Nat) (s : State) : Host.Outcome State Fault Refusal :=
  match s.ctxOf ctx with
  | none => .next s
  | some c =>
    if fromDie ≥ 16 ∨ toDie ≥ 16 ∨ (s.die fromDie).srcarve ≠ (s.die toDie).srcarve
      ∨ !(s.boundOf ctx).isEmpty ∨ s.collOn c fromDie then .next s
    else
      let pa (d : Nat) : Nat := s.paOf (dieWindow d + 0x8000000)
      let there (p : Nat × Nat) : Nat × Nat := if p = (s.pkg, fromDie) then (s.pkg, toDie) else p
      let s := { s with
        tuples := s.tuples.map fun (t : STuple) => if t.ctx = ctx then { t with die := there t.die } else t
        cbufs := s.cbufs.map fun (b : CBuf) => if b.ctx = ctx then { b with home := b.home.map fun (h : Nat × Nat × Nat) => (h.1, there h.2) } else b }
      .next (s.copyBytes (pa fromDie) (pa toDie) ((s.die fromDie).srcarve * sliceBytes))

end Sys2Proof.Machine
end

