-- ==== Sys2Proof/Machine/Coll.lean ====
section
/-! DEFINITION. Collectives (R382-R391). -/
namespace Sys2Proof.Machine

/-! Parameter blocks (R383). -/

structure CollBlock where
  root : Nat
  comm : Nat
  inplace : Bool
  rop : Nat
  sew : Nat
  fmt : Nat
  alg : Nat
  op : Nat
  send : Nat
  recv : Nat
  count : Nat
  chunk : Nat
  blk : Nat
  ctr : Nat
  deriving DecidableEq, Repr
def collBlockOf (w : List Nat) : CollBlock :=
  let g (i : Nat) : Nat := w.getD i 0
  { root := bitsAt (g 0) 48 16, comm := bitsAt (g 0) 32 16, inplace := (g 0).testBit 24, rop := bitsAt (g 0) 16 4
    sew := sewBits (bitsAt (g 0) 13 3), fmt := bitsAt (g 0) 8 5, alg := bitsAt (g 0) 4 4, op := bitsAt (g 0) 0 4
    send := g 1, recv := g 2, count := bitsAt (g 3) 0 31, chunk := bitsAt (g 4) 0 32, blk := bitsAt (g 5) 0 8, ctr := g 6 }
/-- Elements of the send and of the receive buffer among `n` ranks (R386, Table 3). -/
def CollBlock.sendLen (b : CollBlock) (n : Nat) : Nat := if b.op = 1 ∨ b.op = 3 then n * b.count else b.count
def CollBlock.recvLen (b : CollBlock) (n : Nat) : Nat := if b.op = 2 ∨ b.op = 3 then n * b.count else b.count
def CollBlock.sendBytes (b : CollBlock) (n : Nat) : Nat := b.sendLen n * b.sew / 8
def CollBlock.recvBytes (b : CollBlock) (n : Nat) : Nat := b.recvLen n * b.sew / 8
/-- The element types that an operation admits. -/
def CollBlock.typeOk (b : CollBlock) : Bool :=
  match b.fmt with
  | 0 | 1 => b.sew == 32 || b.sew == 64
  | 2 => b.sew == 16 || b.sew == 32 || b.sew == 64
  | 3 => b.sew == 16
  | 4 | 5 => b.sew == 8 && decide (2 ≤ b.op) && decide (b.op ≤ 4)
  | _ => false
/-- Whether a block breaks Table 2, R383 or the overlap rule of R386, among `n` ranks (0x01). -/
def collBad (w : List Nat) (n : Nat) : Bool :=
  let g (i : Nat) : Nat := w.getD i 0
  let b := collBlockOf w
  let reserved := bitsAt (g 0) 25 7 != 0 || bitsAt (g 0) 20 4 != 0 || bitsAt (g 3) 31 33 != 0 || bitsAt (g 4) 32 32 != 0
    || bitsAt (g 5) 8 56 != 0 || (List.range 9).any fun i => g (7 + i) != 0
  let chunk := b.chunk == 0 || (b.chunk % 4096 == 0 && decide (b.chunk ≤ 0x400000))
  let root := if b.op = 4 ∨ b.op = 5 then decide (b.root < n) else b.root == 0
  let same := b.inplace && b.send == b.recv && (b.op == 0 || b.op == 4 || b.op == 5)
  reserved || decide (b.rop > 2) || decide (b.alg > 3) || decide (b.op > 5) || !b.typeOk || !root
    || b.send % 64 != 0 || b.recv % 64 != 0 || b.count == 0 || decide (b.count > 2 ^ 30) || !chunk
    || !(b.blk == 0 || b.blk == 16 || b.blk == 32) || b.ctr % 8 != 0
    || (if same then false else b.inplace || overlaps (b.send, b.sendBytes n) (b.recv, b.recvBytes n))
/-- Whether two members agree (R385). -/
def CollBlock.agrees (a b : CollBlock) : Bool :=
  a.op == b.op && a.rop == b.rop && a.fmt == b.fmt && a.sew == b.sew && a.count == b.count && a.blk == b.blk && a.root == b.root

/-! The reduction (R387). -/

/-- The sum of a block of elements; each element gives one contribution of every rank. -/
def collSumBlock (f : FpFmt) (l : List (List Nat)) : List (Nat × Flags) :=
  let xs := l.map fun r => r.map f.decode
  let a : Int := 45 - (maxLog xs.flatten).getD 0
  xs.map fun r =>
    if r.any FVal.isNaN then (f.canonNaN, snanFlag r)
    else if r.any (fun x => x.isInf && x.negative) && r.any (fun x => x.isInf && !x.negative) then (f.canonNaN, flNV)
    else match r.find? FVal.isInf with
      | some x => (f.sign x.negative + f.infBits, 0)
      | none =>
        let t := r.map fun x => match x with
          | .fin neg m e => let y := roundTo .rne neg m (e + a) 0; ((if neg then -(y.1 : Int) else (y.1 : Int)), y.2)
          | _ => ((0 : Int), false)
        let sum : Int := t.foldl (fun n y => n + y.1) 0
        let nx := flagIf (t.any (·.2)) flNX
        if sum = 0 then (f.sign (r.all fun x => x.isZero && x.negative), nx)
        else let o := round f .rne ((FVal.ofInt sum).scale (-a)); (o.1, o.2 ||| nx)
/-- The blocks of a list; the fuel is their number. -/
def chunksOf {α : Type} (n : Nat) : Nat → List α → List (List α)
  | 0, _ => []
  | k + 1, l => if l.isEmpty then [] else l.take n :: chunksOf n k (l.drop n)
/-- ⊕ over the ranks' contributions to every element of the reduced range. -/
def CollBlock.reduce (b : CollBlock) (l : List (List Nat)) : List (Nat × Flags) :=
  let g : Geom := { sew := b.sew, fmt := b.fmt, bl := 0, ragged := false, vl := 1, vr := 1, rowlen := 0, frm := 0 }
  let fold (o : RedOp) (r : List Nat) : Nat × Flags := match r with
    | [] => (0, 0)
    | x :: r => r.foldl (fun acc y => redAcc o g .rne acc (y, 0)) (x, 0)
  if b.rop = 0 ∧ !fmtIsInt b.fmt then
    (chunksOf (orDefault b.blk 32) b.count l).flatMap (collSumBlock (fpFmtOf b.fmt b.sew))
  else l.map (fold (if b.rop = 0 then .sum else if b.rop = 1 then .max else .min))
/-- Rank r's `RECV` and the flags, from every rank's send data (R386, Table 3). -/
def CollBlock.result (b : CollBlock) (r : Nat) (data : List Nat) : Nat × Flags :=
  let x (d i : Nat) : Nat := bitsAt d (b.sew * i) b.sew
  let red (base : Nat) : Nat × Flags :=
    let l := b.reduce ((List.range b.count).map fun i => data.map fun d => x d (base + i))
    (packBits b.sew (l.map (·.1)), l.foldl (fun a y => a ||| y.2) 0)
  match b.op with
  | 1 => red (r * b.count)
  | 2 => (packBits b.sew (data.flatMap fun d => (List.range b.count).map (x d)), 0)
  | 3 => (packBits b.sew (data.flatMap fun d => (List.range b.count).map fun i => x d (r * b.count + i)), 0)
  | 4 => (packBits b.sew ((List.range b.count).map (x (data.getD b.root 0))), 0)
  | _ => red 0
/-- Whether an operation writes rank r's `RECV`. -/
def CollBlock.writes (b : CollBlock) (r : Nat) : Bool := b.op != 5 || b.root == r
/-- The ranks whose data rank r's result takes. -/
def CollBlock.takes (b : CollBlock) (n : Nat) : List Nat := if b.op = 4 then [b.root] else List.range n
/-- Whether flags of the collective depend on the data. -/
def CollBlock.flagged (b : CollBlock) : Bool := (b.op == 0 || b.op == 1 || b.op == 5) && !fmtIsInt b.fmt

/-! Joining (R382, R385). -/

/-- The ranks' virtual dies of a communicator of the agent's context, where it is valid. An entry whose reserved bits are not zero is not
(R5, R382; that it is reported as an invalid communicator is DEDUCED, log 37). -/
def State.commRanks (s : State) (ag : Agent) (comm : Nat) : Option (List Nat) :=
  let base := (s.ccommOf ag.ctx).toNat
  if comm ≥ 1024 then none
  else match s.tableRead ag (base + 16 * comm) 8, s.tableRead ag (base + 16 * comm + 8) 8 with
    | some w0, some w1 =>
      let n := bitsAt w0 0 32
      if !w0.testBit 63 || bitsAt w0 32 31 != 0 || n == 0 || decide (n > 65536) then none
      else match s.tableRead ag w1 (4 * n) with
        | some v =>
          let l := (List.range n).map fun i => bitsAt v (32 * i) 32
          if l.all fun e => decide (e < 2 ^ 16) then some l else none
        | none => none
    | _, _ => none
/-- How many calls a rank has had accepted. -/
def State.collCount (s : State) (ctx comm rank : Nat) : Nat :=
  match s.collCounts.find? fun c => c.ctx == ctx && c.comm == comm && c.rank == rank with
  | some c => c.n
  | none => 0
def State.countColl (s : State) (ctx comm rank : Nat) : State :=
  { s with collCounts := ⟨ctx, comm, rank, s.collCount ctx comm rank + 1⟩
      :: s.collCounts.filter fun c => !(c.ctx == ctx && c.comm == comm && c.rank == rank) }
/-- Enters a call in its collective, or lets it stand alone. -/
def State.joinColl (s : State) (ag : Agent) (vdid block : Nat) (words : List Nat) : State :=
  let b := collBlockOf words
  let alone : State := { s with
    nextOp := s.nextOp + 1
    colls := s.colls ++ [⟨s.nextOp, ag.ctx, b.comm, 0, [], [⟨0, ag, block, words, [], none, false, [], false, false⟩], some 2, none⟩] }
  match s.commRanks ag b.comm with
  | none => alone
  | some vds => match vds.findIdx? (· == vdid) with
    | none => alone
    | some r =>
      let n := s.collCount ag.ctx b.comm r
      let mine (c : Coll) : Bool := c.ctx == ag.ctx && c.comm == b.comm && c.index == n && !c.vds.isEmpty
      let call : CollCall := ⟨r, ag, block, words, [], none, false, [], false, false⟩
      let s := s.countColl ag.ctx b.comm r
      let mk (s : State) (id : Nat) : State :=
        (s.mark ag ag.place.die ag.place.cluster (.coll id r) true b.recv (b.recvBytes vds.length)).mark ag ag.place.die
          ag.place.cluster (.coll id r) false b.send (b.sendBytes vds.length)
      match s.colls.find? mine with
      | some c => mk { s with colls := s.colls.map fun x => if x.id = c.id then { x with calls := x.calls ++ [call] } else x } c.id
      | none =>
        mk { s with nextOp := s.nextOp + 1, colls := s.colls ++ [⟨s.nextOp, ag.ctx, b.comm, n, vds, [call], none, none⟩] } s.nextOp
/-- The unfinished collectives a context may have in the package. -/
abbrev collLimit : Nat := 256
/-- `coll` (R384). -/
def execColl (f : Fields) (s : State) : Host.Outcome State Fault Refusal :=
  issue f { wholly := true, body := phased false fun s0 =>
    let s := s0.inStream f.strm false
    let w := s.hart.xr f.a
    let a := w.toNat
    if a % 128 ≠ 0 then misaligned s a
    else if localBase ≤ a ∧ a < 2 ^ 55 then .trap s cACCESS w 0
    else match s.resolve .load false a 8, s.resolve .store false a 8 with
      | .trap c _, _ => .trap s c w 0
      | _, .trap c _ => .trap s c w 0
      | _, _ => match s.commandChk a 128 with
        | .error e => e
        | .ok (l, v) =>
          if (s.colls.filter fun c => c.ctx == s.hart.ctx && c.isOpen).length ≥ collLimit then give f s 1
          else
            let words := (List.range 16).map fun i => bitsAt v (64 * i) 64
            let s := (s.noteAll .read l).drainAll s.cur
            give f (s.joinColl s.agent s.hart.vdid a words) 0 } s

/-! Running and ending (R388-R390). -/

def CollCall.b (c : CollCall) : CollBlock := collBlockOf c.words
/-- The physical ranges of a call's buffers. -/
def State.collRange (s : State) (c : CollCall) (k : AccessKind) (va n : Nat) : Option (List (Nat × Nat)) := s.hbmRange c.agent k va n
/-- Whether a buffer or the counter of a call fails translation or page class (0x04). -/
def State.collUnmapped (s : State) (c : CollCall) (n : Nat) : Bool :=
  let b := c.b
  (s.collRange c .load b.send (b.sendBytes n)).isNone || (s.collRange c .store b.recv (b.recvBytes n)).isNone
    || (b.ctr != 0 && (s.hbmRange c.agent.publish .store b.ctr 8).isNone)
/-- Whether a call meets uncorrectable data (0x05). -/
def State.collSpoilt (s : State) (c : CollCall) (n : Nat) : Bool :=
  let b := c.b
  c.spoilt || (c.data.isNone && ((s.collRange c .load b.send (b.sendBytes n)).getD []).any fun p => s.marred p.1 p.2)
    || (b.writes c.rank && ((s.collRange c .store b.recv (b.recvBytes n)).getD []).any fun p => s.partPoisoned p.1 p.2)
/-- Whether what a call has still to read or to write lies beyond a lost route (0x06, R379). -/
def State.collLost (s : State) (c : CollCall) (n : Nat) : Bool :=
  let b := c.b
  (c.data.isNone && ((s.collRange c .load b.send (b.sendBytes n)).getD []).any fun p => s.lost p.1)
    || (b.writes c.rank && !c.got && ((s.collRange c .store b.recv (b.recvBytes n)).getD []).any fun p => s.lost p.1)
/-- The place of a virtual die of a collective. -/
def State.collPlace (s : State) (c : Coll) (v : Nat) : Option (Nat × Nat) :=
  (s.ctxOf c.ctx).bind fun x => s.vdEntry x.vdtbase.toNat v
/-- Whether a rank runs in another package. -/
def State.collRemote (s : State) (c : Coll) (rank : Nat) : Bool :=
  match s.collPlace c (c.vds.getD rank 0) with
  | some p => p.1 != s.pkg
  | none => false
/-- Whether the route between the packages of two ranks is lost (0x06). -/
def State.collCutOff (s : State) (c : Coll) : Bool :=
  let at_ := c.vds.filterMap fun v => (s.collPlace c v).map (·.1)
  s.lostRoutes.any fun r => at_.contains r.1 && at_.contains r.2
/-- The codes a collective may fail with as it stands (R390, Table 4). -/
def State.collCodes (s : State) (c : Coll) : List Nat :=
  match c.code with
  | some k => [k]
  | none =>
    let n := c.vds.length
    let bad (x : CollCall) : Bool := collBad x.words n
    (if c.calls.any bad then [1] else [])
      ++ (if c.calls.any (fun x => c.calls.any fun y => !x.b.agrees y.b) then [3] else [])
      ++ (if c.calls.any (fun x => !bad x && !x.ended && s.collUnmapped x n) then [4] else [])
      ++ (if c.calls.any (fun x => !bad x && !x.ended && s.collSpoilt x n) then [5] else [])
      ++ (if s.collCutOff c || c.calls.any (fun x => !bad x && !x.ended && s.collLost x n) then [6] else [])
def State.coll (s : State) (n : Nat) : Option Coll := s.colls.find? (·.id == n)
def Coll.call (c : Coll) (rank : Nat) : Option CollCall := c.calls.find? fun x => x.rank == rank && !x.ended
def State.modCall (s : State) (n rank : Nat) (f : CollCall → CollCall) : State :=
  { s with colls := s.colls.map fun c => if c.id = n then { c with calls := c.calls.map fun x => if x.rank = rank then f x else x } else c }
/-- A rank's call has ended; a collective goes once every rank of the package has joined and ended. -/
def State.endCall (s : State) (c : Coll) (rank : Nat) : State :=
  let s := (s.modCall c.id rank fun x => { x with ended := true }).unmark (.coll c.id rank)
  let all (x : Coll) : Bool := x.calls.all (·.ended)
    && (List.range x.vds.length).all fun r => s.collRemote x r || x.calls.any (·.rank == r)
  { s with colls := s.colls.filter fun x => !(x.id == c.id && all x) }
/-- `STATUS` bits. -/
abbrev collDONE : Nat := 2 ^ 63
abbrev collERR : Nat := 2 ^ 62
abbrev collSENT : Nat := 2 ^ 61
/-- `COLL_SENT`: every byte of a rank's `SEND` has been read (R389). -/
def execCollSent (n rank : Nat) (s : State) : Host.Outcome State Fault Refusal :=
  match s.coll n with
  | none => .next s
  | some c => match c.call rank with
    | none => .next s
    | some x =>
      if c.code.isSome ∨ x.data.isSome ∨ s.agentHeld x.agent [(x.b.send, x.b.sendBytes c.vds.length), (x.block + 56, 8)] ∨ collBad x.words c.vds.length ∨ s.collSpoilt x c.vds.length ∨ s.collLost x c.vds.length then .next s
      else match s.collRange x .load x.b.send (x.b.sendBytes c.vds.length) with
        | none => .next s
        | some l =>
          let now := l.foldr (fun (p : Nat × Nat) acc => s.readN p.1 p.2 + 2 ^ (8 * p.2) * acc) 0
          let v := x.early.foldl (fun v u => putBits v (64 * u.1) 64 u.2) now % 2 ^ (8 * x.b.sendBytes c.vds.length)
          .next ((s.modCall n rank fun x => { x with data := some v }).publish x.agent (x.block + 56) collSENT)
/-- The data of a rank once all of it has been read here. -/
def Coll.dataOf (c : Coll) (r : Nat) : Option Nat := (c.calls.find? (·.rank == r)).bind (·.data)
/-- Every rank's data, where those that an operation takes are known here. -/
def Coll.known (c : Coll) (b : CollBlock) : Option (List Nat) :=
  let n := c.vds.length
  if (b.takes n).all fun r => (c.dataOf r).isSome then some ((List.range n).map fun r => (c.dataOf r).getD 0) else none
/-- The parts of a rank's `RECV`, each with its address, its bytes and its final value, none where the data of another package fix it
(Table 3). -/
def Coll.parts (c : Coll) (x : CollCall) : List (Nat × Nat × Option Nat) :=
  let b := x.b
  let seg := b.count * b.sew / 8
  if !b.writes x.rank then []
  else if b.op = 2 ∨ b.op = 3 then
    (List.range c.vds.length).map fun r =>
      (b.recv + r * seg, seg, (c.dataOf r).map fun d => bitsAt d (if b.op = 3 then 8 * seg * x.rank else 0) (8 * seg))
  else [(b.recv, b.recvBytes c.vds.length, (c.known b).map fun data => (b.result x.rank data).1)]
/-- The flags of the whole collective: those of every rank's result where the data are known here, else free ones. -/
def State.collFlags (s : State) (c : Coll) (b : CollBlock) : Nat × State :=
  match c.flags with
  | some f => (f, s)
  | none =>
    let r : Nat × State := if !b.flagged then (0, s) else match c.known b with
      | some data => (((List.range c.vds.length).foldl (fun (a : Flags) r => a ||| (b.result r data).2) 0).toNat, s)
      | none => ((Config.freeByte [7, c.ctx, c.comm, c.index] 0).toNat % 16, s)
    (r.1, { r.2 with colls := r.2.colls.map fun (y : Coll) => if y.id = c.id then { y with flags := some r.1 } else y })
/-- What is left to write of a part of a rank's `RECV`: the part, without the 8-byte units written before. -/
def CollCall.left (x : CollCall) (va n : Nat) : List (Nat × Nat) :=
  if x.put.isEmpty then [(va, n)]
  else (List.range (n / 8 + 2)).filterMap fun i =>
    let lo := Nat.max va (va / 8 * 8 + 8 * i)
    let hi := Nat.min (va + n) (va / 8 * 8 + 8 * i + 8)
    if hi ≤ lo ∨ x.put.contains ((lo - x.b.recv) / 8) then none else some (lo, hi - lo)
/-- Writes what is left of a rank's `RECV`: every byte of it that has not been written, free ones where another package's data fix them. -/
def State.collReceive (s : State) (c : Coll) (x : CollCall) : State :=
  if x.got then s
  else
    let s := (c.parts x).foldl (fun (s : State) p => (x.left p.1 p.2.1).foldl (fun (s : State) q =>
      let dst := (s.collRange x .store q.1 q.2).getD []
      match p.2.2 with
      | some v => s.writeRanges (bitsAt v (8 * (q.1 - p.1)) (8 * q.2)) dst
      | none => s.writeFree (collStamp c.ctx c.comm c.index x.rank) (q.1 - x.b.recv) dst) s) s
    s.modCall c.id x.rank fun y => { y with got := true }
/-- One 8-byte unit of a rank's `SEND` is read before `SENT` (R389). -/
def State.collRead (s : State) (id rank unit : Nat) : State :=
  match s.coll id with
  | none => s
  | some c => match c.call rank with
    | none => s
    | some x =>
      let n := x.b.sendBytes c.vds.length
      let m := Nat.min 8 (n - 8 * unit)
      if x.data.isSome ∨ x.spoilt ∨ c.code.isSome ∨ n ≤ 8 * unit ∨ collBad x.words c.vds.length ∨ x.early.any (·.1 == unit) then s
      else match s.collRange x .load (x.b.send + 8 * unit) m with
        | some [(pa, _)] =>
          if s.poisoned pa m || s.testing pa m then s else s.modCall id rank fun y => { y with early := y.early ++ [(unit, s.readN pa m)] }
        | _ => s
/-- One 8-byte unit of a rank's `RECV` is written with its final value before `DONE` (R389), once (R386). -/
def State.collWrite (s : State) (id rank unit : Nat) : State :=
  match s.coll id with
  | none => s
  | some c => match c.call rank with
    | none => s
    | some x =>
      let lo (p : Nat × Nat × Option Nat) : Nat := Nat.max p.1 (x.b.recv + 8 * unit)
      let n (p : Nat × Nat × Option Nat) : Nat := Nat.min (p.1 + p.2.1) (x.b.recv + 8 * unit + 8) - lo p
      let l := (c.parts x).filter fun p => n p != 0
      if x.got ∨ s.agentHeld x.agent [(x.b.recv + 8 * unit, 8)] ∨ !(s.collCodes c).isEmpty ∨ x.put.contains unit ∨ l.any fun p => p.2.2.isNone then s
      else
        let s := l.foldl (fun (s : State) p => match p.2.2, s.collRange x .store (lo p) (n p) with
          | some v, some r => s.writeRanges (bitsAt v (8 * (lo p - p.1)) (8 * n p)) r
          | _, _ => s) s
        s.modCall id rank fun y => { y with put := unit :: y.put }
/-- `COLL_DONE`: every rank's `RECV` is written, since whoever sees the end of one rank sees every access of the collective; then the end of
this rank is published (R389). -/
def execCollDone (n rank : Nat) (s : State) : Host.Outcome State Fault Refusal :=
  match s.coll n with
  | none => .next s
  | some c => match c.call rank with
    | none => .next s
    | some x =>
      let ready (r : Nat) : Bool := s.collRemote c r || c.calls.any fun y => y.rank == r && y.data.isSome
      let held (y : CollCall) : Bool :=
        s.agentHeld y.agent [(y.b.recv, y.b.recvBytes c.vds.length), (y.block + 56, 8), (y.b.ctr, if y.b.ctr = 0 then 0 else 8)]
      if !(s.collCodes c).isEmpty || !(List.range c.vds.length).all ready || c.calls.any held then .next s
      else
        let r := s.collFlags c x.b
        let s := (c.calls.filter (!·.ended)).foldl (fun (s : State) y => s.collReceive c y) r.2
        let s := (s.unmark (.coll c.id rank)).publish x.agent (x.block + 56) (collDONE + collSENT + r.1)
        let s := if x.b.ctr = 0 then s else (s.bumpCtr x.agent x.b.ctr).getD s
        .next (s.endCall c rank)
/-- Whether a collective may fail with a code: one that holds of it; in a deterministic gang, where no result hangs on the schedule, the
lowest of them once every rank of the package has joined (R289; DEDUCED, log 37). -/
def State.collMayFail (s : State) (c : Coll) (code : Nat) : Bool :=
  let l := s.collCodes c
  if c.code.isNone && c.calls.any (·.agent.det) then
    l.head? == some code && (List.range c.vds.length).all fun r => s.collRemote c r || c.calls.any (·.rank == r)
  else l.contains code
/-- `COLL_FAIL`: a collective fails on a rank with a code that holds of it, the same on every rank (R385, R390). -/
def execCollFail (n rank : Nat) (code : BitVec 8) (s : State) : Host.Outcome State Fault Refusal :=
  match s.coll n with
  | none => .next s
  | some c => match c.call rank with
    | none => .next s
    | some x =>
      if !s.collMayFail c code.toNat ∨ s.agentHeld x.agent [(x.block + 56, 8)] then .next s
      else
        let s := { s with colls := s.colls.map fun (y : Coll) => if y.id = n then { y with code := some code.toNat } else y }
        let s := s.unmark (.coll c.id rank)
        let s := s.publish x.agent (x.block + 56) (collERR + code.toNat * 2 ^ 48 + (if x.data.isSome then collSENT else 0))
        .next ((s.deliverEngine x.agent x.block).endCall c rank)

end Sys2Proof.Machine
end

