-- ==== Sys2Proof/Machine/Tasks.lean ====
section
/-! DEFINITION. Launches, tile tasks and the scheduler (R312-R324), `exit` (R95), the lane-group arbiter and the power governor
(R325-R328). -/
namespace Sys2Proof.Machine

/-! Launches (R312-R314). -/

/-- The words of a launch record. -/
def words16 (n : Nat) : List Nat := (List.range 16).map fun i => bitsAt n (64 * i) 64
/-- Whether a counter may be incremented by the scheduler. -/
def State.ctrOk (s : State) (ctx ctr : Nat) : Bool := ctr % 8 == 0 && (s.hbmRange (schedAgent ctx 0) .load ctr 8).isSome
/-- The checks of a launch record (R313, Table 2): the code of the first that fails. -/
def State.launchCode (s : State) (c : Ctx) (l : List Nat) : Option Nat :=
  let w (i : Nat) : Nat := l.getD i 0
  let nhart := bitsAt (w 1) 32 32
  let vr := bitsAt (w 1) 16 4
  let first := bitsAt (w 3) 32 32
  let count := bitsAt (w 3) 0 32
  let t : Word := BitVec.ofNat 64 (w 2)
  if decide (w 0 % 4 ≠ 0) || decide (w 0 ≥ 2 ^ 55) || decide (nhart = 0) || decide (nhart > 0x1000000)
      || bitsAt (w 1) 28 4 != 0 || bitsAt (w 1) 24 4 == 0 || bitsAt (w 1) 20 4 != 0 || decide (vr = 0) || decide (vr > 8)
      || bitsAt (w 1) 10 6 != 0 || bitsAt (w 2) 12 52 != 0 || decide (count = 0) || bitsAt (w 4) 16 48 != 0
      || bitsAt (w 4) 2 6 != 0 || bitsAt (w 5) 48 16 != 0 || decide (w 7 % 8 ≠ 0)
      || (List.range 7).any (fun i => w (9 + i) != 0) || (w 7 != 0 && !s.ctrOk c.ctxid (w 7)) then some 1
  else if !(vtypeOk t && vlFits t (BitVec.ofNat 64 (bitsAt (w 1) 0 10))) then some 2
  else if decide (first + count > s.nvd c.vdtbase.toNat)
      || !((List.range count).all fun i => (s.vdEntry c.vdtbase.toNat (first + i)).isSome) then some 3
  else none
/-- The gang of an accepted record (R314). -/
def gangOfRecord (ctx gid record queue : Nat) (l : List Nat) : Gang where
  ctx := ctx
  gid := gid
  record := record
  queue := queue
  entry := BitVec.ofNat 64 (l.getD 0 0)
  nhart := bitsAt (l.getD 1 0) 32 32
  arg := BitVec.ofNat 64 (l.getD 6 0)
  vtype := BitVec.ofNat 64 (l.getD 2 0)
  vl := BitVec.ofNat 64 (bitsAt (l.getD 1 0) 0 10)
  vr := BitVec.ofNat 64 (bitsAt (l.getD 1 0) 16 4)
  wshare := BitVec.ofNat 64 (bitsAt (l.getD 1 0) 24 4)
  vdfirst := bitsAt (l.getD 3 0) 32 32
  vdcount := bitsAt (l.getD 3 0) 0 32
  tqmask := bitsAt (l.getD 4 0) 8 8
  det := (l.getD 4 0).testBit 0
  phased := (l.getD 4 0).testBit 1
  ctr := l.getD 7 0
  ebcap := bitsAt (l.getD 5 0) 0 48
  budget := bitsAt (l.getD 5 0) 0 48
  eclsw := 0
  erefill := 0
  bound := 0
  exited := 0
  taskBinds := 0
  phase := 1
  arrived := 0
  total := 0
  totals := []
  ticks := 0
  taskFailed := false
  engineFailed := false
  ended := false

/-- Signals an MSI-X vector of a function (R371). -/
def State.signal (s : State) (func vec : Nat) : State := s.modHost fun h => { h with msix := h.msix ++ [(func, vec)] }
/-- A refused record (R313). -/
def State.refuseLaunch (s : State) (ctx func q slot ctr code : Nat) : State :=
  let s := s.writeN (slot + 64) (3 * 2 ^ 62 + code * 2 ^ 48) 8
  let s := if ctr = 0 then s else (s.bumpAt ctx ctr).getD s
  s.signal func q
/-- An accepted record. -/
def State.acceptLaunch (s : State) (c : Ctx) (func q slot : Nat) (l : List Nat) : State :=
  let s := s.writeN (slot + 64) c.nextGid 8
  let s := s.modCtx c.ctxid fun c => { c with nextGid := (c.nextGid + 1) % 2 ^ 32 }
  { s with gangs := s.gangs ++ [gangOfRecord c.ctxid c.nextGid slot (8 * func + q) l] }
/-- `LAUNCH_RECORD_TAKE`: the scheduler takes a queue's next record (R373, R313). A slot whose record cannot be read holds
no record of Table 1. -/
def execLaunchRecordTake (func q : Nat) (s : State) : Host.Outcome State Fault Refusal :=
  let x := (s.master func).queue q
  match s.ctxOf x.ctxid with
  | none => .next s
  | some c =>
    if func ≥ 32 ∨ q ≥ 8 ∨ !x.en ∨ x.head = x.tail ∨ x.stale then .next s
    else
      let slot := s.paOf (x.base + 128 * (x.head % 2 ^ x.log2n))
      let l := words16 (s.readN slot 128)
      let s := if (s.boundOf c.ctxid).isEmpty then s.takeBlock c.vdtbase.toNat else s
      let code := if s.poisoned slot 128 then some 1 else s.launchCode c l
      let s := match code with
        | some e => s.refuseLaunch c.ctxid func q slot (l.getD 7 0) e
        | none => s.acceptLaunch c func q slot l
      .next (s.modMaster func fun m => m.setQueue q { m.queue q with head := (x.head + 1) % 2 ^ 32 })

/-- `DETCTL` of a hart of a gang (R288). -/
def Gang.detctl (g : Gang) (epoch : Nat) : Word :=
  BitVec.ofNat 64 (epoch * 2 ^ 32 + (if g.phased then 2 else 0) + (if g.det then 1 else 0))
/-- Binds a hart of a gang to a slot (R11, R32, R225, R314, R324): `f` sets what the binding gives it. -/
def State.bindHart (s : State) (g : Gang) (c : Ctx) (p : Place) (hartid epoch : Nat) (f : Hart → Hart) : State :=
  let h := Hart.fresh p g.ctx g.gid hartid
  let h := { h with
    vdid := (s.vdOf c.vdtbase.toNat s.pkg p.die).getD 0
    stepKind := if g.phased then 1 else 0
    sr := { h.sr with vtype := g.vtype, vl := g.vl, vr := g.vr, wshare := g.wshare
                      detctl := g.detctl epoch, stvec := c.stvec } }
  { s with harts := s.harts ++ [f h] }.takeHeld s.harts.length
/-- The state in which the hardware has read a context's block again, as it does to bind a hart (R333). -/
def State.withBlock (s : State) (c : Ctx) : State := s.takeBlock c.vdtbase.toNat
/-- The virtual die of launched hart h (R314). -/
def Gang.vdOfHart (g : Gang) (h : Nat) : Nat := g.vdfirst + h * g.vdcount / g.nhart
/-- Whether launched hart h of a gang has been bound. -/
def State.wasBound (s : State) (g : Gang) (h : Nat) : Bool :=
  s.harts.any fun x => x.ctx == g.ctx && x.gang == g.gid && x.member && x.hartid == h
/-- `LAUNCH_HART_BIND`: the lowest launched hart of the place's die that is still to be bound (R314). -/
def execLaunchHartBind (g : Nat) (place : Place) (s : State) : Host.Outcome State Fault Refusal :=
  match s.gangs[g]? with
  | none => .next s
  | some x => match s.ctxOf x.ctx with
    | none => .next s
    | some c =>
      let next := (List.range x.nhart).find? fun h => !s.wasBound x h && (s.withBlock c).localDie c (x.vdOfHart h) == some place.die
      match next with
      | none => .next s
      | some n =>
        if x.ended ∨ c.preempt ∨ c.away ∨ c.undoing ∨ !s.slotFree place then .next s
        else
          let s := (s.withBlock c).modGang x.ctx x.gid fun g => { g with bound := g.bound + 1 }
          .next (s.bindHart x c place n 0 fun h =>
            { h with
              pc := x.entry.setWidth 55
              x := (h.x.set 1 (BitVec.ofNat 64 x.record)).set 2 x.arg
              sr := { h.sr with tn := 1 } })

/-! Task records (R316-R319). -/

/-- Fields of word 4. -/
def taskState (w : Nat) : Nat := bitsAt w 12 3
def taskDep (w : Nat) : Nat := bitsAt w 40 24
/-- Changes word 4 of a record in one step, where it can be. -/
def State.setWord4 (s : State) (ctx addr : Nat) (f : Nat → Nat) : State :=
  match s.schedRead ctx (addr + 32) 8 with
  | some w => (s.schedWrite ctx (addr + 32) (f w) 8).getD s
  | none => s
/-- Writes `STATE`, and an `ECODE` where it is not 0. -/
def State.setTaskState (s : State) (ctx addr st code : Nat) : State :=
  s.setWord4 ctx addr fun w => let w := putBits w 12 3 st; if code = 0 then w else putBits w 32 8 code
/-- A task that has ended, whose successors are still to be decremented. -/
structure Ending where
  ctx : Nat
  gang : Nat
  addr : Nat
  words : List Nat
  deriving DecidableEq, Repr
def Task.ending (t : Task) : Ending := ⟨t.ctx, t.gang, t.addr, t.words⟩
/-- Ends a task: its state is written and the scheduler forgets it; a phase its epoch held back may complete (R291). -/
def State.endTask (s : State) (t : Task) (st code : Nat) : State :=
  let s := s.setTaskState t.ctx t.addr st code
  let s := { s with tasks := s.tasks.filter (· != t) }
  let s := if st = 6 then s.modGang t.ctx t.gang fun g => { g with taskFailed := true } else s
  s.gangTest t.ctx t.gang
/-- The predicate's value; none where the read fails (R319). -/
def State.predOf (s : State) (t : Task) : Option Nat :=
  let p := t.words.getD 7 0
  if p % 8 ≠ 0 then none else s.schedRead t.ctx p 8
/-- The ready test of a task that finds `DEP` = 0 (R317, R319). `step` numbers the step that makes it READY (R323). -/
def State.readyTest (s : State) (t : Task) (step : Nat) : State × List Ending :=
  let go : State :=
    let s := s.setTaskState t.ctx t.addr 2 0
    { s with tasks := s.tasks.map fun x => if x = t then { x with ready := some (s.time, step) } else x }
  if !(t.words.getD 4 0).testBit 11 then (go, [])
  else match s.predOf t with
    | none => (s.endTask t 6 1, [])
    | some v => if v = t.words.getD 6 0 then (go, []) else (s.endTask t 5 0, [t.ending])
/-- Where word 4 of a record lies, which is what names the record to its home (R317). -/
def State.word4At (s : State) (ctx addr : Nat) : Option (List (Nat × Nat)) := s.hbmRange (schedAgent ctx 0) .load (addr + 32) 8
/-- The WAITING task whose word 4 is that of a record, by whatever mapping. -/
def State.waitingAt (s : State) (ctx addr : Nat) : Option Task :=
  s.tasks.find? fun t => t.ready.isNone && !t.running && (s.word4At t.ctx t.addr).isSome && s.word4At t.ctx t.addr == s.word4At ctx addr
/-- One decrement (R317): none where the successor is skipped (R318). -/
def State.decrement (s : State) (ctx addr step : Nat) : Option (State × List Ending) :=
  if addr % 64 ≠ 0 then none
  else match s.schedRead ctx (addr + 32) 8 with
    | none => none
    | some w =>
      let w' := if taskDep w = 0 then putBits w 15 1 1 else putBits w 40 24 (taskDep w - 1)
      match s.schedWrite ctx (addr + 32) w' 8 with
      | none => none
      | some s => match s.waitingAt ctx addr with
        | some t => some (if taskState w' = 1 ∧ taskDep w' = 0 then s.readyTest t step else (s, []))
        | none => some (s, [])
/-- Decrements the successors of an ended task in ascending order (R318): whether one was skipped, and what ended. -/
def State.successors (s : State) (e : Ending) (step : Nat) : State × Bool × List Ending :=
  let n := bitsAt (e.words.getD 5 0) 58 6
  let base := bitsAt (e.words.getD 5 0) 0 55
  let get (i : Nat) : Option Nat := s.schedRead e.ctx (base + 8 * i) 8
  ((List.range n).map get).foldl (fun (acc : State × Bool × List Ending) a =>
    match a.bind fun a => acc.1.decrement e.ctx a step with
    | some r => (r.1, acc.2.1, acc.2.2 ++ r.2)
    | none => (acc.1, true, acc.2.2)) (s, false, [])
/-- Runs the successors of ended tasks, and of the tasks they skip, each ending one step of the scheduler (R323); the fuel is the number of tasks and one. -/
def State.endings (s : State) : Nat → List Ending → State
  | 0, _ => s
  | _, [] => s
  | k + 1, e :: rest =>
    let r := { s with nextOp := s.nextOp + 1 }.successors e s.nextOp
    let s := if r.2.1 then r.1.setWord4 e.ctx e.addr (fun w => putBits w 32 8 2) else r.1
    s.endings k (rest ++ r.2.2)
/-- Runs endings. -/
def State.runEndings (s : State) (l : List Ending) : State := s.endings (s.tasks.length + l.length + 1) l
/-- The task-completion step of hart `n` (R318, R322). -/
def State.completeTask (s : State) (n : Nat) : State :=
  let h := s.hartAt n
  let s := s.modHartAt n fun h => { h with taskDone := true }
  match s.tasks.find? fun t => t.ctx == h.ctx && t.gang == h.gang && some t.addr == h.taskRec && t.running with
  | some t => (s.endTask t 4 0).runEndings [t.ending]
  | none => s

/-! Task instructions (R320-R322). -/

/-- The most records of a chain that have not ended (R321). -/
abbrev chainSize : Nat := 4096
/-- BADREC (R321, Table 7). -/
def badTask (g : Gang) (l : List Nat) : Bool :=
  let w (i : Nat) : Nat := l.getD i 0
  let aff := bitsAt (w 3) 32 32
  let tn := bitsAt (w 4) 16 16
  let cond := (w 4).testBit 11
  decide (w 0 % 4 ≠ 0) || decide (w 0 ≥ 2 ^ 55) || bitsAt (w 4) 3 5 != 0 || bitsAt (w 5) 55 3 != 0 || bitsAt (w 7) 55 9 != 0
    || taskState (w 4) != 0 || decide (tn = 0) || decide (w 1 + tn - 1 ≥ 2 ^ 64 - 1)
    || decide (bitsAt (w 5) 0 55 % 8 ≠ 0) || (cond == (w 7 == 0))
    || (aff != 0xFFFFFFFF && !(decide (g.vdfirst ≤ aff) && decide (aff < g.vdfirst + g.vdcount)))
/-- The status of an enqueue (R321, Table 7). -/
def State.enqueueStatus (s : State) (g : Option Gang) (chain : Nat) (l : List Nat) : Nat :=
  match g with
  | none => 3
  | some g =>
    if !g.tqmask.testBit chain then 3
    else if badTask g l then 2
    else if (s.tasks.filter fun t => t.ctx == g.ctx && t.chain == chain).length ≥ chainSize then 1
    else 0
/-- Enqueues a record: it is WAITING, and the ready test follows (R317). -/
def State.enqueue (s : State) (chain addr : Nat) (l : List Nat) : State :=
  let h := s.hart
  let s := s.setTaskState h.ctx addr 1 0
  let t : Task := ⟨h.ctx, h.gang, chain, addr, if h.det then h.epoch else 0, s.taskOrder, l, none, false⟩
  let s := { s with tasks := s.tasks ++ [t], taskOrder := s.taskOrder + 1, nextOp := s.nextOp + 1 }
  if taskDep (l.getD 4 0) = 0 then
    let r := s.readyTest t (s.nextOp - 1)
    r.1.runEndings r.2
  else s
/-- The checks of `tkenq`'s record read (R321): HBM of class normal or deterministic-tagged, in either step kind. -/
def State.taskReadChk (s : State) (a : Nat) : Chk :=
  match s.resolve .load false a 64 with
  | .ok pa win cls =>
    if win || !s.isHbm pa || decide (cls > 1) then .trap cACCESS a
    else if s.hart.det then
      if cls == 1 && s.hart.arrival.isSome then .trap cNONDET 0x02
      else if cls == 1 && s.raceConflict pa .read then .trap cRACE a
      else .ok pa win cls
    else .ok pa win cls
  | r => r
/-- `tkenq` (R321). -/
def execTkenq (f : Fields) (s : State) : Host.Outcome State Fault Refusal :=
  issue f { wholly := true, body := fun s0 =>
    let s := s0.inStream f.strm false
    let a := (s.hart.xr f.a).toNat
    if a % 64 ≠ 0 then misaligned s a
    else match s.taskReadChk a with
      | .ok pa win cls =>
        if s.poisoned pa 64 then dataError s a
        else
          let l := words8 (s.readN pa 64)
          let s := (s.raceNote a pa win cls .read).drainAll s.cur
          -- The step at word 4 depends on what it finds there (R317).
          let l := l.set 4 ((s.schedRead s.hart.ctx (a + 32) 8).getD (l.getD 4 0))
          let chain := bitsAt f.imm.toNat 0 3
          let st := s.enqueueStatus s.gang chain l
          give f (if st = 0 then s.enqueue chain a l else s) (BitVec.ofNat 64 st)
      | e => e.res s } s
/-- `tkdone` (R322). -/
def execTkdone (f : Fields) (s : State) : Host.Outcome State Fault Refusal :=
  aside f (fun s =>
    if s.hart.taskDone then give f s 1 else give f ((s.drainAll s.cur).completeTask s.cur) 0) s
/-- `tknext` (R322). -/
def execTknext (f : Fields) (s : State) : Host.Outcome State Fault Refusal :=
  aside f (fun s =>
    let h := s.hart
    if h.taskRec.isSome && decide (h.tileIndex + 1 < h.sr.tn.toNat) then
      give f (s.modHart fun h =>
        { h with tileIndex := h.tileIndex + 1, sr := { h.sr with tile0 := h.sr.tile0 + 1 } }) (h.sr.tile0 + 1)
    else give f s 0xFFFFFFFFFFFFFFFF) s

/-! The end of a hart and of a gang (R95, R315). -/

/-- The end of an `exit` that has drained (R95, R219). -/
def State.exitEnd (s : State) (n : Nat) : State :=
  let s := (s.unbindAll n).modHartAt n fun h => { h with monitor := none }
  let s := if (s.hartAt n).taskDone then s else s.completeTask n
  let s := s.modHartAt n fun h => { h with status := .exited, sr := { h.sr with instret := h.sr.instret + 1 } }
  let h := s.hartAt n
  match s.gangOf h.ctx h.gang with
  | none => s
  | some g =>
    let s := if h.member then
        s.modGang h.ctx h.gang fun g =>
          { g with exited := g.exited + 1, arrived := if h.arrival = some g.phase then g.arrived else g.arrived + 1 }
      else s
    let s := s.gangTest g.ctx g.gid
    match s.ctxOf h.ctx with
    | some c => (if c.preempt then s.cluster6 c h.place.die h.place.cluster else s).finishSave h.ctx
    | none => s
/-- Goes on with an `exit` (R95): late results arrive, accesses are performed, the E-queue empties, and the hart waits while a
register stands empty or a request of it is outstanding. -/
def State.exitDrain (s : State) (n : Nat) : State :=
  let s := (s.modHartAt n Hart.deliverAll).drainAll n
  if (s.hartAt n).waiting ≠ [] then s
  else
    let s := s.bindRest n
    if (s.hartAt n).empty = {} ∧ !s.reqs.any (·.hart == n) then s.exitEnd n else s
/-- `exit` (R95): the hart counts as exited at once. -/
def execExit (f : Fields) (s : State) : Host.Outcome State Fault Refusal :=
  aside f (fun s => .other ((s.modHart fun h => { h with status := .exiting, wait := none }).exitDrain s.cur)) s

/-- Whether a gang may end (R315). -/
def State.gangDone (s : State) (g : Gang) : Bool :=
  !g.ended && g.exited == g.nhart
    && !s.tasks.any (fun t => t.ctx == g.ctx && t.gang == g.gid && (t.ready.isSome || t.running))
    && !s.harts.any fun h => h.ctx == g.ctx && h.gang == g.gid && !h.member
        && (h.bound || h.status == .saved)
/-- `GANG_END`: WAITING records fail, word 8 and the counter are written, the launch is signalled (R315). -/
def execGangEnd (g : Nat) (s : State) : Host.Outcome State Fault Refusal :=
  match s.gangs[g]? with
  | none => .next s
  | some x =>
    if !s.gangDone x then .next s
    else
      let waiting := s.tasks.filter fun t => t.ctx == x.ctx && t.gang == x.gid
      let s := waiting.foldl (fun (s : State) t => s.endTask t 6 3) s
      let failed := x.taskFailed || !waiting.isEmpty
      let code := if failed then 4 else if x.engineFailed then 5 else 0
      let w := 2 ^ 63 + (if code = 0 then 0 else 2 ^ 62) + code * 2 ^ 48 + x.gid
      let s := s.writeN (x.record + 64) w 8
      let s := s.modGang x.ctx x.gid fun g => { g with ended := true }
      let s := if x.ctr = 0 then s else match s.bumpAt x.ctx x.ctr with
        | some s' => s'
        | none => s.recordError x 6
      .next (s.signal (x.queue / 8) (x.queue % 8))

/-! Binding tasks (R323, R324). -/

/-- The virtual dies of a task's affinity set. -/
def Task.dies (t : Task) (g : Gang) : List Nat :=
  let aff := bitsAt (t.words.getD 3 0) 32 32
  if aff = 0xFFFFFFFF then (List.range g.vdcount).map (g.vdfirst + ·) else [aff]
/-- The physical dies of the set that lie in this package. -/
def State.taskDies (s : State) (c : Ctx) (t : Task) : List Nat :=
  match s.gangOf t.ctx t.gang with
  | none => []
  | some g => (t.dies g).filterMap (s.localDie c)
/-- Whether a place satisfies a task's set and its hint. -/
def State.taskFits (s : State) (c : Ctx) (t : Task) (p : Place) : Bool :=
  let w := t.words.getD 4 0
  let hinted := w.testBit 10 && bitsAt (t.words.getD 3 0) 32 32 != 0xFFFFFFFF && s.clusterFree p.die (bitsAt w 8 2)
  (s.taskDies c t).contains p.die && (!hinted || p.cluster == bitsAt w 8 2)
/-- Effective priority (R323). -/
def State.effective (s : State) (t : Task) : Nat :=
  match t.ready with
  | some (at_, _) => Nat.min 7 (bitsAt (t.words.getD 4 0) 0 3 + (s.time - at_) / 1000000)
  | none => 0
/-- Whether a task is bound before another. -/
def State.boundBefore (s : State) (a b : Task) : Bool :=
  let key (t : Task) : Nat × Nat × Nat × Nat := (7 - s.effective t, (t.ready.map (·.2)).getD 0, t.chain, t.order)
  let x := key a
  let y := key b
  decide (x.1 < y.1) || (x.1 == y.1 && (decide (x.2.1 < y.2.1) || (x.2.1 == y.2.1 && (decide (x.2.2.1 < y.2.2.1)
    || (x.2.2.1 == y.2.2.1 && decide (x.2.2.2 < y.2.2.2))))))
/-- The first READY record among those whose sets include a free slot. -/
def State.firstReady (s : State) (c : Ctx) : Option Task :=
  (s.tasks.filter fun t => t.ctx == c.ctxid && t.ready.isSome && !t.running && (s.taskDies c t).any s.dieFree).foldl
    (fun best t => match best with
      | some b => if s.boundBefore t b then some t else some b
      | none => some t) none
/-- `TASK_BIND`: the first READY record is bound to a free slot of its set (R324). -/
def execTaskBind (ctx : Nat) (place : Place) (s : State) : Host.Outcome State Fault Refusal :=
  match s.ctxOf ctx with
  | none => .next s
  | some c => match (s.withBlock c).firstReady c with
    | none => .next s
    | some t => match s.gangOf t.ctx t.gang with
      | none => .next s
      | some g =>
        if c.preempt ∨ c.away ∨ c.undoing ∨ !s.slotFree place ∨ !(s.withBlock c).taskFits c t place then .next s
        else
          let s := (s.withBlock c).setTaskState t.ctx t.addr 3 0
          let s := { s with tasks := s.tasks.map fun x => if x = t then { x with running := true } else x }
          let s := s.modGang g.ctx g.gid fun g => { g with taskBinds := g.taskBinds + 1 }
          let w (i : Nat) : Word := BitVec.ofNat 64 (t.words.getD i 0)
          .next (s.bindHart g c place ((g.nhart + g.taskBinds) % 2 ^ 32) t.epoch fun h =>
            { h with
              member := false, taskDone := false, taskRec := some t.addr
              pc := (w 0).setWidth 55
              x := (h.x.set 1 (BitVec.ofNat 64 t.addr)).set 2 (w 1)
              sr := { h.sr with task := BitVec.ofNat 64 t.addr, tile0 := w 1, tile1 := w 2
                                tile2 := w 3 &&& 0xFFFFFFFF, tn := BitVec.ofNat 64 (bitsAt (t.words.getD 4 0) 16 16) } })

/-! Issue within a core, and the governor (R325-R328). -/

/-- The hart whose head a free lane group takes: of those whose head can start, the least pass, then the lower slot. -/
def State.nextQueued (s : State) (c : CorePlace) : Option Hart :=
  ((s.queued c).filter fun h => h.waiting.length < h.equeue).foldl (fun best h => match best with
    | some b => if s.passOf h.place < s.passOf b.place ∨ (s.passOf h.place = s.passOf b.place ∧ h.place.slot < b.place.slot) then some h else some b
    | none => some h) none
/-- `LANE_GROUP_ARBITRATION` (R325). -/
def execLaneGroupArbitration (place : CorePlace) (s : State) : Host.Outcome State Fault Refusal :=
  match s.nextQueued place with
  | none => .next s
  | some b =>
    let l := s.harts.map fun (h : Hart) => if h.onSlot && h.place == b.place then { h with equeue := h.equeue - 1 } else h
    .next ({ s with harts := l }.setPass b.place (s.passOf b.place + b.share))
/-- `ENERGY_REFILL`: one refill for each crossing of a microsecond (R326). -/
def execEnergyRefill (g : Nat) (s : State) : Host.Outcome State Fault Refusal :=
  .next { s with gangs := updAt s.gangs g fun x =>
    { x with budget := if x.ticks = 0 then x.budget else Nat.min (x.budget + x.ticks * x.erefill.toNat) x.ebcap, ticks := 0 } }
/-- `ISSUE_WINDOW`: a core's counts of issued matrix instructions start again at an aligned window of 256 cycles, so those of the windows
before are forgotten (R327). -/
def execIssueWindow (place : CorePlace) (s : State) : Host.Outcome State Fault Refusal :=
  .next { s with issued := s.issued.filter fun x => x.core != place || x.window == s.clock / 256 }
/-- Adds one to `BACKSTOP`. -/
def Hart.backstop (h : Hart) : Hart :=
  let w := h.sr.dampstat
  { h with sr := { h.sr with dampstat := (w.extractLsb' 32 32 + 1) ++ w.extractLsb' 0 32 } }
/-- `CURRENT_BACKSTOP`: the sensor stalls a core; every hart bound there counts it (R328). -/
def execCurrentBackstop (place : CorePlace) (s : State) : Host.Outcome State Fault Refusal :=
  .next { s with harts := s.harts.map fun h =>
    if h.bound && h.core == place then h.backstop else h }

end Sys2Proof.Machine
end

