-- ==== Sys2Proof/Machine/Events.lean ====
section
/-! DEFINITION. Device events of harts: late results (R23), accesses performed at their homes (R195), page-table walks (R339,
R342), asynchronous causes (R349, R350), waits (R218, R221) and timers (R355). -/
namespace Sys2Proof.Machine

/-- `LONG_LATENCY_RESULT`: a late result is written and its register becomes full (R23). -/
def execLongLatencyResult (h : Nat) (r : Reg) (s : State) : Host.Outcome State Fault Refusal :=
  .next (s.modHartAt h fun x => x.deliverReg r)

/-- Performs the first part that is left of the oldest access of a hart in a stream (R195, R199); an access that another must precede
waits for it, and one that lies in a bank under test for the end of the test (R395). -/
def State.performNext (s : State) (n : Nat) (strm : Fin 4) : State :=
  let l := (s.hartAt n).pend
  match l.find? fun a => a.stream == strm && !a.isOrder with
  | none => s
  | some a =>
    let inTurn : Bool := match a.op with
      | .request _ => !s.behind n
      | _ => true
    if (precursors (l.takeWhile (· != a)) a).isEmpty && inTurn && !s.heldUp a then
      let r := s.performPart n a
      r.1.modHartAt n fun h => match r.2 with
        | some b => { h with pend := h.pend.replace a b }
        | none => h.dropAccess a
    else s
/-- Whether a range lies in memory that another agent may write: HBM, scratchpads, TCMs, a carve-out. -/
def State.isMemory (s : State) (pa n : Nat) : Bool :=
  [pa, pa + n - 1].all fun a => match s.home a with
    | .hole | .dieMmio _ _ | .iocMmio _ _ => false
    | _ => true
/-- The bytes of a list as a little-endian number. -/
def bytesValue : List Byte → Nat
  | [] => 0
  | b :: r => b.toNat + 256 * bytesValue r
/-- `MEMORY_ACCESS_PERFORM`: part of an access is performed at its home: a hart's, a copy record's next units, a write of an
agent outside the package (R195, R232). -/
def execMemoryAccessPerform (a : AccessRef) (s : State) : Host.Outcome State Fault Refusal :=
  match a with
  | .hart h strm => .next (s.performNext h strm)
  | .copyUnits ch k n =>
    (match (s.chan ch).flights[k]? with
    | none => .next s
    | some fl =>
      if (s.chan ch).quiesced || !s.mayMove ch k then .next s
      else
        let s := { s with score := s.score ++ s.owedClaims ch fl }
        let r := s.advance ch k n
        .next (match r.2 with
          | some code => r.1.failRecord ch k fl.agent fl.seq code fl.addr (recOf fl.words).txb
          | none => r.1))
  | .outsideWrite pa bytes =>
    .next (if bytes.length ≠ 0 ∧ s.isMemory pa bytes.length ∧ !s.testing pa bytes.length then s.writeN pa (bytesValue bytes) bytes.length else s)

/-- `PAGE_TABLE_WALK`: a walk that faults nowhere is held at the hart's core and at its die (R339, R342). -/
def execPageTableWalk (h : Nat) (kind : AccessKind) (va : Nat) (s : State) : Host.Outcome State Fault Refusal :=
  let x := s.hartAt h
  match s.ctxOf x.ctx with
  | none => .next s
  | some c =>
    if localBase ≤ va then .next s
    else match s.walk c.ptroot.toNat va 3 with
      | none => .next s
      | some (pte, size) =>
        if !leafAllows pte x.st.pl kind then .next s
        else
          let e : TlbEntry := ⟨.l2 x.place.die, false, c.asid.toNat, va / size * size, size, BitVec.ofNat 64 pte, []⟩
          .next { s with tlb := holdEntry { e with level := .l1 x.core } (holdEntry e s.tlb) }

/-- `ASYNC_CAUSE_TAKEN`: at its boundary a hart takes its first pending cause: ENGINE_ERROR, HOST, then TIMER (R349, R350).
PREEMPT has its own sequence and comes before them. -/
def execAsyncCauseTaken (h : Nat) (s : State) : Host.Outcome State Fault Refusal :=
  let x := s.hartAt h
  if !s.takesSave h ∧ x.status = .running ∧ x.mayTake ∧ x.wait.isNone ∧ !x.mid ∧ x.homeOp.isNone ∧ x.dcause.isNone then
    match x.nextCause with
    | some c => .next ((s.modHartAt h fun x => { x with causes := x.causes.filter (·.1 != c.1) }).trapAt h x.pc c.1 c.2 0)
    | none => .next s
  else .next s

/-- A sleeping wait tests its object again at its hart's next step. -/
def Hart.rouse (h : Hart) : Hart :=
  match h.wait with
  | some w => { h with wait := some { w with asleep := false } }
  | none => h
/-- The expiry of a wait has come. -/
def Hart.expire (h : Hart) : Hart :=
  match h.wait with
  | some w => { h with wait := some { w with asleep := false, expired := true } }
  | none => h
/-- `TTMO_EXPIRY`: a wait whose time has elapsed tests its object once more, as its hart steps at that instant, and returns (R2, R221). -/
def execTtmoExpiry (h : Nat) (s : State) : Host.Outcome State Fault Refusal :=
  let x := s.hartAt h
  let due : Bool := !x.det && x.sr.ttmo != 0 && (match x.wait with
    | some w => decide (w.start + x.sr.ttmo.toNat ≤ s.time)
    | none => false)
  .next (if due then s.modHartAt h Hart.expire else s)
/-- `WAITER_WAKE` (R218). -/
def execWaiterWake (h : Nat) (s : State) : Host.Outcome State Fault Refusal := .next (s.modHartAt h Hart.rouse)

/-- `TIMER_EXPIRY`: `TLEFT` falls by the crossings of a microsecond since it last did; TIMER becomes pending when it reaches
0 (R355). -/
def execTimerExpiry (h : Nat) (s : State) : Host.Outcome State Fault Refusal :=
  .next (s.modHartAt h fun x =>
    let left := x.sr.tleft.toNat
    let y := { x with ticks := 0, sr := { x.sr with tleft := BitVec.ofNat 64 (left - x.ticks) } }
    if left ≠ 0 ∧ left ≤ x.ticks then y.post cTIMER 0 else y)

end Sys2Proof.Machine
end

