-- ==== Sys2Proof/Machine/HostIf.lean ====
section
/-! DEFINITION. The host interface and trust: BAR2 and BAR0 (R371-R375), ownership of control (R377), measured start (R398),
attestation (R400, R401), apertures and event logs (R402, R403). -/
namespace Sys2Proof.Machine

/-! BAR2 (R372). -/

/-- Whether a range lies in a master's aperture: function 0's, and the management port's, is all of the HBM. -/
def State.inAperture (s : State) (m off n : Nat) : Bool :=
  if m = 0 ∨ m = 32 then decide (off + n ≤ 2 ^ 40)
  else decide ((s.master m).apBase ≤ off) && decide (off + n ≤ (s.master m).apLimit) && decide (off + n ≤ 2 ^ 40)
/-- Whether a BAR2 access is an Unsupported Request. -/
def State.bar2Refused (s : State) (func off n : Nat) : Bool :=
  n == 0 || !s.inAperture func off n || decide (off % 64 + n > 64) || !s.isHbm (s.paOf off)
/-- `HOST_BAR2_ACCESS`: a read answers in `reply`; a write of a part of a unit that holds an error is not performed, and a read
of one answers a free value (R372, R374, R392). An access to a bank under test comes later (R395). -/
def execHostBar2Access (func offset size : Nat) (write : Option Nat) (s : State) : Host.Outcome State Fault Refusal :=
  if !s.host.enabled.contains func then .next s
  else if s.bar2Refused func offset size then
    let s := s.modMaster func fun m => { m with ur := m.ur + 1 }
    .next (if write.isNone then s.modHost fun h => { h with reply := 2 ^ (8 * size) - 1 } else s)
  else
    let pa := s.paOf offset
    if s.testing pa size then .next s
    else match write with
    | some v => .next (if s.partPoisoned pa size then s else s.writeN pa (v % 2 ^ (8 * size)) size)
    | none =>
      if s.poisoned pa size then
        let d := s.draw
        .next (d.2.modHost fun h => { h with reply := d.1.toNat % 2 ^ (8 * size) })
      else .next (s.modHost fun h => { h with reply := s.readN pa size })

/-! BAR0 (R371-R375). A bit that Table 1 does not list is ignored. -/

/-- `LQCFG_WRITE` (R373). -/
def execLqcfgWrite (func q : Nat) (value : BitVec 64) (s : State) : Host.Outcome State Fault Refusal :=
  .next (s.writeLqcfg func q (value.toNat &&& lqMask 0x08))
/-- `LQTAIL_WRITE` (R373, R374): every write of the function that arrived before is performed. -/
def execLqtailWrite (func q : Nat) (value : BitVec 64) (s : State) : Host.Outcome State Fault Refusal :=
  .next (s.writeLqtail func q (value.toNat &&& lqMask 0x18))
/-- Drops a host request (R375). -/
def State.dropHost (s : State) (func : Nat) : State := s.modMaster func fun m => { m with drop := m.drop + 1 }
/-- `HDOOR_WRITE`: HOST for the targeted hart, bound, saved or still to be bound (R350, R351, R375). -/
def execHdoorWrite (func : Nat) (value : BitVec 64) (s : State) : Host.Outcome State Fault Refusal :=
  let ctx := bitsAt value.toNat 32 16
  let v : Word := BitVec.ofNat 64 (bitsAt value.toNat 0 32)
  let t := (s.master func).hdtgt.toNat
  let gid := bitsAt t 32 32
  let hid := bitsAt t 0 32
  if !s.assigned func ctx then .next (s.dropHost func)
  else match s.gangOf ctx gid with
    | none => .next (s.dropHost func)
    | some g =>
      if g.ended ∨ hid ≥ g.nhart + g.taskBinds then .next (s.dropHost func)
      else match s.harts.findIdx? fun h => h.ctx == ctx && h.gang == gid && h.hartid == hid with
        | some n =>
          let h := s.hartAt n
          let held := s.held.any fun x => x.ctx == ctx && x.gang == gid && x.hartid == hid
          if h.gone ∨ (h.status = .saved ∧ held) ∨ (h.status ≠ .saved ∧ h.causes.any (·.1 == cHOST)) then .next (s.dropHost func)
          else .next (s.postTo n cHOST v)
        | none =>
          if s.held.any fun x => x.ctx == ctx && x.gang == gid && x.hartid == hid then .next (s.dropHost func)
          else .next (s.hold ctx gid hid cHOST v)
/-- `HPRE_WRITE` (R375). -/
def execHpreWrite (func : Nat) (value : BitVec 64) (s : State) : Host.Outcome State Fault Refusal :=
  let ctx := bitsAt value.toNat 0 16
  .next (if s.assigned func ctx then (s.askContext ctx).finishSave ctx else s.dropHost func)
/-- `CTXCR_WRITE` (R376). -/
def execCtxcrWrite (ctx : Nat) (value : BitVec 64) (s : State) : Host.Outcome State Fault Refusal :=
  .next (s.writeCtxcr ctx value.toNat)

/-! Ownership (R377). -/

/-- Performs an owner-only write, or counts it as refused. -/
def State.ownerOnly (s : State) (m : Nat) (f : State → State) : State :=
  if s.host.owner = m then f s else s.modMaster m fun x => { x with nown := x.nown + 1 }
/-- Signals a vector on every enabled function. -/
def State.signalAll (s : State) (vec : Nat) : State := s.host.enabled.foldl (fun (s : State) f => s.signal f vec) s
/-- Passes ownership at an instant, from which the interval starts again. -/
def State.changeOwner (s : State) (m at_ : Nat) : State :=
  (s.modHost fun h => { h with owner := m, oepoch := h.oepoch + 1, claims := [], beatAt := at_ }).signalAll 8
/-- `HCLAIM_WRITE`: the owner hands over at once, another master records its claim. -/
def execHclaimWrite (m : Master) (value : BitVec 64) (s : State) : Host.Outcome State Fault Refusal :=
  let target := bitsAt value.toNat 0 6
  if s.host.owner = m.val then .next (if target ≤ 32 ∧ target ≠ m.val then s.changeOwner target s.time else s)
  else .next (s.modHost fun h => { h with claims := if h.claims.contains m.val then h.claims else h.claims ++ [m.val] })
/-- `HBEAT_WRITE`. -/
def execHbeatWrite (m : Master) (s : State) : Host.Outcome State Fault Refusal :=
  .next (s.ownerOnly m.val fun s => s.modHost fun h => { h with beatAt := s.time })
/-- The interval after which ownership lapses, in nanoseconds. -/
abbrev lapseTime : Nat := 2000000000
/-- `OWNER_LAPSE`: the interval has passed, and with it the instant of its end, in which an `HBEAT` prevents the lapse; with no claim the
owner keeps ownership and the interval starts again (log 33). -/
def execOwnerLapse (s : State) : Host.Outcome State Fault Refusal :=
  let at_ := s.host.beatAt + lapseTime
  if s.time ≤ at_ then .next s
  else match s.host.claims with
    | [] => .next (s.modHost fun h => { h with beatAt := at_ })
    | c :: r => .next (s.changeOwner (r.foldl Nat.min c) at_)

/-! SHA3-256 (R398). -/

namespace Sha3
/-- The shift register of the round constants, `n` values of it from one on: x^8 + x^6 + x^5 + x^4 + 1. -/
def register : Nat → Nat → List Nat
  | 0, _ => []
  | n + 1, r => r % 2 :: register n (if r < 128 then 2 * r else (2 * r) ^^^ 369)
/-- The constant of a round: its bits 2^j - 1 are seven values of the register in turn. -/
def roundConst (bits : List Nat) (i : Nat) : BitVec 64 :=
  BitVec.ofNat 64 (((bits.drop (7 * i)).take 7).zipIdx.foldl (fun c b => c + b.1 * 2 ^ (2 ^ b.2 - 1)) 0)
def rc : List (BitVec 64) := (List.range 24).map (roundConst (register 168 1))
/-- The lanes x + 5y in the order in which their rotations are set, each with its own, the triangular numbers. -/
def turns : Nat → Nat → Nat → Nat → List (Nat × Nat)
  | 0, _, _, _ => []
  | n + 1, t, x, y => (x + 5 * y, t * (t + 1) / 2 % 64) :: turns n (t + 1) y ((2 * x + 3 * y) % 5)
def rot (i : Nat) : Nat := (((turns 24 1 1 0).find? (·.1 == i)).map (·.2)).getD 0
abbrev Lanes := List (BitVec 64)
def lane (a : Lanes) (i : Nat) : BitVec 64 := a.getD i 0
/-- One round of Keccak-f[1600]. -/
def round1 (a : Lanes) (c : BitVec 64) : Lanes :=
  let col (x : Nat) : BitVec 64 := lane a x ^^^ lane a (x + 5) ^^^ lane a (x + 10) ^^^ lane a (x + 15) ^^^ lane a (x + 20)
  let cs := (List.range 5).map col
  let d (x : Nat) : BitVec 64 := lane cs ((x + 4) % 5) ^^^ (lane cs ((x + 1) % 5)).rotateLeft 1
  let t := (List.range 25).map fun i => lane a i ^^^ d (i % 5)
  let b := (List.range 25).map fun j =>
    let x := (j % 5 + 3 * (j / 5)) % 5
    let i := x + 5 * (j % 5)
    (lane t i).rotateLeft (rot i)
  (List.range 25).map fun i =>
    let y := 5 * (i / 5)
    let v := lane b i ^^^ (~~~ lane b ((i % 5 + 1) % 5 + y) &&& lane b ((i % 5 + 2) % 5 + y))
    if i = 0 then v ^^^ c else v
/-- Absorbs a block of 17 lanes. -/
def absorb (a : Lanes) (block : List Nat) : Lanes :=
  rc.foldl round1 ((List.range 25).map fun i =>
    if i < 17 then lane a i ^^^ BitVec.ofNat 64 ((List.range 8).foldr (fun k n => block.getD (8 * i + k) 0 + 256 * n) 0) else lane a i)
/-- Absorbs padded bytes; the fuel is the number of blocks. -/
def blocks : Nat → Lanes → List Nat → Lanes
  | 0, a, _ => a
  | n + 1, a, m => blocks n (absorb a (m.take 136)) (m.drop 136)
/-- The digest of a message, its first byte least significant. -/
def digest (m : List Nat) : BitVec 256 :=
  let k := 136 - m.length % 136
  let padded := m ++ (List.range k).map fun i => (if i = 0 then 6 else 0) + (if i = k - 1 then 0x80 else 0)
  let a := blocks (padded.length / 136) (List.replicate 25 0) padded
  BitVec.ofNat 256 ((lane a 0).toNat + 2 ^ 64 * ((lane a 1).toNat + 2 ^ 64 * ((lane a 2).toNat + 2 ^ 64 * (lane a 3).toNat)))
end Sha3
/-- The bytes of a 256-bit value, least significant first. -/
def bytes32 (v : BitVec 256) : List Nat := (List.range 32).map fun i => bitsAt v.toNat (8 * i) 8
/-- The extend step (R398). -/
def extend (m : BitVec 256) (image : List (BitVec 8)) : BitVec 256 :=
  Sha3.digest (bytes32 m ++ bytes32 (Sha3.digest (image.map BitVec.toNat)))
/-- The controller's own event log. -/
abbrev controllerLog : Nat := 84
/-- `MEASURED_START`: a stage is measured; once the second is, the boot ROM binds the firmware's harts at F at their entry
(R398, R399). -/
def execMeasuredStart (stage : Fin 8) (image : List (BitVec 8)) (loaded : Bool) (entry : BitVec 55) (s : State) :
    Host.Outcome State Fault Refusal :=
  if s.host.halted then .next s
  else if !loaded then .next ((s.modHost fun h => { h with halted := true }).logEvent controllerLog 0x01 0)
  else
    let s := s.modHost fun h => { h with mreg := h.mreg.set stage (extend h.mreg[stage] image) }
    .next (if stage = 1 then
      { s with harts := s.harts.map fun h => if h.status = .held then { h with status := .running, pc := entry } else h } else s)

/-! Attestation (R400, R401). -/

/-- A report is started: nonce, `ADST`, measurements and `OEPOCH` are kept in one step (R401). -/
def State.attReq (s : State) (m : Nat) : AttReq :=
  let mreg := (List.finRange 8).flatMap fun i => (List.range 4).map fun j => bitsAt (s.host.mreg[i]).toNat (64 * j) 64
  let nonce := (List.finRange 4).map fun i => ((s.master m).anonce[i]).toNat
  ⟨m, (s.master m).adst.toNat, [m + s.host.oepoch.toNat * 2 ^ 16, 0] ++ mreg ++ nonce⟩
/-- `ACMD_WRITE`. -/
def execAcmdWrite (m : Master) (s : State) : Host.Outcome State Fault Refusal :=
  if (s.master m.val).abusy then .next (s.dropHost m.val)
  else .next ((s.modMaster m.val fun x => { x with abusy := true, aerr := false }).modHost fun h =>
    { h with requests := h.requests ++ [s.attReq m.val] })
abbrev reportBytes : Nat := 2740
/-- The identity key as one number. -/
def identity : Nat := packBits 8 ((List.range 1312).map fun i => (Config.idKey i).toNat)
/-- `ATTESTATION_REPORT`: the controller serves the oldest request. -/
def execAttestationReport (s : State) : Host.Outcome State Fault Refusal :=
  match s.host.requests with
  | [] => .next s
  | r :: rest =>
    let m := r.master
    let s := s.modHost fun h => { h with requests := rest }
    let ok := s.inAperture m r.adst reportBytes && s.isHbm (s.paOf r.adst) && s.isHbm (s.paOf (r.adst + reportBytes - 1))
    let s :=
      if ok then
        let n := (s.host.reports + 1).toNat
        let s := s.modHost fun h => { h with reports := h.reports + 1 }
        let s := s.writePieces (s.paOf r.adst) (wordPieces 0 ([0x15C060A77, n] ++ r.words))
        let message := packBits 64 ([0x15C060A77, n] ++ r.words)
        s.writePieces (s.paOf (r.adst + 320)) ((List.range 2420).map fun i => (i, (Config.signature identity message i).toNat, 1))
      else s.modMaster m fun x => { x with aerr := true }
    let s := s.modMaster m fun x => { x with abusy := false }
    .next (if m < 32 then s.signal m 9 else s)

/-! Event logs and plain registers (R402, R403, R5). -/

/-- `ELRD_READ`: the next word of the oldest unread entry of the source that `ELSEL` names; with no unread entry, a free
value. -/
def execElrdRead (m : Master) (s : State) : Host.Outcome State Fault Refusal :=
  let x := s.master m.val
  let cur := (x.cursors.find? (·.1 == x.elsel)).getD (x.elsel, 0, 0)
  let unread := s.log.filter fun e => e.source == x.elsel && decide (cur.2.1 ≤ e.seq)
  match unread.getLast? with
  | none => let d := s.draw; .next (d.2.modHost fun h => { h with reply := d.1.toNat })
  | some e =>
    let k := if e.seq = cur.2.1 then cur.2.2 else 0
    let v := if k = 0 then e.seq else if k = 1 then e.time else if k = 2 then e.code + e.source * 2 ^ 16 else e.detail.toNat
    let next : Nat × Nat × Nat := if k = 3 then (x.elsel, e.seq + 1, 0) else (x.elsel, e.seq, k + 1)
    .next ((s.modHost fun h => { h with reply := v }).modMaster m.val fun y =>
      { y with cursors := next :: y.cursors.filter (·.1 != x.elsel) })
/-- `REGISTER_WRITE`: a register without a behaviour of its own. A function writes its own BAR0; apertures are the owner's. -/
def execRegisterWrite (m : Master) (r : MmioReg) (value : BitVec 64) (s : State) : Host.Outcome State Fault Refusal :=
  let w := value.toNat
  match r with
  | .hdtgt func => .next (if func = m.val ∧ func < 32 then s.modMaster func fun x => { x with hdtgt := value } else s)
  | .lqbase func q => .next (if func = m.val ∧ func < 32 ∧ q < 8 then s.writeLqbase func q (w &&& lqMask 0x00) else s)
  | .anonce j => .next (s.modMaster m.val fun x => { x with anonce := x.anonce.set j value })
  | .adst => .next (s.modMaster m.val fun x => { x with adst := value &&& 0xFFFFFFF000 })
  | .elsel => .next (s.modMaster m.val fun x => { x with elsel := w })
  | .apertureBase v => .next (s.ownerOnly m.val fun s =>
      if 1 ≤ v ∧ v < 32 then s.modMaster v fun x => { x with apBase := w &&& 0xFFFFFF0000 } else s)
  | .apertureLimit v => .next (s.ownerOnly m.val fun s =>
      if 1 ≤ v ∧ v < 32 then s.modMaster v fun x => { x with apLimit := w &&& 0xFFFFFF0000 } else s)
  | .ccomm ctx => .next (if ctx < 2 ^ 16 then s.writeCcomm ctx w else s)
  | .unlisted _ => .next s
/-- The event that a write of a BAR0 register is; a register that is not listed or is read-only takes none (R372, R400, R402, R403). -/
def bar0Write (m : Master) (off : Nat) (v : BitVec 64) : Option Instr :=
  let q := (off - 0x100) / 0x40
  let j := (off - 0x500) / 8
  if off = 0x10 then some (.hclaimWrite m v)
  else if off = 0x18 then some (.hbeatWrite m)
  else if off = 0x20 then some (.registerWrite m (.hdtgt m.val) v)
  else if off = 0x28 then some (.hdoorWrite m.val v)
  else if off = 0x30 then some (.hpreWrite m.val v)
  else if 0x100 ≤ off ∧ off < 0x300 then
    match (off - 0x100) % 0x40 with
    | 0x00 => some (.registerWrite m (.lqbase m.val q) v)
    | 0x08 => some (.lqcfgWrite m.val q v)
    | 0x18 => some (.lqtailWrite m.val q v)
    | _ => none
  else if 0x500 ≤ off ∧ off < 0x520 then some (.registerWrite m (.anonce (Fin.ofNat 4 j)) v)
  else if off = 0x520 then some (.registerWrite m .adst v)
  else if off = 0x528 then some (.acmdWrite m)
  else if 0x600 ≤ off ∧ off < 0x7F0 ∧ m.val = 0 then
    some (.registerWrite m (if off % 16 = 0 then .apertureBase ((off - 0x600) / 16 + 1) else .apertureLimit ((off - 0x600) / 16 + 1)) v)
  else if off = 0x800 then some (.registerWrite m .elsel v)
  else none
/-- What a master reads at a BAR0 offset other than `ELRD` (R372, R400, R402): no event changes it. -/
def State.bar0 (s : State) (m off : Nat) : Nat :=
  let x := s.master m
  let h := s.host
  if off = 0 then Config.revision.toNat * 2 ^ 24 + m * 2 ^ 16 + 0x5C06
  else if off = 8 then h.oepoch.toNat * 2 ^ 16 + (if h.owner = m then 0x100 else 0) + h.owner
  else if off = 0x20 then x.hdtgt.toNat
  else if off = 0x38 then x.nown.toNat * 2 ^ 48 + x.ur.toNat * 2 ^ 32 + x.lqbad.toNat * 2 ^ 16 + x.drop.toNat
  else if 0x100 ≤ off ∧ off < 0x300 then s.lqRead m ((off - 0x100) / 0x40) ((off - 0x100) % 0x40)
  else if 0x400 ≤ off ∧ off < 0x500 then
    bitsAt ((h.mreg.toList.getD ((off - 0x400) / 32) 0).toNat) (64 * ((off - 0x400) / 8 % 4)) 64
  else if 0x500 ≤ off ∧ off < 0x520 then (x.anonce.toList.getD ((off - 0x500) / 8) 0).toNat
  else if off = 0x520 then x.adst.toNat
  else if off = 0x530 then (if x.abusy then 2 ^ 63 else 0) + (if x.aerr then 2 ^ 62 else 0) + h.reports.toNat
  else if 0x600 ≤ off ∧ off < 0x7F0 ∧ m = 0 then
    let y := s.master ((off - 0x600) / 16 + 1)
    if off % 16 = 0 then y.apBase else y.apLimit
  else if off = 0x800 then x.elsel
  else if 0x1000 ≤ off ∧ off < 0x1520 then
    (List.range 8).foldr (fun i n => (Config.idKey (off - 0x1000 + i)).toNat + 256 * n) 0
  else 0
/-- An access of a master to its BAR0: the event that it is, or the state after it. An access that is not one of 8 naturally aligned bytes is
an Unsupported Request, which is counted, and whose read returns all ones (R372). -/
def State.bar0Access (s : State) (m off size : Nat) (write : Option Nat) : Except State Instr :=
  if h : m < 33 then
    if m < 32 ∧ !s.host.enabled.contains m then .error s
    else if size ≠ 8 ∨ off % 8 ≠ 0 then
      let s := s.modMaster m fun x => { x with ur := x.ur + 1 }
      .error (if write.isNone then s.modHost fun h => { h with reply := 2 ^ (8 * size) - 1 } else s)
    else match write with
      | none => if off = 0x808 then .ok (.elrdRead ⟨m, h⟩) else .error (s.modHost fun h => { h with reply := s.bar0 m off })
      | some v => match bar0Write ⟨m, h⟩ off (BitVec.ofNat 64 v) with
        | some i => .ok i
        | none => .error s
  else .error s

end Sys2Proof.Machine
end

