-- ==== Sys2Proof/Machine/Matrix.lean ====
section
/-! DEFINITION. Matrix accumulators and matrix instructions (R51-R53, R140-R151) and the power governor's hold on their
issue (R326, R327). -/
namespace Sys2Proof.Machine

/-- The fields of an `ACFG` value (R141, Table 1). -/
structure ACfg where
  rows : Nat
  cols : Nat
  afmt : Nat
  deriving DecidableEq, Repr
def acfgOf (w : Word) : ACfg := ⟨bitsAt w.toNat 0 7, bitsAt w.toNat 8 7, bitsAt w.toNat 16 2⟩
/-- The element width in bits (R140). -/
def ACfg.width (c : ACfg) : Nat := if c.afmt = 0 then 64 else 32
def ACfg.fp (c : ACfg) : FpFmt := if c.afmt = 0 then .f64 else .f32
def ACfg.empty (c : ACfg) : Bool := c.rows == 0 || c.cols == 0
def Hart.acfg (h : Hart) : ACfg := acfgOf h.acfgDec

/-- The elements of an accumulator under a shape, row by row, and the image with them replaced (R140). -/
def accElems (c : ACfg) (img : Nat) : List Nat := (List.range (c.rows * c.cols)).map fun i => bitsAt img (c.width * i) c.width
def accPut (c : ACfg) (img : Nat) (l : List Nat) : Nat :=
  let n := c.width * (c.rows * c.cols)
  img / 2 ^ n * 2 ^ n + l.foldr (fun x acc => acc * 2 ^ c.width + x % 2 ^ c.width) 0
/-- The accumulator a register names. -/
def Hart.accOf (h : Hart) : Reg → Nat
  | .ma n => (h.ma[n]).toNat
  | _ => 0

/-- A matrix instruction (R144): checked at decode against the decode copy of `ACFG` and the snapshot. -/
def matrixOp (f : Fields) (chk : ACfg → Geom → Option Illegal) (also reads : List Reg) (body : State → Res) (s : State) : Out :=
  issue f { eside := true, long := true, illegal := fun s => chk s.hart.acfg s.hart.geom, also := also, reads := reads, body := body } s
/-- The accumulator that an instruction updates: an implicit source but for the forms that start from zero (R144). -/
def accRead (z : Bool) (f : Fields) : List Reg := if z then [] else [f.d]
/-- `mcfg`, which takes effect at its fork (R142). -/
def mcfgOp (f : Fields) (body : State → Res) (s : State) : Out := issue f { eside := true, atFork := true, body := body } s

/-! Shape and clearing (R142, R145, R146). -/

/-- Sets `ACFG` and its decode copy (R142). -/
def Hart.setAcfg (h : Hart) (w : Word) : Hart := { h with sr := { h.sr with acfg := w }, acfgDec := w }
/-- `mcfg`, immediate form: its value was checked at decode (R145). -/
def execMcfgI (f : Fields) (s : State) : Out :=
  mcfgOp f (fun s => .done (s.modHart fun h => h.setAcfg (f.imm.setWidth 64))) s
/-- `mcfg`, register form: its value is checked at the fork (R145). -/
def execMcfg (f : Fields) (s : State) : Out :=
  mcfgOp f (fun s =>
    let w := s.hart.xr f.a
    if acfgOk w then .done (s.modHart fun h => h.setAcfg w)
    else .trap s cILLEGAL (Illegal.eval ⟨0x0A, 4, 0⟩) 0) s
/-- `mzero` (R146). -/
def execMzero (f : Fields) (s : State) : Out :=
  matrixOp f (fun _ _ => none) [] [] (fun s => .done (s.modHart fun h => h.produce f.d (.acc 0))) s

/-! Energy on matrix issue (R151, R326, R327). -/

/-- The matrix issues a core has made for a context in the current window. -/
def State.issuedBy (s : State) (c : CorePlace) (ctx : Nat) : Nat :=
  match s.issued.find? fun x => x.core == c && x.ctx == ctx && x.window == s.clock / 256 with
  | some x => x.n
  | none => 0
/-- Whether issue-count governing is on, and its limit (R327). -/
def State.issueLimit (s : State) : Option Nat :=
  match s.ctx with
  | some c => if c.dampcfg.getLsbD 63 then some (bitsAt c.dampcfg.toNat 0 8) else none
  | none => none
/-- The weight of the instruction's class, in a gang with a budget (R326). -/
def State.issueWeight (s : State) (cls : Fin 4) : Option (Nat × Nat) :=
  match s.gang with
  | some g => if g.ebcap = 0 then none else some (bitsAt g.eclsw.toNat (16 * cls.val) 16, g.budget)
  | none => none
/-- Whether a matrix issue of a class stalls; a hart that drains its E-queue for a save never does so on the budget (R356). -/
def State.issueStalls (s : State) (cls : Fin 4) : Bool :=
  match s.issueLimit with
  | some n => decide (n ≤ s.issuedBy s.hart.core s.hart.ctx)
  | none => match s.issueWeight cls with
    | some (w, b) => decide (b < w) && !s.takesSave s.cur
    | none => false
/-- Debits a matrix issue. -/
def State.debitIssue (s : State) (f : Fields) : State :=
  let h := s.hart
  match s.issueLimit with
  | some _ =>
    let n := s.issuedBy h.core h.ctx
    { s with issued := ⟨h.core, h.ctx, s.clock / 256, n + 1⟩ :: s.issued.filter fun x => !(x.core == h.core && x.ctx == h.ctx) }
  | none => match s.issueWeight f.ecls with
    | some (w, _) => s.modGang h.ctx h.gang fun g => { g with budget := g.budget - w }
    | none => s
/-- A matrix issue: it stalls at the head of its queue, or debits and has its effect (R151, R326). While it stalls, `DAMPSTAT.STALLS`
counts the cycles that pass (R328, `State.stallsNow`). -/
def matrixIssue (f : Fields) (body : Hart → Hart) (s : State) : Res :=
  if s.issueStalls f.ecls then .wait (s.modHart fun h => { h with stalled := some f.ecls })
  else .done (((s.debitIssue f).modHart fun h => { h with stalled := none }).modHart body)

/-! Outer products (R147-R149). -/

/-- The value of an accumulator after a form's steps, element by element: `fn` maps (i, j, old) to the new bits, the
`FFLAGS` and the `MSTAT` bits. With `z` the old value is zero (R144). -/
def accUpdate (h : Hart) (f : Fields) (c : ACfg) (z : Bool) (fn : Nat → Nat → Nat → Nat × Flags × Nat) : Hart :=
  let img := h.accOf f.d
  let old := accElems c img
  let rs := ((List.range (c.rows * c.cols)).zip old).map fun p => fn (p.1 / c.cols) (p.1 % c.cols) (if z then 0 else p.2)
  let fl := rs.foldl (fun a r => a ||| r.2.1) 0
  let ms := rs.foldl (fun a r => a ||| r.2.2) 0
  let h := h.raise fl
  let h := { h with sr := { h.sr with mstat := h.sr.mstat ||| BitVec.ofNat 64 ms } }
  h.produce f.d (.acc (BitVec.ofNat 131072 (accPut c img (rs.map (·.1)))))

/-- The checks of `mmaf` (R147). -/
def mmafChk (c : ACfg) (g : Geom) : Option Illegal :=
  if c.empty then badFmt
  else if !(fpFmts g.fmt) || g.bl != 0 then badFmt
  else if c.afmt ≠ (if g.sew = 64 then 0 else 1) then badFmt
  else if c.rows > 1024 / g.sew ∨ c.cols > 1024 / g.sew then badFmt
  else none
/-- `mmaf` (R51, R148). -/
def mmafOp (z : Bool) (f : Fields) (s : State) : Out :=
  matrixOp f mmafChk [] (accRead z f) (matrixIssue f fun h =>
    let g := h.geom
    let c := h.acfg
    let a := (h.tr f.a).toNat
    let b := (h.tr f.b).toNat
    accUpdate h f c z fun i j old =>
      let r := (List.range g.vr).foldl (fun (acc : Nat × Flags) k =>
        let t := fpFma c.fp .rne (g.fp.decode (elemBits a g.sew k i)) (g.fp.decode (elemBits b g.sew k j)) (c.fp.decode acc.1)
        (t.1, acc.2 ||| t.2)) (old, 0)
      (r.1, r.2, 0)) s
/-- `mmaf` (R148). -/
def execMmaf (f : Fields) (s : State) : Out := mmafOp false f s
/-- `mmaf.z` (R148). -/
def execMmafZ (f : Fields) (s : State) : Out := mmafOp true f s

/-- The checks of `mmai` and `mtern` (R147). -/
def mmaiChk (c : ACfg) (_ : Geom) : Option Illegal := if c.empty || c.afmt != 2 then badFmt else none
/-- One clamped step of R53 over the k-steps: the bits, and whether a step clamped. -/
def clampSteps (vr : Nat) (prod : Nat → Int) (old : Nat) : Nat × Nat :=
  let r := (List.range vr).foldl (fun (acc : Int × Nat) k =>
    let c := clamp 32 true (acc.1 + prod k)
    (c.1, if c.2 then 1 else acc.2)) (intOf 32 true old, 0)
  (bitsOf 32 r.1, r.2)
/-- `mmai` (R53, R148): FN[1] makes B unsigned, FN[2] makes A unsigned. -/
def mmaiOp (z : Bool) (f : Fields) (s : State) : Out :=
  matrixOp f mmaiChk [] (accRead z f) (matrixIssue f fun h =>
    let a := (h.tr f.a).toNat
    let b := (h.tr f.b).toNat
    accUpdate h f h.acfg z fun i j old =>
      let r := clampSteps h.geom.vr (fun k =>
        intOf 8 (!f.fn.getLsbD 2) (elemBits a 8 k i) * intOf 8 (!f.fn.getLsbD 1) (elemBits b 8 k j)) old
      (r.1, 0, r.2)) s
/-- `mmai` (R148). -/
def execMmai (f : Fields) (s : State) : Out := mmaiOp false f s
/-- `mmai.z` (R148). -/
def execMmaiZ (f : Fields) (s : State) : Out := mmaiOp true f s
/-- The sign of a TERN2 weight; the reserved code skips (R34). -/
def ternVal (w : Nat) : Int := if w = 1 then 1 else if w = 3 then -1 else 0
/-- `mtern` (R53, R148): FN[1] makes B unsigned. -/
def mternOp (z : Bool) (f : Fields) (s : State) : Out :=
  matrixOp f mmaiChk [] (accRead z f) (matrixIssue f fun h =>
    let a := (h.tr f.a).toNat
    let b := (h.tr f.b).toNat
    accUpdate h f h.acfg z fun i j old =>
      let r := clampSteps h.geom.vr (fun k =>
        ternVal (elemBits a 2 k i) * intOf 8 (!f.fn.getLsbD 1) (elemBits b 8 k j)) old
      (r.1, flagIf ((List.range h.geom.vr).any fun k => elemBits a 2 k i == 2) flTRES, r.2)) s
/-- `mtern` (R148). -/
def execMtern (f : Fields) (s : State) : Out := mternOp false f s
/-- `mtern.z` (R148). -/
def execMternZ (f : Fields) (s : State) : Out := mternOp true f s

/-- The fraction offset of an MX format (R52). -/
def mxOffset (fmt : Nat) : Nat := if fmt = 4 then 9 else if fmt = 5 then 16 else if fmt = 6 then 1 else 6
/-- An MX element: its value (R35, R38), and its exact integer multiple of 2^(-f). -/
def mxVal (fmt bits : Nat) : FVal :=
  if fmt = 9 then (FVal.ofInt (intOf 8 true bits)).scale (-6) else (fpFmtOf fmt 8).decode bits
def mxInt (fmt : Nat) (x : FVal) : Int :=
  match x with
  | .fin neg m e => let n : Int := ((m * 2 ^ (e + mxOffset fmt).toNat : Nat) : Int); if neg then -n else n
  | _ => 0
/-- v of R52 from the pairs of elements and the two scales, with its flags. -/
def mxBlock (fa fb ea eb : Nat) (xs : List (FVal × FVal)) : FVal × Flags :=
  let infs := xs.filter fun p => p.1.isInf || p.2.isInf
  if ea = 255 ∨ eb = 255 ∨ xs.any (fun p => p.1.isNaN || p.2.isNaN) then (.nan false, 0)
  else if infs.any fun p => p.1.isZero || p.2.isZero then (.nan false, flNV)
  else match infs with
    | p :: _ =>
      let neg := p.1.negative != p.2.negative
      if infs.all fun q => (q.1.negative != q.2.negative) == neg then (.inf neg, 0) else (.nan false, flNV)
    | [] =>
      let sum := xs.foldl (fun acc p => acc + mxInt fa p.1 * mxInt fb p.2) 0
      ((FVal.ofInt sum).scale (-(mxOffset fa : Int) - mxOffset fb + ea - 127 + eb - 127), 0)
/-- The checks of `mmax` that read state (R147): the source widths always fit. -/
def mmaxChk (c : ACfg) (_ : Geom) : Option Illegal := if c.empty || c.afmt != 1 then badFmt else none
/-- The register of a group that holds k-step k (R149). -/
def groupReg (r : Reg) (k : Nat) : Reg :=
  match r with
  | .v n => .v (Fin.ofNat 32 (n.val + k / 8))
  | r => r
/-- The K-block length of `mmax`. -/
def mmaxBl (f : Fields) : Nat := blLen (bitsAt f.imm.toNat 16 2)
/-- `mmax` (R52, R149). Its trap bits test the register that the operand names; the other registers of the group are waited for (DESIGN
CHOICE, log 52). -/
def mmaxOp (z : Bool) (f : Fields) (s : State) : Out :=
  let n := mmaxBl f
  let also := scaleReg f.a ++ scaleReg f.b ++ (List.range (n / 8)).map (fun i => groupReg f.a (8 * i))
    ++ (List.range (n / 8)).map fun i => groupReg f.b (8 * i)
  matrixOp f mmaxChk also (accRead z f ++ also) (matrixIssue f fun h =>
    let fa := bitsAt f.imm.toNat 0 5
    let fb := bitsAt f.imm.toNat 8 5
    let el (r : Reg) (fmt k i : Nat) : FVal :=
      mxVal fmt (elemBits (h.tr (groupReg r k)).toNat (if fmt = 6 then 4 else 8) (k % 8) i)
    let sc (r : Reg) (i : Nat) : Nat := bitsAt (h.scaleFor r).toNat (8 * i) 8
    accUpdate h f h.acfg z fun i j old =>
      let v := mxBlock fa fb (sc f.a i) (sc f.b j) ((List.range n).map fun k => (el f.a fa k i, el f.b fb k j))
      let r := round .f32 .rne v.1
      let t := fpAdd .f32 .rne (FpFmt.f32.decode old) (FpFmt.f32.decode r.1)
      (t.1, v.2 ||| r.2 ||| t.2, if sc f.a i = 255 ∨ sc f.b j = 255 then 2 else 0)) s
/-- `mmax` (R149). -/
def execMmax (f : Fields) (s : State) : Out := mmaxOp false f s
/-- `mmax.z` (R149). -/
def execMmaxZ (f : Fields) (s : State) : Out := mmaxOp true f s

/-! Moving accumulator rows (R150). -/

/-- The checks of `mrd` and `mwr` that read state (R150). -/
def mrowChk (rd : Bool) (f : Fields) (c : ACfg) (g : Geom) : Option Illegal :=
  if c.empty then badFmt
  else if !intFpFmts g.fmt || g.bl != 0 then badFmt
  else if c.cols > 1024 / g.sew then badFmt
  else if rd && f.imm.getLsbD 11 && g.isInt then badImm
  else none
/-- `AROW` of both forms. -/
def arow (reg : Bool) (h : Hart) (f : Fields) : Nat := if reg then (h.xr f.b).toNat else bitsAt f.imm.toNat 0 6
/-- The exact value of an accumulator element, and of a tile element. -/
def ACfg.val (c : ACfg) (bits : Nat) : FVal := if c.afmt = 2 then FVal.ofInt (intOf 32 true bits) else c.fp.decode bits
def Geom.val (g : Geom) (bits : Nat) : FVal := if g.isInt then FVal.ofInt (intOf g.sew g.signed bits) else g.fp.decode bits
/-- The swept rows: pairs of tile row and accumulator row (R150). -/
def sweptRows (c : ACfg) (g : Geom) (a : Nat) : List (Nat × Nat) :=
  ((List.range g.vr).map fun r => (r, a + r)).filter fun p => p.2 < c.rows
/-- `mrd` (R150). -/
def mrdOp (reg : Bool) (f : Fields) (s : State) : Out :=
  matrixOp f (mrowChk true f) [] [] (fun s => .done (s.modHart fun h =>
    let g := h.geom
    let c := h.acfg
    let a := arow reg h f
    let img := h.accOf f.a
    let cells := (sweptRows c g a).flatMap fun p => (List.range c.cols).map fun j => (⟨p.1, j, p.2 * c.cols + j⟩ : Cell)
    let r := pass cells (tileOff g.sew) g.sew
      (fun p => cvtTo g.fmt g.sew (f.imm.getLsbD 11) (g.rm f) (c.val (bitsAt img (c.width * p.e) c.width))) (h.tr f.d).toNat
    let h := h.raise r.2.1
    if r.2.2 then h.produce f.d (.tile (BitVec.ofNat 8192 r.1)) else h)) s
/-- `mrd` (R150). -/
def execMrd (f : Fields) (s : State) : Out := mrdOp false f s
/-- `mrd`, row from x[B] (R150). -/
def execMrdX (f : Fields) (s : State) : Out := mrdOp true f s
/-- `mwr` (R150). -/
def mwrOp (reg : Bool) (f : Fields) (s : State) : Out :=
  matrixOp f (mrowChk false f) [] [f.d] (fun s => .done (s.modHart fun h =>
    let g := h.geom
    let c := h.acfg
    let a := arow reg h f
    let t := (h.tr f.a).toNat
    let cells := (sweptRows c g a).flatMap fun p => (List.range c.cols).map fun j => (⟨p.1, j, p.2 * c.cols + j⟩ : Cell)
    let r := pass cells (fun p => c.width * p.e) c.width
      (fun p =>
        let x := g.val (elemBits t g.sew p.r p.c)
        if c.afmt = 2 then cvti 32 true (g.rm f) x
        else let y := round c.fp (g.rm f) x; (y.1, snanFlag [x] ||| y.2)) (h.accOf f.d)
    let h := h.raise r.2.1
    h.produce f.d (.acc (BitVec.ofNat 131072 r.1)))) s
/-- `mwr` (R150). -/
def execMwr (f : Fields) (s : State) : Out := mwrOp false f s
/-- `mwr`, row from x[B] (R150). -/
def execMwrX (f : Fields) (s : State) : Out := mwrOp true f s

end Sys2Proof.Machine
end

