-- ==== Sys2Proof/Machine/Permute.lean ====
section
/-! DEFINITION. Permutes (R127-R135) and the batched small-matrix instructions (R136-R139). -/
namespace Sys2Proof.Machine

/-- Element (r, c) of an image under a shape; zero outside the row. -/
def rowElem (g : Geom) (t r c : Nat) : Nat := if c < g.len r then elemBits t g.sew r c else 0
/-- Element with linear index e. -/
def lin (g : Geom) (t e : Nat) : Nat := elemBits t g.sew (e / g.vl) (e % g.vl)

/-- A permute that moves an element of its sources to each active position (R127). -/
def permute (f : Fields) (ok : Nat → Bool) (val : Hart → Geom → Cell → Nat) (s : State) : Out :=
  eside f (fmtChk f ok false) noneAlso (fun h g =>
    let r := pass (h.activeCells f g) (tileOff g.sew) g.sew (fun p => moved g (val h g p)) (h.tr f.d).toNat
    (h.raise r.2.1).putTile f.d r.1 r.2.2) s

/-- `vperm` (R128). -/
def execVperm (f : Fields) (s : State) : Out :=
  permute f anyFmt (fun h g p =>
    let i := elemBits (h.tr f.b).toNat g.sew p.r p.c
    if g.intile i then lin g (h.tr f.a).toNat i else 0) s
/-- `vperm.row` (R128). -/
def execVpermRow (f : Fields) (s : State) : Out :=
  permute f anyFmt (fun h g p => rowElem g (h.tr f.a).toNat p.r (elemBits (h.tr f.b).toNat g.sew p.r p.c)) s

/-- `vslide` upwards and downwards by n (R129). -/
def slideUp (n : Hart → Nat) (f : Fields) (s : State) : Out :=
  permute f anyFmt (fun h g p => if n h ≤ p.c then rowElem g (h.tr f.a).toNat p.r (p.c - n h) else 0) s
def slideDn (n : Hart → Nat) (f : Fields) (s : State) : Out :=
  permute f anyFmt (fun h g p => rowElem g (h.tr f.a).toNat p.r (p.c + n h)) s
/-- `vslide.up` (R129). -/
def execVslideUp (f : Fields) (s : State) : Out := slideUp (fun h => (h.xr f.b).toNat) f s
/-- `vslide.dn` (R129). -/
def execVslideDn (f : Fields) (s : State) : Out := slideDn (fun h => (h.xr f.b).toNat) f s
/-- `vslide.up`, immediate form. -/
def execVslideUpI (f : Fields) (s : State) : Out := slideUp (fun _ => bitsAt f.imm.toNat 0 12) f s
/-- `vslide.dn`, immediate form. -/
def execVslideDnI (f : Fields) (s : State) : Out := slideDn (fun _ => bitsAt f.imm.toNat 0 12) f s

/-- Writes values at positions of D, in pairs. -/
def place (h : Hart) (g : Geom) (d : Reg) (l : List (Cell × Nat)) : Hart :=
  let r := l.foldl (fun (acc : Nat × Flags) p =>
    let m := moved g p.2
    (putBits acc.1 (tileOff g.sew p.1) g.sew m.1, acc.2 ||| m.2)) ((h.tr d).toNat, 0)
  (h.raise r.2).putTile d r.1 !l.isEmpty
/-- The positions of the tile whose bit is set in a mask, ascending. -/
def Hart.selected (h : Hart) (k : Reg) (g : Geom) : List Cell := g.cells.filter fun p => (h.kr k).getLsbD p.e
/-- `vcomp` (R130). -/
def execVcomp (f : Fields) (s : State) : Out :=
  esideOp false [f.c] [] f (fmtChk f anyFmt false) noneAlso (fun h g =>
    let sel := h.selected f.b g
    let a := (h.tr f.a).toNat
    (place h g f.d (g.cells.zip (sel.map fun p => elemBits a g.sew p.r p.c))).produce f.c
      (.word (BitVec.ofNat 64 sel.length))) s
/-- `vexp` (R130). -/
def execVexp (f : Fields) (s : State) : Out :=
  eside f (fmtChk f anyFmt false) noneAlso (fun h g =>
    let a := (h.tr f.a).toNat
    place h g f.d ((h.selected f.b g).zip (g.cells.map fun p => elemBits a g.sew p.r p.c))) s

/-- The register after D. -/
def regNext : Reg → Reg
  | .v n => if h : n.val + 1 < 32 then .v ⟨n.val + 1, h⟩ else .v n
  | r => r
/-- The checks of `vpart` that read the snapshot (R131). -/
def vpartChk (f : Fields) (g : Geom) : Option Illegal :=
  match fmtChk f intFmts false g with
  | some e => some e
  | none => if g.vr * g.vl > 2 ^ (if g.signed then g.sew - 1 else g.sew) then badFmt else none
/-- `vpart` (R131). -/
def execVpart (f : Fields) (s : State) : Out :=
  esideOp false [regNext f.d, f.c] [] f (vpartChk f) (fun _ => [regNext f.d]) (fun h g =>
    let t := h.selected f.a g
    let n := g.cells.filter fun p => !(h.kr f.a).getLsbD p.e
    let h := place h g f.d (g.cells.zip (t.map (·.e)))
    let h := place h g (regNext f.d) (g.cells.zip (n.map (·.e)))
    h.produce f.c (.word (BitVec.ofNat 64 t.length))) s

/-- `vrowmv`: one whole row, whatever the shape (R132). -/
def execVrowmv (f : Fields) (s : State) : Out :=
  eside f (fun _ => none) noneAlso (fun h _ =>
    let row := bitsAt (h.tr f.a).toNat (1024 * bitsAt f.imm.toNat 3 3) 1024
    h.putTile f.d (putBits (h.tr f.d).toNat (1024 * bitsAt f.imm.toNat 0 3) 1024 row) true) s

/-- The checks of `vtrn` that read the snapshot (R133). -/
def vtrnChk (f : Fields) (g : Geom) : Option Illegal :=
  match fmtChk f anyFmt false g with
  | some e => some e
  | none => if g.vl < g.vr ∨ g.ragged then badFmt else none
/-- `vtrn` (R133). -/
def execVtrn (f : Fields) (s : State) : Out :=
  eside f (vtrnChk f) noneAlso (fun h g =>
    let a := (h.tr f.a).toNat
    place h g f.d (((h.activeCells f g).filter fun p => p.c < g.vr).map fun p => (p, elemBits a g.sew p.c p.r))) s

/-- `vmerge` (R134). -/
def execVmerge (f : Fields) (s : State) : Out :=
  eside f (fmtChk f anyFmt false) noneAlso (fun h g =>
    let a := (h.tr f.a).toNat
    place h g f.d (g.cells.map fun p =>
      (p, if h.maskBit f p.e then h.elemB f false g p else elemBits a g.sew p.r p.c))) s

/-- The row A followed by the row B, at an index (R134). -/
def zipRow (h : Hart) (f : Fields) (g : Geom) (r i : Nat) : Nat :=
  if i < g.len r then rowElem g (h.tr f.a).toNat r i else rowElem g (h.tr f.b).toNat r (i - g.len r)
/-- `vzip.lo` (R134, Table 5). -/
def execVzipLo (f : Fields) (s : State) : Out :=
  permute f anyFmt (fun h g p => rowElem g (h.tr (if p.c % 2 = 0 then f.a else f.b)).toNat p.r (p.c / 2)) s
/-- `vzip.hi`. -/
def execVzipHi (f : Fields) (s : State) : Out :=
  permute f anyFmt (fun h g p =>
    rowElem g (h.tr (if p.c % 2 = 0 then f.a else f.b)).toNat p.r (g.len p.r / 2 + p.c / 2)) s
/-- `vzip.ev`. -/
def execVzipEv (f : Fields) (s : State) : Out := permute f anyFmt (fun h g p => zipRow h f g p.r (2 * p.c)) s
/-- `vzip.od`. -/
def execVzipOd (f : Fields) (s : State) : Out := permute f anyFmt (fun h g p => zipRow h f g p.r (2 * p.c + 1)) s

/-- `viota`: the count of selected elements before (R135). -/
def execViota (f : Fields) (s : State) : Out :=
  permute f intFmts (fun h g p => ((h.selected f.a g).filter fun q => q.e < p.e).length) s
/-- `viota.i`: the linear index (R135). -/
def execViotaI (f : Fields) (s : State) : Out := permute f intFmts (fun _ _ p => p.e) s

/-! Batched small-matrix instructions (R136-R139). -/

/-- The limit of a block size (R136). -/
def batchLimit (g : Geom) : Nat := if g.sew = 64 then 4 else 5
/-- The checks of the batched forms (R136). -/
def batchChk (g : Geom) : Option Illegal :=
  if g.fmt ≠ 2 ∨ g.bl ≠ 0 ∨ (g.sew ≠ 64 ∧ g.sew ≠ 32) then badFmt
  else if (List.range g.vr).any fun r => g.rl r > batchLimit g then badFmt
  else none

/-- Numbers of one problem with the flags raised so far. -/
structure Batch where
  m : List Nat
  fl : Flags

/-- The first n elements of a row. -/
def rowNums (g : Geom) (t r n : Nat) : List Nat := (List.range n).map fun c => elemBits t g.sew r c
/-- The step of R54: acc ± a × b with one rounding. -/
def batchStep (g : Geom) (mode : Rm) (minus : Bool) (acc : Nat × Flags) (a b : Nat) : Nat × Flags :=
  let x := g.fp.decode a
  let r := fpFma g.fp mode (if minus then x.neg else x) (g.fp.decode b) (g.fp.decode acc.1)
  (r.1, acc.2 ||| r.2)
/-- A quotient. -/
def batchDiv (g : Geom) (mode : Rm) (a b : Nat) : Nat × Flags := fpDiv g.fp mode (g.fp.decode a) (g.fp.decode b)

/-- Starting values and step of `vbmv` and `vbmm` (R137, Table 6). -/
inductive BatchForm where
  | plain
  | acc
  | nacc
  deriving DecidableEq, Repr
def BatchForm.start (k : BatchForm) (old : Nat) : Nat :=
  match k with
  | .plain => 0
  | _ => old
/-- The accumulating forms read their destination (R24, R137). -/
def BatchForm.reads (k : BatchForm) (f : Fields) : List Reg :=
  match k with
  | .plain => []
  | _ => [f.d]
/-- Runs a batched instruction over its rows: `prob` gives the numbers written from position 0 of row r (R136). -/
def batch (f : Fields) (reads : List Reg) (prob : Hart → Geom → Rm → Nat → Nat → Batch) (s : State) : Out :=
  esideOp false [] reads f batchChk noneAlso (fun h g =>
    let r := (List.range g.vr).foldl (fun (acc : Nat × Flags × Bool) r =>
      if g.rl r = 0 then acc
      else
        let b := prob h g (g.rm f) r (g.rl r)
        let t := ((List.range b.m.length).zip b.m).foldl (fun t p => putBits t (1024 * r + g.sew * p.1) g.sew p.2) acc.1
        (t, acc.2.1 ||| b.fl, true)) ((h.tr f.d).toNat, 0, false)
    (h.raise r.2.1).putTile f.d r.1 r.2.2) s

/-- Collects numbers computed one by one with their flags. -/
def collect (l : List (Nat × Flags)) : Batch := ⟨l.map (·.1), l.foldl (fun a x => a ||| x.2) 0⟩
/-- `vbmv` (R137). -/
def vbmvOp (k : BatchForm) (f : Fields) (s : State) : Out :=
  batch f (k.reads f) (fun h g mode r b =>
    let m := rowNums g (h.tr f.a).toNat r (b * b)
    let v := rowNums g (h.tr f.b).toNat r b
    let old := rowNums g (h.tr f.d).toNat r b
    collect ((List.range b).map fun i =>
      (List.range b).foldl (fun acc j => batchStep g mode (k == .nacc) acc (m.getD (i + b * j) 0) (v.getD j 0))
        (k.start (old.getD i 0), 0))) s
/-- `vbmv` (R137). -/
def execVbmv (f : Fields) (s : State) : Out := vbmvOp .plain f s
/-- `vbmv.acc` (R137). -/
def execVbmvAcc (f : Fields) (s : State) : Out := vbmvOp .acc f s
/-- `vbmv.nacc` (R137). -/
def execVbmvNacc (f : Fields) (s : State) : Out := vbmvOp .nacc f s
/-- `vbmm` (R137). -/
def vbmmOp (k : BatchForm) (f : Fields) (s : State) : Out :=
  batch f (k.reads f) (fun h g mode r b =>
    let m := rowNums g (h.tr f.a).toNat r (b * b)
    let n := rowNums g (h.tr f.b).toNat r (b * b)
    let old := rowNums g (h.tr f.d).toNat r (b * b)
    collect ((List.range (b * b)).map fun p =>
      (List.range b).foldl
        (fun acc x => batchStep g mode (k == .nacc) acc (m.getD (p % b + b * x) 0) (n.getD (x + b * (p / b)) 0))
        (k.start (old.getD p 0), 0))) s
/-- `vbmm` (R137). -/
def execVbmm (f : Fields) (s : State) : Out := vbmmOp .plain f s
/-- `vbmm.acc` (R137). -/
def execVbmmAcc (f : Fields) (s : State) : Out := vbmmOp .acc f s
/-- `vbmm.nacc` (R137). -/
def execVbmmNacc (f : Fields) (s : State) : Out := vbmmOp .nacc f s

/-- One pivot column of the factorisation (R138). -/
def bluColumn (g : Geom) (mode : Rm) (b : Nat) (x : Batch) (k : Nat) : Batch :=
  let piv := x.m.getD (k + b * k) 0
  let x : Batch := if (g.fp.decode piv).isZero then { x with fl := x.fl ||| flZPIV } else x
  let below := (List.range b).filter (k < ·)
  let x := below.foldl (fun (x : Batch) i =>
    let q := batchDiv g mode (x.m.getD (i + b * k) 0) piv
    (⟨x.m.set (i + b * k) q.1, x.fl ||| q.2⟩ : Batch)) x
  below.foldl (fun (x : Batch) j => below.foldl (fun (x : Batch) i =>
    let v := batchStep g mode true (x.m.getD (i + b * j) 0, 0) (x.m.getD (i + b * k) 0) (x.m.getD (k + b * j) 0)
    (⟨x.m.set (i + b * j) v.1, x.fl ||| v.2⟩ : Batch)) x) x
/-- `vblu` (R138). -/
def execVblu (f : Fields) (s : State) : Out :=
  batch f [] (fun h g mode r b => (List.range b).foldl (bluColumn g mode b) ⟨rowNums g (h.tr f.a).toNat r (b * b), 0⟩) s
/-- The forward and the backward pass of `vbtrs` over the vector (R139). -/
def btrsForward (g : Geom) (mode : Rm) (m : List Nat) (b : Nat) (x : Batch) (i : Nat) : Batch :=
  let y := (List.range i).foldl (fun acc j => batchStep g mode true acc (m.getD (i + b * j) 0) (x.m.getD j 0))
    (x.m.getD i 0, x.fl)
  ⟨x.m.set i y.1, y.2⟩
def btrsBackward (g : Geom) (mode : Rm) (m : List Nat) (b : Nat) (x : Batch) (i : Nat) : Batch :=
  let y := ((List.range b).filter (i < ·)).foldl
    (fun acc j => batchStep g mode true acc (m.getD (i + b * j) 0) (x.m.getD j 0)) (x.m.getD i 0, x.fl)
  let q := batchDiv g mode y.1 (m.getD (i + b * i) 0)
  ⟨x.m.set i q.1, y.2 ||| q.2⟩
/-- `vbtrs` (R139). -/
def execVbtrs (f : Fields) (s : State) : Out :=
  batch f [] (fun h g mode r b =>
    let m := rowNums g (h.tr f.a).toNat r (b * b)
    let y := (List.range b).foldl (btrsForward g mode m b) ⟨rowNums g (h.tr f.b).toNat r b, 0⟩
    (List.range b).reverse.foldl (btrsBackward g mode m b) y) s

end Sys2Proof.Machine
end

