-- ==== Sys2Proof/Machine/Ras.lean ====
section
/-! DEFINITION. Reliability: links and routes (R378, R379), errors and their tests (R392-R395), checkpoint and restart (R396,
R397). -/
namespace Sys2Proof.Machine

/-! Errors (R392-R395). -/

/-- The log source of a unit (R403), and its die. -/
def logSource : ErrUnit → Nat
  | .sramRow d _ => d
  | .hbmRow d _ | .hbmChannel d _ => 20 + d
  | .laneGroup c _ => c.die
  | .port n => 36 + n
  | .ucie n => n
  | .die n => n
def unitDie : ErrUnit → Option Nat
  | .sramRow d _ | .hbmRow d _ | .hbmChannel d _ => some d
  | .laneGroup c _ => some c.die
  | .port _ => none
  | .ucie n => if n < 16 then some n else none
  | .die n => some n
/-- A corrected error or a replay of a unit: a count and an event; a unit of no die has an event alone. -/
def State.corrected (s : State) (u : ErrUnit) : State :=
  match unitDie u with
  | some d => s.countCorr d (logSource u)
  | none => s.logOpen (logSource u) evLink
/-- Whether a unit is a link that resends flits (R392): a Tabex port or a UCIe link. -/
def isLink : ErrUnit → Bool
  | .port _ | .ucie _ => true
  | _ => false
/-- `LINK_FLIT_RESEND`: a flit is resent from the retry store of a link; nothing but timing changes (R378, R392). -/
def execLinkFlitResend (u : ErrUnit) (s : State) : Host.Outcome State Fault Refusal :=
  .next (if isLink u then (s.corrected u).beginTest u else s)
/-- `CORRECTABLE_ERROR`: the corrected value is written back, which is no write; the error is counted and its unit tested
(R392, R394, R395). -/
def execCorrectableError (u : ErrUnit) (s : State) : Host.Outcome State Fault Refusal :=
  .next ((s.corrected u).beginTest u)
/-- What is in flight to a unit of memory is performed, with what must precede it, before an error strikes it or its route: an access that
meets the error raises DATA_ERROR precisely, so it issues after it (R154, R392). -/
def State.landAt (s : State) (t : Access → Bool) : State :=
  (List.range s.harts.length).foldl (fun (s : State) n => s.performSome n t) s
/-- Whether an access has a part in a range of bytes. -/
def Access.touches (lo n : Nat) (a : Access) : Bool := a.places.any fun p => decide (p.2.1 < lo + n) && decide (lo < p.2.1 + p.2.2)
/-- An uncorrectable error strikes a unit of memory and is detected (R392). The manual names no rows; the model names one by
the unit's address. -/
def State.corruptUnit (s : State) (pa : Nat) (sram : Bool) : State :=
  let u := s.unit pa sram
  let s := s.landAt (Access.touches u.1 u.2)
  let s' := { s with poison := u :: s.poison.filter (· != u) }
  if pkgOf pa ≠ s.pkg then s'
  else match s.home pa with
    | .hbm d => if sram then (s'.countUncorr d d).beginTest (.sramRow d u.1) else (s'.countUncorr d (20 + d)).beginTest (.hbmRow d u.1)
    | .spad d _ _ | .tcm d _ _ _ | .carve d _ => (s'.countUncorr d d).beginTest (.sramRow d u.1)
    | _ => s'

/-- An uncorrectable error strikes the copy of a unit that a record in flight has read, in a chunk buffer or a retry store: the record fails
when it would write it (R380, R392). The manual does not say which source logs it, and the model takes the first I/O chiplet (DESIGN
CHOICE, log 38). -/
def State.strikeUnit (s : State) (ch : ChannelId) (k j : Nat) : State :=
  let c := s.chan ch
  if ((c.flights[k]?.map fun f => decide (j < f.held.length)).getD false) then
    (s.setChan { c with flights := updAt c.flights k fun f => { f with held := f.held.set j none } }).logOpen 16 evError
  else s
/-- The same for the copy of what a collective has read of a rank's `SEND`. -/
def State.strikeSend (s : State) (id rank : Nat) : State :=
  match (s.coll id).bind fun c => c.call rank with
  | some x => if x.data.isSome || !x.early.isEmpty then (s.modCall id rank fun x => { x with spoilt := true }).logOpen 16 evError else s
  | none => s

/-! Pages of a context (R338, R341). -/

/-- The pages a table maps, and the tables themselves. The fuel is the number of levels left. -/
def State.pagesOf (s : State) (table : Nat) : Nat → List PageRef
  | 0 => []
  | lvl + 1 =>
    ⟨table, 0x10000, false, true⟩ :: (List.range 8192).flatMap fun i =>
      let pte := s.readN (table + 8 * i) 8
      let size := 2 ^ (16 + 13 * lvl)
      if !pte.testBit 0 then []
      else if bitsAt pte 1 3 = 0 then s.pagesOf (bitsAt pte 16 42 * 2 ^ 16) lvl
      else [⟨bitsAt pte 16 42 * 2 ^ 16, size, pte.testBit 12, false⟩]
/-- Whether a context has state at a place: a virtual die, its save area, its context block, a table or a page (R397). -/
def State.ctxHolds (s : State) (c : Ctx) (vd : Nat × Nat → Bool) (at_ : Nat → Bool) : Bool :=
  (s.block c.vdtbase.toNat).dies.any (fun e => vd e.2) || (c.saveptr != 0 && at_ c.saveptr.toNat) || at_ c.vdtbase.toNat
    || (c.ptroot != 0 && (s.pagesOf c.ptroot.toNat 3).any fun p => at_ p.pa)
/-- Marks the contexts that hold state at a place for their restart. -/
def State.breakCtxs (s : State) (vd : Nat × Nat → Bool) (at_ : Nat → Bool) : State :=
  { s with ctxs := s.ctxs.map fun c => if s.ctxHolds c vd at_ then { c with broken := true } else c }

/-! Lasting faults (R395). -/

/-- Clears the entries of a context's virtual dies that name a die. The manual has them rebound or cleared, and the model clears them
(DESIGN CHOICE, log 47): software may write them afresh. -/
def State.clearEntries (s : State) (c : Ctx) (d : Nat) : State :=
  let s := (((s.block c.vdtbase.toNat).dies.filter fun e => e.2 == (s.pkg, d)).foldl
    (fun (s : State) e => s.writeN (c.vdtbase.toNat + 64 + 8 * e.1) 0 8) s)
  s.takeBlock c.vdtbase.toNat
/-- Harvests a die: its harts stop, its stack, windows and engines are gone, and the contexts that hold state there restart (R337, R395,
R397). -/
def State.harvest (s : State) (d : Nat) : State :=
  if s.harvested.contains (s.pkg, d) then s
  else
    let s := s.breakCtxs (· == (s.pkg, d)) fun pa => pkgOf pa == s.pkg && (homeOf (s.carved s.pkg) (localOf pa)).die == some d
    let s := s.ctxs.foldl (fun (s : State) c => s.clearEntries c d) s
    let out (a : Agent) : Bool := a.place.die != d
    { s with
      harvested := s.harvested ++ [(s.pkg, d)]
      harts := s.harts.map fun (h : Hart) => if h.onSlot && h.place.die == d then { h with status := HartStatus.halted } else h
      bufs := s.bufs.filter fun b => b.die != d || s.isAway b.ctx
      chans := s.chans.filter (·.id.die != d)
      score := s.score.filter (·.core.die != d)
      prefetches := s.prefetches.filter fun x => out x.agent
      baseOps := s.baseOps.filter fun x => out x.agent
      meshJobs := s.meshJobs.filter fun x => out x.agent
      remaps := s.remaps.filter fun x => out x.agent
      refreshes := s.refreshes.filter fun x => out x.agent }
/-- Counts a lasting fault; `event` is whether its detection has still to be logged (R394). -/
def State.countFault (s : State) (u : ErrUnit) (event : Bool) : State :=
  match unitDie u with
  | some d => if event then s.countLasting d (logSource u) else s.addCount d 48 16
  | none => if event then s.logOpen (logSource u) evTest else s
/-- Whether a unit that has failed is replaced by a spare at its place, which may fail again (R395, Table 3). -/
def isSpared : ErrUnit → Bool
  | .sramRow _ _ | .hbmRow _ _ | .hbmChannel _ _ => true
  | _ => false
/-- Handles a lasting fault (R395, Table 3): a row is spared with its contents, a channel while its stack has spares, a link is routed
around, and a die without a channel is harvested. What a spare replaces may fail again, and reports afresh; what is disabled or harvested
does not (log 38). -/
def State.lasting (s : State) (u : ErrUnit) (event : Bool) : State :=
  if (!isSpared u && s.fenced.contains u) || (unitDie u).any fun d => s.harvested.contains (s.pkg, d) then s
  else
    let s := s.countFault u event
    let s := { s with
      fenced := s.fenced ++ [u], underTest := s.underTest.filter (· != u), transients := s.transients.filter (·.unit != u)
      alerts := s.alerts.filter fun x => u != .hbmChannel x.1 x.2.1 }
    match u with
    | .hbmChannel d _ =>
      let used := (s.fenced.filter fun x => match x with
        | .hbmChannel e _ => e == d
        | _ => false).length
      if used ≤ Config.channelSpares.toNat then s else s.harvest d
    | .die d => s.harvest d
    | .port _ => { s with routing := s.routing + 1 }
    | _ => s
/-- `HBM_PARITY_ALERT`: commands are replayed, which changes timing only; a third alert of a channel within one replay window is a
lasting fault (R393). Alerts on a command and on its address are counted alike. -/
def execHbmParityAlert (die channel : Nat) (_onAddress : Bool) (s : State) : Host.Outcome State Fault Refusal :=
  let s := s.countCorr die (20 + die)
  let l := (die, channel, s.time) :: s.alerts.filter fun x => decide (s.time ≤ x.2.2 + Config.replayWindow.toNat)
  let s := { s with alerts := l }
  .next (if 3 ≤ (l.filter fun x => x.1 == die && x.2.1 == channel).length then s.lasting (.hbmChannel die channel) false
    else s.beginTest (.hbmChannel die channel))
/-- 24 hours of `TIME`, and the transient errors that make a unit failing (R395). -/
abbrev transientSpan : Nat := 86400000000000
abbrev transientLimit : Nat := 16
/-- `SELF_TEST_COMPLETE`: a test ends, and with it every error that has joined it (R395). -/
def execSelfTestComplete (u : ErrUnit) (pass : Bool) (s : State) : Host.Outcome State Fault Refusal :=
  let n := s.underTest.count u
  if n = 0 then .next s
  else
    let s := { s with underTest := s.underTest.filter (· != u) }
    if !pass then .next (s.lasting u true)
    else
      let l := List.replicate n ⟨u, s.time⟩ ++ s.transients.filter fun t => decide (s.time < t.at_ + transientSpan)
      let s := { s with transients := l }
      .next (if (l.filter (·.unit == u)).length ≥ transientLimit then s.lasting u true else s)
/-- `RASCNT_CLEAR`: an owner's write of zero (R394). -/
def execRascntClear (m : Master) (die : Nat) (value : BitVec 64) (s : State) : Host.Outcome State Fault Refusal :=
  .next (s.ownerOnly m.val fun s => if value = 0 then s.modDie die fun d => { d with rascnt := 0 } else s)

/-! Routes (R379). -/

/-- What is in flight when a route is lost (R379): a load, or an atomic that returns a value, whose hart has gone on had returned before
it; that of a hart's last instruction raises DATA_ERROR there. Stores end as they are performed. -/
def State.cutRoute (s : State) (r : Nat × Nat) : State :=
  let cut := { s with lostRoutes := s.lostRoutes ++ [r] }
  let gone (a : Access) : Bool := a.returns && a.places.any fun p => cut.lost p.2.1
  let s := (List.range s.harts.length).foldl (fun (s : State) n =>
    let last := (s.hartAt n).inFlight.map (·.2)
    s.performSome n fun a => gone a && last != some a) s
  let s := { s with lostRoutes := s.lostRoutes ++ [r] }
  (List.range s.harts.length).foldl State.failFlight s
/-- `ROUTE_LOST`: accesses in flight on the route end, and later ones fail; contexts with state beyond it restart (R379, R397). -/
def execRouteLost (pkgA pkgB : Nat) (s : State) : Host.Outcome State Fault Refusal :=
  let s := s.cutRoute (pkgA, pkgB)
  if pkgA ≠ s.pkg ∧ pkgB ≠ s.pkg then .next s
  else
    let far := if pkgA = s.pkg then pkgB else pkgA
    .next ((s.breakCtxs (·.1 == far) (pkgOf · == far)).logOpen controllerLog evRoute)

/-! Checkpoints (R396, R397). -/

/-- Whether an engine operation of a context, other than a copy channel's, is unfinished. -/
def State.enginesBusy (s : State) (ctx : Nat) : Bool :=
  s.prefetches.any (·.agent.ctx == ctx) || s.baseOps.any (·.agent.ctx == ctx) || s.meshJobs.any (·.ctx == ctx)
    || s.remaps.any (·.ctx == ctx) || s.refreshes.any (·.ctx == ctx) || s.colls.any fun c => c.ctx == ctx && c.isOpen
/-- The ranges a checkpoint copies, the save area first, and where each lies from its base on. -/
def layOut (off : Nat) : List PageRef → List (PageRef × Nat)
  | [] => []
  | p :: r => (p, off) :: layOut (off + p.size) r
def State.checkpointPages (s : State) (c : Ctx) : List PageRef :=
  ⟨c.saveptr.toNat, s.saveWord c.saveptr.toNat 2, false, false⟩ :: (s.pagesOf c.ptroot.toNat 3).filter fun p => s.isPageMemory p.pa
def keptPages (l : List PageRef) : List (PageRef × Nat) := layOut 0 (l.filter (!·.discard))
/-- What a checkpoint of a context holds, but for the bytes. -/
def State.snapshot (s : State) (c : Ctx) (peer base : Nat) : Checkpoint :=
  let mine (n : Nat) : Bool := n == c.ctxid
  { peer := peer, base := base, ctx := c, area := c.saveptr.toNat, pages := s.checkpointPages c
    harts := ((s.harts.zipIdx).filter fun x => mine x.1.ctx).map fun x => (x.2, x.1)
    gangs := s.gangs.filter fun x => mine x.ctx, tasks := s.tasks.filter fun x => mine x.ctx
    held := s.held.filter fun x => mine x.ctx, chans := s.chans.filter fun x => mine x.id.ctx
    races := s.races.filter fun x => mine x.ctx, tuples := s.tuples.filter fun x => mine x.ctx
    tdet := s.tdet.filter fun x => mine x.ctx, cbufs := s.cbufs.filter fun x => mine x.ctx
    meshes := s.meshes.filter fun x => mine x.ctx, marks := s.marks.filter fun x => mine x.ctx
    collCounts := s.collCounts.filter fun x => mine x.ctx
    owed := s.owed.filter fun x => mine x.agent.ctx }
/-- Whether a package's HBM can take or give bytes: it is in the domain, another's, and its route stands. -/
def State.peerOk (s : State) (peer : Nat) : Bool :=
  peer != s.pkg && decide (peer < domainPackages) && s.packages.contains peer && !s.lost (peer * 2 ^ 45)
/-- `CHECKPOINT`: the device runtime saves the whole context; once it stands saved and no engine operation of it runs, its area and
pages are copied to the peer's HBM from `base` on, and the checkpoint replaces an older one (R396). A copy that meets an uncorrectable error
does not complete, and the older checkpoint stands. -/
def execCheckpoint (ctx : Nat) (dst : PeerPlace) (s : State) : Host.Outcome State Fault Refusal :=
  let ⟨peer, base⟩ := dst
  match s.ctxOf ctx with
  | none => .next s
  | some c =>
    if !s.peerOk peer then .next s
    else if !c.away then .next ((s.askContext ctx).finishSave ctx)
    else if s.enginesBusy ctx ∨ bitsAt (s.saveWord c.saveptr.toNat 0) 16 8 ≠ 2 then .next s
    else
      let k := s.snapshot c peer base
      let l := keptPages k.pages
      let ok (x : PageRef × Nat) : Bool :=
        !s.poisoned x.1.pa x.1.size && pkgOf (base + x.2) == peer && s.isHbm (base + x.2) && s.isHbm (base + x.2 + x.1.size - 1)
      if !l.all ok then .next s
      else
        let s := l.foldl (fun (s : State) x => s.copyBytes x.1.pa (base + x.2) x.1.size) s
        .next { s with checkpoints := k :: s.checkpoints.filter (·.ctx.ctxid != ctx) }
/-- Where a restart puts a page: where `moves` sends it, or where it was. -/
def movedTo (moves : List (Nat × Nat)) (pa : Nat) : Nat := ((moves.find? (·.1 == pa)).map (·.2)).getD pa
/-- Where an address inside a page of a checkpoint comes to lie. -/
def Checkpoint.moved (k : Checkpoint) (moves : List (Nat × Nat)) (pa : Nat) : Nat :=
  match k.pages.find? fun p => decide (p.pa ≤ pa) && decide (pa < p.pa + p.size) with
  | some p => movedTo moves p.pa + (pa - p.pa)
  | none => pa
/-- Rewrites the entries of a table whose pages or tables have moved (R341). -/
def State.retable (s : State) (moves : List (Nat × Nat)) (table : Nat) : State :=
  if moves.isEmpty then s
  else (List.range 8192).foldl (fun (s : State) i =>
    let pte := s.readN (table + 8 * i) 8
    let to_ := movedTo moves (bitsAt pte 16 42 * 2 ^ 16)
    if pte.testBit 0 && to_ != bitsAt pte 16 42 * 2 ^ 16 then s.writeN (table + 8 * i) (putBits pte 16 42 (to_ / 2 ^ 16)) 8 else s) s
/-- Puts the bytes of a checkpoint back, at their places or at those `moves` names: its pages read as they did, `DISCARD` pages as zero
(R341, R396). The context part of the save area, which may itself have moved, names the table and the block where they now lie. -/
def State.restorePages (s : State) (k : Checkpoint) (vdtbase : Nat) (moves : List (Nat × Nat)) : State :=
  let s := (k.pages.filter (·.discard)).foldl (fun (s : State) p => s.forget (movedTo moves p.pa) p.size) s
  let s := (keptPages k.pages).foldl (fun (s : State) x => s.copyBytes (k.base + x.2) (movedTo moves x.1.pa) x.1.size) s
  let s := (k.pages.filter (·.table)).foldl (fun (s : State) p => s.retable moves (movedTo moves p.pa)) s
  let area := k.moved moves k.area
  let off := s.saveWord area 6
  if off = 0 ∨ moves.isEmpty then s
  else (s.writeN (area + off + 16) (k.moved moves k.ctx.ptroot.toNat) 8).writeN (area + off + 24) vdtbase 8
/-- After a restart the homes of a context's tuples and buffers are where its virtual dies now lie (R335, R397). -/
def State.rehome (ctx : Nat) (s : State) : State :=
  let s := match s.ctxOf ctx with
    | some c => s.takeBlock c.vdtbase.toNat
    | none => s
  { s with
    tuples := s.tuples.map fun t =>
      if t.ctx = ctx then { t with die := ((s.tupleHome ctx t.tsid (tupleWord t.image 0)).map fun h => (h.pkg, h.die)).getD t.die } else t
    cbufs := s.cbufs.map fun b =>
      if b.ctx = ctx then { b with home := b.home.bind fun h => (s.bufferHome ctx b.cbid h.1).map fun x => (x.vd, x.pkg, x.die) } else b }
/-- `CONTEXT_RESTART`: a context that a HART_CHECK, a harvest or a lost route has struck stands saved again as its checkpoint has it, its
pages at their places or at others (R341, R397): a resume then binds its harts. -/
def execContextRestart (r : Restart) (s : State) : Host.Outcome State Fault Refusal :=
  let ⟨ctx, moves⟩ := r
  match s.ctxOf ctx, s.checkpoints.find? (·.ctx.ctxid == ctx) with
  | some now, some k =>
    if !now.broken ∨ !s.peerOk k.peer ∨ (keptPages k.pages).any (fun x => s.poisoned (k.base + x.2) x.1.size
        || !s.isPageMemory (movedTo moves x.1.pa)) then .next s
    else
    let vdtbase := k.moved moves now.vdtbase.toNat
    let s := s.restorePages k vdtbase moves
    -- A hart that has halted keeps its slot so until reset, whatever the checkpoint holds of it (R399).
    let harts := (s.harts.zipIdx).map fun (x : Hart × Nat) =>
      match k.harts.find? (·.1 == x.2) with
      | some y => y.2
      | none =>
        if x.1.ctx == ctx then { x.1 with ctx := noContext, status := if x.1.status = .halted then .halted else .exited } else x.1
    let halted := ((s.harts.zipIdx).filter fun (x : Hart × Nat) => x.1.status == .halted && k.harts.any (·.1 == x.2)).map fun x =>
      { x.1 with ctx := noContext }
    let out (n : Nat) : Bool := n != ctx
    .next <| State.rehome ctx { s with
      harts := harts ++ halted
      ctxs := s.ctxs.map fun c => if c.ctxid = ctx then
        { k.ctx with
          func := now.func, vdtbase := BitVec.ofNat 64 vdtbase, ptroot := BitVec.ofNat 64 (k.moved moves k.ctx.ptroot.toNat)
          saveptr := BitVec.ofNat 64 (k.moved moves k.area) }
        else c
      dies := s.dies.map fun (d : Die) =>
        if d.resuming = some k.area then { d with resuming := none, restored := false, cores := [] } else d
      gangs := (s.gangs.filter fun x => out x.ctx) ++ k.gangs
      tasks := (s.tasks.filter fun x => out x.ctx) ++ k.tasks
      held := (s.held.filter fun x => out x.ctx) ++ k.held
      chans := (s.chans.filter fun x => out x.id.ctx) ++ k.chans
      races := (s.races.filter fun x => out x.ctx) ++ k.races
      marks := (s.marks.filter fun x => out x.ctx) ++ k.marks
      tuples := (s.tuples.filter fun x => out x.ctx) ++ k.tuples
      tdet := (s.tdet.filter fun x => out x.ctx) ++ k.tdet
      cbufs := (s.cbufs.filter fun x => out x.ctx) ++ k.cbufs
      meshes := (s.meshes.filter fun x => out x.ctx) ++ k.meshes
      collCounts := (s.collCounts.filter fun x => out x.ctx) ++ k.collCounts
      bufs := s.bufs.filter fun x => out x.ctx
      score := s.score.filter fun x => out x.chan.ctx
      reqs := s.reqs.filter fun x => out x.ctx
      prefetches := s.prefetches.filter fun x => out x.agent.ctx
      baseOps := s.baseOps.filter fun x => out x.agent.ctx
      meshJobs := s.meshJobs.filter fun x => out x.ctx
      remaps := s.remaps.filter fun x => out x.ctx
      refreshes := s.refreshes.filter fun x => out x.ctx
      owed := (s.owed.filter fun x => out x.agent.ctx) ++ k.owed
      colls := s.colls.filter fun x => out x.ctx
      issued := s.issued.filter fun x => out x.ctx
      tlb := s.tlb.filter fun e => e.asid != now.asid.toNat }
  | _, _ => .next s

end Sys2Proof.Machine
end

