-- ==== Sys2Proof/Machine/Dispatch.lean ====
section
/-! DEFINITION. The dispatch from instructions and device events to their meanings, one arm per constructor. -/
namespace Sys2Proof.Machine

def exec (i : Instr) (s : State) : Host.Outcome State Fault Refusal :=
  match i with
  | .longLatencyResult h r => Sys2Proof.Machine.execLongLatencyResult h r s
  | .laneGroupArbitration place => Sys2Proof.Machine.execLaneGroupArbitration place s
  | .memoryAccessPerform a => Sys2Proof.Machine.execMemoryAccessPerform a s
  | .pageTableWalk h kind va => Sys2Proof.Machine.execPageTableWalk h kind va s
  | .asyncCauseTaken h => Sys2Proof.Machine.execAsyncCauseTaken h s
  | .ttmoExpiry h => Sys2Proof.Machine.execTtmoExpiry h s
  | .waiterWake h => Sys2Proof.Machine.execWaiterWake h s
  | .timerExpiry h => Sys2Proof.Machine.execTimerExpiry h s
  | .energyRefill g => Sys2Proof.Machine.execEnergyRefill g s
  | .issueWindow place => Sys2Proof.Machine.execIssueWindow place s
  | .currentBackstop place => Sys2Proof.Machine.execCurrentBackstop place s
  | .copyRecordStart ch => Sys2Proof.Machine.execCopyRecordStart ch s
  | .copyRecordRetire ch => Sys2Proof.Machine.execCopyRecordRetire ch s
  | .copyRecordFail ch code => Sys2Proof.Machine.execCopyRecordFail ch code s
  | .prefetchSectorDone p => Sys2Proof.Machine.execPrefetchSectorDone p s
  | .baseDieCompletion n => Sys2Proof.Machine.execBaseDieCompletion n s
  | .tupleDepositAtHome n => Sys2Proof.Machine.execTupleDepositAtHome n s
  | .tupleRequestAtHome n => Sys2Proof.Machine.execTupleRequestAtHome n s
  | .tupleCancelAtHome n => Sys2Proof.Machine.execTupleCancelAtHome n s
  | .tupleDelivery n => Sys2Proof.Machine.execTupleDelivery n s
  | .tupleTimeout n => Sys2Proof.Machine.execTupleTimeout n s
  | .cbAllocAtHome n => Sys2Proof.Machine.execCbAllocAtHome n s
  | .cbPutAtHome n => Sys2Proof.Machine.execCbPutAtHome n s
  | .slotCombine b slot => Sys2Proof.Machine.execSlotCombine b slot s
  | .combineDeadline b slot => Sys2Proof.Machine.execCombineDeadline b slot s
  | .slotRelease b slot => Sys2Proof.Machine.execSlotRelease b slot s
  | .meshJob n => Sys2Proof.Machine.execMeshJob n s
  | .generationPublish n => Sys2Proof.Machine.execGenerationPublish n s
  | .fieldRemap n => Sys2Proof.Machine.execFieldRemap n s
  | .ghostRefresh n => Sys2Proof.Machine.execGhostRefresh n s
  | .launchRecordTake func q => Sys2Proof.Machine.execLaunchRecordTake func q s
  | .launchHartBind g place => Sys2Proof.Machine.execLaunchHartBind g place s
  | .gangEnd g => Sys2Proof.Machine.execGangEnd g s
  | .taskBind ctx place => Sys2Proof.Machine.execTaskBind ctx place s
  | .preemptSequence h => Sys2Proof.Machine.execPreemptSequence h s
  | .ctxresWrite die value => Sys2Proof.Machine.execCtxresWrite die value s
  | .resumeSequence die placing => Sys2Proof.Machine.execResumeSequence die placing s
  | .resumeHartBind die place => Sys2Proof.Machine.execResumeHartBind die place s
  | .srcarveWrite die value => Sys2Proof.Machine.execSrcarveWrite die value s
  | .rascntClear m die value => Sys2Proof.Machine.execRascntClear m die value s
  | .ctxcrWrite ctx value => Sys2Proof.Machine.execCtxcrWrite ctx value s
  | .hostBar2Access func offset size write => Sys2Proof.Machine.execHostBar2Access func offset size write s
  | .hclaimWrite m value => Sys2Proof.Machine.execHclaimWrite m value s
  | .hbeatWrite m => Sys2Proof.Machine.execHbeatWrite m s
  | .ownerLapse => Sys2Proof.Machine.execOwnerLapse s
  | .hdoorWrite func value => Sys2Proof.Machine.execHdoorWrite func value s
  | .hpreWrite func value => Sys2Proof.Machine.execHpreWrite func value s
  | .lqcfgWrite func q value => Sys2Proof.Machine.execLqcfgWrite func q value s
  | .lqtailWrite func q value => Sys2Proof.Machine.execLqtailWrite func q value s
  | .acmdWrite m => Sys2Proof.Machine.execAcmdWrite m s
  | .attestationReport => Sys2Proof.Machine.execAttestationReport s
  | .elrdRead m => Sys2Proof.Machine.execElrdRead m s
  | .registerWrite m r value => Sys2Proof.Machine.execRegisterWrite m r value s
  | .collSent n rank => Sys2Proof.Machine.execCollSent n rank s
  | .collDone n rank => Sys2Proof.Machine.execCollDone n rank s
  | .collFail n rank code => Sys2Proof.Machine.execCollFail n rank code s
  | .linkFlitResend n => Sys2Proof.Machine.execLinkFlitResend n s
  | .routeLost pkgA pkgB => Sys2Proof.Machine.execRouteLost pkgA pkgB s
  | .correctableError u => Sys2Proof.Machine.execCorrectableError u s
  | .hbmParityAlert die channel onAddress => Sys2Proof.Machine.execHbmParityAlert die channel onAddress s
  | .selfTestComplete u pass => Sys2Proof.Machine.execSelfTestComplete u pass s
  | .checkpoint ctx dst => Sys2Proof.Machine.execCheckpoint ctx dst s
  | .contextRestart r => Sys2Proof.Machine.execContextRestart r s
  | .measuredStart stage image loaded entry => Sys2Proof.Machine.execMeasuredStart stage image loaded entry s
  | .homeSliceStateMove ctx fromDie toDie => Sys2Proof.Machine.execHomeSliceStateMove ctx fromDie toDie s
  | .packageSchedulerPreempt ctx => Sys2Proof.Machine.execPackageSchedulerPreempt ctx s
  | .add f => Sys2Proof.Machine.execAdd f s
  | .addI f => Sys2Proof.Machine.execAddI f s
  | .sub f => Sys2Proof.Machine.execSub f s
  | .subI f => Sys2Proof.Machine.execSubI f s
  | .mul f => Sys2Proof.Machine.execMul f s
  | .mulI f => Sys2Proof.Machine.execMulI f s
  | .mulh f => Sys2Proof.Machine.execMulh f s
  | .mulhI f => Sys2Proof.Machine.execMulhI f s
  | .mulhu f => Sys2Proof.Machine.execMulhu f s
  | .mulhuI f => Sys2Proof.Machine.execMulhuI f s
  | .div f => Sys2Proof.Machine.execDiv f s
  | .divI f => Sys2Proof.Machine.execDivI f s
  | .divu f => Sys2Proof.Machine.execDivu f s
  | .divuI f => Sys2Proof.Machine.execDivuI f s
  | .rem f => Sys2Proof.Machine.execRem f s
  | .remI f => Sys2Proof.Machine.execRemI f s
  | .remu f => Sys2Proof.Machine.execRemu f s
  | .remuI f => Sys2Proof.Machine.execRemuI f s
  | .and f => Sys2Proof.Machine.execAnd f s
  | .andI f => Sys2Proof.Machine.execAndI f s
  | .or f => Sys2Proof.Machine.execOr f s
  | .orI f => Sys2Proof.Machine.execOrI f s
  | .xor f => Sys2Proof.Machine.execXor f s
  | .xorI f => Sys2Proof.Machine.execXorI f s
  | .andn f => Sys2Proof.Machine.execAndn f s
  | .andnI f => Sys2Proof.Machine.execAndnI f s
  | .sll f => Sys2Proof.Machine.execSll f s
  | .sllI f => Sys2Proof.Machine.execSllI f s
  | .srl f => Sys2Proof.Machine.execSrl f s
  | .srlI f => Sys2Proof.Machine.execSrlI f s
  | .sra f => Sys2Proof.Machine.execSra f s
  | .sraI f => Sys2Proof.Machine.execSraI f s
  | .rol f => Sys2Proof.Machine.execRol f s
  | .rolI f => Sys2Proof.Machine.execRolI f s
  | .slt f => Sys2Proof.Machine.execSlt f s
  | .sltI f => Sys2Proof.Machine.execSltI f s
  | .sltu f => Sys2Proof.Machine.execSltu f s
  | .sltuI f => Sys2Proof.Machine.execSltuI f s
  | .min f => Sys2Proof.Machine.execMin f s
  | .minI f => Sys2Proof.Machine.execMinI f s
  | .max f => Sys2Proof.Machine.execMax f s
  | .maxI f => Sys2Proof.Machine.execMaxI f s
  | .minu f => Sys2Proof.Machine.execMinu f s
  | .minuI f => Sys2Proof.Machine.execMinuI f s
  | .maxu f => Sys2Proof.Machine.execMaxu f s
  | .maxuI f => Sys2Proof.Machine.execMaxuI f s
  | .clz f => Sys2Proof.Machine.execClz f s
  | .ctz f => Sys2Proof.Machine.execCtz f s
  | .popc f => Sys2Proof.Machine.execPopc f s
  | .sext f => Sys2Proof.Machine.execSext f s
  | .sextI f => Sys2Proof.Machine.execSextI f s
  | .zext f => Sys2Proof.Machine.execZext f s
  | .zextI f => Sys2Proof.Machine.execZextI f s
  | .li f => Sys2Proof.Machine.execLi f s
  | .lih f => Sys2Proof.Machine.execLih f s
  | .sel f => Sys2Proof.Machine.execSel f s
  | .fadd f => Sys2Proof.Machine.execFadd f s
  | .fsub f => Sys2Proof.Machine.execFsub f s
  | .fmul f => Sys2Proof.Machine.execFmul f s
  | .fma f => Sys2Proof.Machine.execFma f s
  | .fdiv f => Sys2Proof.Machine.execFdiv f s
  | .fsqrt f => Sys2Proof.Machine.execFsqrt f s
  | .fmin f => Sys2Proof.Machine.execFmin f s
  | .fmax f => Sys2Proof.Machine.execFmax f s
  | .fsgn f => Sys2Proof.Machine.execFsgn f s
  | .fsgnN f => Sys2Proof.Machine.execFsgnN f s
  | .fsgnX f => Sys2Proof.Machine.execFsgnX f s
  | .fclass f => Sys2Proof.Machine.execFclass f s
  | .fcmpEq f => Sys2Proof.Machine.execFcmpEq f s
  | .fcmpLt f => Sys2Proof.Machine.execFcmpLt f s
  | .fcmpLe f => Sys2Proof.Machine.execFcmpLe f s
  | .fcmpUn f => Sys2Proof.Machine.execFcmpUn f s
  | .fcvt f => Sys2Proof.Machine.execFcvt f s
  | .pcmpEq f => Sys2Proof.Machine.execPcmpEq f s
  | .pcmpNe f => Sys2Proof.Machine.execPcmpNe f s
  | .pcmpLt f => Sys2Proof.Machine.execPcmpLt f s
  | .pcmpGe f => Sys2Proof.Machine.execPcmpGe f s
  | .pcmpLtu f => Sys2Proof.Machine.execPcmpLtu f s
  | .pcmpGeu f => Sys2Proof.Machine.execPcmpGeu f s
  | .pcmpEqI f => Sys2Proof.Machine.execPcmpEqI f s
  | .pcmpNeI f => Sys2Proof.Machine.execPcmpNeI f s
  | .pcmpLtI f => Sys2Proof.Machine.execPcmpLtI f s
  | .pcmpGeI f => Sys2Proof.Machine.execPcmpGeI f s
  | .pcmpLtuI f => Sys2Proof.Machine.execPcmpLtuI f s
  | .pcmpGeuI f => Sys2Proof.Machine.execPcmpGeuI f s
  | .plogAnd f => Sys2Proof.Machine.execPlogAnd f s
  | .plogOr f => Sys2Proof.Machine.execPlogOr f s
  | .plogXor f => Sys2Proof.Machine.execPlogXor f s
  | .plogAndn f => Sys2Proof.Machine.execPlogAndn f s
  | .pmov f => Sys2Proof.Machine.execPmov f s
  | .pmovPx f => Sys2Proof.Machine.execPmovPx f s
  | .pmovXp f => Sys2Proof.Machine.execPmovXp f s
  | .pmovPk f => Sys2Proof.Machine.execPmovPk f s
  | .pmovUpk f => Sys2Proof.Machine.execPmovUpk f s
  | .br f => Sys2Proof.Machine.execBr f s
  | .brZ f => Sys2Proof.Machine.execBrZ f s
  | .brNz f => Sys2Proof.Machine.execBrNz f s
  | .jal f => Sys2Proof.Machine.execJal f s
  | .jr f => Sys2Proof.Machine.execJr f s
  | .loop0 f => Sys2Proof.Machine.execLoop0 f s
  | .loop1 f => Sys2Proof.Machine.execLoop1 f s
  | .lbrk0 f => Sys2Proof.Machine.execLbrk0 f s
  | .lbrk1 f => Sys2Proof.Machine.execLbrk1 f s
  | .yield f => Sys2Proof.Machine.execYield f s
  | .exit f => Sys2Proof.Machine.execExit f s
  | .gsr f => Sys2Proof.Machine.execGsr f s
  | .ssr f => Sys2Proof.Machine.execSsr f s
  | .ssrSet f => Sys2Proof.Machine.execSsrSet f s
  | .ssrClr f => Sys2Proof.Machine.execSsrClr f s
  | .fence f => Sys2Proof.Machine.execFence f s
  | .sbar f => Sys2Proof.Machine.execSbar f s
  | .ifence f => Sys2Proof.Machine.execIfence f s
  | .sys f => Sys2Proof.Machine.execSys f s
  | .ebrk f => Sys2Proof.Machine.execEbrk f s
  | .eret f => Sys2Proof.Machine.execEret f s
  | .tlbinvAll f => Sys2Proof.Machine.execTlbinvAll f s
  | .tlbinvAsid f => Sys2Proof.Machine.execTlbinvAsid f s
  | .tlbinvVa f => Sys2Proof.Machine.execTlbinvVa f s
  | .tlbinvGlob f => Sys2Proof.Machine.execTlbinvGlob f s
  | .hctlWfi f => Sys2Proof.Machine.execHctlWfi f s
  | .hctlPre f => Sys2Proof.Machine.execHctlPre f s
  | .setvl f => Sys2Proof.Machine.execSetvl f s
  | .setvlI f => Sys2Proof.Machine.execSetvlI f s
  | .setvr f => Sys2Proof.Machine.execSetvr f s
  | .setvrI f => Sys2Proof.Machine.execSetvrI f s
  | .setvt f => Sys2Proof.Machine.execSetvt f s
  | .setvtI f => Sys2Proof.Machine.execSetvtI f s
  | .setrl f => Sys2Proof.Machine.execSetrl f s
  | .setrlRow f => Sys2Proof.Machine.execSetrlRow f s
  | .vadd f => Sys2Proof.Machine.execVadd f s
  | .vaddI f => Sys2Proof.Machine.execVaddI f s
  | .vsub f => Sys2Proof.Machine.execVsub f s
  | .vsubI f => Sys2Proof.Machine.execVsubI f s
  | .vmul f => Sys2Proof.Machine.execVmul f s
  | .vmulI f => Sys2Proof.Machine.execVmulI f s
  | .vmulh f => Sys2Proof.Machine.execVmulh f s
  | .vmulhI f => Sys2Proof.Machine.execVmulhI f s
  | .vmacc f => Sys2Proof.Machine.execVmacc f s
  | .vmaccI f => Sys2Proof.Machine.execVmaccI f s
  | .vmaccN f => Sys2Proof.Machine.execVmaccN f s
  | .vmaccNI f => Sys2Proof.Machine.execVmaccNI f s
  | .vand f => Sys2Proof.Machine.execVand f s
  | .vandI f => Sys2Proof.Machine.execVandI f s
  | .vor f => Sys2Proof.Machine.execVor f s
  | .vorI f => Sys2Proof.Machine.execVorI f s
  | .vxor f => Sys2Proof.Machine.execVxor f s
  | .vxorI f => Sys2Proof.Machine.execVxorI f s
  | .vsll f => Sys2Proof.Machine.execVsll f s
  | .vsllI f => Sys2Proof.Machine.execVsllI f s
  | .vsrl f => Sys2Proof.Machine.execVsrl f s
  | .vsrlI f => Sys2Proof.Machine.execVsrlI f s
  | .vsra f => Sys2Proof.Machine.execVsra f s
  | .vsraI f => Sys2Proof.Machine.execVsraI f s
  | .vmin f => Sys2Proof.Machine.execVmin f s
  | .vminI f => Sys2Proof.Machine.execVminI f s
  | .vmax f => Sys2Proof.Machine.execVmax f s
  | .vmaxI f => Sys2Proof.Machine.execVmaxI f s
  | .vsadd f => Sys2Proof.Machine.execVsadd f s
  | .vsaddI f => Sys2Proof.Machine.execVsaddI f s
  | .vfadd f => Sys2Proof.Machine.execVfadd f s
  | .vfsub f => Sys2Proof.Machine.execVfsub f s
  | .vfmul f => Sys2Proof.Machine.execVfmul f s
  | .vffma f => Sys2Proof.Machine.execVffma f s
  | .vffmaMs f => Sys2Proof.Machine.execVffmaMs f s
  | .vffmaNm f => Sys2Proof.Machine.execVffmaNm f s
  | .vffmaNms f => Sys2Proof.Machine.execVffmaNms f s
  | .vfdiv f => Sys2Proof.Machine.execVfdiv f s
  | .vfsqrt f => Sys2Proof.Machine.execVfsqrt f s
  | .vfrcpe f => Sys2Proof.Machine.execVfrcpe f s
  | .vfrsqe f => Sys2Proof.Machine.execVfrsqe f s
  | .vfmin f => Sys2Proof.Machine.execVfmin f s
  | .vfmax f => Sys2Proof.Machine.execVfmax f s
  | .vfsgn f => Sys2Proof.Machine.execVfsgn f s
  | .vfsgnN f => Sys2Proof.Machine.execVfsgnN f s
  | .vfsgnX f => Sys2Proof.Machine.execVfsgnX f s
  | .vfcmpEq f => Sys2Proof.Machine.execVfcmpEq f s
  | .vfcmpLt f => Sys2Proof.Machine.execVfcmpLt f s
  | .vfcmpLe f => Sys2Proof.Machine.execVfcmpLe f s
  | .vfcmpUn f => Sys2Proof.Machine.execVfcmpUn f s
  | .vfclass f => Sys2Proof.Machine.execVfclass f s
  | .vfcvt f => Sys2Proof.Machine.execVfcvt f s
  | .vmxq f => Sys2Proof.Machine.execVmxq f s
  | .vmv f => Sys2Proof.Machine.execVmv f s
  | .vmvX f => Sys2Proof.Machine.execVmvX f s
  | .vmvXv f => Sys2Proof.Machine.execVmvXv f s
  | .vmvI f => Sys2Proof.Machine.execVmvI f s
  | .vrnd f => Sys2Proof.Machine.execVrnd f s
  | .vrndAdv f => Sys2Proof.Machine.execVrndAdv f s
  | .ctabw f => Sys2Proof.Machine.execCtabw f s
  | .ctabwX f => Sys2Proof.Machine.execCtabwX f s
  | .kand f => Sys2Proof.Machine.execKand f s
  | .kor f => Sys2Proof.Machine.execKor f s
  | .kxor f => Sys2Proof.Machine.execKxor f s
  | .kandn f => Sys2Proof.Machine.execKandn f s
  | .kset f => Sys2Proof.Machine.execKset f s
  | .ksetTile f => Sys2Proof.Machine.execKsetTile f s
  | .ksetLt f => Sys2Proof.Machine.execKsetLt f s
  | .kcnt f => Sys2Proof.Machine.execKcnt f s
  | .kany f => Sys2Proof.Machine.execKany f s
  | .kanyAll f => Sys2Proof.Machine.execKanyAll f s
  | .kfirst f => Sys2Proof.Machine.execKfirst f s
  | .kmv f => Sys2Proof.Machine.execKmv f s
  | .kmvV f => Sys2Proof.Machine.execKmvV f s
  | .kmvKv f => Sys2Proof.Machine.execKmvKv f s
  | .kmvX f => Sys2Proof.Machine.execKmvX f s
  | .kmvKx f => Sys2Proof.Machine.execKmvKx f s
  | .vredSum f => Sys2Proof.Machine.execVredSum f s
  | .vredMax f => Sys2Proof.Machine.execVredMax f s
  | .vredMin f => Sys2Proof.Machine.execVredMin f s
  | .vredAnd f => Sys2Proof.Machine.execVredAnd f s
  | .vredOr f => Sys2Proof.Machine.execVredOr f s
  | .vredXor f => Sys2Proof.Machine.execVredXor f s
  | .vfredoSum f => Sys2Proof.Machine.execVfredoSum f s
  | .vredrowSum f => Sys2Proof.Machine.execVredrowSum f s
  | .vredrowMax f => Sys2Proof.Machine.execVredrowMax f s
  | .vredrowMin f => Sys2Proof.Machine.execVredrowMin f s
  | .vredrowAnd f => Sys2Proof.Machine.execVredrowAnd f s
  | .vredrowOr f => Sys2Proof.Machine.execVredrowOr f s
  | .vredrowXor f => Sys2Proof.Machine.execVredrowXor f s
  | .vperm f => Sys2Proof.Machine.execVperm f s
  | .vpermRow f => Sys2Proof.Machine.execVpermRow f s
  | .vslideUp f => Sys2Proof.Machine.execVslideUp f s
  | .vslideDn f => Sys2Proof.Machine.execVslideDn f s
  | .vslideUpI f => Sys2Proof.Machine.execVslideUpI f s
  | .vslideDnI f => Sys2Proof.Machine.execVslideDnI f s
  | .vcomp f => Sys2Proof.Machine.execVcomp f s
  | .vexp f => Sys2Proof.Machine.execVexp f s
  | .vpart f => Sys2Proof.Machine.execVpart f s
  | .vrowmv f => Sys2Proof.Machine.execVrowmv f s
  | .vtrn f => Sys2Proof.Machine.execVtrn f s
  | .vmerge f => Sys2Proof.Machine.execVmerge f s
  | .vzipLo f => Sys2Proof.Machine.execVzipLo f s
  | .vzipHi f => Sys2Proof.Machine.execVzipHi f s
  | .vzipEv f => Sys2Proof.Machine.execVzipEv f s
  | .vzipOd f => Sys2Proof.Machine.execVzipOd f s
  | .viota f => Sys2Proof.Machine.execViota f s
  | .viotaI f => Sys2Proof.Machine.execViotaI f s
  | .vbmv f => Sys2Proof.Machine.execVbmv f s
  | .vbmvAcc f => Sys2Proof.Machine.execVbmvAcc f s
  | .vbmvNacc f => Sys2Proof.Machine.execVbmvNacc f s
  | .vbmm f => Sys2Proof.Machine.execVbmm f s
  | .vbmmAcc f => Sys2Proof.Machine.execVbmmAcc f s
  | .vbmmNacc f => Sys2Proof.Machine.execVbmmNacc f s
  | .vblu f => Sys2Proof.Machine.execVblu f s
  | .vbtrs f => Sys2Proof.Machine.execVbtrs f s
  | .mcfgI f => Sys2Proof.Machine.execMcfgI f s
  | .mcfg f => Sys2Proof.Machine.execMcfg f s
  | .mzero f => Sys2Proof.Machine.execMzero f s
  | .mmaf f => Sys2Proof.Machine.execMmaf f s
  | .mmafZ f => Sys2Proof.Machine.execMmafZ f s
  | .mmax f => Sys2Proof.Machine.execMmax f s
  | .mmaxZ f => Sys2Proof.Machine.execMmaxZ f s
  | .mmai f => Sys2Proof.Machine.execMmai f s
  | .mmaiZ f => Sys2Proof.Machine.execMmaiZ f s
  | .mtern f => Sys2Proof.Machine.execMtern f s
  | .mternZ f => Sys2Proof.Machine.execMternZ f s
  | .mrd f => Sys2Proof.Machine.execMrd f s
  | .mrdX f => Sys2Proof.Machine.execMrdX f s
  | .mwr f => Sys2Proof.Machine.execMwr f s
  | .mwrX f => Sys2Proof.Machine.execMwrX f s
  | .ld f => Sys2Proof.Machine.execLd f s
  | .st f => Sys2Proof.Machine.execSt f s
  | .vld f => Sys2Proof.Machine.execVld f s
  | .vldC f => Sys2Proof.Machine.execVldC f s
  | .vldR f => Sys2Proof.Machine.execVldR f s
  | .vlds f => Sys2Proof.Machine.execVlds f s
  | .vldx f => Sys2Proof.Machine.execVldx f s
  | .vst f => Sys2Proof.Machine.execVst f s
  | .vstC f => Sys2Proof.Machine.execVstC f s
  | .vstR f => Sys2Proof.Machine.execVstR f s
  | .vsts f => Sys2Proof.Machine.execVsts f s
  | .vstx f => Sys2Proof.Machine.execVstx f s
  | .vldbm f => Sys2Proof.Machine.execVldbm f s
  | .vstbm f => Sys2Proof.Machine.execVstbm f s
  | .amo f => Sys2Proof.Machine.execAmo f s
  | .vamo f => Sys2Proof.Machine.execVamo f s
  | .vamoo f => Sys2Proof.Machine.execVamoo f s
  | .vredm f => Sys2Proof.Machine.execVredm f s
  | .pf f => Sys2Proof.Machine.execPf f s
  | .pfTx f => Sys2Proof.Machine.execPfTx f s
  | .hbgat f => Sys2Proof.Machine.execHbgat f s
  | .hbred f => Sys2Proof.Machine.execHbred f s
  | .hbcvt f => Sys2Proof.Machine.execHbcvt f s
  | .barvTx f => Sys2Proof.Machine.execBarvTx f s
  | .barvTxX f => Sys2Proof.Machine.execBarvTxX f s
  | .barvG f => Sys2Proof.Machine.execBarvG f s
  | .barvGX f => Sys2Proof.Machine.execBarvGX f s
  | .barw f => Sys2Proof.Machine.execBarw f s
  | .txpost f => Sys2Proof.Machine.execTxpost f s
  | .txarr f => Sys2Proof.Machine.execTxarr f s
  | .txarrInit f => Sys2Proof.Machine.execTxarrInit f s
  | .txwait f => Sys2Proof.Machine.execTxwait f s
  | .cwait f => Sys2Proof.Machine.execCwait f s
  | .marm f => Sys2Proof.Machine.execMarm f s
  | .mwait f => Sys2Proof.Machine.execMwait f s
  | .gsync f => Sys2Proof.Machine.execGsync f s
  | .phaseC f => Sys2Proof.Machine.execPhaseC f s
  | .phaseX f => Sys2Proof.Machine.execPhaseX f s
  | .phaseGet f => Sys2Proof.Machine.execPhaseGet f s
  | .bdecl f => Sys2Proof.Machine.execBdecl f s
  | .bdeclFree f => Sys2Proof.Machine.execBdeclFree f s
  | .bset f => Sys2Proof.Machine.execBset f s
  | .bsetGet f => Sys2Proof.Machine.execBsetGet f s
  | .cph f => Sys2Proof.Machine.execCph f s
  | .cphGet f => Sys2Proof.Machine.execCphGet f s
  | .cpt f => Sys2Proof.Machine.execCpt f s
  | .cparm f => Sys2Proof.Machine.execCparm f s
  | .tdep f => Sys2Proof.Machine.execTdep f s
  | .tcpy f => Sys2Proof.Machine.execTcpy f s
  | .tcpyNb f => Sys2Proof.Machine.execTcpyNb f s
  | .ttake f => Sys2Proof.Machine.execTtake f s
  | .ttakeNb f => Sys2Proof.Machine.execTtakeNb f s
  | .tcan f => Sys2Proof.Machine.execTcan f s
  | .cballoc f => Sys2Proof.Machine.execCballoc f s
  | .cbput f => Sys2Proof.Machine.execCbput f s
  | .cbstat f => Sys2Proof.Machine.execCbstat f s
  | .cbstatBuf f => Sys2Proof.Machine.execCbstatBuf f s
  | .mbind f => Sys2Proof.Machine.execMbind f s
  | .munbind f => Sys2Proof.Machine.execMunbind f s
  | .nbld f => Sys2Proof.Machine.execNbld f s
  | .nbldNd f => Sys2Proof.Machine.execNbldNd f s
  | .fcld f => Sys2Proof.Machine.execFcld f s
  | .fcldC f => Sys2Proof.Machine.execFcldC f s
  | .mmarkR f => Sys2Proof.Machine.execMmarkR f s
  | .mmarkC f => Sys2Proof.Machine.execMmarkC f s
  | .mrebuild f => Sys2Proof.Machine.execMrebuild f s
  | .mrebuildInit f => Sys2Proof.Machine.execMrebuildInit f s
  | .mfield f => Sys2Proof.Machine.execMfield f s
  | .mfieldRm f => Sys2Proof.Machine.execMfieldRm f s
  | .mghost f => Sys2Proof.Machine.execMghost f s
  | .mbal f => Sys2Proof.Machine.execMbal f s
  | .vsfc2d f => Sys2Proof.Machine.execVsfc2d f s
  | .vsfc3d f => Sys2Proof.Machine.execVsfc3d f s
  | .mq f => Sys2Proof.Machine.execMq f s
  | .mqField f => Sys2Proof.Machine.execMqField f s
  | .tkenq f => Sys2Proof.Machine.execTkenq f s
  | .tkdone f => Sys2Proof.Machine.execTkdone f s
  | .tknext f => Sys2Proof.Machine.execTknext f s
  | .vdhop f => Sys2Proof.Machine.execVdhop f s
  | .coll f => Sys2Proof.Machine.execColl f s

end Sys2Proof.Machine
end

