-- ==== Sys2Proof/Machine/Fetch.lean ====
section
/-! DEFINITION. Fetching an instruction's bytes (R57), what stands at a hart's boundary (R350), and the entries of the
schedule. -/
namespace Sys2Proof.Machine

/-- The word at the pc, or the cause of the fetch: its saved address, code and value. -/
inductive Fetched where
  | word (w : IWord)
  | trap (epc : BitVec 55) (cause : Nat) (eval : Word)
  | wait

/-- One byte range of a fetch inside one page: where it lies, or the cause it raises; none while it waits (R395). -/
def State.fetchAt (s : State) (va n : Nat) : Except (Option Nat) Nat :=
  if localBase ≤ va then .error (some cFETCH)
  else match s.resolve .fetch false va n with
    | .ok pa _ _ => .ok pa
    | .trap c _ => .error (some c)
    | .stall => .error none
/-- What a fetch that does not reach its bytes leads to. -/
def unfetched (pc : BitVec 55) (va : Nat) (c : Option Nat) : Fetched :=
  match c with
  | some c => .trap pc c (BitVec.ofNat 64 va)
  | none => .wait

/-- An aligned 4-byte code word: as the hart fetched it ahead, or as memory holds it (R98). -/
def State.codeWord (s : State) (pa : Nat) : Nat :=
  match s.hart.ahead.find? (·.1 == pa) with
  | some x => x.2
  | none => s.readN pa 4
/-- The `n` code words from a physical address, first lowest. -/
def State.codeWords (s : State) (pa : Nat) : Nat → Nat
  | 0 => 0
  | n + 1 => s.codeWord pa + 2 ^ 32 * s.codeWords (pa + 4) n

/-- Fetches the 12 bytes at the pc (R57). A word may span two pages, and each is translated. -/
def fetch (s : State) : Fetched :=
  let h := s.hart
  let pc := h.pc.toNat
  if pc % 4 ≠ 0 then .trap h.prevPc cPCMIS (BitVec.ofNat 64 pc)
  else
    let n := Nat.min 12 (0x10000 - pc % 0x10000)
    match s.fetchAt pc n with
    | .error c => unfetched h.pc pc c
    | .ok pa =>
      if n = 12 then
        (if s.poisoned pa 12 then .trap h.pc cDATA (BitVec.ofNat 64 pc)
         else .word (BitVec.ofNat 96 (s.codeWords pa 3)))
      else
        let va2 := (pc + n) % 2 ^ 55
        match s.fetchAt va2 (12 - n) with
        | .error c => unfetched h.pc va2 c
        | .ok pa2 =>
          if s.poisoned pa n || s.poisoned pa2 (12 - n) then .trap h.pc cDATA (BitVec.ofNat 64 pc)
          else .word (BitVec.ofNat 96 (s.codeWords pa (n / 4) + 2 ^ (8 * n) * s.codeWords pa2 (3 - n / 4)))

/-- Fetches ahead the code word at a virtual address, where the fetch raises nothing (R98). -/
def State.fetchAhead (s : State) (h va : Nat) : State :=
  match ({ s with cur := h } : State).fetchAt (va / 4 * 4) 4 with
  | .error _ => s
  | .ok pa =>
    if s.poisoned pa 4 then s
    else s.modHartAt h fun x => { x with ahead := (pa, s.readN pa 4) :: x.ahead.filter (·.1 != pa) }

/-- Whether a word that fails its decode names an all-or-nothing form, which then clears `VSTART` (R17, R154): the sub-code is none
of those that name no instruction. -/
def whollyWord (w : IWord) (e : Illegal) : Bool :=
  let opc := (w.extractLsb' 0 8).toNat
  let fn := (w.extractLsb' 8 8).toNat
  (e.sub == 0 || decide (4 ≤ e.sub.toNat)) &&
    ([0x78, 0x79, 0x80, 0x81, 0x85, 0x87, 0x88, 0x89, 0xA5, 0xA9, 0xAA, 0xAB, 0xB0, 0xB4].contains opc || ((opc == 0x7A || opc == 0x7D) && fn == 2))

/-- The state in which the current hart has decoded an instruction, with which it goes on from the one before. -/
def State.naming (s : State) (i : Instr) : State := s.modHart fun h => { h with decoded := some i, undo := none }

/-- What a hart does at its boundary. -/
inductive Boundary where
  | idle
  | home
  | drain
  | save
  | cause
  | run
  deriving DecidableEq, Repr

/-- What stands at the current hart's boundary (R349, R350, R352, R355). A hart that waits takes no cause but PREEMPT
there. A hart that is to be saved first drains its E-queue, and its mesh jobs answer (R356). -/
def boundary (s : State) : Boundary :=
  let h := s.hart
  match h.status with
  | .exiting => if s.mayUnbind s.cur then .drain else .idle
  | .running =>
    if h.homeOp.isSome then .home
    else if s.takesSave s.cur then (if h.waiting.isEmpty && !s.awaitsJob s.cur then .save else .idle)
    else if h.dcause.isSome then .idle
    else if h.mayTake && h.wait.isNone && !h.mid && h.nextCause.isSome then .cause
    else .run
  | _ => .idle

/-- What an entry of the schedule leads to: a hart's step, a device event, or a changed state. -/
inductive Next where
  | harts (s : State)
  | event (i : Instr) (s : State)
  | state (s : State)

/-! Time (R2, R30). -/

/-- The instant at which the wait of a hart expires, until it has (R221). -/
def Hart.expiry (h : Hart) : Option Nat :=
  match h.wait with
  | some w => if h.status == .running && !h.det && h.sr.ttmo != 0 && !w.expired then some (w.start + h.sr.ttmo.toNat) else none
  | none => none
/-- The waits that expire, each with the cycle in which it does and its expiry, after which its hart steps (R2, R221). -/
def State.expiries (s : State) : List (Nat × List Act) :=
  (List.range s.harts.length).filterMap fun i => (s.hartAt i).expiry.map fun d => (cycleOf d, [.event (.ttmoExpiry i), .hart i])
/-- What a home or the host interface does as a cycle ends, after the harts' and the masters' operations of it: a parked request's timeout,
the deadline of an OPEN slot, the lapse of ownership; each with the cycle that follows (R2, R247, R249, R259, R261, R377). -/
def State.ends (s : State) : List (Nat × List Act) :=
  ((s.reqs.filter (·.isParked)).filterMap fun r => r.deadline.map fun d => (cycleOf d + 1, [.event (.tupleTimeout r.id)])) ++
  ((s.cbufs.filter s.keepsBuf).flatMap fun b => (b.slots.filter fun t => t.state == .filling).filterMap fun t =>
    t.deadline.map fun d => (cycleOf d + 1, [.event (.combineDeadline ⟨b.ctx, b.cbid⟩ t.n)])) ++
  [(cycleOf (s.host.beatAt + lapseTime + 1), [.event .ownerLapse])]
/-- What of a list has fallen due. -/
def State.due (s : State) (l : List (Nat × List Act)) : List Act := (l.filter fun x => decide (x.1 ≤ s.clock)).flatMap (·.2)
/-- Whether a timer or a budget counts the crossings of a microsecond (R326, R355). -/
def State.counting (s : State) : Bool :=
  (s.harts.any fun h => h.bound && h.sr.tleft != 0) || s.gangs.any fun g => !g.ended && g.ebcap != 0
/-- Whether a matrix issue that a hart has made stalls in this cycle (R328). -/
def State.stallsNow (s : State) (n : Nat) : Bool :=
  match (s.hartAt n).stalled with
  | some cls => ({ s with cur := n } : State).issueStalls cls
  | none => false
/-- The cycles at which time stops: something falls due; where a microsecond is counted, the cycle in which `TIME` crosses it; the end of
an aligned window of 256 cycles, at which a stalled issue may go on (R327). -/
def State.stops (s : State) : List Nat :=
  (s.expiries ++ s.ends).map (·.1) ++ (if s.counting then [cycleOf ((s.time / 1000 + 1) * 1000)] else []) ++
    (if s.harts.any (·.stalled.isSome) then [(s.clock / 256 + 1) * 256] else [])
/-- How many cycles may pass before something falls due. -/
def State.room (s : State) (cycles : Nat) : Nat :=
  (s.stops.filter (s.clock < ·)).foldl (fun n x => Nat.min n (x - s.clock)) cycles
/-- Cycles pass (R30): the `CYCLE` of bound harts, the cycles in which a matrix issue stalls (R328), and the crossing of a microsecond,
which timers and budgets see at once (R326, R355); before them stands what ends the cycle before. -/
def State.elapse (s : State) (cycles : Nat) : State :=
  let clock := s.clock + cycles
  let n := 2 * clock / 3 / 1000 - s.time / 1000
  let tick (x : Hart × Nat) : Hart :=
    let h := x.1
    if h.bound then
      { h with
        sr := if h.status == .stopped then h.sr
              else (if s.stallsNow x.2 then h.sr.stalled cycles else h.sr).ran cycles
        ticks := if h.sr.tleft = 0 then 0 else h.ticks + n }
    else h
  let fill (g : Gang) : Gang := if g.ended || g.ebcap == 0 then g else { g with ticks := g.ticks + n }
  let s := { s with clock := clock, harts := s.harts.zipIdx.map tick, gangs := s.gangs.map fill }
  let timers := (List.range s.harts.length).filter fun i => (s.hartAt i).ticks != 0
  let refills := (List.range s.gangs.length).filter fun i => ((s.gangs[i]?).map (·.ticks)).getD 0 != 0
  { s with agenda := s.due s.ends ++ timers.map (fun i => .event (.timerExpiry i)) ++ refills.map (fun i => .event (.energyRefill i)) ++ s.agenda }
/-- An entry of the schedule lets cycles pass: first the waits that expire in this cycle do, then time goes on up to the next stop, and the
rest of the entry follows. -/
def State.passTime (s : State) (cycles : Nat) : State :=
  match s.due s.expiries with
  | [] =>
    let m := s.room cycles
    (if m = cycles then s else { s with agenda := .pass (cycles - m) :: s.agenda }).elapse m
  | l => { s with agenda := l ++ .pass cycles :: s.agenda }

/-- The die of a hart comes to hold an entry of its context's tables (R340, R342). -/
def State.holdAt (s : State) (h va : Nat) (f : Hart → Ctx → Option TlbEntry) : State :=
  match s.ctxOf (s.hartAt h).ctx with
  | none => s
  | some c => match f (s.hartAt h) c with
    | some e => if va < localBase then { s with tlb := holdEntry e s.tlb } else s
    | none => s

/-- The schedule's next entry. An encoded instruction is no event and does nothing there. -/
def nextAct (a : Act) (s : State) : Next :=
  match a with
  | .hart h => .harts { s with cur := h }
  | .event i => match i.parts with
    | none => .event i s
    | some _ => .state s
  | .pass cycles => .state (s.passTime cycles)
  | .evict n => .state { s with tlb := s.tlb.eraseIdx n }
  | .point h va deep => .state (s.holdAt h va fun x c => s.pointerAt x.place.die c.asid.toNat c.ptroot.toNat va deep)
  | .run h va i => .state (s.holdAt h va fun x c => s.runEntry x.place.die c.asid.toNat c.ptroot.toNat va i)
  | .bank h va group lane => .state (s.holdAt h va fun x c =>
      (s.heldLeaf x.place none c.asid.toNat va).map fun e => { e with level := .bank x.core (group % 4) (lane % 16), bars := [] })
  | .ahead h va => .state (s.fetchAhead h va)
  | .corrupt u sram => .state (s.corruptUnit u sram)
  | .strikeUnit ch k j => .state (s.strikeUnit ch k j)
  | .strikeSend i r => .state (s.strikeSend i r)
  | .strike h r => .state (if isFixed r then s else s.modHartAt h fun x => { x with struck := r :: x.struck })
  | .delay h l => .state (s.modHartAt h fun x => { x with late := l })
  | .cut h g => .state (s.modHartAt h fun x => { x with cut := some g })
  | .readUnits ch k n => .state (s.readAhead ch k n)
  | .collRead i r u => .state (s.collRead i r u)
  | .collWrite i r u => .state (s.collWrite i r u)
  | .functions n => .state (s.modHost fun x => { x with enabled := List.range (Nat.min n 31 + 1) })
  | .bar0 m off size write => match s.bar0Access m off size write with
    | .ok i => .event i s
    | .error s => .state s

/-- The tables and the page `withFetchWord` uses: level-1 and level-2 tables and a 512 MiB page in die 0's HBM. -/
abbrev fetchTable1 : Nat := 0x10000
abbrev fetchTable2 : Nat := 0x20000
abbrev fetchPage : Nat := 0x20000000

/-- Stores a word where the current hart fetches next, and makes the next step that fetch. -/
def placeWord (s : State) (w : Nat) : State :=
  let pc0 := s.hart.pc
  let pc : BitVec 55 := if pc0.toNat % 4 = 0 ∧ pc0.toNat % 0x20000000 + 12 ≤ 0x20000000 ∧ pc0.toNat < localBase - 12 then pc0 else 0
  let va := pc.toNat
  let s := { s with ctxs := if (s.ctxOf s.hart.ctx).isSome then s.ctxs else s.ctxs ++ [Ctx.fresh s.hart.ctx 0] }
  let s := { s with agenda := [], tlb := [], poison := [], underTest := [], veils := [], harvested := []
                    packages := if s.packages.contains s.pkg then s.packages else s.pkg :: s.packages }
  let s := s.modHart fun h =>
    { h with status := .running, pc := pc, dcause := none, preempt := none, causes := [], wait := none, homeOp := none, waiting := [], onE := false, undo := none, ahead := [] }
  let s := s.modCtx s.hart.ctx fun c => { c with ptroot := BitVec.ofNat 64 (s.paOf fetchTable1) }
  let m := Mem.setN s.mem (s.paOf fetchTable1 + 8 * (va / 2 ^ 42)) (s.paOf fetchTable2 + 1) 8
  let m := Mem.setN m (s.paOf fetchTable2 + 8 * (va / 2 ^ 29 % 8192)) (s.paOf fetchPage + 0x1AF) 8
  { s with mem := Mem.setN m (s.paOf fetchPage + va % 0x20000000) w 12 }

end Sys2Proof.Machine
end

