-- ==== Sys2Proof/WellFormed.lean ====
section
/-! DEFINITION. Well-formed instructions: the fields of an encoded instruction fit the form the opcode table gives it, so
that the decoder accepts its word (R58-R69). A device event has no encoding and no field to check. -/
namespace Sys2Proof

/-- Whether an operand fits its position: an unused field holds x0, a used one a register of an admitted class. -/
def wfOperand (o : Opnd) (r : Reg) : Bool :=
  match o with
  | .none => decide (r = .x 0)
  | .src cs | .noTrap cs | .dst cs => cs.any (·.admits r)

/-- Whether fields fit a form: operand classes, no queue named twice, source C's place in `IMM`, and every check of R69
steps 5 and 6 that the word alone decides. -/
def wfFields (m : Form) (f : Fields) : Bool :=
  wfOperand m.d f.d && wfOperand m.a f.a && wfOperand (m.opndB f.imm) f.b && wfOperand m.c f.c
    && (!m.c.used || decide (f.imm &&& 0xFF = 0)) && !queueTwice m.a (m.opndB f.imm) f.a f.b && !queueTwice m.a m.c f.a f.c && !queueTwice (m.opndB f.imm) m.c f.b f.c && (checkRest {} m f).isNone

noncomputable section

/-- Whether an instruction is well formed: a row of the table builds it and its fields fit that row's form. -/
def Instr.wf (i : Instr) : Bool :=
  match i.parts with
  | Option.none => true
  | some (opc, f) => match findRow opc f.fn with
    | Option.none => false
    | some r => decide (r.build f = i) && wfFields r.form f

end

end Sys2Proof
end

