-- ==== Sys2Proof/Machine/Step.lean ====
section
/-! DEFINITION. One step of the machine: the head of the schedule, or the current hart: a pending cause at its boundary, or
the instruction its pc names. -/
namespace Sys2Proof.Machine

noncomputable section

/-- The E-side's part of a hart's step: the head of its queue runs if it can (R19). -/
def stepHead (s : State) : State :=
  match s.head with
  | .none => s
  | .struck s' => s'
  | .run i s' => match exec i s' with
    | .next t => if s.overrun s.cur t then s else s.leaveHead t
    | _ => s

/-- The A-side's part of a hart's step (R350, R352): the rest of an `exit`, the home's part of an operation it stalls for, a double
trap's save or PREEMPT, another asynchronous cause, or fetch, decode and execute. -/
def stepA (s : State) : Host.Outcome State Fault Refusal :=
  match boundary s with
  | .idle => .next s
  | .drain => .next (s.exitDrain s.cur)
  | .home => match s.hart.homeOp with
    | none => .next s
    | some o => match o.kind with
      | .deposit _ _ _ => exec (.tupleDepositAtHome o.id) s
      | .request _ _ => exec (.tupleRequestAtHome o.id) s
      | .cancel _ => exec (.tupleCancelAtHome o.id) s
      | .alloc _ _ => exec (.cbAllocAtHome o.id) s
      | .put _ _ _ => exec (.cbPutAtHome o.id) s
  | .save => exec (.preemptSequence s.cur) s
  | .cause => exec (.asyncCauseTaken s.cur) s
  | .run => match fetch s with
    | .wait => .next s
    | .trap epc cause eval =>
      .next ((if cause = cFETCH then s.forgetRun s.hart.place eval.toNat else s).trapAt s.cur epc cause eval 0)
    | .word w => match decodeAt s.hart.sr.vtype s.hart.st.pl w with
      | .error e => .next (trapOf s (whollyWord w e) cILLEGAL e.eval 0)
      | .ok i => exec i (s.naming i)

/-- A hart's own step. A hart whose request is out of its turn at a slice goes on in the next cycle (R249, log 28), and one that must
have an access performed which waits for a test waits with it (R395). -/
def stepHart (s : State) : Host.Outcome State Fault Refusal :=
  if s.harts.length ≤ s.cur then .fault .noHart
  else if s.behind s.cur then .next s
  else
    let s := stepHead s
    match stepA s with
    | .next t => .next (if s.overrun s.cur t then s else t)
    | r => r

/-- One step: the schedule's next entry, or the current hart's step. -/
def step (s : State) : Host.Outcome State Fault Refusal :=
  match s.agenda with
  | [] => stepHart s
  | a :: rest => match nextAct a { s with agenda := rest } with
    | .harts s' => stepHart s'
    | .event i s' => exec i s'
    | .state s' => .next s'

end

/-- `s` with an instruction stored where the next step fetches, and that step the current hart's: a page of 512 MiB that
holds the pc is mapped for every access, and the word lies at the pc's place in it. -/
def State.withFetchWord (s : State) (nbits w : Nat) : State := placeWord s (w % 2 ^ nbits)

end Sys2Proof.Machine
end

