-- ==== Sys2Proof/Safety.lean ====
section
/-! DEFINITION. The terms the claims are stated in: a state in which nothing delays or stops the next instruction, and the state
an instruction completes in. -/
namespace Sys2Proof.Machine

/-- Nothing delays the current hart's next instruction with these fields, and no trap of R24 or R27 stands in its way: the hart is
there, every register the instruction uses is full, its queues hold what it takes and have room for what it gives, its guard
is true (R62), no parity check fails (R345), no earlier E-side instruction is left in the E-queue (R19), and the schedule makes
no result late (R23). `also` names registers the instruction uses besides those its fields name. -/
structure State.Clear (s : State) (f : Fields) (also : List Reg) : Prop where
  here : s.cur < s.harts.length
  onTime : s.hart.late = []
  sound : s.hart.struck = []
  aside : s.hart.onE = false
  drained : s.hart.waiting = []
  queues : queueCheck s.hart f false = none
  full : ∀ r ∈ waitsFor f also, s.hart.isEmpty r = false
  guard : s.hart.guard f = true

/-- Nothing delays an E-side instruction either: its E-queue has room (R19). -/
structure State.ClearFork (s : State) (f : Fields) (also : List Reg) : Prop extends s.Clear f also where
  room : s.hart.equeue < queueSize

/-- No access of the current hart is on its way, a tuple request among them (R195, R245). -/
def State.still (s : State) : Bool := s.hart.pend.isEmpty

/-- The state in which an A-side instruction with the effect `g` on its hart completes: the queue entries it read are gone, and the
hart has gone on to the next instruction (R26, R92). -/
def State.completes (s : State) (f : Fields) (g : Hart → Hart) : State := s.modHart fun h => (popQueues (g h) f).retire
/-- The state in which an A-side instruction whose effect leads to `t` completes. -/
def State.after (t : State) (f : Fields) : State := t.modHart fun h => (popQueues h f).retire
/-- The state in which an A-side instruction completes by a transfer of control to `t` (R90). -/
def State.jumps (s : State) (f : Fields) (t : BitVec 55) (g : Hart → Hart) : State :=
  s.modHart fun h => (popQueues (g h) f).retireTo t
/-- The state in which an E-side instruction with the effect `g` on its hart completes: one more entry has been forked (R19). -/
def State.forks (s : State) (f : Fields) (g : Hart → Hart) : State := (s.modHart g).fork.modHart fun h => (popQueues h f).retire

/-- A shape that R13 allows. -/
def shapeOk (vtype vl vr : Word) : Bool := vtypeOk vtype && vlFits vtype vl && decide (1 ≤ vr.toNat) && decide (vr.toNat ≤ 8)
/-- The shape of a hart is legal (R13), and a tile register whose `DIRTY` bit is clear holds zero (R18). -/
def Hart.shaped (h : Hart) : Bool :=
  shapeOk h.sr.vtype h.sr.vl h.sr.vr && (List.finRange 32).all fun n => h.sr.dirty.getLsbD n.val || h.v[n] == 0
/-- The shape that a gang gives its harts is legal (R313). -/
def Gang.shaped (g : Gang) : Bool := shapeOk g.vtype g.vl g.vr
/-- Every hart of a machine is shaped, and so is every hart there may come to be: of a gang, or of a checkpoint. -/
def State.Shaped (s : State) : Prop :=
  (∀ h ∈ s.harts, h.shaped = true) ∧ (∀ g ∈ s.gangs, g.shaped = true) ∧
    ∀ k ∈ s.checkpoints, (∀ x ∈ k.harts, x.2.shaped = true) ∧ ∀ g ∈ k.gangs, g.shaped = true

/-- A run is safe while its memory stands in canonical form and its steps name a hart of the state. -/
def State.Safe (s : State) : Prop := Mem.wf s.mem = true ∧ s.cur < s.harts.length

end Sys2Proof.Machine
end

