-- ==== Sys2Proof/Certificates/Slice0/Obligations.lean ====
section
/-! DEFINITION. The statements for the provers, with the tables of forms they speak of. -/
namespace Sys2Proof.Machine

noncomputable section

/-! Scalar instructions. -/

/-- The two-source scalar forms of R83 and R84 that write D at completion: register form, immediate form, result. -/
def aluForms : List ((Fields → Instr) × (Fields → Instr) × (Word → Word → Word)) :=
  [ (.add, .addI, fun a b => a + b), (.sub, .subI, fun a b => a - b), (.mul, .mulI, fun a b => a * b),
    (.mulh, .mulhI, fun a b => (a.signExtend 128 * b.signExtend 128).extractLsb' 64 64),
    (.mulhu, .mulhuI, fun a b => (a.setWidth 128 * b.setWidth 128).extractLsb' 64 64),
    (.and, .andI, fun a b => a &&& b), (.or, .orI, fun a b => a ||| b), (.xor, .xorI, fun a b => a ^^^ b),
    (.andn, .andnI, fun a b => a &&& ~~~b),
    (.sll, .sllI, fun a b => a <<< (b.toNat % 64)), (.srl, .srlI, fun a b => a >>> (b.toNat % 64)),
    (.sra, .sraI, fun a b => a.sshiftRight (b.toNat % 64)), (.rol, .rolI, fun a b => a.rotateLeft (b.toNat % 64)),
    (.slt, .sltI, fun a b => if a.toInt < b.toInt then 1 else 0),
    (.sltu, .sltuI, fun a b => if a.toNat < b.toNat then 1 else 0),
    (.min, .minI, fun a b => if b.toInt < a.toInt then b else a), (.max, .maxI, fun a b => if a.toInt < b.toInt then b else a),
    (.minu, .minuI, fun a b => if b.toNat < a.toNat then b else a),
    (.maxu, .maxuI, fun a b => if a.toNat < b.toNat then b else a) ]
/-- The divisions of R84, long-latency producers: all ones for a quotient by zero, the dividend for its remainder. -/
def divForms : List ((Fields → Instr) × (Fields → Instr) × (Word → Word → Word)) :=
  [ (.div, .divI, fun a b => if b = 0 then -1 else a.sdiv b), (.divu, .divuI, fun a b => if b = 0 then -1 else a / b),
    (.rem, .remI, fun a b => a.srem b), (.remu, .remuI, fun a b => a % b) ]
/-- The low `n` bits of `a`, sign-extended, for the count in `b`; a count of 0 mod 64 gives `a` (R84). -/
def lowSigned (a b : Word) : Word :=
  if b.toNat % 64 = 0 then a else ((a <<< (64 - b.toNat % 64)).sshiftRight (64 - b.toNat % 64))
/-- The same, zero-extended. -/
def lowUnsigned (a b : Word) : Word :=
  if b.toNat % 64 = 0 then a else ((a <<< (64 - b.toNat % 64)) >>> (64 - b.toNat % 64))
/-- The scalar forms with one source or one of their own (R83, R84): the instruction, and its result on a hart. -/
def scalarForms : List ((Fields → Instr) × (Fields → Hart → Word)) :=
  [ (.clz, fun f h => (h.xr f.a).clz), (.ctz, fun f h => (h.xr f.a).ctz), (.popc, fun f h => (h.xr f.a).cpop),
    (.sext, fun f h => lowSigned (h.xr f.a) (h.xr f.b)), (.sextI, fun f h => lowSigned (h.xr f.a) (f.imm.signExtend 64)),
    (.zext, fun f h => lowUnsigned (h.xr f.a) (h.xr f.b)), (.zextI, fun f h => lowUnsigned (h.xr f.a) (f.imm.signExtend 64)),
    (.li, fun f _ => f.imm.signExtend 64), (.lih, fun f h => f.imm ++ (h.xr f.a).setWidth 32),
    (.sel, fun f h => if h.pr f.c then h.xr f.a else h.xr f.b), (.pmovXp, fun f h => if h.pr f.a then 1 else 0) ]
/-- The predicate forms that write a predicate (R89). -/
def predForms : List ((Fields → Instr) × (Fields → Hart → Bool)) :=
  [ (.pcmpEq, fun f h => h.xr f.a == h.xr f.b), (.pcmpEqI, fun f h => h.xr f.a == f.imm.signExtend 64),
    (.pcmpNe, fun f h => h.xr f.a != h.xr f.b), (.pcmpNeI, fun f h => h.xr f.a != f.imm.signExtend 64),
    (.pcmpLt, fun f h => decide ((h.xr f.a).toInt < (h.xr f.b).toInt)),
    (.pcmpLtI, fun f h => decide ((h.xr f.a).toInt < f.imm.toInt)),
    (.pcmpGe, fun f h => decide ((h.xr f.b).toInt ≤ (h.xr f.a).toInt)),
    (.pcmpGeI, fun f h => decide (f.imm.toInt ≤ (h.xr f.a).toInt)),
    (.pcmpLtu, fun f h => decide ((h.xr f.a).toNat < (h.xr f.b).toNat)),
    (.pcmpLtuI, fun f h => decide ((h.xr f.a).toNat < (f.imm.signExtend 64).toNat)),
    (.pcmpGeu, fun f h => decide ((h.xr f.b).toNat ≤ (h.xr f.a).toNat)),
    (.pcmpGeuI, fun f h => decide ((f.imm.signExtend 64).toNat ≤ (h.xr f.a).toNat)),
    (.plogAnd, fun f h => h.pr f.a && h.pr f.b), (.plogOr, fun f h => h.pr f.a || h.pr f.b),
    (.plogXor, fun f h => h.pr f.a != h.pr f.b), (.plogAndn, fun f h => h.pr f.a && !h.pr f.b),
    (.pmov, fun f h => h.pr f.a), (.pmovPx, fun f h => h.xr f.a != 0) ]

/-- The scalar floating-point forms of R85 to R87 on the operands' bits in the format of `FT`: result bits and flags. -/
def fpForms : List ((Fields → Instr) × (FpFmt → Rm → Nat → Nat → Nat → Nat × Flags)) :=
  [ (.fadd, fun t m a b _ => fpAdd t m (t.decode a) (t.decode b)),
    (.fsub, fun t m a b _ => fpAdd t m (t.decode a) (t.decode b).neg),
    (.fmul, fun t m a b _ => fpMul t m (t.decode a) (t.decode b)),
    (.fma, fun t m a b c => fpFma t m (t.decode a) (t.decode b) (t.decode c)),
    (.fdiv, fun t m a b _ => fpDiv t m (t.decode a) (t.decode b)),
    (.fsqrt, fun t m a _ _ => fpSqrt t m (t.decode a)),
    (.fmin, fun t _ a b _ => fpMinMax false t a b), (.fmax, fun t _ a b _ => fpMinMax true t a b),
    (.fsgn, fun t _ a b _ => (withSign t a (signOf t b), 0)), (.fsgnN, fun t _ a b _ => (withSign t a (!signOf t b), 0)),
    (.fsgnX, fun t _ a b _ => (withSign t a (signOf t a != signOf t b), 0)),
    (.fclass, fun t _ a _ _ => (fpClass t a, snanFlag [t.decode a])),
    (.fcmpEq, fun t _ a b _ => (if (fpCmp 0 t a b).1 then 1 else 0, (fpCmp 0 t a b).2)),
    (.fcmpLt, fun t _ a b _ => (if (fpCmp 1 t a b).1 then 1 else 0, (fpCmp 1 t a b).2)),
    (.fcmpLe, fun t _ a b _ => (if (fpCmp 2 t a b).1 then 1 else 0, (fpCmp 2 t a b).2)),
    (.fcmpUn, fun t _ a b _ => (if (fpCmp 3 t a b).1 then 1 else 0, (fpCmp 3 t a b).2)) ]

/-! Control. -/

/-- The transfers of control of R90, R91 and R93 whose target and effect do not depend on a condition. -/
def jumpForms : List ((Fields → Instr) × (Fields → Hart → BitVec 55) × (Fields → Hart → Hart)) :=
  [ (.br, fun f h => h.pc + f.imm.signExtend 55, fun _ h => h),
    (.jal, fun f h => h.pc + f.imm.signExtend 55, fun f h => h.put f.d (.word ((h.pc + 12).setWidth 64))),
    (.jr, fun f h => (h.xr f.a + f.imm.signExtend 64).setWidth 55, fun f h => h.put f.d (.word ((h.pc + 12).setWidth 64))),
    (.lbrk0, fun _ h => h.sr.le0.setWidth 55 + 12, fun _ h => { h with sr := { h.sr with lc0 := 0 } }),
    (.lbrk1, fun _ h => h.sr.le1.setWidth 55 + 12, fun _ h => { h with sr := { h.sr with lc1 := 0 } }) ]
/-- `loop.0` and `loop.1` (R91): what they set, before a count of zero skips the body. -/
def loopForms : List ((Fields → Instr) × (Fields → Hart → Hart)) :=
  [ (.loop0, fun f h =>
      { h with sr := { h.sr with lc0 := h.xr f.a, lb0 := (h.pc + 12).setWidth 64, le0 := (h.pc + f.imm.signExtend 55).setWidth 64 } }),
    (.loop1, fun f h =>
      { h with sr := { h.sr with lc1 := h.xr f.a, lb1 := (h.pc + 12).setWidth 64, le1 := (h.pc + f.imm.signExtend 55).setWidth 64 } }) ]

/-! Vector configuration. -/

/-- A hart with `VTYPE` and `VL` set (R104, R105). -/
def Hart.withVt (h : Hart) (t : Word) : Hart :=
  { h with sr := { h.sr with vtype := t, vl := BitVec.ofNat 64 (grant t h.sr.vl.toNat) } }
/-- A hart with `VL` granted for a request (R104). -/
def Hart.withVl (h : Hart) (n : Nat) : Hart := { h with sr := { h.sr with vl := BitVec.ofNat 64 (grant h.sr.vtype n) } }
/-- A hart with `VR` set for a request (R103). -/
def Hart.withVr (h : Hart) (n : Nat) : Hart := { h with sr := { h.sr with vr := BitVec.ofNat 64 (min (max n 1) 8) } }
/-- A hart with `ROWLEN` set (R104). -/
def Hart.withRl (h : Hart) (w : Word) : Hart := { h with sr := { h.sr with rowlen := w } }
/-- The forms that set a shape register (R103-R105): what they set, and the word they give D. -/
def configForms : List ((Fields → Instr) × (Fields → Hart → Hart) × (Hart → Word)) :=
  [ (.setvl, fun f h => h.withVl (h.xr f.a).toNat, (·.sr.vl)), (.setvlI, fun f h => h.withVl f.imm.toNat, (·.sr.vl)),
    (.setvr, fun f h => h.withVr (h.xr f.a).toNat, (·.sr.vr)), (.setvrI, fun f h => h.withVr f.imm.toNat, (·.sr.vr)),
    (.setvtI, fun f h => h.withVt ((f.imm.extractLsb' 0 12).setWidth 64), (·.sr.vl)),
    (.setrl, fun f h => h.withRl (h.xr f.a), fun h => BitVec.ofNat 64 h.geom.count),
    (.setrlRow, fun f h => h.withRl (BitVec.ofNat 64
        (putBits h.sr.rowlen.toNat (8 * ((h.xr f.b).toNat % 8)) 8 (min (h.xr f.a).toNat 255))),
      fun h => BitVec.ofNat 64 h.geom.count) ]

/-! E-side instructions: a form with the decode check of its entry, the registers it waits for besides those its fields name, and its
effect on a hart under the shape of its fork (R21). -/

structure EForm where
  instr : Fields → Instr
  chk : Fields → Geom → Option Illegal
  also : Fields → Hart → List Reg := fun _ _ => []
  effect : Fields → Hart → Geom → Hart

/-- An element-wise form: the values of the active elements come from those of A, B, C and D (R109). -/
def elementwise (mk : Fields → Instr) (ok : Nat → Bool) (anyBl imm : Bool)
    (op : Fields → Hart → Geom → Nat → Nat → Nat → Nat → Nat × Flags) : EForm where
  instr := mk
  chk := fun f => fmtChk f ok anyBl
  effect := fun f h g =>
    let r := pass (h.activeCells f g) (tileOff g.sew) g.sew
      (fun p => op f h g (elemBits (h.tr f.a).toNat g.sew p.r p.c) (h.elemB f imm g p)
        (elemBits (h.tr f.c).toNat g.sew p.r p.c) (elemBits (h.tr f.d).toNat g.sew p.r p.c)) (h.tr f.d).toNat
    (h.raise r.2.1).putTile f.d r.1 r.2.2
/-- An integer form on the elements' signed or unsigned values, taken modulo 2^w. -/
def intForm (mk : Fields → Instr) (imm : Bool) (op : Int → Int → Int → Int) : EForm :=
  elementwise mk intFmts false imm fun _ _ g a b _ old =>
    (bitsOf g.sew (op (intOf g.sew g.signed old) (intOf g.sew g.signed a) (intOf g.sew g.signed b)), 0)
/-- The element-wise integer forms (R110), register and immediate. -/
def vectorIntForms : List EForm :=
  let both (r i : Fields → Instr) (op : Int → Int → Int → Int) : List EForm := [intForm r false op, intForm i true op]
  let bits (r i : Fields → Instr) (op : Nat → Nat → Nat) : List EForm :=
    [ elementwise r notTern true false fun _ _ _ a b _ _ => (op a b, 0), elementwise i notTern true true fun _ _ _ a b _ _ => (op a b, 0) ]
  let shift (r i : Fields → Instr) (op : Nat → Nat → Nat → Nat) : List EForm :=
    [ elementwise r intFmts false false fun _ _ g a b _ _ => (op g.sew a (b % g.sew) % 2 ^ g.sew, 0),
      elementwise i intFmts false true fun _ _ g a b _ _ => (op g.sew a (b % g.sew) % 2 ^ g.sew, 0) ]
  let high (mk : Fields → Instr) (imm : Bool) : EForm := elementwise mk intFmts false imm fun _ _ g a b _ _ =>
    (bitsOf g.sew (intOf g.sew g.signed a * intOf g.sew g.signed b / (2 ^ g.sew : Nat)), 0)
  let sadd (mk : Fields → Instr) (imm : Bool) : EForm := elementwise mk intFmts false imm fun _ _ g a b _ _ =>
    let c := clamp g.sew g.signed (intOf g.sew g.signed a + intOf g.sew g.signed b)
    (bitsOf g.sew c.1, if c.2 then flVSAT else 0)
  both .vadd .vaddI (fun _ a b => a + b) ++ both .vsub .vsubI (fun _ a b => a - b) ++ both .vmul .vmulI (fun _ a b => a * b) ++
  [high .vmulh false, high .vmulhI true] ++ both .vmacc .vmaccI (fun d a b => d + a * b) ++
  both .vmaccN .vmaccNI (fun d a b => d - a * b) ++ bits .vand .vandI (· &&& ·) ++ bits .vor .vorI (· ||| ·) ++
  bits .vxor .vxorI (· ^^^ ·) ++ shift .vsll .vsllI (fun _ a n => a * 2 ^ n) ++ shift .vsrl .vsrlI (fun _ a n => a / 2 ^ n) ++
  shift .vsra .vsraI (fun w a n => bitsOf w (intOf w true a / (2 ^ n : Nat))) ++
  both .vmin .vminI (fun _ a b => if a < b then a else b) ++ both .vmax .vmaxI (fun _ a b => if a < b then b else a) ++
  [sadd .vsadd false, sadd .vsaddI true]

/-- A floating-point form on the elements' bits in the arithmetic format of the shape. -/
def vfpForm (mk : Fields → Instr) (op : FpFmt → Rm → Nat → Nat → Nat → Nat × Flags) : EForm :=
  elementwise mk fpFmts false false fun f _ g a b c _ => op g.fp (g.rm f) a b c
/-- The element-wise floating-point forms (R47, R86, R111, R112). -/
def vectorFpForms : List EForm :=
  [ vfpForm .vfadd fun t m a b _ => fpAdd t m (t.decode a) (t.decode b),
    vfpForm .vfsub fun t m a b _ => fpAdd t m (t.decode a) (t.decode b).neg,
    vfpForm .vfmul fun t m a b _ => fpMul t m (t.decode a) (t.decode b),
    vfpForm .vffma fun t m a b c => fpFma t m (t.decode a) (t.decode b) (t.decode c),
    vfpForm .vffmaMs fun t m a b c => fpFma t m (t.decode a) (t.decode b) (t.decode c).neg,
    vfpForm .vffmaNm fun t m a b c => fpFma t m (t.decode a).neg (t.decode b) (t.decode c),
    vfpForm .vffmaNms fun t m a b c => fpFma t m (t.decode a).neg (t.decode b) (t.decode c).neg,
    vfpForm .vfdiv fun t m a b _ => fpDiv t m (t.decode a) (t.decode b),
    vfpForm .vfsqrt fun t m a _ _ => fpSqrt t m (t.decode a),
    vfpForm .vfrcpe fun t _ a _ _ => recipEst t (t.decode a), vfpForm .vfrsqe fun t _ a _ _ => rsqrtEst t (t.decode a),
    vfpForm .vfmin fun t _ a b _ => fpMinMax false t a b, vfpForm .vfmax fun t _ a b _ => fpMinMax true t a b,
    vfpForm .vfsgn fun t _ a b _ => (withSign t a (signOf t b), 0),
    vfpForm .vfsgnN fun t _ a b _ => (withSign t a (!signOf t b), 0),
    vfpForm .vfsgnX fun t _ a b _ => (withSign t a (signOf t a != signOf t b), 0),
    vfpForm .vfclass fun t _ a _ _ => (fpClass t a, snanFlag [t.decode a]) ]

/-- A comparison: one mask bit for each active element (R112). -/
def cmpForm (mk : Fields → Instr) (k : Nat) : EForm where
  instr := mk
  chk := fun f => fmtChk f intFpFmts false
  effect := fun f h g =>
    let r := pass (h.activeCells f g) (·.e) 1
      (fun p =>
        let c := elemCmp k g (elemBits (h.tr f.a).toNat g.sew p.r p.c) (h.elemB f false g p)
        (if c.1 then 1 else 0, c.2)) (h.kr f.d).toNat
    (h.raise r.2.1).put f.d (.mask (BitVec.ofNat 4096 r.1))
/-- Comparisons, conversion, quantisation, moves, random numbers and the code table (R112-R118). -/
def vectorMoveForms : List EForm :=
  [ cmpForm .vfcmpEq 0, cmpForm .vfcmpLt 1, cmpForm .vfcmpLe 2, cmpForm .vfcmpUn 3,
    { instr := .vfcvt
      chk := vfcvtChk
      also := fun f h => if h.geom.bl = 0 then [] else scaleReg f.a
      effect := fun f h g =>
        let r := pass (h.activeCells f g) (tileOff (cvtWidth f)) (cvtWidth f)
          (fun p =>
            let v := h.valA f g p
            let c := cvtTo (cvtFmt f) (cvtWidth f) (f.imm.getLsbD 11) (g.rm f) v.1
            (c.1, v.2 ||| c.2)) (h.tr f.d).toNat
        (h.raise r.2.1).putTile f.d r.1 r.2.2 },
    elementwise .vmv anyFmt true false fun _ _ g a _ _ _ => moved g a,
    elementwise .vmvX anyFmt true false fun f h g _ _ _ _ => moved g ((h.xr f.a).toNat % 2 ^ g.sew),
    elementwise .vmvI anyFmt true true fun _ _ g _ b _ _ => moved g b,
    { instr := .vmvXv
      chk := moveXvChk
      effect := fun f h g =>
        let i := f.imm.toNat % 4096
        let m := if g.intile i then moved g (elemBits (h.tr f.a).toNat g.sew (i / g.vl) (i % g.vl)) else (0, 0)
        (h.raise m.2).put f.d (.word (extElem g m.1)) },
    { instr := .vrnd
      chk := fun f => fmtChk f intFpFmts false
      also := fun f _ => [regAfter f.b]
      effect := fun f h g =>
        let r := pass (h.activeCells f g) (tileOff g.sew) g.sew
          (fun p => (vrndElem g (mix (h.xr f.a) ((h.counter f + p.e) % 2 ^ 128)).toNat, 0)) (h.tr f.d).toNat
        h.putTile f.d r.1 r.2.2 },
    { instr := .vrndAdv
      chk := fun f => fmtChk f intFpFmts false
      also := fun f _ => [regAfter f.b]
      effect := fun f h g =>
        let r := pass (h.activeCells f g) (tileOff g.sew) g.sew
          (fun p => (vrndElem g (mix (h.xr f.a) ((h.counter f + p.e) % 2 ^ 128)).toNat, 0)) (h.tr f.d).toNat
        let n := (h.counter f + g.vr * g.vl) % 2 ^ 128
        ((h.putTile f.d r.1 r.2.2).put f.b (.word (BitVec.ofNat 64 n))).put (regAfter f.b) (.word (BitVec.ofNat 64 (n / 2 ^ 64))) },
    { instr := .ctabw
      chk := fun _ _ => none
      effect := fun f h _ =>
        let w (n : Nat) : Word := ((h.tr f.a).extractLsb' (64 * n) 64)
        { h with sr := { h.sr with ctab0 := w 0, ctab1 := w 1, ctab2 := w 2, ctab3 := w 3 } } },
    { instr := .ctabwX
      chk := fun _ _ => none
      effect := fun f h _ => { h with sr := h.sr.setCtab (f.imm.toNat % 4) (h.xr f.a) } },
    { instr := .vmxq
      chk := vmxqChk
      also := fun f _ => scaleReg f.d
      effect := fun f h g =>
        let dbl := blLen (bitsAt f.imm.toNat 13 2)
        let w := if bitsAt f.imm.toNat 8 5 = 6 then 4 else 8
        let r := (List.range (g.vr * g.vl / max 1 dbl)).foldl (vmxqBlock h f g dbl w)
          ((h.tr f.d).toNat, (h.scaleFor f.d).toNat, 0, false)
        let h := (h.raise r.2.2.1).putTile f.d r.1 r.2.2.2
        match scaleReg f.d with
        | sr :: _ => h.put sr (.scale (BitVec.ofNat 1024 r.2.1))
        | [] => h } ]

/-- A form over whole masks (R122). -/
def maskForm (mk : Fields → Instr) (op : Fields → Hart → Geom → Mask) : EForm where
  instr := mk
  chk := fun _ _ => none
  effect := fun f h g => h.put f.d (.mask (op f h g))
/-- A form over a mask with a scalar or predicate result (R122). -/
def maskScalarForm (mk : Fields → Instr) (op : Fields → Hart → Geom → Word) : EForm where
  instr := mk
  chk := fun _ _ => none
  effect := fun f h g => h.put f.d (asScalar f.d (op f h g))
/-- The mask instructions (R122). -/
def maskForms : List EForm :=
  [ maskForm .kand fun f h _ => h.kr f.a &&& h.kr f.b, maskForm .kor fun f h _ => h.kr f.a ||| h.kr f.b,
    maskForm .kxor fun f h _ => h.kr f.a ^^^ h.kr f.b, maskForm .kandn fun f h _ => h.kr f.a &&& ~~~h.kr f.b,
    maskForm .kset fun f _ _ => if f.imm.getLsbD 0 then BitVec.allOnes 4096 else 0,
    maskForm .ksetTile fun _ _ g => BitVec.ofNat 4096 g.tileMask,
    maskForm .ksetLt fun f h _ => BitVec.ofNat 4096 (2 ^ min (h.xr f.a).toNat 4096 - 1),
    maskForm .kmv fun f h _ => h.kr f.a,
    maskForm .kmvX fun f h _ =>
      BitVec.ofNat 4096 (putBits (h.kr f.d).toNat (64 * (f.imm.toNat % 64)) 64 (h.xr f.a).toNat),
    maskScalarForm .kcnt fun f h g => BitVec.ofNat 64 (h.activeSet f g).length,
    maskScalarForm .kany fun f h g => if (h.activeSet f g).isEmpty then 0 else 1,
    maskScalarForm .kanyAll fun f h g => if ((h.activeCells f g).all fun p => (h.kr f.a).getLsbD p.e) then 1 else 0,
    maskScalarForm .kfirst fun f h g => match h.activeSet f g with
      | p :: _ => BitVec.ofNat 64 p.e
      | [] => -1,
    maskScalarForm .kmvKx fun f h _ => (h.kr f.a).extractLsb' (64 * (f.imm.toNat % 64)) 64,
    { instr := .kmvV
      chk := fun f => blocksFit f.a
      effect := fun f h g =>
        let r := pass (h.activeCells f g) (·.e) 1
          (fun p => (if elemBits (h.tr f.a).toNat g.sew p.r p.c = 0 then 0 else 1, 0)) (h.kr f.d).toNat
        h.put f.d (.mask (BitVec.ofNat 4096 r.1)) },
    { instr := .kmvKv
      chk := fun f => fmtChk f intFmts false
      effect := fun f h g =>
        let r := pass (h.activeCells f g) (tileOff g.sew) g.sew
          (fun p => (if (h.kr f.a).getLsbD p.e then 1 else 0, 0)) (h.tr f.d).toNat
        h.putTile f.d r.1 r.2.2 } ]

/-- A reduction of the tile (R124), of each row (R126). -/
def redForm (mk : Fields → Instr) (o : RedOp) (ok : Nat → Bool) : EForm where
  instr := mk
  chk := fun f => redChk f ok
  effect := fun f h g => redPut h f g (withSeed o g (g.rm f) (redTree o g (g.rm f) (h.activeVals f g)) (h.seedOf f g))
where
  /-- The result enters D: a scalar extended as its format says, or element (0, 0) of a tile. -/
  redPut (h : Hart) (f : Fields) (g : Geom) (r : Nat × Flags) : Hart :=
    match f.d with
    | .x _ => (h.raise r.2).put f.d (.word (extElem g r.1))
    | d => (h.raise r.2).putTile d (putBits (h.tr d).toNat 0 g.sew r.1) (g.vl != 0)
def redRowForm (mk : Fields → Instr) (o : RedOp) (ok : Nat → Bool) : EForm where
  instr := mk
  chk := fun f => redChk f ok
  effect := fun f h g =>
    let res (p : Cell) : Nat × Flags :=
      let xs := ((g.row p.c).filter (h.active f)).map fun q => (q.c, elemBits (h.tr f.a).toNat g.sew q.r q.c)
      withSeed o g (g.rm f) (redTree o g (g.rm f) xs) (h.seedOf f g)
    let r := pass ((List.range g.vr).map fun r => ⟨0, r, r⟩) (tileOff g.sew) g.sew res (h.tr f.d).toNat
    (h.raise r.2.1).putTile f.d r.1 r.2.2
/-- The reductions (R123-R126). -/
def reductionForms : List EForm :=
  [ redForm .vredSum .sum intFpFmts, redForm .vredMax .max intFpFmts, redForm .vredMin .min intFpFmts,
    redForm .vredAnd .and intFmts, redForm .vredOr .or intFmts, redForm .vredXor .xor intFmts,
    { instr := .vfredoSum
      chk := fun f => redChk f fpFmts
      effect := fun f h g =>
        redForm.redPut h f g ((h.activeVals f g).foldl (fun acc x => redAcc .sum g (g.rm f) acc (x.2, 0))
          ((h.seedOf f g).getD (g.fp.sign true), 0)) },
    redRowForm .vredrowSum .sum intFpFmts, redRowForm .vredrowMax .max intFpFmts, redRowForm .vredrowMin .min intFpFmts,
    redRowForm .vredrowAnd .and intFmts, redRowForm .vredrowOr .or intFmts, redRowForm .vredrowXor .xor intFmts ]

/-- A permute: each active position takes a value of its sources (R127). -/
def permForm (mk : Fields → Instr) (ok : Nat → Bool) (val : Fields → Hart → Geom → Cell → Nat) : EForm where
  instr := mk
  chk := fun f => fmtChk f ok false
  effect := fun f h g =>
    let r := pass (h.activeCells f g) (tileOff g.sew) g.sew (fun p => moved g (val f h g p)) (h.tr f.d).toNat
    (h.raise r.2.1).putTile f.d r.1 r.2.2
/-- The permutes (R127-R135). -/
def permuteForms : List EForm :=
  let up (mk : Fields → Instr) (n : Fields → Hart → Nat) : EForm := permForm mk anyFmt fun f h g p =>
    if n f h ≤ p.c then rowElem g (h.tr f.a).toNat p.r (p.c - n f h) else 0
  let dn (mk : Fields → Instr) (n : Fields → Hart → Nat) : EForm := permForm mk anyFmt fun f h g p =>
    rowElem g (h.tr f.a).toNat p.r (p.c + n f h)
  [ permForm .vperm anyFmt fun f h g p =>
      let i := elemBits (h.tr f.b).toNat g.sew p.r p.c
      if g.intile i then elemBits (h.tr f.a).toNat g.sew (i / g.vl) (i % g.vl) else 0,
    permForm .vpermRow anyFmt fun f h g p =>
      rowElem g (h.tr f.a).toNat p.r (elemBits (h.tr f.b).toNat g.sew p.r p.c),
    up .vslideUp fun f h => (h.xr f.b).toNat, dn .vslideDn fun f h => (h.xr f.b).toNat,
    up .vslideUpI fun f _ => f.imm.toNat % 4096, dn .vslideDnI fun f _ => f.imm.toNat % 4096,
    { instr := .vcomp
      chk := fun f => fmtChk f anyFmt false
      effect := fun f h g =>
        let sel := h.selected f.b g
        (place h g f.d (g.cells.zip (sel.map fun p => elemBits (h.tr f.a).toNat g.sew p.r p.c))).put f.c
          (.word (BitVec.ofNat 64 sel.length)) },
    { instr := .vexp
      chk := fun f => fmtChk f anyFmt false
      effect := fun f h g =>
        place h g f.d ((h.selected f.b g).zip (g.cells.map fun p => elemBits (h.tr f.a).toNat g.sew p.r p.c)) },
    { instr := .vpart
      chk := vpartChk
      also := fun f _ => [regNext f.d]
      effect := fun f h g =>
        let t := h.selected f.a g
        let n := g.cells.filter fun p => !(h.kr f.a).getLsbD p.e
        let h1 := place h g f.d (g.cells.zip (t.map (·.e)))
        (place h1 g (regNext f.d) (g.cells.zip (n.map (·.e)))).put f.c (.word (BitVec.ofNat 64 t.length)) },
    { instr := .vrowmv
      chk := fun _ _ => none
      effect := fun f h _ =>
        let row := bitsAt (h.tr f.a).toNat (1024 * (f.imm.toNat / 8 % 8)) 1024
        h.put f.d (.tile (BitVec.ofNat 8192 (putBits (h.tr f.d).toNat (1024 * (f.imm.toNat % 8)) 1024 row))) },
    { instr := .vtrn
      chk := vtrnChk
      effect := fun f h g =>
        place h g f.d (((h.activeCells f g).filter fun p => p.c < g.vr).map fun p =>
          (p, elemBits (h.tr f.a).toNat g.sew p.c p.r)) },
    { instr := .vmerge
      chk := fun f => fmtChk f anyFmt false
      effect := fun f h g => place h g f.d (g.cells.map fun p =>
        (p, if (h.k[f.k]).getLsbD p.e then h.elemB f false g p else elemBits (h.tr f.a).toNat g.sew p.r p.c)) },
    permForm .vzipLo anyFmt fun f h g p => rowElem g (h.tr (if p.c % 2 = 0 then f.a else f.b)).toNat p.r (p.c / 2),
    permForm .vzipHi anyFmt fun f h g p =>
      rowElem g (h.tr (if p.c % 2 = 0 then f.a else f.b)).toNat p.r (g.len p.r / 2 + p.c / 2),
    permForm .vzipEv anyFmt fun f h g p => zipRow h f g p.r (2 * p.c),
    permForm .vzipOd anyFmt fun f h g p => zipRow h f g p.r (2 * p.c + 1),
    permForm .viota intFmts fun f h g p => ((h.selected f.a g).filter fun q => q.e < p.e).length,
    permForm .viotaI intFmts fun _ _ _ p => p.e ]

/-- A batched form: the numbers of row r's problem enter D from position 0 of its row (R136). -/
def batchForm (mk : Fields → Instr) (prob : Fields → Hart → Geom → Rm → Nat → Nat → Batch) : EForm where
  instr := mk
  chk := fun _ => batchChk
  effect := fun f h g =>
    let r := (List.range g.vr).foldl (fun (acc : Nat × Flags × Bool) r =>
      if g.rl r = 0 then acc
      else
        let b := prob f h g (g.rm f) r (g.rl r)
        (((List.range b.m.length).zip b.m).foldl (fun t p => putBits t (1024 * r + g.sew * p.1) g.sew p.2) acc.1,
          acc.2.1 ||| b.fl, true)) ((h.tr f.d).toNat, 0, false)
    (h.raise r.2.1).putTile f.d r.1 r.2.2
/-- The batched small-matrix forms (R137-R139). -/
def batchForms : List EForm :=
  let mv (mk : Fields → Instr) (k : BatchForm) : EForm := batchForm mk fun f h g mode r b =>
    let m := rowNums g (h.tr f.a).toNat r (b * b)
    let v := rowNums g (h.tr f.b).toNat r b
    let old := rowNums g (h.tr f.d).toNat r b
    collect ((List.range b).map fun i =>
      (List.range b).foldl (fun acc j => batchStep g mode (k == .nacc) acc (m.getD (i + b * j) 0) (v.getD j 0))
        (k.start (old.getD i 0), 0))
  let mm (mk : Fields → Instr) (k : BatchForm) : EForm := batchForm mk fun f h g mode r b =>
    let m := rowNums g (h.tr f.a).toNat r (b * b)
    let n := rowNums g (h.tr f.b).toNat r (b * b)
    let old := rowNums g (h.tr f.d).toNat r (b * b)
    collect ((List.range (b * b)).map fun p =>
      (List.range b).foldl
        (fun acc x => batchStep g mode (k == .nacc) acc (m.getD (p % b + b * x) 0) (n.getD (x + b * (p / b)) 0))
        (k.start (old.getD p 0), 0))
  [ mv .vbmv .plain, mv .vbmvAcc .acc, mv .vbmvNacc .nacc, mm .vbmm .plain, mm .vbmmAcc .acc, mm .vbmmNacc .nacc,
    batchForm .vblu fun f h g mode r b =>
      (List.range b).foldl (bluColumn g mode b) ⟨rowNums g (h.tr f.a).toNat r (b * b), 0⟩,
    batchForm .vbtrs fun f h g mode r b =>
      let m := rowNums g (h.tr f.a).toNat r (b * b)
      let y := (List.range b).foldl (btrsForward g mode m b) ⟨rowNums g (h.tr f.b).toNat r b, 0⟩
      (List.range b).reverse.foldl (btrsBackward g mode m b) y ]

noncomputable section

/-! System registers. -/

/-- A listed system register (R29 Table 5, R399 Table 1): its number, the least level that reads it, the least level that writes it
if any does, its value, and the bits a write sets. -/
structure SrRow where
  num : Nat
  read : Nat
  write : Option Nat
  value : State → Word
  kept : Word := -1

/-- A register of the context, of the gang, as the hart reads it. -/
def ctxWord (g : Ctx → Word) (s : State) : Word := g (s.ctx.getD (Ctx.fresh 0 0))
def gangWord (g : Gang → Word) (s : State) : Word := match s.gang with
  | some x => g x
  | none => 0
/-- The system registers. -/
def srRows : List SrRow :=
  let h (n : Nat) (w : Option Nat) (v : SysRegs → Word) : SrRow := ⟨n, 0, w, fun s => v s.hart.sr, -1⟩
  let sup (n : Nat) (v : State → Word) : SrRow := ⟨n, 1, some 1, v, -1⟩
  let firm (n : Nat) (v : FwRegs → Word) : SrRow := ⟨n, 2, some 2, fun s => v s.hart.fw, -1⟩
  [ h 0x000 (some 0) (·.vtype), h 0x001 (some 0) (·.vl), h 0x002 (some 0) (·.vr), h 0x003 (some 0) (·.vstart),
    h 0x004 (some 0) (·.rowlen), h 0x005 (some 0) (·.dirty), h 0x006 (some 0) (·.frm), h 0x007 (some 0) (·.fflags),
    h 0x008 (some 1) (·.acfg), h 0x009 (some 0) (·.mstat), h 0x00A (some 1) (·.ctab0), h 0x00B (some 1) (·.ctab1),
    h 0x00C (some 1) (·.ctab2), h 0x00D (some 1) (·.ctab3), h 0x010 (some 0) (·.lc0), h 0x011 (some 0) (·.lc1) ] ++
  [ h 0x012 (some 0) (·.lb0), h 0x013 (some 0) (·.lb1), h 0x014 (some 0) (·.le0), h 0x015 (some 0) (·.le1),
    ⟨0x020, 0, none, fun s => BitVec.ofNat 64 s.hart.hartid, -1⟩, ⟨0x021, 0, none, fun s => BitVec.ofNat 64 s.hart.gang, -1⟩,
    ⟨0x022, 0, none, fun s => BitVec.ofNat 64 s.hart.ctx, -1⟩, ⟨0x023, 0, none, fun s => BitVec.ofNat 64 s.hart.vdid, -1⟩,
    h 0x024 (some 1) (·.task), h 0x025 (some 1) (·.tile0), h 0x026 (some 1) (·.tile1), h 0x027 (some 1) (·.tile2),
    h 0x028 (some 1) (·.tn), h 0x030 (some 1) (·.wshare),
    ⟨0x031, 0, none, gangWord fun g => if g.ebcap = 0 then 0 else BitVec.ofNat 64 g.budget, -1⟩,
    h 0x032 (some 1) (·.dampstat), h 0x033 (some 0) (·.ttmo), h 0x034 none (·.detctl) ] ++
  [ h 0x040 none (·.cycle), h 0x041 none (·.instret), ⟨0x042, 0, none, fun s => BitVec.ofNat 64 s.time, -1⟩,
    ⟨0x100, 1, some 1, fun s => s.hart.sstat, 0x13C⟩, sup 0x101 (·.hart.sr.stvec), sup 0x102 (·.hart.sr.cause),
    sup 0x103 (·.hart.sr.epc), sup 0x104 (·.hart.sr.eval), sup 0x105 (·.hart.sr.eidx), sup 0x106 (·.hart.sr.sscratch),
    sup 0x107 (ctxWord (·.asid)), sup 0x108 (ctxWord (·.ptroot)), sup 0x109 (ctxWord (·.vdtbase)),
    sup 0x10A (gangWord (·.eclsw)), sup 0x10B (gangWord (·.erefill)), sup 0x10C (ctxWord (·.dampcfg)),
    ⟨0x10D, 1, some 1, (·.hart.sr.tleft), 0xFFFFFFFFFFFF⟩, sup 0x10E (ctxWord (·.saveptr)),
    ⟨0x200, 2, some 2, fun s => s.hart.fstat, 0x10C⟩, firm 0x201 (·.ftvec), firm 0x202 (·.fcause), firm 0x203 (·.fepc),
    firm 0x204 (·.feval), firm 0x205 (·.feidx) ]
/-- The registers that a deterministic gang does not read (R296). -/
def nondetSr (n : Nat) : Bool := n == 0x031 || n == 0x032 || n == 0x040 || n == 0x042

/-- The values that a write of each system register admits: the register's number, the bits its value may set, and what its own rule
asks of the value besides (R5, R13, R42, R92, R141, R325 to R327, R346). That the registers no rule gives a layout admit all 64 bits is the
model's choice (log 44). -/
def acceptRows : List (Nat × Word × (State → Word → Prop)) :=
  let any : State → Word → Prop := fun _ _ => True
  let aligned : State → Word → Prop := fun _ w => w.toNat % 4 = 0
  let full : Word := BitVec.allOnes 64
  [ (0x000, 0xFFF, fun s w => vtypeOk w = true ∧ s.hart.sr.vl.toNat ≤ 1024 / Nat.max 1 (vtSew w) ∧ (vtBl w ≠ 0 → vtBl w ∣ s.hart.sr.vl.toNat)),
    (0x001, 0x3FF, fun s w => w.toNat ≤ 1024 / Nat.max 1 (vtSew s.hart.sr.vtype) ∧ (vtBl s.hart.sr.vtype ≠ 0 → vtBl s.hart.sr.vtype ∣ w.toNat)),
    (0x002, 0xF, fun _ w => 1 ≤ w.toNat ∧ w.toNat ≤ 8), (0x003, 0xFFF, any), (0x004, full, any), (0x005, 0xFFFFFFFF, any),
    (0x006, 0x7, fun _ w => w.toNat ≤ 4), (0x007, 0xFF, any), (0x008, 0x37F7F, fun _ w => acfgOk w = true), (0x009, 0x3, any) ] ++
  [0x00A, 0x00B, 0x00C, 0x00D, 0x010, 0x011, 0x024, 0x025, 0x026, 0x027, 0x028, 0x032, 0x104, 0x106, 0x204].map (fun n => (n, full, any)) ++
  [0x012, 0x013, 0x014, 0x015].map (fun n => (n, full, aligned)) ++
  [ (0x030, 0xF, fun _ w => w ≠ 0), (0x033, 0xFFFFFFFFFFFF, any),
    (0x100, 0xF0013F, fun s w => bitsAt w.toNat 2 2 ≠ 3 ∧ ¬(bitsAt w.toNat 2 2 = 2 ∧ s.hart.st.pl = .s)),
    (0x101, 0x7FFFFFFFFFFFFC, any), (0x102, 0xFF, any), (0x103, 0x7FFFFFFFFFFFFF, any), (0x105, 0xFFF, any), (0x107, 0xFFFF, any),
    (0x108, 0x3FFFFFFFFFF0000, any), (0x109, 0x3FFFFFFFFFFFFC0, any),
    (0x10A, full, fun s w => ∀ g, s.gang = some g → g.ebcap = 0 ∨ ∀ c, c < 4 → bitsAt w.toNat (16 * c) 16 ≤ g.ebcap),
    (0x10B, 0xFFFFFFFFFFFF, any), (0x10C, 0x80000000000000FF, fun _ w => ¬(w.getLsbD 63 = true ∧ bitsAt w.toNat 0 8 = 0)),
    (0x10D, 0x8000FFFFFFFFFFFF, any), (0x10E, 0x3FFFFFFFFFFF000, any), (0x200, 0x10F, fun _ w => bitsAt w.toNat 2 2 ≠ 3),
    (0x201, 0x7FFFFFFFFFFFFC, any), (0x202, 0xFF, any), (0x203, 0x7FFFFFFFFFFFFF, any), (0x205, 0xFFF, any) ]

/-- The write forms of `ssr` (R96). -/
def ssrForms : List ((Fields → Instr) × (Word → Word → Word)) :=
  [(.ssr, fun _ a => a), (.ssrSet, fun o a => o ||| a), (.ssrClr, fun o a => o &&& ~~~a)]

end

noncomputable section

/-! Matrix instructions. -/

/-- A matrix form (R144): its check at decode, the registers it waits for besides those its fields name, whether its issue is
governed (R151), and its effect. -/
structure MForm where
  instr : Fields → Instr
  chk : Fields → ACfg → Geom → Option Illegal := fun _ _ _ => none
  also : Fields → List Reg := fun _ => []
  governed : Bool := true
  effect : Fields → Hart → Hart
/-- An accumulating form and its clearing form: `fn` gives element (i, j) from the old one. -/
def accForms (mk mkZ : Fields → Instr) (chk : ACfg → Geom → Option Illegal) (also : Fields → List Reg)
    (fn : Fields → Hart → Nat → Nat → Nat → Nat × Flags × Nat) : List MForm :=
  [ { instr := mk, chk := fun _ => chk, also := also, effect := fun f h => accUpdate h f h.acfg false (fn f h) },
    { instr := mkZ, chk := fun _ => chk, also := also, effect := fun f h => accUpdate h f h.acfg true (fn f h) } ]
/-- The move of accumulator rows to a tile and back (R150), with the row of `IMM` or of x[B]. -/
def rowForms (row : Fields → Hart → Nat) (rd wr : Fields → Instr) : List MForm :=
  let cells (c : ACfg) (g : Geom) (a : Nat) : List Cell :=
    (List.range g.vr).flatMap fun r => if a + r < c.rows then (List.range c.cols).map fun j => ⟨r, j, (a + r) * c.cols + j⟩ else []
  [ { instr := rd, chk := mrowChk true, governed := false
      effect := fun f h =>
        let r := pass (cells h.acfg h.geom (row f h)) (tileOff h.geom.sew) h.geom.sew
          (fun p => cvtTo h.geom.fmt h.geom.sew (f.imm.getLsbD 11) (h.geom.rm f)
            (h.acfg.val (bitsAt (h.accOf f.a) (h.acfg.width * p.e) h.acfg.width))) (h.tr f.d).toNat
        (h.raise r.2.1).putTile f.d r.1 r.2.2 },
    { instr := wr, chk := mrowChk false, governed := false
      effect := fun f h =>
        let r := pass (cells h.acfg h.geom (row f h)) (fun p => h.acfg.width * p.e) h.acfg.width
          (fun p =>
            let x := h.geom.val (elemBits (h.tr f.a).toNat h.geom.sew p.r p.c)
            if h.acfg.afmt = 2 then cvti 32 true (h.geom.rm f) x
            else ((round h.acfg.fp (h.geom.rm f) x).1, snanFlag [x] ||| (round h.acfg.fp (h.geom.rm f) x).2)) (h.accOf f.d)
        (h.raise r.2.1).put f.d (.acc (BitVec.ofNat 131072 r.1)) } ]
/-- The matrix forms but for `mcfg` (R146-R150). -/
def matrixForms : List MForm :=
  [ { instr := .mzero, governed := false, effect := fun f h => h.put f.d (.acc 0) } ] ++
  accForms .mmaf .mmafZ mmafChk (fun _ => []) (fun f h i j old =>
    let r := (List.range h.geom.vr).foldl (fun (acc : Nat × Flags) k =>
      let t := fpFma h.acfg.fp .rne (h.geom.fp.decode (elemBits (h.tr f.a).toNat h.geom.sew k i))
        (h.geom.fp.decode (elemBits (h.tr f.b).toNat h.geom.sew k j)) (h.acfg.fp.decode acc.1)
      (t.1, acc.2 ||| t.2)) (old, 0)
    (r.1, r.2, 0)) ++
  accForms .mmai .mmaiZ mmaiChk (fun _ => []) (fun f h i j old =>
    let r := clampSteps h.geom.vr (fun k => intOf 8 (!f.fn.getLsbD 2) (elemBits (h.tr f.a).toNat 8 k i) *
      intOf 8 (!f.fn.getLsbD 1) (elemBits (h.tr f.b).toNat 8 k j)) old
    (r.1, 0, r.2)) ++
  accForms .mtern .mternZ mmaiChk (fun _ => []) (fun f h i j old =>
    let w (k : Nat) : Nat := elemBits (h.tr f.a).toNat 2 k i
    let r := clampSteps h.geom.vr (fun k => (if w k = 1 then 1 else if w k = 3 then -1 else 0) *
      intOf 8 (!f.fn.getLsbD 1) (elemBits (h.tr f.b).toNat 8 k j)) old
    (r.1, if (List.range h.geom.vr).any fun k => w k == 2 then flTRES else 0, r.2)) ++
  accForms .mmax .mmaxZ mmaxChk
    (fun f => scaleReg f.a ++ scaleReg f.b ++ (List.range (mmaxBl f / 8)).map (fun i => groupReg f.a (8 * i)) ++
      (List.range (mmaxBl f / 8)).map fun i => groupReg f.b (8 * i))
    (fun f h i j old =>
      let fa := bitsAt f.imm.toNat 0 5
      let fb := bitsAt f.imm.toNat 8 5
      let el (r : Reg) (fmt k i : Nat) : FVal :=
        mxVal fmt (elemBits (h.tr (groupReg r k)).toNat (if fmt = 6 then 4 else 8) (k % 8) i)
      let ea := bitsAt (h.scaleFor f.a).toNat (8 * i) 8
      let eb := bitsAt (h.scaleFor f.b).toNat (8 * j) 8
      let v := mxBlock fa fb ea eb ((List.range (mmaxBl f)).map fun k => (el f.a fa k i, el f.b fb k j))
      let r := round .f32 .rne v.1
      let t := fpAdd .f32 .rne (FpFmt.f32.decode old) (FpFmt.f32.decode r.1)
      (t.1, v.2 ||| r.2 ||| t.2, if ea = 255 ∨ eb = 255 then 2 else 0)) ++
  rowForms (fun f _ => f.imm.toNat % 64) .mrd .mwr ++ rowForms (fun f h => (h.xr f.b).toNat) .mrdX .mwrX

end

noncomputable section

/-! Memory. -/

/-- Every register of a hart but `d` stands as it was: the files, the queues' entries but those `f` has read, the full/empty bits,
the level and the trap registers, and of the system registers those that no instruction but a write of its own changes. -/
structure Hart.Keeps (h t : Hart) (f : Fields) (d : Reg) : Prop where
  x : ∀ n, Reg.x n ≠ d → t.x[n] = h.x[n]
  p : ∀ n, Reg.p n ≠ d → t.p[n] = h.p[n]
  v : ∀ n, Reg.v n ≠ d → t.v[n] = h.v[n]
  k : ∀ n, Reg.k n ≠ d → t.k[n] = h.k[n]
  s : ∀ n, Reg.s n ≠ d → t.s[n] = h.s[n]
  ma : ∀ n, Reg.ma n ≠ d → t.ma[n] = h.ma[n]
  q : ∀ n, Reg.q n ≠ d → t.q[n] = (popQueues h f).q[n]
  empty : t.empty = h.empty
  st : t.st = h.st
  fw : t.fw = h.fw
  shape : t.shape = h.shape
  flags : t.sr.fflags = h.sr.fflags
  acc : t.sr.acfg = h.sr.acfg ∧ t.sr.mstat = h.sr.mstat ∧ t.acfgDec = h.acfgDec
  traps : t.sr.cause = h.sr.cause ∧ t.sr.epc = h.sr.epc ∧ t.sr.eval = h.sr.eval ∧ t.sr.eidx = h.sr.eidx ∧ t.sr.stvec = h.sr.stvec
  ident : t.ctx = h.ctx ∧ t.gang = h.gang ∧ t.hartid = h.hartid ∧ t.place = h.place

/-- The bits of one element in memory. -/
def elemRead (s : State) (x : Elem × Piece) : Nat :=
  s.readN x.2.pa ((x.1.bit + x.1.width + 7) / 8) / 2 ^ x.1.bit % 2 ^ x.1.width
/-- An image with the elements of a list read into it. -/
def elemsInto (s : State) (img : Nat) (l : List (Elem × Piece)) : Nat :=
  l.foldl (fun img x => putBits img x.1.off x.1.width (elemRead s x)) img
/-- The state with the elements of a list stored from an image, in order. -/
def elemsFrom (s : State) (img : Nat) (l : List (Elem × Piece)) : State :=
  l.foldl (fun s x => s.writeBits x.2.pa x.1.bit x.1.width (bitsAt img x.1.off x.1.width)) s
/-- Whether an address lies outside the bytes of an element. -/
def outside (a : Nat) (x : Elem × Piece) : Prop := a < x.2.pa ∨ x.2.pa + (x.1.bit + x.1.width + 7) / 8 ≤ a

/-- A tile load or store (R156, Table 2): its decode check, and the element of each position. `refused` holds for a view that R164
refuses. -/
structure TForm where
  instr : Fields → Instr
  chk : Fields → Geom → Option Illegal
  elem : Fields → State → Geom → Cell → Elem
  refused : Fields → State → Bool := fun _ _ => false
/-- The elements that a form accesses: the active ones from `VSTART` on. -/
def TForm.todo (e : TForm) (f : Fields) (s : State) : List Elem :=
  ((s.hart.activeCells f s.hart.geom).map (e.elem f s s.hart.geom)).filter (s.hart.vstart ≤ ·.e)
def tileLoads : List TForm :=
  [ { instr := .vld, chk := fun f g => anyShape g <|> blocksFit f.d g, elem := fun f s g p => elemRow s.hart f g p },
    { instr := .vldC, chk := fun f g => unpacked g <|> blocksFit f.d g, refused := fun f s => tileLay f != 0 && layRefused s f
      elem := fun f s g p => if tileLay f = 0 then elemPacked s.hart f g p else elemView s.hart f g p },
    { instr := .vlds, chk := fun f g => narrow g <|> blocksFit f.d g, elem := fun f s g p => elemStrided s.hart f g p },
    { instr := .vldx, chk := fun f g => offsetsFit f g <|> blocksFit f.d g, elem := fun f s g p => elemIndexed s f g p } ]
def tileStores : List TForm :=
  [ { instr := .vst, chk := fun f g => anyShape g <|> blocksFit f.c g, elem := fun f s g p => elemRow s.hart f g p },
    { instr := .vstC, chk := fun f g => unpacked g <|> blocksFit f.c g, elem := fun f s g p => elemPacked s.hart f g p },
    { instr := .vsts, chk := fun f g => narrow g <|> blocksFit f.c g, elem := fun f s g p => elemStrided s.hart f g p },
    { instr := .vstx, chk := fun f g => offsetsFit f g <|> blocksFit f.c g, elem := fun f s g p => elemIndexed s f g p } ]
/-- The base-die commands (R175). -/
def baseForms : List ((Fields → Instr) × BaseKind) := [(.hbgat, .gather), (.hbred, .reduce), (.hbcvt, .convert)]

end

noncomputable section

/-! Tuple space and combine buffers. -/

/-- The requesting forms (R245): the instruction, whether it takes, whether it never waits. -/
def requestForms : List ((Fields → Instr) × Bool × Bool) :=
  [(.tcpy, false, false), (.tcpyNb, false, true), (.ttake, true, false), (.ttakeNb, true, true)]
/-- The events that end an operation a hart stalls for at a home (R244, R248, R254): the event, and what it does there; none where the home
has performed an operation of the cycle that comes after it (R249, R259). -/
def homeEvents : List ((Nat → Instr) × (Fields → HomeKind → State → Option Res)) :=
  let inTurn (k : HomeKey) (s : State) (r : Res) : Option Res := if s.inTurn k s.hart then some r else none
  let slice (tsid sig : Nat) (s : State) : HomeKey := s.tupleKey s.hart.ctx tsid sig
  [ (.tupleDepositAtHome, fun f k s => match k with
      | .deposit tsid cap image => inTurn (slice tsid (tupleWord image 0) s) s (depositRun f tsid cap image s)
      | _ => none),
    (.tupleRequestAtHome, fun f k s => match k with
      | .request take tsid => inTurn (slice tsid (tupleWord (imageB s.hart f) 0) s) s (requestNow take f tsid s)
      | _ => none),
    (.tupleCancelAtHome, fun f k s => match k with
      | .cancel id => match s.reqs.find? (·.id == id) with
        | some r => inTurn (s.reqKey r) s (cancelRun f id s)
        | none => some (cancelRun f id s)
      | _ => none),
    (.cbAllocAtHome, fun f k s => match k with
      | .alloc cbid row => inTurn (.buffer s.hart.ctx cbid) s (allocRun f cbid row s)
      | _ => none),
    (.cbPutAtHome, fun f k s => match k with
      | .put cbid tag row => inTurn (.buffer s.hart.ctx cbid) s (putRun f cbid tag.toNat row s)
      | _ => none) ]

end

noncomputable section

/-! Meshes. -/

/-- A mesh instruction finds a sound descriptor at x[A], and nothing holds it up (R267, R272). -/
structure MeshFound (s : State) (f : Fields) (d : MDesc) : Prop where
  idle : s.still = true
  free : s.hart.phased = false
  here : s.descPa s.agent (s.hart.xr f.a).toNat = some d.pa
  read : d = s.readDesc (s.hart.xr f.a).toNat d.pa
  sound : s.poisoned d.pa 256 = false
  good : d.bad = false
/-- The descriptor shows no error either (R272). -/
structure MeshOpen (s : State) (f : Fields) (d : MDesc) : Prop extends MeshFound s f d where
  clean : d.err = false
/-- The part table can be read and is well formed (R269, R272). -/
structure PartsOpen (s : State) (d : MDesc) (t : List Nat) : Prop where
  table : s.partTable s.agent d = some t
  sound : s.partLost s.agent d = none
  good : t.any partBad = false
/-- A hart to which a mesh form gives 64-bit values at positions of a tile: a register keeps its other bits, and stays as it is where no
value is given; a queue takes a new entry, whose other bits are free. -/
def Hart.gets (h : Hart) (d : Reg) (l : List (Cell × Nat)) : Hart :=
  match d with
  | .q n => h.pushQ n true (BitVec.ofNat 8192 (putElems (Config.freeTile h.own).toNat l))
  | .v n => if l = [] then h else h.put (.v n) (.tile (BitVec.ofNat 8192 (putElems (h.v[n]).toNat l)))
  | _ => h
/-- Whether a register code names a tile register or a queue. -/
def isTile (d : Reg) : Bool :=
  match d with
  | .v _ | .q _ => true
  | _ => false
/-- The state in which an A-side instruction gives D a number. -/
def State.gives (t : State) (f : Fields) (n : Nat) : State :=
  State.after (t.modHart fun h => h.put f.d (.word (BitVec.ofNat 64 n))) f
/-- The jobs (R276, R283): the instruction, the job it starts, and whether it finds the mesh in the state it needs. -/
def jobForms : List ((Fields → Instr) × (Fields → State → JobKind) × (MDesc → Bool)) :=
  [ (.mrebuild, fun _ _ => .rebuild, fun d => !d.busy && d.built),
    (.mrebuildInit, fun f s => .init (s.hart.xr f.b).toNat, fun d => !d.busy && d.gen == 0 && d.blk 0 2 == 0 && d.blk 1 2 == 0),
    (.mbal, fun f s => .balance (s.hart.xr f.b).toNat, fun d => !d.busy && d.built) ]
/-- The cell queries (R273): the instruction, whether it needs the part table, and its value for a cell. -/
def cellForms : List ((Fields → Instr) × Bool × (Fields → MGen → Option Nat → Nat → Nat)) :=
  [ (.nbld, true, fun f g part c => g.neighbour part c (bitsAt f.imm.toNat 0 2) (bitsAt f.imm.toNat 2 2)),
    (.nbldNd, false, fun f g _ c => (((g.cells[c]?).map (·.nodes)).getD []).getD (bitsAt f.imm.toNat 0 2) 0) ]
/-- The face queries (R274): the instruction, and the face of an index. -/
def faceForms : List ((Fields → Instr) × (Fields → MGen → Nat → Option MFace)) :=
  [ (.fcld, fun _ g n => g.faces[n]?), (.fcldC, fun f g n => (g.faces.filter (·.colour == bitsAt f.imm.toNat 0 4))[n]?) ]
/-- The A-side forms whose decode checks no state: of the scalar, control, configuration, system, barrier, buffer, copy, tuple, combine and task
families. -/
def asideForms : List (Fields → Instr) := List.flatten [
  [.add, .addI, .sub, .subI, .mul, .mulI, .mulh, .mulhI, .mulhu, .mulhuI, .and, .andI, .or, .orI, .xor, .xorI, .andn, .andnI],
  [.sll, .sllI, .srl, .srlI, .sra, .sraI, .rol, .rolI, .slt, .sltI, .sltu, .sltuI, .min, .minI, .max, .maxI, .minu, .minuI, .maxu],
  [.maxuI, .clz, .ctz, .popc, .sext, .sextI, .zext, .zextI, .li, .lih, .sel, .div, .divI, .divu, .divuI, .rem, .remI, .remu, .remuI],
  [.fcvt, .fadd, .fsub, .fmul, .fma, .fdiv, .fsqrt, .fmin, .fmax, .fsgn, .fsgnN, .fsgnX, .fclass, .fcmpEq, .fcmpLt, .fcmpLe, .fcmpUn],
  [.pcmpEq, .pcmpNe, .pcmpLt, .pcmpGe, .pcmpLtu, .pcmpGeu, .pcmpEqI, .pcmpNeI, .pcmpLtI, .pcmpGeI, .pcmpLtuI, .pcmpGeuI],
  [.plogAnd, .plogOr, .plogXor, .plogAndn, .pmov, .pmovPx, .pmovXp, .pmovPk, .pmovUpk, .br, .brZ, .brNz, .jal, .jr, .loop0, .loop1],
  [.lbrk0, .lbrk1, .yield, .exit, .fence, .sbar, .ifence, .sys, .ebrk, .eret, .tlbinvAll, .tlbinvAsid, .tlbinvVa, .tlbinvGlob],
  [.hctlWfi, .hctlPre, .setvl, .setvlI, .setvr, .setvrI, .setvt, .setvtI, .setrl, .setrlRow, .amo, .pf, .pfTx, .barvG, .barvGX, .barvTx],
  [.barvTxX, .barw, .txpost, .txarr, .txarrInit, .txwait, .cwait, .marm, .mwait, .gsync, .phaseC, .phaseX, .phaseGet, .bdecl, .bdeclFree],
  [.bset, .bsetGet, .cph, .cphGet, .cpt, .cparm, .tdep, .tcpy, .tcpyNb, .ttake, .ttakeNb, .cballoc, .cbstat, .cbstatBuf, .tkdone, .tknext],
  [.vdhop] ]
/-- The all-or-nothing forms whose decode checks no state (R17, R154). -/
def whollyForms : List (Fields → Instr) := [.ld, .st, .vldR, .vstR, .hbgat, .hbred, .hbcvt, .cbput, .tkenq, .coll]
/-- The marking forms (R275). -/
def markForms : List ((Fields → Instr) × Nat) := [(.mmarkR, 2), (.mmarkC, 1)]

end

end

end Sys2Proof.Machine

open Sys2Proof Sys2Proof.Machine

/-- R83, R84, R89: each two-source scalar form writes D the result of its operands, in its register form from x[A] and x[B] and in its
immediate form from x[A] and the sign-extended `IMM`; a predicate destination takes whether the result is not zero. Division
and remainder give their results for a zero divisor and an overflowing quotient too; the counts, extensions, immediates, `sel` and
`pmov` give x[D] theirs. -/
def Obligations.ScalarResults : Prop :=
  ∀ (f : Fields) (s : State), s.Clear f [] →
    (∀ e ∈ aluForms,
      exec (e.1 f) s = .next (s.completes f fun h => h.put f.d (asScalar f.d (e.2.2 (h.xr f.a) (h.xr f.b)))) ∧
      exec (e.2.1 f) s = .next (s.completes f fun h => h.put f.d (asScalar f.d (e.2.2 (h.xr f.a) (f.imm.signExtend 64))))) ∧
    (∀ e ∈ divForms,
      exec (e.1 f) s = .next (s.completes f fun h => h.put f.d (.word (e.2.2 (h.xr f.a) (h.xr f.b)))) ∧
      exec (e.2.1 f) s = .next (s.completes f fun h => h.put f.d (.word (e.2.2 (h.xr f.a) (f.imm.signExtend 64))))) ∧
    ∀ e ∈ scalarForms, ∀ n : Fin 64, f.d = .x n → exec (e.1 f) s = .next (s.completes f fun h => h.setX n (e.2 f h))

/-- R89: the predicate forms write p[D] their condition; `pmov.pk` gathers the predicates into x[D], p0 as 1, and `pmov.upk` writes p1 to
p15 from x[A]. -/
def Obligations.PredicateResults : Prop :=
  (∀ e ∈ predForms, ∀ (f : Fields) (s : State) (n : Fin 16), f.d = .p n → s.Clear f [] →
    exec (e.1 f) s = .next (s.completes f fun h => h.setP n (e.2 f h))) ∧
  ∀ (f : Fields) (s : State), s.Clear f allPreds →
    (∃ t, exec (.pmovPk f) s = .next t ∧ t = s.completes f (fun h => h.put f.d (.word (BitVec.ofNat 64 h.packP))) ∧
      s.hart.packP < 2 ^ 16 ∧ ∀ i : Fin 16, s.hart.packP.testBit i.val = s.hart.getP i) ∧
    (∃ t, exec (.pmovUpk f) s = .next t ∧
      (∀ i : Fin 16, t.hart.getP i = (decide (i = 0) || (s.hart.xr f.a).getLsbD i.val)) ∧
      t = s.completes f fun h => { h with p := t.hart.p })

/-- R85 to R88: each scalar floating-point form reads its operands in the format of `FT`, writes D its result and ORs its flags into
`FFLAGS`, `fclass` too where an operand is a signalling NaN (R36); `fcvt` converts x[A] from the type of FN[3:0] to the type of FN[7:4]. -/
def Obligations.ScalarFpResults : Prop :=
  ∀ (f : Fields) (s : State), s.Clear f [] →
    (∀ e ∈ fpForms,
      let r := e.2 (ftOf f) (s.hart.rm f) (s.hart.fbits (ftOf f) f.a) (s.hart.fbits (ftOf f) f.b) (s.hart.fbits (ftOf f) f.c)
      exec (e.1 f) s = .next (s.completes f fun h =>
        ({ h with sr := { h.sr with fflags := h.sr.fflags ||| r.2.setWidth 64 } } : Hart).put f.d (asScalar f.d (BitVec.ofNat 64 r.1)))) ∧
    (let r := (cvtType (f.fn.toNat / 16)).write (s.hart.rm f) ((cvtType (f.fn.toNat % 16)).read (s.hart.xr f.a))
     exec (.fcvt f) s = .next (s.completes f fun h =>
      ({ h with sr := { h.sr with fflags := h.sr.fflags ||| r.2.setWidth 64 } } : Hart).put f.d (.word r.1)))

/-- R42, R43: rounding a magnitude m / 2^k to an integer: exact where it can be, within half a unit in the nearest modes with ties to even or
away from zero, and towards zero, down or up in the directed ones. -/
def Obligations.RoundingRule : Prop :=
  ∀ (neg : Bool) (m k : Nat),
    (∀ mode, (roundMag mode neg m k).2 = decide (m % 2 ^ k ≠ 0)) ∧
    (∀ mode, m % 2 ^ k = 0 → (roundMag mode neg m k).1 * 2 ^ k = m) ∧
    (roundMag .rtz neg m k).1 = m / 2 ^ k ∧
    (roundMag .rdn neg m k).1 = (if neg then (m + 2 ^ k - 1) / 2 ^ k else m / 2 ^ k) ∧
    (roundMag .rup neg m k).1 = (if neg then m / 2 ^ k else (m + 2 ^ k - 1) / 2 ^ k) ∧
    (roundMag .rna neg m k).1 = (2 * m + 2 ^ k) / 2 ^ (k + 1) ∧
    (let q := (roundMag .rne neg m k).1
     2 * (q * 2 ^ k) ≤ 2 * m + 2 ^ k ∧ 2 * m ≤ 2 * (q * 2 ^ k) + 2 ^ k ∧
     (2 * (m % 2 ^ k) = 2 ^ k → q % 2 = 0))

/-- R57, R90 to R93: unconditional transfers of control go to their target, with their effect and `INSTRET` + 1, and take no loop-end step; a
conditional branch goes to PC + sext(IMM) if x[A] is zero (`br.z`) or is not (`br.nz`), and else completes; `loop` sets the count, the
first and the last instruction of its loop, and skips the body when the count is zero. The loop-end step: with neither loop ending at
PC the next instruction follows; loop 1 is tested first; a loop whose count stays above zero goes back to its first instruction, and one
whose count reaches zero ends. Loop 0 is stepped after loop 1 only where the next instruction is still the one at PC + 12: where loop 1 has
run out, or where its first instruction is that one. -/
def Obligations.ControlResults : Prop :=
  (∀ (f : Fields) (s : State), s.Clear f [] →
    (∀ e ∈ jumpForms, exec (e.1 f) s = .next (s.jumps f (e.2.1 f s.hart) (e.2.2 f))) ∧
    exec (.brZ f) s = .next (if s.hart.xr f.a = 0 then s.jumps f (s.hart.pc + f.imm.signExtend 55) id else s.completes f id) ∧
    exec (.brNz f) s = .next (if s.hart.xr f.a = 0 then s.completes f id else s.jumps f (s.hart.pc + f.imm.signExtend 55) id) ∧
    ∀ e ∈ loopForms, exec (e.1 f) s = .next (if s.hart.xr f.a = 0 then s.jumps f (s.hart.pc + f.imm.signExtend 55 + 12) (e.2 f)
      else s.completes f (e.2 f))) ∧
  ∀ (pc : BitVec 55) (sr : SysRegs),
    let ends1 := pc.setWidth 64 = sr.le1 ∧ sr.lc1 ≠ 0
    let ends0 := pc.setWidth 64 = sr.le0 ∧ sr.lc0 ≠ 0
    (¬ends1 → ¬ends0 → loopEnd pc sr = (pc + 12, sr)) ∧
    (ends1 → sr.lc1 ≠ 1 → (sr.lb1.setWidth 55 : BitVec 55) ≠ pc + 12 →
      loopEnd pc sr = (sr.lb1.setWidth 55, { sr with lc1 := sr.lc1 - 1 })) ∧
    (¬ends1 → ends0 → sr.lc0 ≠ 1 → loopEnd pc sr = (sr.lb0.setWidth 55, { sr with lc0 := sr.lc0 - 1 })) ∧
    (¬ends1 → ends0 → sr.lc0 = 1 → loopEnd pc sr = (pc + 12, { sr with lc0 := 0 })) ∧
    (ends1 → (sr.lc1 = 1 ∨ (sr.lb1.setWidth 55 : BitVec 55) = pc + 12) →
      (¬ends0 → loopEnd pc sr = (pc + 12, { sr with lc1 := sr.lc1 - 1 })) ∧
      (ends0 → sr.lc0 ≠ 1 → loopEnd pc sr = (sr.lb0.setWidth 55, { sr with lc1 := sr.lc1 - 1, lc0 := sr.lc0 - 1 })) ∧
      (ends0 → sr.lc0 = 1 → loopEnd pc sr = (pc + 12, { sr with lc1 := sr.lc1 - 1, lc0 := 0 })))

/-- R103 to R105: the configuration forms set their register and give D the granted value or the count of the tile's elements; `setvt`
from a register raises ILLEGAL with sub-code 0x0A, `FIELD` 4, on a value that is not legal, changing nothing else. A granted length is
at most the request and `VLMAX`, and a multiple of `BL`; no greater length is. -/
def Obligations.ConfigResults : Prop :=
  (∀ (f : Fields) (s : State), s.Clear f [] →
    (∀ e ∈ configForms, exec (e.1 f) s = .next (s.completes f fun h => (e.2.1 f h).put f.d (.word (e.2.2 (e.2.1 f h))))) ∧
    exec (.setvt f) s = .next (if vtypeOk (s.hart.xr f.a) = true then
      s.completes f fun h => (h.withVt (h.xr f.a)).put f.d (.word (h.withVt (h.xr f.a)).sr.vl)
      else s.trap cILLEGAL 0x40A 0)) ∧
  ∀ (t : Word) (n : Nat), vtypeOk t = true →
    grant t n ≤ n ∧ grant t n ≤ 1024 / vtSew t ∧ (vtBl t ≠ 0 → vtBl t ∣ grant t n) ∧
    ∀ m, m ≤ n → m ≤ 1024 / vtSew t → (vtBl t = 0 ∨ vtBl t ∣ m) → m ≤ grant t n

/-- R19, R21, R47, R107 to R118: the element-wise integer and floating-point forms, comparisons, conversion, quantisation, moves, random numbers
and the code table. With room in the E-queue each completes at its fork, its active elements taking the values of its table, its
flags joining `FFLAGS`, and D written only where an element is active. That `vmv.xv` of a TERN2 element 0b10 gives 0 and sets `TRES` is read from
R34 beside R115 and R116 (DEDUCED, log 52). -/
def Obligations.VectorElementResults : Prop :=
  ∀ e ∈ vectorIntForms ++ vectorFpForms ++ vectorMoveForms, ∀ (f : Fields) (s : State), s.ClearFork f (e.also f s.hart) →
    e.chk f s.hart.geom = none → exec (e.instr f) s = .next (s.forks f fun h => e.effect f h h.geom)
/-- R122 to R139, R50: the mask instructions, the reductions, the permutes and the batched small-matrix instructions complete with the effect of
their tables. That a v destination of `vred` and `vfredo` stays as it was where the tile has no element is log 40 (DEDUCED). -/
def Obligations.MaskReductionPermuteResults : Prop :=
  ∀ e ∈ maskForms ++ reductionForms ++ permuteForms ++ batchForms, ∀ (f : Fields) (s : State), s.ClearFork f (e.also f s.hart) →
    e.chk f s.hart.geom = none → exec (e.instr f) s = .next (s.forks f fun h => e.effect f h h.geom)

/-- R29, R96, R296: `gsr` gives D the register's value at a level that may read it, except a counter in a deterministic gang, which
raises NONDET; below that level it raises ILLEGAL with sub-code 0x04. -/
def Obligations.SystemRegisterReads : Prop :=
  ∀ r ∈ srRows, ∀ (f : Fields) (s : State), s.Clear f (srAlso f) → f.imm.toNat % 4096 = r.num →
    (r.read ≤ s.hart.st.pl.code → (s.hart.det = true → nondetSr r.num = false) →
      exec (.gsr f) s = .next (s.completes f fun h => h.put f.d (.word (r.value s)))) ∧
    (r.read ≤ s.hart.st.pl.code → s.hart.det = true → nondetSr r.num = true → exec (.gsr f) s = .next (s.trap cNONDET 0x07 0)) ∧
    (s.hart.st.pl.code < r.read → exec (.gsr f) s = .next (s.trap cILLEGAL (Illegal.eval ⟨0x04, 12, BitVec.ofNat 12 r.num⟩) 0))

/-- R96: at a level that may write the register, each form of `ssr` writes the value it computes from the register and x[A], or raises
ILLEGAL with sub-code 0x0E when the register's own rules reject it; at another level it raises ILLEGAL with 0x0D, or with 0x04
where the level may not read it. A register's rules reject a value that sets a reserved bit, and those of its table. That `TASK`, `TILE0` to
`TILE2`, `TN` and the first and last instructions of loops admit all 64 bits is log 44, and that a write of `FSTAT` ignores `PL` log 24 (both DESIGN
CHOICE). -/
def Obligations.SystemRegisterWrites : Prop :=
  (∀ a ∈ acceptRows, ∀ (s : State) (w : Word), s.srAccepts a.1 w = true ↔ w &&& ~~~a.2.1 = 0 ∧ a.2.2 s w) ∧
  ∀ r ∈ srRows, ∀ e ∈ ssrForms, ∀ (f : Fields) (s : State), s.Clear f (srAlso f) → f.imm.toNat % 4096 = r.num →
    let w := e.2 (r.value s) (s.hart.xr f.a)
    let may := ∃ l, r.write = some l ∧ l ≤ s.hart.st.pl.code
    (may → s.srAccepts r.num w = true → exec (e.1 f) s = .next ((s.srPut r.num w).after f)) ∧
    (may → s.srAccepts r.num w = false → exec (e.1 f) s = .next (s.trap cILLEGAL (Illegal.eval ⟨0x0E, 4, BitVec.ofNat 12 r.num⟩) 0)) ∧
    (¬may → exec (e.1 f) s = .next (s.trap cILLEGAL
      (Illegal.eval ⟨if s.hart.st.pl.code < r.read then 0x04 else 0x0D, 12, BitVec.ofNat 12 r.num⟩) 0))

/-- R96: a system register reads back what was written to it, and every other system register, every other register of the hart and every
other hart keeps its value, but for what the register's own rule says: a cleared `DIRTY` bit zeroes its tile register (R18), `ACFG` is
copied to the decode (R142), and `TLEFT` with its top bit asks the context's harts for PREEMPT (R355). A write of a context's or a
gang's register leaves every other context and gang as it was, and no write touches memory or anything else, where no record of the context
is in flight to be ended by the request (R235). A context's register is there for a hart of a context, and a gang's for one of a gang. -/
def Obligations.SystemRegisterReadBack : Prop :=
  ∀ r ∈ srRows, ∀ (s : State) (w : Word), r.write.isSome = true → s.cur < s.harts.length →
    ([0x107, 0x108, 0x109, 0x10C, 0x10E].contains r.num = true → s.ctx.isSome = true) →
    ([0x10A, 0x10B].contains r.num = true → s.gang.isSome = true) → s.srAccepts r.num w = true →
    let t := s.srPut r.num w
    let h := s.hart
    let asks := r.num = 0x10D ∧ w.getLsbD 63 = true
    (asks → t = (s.modHart fun h => { h with sr := { h.sr with tleft := w &&& 0xFFFFFFFFFFFF }, ticks := 0 }).askContext h.ctx) ∧
    ((asks → ∀ c ∈ s.chans, c.id.ctx = h.ctx → c.flights = []) →
    r.value t &&& r.kept = w &&& r.kept ∧
    (∀ o ∈ srRows, o.num ≠ r.num → (asks → o.num ≠ 0x100) → o.value t = o.value s) ∧
    t = { s with harts := t.harts, ctxs := t.ctxs, gangs := t.gangs, chans := t.chans, score := t.score } ∧
    (¬asks → t.chans = s.chans ∧ t.score = s.score) ∧
    (∀ n, n ≠ h.ctx → t.ctxOf n = s.ctxOf n) ∧ (∀ c g, ¬(c = h.ctx ∧ g = h.gang) → t.gangOf c g = s.gangOf c g) ∧
    (∀ m, m ≠ s.cur → t.hartAt m = { s.hartAt m with preempt := (t.hartAt m).preempt } ∧ (¬asks → t.hartAt m = s.hartAt m)) ∧
    t.hart = { h with v := t.hart.v, sr := t.hart.sr, st := t.hart.st, fw := t.hart.fw, acfgDec := t.hart.acfgDec, ticks := t.hart.ticks,
                      preempt := t.hart.preempt, struck := t.hart.struck } ∧ (r.num ≠ 0x005 → t.hart.struck = h.struck) ∧
    (¬asks → t.hart.preempt = h.preempt) ∧ (r.num ≠ 0x10D → t.hart.ticks = h.ticks) ∧
    t.hart.acfgDec = (if r.num = 0x008 then w else h.acfgDec) ∧ (r.num ≠ 0x100 → t.hart.st = h.st) ∧ t.hart.st.pl = h.st.pl ∧
    (r.num < 0x200 → t.hart.fw = h.fw) ∧ (r.num ≠ 0x005 → t.hart.v = s.hart.v) ∧
    (r.num = 0x005 → ∀ i : Fin 32, t.hart.v[i] =
      if s.hart.sr.dirty.getLsbD i.val = true ∧ w.getLsbD i.val = false then 0 else s.hart.v[i]))

/-- R345, R348, R352, R399: an exception taken at U, or at S with `TF` clear, saves the pc, the cause, its value and the element, saves the
level and `AIE` in `PPL` and `PAIE`, goes to S with `AIE` clear and `TF` set at the address of `STVEC`, ends a wait, and changes nothing
else of the state. A synchronous one at S with `TF` set is a double trap, which notes its cause and changes no trap register. At F with
`TF` clear it saves into the firmware's registers and goes to `FTVEC`; with `TF` set the slot halts. -/
def Obligations.TrapEntry : Prop :=
  (∀ (s : State) (n : Nat) (epc : BitVec 55) (cause : Nat) (eval : Word) (eidx : Nat), n < s.harts.length →
    ((s.hartAt n).st.pl = .u ∨ ((s.hartAt n).st.pl = .s ∧ (s.hartAt n).st.tf = false)) →
    let h := s.hartAt n
    let t := s.trapAt n epc cause eval eidx
    t.hartAt n = { h with
      sr := { h.sr with epc := epc.setWidth 64, cause := BitVec.ofNat 64 cause, eval := eval, eidx := BitVec.ofNat 64 eidx }
      st := { pl := .s, ppl := h.st.pl, aie := false, paie := h.st.aie, tf := true }
      pc := h.sr.stvec.setWidth 55, prevPc := h.pc, wait := none, undo := none, mid := false } ∧
    (∀ m, m ≠ n → t.hartAt m = s.hartAt m) ∧ t = { s with harts := t.harts } ∧ t.harts.length = s.harts.length)
  ∧ ∀ (s : State) (n : Nat) (epc : BitVec 55) (cause : Nat) (eval : Word) (eidx : Nat), n < s.harts.length →
    let h := s.hartAt n
    let t := s.trapAt n epc cause eval eidx
    (∀ m, m ≠ n → t.hartAt m = s.hartAt m) ∧
    (h.st.pl = .s → h.st.tf = true → cause < 0x80 → t.hartAt n = { h with dcause := some cause, wait := none }) ∧
    (h.st.pl = .f → h.fw.tf = false → t.hartAt n = { h with
      fw := { h.fw with fepc := epc.setWidth 64, fcause := BitVec.ofNat 64 cause, feval := eval, feidx := BitVec.ofNat 64 eidx
                        ppl := .f, tf := true }
      pc := h.fw.ftvec.setWidth 55, prevPc := h.pc, wait := none, undo := none, mid := false }) ∧
    (h.st.pl = .f → h.fw.tf = true → t.hartAt n = { h with status := HartStatus.halted, wait := none })

/-- R94, R97 to R102, R195, R202, R353, R399: `sys` and `ebrk` take SYSCALL and BREAK at their own address with `EVAL` the code of `IMM`,
zero-extended. `eret` at S goes to `EPC` and restores the level and `AIE`, clears `TF` and sets `PPL` to U; at F it goes to `FEPC` and
restores the level of `FSTAT`. `yield` changes nothing but the pc, the loop counts and `INSTRET`; `ifence` drops the code words fetched
ahead too; `fence` and `sbar` put an order point behind the accesses still to be performed, of the streams of `SMASK` and of its kinds. That
`eret` at S gives S where `PPL` is F is the model's choice (log 46). `tlbinv` performs the hart's earlier accesses and removes, of the entries within its scope,
those its form names. `hctl.wfi` completes when a cause is pending and waits when none is; `hctl.pre` requests PREEMPT for the bound harts
its operands name and gives D whether there is one. Once the streams of a set are drained no access of the hart in them is pending, and
what is left stood there before, in the same order. -/
def Obligations.SystemInstructionResults : Prop :=
  (∀ (f : Fields) (s : State), s.Clear f [] →
    (exec (.sys f) s = .next (s.trapAt s.cur s.hart.pc 0x14 (f.imm.setWidth 64) 0) ∧
    exec (.ebrk f) s = .next (s.trapAt s.cur s.hart.pc 0x13 (f.imm.setWidth 64) 0)) ∧
    (∃ t, exec (.eret f) s = .next t ∧
      (s.hart.st.pl = .s → t.hart.pc = s.hart.sr.epc.setWidth 55 ∧
        t.hart.st = { s.hart.st with tf := false, aie := s.hart.st.paie, ppl := .u,
                                     pl := if s.hart.st.ppl = .f then .s else s.hart.st.ppl } ∧ t.hart.fw = s.hart.fw) ∧
      (s.hart.st.pl = .f → t.hart.pc = s.hart.fw.fepc.setWidth 55 ∧ t.hart.st = { s.hart.st with pl := s.hart.fw.ppl } ∧
        t.hart.fw = { s.hart.fw with ppl := .f, tf := false }) ∧
      t.hart.sr = { s.hart.sr with instret := s.hart.sr.instret + 1 } ∧ t.hart.x = s.hart.x ∧ t.hart.p = s.hart.p ∧
      t.hart.v = s.hart.v ∧ t.hart.k = s.hart.k ∧ t.hart.s = s.hart.s ∧ t.hart.ma = s.hart.ma ∧ t.hart.q = s.hart.q ∧
      t.mem = s.mem ∧ ∀ m, m ≠ s.cur → t.hartAt m = s.hartAt m) ∧
    (exec (.yield f) s = .next (s.completes f id) ∧ exec (.ifence f) s = .next (s.completes f fun h => { h with ahead := [] }) ∧
    (let point (k : OrderKind) (h : Hart) : Hart :=
       if h.pend = [] then h else { h with pend := h.pend ++ [Access.of 0 false false (.order k (f.imm.extractLsb' 4 4))] }
     exec (.sbar f) s = .next (s.completes f (point .streams)) ∧
     exec (.fence f) s = .next (s.completes f fun h =>
       let h := if f.imm.getLsbD 9 then point .release h else h
       if f.imm.getLsbD 8 then point .acquire h else h))) ∧
    (let d := (s.drainAll s.cur).settleScope f
    let p := d.hart.place
    let inScope (e : TlbEntry) : Bool := match bitsAt f.imm.toNat 0 3 with
      | 1 => e.level.core == some ⟨p.die, p.cluster, p.core⟩
      | 3 => e.level.die == p.die
      | _ => true
    let left (hit : TlbEntry → Bool) (e : TlbEntry) : Option TlbEntry :=
      if hit e = false then some e else if inScope e = true then none
      else if bitsAt f.imm.toNat 0 3 = 1 ∧ e.level = .l2 p.die then some { e with bars := ⟨p.die, p.cluster, p.core⟩ :: e.bars } else some e
    let removes (hit : TlbEntry → Bool) : State := { d with tlb := d.tlb.filterMap (left hit) }
    exec (.tlbinvAll f) s = .next ((removes fun e => !e.pte.getLsbD 6).after f) ∧
    exec (.tlbinvAsid f) s = .next ((removes fun e => !e.pte.getLsbD 6 && e.asid == (d.hart.xr f.a).toNat % 2 ^ 16).after f) ∧
    exec (.tlbinvVa f) s = .next ((removes fun e => decide (e.vbase ≤ (d.hart.xr f.a).toNat) &&
      decide ((d.hart.xr f.a).toNat < e.vbase + e.size) && (e.pte.getLsbD 6 || e.asid == (d.hart.xr f.b).toNat % 2 ^ 16)).after f) ∧
    exec (.tlbinvGlob f) s = .next ((removes fun _ => true).after f)) ∧
    (((s.hart.preempt.isSome = true ∨ s.hart.causes ≠ []) → exec (.hctlWfi f) s = .next (s.completes f id)) ∧
    (s.hart.preempt = none → s.hart.causes = [] →
      exec (.hctlWfi f) s = .next (s.modHart fun h => h.sleep s.time none true)) ∧
    (let gid := if (s.hart.xr f.b).toNat % 2 ^ 32 = 0 then s.hart.gang else (s.hart.xr f.b).toNat % 2 ^ 32
     let named (x : Hart) : Bool := x.ctx == s.hart.ctx && x.gang == gid && x.hartid == (s.hart.xr f.a).toNat && x.bound
     exec (.hctlPre f) s = .next (State.after (({ s with harts := s.harts.map fun x =>
         if (named x && x.status == HartStatus.running) = true then { x with preempt := some (x.preempt == some true) } else x }).modHart fun h =>
       h.put f.d (.word (if s.harts.any named then 1 else 0))) f)))) ∧
  ∀ (s : State) (n : Nat) (m : Fin 4 → Bool), n < s.harts.length →
    (∀ a ∈ ((s.drainStreams n m).hartAt n).pend, a.isOrder = false → m a.stream = false) ∧
    List.Sublist ((s.drainStreams n m).hartAt n).pend (s.hartAt n).pend

/-- R97, R199, R200, R202: which of a hart's earlier accesses are performed before access `b`: those of its stream; all of them where `b` is a
release write; and those that an order point behind them keeps before `b`: of `sbar`, an access of its streams before one of its streams; of
`fence.rel`, an access of its streams before a write; of `fence.acq`, a read of its streams before every access. A stream barrier orders nothing
outside its streams, and an access that nothing orders waits for none. -/
def Obligations.AccessOrder : Prop :=
  (∀ (a b : Access) (x y : List Access), a.isOrder = false → b.isOrder = false →
    (a.stream = b.stream → a ∈ precursors (x ++ a :: y) b) ∧ (b.rel = true → a ∈ precursors (x ++ a :: y) b) ∧
    ∀ o ∈ y, ∀ m : BitVec 4,
      (o.op = .order .streams m → m.getLsbD a.stream.val = true → m.getLsbD b.stream.val = true → a ∈ precursors (x ++ a :: y) b) ∧
      (o.op = .order .release m → m.getLsbD a.stream.val = true → b.isWrite = true → a ∈ precursors (x ++ a :: y) b) ∧
      (o.op = .order .acquire m → m.getLsbD a.stream.val = true → a.isRead = true → a ∈ precursors (x ++ a :: y) b)) ∧
  ∀ (b : Access) (l : List Access), b.isOrder = false → b.rel = false → (∀ a ∈ l, a.isOrder = false → a.stream ≠ b.stream) →
    (∀ o ∈ l, o.isOrder = true → ∃ m : BitVec 4, o.op = .order .streams m ∧ m.getLsbD b.stream.val = false) → precursors l b = []

/-- R109, R15: a sweep of a tile of a legal shape gives each active element its value and leaves every other bit of the tile as it
was. -/
def Obligations.SweepElements : Prop :=
  ∀ (h : Hart) (f : Fields) (g : Geom) (w : Nat) (fn : Cell → Nat × Flags) (t : Nat), 0 < w → w * g.vl ≤ 1024 → g.vr ≤ 8 →
    (∀ r c, r < g.vr → c < g.len r →
      let p : Cell := ⟨r, c, r * g.vl + c⟩
      elemBits (pass (h.activeCells f g) (tileOff w) w fn t).1 w r c =
        if h.active f p = true then (fn p).1 % 2 ^ w else elemBits t w r c) ∧
    (∀ b, (∀ r c, r < g.vr → c < g.len r → h.active f ⟨r, c, r * g.vl + c⟩ = true →
        ¬(1024 * r + w * c ≤ b ∧ b < 1024 * r + w * c + w)) →
      (pass (h.activeCells f g) (tileOff w) w fn t).1.testBit b = t.testBit b)

/-- R142, R144 to R151: `mcfg` sets `ACFG` and its decode copy to a legal shape, from `IMM` or from x[A]; a value in x[A] that R141 does
not accept raises ILLEGAL with sub-code 0x0A, `FIELD` 4, and changes nothing else. Each other matrix form completes with the effect of
its table; a governed issue debits the gang's budget, or counts against the issue limit. That a reserved bit of R141's Table 1 in x[A] is
reported so is log 52 (DEDUCED). -/
def Obligations.MatrixResults : Prop :=
  (∀ (f : Fields) (s : State), s.ClearFork f [] →
    (acfgOk (f.imm.setWidth 64) = true → exec (.mcfgI f) s =
      .next (s.forks f fun h => { h with sr := { h.sr with acfg := f.imm.setWidth 64 }, acfgDec := f.imm.setWidth 64 })) ∧
    (acfgOk (s.hart.xr f.a) = true → exec (.mcfg f) s =
      .next (s.forks f fun h => { h with sr := { h.sr with acfg := h.xr f.a }, acfgDec := h.xr f.a })) ∧
    (acfgOk (s.hart.xr f.a) = false → exec (.mcfg f) s = .next (s.trap cILLEGAL 0x40A 0))) ∧
  ∀ e ∈ matrixForms, ∀ (f : Fields) (s : State), s.ClearFork f (e.also f) → e.chk f s.hart.acfg s.hart.geom = none →
    (e.governed = true → s.issueStalls f.ecls = false) →
    exec (e.instr f) s = .next ((if e.governed then (s.debitIssue f).modHart fun h => { h with stalled := none } else s).forks f (e.effect f))
/-- R140, R144: an accumulation gives each element under `ACFG` its new value, from the old one or from zero, and leaves every bit
outside the elements, the other accumulator, the tiles and memory as they were. -/
def Obligations.AccumulatorElements : Prop :=
  ∀ (h : Hart) (f : Fields) (n : Fin 2) (c : ACfg) (z : Bool) (fn : Nat → Nat → Nat → Nat × Flags × Nat),
    f.d = .ma n → h.late = [] → c.width * (c.rows * c.cols) ≤ 131072 →
    let t := accUpdate h f c z fn
    let old (i j : Nat) : Nat := bitsAt (h.ma[n]).toNat (c.width * (i * c.cols + j)) c.width
    (∀ i j, i < c.rows → j < c.cols → bitsAt (t.ma[n]).toNat (c.width * (i * c.cols + j)) c.width =
      (fn i j (if z then 0 else old i j)).1 % 2 ^ c.width) ∧
    (∀ b, c.width * (c.rows * c.cols) ≤ b → (t.ma[n]).getLsbD b = (h.ma[n]).getLsbD b) ∧
    (∀ m, m ≠ n → t.ma[m] = h.ma[m]) ∧ t.v = h.v ∧ t.x = h.x ∧ t.k = h.k ∧ t.p = h.p ∧ t.pc = h.pc

/-- The value of 8 aligned bytes of a die's register window (R183, R337, R365, R394). -/
def dieRegister (s : State) (d o : Nat) : Nat :=
  if o = 0 then (s.die d).srcarve else if o = 8 then (if (s.die d).resuming.isSome then 2 ^ 63 else 0)
  else if o = 0x10 then (s.die d).rascnt.toNat else 0
/-- R155, R337: `ld` from memory that its checks admit reads the naturally aligned little-endian number at x[A] + sext(IMM), extends it as `U`
says, and writes D; nothing else of the hart and no byte of memory changes. From the register window of a die of its own package it reads the
bytes of the register there, and zero where there is none: `SRCARVE`, `CTXRES` and `RASCNT` (R183, R365, R394); that a narrow load takes its
bytes of an 8-byte register is log 23 (DEDUCED). -/
def Obligations.LoadResults : Prop :=
  (∀ (f : Fields) (s : State) (pa : Nat) (win : Bool) (cls d o : Nat), s.Clear f [] → s.still = true →
    let a := (s.hart.xr f.a + f.imm.signExtend 64).toNat
    let n := 2 ^ (f.fn.toNat % 4)
    a % n = 0 → s.accessChk .load .read true a n = .ok pa win cls → s.isMmio pa = true → s.home (pa / 8 * 8) = .dieMmio d o → pkgOf pa = s.pkg →
    let m := bitsAt (dieRegister s d o) (8 * (pa % 8)) (8 * n)
    let v : Word := if f.fn.getLsbD 2 then BitVec.ofNat 64 m
      else if m.testBit (8 * n - 1) then BitVec.ofNat 64 (2 ^ 64 - 2 ^ (8 * n) + m) else BitVec.ofNat 64 m
    exec (.ld f) s = .next (s.completes f fun h => h.put f.d (asScalar f.d v))) ∧
  ∀ (f : Fields) (s : State) (pa : Nat) (win : Bool) (cls : Nat), s.Clear f [] → s.still = true →
    let a := (s.hart.xr f.a + f.imm.signExtend 64).toNat
    let n := 2 ^ (f.fn.toNat % 4)
    a % n = 0 → s.accessChk .load .read true a n = .ok pa win cls → s.isMmio pa = false → s.poisoned pa n = false →
    let m := s.readN pa n
    let v : Word := if f.fn.getLsbD 2 then BitVec.ofNat 64 m
      else if m.testBit (8 * n - 1) then BitVec.ofNat 64 (2 ^ 64 - 2 ^ (8 * n) + m) else BitVec.ofNat 64 m
    ∃ t, exec (.ld f) s = .next t ∧ (∀ d, f.d = .x d → t.hart.getX d = if d = 0 then 0 else v) ∧
      (∀ d, f.d = .p d → t.hart.getP d = (decide (d = 0) || v != 0)) ∧ s.hart.Keeps t.hart f f.d ∧ t.mem = s.mem ∧
      (∀ k, k ≠ s.cur → t.hartAt k = s.hartAt k)
/-- R155, R183, R337: `st` to memory that its checks admit writes the low bytes of x[B] at x[A] + sext(IMM), and every other byte of memory and
every register keeps its value. In the register window of a die of its package it changes `SRCARVE` where 8 bytes of at most 16 are stored to
it, and nothing of the window where no register is that a store writes. -/
def Obligations.StoreResults : Prop :=
  (∀ (f : Fields) (s : State) (pa : Nat) (win : Bool) (cls d o : Nat), s.Clear f [] → s.still = true →
    let a := (s.hart.xr f.a + f.imm.signExtend 64).toNat
    let n := 2 ^ (f.fn.toNat % 4)
    a % n = 0 → s.accessChk .store .write true a n = .ok pa win cls → s.isMmio pa = true → s.home (pa / 8 * 8) = .dieMmio d o → pkgOf pa = s.pkg →
    (o ≠ 0 → o ≠ 8 → exec (.st f) s = .next (s.completes f id)) ∧
    (o = 0 → n = 8 → d < 16 → ∃ t, exec (.st f) s = .next t ∧ s.hart.Keeps t.hart f (.x 0) ∧ (∀ e, e ≠ d → t.die e = s.die e) ∧
      (t.die d).srcarve = if (s.hart.xr f.b).toNat ≤ 16 then (s.hart.xr f.b).toNat else (s.die d).srcarve)) ∧
  ∀ (f : Fields) (s : State) (pa : Nat) (win : Bool) (cls : Nat), Mem.wf s.mem = true → s.Clear f [] → s.still = true →
    let a := (s.hart.xr f.a + f.imm.signExtend 64).toNat
    let n := 2 ^ (f.fn.toNat % 4)
    a % n = 0 → s.accessChk .store .write true a n = .ok pa win cls → s.isMmio pa = false → s.partPoisoned pa n = false →
    s.lost pa = false →
    ∃ t, exec (.st f) s = .next t ∧ t.readN pa n = (s.hart.xr f.b).toNat % 2 ^ (8 * n) ∧
      (∀ b, b < pa ∨ pa + n ≤ b → t.readByte b = s.readByte b) ∧ s.hart.Keeps t.hart f (.x 0)
/-- R156 to R161: a tile load whose elements pass every check reads the active elements from `VSTART` on into D, keeping the others,
clears `VSTART`, and changes no memory; a queue takes an entry with the tile and the shape. A tile store whose elements pass every check writes
the active elements from `VSTART` on, and every byte outside them keeps its value; `VSTART` is cleared. That a store's elements are performed in
ascending order is log 7 (DESIGN CHOICE: R162 gives an order for `.sc` alone), and what the elements that a load does not write hold in a queue's entry
is free (log 21). -/
def Obligations.TileAccessResults : Prop :=
  ∀ (f : Fields) (s : State) (l : List (Elem × Piece)), s.Clear f [] → s.still = true → s.hart.cut = none →
    (∀ e ∈ tileLoads, e.chk f s.hart.geom = none → e.refused f s = false → s.hart.resumesQ f = false →
      s.probe .load .read (e.todo f s) = (l, .none) → s.firstPoison false (l.map (·.2)) = none →
      ∃ t, exec (e.instr f) s = .next t ∧ t.hart.sr.vstart = 0 ∧ t.mem = s.mem ∧ s.hart.Keeps t.hart f f.d ∧
        (∀ n, f.d = .v n → t.hart.v[n] = BitVec.ofNat 8192 (elemsInto s (s.hart.v[n]).toNat l)) ∧
        (∀ n, f.d = .q n → (∀ m, f.a ≠ .q m ∧ f.c ≠ .q m) → ∃ x, (t.hart.q[n]).getLast? = some x ∧ x.filled = true ∧
          x.shape = s.hart.shape ∧ x.tile = BitVec.ofNat 8192 (elemsInto s (Config.freeTile s.hart.own).toNat l))) ∧
    ∀ e ∈ tileStores, Mem.wf s.mem = true → e.chk f s.hart.geom = none → s.probe .store .write (e.todo f s) = (l, .none) →
      s.firstPoison true (l.map (·.2)) = none → (∀ x ∈ l, s.lost x.2.pa = false) →
      ∃ t, exec (e.instr f) s = .next t ∧ t.hart.sr.vstart = 0 ∧ s.hart.Keeps t.hart f (.x 0) ∧
        (∀ a, t.readByte a = (elemsFrom s (s.hart.tr f.c).toNat l).readByte a) ∧
        ∀ a, (∀ x ∈ l, outside a x) → t.readByte a = s.readByte a

/-- R153, R155, R161: an address of `ld` or `st` that is not a multiple of the size raises MISALIGNED, and a failed check raises its
cause, with the address in `EVAL` and `VSTART` cleared; of what translations are held, a page fault can only drop some (R342). A tile load or store whose element e fails a check performs the elements
before it, sets `VSTART` to e, and raises the cause with `EIDX` e; PHASE alone has nothing of the instruction performed (R226; DEDUCED, log 53).
Which elements stand before e, and their order, is log 7, that a scalar fault has `EIDX` 0 log 10, the dropped translation log 16. -/
def Obligations.AccessFaults : Prop :=
  (∀ (f : Fields) (s : State), s.Clear f [] → s.still = true →
    let a := (s.hart.xr f.a + f.imm.signExtend 64).toNat
    let n := 2 ^ (f.fn.toNat % 4)
    let raises (c v : Nat) : State := (s.modSr fun r => { r with vstart := 0 }).trap c (BitVec.ofNat 64 v) 0
    let faults (i : Instr) (c v : Nat) : Prop := ∃ t l, exec i s = .next t ∧ t = { raises c v with tlb := l } ∧ List.Sublist l s.tlb ∧
      (c ≠ cLOAD → c ≠ cSTORE → l = s.tlb)
    (a % n ≠ 0 → exec (.ld f) s = .next (raises cMISALIGNED a) ∧ exec (.st f) s = .next (raises cMISALIGNED a)) ∧
    (∀ c v, c ≠ cDATA → a % n = 0 → s.accessChk .load .read true a n = .trap c v → faults (.ld f) c v) ∧
    (∀ c v, c ≠ cDATA → a % n = 0 → s.accessChk .store .write true a n = .trap c v → faults (.st f) c v)) ∧
  ∀ (f : Fields) (s : State) (l : List (Elem × Piece)) (c v e : Nat), s.Clear f [] → s.still = true → s.hart.cut = none →
    (s.hart.st.pl = .u ∨ (s.hart.st.pl = .s ∧ s.hart.st.tf = false)) →
    (∀ o ∈ tileLoads, o.chk f s.hart.geom = none → o.refused f s = false → s.probe .load .read (o.todo f s) = (l, .fault cPHASE v e) →
      s.firstPoison false (l.map (·.2)) = none → exec (o.instr f) s = .next (s.trap cPHASE (BitVec.ofNat 64 v) e)) ∧
    (∀ o ∈ tileStores, o.chk f s.hart.geom = none → s.probe .store .write (o.todo f s) = (l, .fault cPHASE v e) →
      s.firstPoison true (l.map (·.2)) = none → exec (o.instr f) s = .next (s.trap cPHASE (BitVec.ofNat 64 v) e)) ∧
    (∀ o ∈ tileLoads, ∀ n, c ≠ cPHASE → f.d = .v n → o.chk f s.hart.geom = none → o.refused f s = false →
      s.probe .load .read (o.todo f s) = (l, .fault c v e) → s.firstPoison false (l.map (·.2)) = none →
      ∃ t, exec (o.instr f) s = .next t ∧ t.hart.sr.vstart = BitVec.ofNat 64 e ∧ t.hart.sr.eidx = BitVec.ofNat 64 e ∧
        t.hart.sr.cause = BitVec.ofNat 64 c ∧ t.hart.sr.eval = BitVec.ofNat 64 v ∧ t.hart.sr.epc = s.hart.pc.setWidth 64 ∧
        t.hart.pc = s.hart.sr.stvec.setWidth 55 ∧ t.hart.v[n] = BitVec.ofNat 8192 (elemsInto s (s.hart.v[n]).toNat l) ∧ t.mem = s.mem) ∧
    (∀ o ∈ tileStores, c ≠ cPHASE → o.chk f s.hart.geom = none → s.probe .store .write (o.todo f s) = (l, .fault c v e) →
      s.firstPoison true (l.map (·.2)) = none → (∀ x ∈ l, s.lost x.2.pa = false) →
      ∃ t, exec (o.instr f) s = .next t ∧ t.hart.sr.vstart = BitVec.ofNat 64 e ∧ t.hart.sr.eidx = BitVec.ofNat 64 e ∧
        t.hart.sr.cause = BitVec.ofNat 64 c ∧ t.hart.sr.eval = BitVec.ofNat 64 v ∧ t.hart.sr.epc = s.hart.pc.setWidth 64 ∧
        t.hart.pc = s.hart.sr.stvec.setWidth 55 ∧ ∀ a, t.readByte a = (elemsFrom s (s.hart.tr f.c).toNat l).readByte a)
/-- R163, R165 to R167: `vld.r` and `vst.r` move a whole register image; `vstbm` stores the sparse form of a tile when it fits its
reserved size, and raises SPARSE_OVERRUN with the size it needs when it does not; `vldbm` reads such a form back. -/
def Obligations.ImageResults : Prop :=
  ∀ (f : Fields) (s : State) (l : List Piece), Mem.wf s.mem = true → s.Clear f [] → s.still = true → (s.hart.xr f.a).toNat % 64 = 0 →
    (s.chkRange .load .read (s.hart.xr f.a).toNat (imageBytes f.d) = .ok l → s.firstPoison false l = none →
      ∃ t, exec (.vldR f) s = .next t ∧ t.mem = s.mem ∧ s.hart.Keeps t.hart f f.d ∧
        (∀ n, f.d = .v n → t.hart.v[n] = BitVec.ofNat 8192 (s.gather l)) ∧
        (∀ n, f.d = .k n → t.hart.k[n] = BitVec.ofNat 4096 (s.gather l)) ∧
        (∀ n, f.d = .s n → t.hart.s[n] = BitVec.ofNat 1024 (s.gather l))) ∧
    (s.chkRange .store .write (s.hart.xr f.a).toNat (imageBytes f.c) = .ok l → s.firstPoison true l = none →
      (∀ p ∈ l, s.lost p.pa = false) →
      ∃ t, exec (.vstR f) s = .next t ∧ s.hart.Keeps t.hart f (.x 0) ∧
        (∀ a, (∀ p ∈ l, a < p.pa ∨ p.pa + p.n ≤ a) → t.readByte a = s.readByte a) ∧
        ∀ a, t.readByte a = ((storeParts (s.hart.image f.c) l).foldl (fun s p => s.writeBits p.pa p.bit p.width p.value) s).readByte a) ∧
    (let im := sparseImage s.hart.geom (s.hart.tr f.b).toNat
     sparseChk s.hart.geom = none → im.2 ≤ f.imm.toNat → s.chkRange .store .write (s.hart.xr f.a).toNat im.2 = .ok l →
      s.firstPoison true l = none → (∀ p ∈ l, s.lost p.pa = false) →
      ∃ t, exec (.vstbm f) s = .next t ∧ s.hart.Keeps t.hart f (.x 0) ∧
        (∀ a, (∀ p ∈ l, a < p.pa ∨ p.pa + p.n ≤ a) → t.readByte a = s.readByte a) ∧
        ∀ a, t.readByte a = ((storeParts im.1 l).foldl (fun s p => s.writeBits p.pa p.bit p.width p.value) s).readByte a) ∧
    (let im := sparseImage s.hart.geom (s.hart.tr f.b).toNat
     sparseChk s.hart.geom = none → f.imm.toNat < im.2 → exec (.vstbm f) s =
      .next ((s.modSr fun r => { r with vstart := 0 }).trap cSPARSE (BitVec.ofNat 64 im.2) 0)) ∧
    (∀ (l1 l2 l3 : List Piece) (hd m vals : Nat) (n : Fin 32), f.d = .v n →
      let a := (s.hart.xr f.a).toNat
      let cnt := s.hart.geom.cells.length
      sparseChk s.hart.geom = none → s.readChk a 8 = .ok (l1, hd) → hd / 2 ^ 32 = cnt → hd % 2 ^ 32 ≤ cnt →
      s.readChk ((a + 8) % 2 ^ 64) (maskBytes cnt) = .ok (l2, m) → popBelow m cnt = hd % 2 ^ 32 → m < 2 ^ cnt →
      s.readChk ((a + 8 + maskBytes cnt) % 2 ^ 64) (hd % 2 ^ 32 * (s.hart.geom.sew / 8)) = .ok (l3, vals) →
      ∃ t, exec (.vldbm f) s = .next t ∧ t.mem = s.mem ∧ s.hart.Keeps t.hart f f.d ∧
        t.hart.v[n] = BitVec.ofNat 8192 (unpackTile s.hart.geom m vals (s.hart.v[n]).toNat))
/-- R165, R167: the tile that the sparse form of a tile gives back has the same elements, where it is unpacked over a tile of
zeros. -/
def Obligations.SparseRoundTrip : Prop :=
  ∀ (g : Geom) (t : Nat), 8 ≤ g.sew → g.sew * g.vl ≤ 1024 → g.vr ≤ 8 →
    let im := (sparseImage g t).1
    let n := g.cells.length
    let m := im / 2 ^ 64 % 2 ^ (8 * maskBytes n)
    im / 2 ^ 32 % 2 ^ 32 = n ∧ popBelow m n = im % 2 ^ 32 ∧ m < 2 ^ n ∧
    ∀ r c, r < g.vr → c < g.len r →
      elemBits (unpackTile g m (im / 2 ^ (64 + 8 * maskBytes n)) 0) g.sew r c = elemBits t g.sew r c

/-- R168, R169, R171: `amo` performs one atomic at x[A]: memory takes the new value of its operation, or keeps its value when a
comparison fails, D takes the old one, extended, and every other byte and register stays. `vredm` performs one with the
reduction of B. -/
def Obligations.AtomicResults : Prop :=
  ∀ (f : Fields) (s : State) (pa : Nat) (win : Bool) (cls : Nat), Mem.wf s.mem = true → s.Clear f [] → s.still = true →
    let a := (s.hart.xr f.a).toNat
    let step (w v alt : Nat) (d : Reg) (t : State) : Prop :=
      let m := s.readN pa (w / 8)
      t.readN pa (w / 8) = (if atomicWrites (amOp f) m v then atomicNew (amOp f) w m v alt else m) ∧
      (∀ b, b < pa ∨ pa + w / 8 ≤ b → t.readByte b = s.readByte b) ∧
      (∀ n, d = .x n → t.hart.getX n = if n = 0 then 0 else BitVec.ofNat 64 ((amExt (amOp f) w).apply m))
    let admits (w : Nat) : Prop := a % (w / 8) = 0 ∧ s.accessChk .atomic (amRace f) false a (w / 8) = .ok pa win cls ∧
      s.poisoned pa (w / 8) = false
    addRefused f s = false →
    (let w := if f.fn.getLsbD 4 then 64 else 32
     admits w → ∃ t, exec (.amo f) s = .next t ∧ s.hart.Keeps t.hart f f.d ∧
      step w ((s.hart.xr f.b).toNat % 2 ^ w) ((s.hart.xr f.c).toNat % 2 ^ w) f.d t) ∧
    (let g := amGeom (amOp f) s.hart.geom
     let r := redTree (amRed (amOp f)) g (g.rm f) ((s.hart.activeCells f g).map fun p => (p.e, elemBits (s.hart.tr f.b).toNat g.sew p.r p.c))
     amChk f s.hart.geom = none → admits g.sew → ∃ t, exec (.vredm f) s = .next t ∧ step g.sew r.1 0 f.d t ∧
      t.hart.sr.fflags = s.hart.sr.fflags ||| r.2.setWidth 64)
/-- R169, R170: the vector atomics perform one atomic for each active element from `VSTART` on, with its data from C and its old value to D, and
clear `VSTART`. That they do so in ascending order is the model's choice (DESIGN CHOICE, log 8): no rule gives an order. -/
def Obligations.VectorAtomicResults : Prop :=
  ∀ (ordered : Bool) (f : Fields) (s : State) (l : List (Elem × Piece)), Mem.wf s.mem = true → s.Clear f [] → s.still = true → s.hart.cut = none →
    amChk f s.hart.geom = none → addRefused f s = false → (s.hart.det && !ordered && f.d != .x 0) = false →
    s.probe .atomic (amRace f) (((s.hart.activeCells f s.hart.geom).map (elemIndexed s f s.hart.geom)).filter (s.hart.vstart ≤ ·.e)) =
      (l, .none) →
    (∀ x ∈ l, s.poisoned x.2.pa x.2.n = false) →
    let one (acc : State × Nat) (x : Elem × Piece) : State × Nat :=
      let r := acc.1.rmw ⟨x.2.va, x.2.pa, x.1.width, amOp f, bitsAt (s.hart.tr f.c).toNat x.1.off x.1.width, 0, x.1.off⟩
      (r.2, putBits acc.2 x.1.off x.1.width r.1)
    let u := l.foldl one (s, s.hart.image f.d)
    ∃ t, exec (if ordered then .vamoo f else .vamo f) s = .next t ∧ t.hart.sr.vstart = 0 ∧ s.hart.Keeps t.hart f f.d ∧
      (∀ a, t.readByte a = u.1.readByte a) ∧ (∀ a, (∀ x ∈ l, outside a x) → t.readByte a = s.readByte a) ∧
      (∀ n, f.d = .v n → t.hart.v[n] = BitVec.ofNat 8192 u.2)

/-- R174, R175: outside phased mode `pf` changes nothing, `pf.tx` starts a prefetch of its sectors for its barrier, and the base-die
instructions read their 64-byte block and fork its command; each goes on to the next instruction. In a deterministic gang a prefetch
marks what it reads (R295). -/
def Obligations.EngineIssueResults : Prop :=
  ∀ (f : Fields) (s : State), s.Clear f [] → s.hart.phased = false → s.still = true →
    exec (.pf f) s = .next (s.completes f id) ∧
    (let n := (s.hart.xr f.b).toNat
     (s.hart.xr f.a).toNat % 64 = 0 → n % 64 = 0 → n ≤ 0x4000000 → (s.hartBar (s.hart.xr f.c).toNat).isSome = true →
      let p : Prefetch := ⟨s.nextOp, s.agent, (s.hart.xr f.a).toNat, n / 64, (s.hart.xr f.c).toNat⟩
      let u : State := { s with nextOp := s.nextOp + 1, prefetches := s.prefetches ++ [p] }
      exec (.pfTx f) s = .next (State.after (if n = 0 then s
        else u.mark s.agent s.hart.place.die s.hart.place.cluster (.prefetch p.id) false p.va n) f)) ∧
    ∀ e ∈ baseForms, ∀ (l : List Piece) (v : Nat), (s.hart.xr f.a).toNat % 64 = 0 → s.readChk (s.hart.xr f.a).toNat 64 = .ok (l, v) →
      ∃ t o, exec (e.1 f) s = .next t ∧ t.baseOps = s.baseOps ++ [o] ∧ o.kind = e.2 ∧ o.addr = (s.hart.xr f.a).toNat ∧
        o.words = words8 v ∧ o.agent = s.agent ∧ o.own = s.hart.own ∧ t.mem = s.mem ∧ s.hart.Keeps t.hart f (.x 0)

/-- R215: an arrival of `da` and a credit of `ds` at a barrier image: too many arrivals, or a sector count outside 32 bits, set the error
field alone and keep an earlier error; the arrival and the credit that bring both counts to zero complete the phase, which
steps modulo 16 with the counts reloaded; any other takes effect on the counts alone. -/
def Obligations.BarrierUpdate : Prop :=
  ∀ (v da : Nat) (ds : Int) (posted : Bool), v < 2 ^ 128 →
    let r := barUpdate v da ds posted
    let sect := barSect v + ds
    let fits := -(2 ^ 31 : Int) ≤ sect ∧ sect < (2 ^ 31 : Int)
    let kept := r.1 % 2 ^ 96 = v % 2 ^ 96 ∧ barErrBit r.1 = true ∧ r.2 = (false, true) ∧ (barErrBit v = true → r.1 = v)
    (barArrPend v < da → kept ∧ (barErrBit v = false → bitsAt r.1 120 7 = 1)) ∧
    (da ≤ barArrPend v → ¬fits → kept ∧ (barErrBit v = false → bitsAt r.1 120 7 = 2)) ∧
    (da = barArrPend v → fits → sect = 0 → barPhase r.1 = (barPhase v + 1) % 16 ∧ barArrPend r.1 = barInit v ∧ barSect r.1 = 0 ∧
      bitsAt r.1 4 4 = 0 ∧ bitsAt r.1 64 64 = bitsAt v 64 64 ∧ r.2 = (true, false)) ∧
    (da ≤ barArrPend v → fits → ¬(da = barArrPend v ∧ sect = 0) → barPhase r.1 = barPhase v ∧ barArrPend r.1 = barArrPend v - da ∧
      barSect r.1 = sect ∧ (posted = true → r.1.testBit 5 = true) ∧ (posted = false → r.1.testBit 5 = v.testBit 5) ∧
      bitsAt r.1 64 64 = bitsAt v 64 64 ∧ r.2 = (false, false))

/-- R214, R217, R218: at a barrier the arriving forms update it and give D the phase they found; `txarr.init` writes a whole barrier of
x[B] arrivals; an operand out of range raises ACCESS. An address that names no barrier raises ACCESS. `txwait` completes with 0 when the barrier's phase is not the one of x[B] or a completion has been seen, with `STATUS`
when the barrier has failed, with 1 when `TTMO` has run out, and else waits at the barrier. -/
def Obligations.TransactionBarrierResults : Prop :=
  (∀ (f : Fields) (s : State), s.Clear f [] → s.still = true →
    (∀ pa, s.hartBar (s.hart.xr f.a).toNat = some pa → s.testing pa 16 = false → s.poisoned pa 16 = false →
      let b := (s.hart.xr f.b).toNat
      let arrives (da : Nat) (ds : Int) (posted : Bool) : State :=
        State.after ((s.barStep pa da ds posted).modHart fun h => h.put f.d (.word (BitVec.ofNat 64 (barPhase (s.readN pa 16))))) f
      exec (.barvTx f) s = .next (arrives (s.hart.geom.cells.filter fun p => (s.hart.kr f.b).getLsbD p.e).length 0 false) ∧
      exec (.barvTxX f) s = .next (arrives b 0 false) ∧ exec (.txarr f) s = .next (arrives 1 0 false) ∧
      (b < 2 ^ 31 → exec (.txpost f) s = .next (arrives 1 b true)) ∧
      (2 ^ 31 ≤ b → exec (.txpost f) s = .next (s.trap cACCESS (s.hart.xr f.b) 0)) ∧
      (0 < b → b < 2 ^ 24 → exec (.txarrInit f) s =
        .next (((s.writeN pa (b * 2 ^ 64 + b * 2 ^ 8) 16).wakeWaiters pa false).after f)) ∧
      (b = 0 ∨ 2 ^ 24 ≤ b → exec (.txarrInit f) s = .next (s.trap cACCESS (s.hart.xr f.b) 0))) ∧
    (s.hartBar (s.hart.xr f.a).toNat = none → ∀ i ∈ [Instr.barvTx f, .barvTxX f, .txarr f, .txpost f, .txarrInit f, .txwait f],
      exec i s = .next (s.trap cACCESS (s.hart.xr f.a) 0))) ∧
  ∀ (f : Fields) (s : State) (pa : Nat), s.Clear f [] → s.still = true → s.hartBar (s.hart.xr f.a).toNat = some pa →
    s.testing pa 16 = false → s.poisoned pa 16 = false →
    let v := s.readN pa 16
    let seen := s.hart.wait.any (·.seen)
    let gives (w : Nat) : State := s.completes f fun h => h.put f.d (.word (BitVec.ofNat 64 w))
    let there := v % 16 = (s.hart.xr f.b).toNat % 16
    ((¬there ∨ seen = true) → exec (.txwait f) s = .next (gives 0)) ∧
    (there → seen = false → barErrBit v = true → exec (.txwait f) s = .next (gives (bitsAt v 96 32))) ∧
    (there → seen = false → barErrBit v = false → s.expired = true → exec (.txwait f) s = .next (gives 1)) ∧
    (there → seen = false → barErrBit v = false → s.expired = false →
      exec (.txwait f) s = .next (s.modHart fun h => h.sleep s.time (some pa) false))

/-- R219, R220: `barv.g` arrives at the gang's phase in progress with its count; `barw` gives D the total of the phase the hart arrived
at once that phase is complete, and of the last one when it has no arrival pending; `gsync` arrives with 1 and waits. The phase in progress completes once every member has arrived or exited: the next one begins with the members that have exited
counted as arrived and a total of zero, and the completed total is kept; else nothing changes. R290: `EPOCH` rises as a wait consumes its
arrival. R221: a `barw` or `gsync` whose `TTMO` has run out gives all ones and leaves its arrival pending.
That `barw` with no arrival pending gives the last total, and where `EPOCH` rises, is log 26. -/
def Obligations.GangBarrierResults : Prop :=
  (∀ (f : Fields) (s : State) (g : Gang), s.Clear f [] → s.still = true → s.gang = some g → s.hart.det = false → g.det = false →
    let gives (t : State) (w : Word) : State := State.after (t.modHart fun h => h.put f.d (.word w)) f
    let past : State := s.modHart fun h => { h.nextEpoch with arrival := none }
    (s.hart.arrival = none →
      exec (.barvG f) s = .next ((s.hartArrive (maskCount s.hart f)).after f) ∧
      exec (.barvGX f) s = .next ((s.hartArrive (s.hart.xr f.b).toNat).after f) ∧
      exec (.barw f) s = .next (gives s (BitVec.ofNat 64 (g.totals.headD 0)))) ∧
    (∀ p, s.hart.arrival = some p → p < g.phase →
      exec (.barvG f) s = .next ((past.hartArrive (maskCount s.hart f)).after f) ∧
      exec (.barvGX f) s = .next ((past.hartArrive (s.hart.xr f.b).toNat).after f) ∧
      exec (.barw f) s = .next (gives past (BitVec.ofNat 64 (g.totalOf p))) ∧
      exec (.gsync f) s = .next (gives past (BitVec.ofNat 64 (g.totalOf p)))) ∧
    (∀ p, s.hart.arrival = some p → g.phase ≤ p → s.expired = false →
      ∀ i ∈ [Instr.barvG f, .barvGX f, .barw f, .gsync f], exec i s = .next (s.modHart fun h => h.sleep s.time none false)) ∧
    (∀ p, s.hart.arrival = some p → g.phase ≤ p → s.expired = true →
      exec (.barw f) s = .next (gives s (BitVec.allOnes 64)) ∧ exec (.gsync f) s = .next (gives s (BitVec.allOnes 64))) ∧
    (s.hart.arrival = none → s.hart.member = true → g.nhart ≤ g.arrived + 1 → g.exited < g.nhart →
      ∃ t, exec (.gsync f) s = .next t ∧ t.hart.arrival = none ∧
        t.hart = (popQueues (({ s.hart.nextEpoch with arrival := none } : Hart).put f.d
          (.word (BitVec.ofNat 64 ((g.total + 1) % 2 ^ 63)))) f).retire)) ∧
  ∀ (s : State) (ctx gid : Nat) (g : Gang), s.gangOf ctx gid = some g → g.det = false → g.exited < g.nhart →
    (g.nhart ≤ g.arrived → (s.gangTest ctx gid).gangOf ctx gid =
      some { g with phase := g.phase + 1, arrived := g.exited, total := 0, totals := g.total :: g.totals }) ∧
    (g.arrived < g.nhart → s.gangTest ctx gid = s)

/-- R221 to R223, R225, R296: `cwait` gives D the word at x[A] once it is at least x[B], in a deterministic gang x[B] itself, and waits until then;
`marm` arms the line of x[A]; `mwait` disarms it with 0 once a write has touched the line, 3 where none is armed. In phased mode `phase.c` and `phase.x` set the step kind to 1 and 2, elsewhere they raise PHASE; `phase.get` gives the kind,
0 outside phased mode. A wait whose `TTMO` has run out gives its own result; in a deterministic gang `marm` and `mwait` raise NONDET. -/
def Obligations.WaitPhaseResults : Prop :=
  (∀ (f : Fields) (s : State), s.Clear f [] → s.still = true →
    let a := (s.hart.xr f.a).toNat
    let gives (w : Word) : State := s.completes f fun h => h.put f.d (.word w)
    let returns (w : Word) : State := s.completes f fun h => ({ h with monitor := none } : Hart).put f.d (.word w)
    (∀ pa win cls, a % 8 = 0 → s.waitAddr a = .ok pa win cls → (win && s.scoreStalls pa 8 false) = false → s.poisoned pa 8 = false →
      let v := s.readN pa 8
      ((s.hart.xr f.b).toNat ≤ v → exec (.cwait f) s = .next (gives (if s.hart.det then s.hart.xr f.b else BitVec.ofNat 64 v))) ∧
      (v < (s.hart.xr f.b).toNat → s.expired = true → exec (.cwait f) s = .next (gives (BitVec.ofNat 64 v))) ∧
      (v < (s.hart.xr f.b).toNat → s.expired = false →
        exec (.cwait f) s = .next (s.modHart fun h => h.sleep s.time (some (pa / 64 * 64)) false))) ∧
    (∀ pa win cls, s.hart.det = false → s.waitAddr a = .ok pa win cls → s.watchesFull pa = false →
      exec (.marm f) s = .next (s.completes f fun h => { h with monitor := some ⟨pa / 64 * 64, false⟩ })) ∧
    (s.hart.det = false → s.hart.monitor = none → exec (.mwait f) s = .next (returns 3)) ∧
    (∀ m, s.hart.det = false → s.hart.monitor = some m → m.woken = true → exec (.mwait f) s = .next (returns 0)) ∧
    (∀ m, s.hart.det = false → s.hart.monitor = some m → m.woken = false → s.expired = true → exec (.mwait f) s = .next (returns 1)) ∧
    (∀ m, s.hart.det = false → s.hart.monitor = some m → m.woken = false → s.expired = false →
      (s.hart.preempt.isSome = true ∨ s.hart.causes ≠ []) → exec (.mwait f) s = .next (returns 2)) ∧
    (s.hart.det = true → exec (.marm f) s = .next (s.trap cNONDET 5 0) ∧ exec (.mwait f) s = .next (s.trap cNONDET 5 0))) ∧
  ∀ (f : Fields) (s : State), s.Clear f [] →
    (s.hart.phased = true → exec (.phaseC f) s = .next (s.completes f fun h => { h with stepKind := 1 }) ∧
      exec (.phaseX f) s = .next (s.completes f fun h => { h with stepKind := 2 })) ∧
    (s.hart.phased = false → exec (.phaseC f) s = .next (s.trap cPHASE 0 0) ∧ exec (.phaseX f) s = .next (s.trap cPHASE 0 0)) ∧
    exec (.phaseGet f) s = .next (s.completes f fun h =>
      h.put f.d (.word (if s.hart.phased then BitVec.ofNat 64 s.hart.stepKind else 0)))

/-- R186 to R188: `bdecl` adds a buffer whose range is free in its cluster, STAGED ones EMPTY and others FULL, and zeroes a BARRIER one;
`bdecl.free` removes one with nothing in flight; `bset` sets the state of one, with its count of sectors cleared; `bset.get`
gives its image, 0 for none. An entry that may not be changed raises BUFFER_STATE with its number. -/
def Obligations.BufferResults : Prop :=
  ∀ (f : Fields) (s : State), s.Clear f [] → s.still = true →
    let i := f.imm.toNat % 64
    let off := (s.hart.xr f.a).toNat - spadWin
    let n := (s.hart.xr f.b).toNat
    let kind := bufKindOf (bitsAt f.imm.toNat 8 2)
    let st := bufStateOf (bitsAt f.imm.toNat 8 2)
    let b : Buf := ⟨s.hart.ctx, s.hart.place.die, s.hart.place.cluster, i, off, n, kind, f.imm.getLsbD 10,
      if kind = .staged then .empty else .full, 0, 0, 0⟩
    let bad : State := s.trap cBUFFER (BitVec.ofNat 64 i) 0
    (inSpadWin (s.hart.xr f.a).toNat = true → (s.hart.xr f.a).toNat % 64 = 0 → 0 < n → n % 64 = 0 → off + n ≤ spadBytes →
      s.bufEntry i = none →
      (∀ c ∈ s.bufs, c.ctx = b.ctx → c.die = b.die → c.cluster = b.cluster → off + n ≤ c.base ∨ c.base + c.size ≤ off) →
      exec (.bdecl f) s = .next (State.after (let t := { s with bufs := s.bufs ++ [b] }
        if kind = .barrier then t.writeN (t.spadPa b.die b.cluster off) 0 n else t) f)) ∧
    (∀ c, s.bufEntry i = some c → c.infl + c.outfl = 0 →
      exec (.bdeclFree f) s = .next (State.after { s with bufs := s.bufs.filter (· != c) } f) ∧
      (c.kind = .staged ∨ (c.kind = .plain ∧ st = .full) →
        exec (.bset f) s = .next ((s.modBuf c fun c => { c with state := st, xcnt := 0 }).after f)) ∧
      (c.kind = .barrier ∨ (c.kind = .plain ∧ st ≠ .full) → exec (.bset f) s = .next bad)) ∧
    (∀ c, s.bufEntry i = some c → c.infl + c.outfl ≠ 0 → exec (.bdeclFree f) s = .next bad ∧ exec (.bset f) s = .next bad) ∧
    (s.bufEntry i = none → exec (.bdeclFree f) s = .next bad ∧ exec (.bset f) s = .next bad) ∧
    exec (.bsetGet f) s = .next (s.completes f fun h => h.put f.d (.word (match s.bufEntry i with
      | some c => BitVec.ofNat 64 c.image
      | none => 0)))

/-- R227 to R229, R236: `cph` sets the head and the sequence word of an idle channel and gives 0, and gives 1 for a busy one; `cph.get`
gives its status; `cpt` hands it the records up to x[A] when the scoreboard has room; `cparm` adds an arm, which fires at once
when its counter has reached its threshold, gives 1 where four are pending, and raises the cause of a counter that may not be armed: which
cause that is rests on logs 27 and 48 (DEDUCED). -/
def Obligations.CopyIssueResults : Prop :=
  ∀ (f : Fields) (s : State), s.Clear f [] → s.still = true → s.hart.phased = false →
    let a := (s.hart.xr f.a).toNat
    let b := (s.hart.xr f.b).toNat
    let c := s.chan (s.hartChan (f.imm.toNat % 16))
    let gives (t : State) (w : Word) : State := State.after (t.modHart fun h => h.put f.d (.word w)) f
    (a % 64 = 0 → b % 8 = 0 →
      exec (.cph f) s = .next (if c.busy then gives s 1 else gives (s.setChan { c with
        head := a, seqw := b, tail := 0, last := 0, err := false, ecode := 0, eseq := 0, arms := [], handed := [] }) 0)) ∧
    exec (.cphGet f) s = .next (gives s (BitVec.ofNat 64 c.cstat)) ∧
    (∀ s2 first s3 l, s.cptFirst c = .ok (s2, first) → s2.cptWalk a 64 first = .ok (s3, some l) →
      (l.flatMap (s3.claimsOf s3.agent (s.hartChan (f.imm.toNat % 16)))).length ≤ min scoreSize (s3.scoreFree s3.hart.core) →
      s3.still = true → exec (.cpt f) s = .next ((s3.hand s3.agent (s.hartChan (f.imm.toNat % 16)) a).after f)) ∧
    (let c := s.chan (s.hartChan (bitsAt f.imm.toNat 8 4))
     (∀ e v, a % 8 = 0 → s.counterAt a = .trap e v → exec (.cparm f) s = .next (s.trap e (s.hart.xr f.a) 0)) ∧
     ∀ pa win cls, a % 8 = 0 → s.counterAt a = .ok pa win cls →
      (4 ≤ c.arms.length → exec (.cparm f) s = .next (gives s 1)) ∧
      (c.arms.length < 4 →
        let arm : Arm := ⟨pa, a, b, (s.hart.xr f.c).toNat, s.armOrder, s.agent⟩
        let t := { s.setChan { c with arms := c.arms ++ [arm] } with armOrder := s.armOrder + 1 }
        exec (.cparm f) s = .next (gives (if t.readN pa 8 ≥ b then t.fire (c.id, arm) else t) 0)))

/-- R238, R239, R244, R245: a deposit first answers every parked `tcpy` whose pattern it matches, in park order, each with status 0 and the
tuple. With a `ttake` parked for it, the first of them receives it and it is not stored; else it is stored at its home behind the others
with the next deposit number, unless its partition is full, which gives status 2 and changes nothing. A request finds the matching tuple of its
space with the lowest deposit number, and nothing exactly when no stored tuple matches. Found, the tuple answers it with status 0, and a take
removes it; not found, `.nb` is answered with 1, another parks behind those parked before, or is answered with 2 where no more can park. One
counter of deposits and one of parked requests serve the package (log 28), and a tuple is found while its home lies on the die it names
(log 36). -/
def Obligations.DepositRule : Prop :=
  (∀ (s : State) (ctx tsid cap image : Nat),
    let home := s.tupleHome ctx tsid (tupleWord image 0)
    let count := s.partitionCount ctx tsid home
    let copies := s.parkedFor ctx tsid image false
    let u := copies.foldl (fun s r => s.answer r 0 image) s
    (s.parkedFor ctx tsid image true = [] → cap ≤ count → s.deposit ctx tsid cap image = (s, 2)) ∧
    (∀ h, home = some h → s.parkedFor ctx tsid image true = [] → count < cap →
      s.deposit ctx tsid cap image =
        ({ u with tuples := s.tuples ++ [⟨ctx, tsid, image, s.depNo, (h.pkg, h.die)⟩], depNo := s.depNo + 1 }, 0)) ∧
    (∀ r rest, s.parkedFor ctx tsid image true = r :: rest →
      s.deposit ctx tsid cap image = (u.answer r 0 image, 0) ∧ (u.answer r 0 image).tuples = s.tuples) ∧
    ((∀ n, (s.hartAt n).late = []) → ∀ c ∈ copies, ∀ x ∈ u.reqs, x.id ≠ c.id) ∧
    (∀ take, ∀ r ∈ s.parkedFor ctx tsid image take, r ∈ s.reqs ∧ r.isParked = true ∧ r.take = take ∧
      tupleMatches r.image r.mask image = true) ∧
    (∀ take, ∀ r ∈ s.reqs, r.ctx = ctx → r.tsid = tsid → r.isParked = true → r.take = take → tupleMatches r.image r.mask image = true →
      r ∈ s.parkedFor ctx tsid image take) ∧
    ∀ take, (s.parkedFor ctx tsid image take).Pairwise fun x y => x.order ≤ y.order) ∧
  ∀ (s : State) (r : TupleReq),
    let fits (t : STuple) : Prop := t ∈ s.tuples ∧ t.ctx = r.ctx ∧ t.tsid = r.tsid ∧ tupleMatches r.image r.mask t.image = true ∧
      ∃ h, s.tupleHome t.ctx t.tsid (tupleWord t.image 0) = some h ∧ (h.pkg, h.die) = t.die
    let u := s.takeTurn (s.reqKey r) (s.hartAt r.hart)
    (∀ t, s.oldest r = some t → fits t ∧ ∀ u, fits u → t.order ≤ u.order) ∧ (s.oldest r = none ↔ ¬∃ t, fits t) ∧
    (∀ t, s.oldest r = some t → s.request r =
      if r.take then ({ u with tuples := s.tuples.erase t } : State).answer r 0 t.image else u.answer r 0 t.image) ∧
    (s.oldest r = none → r.nb = true → s.request r = u.answer r 1 0) ∧
    (s.oldest r = none → r.nb = false → s.parkRoom r = false → s.request r = u.answer r 2 0) ∧
    (s.oldest r = none → r.nb = false → s.parkRoom r = true → s.request r = { u with
      parkNo := s.parkNo + 1
      reqs := s.reqs.map fun x => if x.id = r.id then { x with phase := .parked s.parkNo } else x }) ∧
    ∀ status image, (s.hartAt r.hart).late = [] → s.answer r status image = s.deliver r status image


/-- R241 to R249: outside deterministic mode, and where the slice has performed no operation of the cycle that comes after it, `tdep` deposits
the first words of row 0 of B and gives the status to p[PS] and x[C]; `tcpy` and `ttake` issue their request, which its home answers; `tcan`
withdraws a parked request for vA and gives D 1, and 0 when there is none to withdraw. A space that is not usable raises TUPLE with its reason.
Out of its turn `tdep` and `tcan` wait, and a request is on its way. An operation of a space or a signature that holds nothing
creates its home, which reads the context block (log 45). Only `tcan` stands while the registers of its request are empty: it neither reads nor
waits for vA. -/
def Obligations.TupleResults : Prop :=
  (∀ (f : Fields) (s : State), s.Clear f [psReg f] → s.still = true → s.hart.phased = false → s.hart.det = false →
    let a := (s.hart.xr f.a).toNat
    let row := bitsAt (s.hart.tr f.b).toNat 0 512
    let image := row % 2 ^ (64 * (bitsAt f.imm.toNat 12 3 + 1))
    let key (tsid sig : Nat) : HomeKey := s.tupleKey s.hart.ctx tsid sig
    (∀ p, s.spaceOf s.agent a (tupleWord image 0) = .ok p →
      let k := key p.tsid (tupleWord image 0)
      let u := ((s.openSpace s.hart.ctx p.tsid).takeTurn k s.hart).deposit s.hart.ctx p.tsid p.cap image
      (s.inTurn k s.hart = true → exec (.tdep f) s = .next (State.after (u.1.modHart fun h =>
        (h.put (psReg f) (.bit (u.2 == 0))).put f.c (.word (BitVec.ofNat 64 u.2))) f)) ∧
      (s.inTurn k s.hart = false → exec (.tdep f) s = .next s)) ∧
    (∀ e, s.spaceOf s.agent a (tupleWord image 0) = .error e →
      exec (.tdep f) s = .next (s.trap cTUPLE (BitVec.ofNat 64 e) 0)) ∧
    (∀ o ∈ requestForms, (s.reqs.filter (·.hart == s.cur)).length < 8 →
      (∀ p, s.spaceOf s.agent a (tupleWord row 0) = .ok p →
        let r := requestOf o.2.1 o.2.2 f p.tsid s
        (s.inTurn (key p.tsid (tupleWord row 0)) s.hart = true →
          exec (o.1 f) s = .next ((((s.openSpace s.hart.ctx p.tsid).addReq r).request r).after f)) ∧
        (s.inTurn (key p.tsid (tupleWord row 0)) s.hart = false → exec (o.1 f) s = .next ((s.sendReq r).after f)))) ∧
    (∀ o ∈ requestForms, ∀ e, s.spaceOf s.agent a (tupleWord row 0) = .error e →
      exec (o.1 f) s = .next (s.trap cTUPLE (BitVec.ofNat 64 e) 0)) ∧
    ∀ o ∈ requestForms, ∀ p, s.spaceOf s.agent a (tupleWord row 0) = .ok p → 8 ≤ (s.reqs.filter (·.hart == s.cur)).length →
      exec (o.1 f) s = .next s) ∧
  ∀ (f : Fields) (s : State), s.Clear { f with a := .x 0 } [] → s.still = true → s.hart.phased = false → s.hart.det = false →
    let gives (t : State) (w : Word) : State := State.after (t.modHart fun h => h.put f.d (.word w)) { f with a := .x 0 }
    ((∀ r ∈ s.reqs, r.hart = s.cur → r.f.d ≠ f.a) → exec (.tcan f) s = .next (gives s 0)) ∧
    ∀ r, s.reqs.find? (fun x => x.hart == s.cur && x.f.d == f.a) = some r → s.reqs.find? (fun x => x.id == r.id) = some r →
      (s.inTurn (s.reqKey r) s.hart = false → exec (.tcan f) s = .next s) ∧
      (s.inTurn (s.reqKey r) s.hart = true →
        let u := s.takeTurn (s.reqKey r) s.hart
        (r.isParked = true → exec (.tcan f) s = .next (gives (u.answer r 4 0) 1)) ∧
        (r.isParked = false → exec (.tcan f) s = .next (gives u 0)))

/-- R254 to R259, R263: outside deterministic mode, and where the home has performed no operation of the cycle that comes after it, `cballoc` opens the
lowest free slot with the token, experts and weights of row 0 of B and gives D its number, or counts a refusal and gives status 1; `cbput`
adds its row to the slot its tag names, or gives status 2, 3 or 4 with its count; `cbstat` gives the state of a slot, and a buffer's
counts. -/
def Obligations.CombineResults : Prop :=
  ∀ (f : Fields) (s : State) (d : CDesc), s.Clear f [] → s.still = true → s.hart.phased = false → s.hart.det = false →
    let a := (s.hart.xr f.a).toNat
    let key : HomeKey := .buffer s.hart.ctx a
    let v := (s.openBuf s.hart.ctx a).takeTurn key s.hart
    let b := v.cbufAt s.hart.ctx d
    s.cbufDesc s.agent a = .ok d →
    let gives (u : State) (status slot : Nat) : State :=
      State.after (u.modHart fun h => h.put f.d (.word (BitVec.ofNat 64 (status * 2 ^ 32 + slot)))) f
    let holds (t : State) (n : Nat) (c : CSlot) : Prop :=
      ∃ y ∈ t.cbufs, y.ctx = s.hart.ctx ∧ y.cbid = a ∧ y.home = b.home ∧ y.slot n = some c ∧ (∀ m, m ≠ n → y.slot m = b.slot m)
    (s.inTurn key s.hart = true ↔ ∀ t ∈ s.turns, t.key = key → t.clock = s.clock →
      ∃ i g, t.last = some (i, g) ∧ (i < s.hart.hartid ∨ i = s.hart.hartid ∧ g ≤ s.hart.gang)) ∧
    (s.inTurn key s.hart = true →
      (let row := bitsAt (s.hart.tr f.b).toNat 0 1024
       (∀ e ∈ allocExperts d.k row, e < d.nexp) → (allocExperts d.k row).Nodup →
        (b.freeSlot d.nslot = none → exec (.cballoc f) s = .next (gives (v.setCbuf (b.count nNOSLOT)) 1 0)) ∧
        (∀ n, b.freeSlot d.nslot = some n → ∃ t c, exec (.cballoc f) s = .next t ∧
          t.hart = (gives s 0 n).hart ∧ t.mem = s.mem ∧ holds t n c ∧ c.state = .filling ∧ c.token = bitsAt row 384 32 ∧
          c.experts = allocExperts d.k row ∧ c.weights = allocWeights d.k row ∧ c.rows = [] ∧ c.alloc = b.nextAlloc ∧
          c.deadline = if d.timeout = 0 then none else some (s.time + d.timeout))) ∧
      (let tag := (s.hart.xr f.c).toNat
       ∀ l, bitsAt tag 28 4 = 0 → tagSlot tag < d.nslot → tagExpert tag < d.nexp → (s.hart.xr f.b).toNat % 64 = 0 →
        s.chkRange .load .read (s.hart.xr f.b).toNat d.rowBytes = .ok l →
        (b.slot (tagSlot tag) = none → exec (.cbput f) s = .next (gives (v.setCbuf (b.count nLATE)) 2 0)) ∧
        ∀ c, b.slot (tagSlot tag) = some c →
          (c.state ≠ .filling ∨ c.token ≠ tagToken tag → exec (.cbput f) s = .next (gives (v.setCbuf (b.count nLATE)) 2 0)) ∧
          (c.state = .filling → c.token = tagToken tag →
            (c.experts.idxOf? (tagExpert tag) = none → exec (.cbput f) s = .next (gives (v.setCbuf (b.count nUNEXP)) 4 0)) ∧
            ∀ i, c.experts.idxOf? (tagExpert tag) = some i →
              (c.rows.any (·.1 == i) = true → exec (.cbput f) s = .next (gives (v.setCbuf (b.count nDUP)) 3 0)) ∧
              (c.rows.any (·.1 == i) = false → ∃ t x, exec (.cbput f) s = .next t ∧ t.hart.x = (gives s 0 0).hart.x ∧ t.mem = s.mem ∧
                holds t (tagSlot tag) x ∧ x.rows = c.rows ++ [(i, s.gather l)] ∧ x.token = c.token ∧
                x.state = if x.full then .closing else .filling)))) ∧
    (s.inTurn key s.hart = false → (∀ e ∈ allocExperts d.k (bitsAt (s.hart.tr f.b).toNat 0 1024), e < d.nexp) →
      (allocExperts d.k (bitsAt (s.hart.tr f.b).toNat 0 1024)).Nodup → exec (.cballoc f) s = .next s) ∧
    ((s.hart.xr f.b).toNat < d.nslot → exec (.cbstat f) s = .next (s.completes f fun h =>
      h.put f.d (.word (match (s.cbuf s.hart.ctx a).slot (s.hart.xr f.b).toNat with
        | some t => BitVec.ofNat 64 t.image
        | none => 0)))) ∧
    exec (.cbstatBuf f) s = .next (s.completes f fun h => h.put f.d (.word ((s.cbuf s.hart.ctx a).counts.toList.getD (f.imm.toNat % 8) 0)))

/-- R244 to R249, R254, R257 to R262, R264. The step at a home that a hart stalls for ends its operation: the hart's instruction completes or
traps as it would have at once, unless the home has performed an operation of the cycle that comes after it. An event that no hart stalls for, and
no request waits for, changes nothing. A request on its way is performed at its home, unless one of the same hart and stream is before it or it is
out of its turn; an answered one reaches its hart: the status, a tuple in row 0 of D, and its registers full; a parked one is answered with status 3
once the cycle of its deadline is over. A slot that has closed is combined: each element of its output row is the fused sum of its weighted rows in
ascending order of expert, and its flags join the slot's; a deadline whose cycle is over closes an open slot as partial with the missing entries; a
combined slot is released, with the counter at `CTR` raised by 1, when the buffer's order allows. That an operation that has stalled finds the
descriptor as it is by then is log 29, what one that cannot be read leads to logs 49 and 55, that a request goes behind its stream's accesses log 28, that
a home is created by its first operation log 45. -/
def Obligations.HomeEventResults : Prop :=
  (∀ e ∈ homeEvents, ∀ (s : State) (id : Nat), s.reqs.find? (fun r => r.id == id) = none →
    (s.harts.findIdx? (fun h => h.homeOp.any (·.id == id)) = none → exec (e.1 id) s = .next s) ∧
    ∀ n o, s.harts.findIdx? (fun h => h.homeOp.any (·.id == id)) = some n → (s.hartAt n).homeOp = some o →
      let u := ({ s with cur := n } : State).modHart fun h => { h with homeOp := none }
      (∀ r, e.2 o.f o.kind u = some r →
        exec (e.1 id) s = .next { finish o.f { wholly := o.kind.wholly, body := fun s => .wait s } r with cur := s.cur }) ∧
      (e.2 o.f o.kind u = none → exec (e.1 id) s = .next s)) ∧
  (∀ (s : State) (id n : Nat) (o : HomeOp), s.reqs.find? (fun r => r.id == id) = none →
    s.harts.findIdx? (fun h => h.homeOp.any (·.id == id)) = some n → (s.hartAt n).homeOp = some o →
    let u := ({ s with cur := n } : State).modHart fun h => { h with homeOp := none }
    let ctx := u.hart.ctx
    let gives (t : State) (g : Hart → Hart) : State := { State.after (t.modHart g) o.f with cur := s.cur }
    let word (w : Nat) (h : Hart) : Hart := h.put o.f.d (.word (BitVec.ofNat 64 w))
    (u.hart.det = false → ∀ tsid cap image, o.kind = .deposit tsid cap image →
      let key := u.tupleKey ctx tsid (tupleWord image 0)
      let r := ((u.openSpace ctx tsid).takeTurn key u.hart).deposit ctx tsid cap image
      u.inTurn key u.hart = true → exec (.tupleDepositAtHome id) s = .next (gives r.1 fun h =>
        (h.put (psReg o.f) (.bit (r.2 == 0))).put o.f.c (.word (BitVec.ofNat 64 r.2)))) ∧
    (∀ take tsid, o.kind = .request take tsid →
      let v := u.openSpace ctx tsid
      let r := requestOf take false o.f tsid v
      u.inTurn (u.tupleKey ctx tsid (tupleWord r.image 0)) u.hart = true →
      (v.tdetOf n tsid (tupleWord r.image 0)).refusesReq n take = false → v.find r ≠ .full →
      exec (.tupleRequestAtHome id) s = .next (gives (((v.addReq r).request r).noteReq n tsid (tupleWord r.image 0) take) fun h => h)) ∧
    (∀ k, o.kind = .cancel k →
      (u.reqs.find? (·.id == k) = none → exec (.tupleCancelAtHome id) s = .next (gives u (word 0))) ∧
      ∀ r, u.reqs.find? (·.id == k) = some r → u.inTurn (u.reqKey r) u.hart = true →
        let v := u.takeTurn (u.reqKey r) u.hart
        exec (.tupleCancelAtHome id) s = .next (if r.isParked = true then gives (v.answer r 4 0) (word 1) else gives v (word 0))) ∧
    (u.hart.det = false → ∀ cbid d,
      let key : HomeKey := .buffer ctx cbid
      let v := (u.openBuf ctx cbid).takeTurn key u.hart
      let b := v.cbufAt ctx d
      let holds (t : State) (k : Nat) (c : CSlot) : Prop :=
        ∃ y ∈ t.cbufs, y.ctx = ctx ∧ y.cbid = cbid ∧ y.home = b.home ∧ y.slot k = some c ∧ ∀ m, m ≠ k → y.slot m = b.slot m
      u.cbufDesc u.agent cbid = .ok d → u.inTurn key u.hart = true →
      (∀ row, o.kind = .alloc cbid row →
        (b.freeSlot d.nslot = none → exec (.cbAllocAtHome id) s = .next (gives (v.setCbuf (b.count nNOSLOT)) (word (2 ^ 32)))) ∧
        (∀ k, b.freeSlot d.nslot = some k → ∃ t c, exec (.cbAllocAtHome id) s = .next t ∧ t.hartAt n = (gives u (word k)).hartAt n ∧
          t.mem = s.mem ∧ holds t k c ∧ c.state = .filling ∧ c.token = bitsAt row 384 32 ∧ c.experts = allocExperts d.k row ∧
          c.weights = allocWeights d.k row ∧ c.rows = [] ∧ c.alloc = b.nextAlloc)) ∧
      (∀ tag row, o.kind = .put cbid tag row →
        (b.slot (tagSlot tag.toNat) = none →
          exec (.cbPutAtHome id) s = .next (gives (v.setCbuf (b.count nLATE)) (word (2 * 2 ^ 32)))) ∧
        ∀ c i, b.slot (tagSlot tag.toNat) = some c → c.state = .filling → c.token = tagToken tag.toNat →
          c.experts.idxOf? (tagExpert tag.toNat) = some i → c.rows.any (·.1 == i) = false →
          ∃ t x, exec (.cbPutAtHome id) s = .next t ∧ (t.hartAt n).x = ((gives u (word 0)).hartAt n).x ∧ t.mem = s.mem ∧
            holds t (tagSlot tag.toNat) x ∧ x.token = c.token ∧ (x.state = if x.full then .closing else .filling) ∧
            x.rows = c.rows ++ [(i, row.foldr (fun p acc => s.readN p.1 p.2 + 2 ^ (8 * p.2) * acc) 0)]))) ∧
  (∀ (s : State) (r : TupleReq), s.reqs.find? (fun x => x.id == r.id) = some r →
    (r.phase = .flying → s.overtakes r = false → s.reqInTurn r = true →
      let v := (s.modHartAt r.hart (Hart.dropAccess r.access)).openSpace r.ctx r.tsid
      let u := v.takeTurn (v.reqKey r) (v.hartAt r.hart)
      (∀ t, v.oldest r = some t → exec (.tupleRequestAtHome r.id) s = .next
        (if r.take then ({ u with tuples := u.tuples.erase t } : State).answer r 0 t.image else u.answer r 0 t.image)) ∧
      (v.oldest r = none → r.nb = true → exec (.tupleRequestAtHome r.id) s = .next (u.answer r 1 0)) ∧
      (v.oldest r = none → r.nb = false → v.parkRoom r = false → exec (.tupleRequestAtHome r.id) s = .next (u.answer r 2 0)) ∧
      (v.oldest r = none → r.nb = false → v.parkRoom r = true → exec (.tupleRequestAtHome r.id) s = .next { u with
        parkNo := u.parkNo + 1
        reqs := u.reqs.map fun x => if x.id = r.id then { x with phase := .parked u.parkNo } else x })) ∧
    (r.phase = .flying → (s.overtakes r = true ∨ s.reqInTurn r = false) → exec (.tupleRequestAtHome r.id) s = .next s) ∧
    (∀ status image, r.phase = .answered status image → exec (.tupleDelivery r.id) s = .next (s.deliver r status image)) ∧
    (r.isParked = true → (r.deadline.any s.over = true → exec (.tupleTimeout r.id) s = .next (s.answer r 3 0)) ∧
      (r.deadline.any s.over = false → exec (.tupleTimeout r.id) s = .next s)) ∧
    (∀ status image n p c, r.hart < s.harts.length → r.f.d = .v n → psReg r.f = .p p → r.f.c = .x c → p ≠ 0 → c ≠ 0 →
      let t := s.deliver r status image
      (t.hartAt r.hart).getP p = (status == 0) ∧ (t.hartAt r.hart).getX c = BitVec.ofNat 64 status ∧
      (status = 0 → bitsAt ((t.hartAt r.hart).v[n]).toNat 0 512 = image % 2 ^ 512) ∧
      (status ≠ 0 → (t.hartAt r.hart).v[n] = (s.hartAt r.hart).v[n]) ∧ (∀ x ∈ t.reqs, x.id ≠ r.id) ∧
      (t.hartAt r.hart).isEmpty r.f.d = false ∧ (t.hartAt r.hart).isEmpty (psReg r.f) = false ∧ (t.hartAt r.hart).isEmpty r.f.c = false)) ∧
  (∀ (s : State) (id : BufferId) (n : Nat) (t : CSlot),
    let b := s.cbuf id.ctx id.cbid
    (s.slotIn id n .closing = some t → s.underTest = [] →
      (∀ d fall out, s.slotDesc t.agent b.cbid = some d → s.combinePlan d t = some (fall, out) →
        exec (.slotCombine id n) s = .next ((s.setCbuf (b.setSlot { t with state := .ready, flags := (d.combineRow t fall).2 })).writeRanges
          (d.combineRow t fall).1 out)) ∧
      (s.slotDesc t.agent b.cbid = none ∨ (∃ d, s.slotDesc t.agent b.cbid = some d ∧ s.combinePlan d t = none) →
        exec (.slotCombine id n) s = .next ((s.setCbuf (b.setSlot { t with state := .ready, err := true })).deliverEngine t.agent t.tag))) ∧
    (s.slotIn id n .closing = some t → s.combineHeld id t = true → exec (.slotCombine id n) s = .next s) ∧
    (s.slotIn id n .filling = some t → t.deadline.any s.over = false → exec (.combineDeadline id n) s = .next s) ∧
    (s.slotIn id n .filling = some t → t.deadline.any s.over = true →
      exec (.combineDeadline id n) s = .next (s.setCbuf ((b.setSlot { t with
        state := .closing, isPartial := true, missing := 2 ^ t.experts.length - 1 - t.arrived }).count nPARTIAL))) ∧
    (∀ d, s.slotIn id n .ready = some t → s.slotDesc t.agent b.cbid = d →
      let may := (∃ e, d = some e ∧ e.asComplete = true ∧ t.agent.det = false) ∨ ∀ x ∈ b.slots, x.state ≠ .free → t.alloc ≤ x.alloc
      (¬may → exec (.slotRelease id n) s = .next s) ∧
      (may → s.underTest = [] → ∀ e pa, d = some e → s.hbmRange t.agent.publish .atomic e.ctr 8 = some [(pa, 8)] → s.poisoned pa 8 = false →
        let u := (s.unmark (.slot id t.n)).writeN pa ((s.readN pa 8 + 1) % 2 ^ 64) 8
        exec (.slotRelease id n) s =
          .next (u.setCbuf (((u.cbuf id.ctx id.cbid).setSlot { t with state := .free }).count nRELEASE))) ∧
      (may → s.underTest = [] → (∀ e, d = some e → s.hbmRange t.agent.publish .atomic e.ctr 8 = none) →
        let u := s.unmark (.slot id t.n)
        exec (.slotRelease id n) s =
          .next ((u.setCbuf ((b.setSlot { t with state := .free, err := true }).count nRELEASE)).deliverEngine t.agent t.tag))) ∧
    (∀ ok : Nat → Bool, (t.terms ok).Pairwise (fun x y => x.expert ≤ y.expert) ∧
      ((t.terms ok).map Term.entry).Perm ((List.range t.experts.length).filter ok)) ∧
    ∀ (d : CDesc) (fall : Option Nat) (j : Nat), t.isPartial = false → (∀ i, i < t.experts.length → ∃ r ∈ t.rows, r.1 = i) → j < d.rowlen →
      let row (i : Nat) : Nat := ((t.rows.find? (·.1 == i)).map (·.2)).getD 0
      let sum := (t.terms fun _ => true).foldl (fun acc x => (fpFma .f32 .rne (FpFmt.f32.decode x.weight)
        (FpFmt.f32.decode (d.input (row x.entry) j).1) (FpFmt.f32.decode acc)).1) 0
      bitsAt (d.combineRow t fall).1 (8 * d.osize * j) (8 * d.osize) =
        (if d.ofmt = 1 then sum else (cvtTo 3 16 false .rne (FpFmt.f32.decode sum)).1) % 2 ^ (8 * d.osize))

/-- R273, R274, R286: with a generation bound whose private arrays stand as the engine wrote them, the cell and face queries write the values
of the active elements to their destination and keep every other bit of it, and change nothing else; `mq` gives D the quantity its selector
names, of the bound generation, or else of `GEN`; `mq.field` gives the field's array once its generation has come, and until then waits.
R285: `vsfc` interleaves the bits of its sources, and needs no mesh. What private arrays and their lost bytes give is logs 19 and 30 (DEDUCED). -/
def Obligations.MeshQueryResults : Prop :=
  ∀ (f : Fields) (s : State), s.hart.phased = false →
    (s.Clear f [] → meshShape s.hart.geom = none → isTile f.d = true →
      exec (.vsfc2d f) s = .next (s.completes f fun h => h.gets f.d ((h.activeCells f h.geom).map fun p => (p, interleave 2
        [elemBits (h.tr f.a).toNat 64 p.r p.c, elemBits (h.tr f.b).toNat 64 p.r p.c]))) ∧
      exec (.vsfc3d f) s = .next (s.completes f fun h => h.gets f.d ((h.activeCells f h.geom).map fun p => (p, interleave 3
        [elemBits (h.tr f.a).toNat 64 p.r p.c, elemBits (h.tr f.b).toNat 64 p.r p.c, elemBits (h.tr f.c).toNat 64 p.r p.c])))) ∧
    ∀ d, MeshFound s f d →
      (s.Clear f [] →
        let sel := f.imm.toNat % 256
        let g := (s.bindOf d).getD d.gen
        let gives (n : Nat) : Prop := exec (.mq f) s = .next (s.gives f n)
        (sel = 0 → gives d.gen) ∧ (sel = 1 → gives (bitsAt (d.blk (g % 2) 0) 0 32)) ∧ (sel = 2 → gives (bitsAt (d.blk (g % 2) 1) 0 32)) ∧
        (sel = 3 → gives (bitsAt (d.blk (g % 2) 0) 32 32)) ∧ (sel = 4 → gives (d.word 2)) ∧
        (sel = 5 → gives ((s.bindOf d).getD (2 ^ 64 - 1))) ∧
        (∀ t, sel = 6 → PartsOpen s d t → gives (match partOf t s.hart.vdid with
          | some p => partFirst (t.getD p 0) (g % 2) + partOwn (t.getD p 0) (g % 2) * 2 ^ 32
          | none => 2 ^ 64 - 1)) ∧
        ∀ x, 0x10 ≤ sel → sel < 0x20 → (s.mesh s.hart.ctx d.va).buf g = some x → s.intact x = true →
          gives (x.faces.filter (·.colour == sel - 0x10)).length) ∧
      ∀ g x, d.err = false → s.bindOf d = some g → (s.mesh s.hart.ctx d.va).buf g = some x → s.intact x = true →
        (∀ e ∈ cellForms, ∀ t l, s.Clear f [] → meshShape s.hart.geom = none → isTile f.d = true → bitsAt f.imm.toNat 0 2 ≤ d.dim →
          (e.2.1 = true → PartsOpen s d t) → cellsOf s.hart f x.cells.length = .ok l →
          s.privateLost s.agent 0 (d.blk (g % 2) 4) (d.capcell * 32) (l.map fun c => (c.1.e, c.2)) = none →
          exec (e.1 f) s = .next (s.completes f fun h => h.gets f.d (l.map fun c =>
            (c.1, e.2.2 f x (if e.2.1 then partOf t s.hart.vdid else none) c.2)))) ∧
        (∀ e ∈ faceForms, ∀ t n, s.Clear f [.v (n + 1)] → meshShape s.hart.geom = none → PartsOpen s d t → f.d = .v n →
          let l := (s.hart.activeCells f s.hart.geom).map fun p => (p, (s.hart.xr f.b).toNat + p.e)
          s.privateLost s.agent 1 (d.blk (g % 2) 5) (d.capcell * (d.dim + 1) * 32) (l.map fun y => (y.1.e, y.2)) = none →
          let pair (i : Nat) : Nat × Nat := x.facePair (partOf t s.hart.vdid) (e.2 f x i)
          exec (e.1 f) s = .next (s.completes f fun h =>
            (h.gets (.v n) (l.map fun y => (y.1, (pair y.2).1))).gets (.v (n + 1)) (l.map fun y => (y.1, (pair y.2).2)))) ∧
        ∀ pa n, s.Clear f [] → f.imm.toNat % 64 < d.nfield →
          s.hbmRange s.agent.publish .load (fieldAddr d (f.imm.toNat % 64) 0) 64 = some [(pa, n)] → s.poisoned pa 64 = false →
          badRecord (s.readN pa 64) = false → (s.readN pa 8).testBit 63 = true →
          (g ≤ s.readN (pa + 40) 8 → exec (.mqField f) s = .next (s.gives f (s.readN (pa + 8 * (1 + g % 2)) 8))) ∧
          (s.readN (pa + 40) 8 < g → exec (.mqField f) s = .next (s.modHart fun h => h.sleep s.time none false))

/-- R270, R275 to R284: in their turn at the descriptor's home `mbind` and `munbind` bind and unbind the generation with its count, and a job starts,
and out of it they wait; the marking forms raise marks while their
generation is the newest and no rebuild has taken them, else give 1; a job starts, with `BUSY` set and D empty until it ends, or gives 1
where the mesh is not ready for it; `mfield` and `mfield.rm` write the field's entry; `mghost` starts a refresh of the named fields, part by
part, with the barrier its C names, and gives its sectors. That `mfield` and `mfield.rm` drop the pending remaps of their field, and that a refresh
goes part by part, is log 30 (DEDUCED). -/
def Obligations.MeshUpdateResults : Prop :=
  ∀ (f : Fields) (s : State) (d : MDesc), s.Clear f [] → MeshFound s f d →
    let key : HomeKey := .mesh s.hart.ctx d.va
    let v := s.takeTurn key s.hart
    (s.inTurn key s.hart = true → s.bindOf d = none → s.hart.binds.length < 4 → d.built = true →
      ∃ t, exec (.mbind f) s = .next t ∧ t.hart.binds = s.hart.binds ++ [(d.va, d.gen)] ∧
        (∀ a, t.readByte a = (s.addRcnt d.pa d.gen true).readByte a) ∧
        (∀ n, f.d = .x n → n ≠ 0 → t.hart.getX n = BitVec.ofNat 64 d.gen)) ∧
    (s.inTurn key s.hart = false →
      (∀ g, s.bindOf d = some g → exec (.munbind f) s = .next s) ∧
      (s.bindOf d = none → s.hart.binds.length < 4 → d.built = true → exec (.mbind f) s = .next s) ∧
      (d.err = false → ∀ e ∈ jobForms, exec (e.1 f) s = .next s)) ∧
    (s.inTurn key s.hart = true → ∀ g, s.bindOf d = some g → exec (.munbind f) s = .next (State.after ((v.addRcnt d.pa g false).modHart fun h =>
      { h with binds := h.binds.filter (·.1 != d.va) }) f)) ∧
    (Mem.wf s.mem = true → ∀ g, let w := s.readN (d.pa + 8 * (14 + 10 * (g % 2))) 8
      (s.addRcnt d.pa g true).readN (d.pa + 8 * (14 + 10 * (g % 2))) 8 = (w + 1) % 2 ^ 64 ∧
      (s.addRcnt d.pa g false).readN (d.pa + 8 * (14 + 10 * (g % 2))) 8 = w - 1) ∧
    (d.err = false →
      (∀ e ∈ markForms, ∀ g x l, s.bindOf d = some g → (s.mesh s.hart.ctx d.va).buf g = some x → meshShape s.hart.geom = none →
        cellsOf s.hart f x.cells.length = .ok l →
        let m := s.mesh s.hart.ctx d.va
        (g ≠ d.gen ∨ m.snap = true → exec (e.1 f) s = .next (s.gives f 1)) ∧
        (g = d.gen → m.snap = false →
          exec (e.1 f) s = .next ((s.setMesh { m with marks := l.foldl (fun acc c => raiseMark e.2 acc c.2) m.marks }).gives f 0))) ∧
      (s.inTurn key s.hart = true → ∀ e ∈ jobForms, (e.2.2 d = false → exec (e.1 f) s = .next (v.gives f 1)) ∧
        (e.2.2 d = true → let t := v.startJob d (e.2.1 f s) f
          exec (e.1 f) s = .next (t.after f) ∧ t.meshJobs = s.meshJobs ++ [⟨s.nextOp, s.hart.ctx, d.va, e.2.1 f s, f, s.agent, d.gen,
            (s.mesh s.hart.ctx d.va).marks, none, none, []⟩] ∧
          (Mem.wf s.mem = true → t.readN (d.pa + 16) 8 = d.word 2 ||| 2 ^ 63) ∧ ∀ n, f.d = .x n → n ≠ 0 → t.hart.isEmpty (.x n) = true)) ∧
      (∀ pa n, f.imm.toNat % 64 < d.nfield →
        s.hbmRange s.agent.publish .store (fieldAddr d (f.imm.toNat % 64) 0) 64 = some [(pa, n)] → s.poisoned pa 64 = false →
        (d.busy = true → exec (.mfieldRm f) s = .next (s.gives f 1)) ∧
        (d.busy = false → exec (.mfieldRm f) s =
          .next (((s.writeN pa (putBits (s.readN pa 8) 63 1 0) 8).dropRemaps d (f.imm.toNat % 64)).gives f 0)) ∧
        ∀ l v, s.readChk (s.hart.xr f.b).toNat 32 = .ok (l, v) → badTemplate v = false →
          let u := s.noteAll .read l
          exec (.mfield f) s = .next (if d.busy then u.gives f 1 else
            ((u.writeN pa (putBits v 63 1 1 + d.gen * 2 ^ 256 + d.gen * 2 ^ 320) 48).dropRemaps d (f.imm.toNat % 64)).gives f 0)) ∧
      (∀ t g x (entry : Nat → Nat), PartsOpen s d t → s.bindOf d = some g → (s.mesh s.hart.ctx d.va).buf g = some x →
        let named := (List.range 64).filter (s.hart.xr f.b).toNat.testBit
        (∀ n ∈ named, n < d.nfield ∧ s.meshRead s.agent (fieldAddr d n 0) 64 = .ok (entry n) ∧ (entry n).testBit 63 = true ∧
          badRecord (entry n) = false) →
        (f.c = .x 0 ∨ (s.hartBar (s.hart.xr f.c).toNat).isSome = true) →
        ∃ u r, exec (.mghost f) s = .next u ∧ u.refreshes = s.refreshes ++ [r] ∧ r.va = d.va ∧ r.gen = g ∧ r.agent = s.agent ∧
          r.bar = (if f.c = .x 0 then 0 else (s.hart.xr f.c).toNat) ∧
          r.todo = named.flatMap (fun n => (List.range x.first.length).map fun p => (n, p)) ∧ u.mem = s.mem ∧
          (∀ n, f.d = .x n → n ≠ 0 → u.hart.getX n = BitVec.ofNat 64 ((named.flatMap fun n =>
            (List.range x.first.length).map fun p => ((x.ghosts.getD p []).length * bitsAt (entry n) 0 16 + 63) / 64).foldl (· + ·) 0))))

/-- R276 to R280: a job whose buffer is free builds the next generation, or takes the code of what fails; a first generation is published in
the same step. A publication writes `GEN` and clears `BUSY`, or writes the error, gives the hart that started the job its answer, and starts the remaps
of the valid fields; it comes last in its cycle. R282: a remap of a field, which runs when no earlier one of that field is left, writes each cell's
value under the entry's rule and the field's generation, or records its error. R284: a refresh copies one part's ghosts of one field from their
owners, and credits its barrier once for each 64 bytes. That a first generation is published in the step of its job, that remaps of a field run in the
order of their generations, and what a job reads of the old generation, is log 30 (DEDUCED); what is due in a saved context is owed to it, log 51. -/
def Obligations.MeshEventResults : Prop :=
  (∀ (s : State) (j : MeshJob), s.meshJobs.find? (·.id == j.id) = some j → s.underTest = [] →
    let m := s.mesh j.ctx j.va
    let d := s.readDesc j.va m.pa
    let ends (s : State) : State := ({ s with meshJobs := s.meshJobs.filter (·.id != j.id) }.unmark (.mesh j.id)).setTurn (.mesh j.ctx j.va) none
    let gen := (j.gen + 1) % 2 ^ 64
    let fails (code : Nat) : State :=
      (((ends s).setDesc d.pa 2 (2 ^ 62 + code * 2 ^ 48)).setMesh { m with snap := false }).answerJob j (2 + code * 256)
    (j.code = none → (∀ e, j.kind ≠ .init e) → d.blk ((j.gen + 1) % 2) 2 = 0 →
      (∀ e, s.runJob j d = .error e → exec (.meshJob j.id) s = .next (s.modJob j.id fun _ => { j with code := some e })) ∧
      (∀ t g o, s.runJob j d = .ok (t, g, o) →
        exec (.meshJob j.id) s = .next (t.modJob j.id fun _ => { j with code := some 0, next := some g, origins := o }) ∧
        ((∀ x, m.buf j.gen = some x → s.intact x = true) →
          ∃ n, s.jobGen j d (m.buf j.gen) = .ok (n, o) ∧ g = { n with secret := g.secret }))) ∧
    ((j.code.isSome = true ∨ (∀ e, j.kind ≠ .init e) ∧ d.blk ((j.gen + 1) % 2) 2 ≠ 0) → exec (.meshJob j.id) s = .next s) ∧
    (∀ cin, j.code = none → j.kind = .init cin → j.next = none → d.blk 0 2 = 0 →
      (∀ e, s.runJob j d = .error e → exec (.meshJob j.id) s = .next (fails e)) ∧
      (∀ t g o, s.runJob j d = .ok (t, g, o) → exec (.meshJob j.id) s = .next (
        let n := t.mesh j.ctx j.va
        let e := t.readDesc j.va n.pa
        (((((ends t).setDesc e.pa 0 (e.word 0 ||| 2 ^ 31)).setDesc e.pa 1 0).setDesc e.pa 2 (e.word 2 % 2 ^ 63)).setMesh
          { n with buf0 := some g, marks := [], snap := false }).answerJob j 0))) ∧
    (j.code = none → exec (.generationPublish j.id) s = .next s) ∧
    (∀ code, j.code = some code →
      (j.next = none → exec (.generationPublish j.id) s = .next (fails code)) ∧
      (∀ g o, j.next = some g → (∀ e, j.kind ≠ .init e) → m.buf j.gen = some o → exec (.generationPublish j.id) s =
        .next ((((((ends s).setDesc d.pa 1 gen).setDesc d.pa 2 (d.word 2 % 2 ^ 63)).setMesh
          { m.setBuf gen g with marks := [], snap := false }).answerJob j 0).startRemaps j d o g))) ∧
    (∀ w n, j.f.d = .x n → n ≠ 0 → j.agent.hart < s.harts.length →
      let h := s.hartAt j.agent.hart
      let t := (s.answerJob j w).hartAt j.agent.hart
      t.getX n = BitVec.ofNat 64 w ∧ t.isEmpty (.x n) = false ∧ t.sr = h.sr ∧ t.pc = h.pc ∧ t.status = h.status) ∧
    (∀ o g, ∀ r ∈ (s.startRemaps j d o g).remaps, r ∈ s.remaps ∨ (r.ctx = j.ctx ∧ r.va = j.va ∧ r.gen = j.gen ∧ r.field < d.nfield ∧
      r.moves = j.origins.zipIdx.map fun (x : Origin Nat × Nat) => (g.place x.2, x.1.map o.place)))) ∧
  (∀ (s : State) (r : Remap), s.remaps.find? (·.id == r.id) = some r → s.underTest = [] →
    let prior (x : Remap) : Prop := x.id < r.id ∧ x.ctx = r.ctx ∧ x.va = r.va ∧ x.field = r.field
    let u : State := { s with remaps := s.remaps.filter (·.id != r.id) }.unmark (.mesh r.id)
    let e := fieldAddr (s.readDesc r.va r.pa) r.field 0
    let fails (w code : Nat) : State :=
      let t := u.publish r.agent e (putBits (putBits (bitsAt w 0 64) 61 2 1) 48 8 code)
      t.setDesc r.pa 2 (putBits (t.readN (descWord r.pa 2) 8) 62 1 1)
    ((∃ x ∈ s.remaps, prior x) → exec (.fieldRemap r.id) s = .next s) ∧
    (∀ w l t, (∀ x ∈ s.remaps, ¬prior x) → s.remapBroken r = false → u.meshRead r.agent e 64 = .ok w → badRecord w = false →
      u.remapWrites r w = .ok l → u.meshWrites r.agent l = .ok t → exec (.fieldRemap r.id) s = .next (((t.publish r.agent e (putBits (bitsAt w 0 64)
        62 1 0)).publish r.agent (e + 32) r.gen).publish r.agent (e + 40) ((r.gen + 1) % 2 ^ 64))) ∧
    (∀ w code, (∀ x ∈ s.remaps, ¬prior x) → u.meshRead r.agent e 64 = .ok w →
      (badRecord w = false → u.remapWrites r w = .error code → exec (.fieldRemap r.id) s = .next (fails w code)) ∧
      (badRecord w = true → exec (.fieldRemap r.id) s = .next (fails w Config.reservedCode.toNat))) ∧
    (∀ code, (∀ x ∈ s.remaps, ¬prior x) → u.meshRead r.agent e 64 = .error code →
      exec (.fieldRemap r.id) s = .next (u.setDesc r.pa 2 (putBits (u.readN (descWord r.pa 2) 8) 62 1 1))) ∧
    (∀ w (l : List (Nat × Nat × Nat)), s.remapWrites r w = .ok l → l.length = r.moves.length ∧ ∀ (k : Nat) cell (o : Origin (Nat × Nat)), r.moves[k]? = some (cell, o) →
      let rule := bitsAt w 56 3
      let n := bitsAt w 0 16
      let old (p : Nat × Nat) (v : Nat) : Prop := s.meshRead r.agent (arrayAt w r.gen p) n = .ok v
      let writes (v : Nat) : Prop := l[k]? = some (arrayAt w (r.gen + 1) cell, v, n)
      (∀ p, o = .same p → ∃ v, old p v ∧ writes v) ∧
      (∀ p, o = .child p → ∃ v, old p v ∧ writes (if rule = 3 then 0 else v)) ∧
      (∀ ps, o = .coarse ps → ∃ vs : List Nat, vs.length = ps.length ∧ (∀ q ∈ ps.zip vs, old q.1 q.2) ∧
        writes (if rule = 0 then vs.headD 0 else if rule = 2 then average r.dim n vs else 0)))) ∧
  (∀ (s t : State) (ag : Agent) (va v n pa : Nat), Mem.wf s.mem = true → s.hbmRange ag .store va n = some [(pa, n)] →
    s.meshWrite ag va v n = .ok t → t.readN pa n = v % 2 ^ (8 * n) ∧ ∀ b, b < pa ∨ pa + n ≤ b → t.readByte b = s.readByte b) ∧
  ∀ (s : State) (r : Refresh), s.refreshes.find? (·.id == r.id) = some r → s.underTest = [] →
    ∀ field p rest g w, r.todo = (field, p) :: rest → (s.mesh r.ctx r.va).buf r.gen = some g → s.intact g = true →
      s.meshRead r.agent (fieldAddr (s.readDesc r.va r.pa) field 0) 64 = .ok w → badRecord w = false →
      let n := bitsAt w 0 16
      let ghosts := g.ghosts.getD p []
      let last : Bool := rest.all fun x => (g.ghosts.getD x.2 []).isEmpty
      (∀ t b, s.ghostCopy r.agent none (ghostMoves g w r.gen p) = (t, b, none) → exec (.ghostRefresh r.id) s =
        .next ((if last then { t with refreshes := t.refreshes.filter (·.id != r.id) }.unmark (.mesh r.id)
          else { t with refreshes := t.refreshes.map fun (x : Refresh) => if x.id = r.id then { x with todo := rest } else x }).refreshCredit r
            ((ghosts.length * n + 63) / 64))) ∧
      (∀ t b code, s.ghostCopy r.agent none (ghostMoves g w r.gen p) = (t, b, some code) →
        exec (.ghostRefresh r.id) s = .next ((t.refreshCredit r (b / 64)).failRefresh r code)) ∧
      (∀ i c, ghosts[i]? = some c → (ghostMoves g w r.gen p)[i]? =
        some (arrayAt w r.gen (p, g.nown.getD p 0 + i), arrayAt w r.gen (g.place c), n)) ∧
      ∀ dst src k l v t, s.meshRead r.agent src k = .ok v → s.meshWrite r.agent dst v k = .ok t →
        (s.ghostCopy r.agent none ((dst, src, k) :: l)).1 = (t.ghostCopy r.agent none l).1

/-- R95, R296, R317, R320 to R322, R336, R386: `exit` ends a hart that has nothing outstanding, counting as an instruction; `tknext` moves to the next tile of
a task and gives its number, or gives all ones; `tkdone` completes the hart's task once, and then gives 1; `tkenq` enqueues the record at
x[A], with word 4 as its step finds it, where its status is 0, and gives the status; `vdhop` gives the distance of two virtual dies, all ones
where one does not exist, and raises NONDET with code 7 in a deterministic gang; `coll` enters the call of its block in the collective that its
rank's count of calls names, or alone where the communicator or the rank is not valid, and gives 0, or 1 with 256 open in the context. That a call
with no valid communicator stands alone with code 2 is log 37, and what a step at word 4 finds log 31. -/
def Obligations.TaskResults : Prop :=
  ∀ (f : Fields) (s : State), s.Clear f [] → s.still = true →
    let gives (t : State) (w : Word) : State := State.after (t.modHart fun h => h.put f.d (.word w)) f
    let a := (s.hart.xr f.a).toNat
    (s.hart.results = [] → s.hart.empty = {} → s.hart.taskDone = true → s.hart.binds = [] → (∀ r ∈ s.reqs, r.hart ≠ s.cur) →
      (∀ c ∈ s.ctxs, c.preempt = false) →
      ∃ t, exec (.exit f) s = .next t ∧ t.hart.status = HartStatus.exited ∧ t.hart.monitor = none ∧
        t.hart.sr = { s.hart.sr with instret := s.hart.sr.instret + 1 } ∧ t.mem = s.mem ∧ ∀ m, m ≠ s.cur → t.hartAt m = s.hartAt m) ∧
    (s.hart.taskRec.isSome = true → s.hart.tileIndex + 1 < s.hart.sr.tn.toNat → exec (.tknext f) s = .next (gives
      (s.modHart fun h => { h with tileIndex := h.tileIndex + 1, sr := { h.sr with tile0 := h.sr.tile0 + 1 } }) (s.hart.sr.tile0 + 1))) ∧
    (¬(s.hart.taskRec.isSome = true ∧ s.hart.tileIndex + 1 < s.hart.sr.tn.toNat) →
      exec (.tknext f) s = .next (gives s (BitVec.allOnes 64))) ∧
    exec (.tkdone f) s = .next (if s.hart.taskDone then gives s 1 else gives (s.completeTask s.cur) 0) ∧
    (∀ pa win cls, a % 64 = 0 → s.taskReadChk a = .ok pa win cls → s.poisoned pa 64 = false →
      let t := s.raceNote a pa win cls .read
      let l := (words8 (s.readN pa 64)).set 4 ((s.schedRead s.hart.ctx (a + 32) 8).getD (words8 (s.readN pa 64) |>.getD 4 0))
      let st := t.enqueueStatus t.gang (f.imm.toNat % 8) l
      exec (.tkenq f) s = .next (gives (if st = 0 then t.enqueue (f.imm.toNat % 8) a l else t) (BitVec.ofNat 64 st))) ∧
    (s.hart.det = true → exec (.vdhop f) s = .next (s.trap cNONDET 7 0)) ∧
    (∀ c, s.hart.det = false → s.ctx = some c →
      let x := s.vdEntry c.vdtbase.toNat a
      let y := s.vdEntry c.vdtbase.toNat (s.hart.xr f.b).toNat
      let out (d : Nat) : Nat := 1 + min (min (d / 4) (3 - d / 4)) (min (d % 4) (3 - d % 4))
      ((x = none ∨ y = none) → exec (.vdhop f) s = .next (gives s (BitVec.allOnes 64))) ∧
      (∀ p u v, x = some (p, u) → y = some (p, v) → exec (.vdhop f) s =
        .next (gives s (BitVec.ofNat 64 (natDist (u / 4) (v / 4) + natDist (u % 4) (v % 4))))) ∧
      ∀ p q u v, p ≠ q → x = some (p, u) → y = some (q, v) → exec (.vdhop f) s =
        .next (gives s (BitVec.ofNat 64 (out u) + (if Config.switchOf p = Config.switchOf q then 2 else Config.links s.routing p q) +
          BitVec.ofNat 64 (out v)))) ∧
    (∀ l v p1 w1 c1 p2 w2 c2, s.hart.phased = false → a % 128 = 0 → ¬(localBase ≤ a ∧ a < 2 ^ 55) →
      s.resolve .load false a 8 = .ok p1 w1 c1 → s.resolve .store false a 8 = .ok p2 w2 c2 → s.commandChk a 128 = .ok (l, v) →
      exec (.coll f) s = .next (if (s.colls.filter fun c => c.ctx == s.hart.ctx && c.isOpen).length < 256 then
        gives ((s.noteAll .read l).joinColl s.agent s.hart.vdid a ((List.range 16).map fun i => bitsAt v (64 * i) 64)) 0
        else gives s 1)) ∧
    ∀ block words, let comm := bitsAt (words.getD 0 0) 32 16
      let t := s.joinColl s.agent s.hart.vdid block words
      (∀ vds r, s.commRanks s.agent comm = some vds → vds.findIdx? (· == s.hart.vdid) = some r →
        t.collCount s.hart.ctx comm r = s.collCount s.hart.ctx comm r + 1 ∧
        ∃ c ∈ t.colls, c.ctx = s.hart.ctx ∧ c.comm = comm ∧ c.index = s.collCount s.hart.ctx comm r ∧
          ∃ x ∈ c.calls, x.rank = r ∧ x.block = block ∧ x.words = words ∧ x.data = none ∧ x.ended = false) ∧
      ((s.commRanks s.agent comm = none ∨ ∃ vds, s.commRanks s.agent comm = some vds ∧ s.hart.vdid ∉ vds) →
        ∃ c, t.colls = s.colls ++ [c] ∧ c.ctx = s.hart.ctx ∧ c.code = some 2 ∧ ∃ x, c.calls = [x] ∧ x.block = block)

/-- R23, R218, R221, R349, R350, R355: a late result fills its register; at a boundary that may take causes a hart takes the first of
ENGINE_ERROR, HOST and TIMER that is pending, unless it takes PREEMPT there; a wait whose `TTMO` has run out, or one that is woken, tests its object again; `TLEFT`
falls with the crossings of a microsecond, and TIMER becomes pending once it reaches 0. -/
def Obligations.HartEventResults : Prop :=
  ∀ (n : Nat) (s : State), n < s.harts.length →
    let h := s.hartAt n
    (∀ r v, h.results.find? (·.1 == r) = some (r, v) → (∀ k, r ≠ .q k) → ∃ t, exec (.longLatencyResult n r) s = .next t ∧ (t.hartAt n).isEmpty r = false ∧
      (∀ k w, r = .x k → k ≠ 0 → v = .word w → (t.hartAt n).getX k = w) ∧
      (∀ k w, r = .v k → v = .tile w → (t.hartAt n).v[k] = w) ∧ t.mem = s.mem ∧ ∀ m, m ≠ n → t.hartAt m = s.hartAt m) ∧
    (∀ k seq w, h.results.find? (·.1 == .q k) = some (.q k, .entry seq w) → ∃ t, exec (.longLatencyResult n (.q k)) s = .next t ∧
      (t.hartAt n).q[k] = (h.q[k]).map (fun e => if e.seq = seq then { e with filled := true, tile := w } else e) ∧
      (t.hartAt n).results = h.results.eraseP (·.1 == .q k) ∧ ∀ m, m ≠ n → t.hartAt m = s.hartAt m) ∧
    (∀ r, h.results.find? (·.1 == r) = none → exec (.longLatencyResult n r) s = .next s) ∧
    (h.status = HartStatus.running → s.takesSave n = false → h.mayTake = true → h.wait = none → h.mid = false → h.homeOp = none →
      h.dcause = none → ∀ c, h.nextCause = some c → ∃ t, exec (.asyncCauseTaken n) s = .next t ∧
        t = (s.modHartAt n fun x => { x with causes := x.causes.filter (·.1 != c.1) }).trapAt n h.pc c.1 c.2 0) ∧
    (s.takesSave n = true → exec (.asyncCauseTaken n) s = .next s) ∧
    (∀ w, h.wait = some w → (h.det = false → h.sr.ttmo ≠ 0 → w.start + h.sr.ttmo.toNat ≤ s.time →
        exec (.ttmoExpiry n) s =
          .next (s.modHartAt n fun x => { x with wait := some { w with asleep := false, expired := true } })) ∧
      ((h.det = true ∨ h.sr.ttmo = 0 ∨ s.time < w.start + h.sr.ttmo.toNat) → exec (.ttmoExpiry n) s = .next s) ∧
      exec (.waiterWake n) s = .next (s.modHartAt n fun x => { x with wait := some { w with asleep := false } })) ∧
    ∃ t, exec (.timerExpiry n) s = .next t ∧ (t.hartAt n).sr.tleft = BitVec.ofNat 64 (h.sr.tleft.toNat - h.ticks) ∧
      (h.ticks < h.sr.tleft.toNat → (t.hartAt n).causes = h.causes) ∧
      (h.sr.tleft ≠ 0 → h.sr.tleft.toNat ≤ h.ticks → (t.hartAt n).causes.any (·.1 == cTIMER) = true) ∧
      ∀ m, m ≠ n → t.hartAt m = s.hartAt m

/-- R195, R199, R232, R339, R342, R395: an event performs the next part of the oldest access of a stream that no other access must precede; one that
lies in a bank under test waits. That the parts of an access are performed one by one in ascending order is log 7 (DESIGN CHOICE). An event moves further
units of a copy record that is in flight, which may fail at one, or a write of an agent outside the package; a walk that finds a leaf with the
access's permission is held for the hart's core and for its die, where the oldest entry of a full level is lost (DESIGN CHOICE, log 16). -/
def Obligations.AccessEventResults : Prop :=
  ∀ (s : State),
    (∀ n (strm : Fin 4), n < s.harts.length → (s.hartAt n).pend.find? (fun a => a.stream == strm && !a.isOrder) = none →
      exec (.memoryAccessPerform (.hart n strm)) s = .next s) ∧
    (∀ n (strm : Fin 4) a p r, n < s.harts.length → (s.hartAt n).pend.find? (fun a => a.stream == strm && !a.isOrder) = some a →
      precursors ((s.hartAt n).pend.takeWhile (· != a)) a = [] → a.op = .store (p :: r) → s.heldUp a = false → s.armCount = 0 →
      p.bit = 0 → p.width % 8 = 0 → s.lost p.pa = false → s.partPoisoned p.pa (p.width / 8) = false → Mem.wf s.mem = true → ∃ t, exec (.memoryAccessPerform (.hart n strm)) s = .next t ∧
        t.readN p.pa (p.width / 8) = p.value % 2 ^ p.width ∧
        (∀ b, b < p.pa ∨ p.pa + p.width / 8 ≤ b → t.readByte b = s.readByte b) ∧
        (r = [] → (t.hartAt n).pend = ((s.hartAt n).pend.erase a).dropWhile Access.isOrder) ∧
        (r ≠ [] → (t.hartAt n).pend = (s.hartAt n).pend.replace a { a with op := .store r })) ∧
    (∀ n (strm : Fin 4) a, n < s.harts.length → (s.hartAt n).pend.find? (fun a => a.stream == strm && !a.isOrder) = some a →
      (precursors ((s.hartAt n).pend.takeWhile (· != a)) a ≠ [] ∨ s.heldUp a = true) → exec (.memoryAccessPerform (.hart n strm)) s = .next s) ∧
    (∀ ch k n fl, (s.chan ch).flights[k]? = some fl → (s.chan ch).quiesced = false → s.mayMove ch k = true →
      let m := ({ s with score := s.score ++ s.owedClaims ch fl } : State).advance ch k n
      (m.2 = none → exec (.memoryAccessPerform (.copyUnits ch k n)) s = .next m.1) ∧
      ∀ code, m.2 = some code → exec (.memoryAccessPerform (.copyUnits ch k n)) s =
        .next (m.1.failRecord ch k fl.agent fl.seq code fl.addr (recOf fl.words).txb)) ∧
    (∀ pa (bytes : List Byte), s.testing pa bytes.length = true → exec (.memoryAccessPerform (.outsideWrite pa bytes)) s = .next s) ∧
    (∀ pa (bytes : List Byte), bytes ≠ [] → s.isMemory pa bytes.length = true → s.testing pa bytes.length = false → Mem.wf s.mem = true → ∃ t,
      exec (.memoryAccessPerform (.outsideWrite pa bytes)) s = .next t ∧
      (∀ i, i < bytes.length → t.readByte (pa + i) = bytes.getD i 0) ∧
      ∀ b, b < pa ∨ pa + bytes.length ≤ b → t.readByte b = s.readByte b) ∧
    ∀ n kind va c pte size, s.ctxOf (s.hartAt n).ctx = some c → va < localBase → s.walk c.ptroot.toNat va 3 = some (pte, size) →
      leafAllows pte (s.hartAt n).st.pl kind = true →
      let e : TlbEntry := ⟨.l2 (s.hartAt n).place.die, false, c.asid.toNat, va / size * size, size, BitVec.ofNat 64 pte, []⟩
      let t : State := { s with tlb := holdEntry { e with level := .l1 (s.hartAt n).core } (holdEntry e s.tlb) }
      exec (.pageTableWalk n kind va) s = .next t ∧ { e with level := .l1 (s.hartAt n).core } ∈ t.tlb ∧ e ∈ t.tlb

/-- R325 to R328: a lane group that falls free takes a head of the queues that have one to start, of the hart whose slot has the least pass, then
the lower number, and the pass rises by 65,536 over its `WSHARE`; a refill adds `EREFILL` for each crossing to a gang's budget, up to its cap;
an issue window forgets a core's counts of earlier windows of 256 cycles; a current backstop is counted by every hart bound to the core. -/
def Obligations.IssueEventResults : Prop :=
  ∀ (s : State) (core : CorePlace),
    (∀ b, s.nextQueued core = some b →
      exec (.laneGroupArbitration core) s = .next (({ s with harts := s.harts.map fun (h : Hart) =>
        if (h.onSlot && h.place == b.place) = true then { h with equeue := h.equeue - 1 } else h } : State).setPass b.place
          (s.passOf b.place + 0x10000 / max 1 (bitsAt b.sr.wshare.toNat 0 4))) ∧
      b ∈ s.queued core ∧ b.waiting.length < b.equeue ∧ ∀ h ∈ s.queued core, h.waiting.length < h.equeue →
        s.passOf b.place < s.passOf h.place ∨ (s.passOf b.place = s.passOf h.place ∧ b.place.slot ≤ h.place.slot)) ∧
    (s.nextQueued core = none → (∀ h ∈ s.queued core, h.equeue ≤ h.waiting.length) ∧ exec (.laneGroupArbitration core) s = .next s) ∧
    (∀ p n, (s.setPass p n).passOf p = n ∧ ∀ q, q ≠ p → (s.setPass p n).passOf q = s.passOf q) ∧
    (∀ n g, s.gangs[n]? = some g → ∃ t, exec (.energyRefill n) s = .next t ∧ t.gangs[n]? = some { g with
        budget := if g.ticks = 0 then g.budget else min (g.budget + g.ticks * g.erefill.toNat) g.ebcap, ticks := 0 } ∧
      ∀ m, m ≠ n → t.gangs[m]? = s.gangs[m]?) ∧
    exec (.issueWindow core) s = .next { s with issued := s.issued.filter fun x => x.core != core || x.window == s.clock / 256 } ∧
    ∃ t, exec (.currentBackstop core) s = .next t ∧ ∀ n, n < s.harts.length → t.hartAt n =
      if (s.hartAt n).bound = true ∧ (s.hartAt n).core = core then (s.hartAt n).backstop else s.hartAt n

/-- R313 to R315, R323, R324, R333, R371, R373: the scheduler takes the record at a queue's head, moves the head, and either refuses it with the
code of its first failing check in word 8, its counter raised and its vector signalled, or writes the context's next identifier there and
makes a gang of it; it binds the lowest launched hart still to be bound, and ready tasks, to free slots, with their first pc and operands; a
gang whose work is done ends, with its result in word 8, its counter raised and its vector signalled. That the lowest HARTID is bound first is
log 31, and that a binding reads the context block, and a launch that finds no hart bound, log 45. -/
def Obligations.LaunchResults : Prop :=
  ∀ (s : State),
    (∀ (func q : Nat) (c : Ctx), func < 32 → q < 8 →
      let x := (s.master func).queue q
      let slot := s.paOf (x.base + 128 * (x.head % 2 ^ x.log2n))
      let l := words16 (s.readN slot 128)
      let u := if s.boundOf c.ctxid = [] then s.takeBlock c.vdtbase.toNat else s
      let moves (t : State) : State := t.modMaster func fun m => m.setQueue q { m.queue q with head := (x.head + 1) % 2 ^ 32 }
      let signals (t : State) : State := t.modHost fun h => { h with msix := h.msix ++ [(func, q)] }
      s.ctxOf x.ctxid = some c →
      ((x.en = false ∨ x.head = x.tail ∨ x.stale = true) → exec (.launchRecordTake func q) s = .next s) ∧
      (x.en = true → x.head ≠ x.tail → x.stale = false →
        (∀ e, (s.poisoned slot 128 = true ∧ e = 1 ∨ s.poisoned slot 128 = false ∧ u.launchCode c l = some e) →
          let w := u.writeN (slot + 64) (3 * 2 ^ 62 + e * 2 ^ 48) 8
          exec (.launchRecordTake func q) s =
            .next (moves (signals (if l.getD 7 0 = 0 then w else (w.bumpAt c.ctxid (l.getD 7 0)).getD w)))) ∧
        (s.poisoned slot 128 = false → u.launchCode c l = none →
          let w := (u.writeN (slot + 64) c.nextGid 8).modCtx c.ctxid fun c => { c with nextGid := (c.nextGid + 1) % 2 ^ 32 }
          exec (.launchRecordTake func q) s =
            .next (moves { w with gangs := w.gangs ++ [gangOfRecord c.ctxid c.nextGid slot (8 * func + q) l] })))) ∧
    (∀ ctx ctr pa, ctr % 8 = 0 → s.hbmRange (schedAgent ctx 0) .atomic ctr 8 = some [(pa, 8)] → s.poisoned pa 8 = false →
      s.bumpAt ctx ctr = some (s.writeN pa ((s.readN pa 8 + 1) % 2 ^ 64) 8)) ∧
    (∀ (g : Nat) (place : Place) (x : Gang) (c : Ctx) (n : Nat), s.gangs[g]? = some x → s.ctxOf x.ctx = some c →
      ((List.range x.nhart).find? fun h => !s.wasBound x h && (s.takeBlock c.vdtbase.toNat).localDie c (x.vdOfHart h) == some place.die) =
        some n →
      x.ended = false → c.preempt = false → c.away = false → c.undoing = false → s.slotFree place = true → ∃ t h,
        exec (.launchHartBind g place) s = .next t ∧ t.harts = s.harts ++ [h] ∧ h.place = place ∧ h.ctx = x.ctx ∧ h.gang = x.gid ∧
        h.hartid = n ∧ h.pc = x.entry.setWidth 55 ∧ h.getX 1 = BitVec.ofNat 64 x.record ∧ h.getX 2 = x.arg ∧ h.sr.vtype = x.vtype ∧
        h.sr.vl = x.vl ∧ h.sr.vr = x.vr ∧ h.sr.wshare = x.wshare ∧ h.sr.stvec = c.stvec ∧ h.sr.tn = 1 ∧
        h.stepKind = (if x.phased then 1 else 0) ∧ h.status = HartStatus.running ∧ t.mem = s.mem) ∧
    (∀ g x, s.gangs[g]? = some x → s.gangDone x = false → exec (.gangEnd g) s = .next s) ∧
    (∀ g x, s.gangs[g]? = some x → s.gangDone x = true → (∀ t ∈ s.tasks, ¬(t.ctx = x.ctx ∧ t.gang = x.gid)) →
      let code := if x.taskFailed then 4 else if x.engineFailed then 5 else 0
      let u := (s.writeN (x.record + 64) (2 ^ 63 + (if code = 0 then 0 else 2 ^ 62) + code * 2 ^ 48 + x.gid) 8).modGang x.ctx x.gid
        fun g => { g with ended := true }
      exec (.gangEnd g) s = .next ((match (if x.ctr = 0 then some u else u.bumpAt x.ctx x.ctr) with
        | some v => v
        | none => u.recordError x 6).modHost fun h => { h with msix := h.msix ++ [(x.queue / 8, x.queue % 8)] })) ∧
    (∀ ctx place c k g, s.ctxOf ctx = some c →
      let u := s.takeBlock c.vdtbase.toNat
      u.firstReady c = some k → s.gangOf k.ctx k.gang = some g → c.preempt = false →
      c.away = false → c.undoing = false → s.slotFree place = true → u.taskFits c k place = true → ∃ t h r,
        exec (.taskBind ctx place) s = .next t ∧ t.harts = r ++ [h] ∧ r.length = s.harts.length ∧ h.place = place ∧ h.ctx = g.ctx ∧
        h.gang = g.gid ∧ h.hartid = (g.nhart + g.taskBinds) % 2 ^ 32 ∧ h.taskRec = some k.addr ∧ h.taskDone = false ∧
        h.pc = (BitVec.ofNat 64 (k.words.getD 0 0)).setWidth 55 ∧ h.getX 1 = BitVec.ofNat 64 k.addr ∧
        h.getX 2 = BitVec.ofNat 64 (k.words.getD 1 0) ∧ h.sr.task = BitVec.ofNat 64 k.addr ∧
        h.sr.tn = BitVec.ofNat 64 (bitsAt (k.words.getD 4 0) 16 16))

/-- R184, R335, R352, R355, R356, R364 to R366, R396, R397: a hart that takes PREEMPT alone stops and, where the area has room, its image is
written and its slot freed; in a save of the whole context it waits for its cluster. The scheduler may ask for every hart of a context. A write of `CTXRES` starts a resume, or sets the header's error, or does nothing; the resume restores the context part and binds saved harts
to free slots. A change of `SRCARVE` loses the slices that come or go; a move between dies copies the carve-out, and the context's tuples and
buffers of the one die are then the other's. A checkpoint first saves the whole context, and once it stands saved with no engine at work copies
its pages to the peer and keeps what it holds; a restart of a context that a failure has struck puts back its pages, at their places or
others, its harts, gangs and tasks, and drops what its engines were doing; a slot that has halted stays halted. That a stopped hart waits for its
cluster, and which error stands in a header, is log 32, what moves with a home slice log 36, the conditions of checkpoint and restart log 39, that a
binding reads the context block log 45. -/
def Obligations.SaveResumeResults : Prop :=
  (∀ (s : State),
    (∀ n c, n < s.harts.length → s.takesSave n = true → (s.hartAt n).waiting = [] → s.awaitsJob n = false →
      (∀ a ∈ (s.hartAt n).pend, s.heldUp a = false) → s.ctxOf (s.hartAt n).ctx = some c →
      let t := s.stopHart n
      (c.preempt = true →
        let u := if bitsAt (t.saveWord c.saveptr.toNat 0) 16 8 = 1 then t else t.saveState c.saveptr.toNat 1
        exec (.preemptSequence n) s = .next (((u.modHartAt n fun h => { h with status := HartStatus.stopped }).cluster6 c
          (s.hartAt n).place.die (s.hartAt n).place.cluster).finishSave (s.hartAt n).ctx)) ∧
      (c.preempt = false → exec (.preemptSequence n) s = .next (t.writeHart c n)) ∧
      (∀ o u, t.take c.saveptr.toNat ((t.hartAt n).imageSize (t.reqs.filter (·.hart == n)).length) = some (o, u) → n < t.harts.length →
        ((t.writeHart c n).hartAt n).status = HartStatus.saved ∧ ((t.writeHart c n).hartAt n).preempt = none ∧
        ((t.writeHart c n).hartAt n).x = (t.hartAt n).x ∧ (∀ r ∈ (t.writeHart c n).reqs, r.hart ≠ n))) ∧
    (∀ n, (s.takesSave n = false ∨ (s.hartAt n).waiting ≠ [] ∨ s.awaitsJob n = true ∨ ∃ a ∈ (s.hartAt n).pend, s.heldUp a = true) →
      exec (.preemptSequence n) s = .next s) ∧
    (∀ ctx, ∃ t, exec (.packageSchedulerPreempt ctx) s = .next t ∧ t = (s.askContext ctx).finishSave ctx ∧
      (s.isAway ctx = true → s.askContext ctx = s) ∧
      ∀ n, s.isAway ctx = false → n < s.harts.length → (s.hartAt n).ctx = ctx → (s.hartAt n).status = HartStatus.running →
        ((s.askContext ctx).hartAt n).preempt.isSome = true ∧ t = s.askContext ctx) ∧
    (∀ die (v : BitVec 64), let w := v.toNat
      ((s.die die).resuming.isSome = true ∨ w % 2 ^ 12 ≠ 0 ∨ 2 ^ 58 ≤ w → exec (.ctxresWrite die v) s = .next s) ∧
      ((s.die die).resuming = none → w % 2 ^ 12 = 0 → w < 2 ^ 58 →
        exec (.ctxresWrite die v) s = .next (if s.resumeRefused w = true then s.saveError w 3
          else (s.writeN w (putBits (s.readN w 8) 16 8 3) 8).modDie die fun x => { x with resuming := some w }))) ∧
    (∀ die placing area c, (s.die die).resuming = some area → (s.die die).restored = false → s.areaCtx area = some c →
      (s.saveWord area 6 = 0 → exec (.resumeSequence die placing) s =
        .next ((s.modDie die fun x => { x with restored := true }).endResume die area c.ctxid)) ∧
      (s.saveWord area 6 ≠ 0 → s.restoreContext c area (s.saveWord area 6) placing = none → exec (.resumeSequence die placing) s = .next s) ∧
      (∀ t cores, s.saveWord area 6 ≠ 0 → s.restoreContext c area (s.saveWord area 6) placing = some (t, cores) →
        exec (.resumeSequence die placing) s =
          .next ((t.modDie die fun x => { x with restored := true, cores := cores }).endResume die area c.ctxid))) ∧
    (∀ die place area c o, s.slotFree place = true → (s.die die).resuming = some area → (s.die die).restored = true →
      s.areaCtx area = some c →
      let u := s.takeBlock c.vdtbase.toNat
      u.imgFor area (u.imgCore c die area) place = some o →
      exec (.resumeHartBind die place) s = .next ((u.bindImage c area o place).endResume die area c.ctxid)) ∧
    (∀ die place, s.slotFree place = false → exec (.resumeHartBind die place) s = .next s) ∧
    (∀ die (v : BitVec 64), die < 16 → (16 < v.toNat → exec (.srcarveWrite die v) s = .next s) ∧
      (v.toNat ≤ 16 → Mem.wf s.mem = true → ∃ t, exec (.srcarveWrite die v) s = .next t ∧ (t.die die).srcarve = v.toNat ∧
        (∀ d, d ≠ die → t.die d = s.die d) ∧ t.harts = s.harts ∧
        ∀ a, (∀ k, k < (s.die die).srcarve ∧ v.toNat ≤ k ∨ (s.die die).srcarve ≤ k ∧ k < v.toNat →
            ¬(s.paOf (dieWindow die + 0x8000000) + k * sliceBytes ≤ a ∧ a < s.paOf (dieWindow die + 0x8000000) + (k + 1) * sliceBytes)) →
          t.readByte a = s.readByte a)) ∧
    ∀ ctx p q c, p < 16 → q < 16 → s.ctxOf ctx = some c → (s.die p).srcarve ≤ 16 →
      ((s.die p).srcarve ≠ (s.die q).srcarve ∨ s.boundOf ctx ≠ [] ∨ s.collOn c p = true → exec (.homeSliceStateMove ctx p q) s = .next s) ∧
      ((s.die p).srcarve = (s.die q).srcarve → s.boundOf ctx = [] → s.collOn c p = false → Mem.wf s.mem = true → ∃ t, exec (.homeSliceStateMove ctx p q) s = .next t ∧
        t.tuples = s.tuples.map (fun x => if x.ctx = ctx ∧ x.die = (s.pkg, p) then { x with die := (s.pkg, q) } else x) ∧
        t.cbufs = s.cbufs.map (fun b => if b.ctx = ctx then { b with home := b.home.map fun h =>
          if h.2 = (s.pkg, p) then (h.1, s.pkg, q) else h } else b) ∧
        (∀ i, i < (s.die p).srcarve * sliceBytes →
          t.readByte (s.paOf (dieWindow q + 0x8000000) + i) = s.readByte (s.paOf (dieWindow p + 0x8000000) + i)) ∧
        ∀ a, (a < s.paOf (dieWindow q + 0x8000000) ∨ s.paOf (dieWindow q + 0x8000000) + (s.die p).srcarve * sliceBytes ≤ a) →
          t.readByte a = s.readByte a)) ∧
  ∀ (s : State) (ctx peer base : Nat) (c : Ctx), s.ctxOf ctx = some c →
    (s.peerOk peer = false → exec (.checkpoint ctx ⟨peer, base⟩) s = .next s) ∧
    (s.peerOk peer = true → c.away = false → exec (.checkpoint ctx ⟨peer, base⟩) s = .next ((s.askContext ctx).finishSave ctx)) ∧
    (s.peerOk peer = true → c.away = true → (s.enginesBusy ctx = true ∨ bitsAt (s.saveWord c.saveptr.toNat 0) 16 8 ≠ 2) →
      exec (.checkpoint ctx ⟨peer, base⟩) s = .next s) ∧
    (s.peerOk peer = true → c.away = true → s.enginesBusy ctx = false → bitsAt (s.saveWord c.saveptr.toNat 0) 16 8 = 2 →
      let k := s.snapshot c peer base
      let l := keptPages k.pages
      let fits (x : PageRef × Nat) : Prop := s.poisoned x.1.pa x.1.size = false ∧ pkgOf (base + x.2) = peer ∧ s.isHbm (base + x.2) = true ∧
        s.isHbm (base + x.2 + x.1.size - 1) = true
      ((∃ x ∈ l, ¬fits x) → exec (.checkpoint ctx ⟨peer, base⟩) s = .next s) ∧
      ((∀ x ∈ l, fits x) → exec (.checkpoint ctx ⟨peer, base⟩) s = .next (let t := l.foldl (fun (s : State) x => s.copyBytes x.1.pa (base + x.2) x.1.size) s
        { t with checkpoints := k :: t.checkpoints.filter (·.ctx.ctxid != ctx) }))) ∧
    ∀ moves,
      ((c.broken = false ∨ s.checkpoints.find? (·.ctx.ctxid == ctx) = none) → exec (.contextRestart ⟨ctx, moves⟩) s = .next s) ∧
      ∀ k, s.checkpoints.find? (·.ctx.ctxid == ctx) = some k → c.broken = true →
        ((s.peerOk k.peer = false ∨ ∃ x ∈ keptPages k.pages, s.poisoned (k.base + x.2) x.1.size = true ∨ s.isPageMemory (movedTo moves x.1.pa) = false) →
          exec (.contextRestart ⟨ctx, moves⟩) s = .next s) ∧
        (s.peerOk k.peer = true →
          (∀ x ∈ keptPages k.pages, s.poisoned (k.base + x.2) x.1.size = false ∧ s.isPageMemory (movedTo moves x.1.pa) = true) →
          let u := s.restorePages k (k.moved moves c.vdtbase.toNat) moves
          ∃ t, exec (.contextRestart ⟨ctx, moves⟩) s = .next t ∧ t.mem = u.mem ∧ t.veils = u.veils ∧
          (∀ n h, n < s.harts.length → k.harts.find? (·.1 == n) = some (n, h) → t.hartAt n = h) ∧
          (∀ n, n < s.harts.length → (u.hartAt n).ctx ≠ ctx → k.harts.find? (·.1 == n) = none → t.hartAt n = u.hartAt n) ∧
          (∀ n, n < s.harts.length → (u.hartAt n).status = HartStatus.halted →
            ∃ h ∈ t.harts, h.status = HartStatus.halted ∧ h.place = (u.hartAt n).place) ∧
          (∀ x, t.ctxOf ctx = some x → x.ptroot = BitVec.ofNat 64 (k.moved moves k.ctx.ptroot.toNat) ∧
            x.vdtbase = BitVec.ofNat 64 (k.moved moves c.vdtbase.toNat) ∧ x.saveptr = BitVec.ofNat 64 (k.moved moves k.area)) ∧
          (∀ g, g ∈ t.gangs ↔ (g ∈ s.gangs ∧ g.ctx ≠ ctx) ∨ g ∈ k.gangs) ∧ (∀ x, x ∈ t.tasks ↔ (x ∈ s.tasks ∧ x.ctx ≠ ctx) ∨ x ∈ k.tasks) ∧
          (∀ x ∈ t.baseOps, x.agent.ctx ≠ ctx) ∧ (∀ x ∈ t.prefetches, x.agent.ctx ≠ ctx) ∧ (∀ x ∈ t.meshJobs, x.ctx ≠ ctx) ∧
          (∀ x ∈ t.colls, x.ctx ≠ ctx) ∧ (∀ x ∈ t.reqs, x.ctx ≠ ctx) ∧ ∀ e ∈ t.tlb, e.asid ≠ c.asid.toNat)

/-- R371 to R376: within its aperture an enabled function reads and writes memory, and another access is refused and counted; a launch
queue is configured and its tail moved, or the write is counted or marks the queue; a host request reaches the context a function
acts for, or is dropped; function 0 and the owner assign contexts. An access to a bank under test comes later (R395, log 38). That a gang that
has ended counts as none, and a HOST cause already pending as a drop, is log 33 (DEDUCED). -/
def Obligations.HostResults : Prop :=
  ∀ (s : State) (func : Nat), func < 33 →
    let drops : State := s.modMaster func fun m => { m with drop := m.drop + 1 }
    (∀ off n w, s.host.enabled.contains func = false → exec (.hostBar2Access func off n w) s = .next s) ∧
    (∀ off n w, s.host.enabled.contains func = true → s.bar2Refused func off n = true → ∃ t,
      exec (.hostBar2Access func off n w) s = .next t ∧ (t.master func).ur = (s.master func).ur + 1 ∧ t.mem = s.mem ∧
      (w = none → t.host.reply = 2 ^ (8 * n) - 1)) ∧
    (∀ off n w, s.host.enabled.contains func = true → s.bar2Refused func off n = false → s.testing (s.paOf off) n = true →
      exec (.hostBar2Access func off n w) s = .next s) ∧
    (∀ off n, s.host.enabled.contains func = true → s.bar2Refused func off n = false → s.testing (s.paOf off) n = false →
      s.poisoned (s.paOf off) n = false → exec (.hostBar2Access func off n none) s = .next (s.modHost fun h => { h with reply := s.readN (s.paOf off) n })) ∧
    (∀ off n v, s.host.enabled.contains func = true → s.bar2Refused func off n = false → s.testing (s.paOf off) n = false →
      s.partPoisoned (s.paOf off) n = false → Mem.wf s.mem = true → ∃ t,
      exec (.hostBar2Access func off n (some v)) s = .next t ∧ t.readN (s.paOf off) n = v % 2 ^ (8 * n) ∧
      ∀ b, b < s.paOf off ∨ s.paOf off + n ≤ b → t.readByte b = s.readByte b) ∧
    (∀ q (v : BitVec 64), q < 8 → let n := bitsAt v.toNat 16 5
      let ok := 4 ≤ n ∧ n ≤ 16 ∧ s.assigned func (v.toNat % 2 ^ 16) = true
      ∃ t, exec (.lqcfgWrite func q v) s = .next t ∧
        (¬ok → (t.master func).lqbad = (s.master func).lqbad + 1 ∧ (t.master func).queues = (s.master func).queues) ∧
        (ok → (t.master func).queue q = { (s.master func).queue q with
          en := v.getLsbD 63, log2n := n, ctxid := v.toNat % 2 ^ 16, head := 0, tail := 0, bad := false, stale := false })) ∧
    (∀ q (v : BitVec 64), q < 8 → let x := (s.master func).queue q
      let tail := v.toNat % 2 ^ 32
      let ahead (k : Nat) : Nat := (k + 2 ^ 32 - x.head) % 2 ^ 32
      ∃ t, exec (.lqtailWrite func q v) s = .next t ∧
        (ahead tail ≤ 2 ^ x.log2n → ahead x.tail ≤ ahead tail → (t.master func).queue q = { x with tail := tail }) ∧
        ((2 ^ x.log2n < ahead tail ∨ ahead tail < ahead x.tail) → (t.master func).queue q = { x with bad := true })) ∧
    (∀ v : BitVec 64, s.assigned func (bitsAt v.toNat 32 16) = false → exec (.hdoorWrite func v) s = .next drops) ∧
    (∀ (v : BitVec 64) g n, s.assigned func (bitsAt v.toNat 32 16) = true →
      let ctx := bitsAt v.toNat 32 16
      let gid := bitsAt (s.master func).hdtgt.toNat 32 32
      let hid := bitsAt (s.master func).hdtgt.toNat 0 32
      s.gangOf ctx gid = some g → g.ended = false → hid < g.nhart + g.taskBinds →
      (s.harts.findIdx? fun h => h.ctx == ctx && h.gang == gid && h.hartid == hid) = some n → (s.hartAt n).status = HartStatus.running →
      exec (.hdoorWrite func v) s = .next (if (s.hartAt n).causes.any (·.1 == cHOST) then drops
        else s.modHartAt n fun h => { h with causes := h.causes ++ [(cHOST, BitVec.ofNat 64 (v.toNat % 2 ^ 32))] })) ∧
    (∀ v : BitVec 64, exec (.hpreWrite func v) s = .next (if s.assigned func (v.toNat % 2 ^ 16) then
      (s.askContext (v.toNat % 2 ^ 16)).finishSave (v.toNat % 2 ^ 16) else drops)) ∧
    ∀ ctx (v : BitVec 64),
      ((bitsAt v.toNat 37 26 ≠ 0 ∨ v.toNat % 2 ^ 32 ≠ 0) → exec (.ctxcrWrite ctx v) s = .next s) ∧
      (bitsAt v.toNat 37 26 = 0 → v.toNat % 2 ^ 32 = 0 → v.getLsbD 63 = true →
        (s.ctxOf ctx = none → exec (.ctxcrWrite ctx v) s = .next { s with ctxs := s.ctxs ++ [Ctx.fresh ctx (bitsAt v.toNat 32 5)] }) ∧
        (∀ c, s.ctxOf ctx = some c → c.func ≠ bitsAt v.toNat 32 5 → ∃ t, exec (.ctxcrWrite ctx v) s = .next t ∧
          t.ctxOf ctx = some { c with func := bitsAt v.toNat 32 5 } ∧ t.harts = s.harts ∧ t.mem = s.mem)) ∧
      (bitsAt v.toNat 37 26 = 0 → v.toNat % 2 ^ 32 = 0 → v.getLsbD 63 = false → s.ctxOf ctx = none → exec (.ctxcrWrite ctx v) s = .next s)

/-- R5, R377, R398, R400 to R403: the owner hands over or beats, another master's claim waits for the owner's lapse, which passes
ownership to the lowest claiming master; each start stage is measured before it runs, and a stage that does not load halts the package; a
master has one attestation request at a time, and the controller serves the oldest, whose report it writes where its buffer lies in the master's
aperture; an event-log read gives the next word of the oldest unread entry of the selected source; plain registers keep what is written to their
listed bits. That the controller's log is source 84 is log 12, the lapse without a claim and a request's contents log 33, the hash of the extend step log
34 (PRESUMED). -/
def Obligations.TrustResults : Prop :=
  ∀ (s : State) (m : Master),
    let refused : State := s.modMaster m.val fun x => { x with nown := x.nown + 1 }
    (∀ v : BitVec 64, s.host.owner ≠ m.val → ∃ t, exec (.hclaimWrite m v) s = .next t ∧ t.host.owner = s.host.owner ∧ m.val ∈ t.host.claims ∧
      ∀ k, k ∈ s.host.claims → k ∈ t.host.claims) ∧
    (∀ v : BitVec 64, s.host.owner = m.val → bitsAt v.toNat 0 6 ≤ 32 → bitsAt v.toNat 0 6 ≠ m.val → ∃ t,
      exec (.hclaimWrite m v) s = .next t ∧ t.host.owner = bitsAt v.toNat 0 6 ∧ t.host.oepoch = s.host.oepoch + 1 ∧ t.host.claims = []) ∧
    exec (.hbeatWrite m) s = .next (if s.host.owner = m.val then s.modHost fun h => { h with beatAt := s.time } else refused) ∧
    (s.time ≤ s.host.beatAt + 2000000000 → exec .ownerLapse s = .next s) ∧
    (s.host.beatAt + 2000000000 < s.time → ∃ t, exec .ownerLapse s = .next t ∧ t.host.beatAt = s.host.beatAt + 2000000000 ∧
      (s.host.claims = [] → t.host.owner = s.host.owner) ∧
      (s.host.claims ≠ [] → t.host.owner ∈ s.host.claims ∧ (∀ k ∈ s.host.claims, t.host.owner ≤ k) ∧ t.host.oepoch = s.host.oepoch + 1)) ∧
    (∀ (stage : Fin 8) img pc, s.host.halted = false → ∃ t, exec (.measuredStart stage img true pc) s = .next t ∧
      t.host.mreg[stage] = extend s.host.mreg[stage] img ∧ (∀ k, k ≠ stage → t.host.mreg[k] = s.host.mreg[k]) ∧
      ∀ n, n < s.harts.length → t.hartAt n = if stage = 1 ∧ (s.hartAt n).status = HartStatus.held then
        { s.hartAt n with status := HartStatus.running, pc := pc } else s.hartAt n) ∧
    (∀ (stage : Fin 8) img pc, s.host.halted = false → ∃ t, exec (.measuredStart stage img false pc) s = .next t ∧ t.host.halted = true ∧
      t.host.mreg = s.host.mreg ∧ t.harts = s.harts ∧ t.log.head? = some ⟨84, s.logNext[84], s.time, 1, 0⟩) ∧
    ((s.master m.val).abusy = true → exec (.acmdWrite m) s = .next (s.modMaster m.val fun x => { x with drop := x.drop + 1 })) ∧
    ((s.master m.val).abusy = false → ∃ t, exec (.acmdWrite m) s = .next t ∧ (t.master m.val).abusy = true ∧
      (t.master m.val).aerr = false ∧ t.host.requests = s.host.requests ++ [s.attReq m.val]) ∧
    (s.host.requests = [] → exec .attestationReport s = .next s) ∧
    (∀ r rest, s.host.requests = r :: rest → r.master < 33 → ∃ t, exec .attestationReport s = .next t ∧ t.host.requests = rest ∧
      (t.master r.master).abusy = false ∧
      (s.inAperture r.master r.adst 2740 = false → (t.master r.master).aerr = true ∧ t.mem = s.mem)) ∧
    (∀ r rest, s.host.requests = r :: rest → r.master < 33 → s.inAperture r.master r.adst 2740 = true → s.isHbm (s.paOf r.adst) = true →
      s.isHbm (s.paOf (r.adst + 2739)) = true → Mem.wf s.mem = true → ∃ t, exec .attestationReport s = .next t ∧
      t.host.reports = s.host.reports + 1 ∧ (t.master r.master).abusy = false ∧ (t.master r.master).aerr = (s.master r.master).aerr ∧
      (∀ i, i < 2 + r.words.length → i < 40 → t.readN (s.paOf r.adst + 8 * i) 8 =
        ([0x15C060A77, (s.host.reports + 1).toNat] ++ r.words).getD i 0 % 2 ^ 64) ∧
      (r.master < 32 → t.host.msix = s.host.msix ++ [(r.master, 9)])) ∧
    (let x := s.master m.val
     let cur := (x.cursors.find? (·.1 == x.elsel)).getD (x.elsel, 0, 0)
     let unread := s.log.filter fun e => e.source == x.elsel && decide (cur.2.1 ≤ e.seq)
     (unread = [] → ∃ t, exec (.elrdRead m) s = .next t ∧ t.log = s.log ∧ t.host.masters = s.host.masters) ∧
     ∀ e k, unread.getLast? = some e → k = (if e.seq = cur.2.1 then cur.2.2 else 0) →
       exec (.elrdRead m) s = .next ((s.modHost fun h => { h with
         reply := if k = 0 then e.seq else if k = 1 then e.time else if k = 2 then e.code + e.source * 2 ^ 16 else e.detail.toNat }).modMaster m.val
           fun y => { y with cursors := (if k = 3 then (x.elsel, e.seq + 1, 0) else (x.elsel, e.seq, k + 1)) ::
             y.cursors.filter (·.1 != x.elsel) })) ∧
    (∀ j (v : BitVec 64), exec (.registerWrite m (.anonce j) v) s = .next (s.modMaster m.val fun x => { x with anonce := x.anonce.set j v })) ∧
    (∀ v : BitVec 64, exec (.registerWrite m .adst v) s = .next (s.modMaster m.val fun x => { x with adst := v &&& 0xFFFFFFF000 }) ∧
      exec (.registerWrite m .elsel v) s = .next (s.modMaster m.val fun x => { x with elsel := v.toNat }) ∧
      exec (.registerWrite m (.hdtgt m.val) v) s = .next (if m.val < 32 then s.modMaster m.val fun x => { x with hdtgt := v } else s) ∧
      (∀ f, f ≠ m.val → exec (.registerWrite m (.hdtgt f) v) s = .next s) ∧
      (∀ n, exec (.registerWrite m (.unlisted n) v) s = .next s) ∧
      (∀ q, q < 8 → m.val < 32 → ∃ t, exec (.registerWrite m (.lqbase m.val q) v) s = .next t ∧ (t.master m.val).queue q =
        { (s.master m.val).queue q with base := v.toNat % 2 ^ 40 / 128 * 128 }) ∧
      ∀ ctx, ctx < 2 ^ 16 → ∃ t, exec (.registerWrite m (.ccomm ctx) v) s = .next t ∧ t.ccommOf ctx = v ∧
        ∀ c, c ≠ ctx → t.ccommOf c = s.ccommOf c) ∧
    ∀ k (v : BitVec 64), 1 ≤ k → k < 32 →
      exec (.registerWrite m (.apertureBase k) v) s = .next (if s.host.owner = m.val then
        s.modMaster k fun x => { x with apBase := v.toNat &&& 0xFFFFFF0000 } else refused) ∧
      exec (.registerWrite m (.apertureLimit k) v) s = .next (if s.host.owner = m.val then
        s.modMaster k fun x => { x with apLimit := v.toNat &&& 0xFFFFFF0000 } else refused)

/-- R378, R379, R392 to R395, R402: a detected error or a resent flit is counted and logged and its unit put under test; a third parity alert of
a channel within one window is a lasting fault; a unit that fails its test, or reports a sixteenth error of its own within 24 hours, is fenced
off, and a die whose channels have no spare left is harvested; the owner may clear a die's counts; a lost route is logged and its
later accesses fail. The sources and the codes of events are log 12; the tests that errors join, the spares, and the third alert that goes straight to a
lasting fault, log 38. -/
def Obligations.RasResults : Prop :=
  ∀ (s : State),
    let logs (t : State) (source : Fin 85) (code : Nat) (detail : Word) : Prop :=
      t.log.head? = some ⟨source, s.logNext[source], s.time, code, detail⟩ ∧ t.logNext[source] = s.logNext[source] + 1 ∧
      t.host.msix = s.host.msix ++ [(0, 10)]
    (∀ source code detail, logs (s.logEvent source.val code detail) source code detail) ∧
    (∀ u d, isLink u = true → unitDie u = some d → exec (.linkFlitResend u) s = exec (.correctableError u) s) ∧
    (∀ u (src : Fin 85), isLink u = true → unitDie u = none → src.val = logSource u → ∃ t, exec (.linkFlitResend u) s = .next t ∧ t.underTest = s.underTest ++ [u] ∧
      logs t src (Config.eventCode evLink).toNat (Config.eventDetail evLink) ∧ t.mem = s.mem ∧ t.harts = s.harts ∧ t.dies = s.dies) ∧
    (∀ u, isLink u = false → exec (.linkFlitResend u) s = .next s) ∧
    (∀ u d (src : Fin 85), unitDie u = some d → d < 16 → src.val = logSource u → ∃ t, exec (.correctableError u) s = .next t ∧
      t.underTest = s.underTest ++ [u] ∧ t.mem = s.mem ∧ t.harts = s.harts ∧
      logs t src (Config.eventCode evError).toNat (Config.eventDetail evError) ∧
      (t.die d).rascnt.toNat % 2 ^ 32 = ((s.die d).rascnt.toNat + 1) % 2 ^ 32 ∧
      (t.die d).rascnt.toNat / 2 ^ 32 = (s.die d).rascnt.toNat / 2 ^ 32) ∧
    (∀ die ch onAddress, die < 16 →
      let recent := (s.alerts.filter fun x => decide (s.time ≤ x.2.2 + Config.replayWindow.toNat) && (x.1 == die && x.2.1 == ch)).length
      (recent < 2 → ∃ t, exec (.hbmParityAlert die ch onAddress) s = .next t ∧ t.underTest = s.underTest ++ [.hbmChannel die ch] ∧ t.mem = s.mem ∧
        t.harts = s.harts ∧ (t.die die).rascnt.toNat % 2 ^ 32 = ((s.die die).rascnt.toNat + 1) % 2 ^ 32) ∧
      (2 ≤ recent → (s.pkg, die) ∉ s.harvested → ∃ t, exec (.hbmParityAlert die ch onAddress) s = .next t ∧ .hbmChannel die ch ∈ t.fenced ∧
        t.underTest = s.underTest.filter (· != .hbmChannel die ch) ∧ (t.die die).rascnt.toNat / 2 ^ 48 = ((s.die die).rascnt.toNat / 2 ^ 48 + 1) % 2 ^ 16 ∧
        let used := (s.fenced.filter fun x => match x with
          | .hbmChannel e _ => e == die
          | _ => false).length
        (used < Config.channelSpares.toNat → t.mem = s.mem ∧ t.harts = s.harts ∧ t.harvested = s.harvested) ∧
        (Config.channelSpares.toNat ≤ used → (s.pkg, die) ∈ t.harvested ∧
          ∀ n, n < s.harts.length → (s.hartAt n).onSlot = true → (s.hartAt n).place.die = die → (t.hartAt n).status = HartStatus.halted))) ∧
    (∀ u pass, u ∉ s.underTest → exec (.selfTestComplete u pass) s = .next s) ∧
    (∀ u, u ∈ s.underTest → (∀ d, unitDie u = some d → (s.pkg, d) ∉ s.harvested) → ∃ t, exec (.selfTestComplete u false) s = .next t ∧
      u ∉ t.underTest ∧ u ∈ t.fenced ∧
      ∀ d, unitDie u = some d → d < 16 → (isSpared u = true ∨ u ∉ s.fenced) → (t.die d).rascnt.toNat / 2 ^ 48 = ((s.die d).rascnt.toNat / 2 ^ 48 + 1) % 2 ^ 16) ∧
    (∀ u, u ∈ s.underTest →
      let recent := (s.transients.filter fun x => x.unit == u && decide (s.time < x.at_ + 86400000000000)).length + s.underTest.count u
      ∃ t, exec (.selfTestComplete u true) s = .next t ∧ u ∉ t.underTest ∧
        (recent < 16 → t.fenced = s.fenced ∧ t.harts = s.harts ∧ t.log = s.log) ∧
        (16 ≤ recent → (∀ d, unitDie u = some d → (s.pkg, d) ∉ s.harvested) → u ∈ t.fenced)) ∧
    (∀ (m : Master) die, die < 16 →
      (s.host.owner = m.val → exec (.rascntClear m die 0) s = .next (s.modDie die fun d => { d with rascnt := 0 })) ∧
      (∀ v, s.host.owner ≠ m.val → exec (.rascntClear m die v) s = .next (s.modMaster m.val fun x => { x with nown := x.nown + 1 })) ∧
      (∀ v, s.host.owner = m.val → v ≠ 0 → exec (.rascntClear m die v) s = .next s)) ∧
    (∀ far, far ≠ s.pkg → (∀ h ∈ s.harts, h.pend = []) → ∃ t, exec (.routeLost s.pkg far) s = .next t ∧ logs t 84 (Config.eventCode evRoute).toNat (Config.eventDetail evRoute) ∧
      t.mem = s.mem ∧ t.harts = s.harts ∧ ∀ a, pkgOf a = far → t.lost a = true) ∧
    ∀ p q, p ≠ s.pkg → q ≠ s.pkg → (∀ h ∈ s.harts, h.pend = []) → exec (.routeLost p q) s = .next { s with lostRoutes := s.lostRoutes ++ [(p, q)] }

/-- R174, R177, R190, R230, R232 to R234: a channel starts the record its walk finds next, with its claims and its buffers, or fails it: the error is
recorded and the hart that handed it told. The oldest record in flight moves what is left of it and completes, with `OWN` cleared and the
sequence raised, or fails at the unit that cannot be moved; a unit moves its bytes, and a record's units are those of its operation. One
sector of a prefetch credits its barrier. A command of a base die ends with its result, its credits, `STATUS` and its counter, or fails. Which
records may move and which unit of them fails is log 27, that a command does all of it at one instant log 48, what is owed to a context in its save area
log 51. -/
def Obligations.EngineEventResults : Prop :=
  (∀ (s : State) (id : ChannelId),
    let c := s.chan id
    (s.walkNext id = .idle → exec (.copyRecordStart id) s = .next s) ∧
    (∀ ag code eval txb, s.walkNext id = .fail ag code eval txb →
      let t := s.failRecord id c.flights.length ag c.nextSeq code eval txb
      exec (.copyRecordStart id) s = .next t ∧
      ∀ k : BitVec 8, (k.toNat = code → exec (.copyRecordFail id k) s = .next t) ∧ (k.toNat ≠ code → exec (.copyRecordFail id k) s = .next s)) ∧
    (∀ keep ag seq code eval txb, let t := s.failRecord id keep ag seq code eval txb
      (t.chan id).err = true ∧ (t.chan id).ecode = code ∧ (t.chan id).eseq = seq % 2 ^ 24 ∧ (t.chan id).flights = c.flights.take keep ∧
      (ag.hart < s.harts.length → (s.hartAt ag.hart).gone = false → (s.hartAt ag.hart).status ≠ HartStatus.saved →
        (t.hartAt ag.hart).causes.any (·.1 == cENGINE) = true)) ∧
    (∀ ag addr w, s.walkNext id = .go ag addr w →
      let r := recOf w
      let claims := if s.claimed id addr then [] else s.claimsOf ag id addr
      let room := claims.length ≤ s.scoreFree ⟨ag.place.die, ag.place.cluster, ag.place.core⟩
      (¬room → exec (.copyRecordStart id) s = .next s) ∧
      (room → ∃ t, exec (.copyRecordStart id) s = .next t ∧ (t.chan id).flights = c.flights ++ [⟨addr, w, c.nextSeq, 0, ag, [], s.srcSpan ag id r⟩] ∧
        (t.chan id).last = addr ∧ t.score = s.score ++ claims ∧ t.mem = s.mem ∧ t.harts = s.harts ∧
        ∀ b, r.dstSpan.2 ≠ 0 → inSpadWin (s.srcSpan ag id r).1 = false → s.bufOf ag.ctx id r.dst = some b →
          t.bufs = s.bufs.map fun x => if (x.ctx == b.ctx && x.die == b.die && x.cluster == b.cluster && x.n == b.n) = true then
            (if x.kind = BufKind.staged ∧ x.state = BufState.empty then
              { x with state := BufState.filling, xcnt := 0, infl := x.infl + 1 } else { x with infl := x.infl + 1 }) else x)) ∧
    ((c.flights = [] ∨ c.quiesced = true ∨ s.mayMove id 0 = false ∨ ∃ fl rest, c.flights = fl :: rest ∧ s.retireHeld id fl = true) →
      exec (.copyRecordRetire id) s = .next s) ∧
    (∀ fl rest, c.flights = fl :: rest → c.quiesced = false → s.mayMove id 0 = true → s.retireHeld id fl = false →
      let m := ({ s with score := s.score ++ s.owedClaims id fl } : State).advance id 0 (s.unitsOf fl.agent id (recOf fl.words)).length
      (m.2 = none → exec (.copyRecordRetire id) s = .next (m.1.retireRecord id fl)) ∧
      (∀ code, m.2 = some code →
        exec (.copyRecordRetire id) s = .next (m.1.failRecord id 0 fl.agent fl.seq code fl.addr (recOf fl.words).txb))) ∧
    (∀ fl, let t := s.retireRecord id fl
      (t.chan id).flights = c.flights.drop 1 ∧ (t.chan id).seq = c.seq + 1 ∧
      ∀ pa, Mem.wf s.mem = true → fl.addr < localBase → c.seqw = 0 → (recOf fl.words).inc = false → s.lost pa = false →
        s.partPoisoned pa 8 = false → s.engRange fl.agent.publish id.die id.cluster .store (fl.addr + 8) 8 = .ok [(pa, 8)] →
        t.readN pa 8 = fl.words.getD 1 0 / 2 * 2 % 2 ^ 64) ∧
    (c.quiesced = true → ∀ code : BitVec 8, exec (.copyRecordFail id code) s = .next s) ∧
    (∀ k fl (code : BitVec 8), s.walkNext id = .idle → c.quiesced = false → c.flights[k]? = some fl → s.mayMove id k = true →
      (s.advance id k 1).2 = some code.toNat → (∀ j, j < k → s.mayMove id j = true → (s.advance id j 1).2 ≠ some code.toNat) →
      exec (.copyRecordFail id code) s = .next (s.failRecord id k fl.agent fl.seq code.toNat fl.addr (recOf fl.words).txb))) ∧
  (∀ (s : State) (id : ChannelId) (ag : Agent) (u : CopyUnit) (last : Bool × Bool) (v pa : Nat) (held : Option (Option Nat)), Mem.wf s.mem = true →
    (held = some (some v) ∨ held = none ∧ s.readUnit ag id u = .ok v) → s.engRange ag id.die id.cluster .store u.dst u.n = .ok [(pa, u.n)] →
    s.lost pa = false → s.partPoisoned pa u.n = false → s.hitsBarrier ag.ctx id.die id.cluster u.dst u.n = false →
    ∃ t, s.moveUnit ag id 0 held u last = .ok t ∧ t.readN pa u.n = v % 2 ^ (8 * u.n) ∧
      ∀ b, b < pa ∨ pa + u.n ≤ b → t.readByte b = s.readByte b) ∧
  (∀ (r : Rec) (idx : Nat → Nat), let stride (n d : Nat) : Nat := if n = 0 then d else n
    (r.op = 0 → r.units idx = (List.range r.count).map fun i =>
      ⟨none, some (r.src + i * stride r.srcStride r.fsize), r.dst + i * stride r.dstStride r.fsize, r.fsize, 0⟩) ∧
    (r.op = 1 → r.units idx = (List.range r.len).map fun j => ⟨none, none, r.dst + j, 1, bitsAt r.src (8 * (j % 8)) 8⟩) ∧
    (r.op = 2 → r.units idx = (List.range r.fields).flatMap fun k => (List.range r.count).map fun i =>
      ⟨if r.idx = 0 then none else some (r.idx + 4 * i),
        some (r.src + (if r.idx = 0 then i else idx i) * stride r.srcStride (r.fields * r.fsize) + k * r.fsize),
        r.dst + k * stride r.dstStride (r.count * r.fsize) + i * r.fsize, r.fsize, 0⟩) ∧
    (r.op = 3 → r.units idx = (List.range r.count).map fun i =>
      ⟨some (r.idx + 4 * i), some (r.src + idx i * stride r.srcStride r.fsize), r.dst + i * stride r.dstStride r.fsize, r.fsize, 0⟩)) ∧
  (∀ (s : State) (p : Prefetch), s.prefetches.find? (·.id == p.id) = some p →
    let l := s.prefetches.filter (·.id != p.id)
    let u : State := if p.left ≤ 1 then ({ s with prefetches := l } : State).unmark (.prefetch p.id)
      else { s with prefetches := l ++ [{ p with va := p.va + 64, left := p.left - 1 }] }
    (s.agentHeld p.agent [(p.va, 64)] = true → exec (.prefetchSectorDone p.id) s = .next s) ∧
    (s.agentHeld p.agent [(p.va, 64)] = false → (s.awayAt p.agent p.txb = true → exec (.prefetchSectorDone p.id) s = .next { u with owed := s.owed ++ [⟨p.agent, .credit p.txb 1⟩] }) ∧
    (s.awayAt p.agent p.txb = false →
      (s.barAt p.agent.ctx p.agent.place.die p.agent.place.cluster p.txb = none → exec (.prefetchSectorDone p.id) s = .next u) ∧
      ∀ pa, s.barAt p.agent.ctx p.agent.place.die p.agent.place.cluster p.txb = some pa →
        exec (.prefetchSectorDone p.id) s = .next (u.barStep pa 0 (-1) false)))) ∧
  (∀ (s : State) (n : Nat), s.prefetches.find? (·.id == n) = none → exec (.prefetchSectorDone n) s = .next s) ∧
  ∀ (s : State),
    (∀ n, s.baseOps.find? (·.id == n) = none → exec (.baseDieCompletion n) s = .next s) ∧
    ∀ o, s.baseOps.find? (·.id == o.id) = some o →
      let b := blockOf o.words
      let ag := o.agent
      let off : State := { s with baseOps := s.baseOps.filter (·.id != o.id) }
      let put (t : State) (v : Nat) : State :=
        if t.awayAt ag (o.addr + 56) then { t with owed := t.owed ++ [⟨ag, .put (o.addr + 56) v⟩] }
        else match t.engWrite { ag with det := false } ag.place.die ag.place.cluster (o.addr + 56) v 8 with
          | .ok x => x
          | .error _ => t
      (s.baseHeld o = true → exec (.baseDieCompletion o.id) s = .next s) ∧
      (∀ v fl l, s.baseHeld o = false → s.baseRun o = .ok ((v, fl), l) →
        let u := (off.writeRanges v l).unmark (.base o.id)
        let credited : State := if u.awayAt ag b.txb then { u with owed := u.owed ++ [⟨ag, .credit b.txb (b.dstBytes o.kind / 64)⟩] }
          else match u.barAt ag.ctx ag.place.die ag.place.cluster b.txb with
            | some pa => (List.range (b.dstBytes o.kind / 64)).foldl (fun (s : State) _ => s.barStep pa 0 (-1) false) u
            | none => u
        let done := put credited (2 ^ 63 + fl.toNat)
        let raised : State := if b.ctr = 0 then done
          else if done.awayAt ag b.ctr then { done with owed := done.owed ++ [⟨ag, .bump b.ctr⟩] }
          else match done.bump ag ag.place.die ag.place.cluster b.ctr with
            | .ok x => x
            | .error _ => done
        exec (.baseDieCompletion o.id) s = .next raised) ∧
      (∀ code, s.baseHeld o = false → s.baseRun o = .error code →
        let u := put ((off.baseSpoil o code).unmark (.base o.id)) (2 ^ 62 + code * 2 ^ 48)
        let told : State := if u.awayAt ag b.txb then { u with owed := u.owed ++ [⟨ag, .fail b.txb code⟩] }
          else match u.barAt ag.ctx ag.place.die ag.place.cluster b.txb with
            | some pa => u.barFail pa code 0
            | none => u
        exec (.baseDieCompletion o.id) s = .next (told.deliverEngine ag o.addr))

/-- R386, R388 to R390: once a rank's `SEND` has been read its data stand and `SENT` is set; once every rank's has, or runs in another package, and
nothing is wrong, every rank's `RECV` is written with the result of Table 3 and this rank's end is published with the flags, and its
counter raised; a collective fails on a rank with a code that holds of it, and tells the rank's hart. That every `RECV` of the package is written
before the first end, which code a failure has, and that a counter that cannot be written is skipped, is log 37 (DEDUCED). -/
def Obligations.CollectiveEventResults : Prop :=
  ∀ (s : State) (n rank : Nat),
    ((s.coll n = none ∨ ∃ c, s.coll n = some c ∧ c.call rank = none) → ∀ code, exec (.collSent n rank) s = .next s ∧
      exec (.collDone n rank) s = .next s ∧ exec (.collFail n rank code) s = .next s) ∧
    ∀ c x, s.coll n = some c → c.call rank = some x →
      (∀ l, s.underTest = [] → c.code = none → x.data = none → collBad x.words c.vds.length = false → s.collSpoilt x c.vds.length = false →
        s.collLost x c.vds.length = false →
        s.hbmRange x.agent .load x.b.send (x.b.sendBytes c.vds.length) = some l →
        let now := l.foldr (fun (p : Nat × Nat) acc => s.readN p.1 p.2 + 2 ^ (8 * p.2) * acc) 0
        let data := x.early.foldl (fun v u => putBits v (64 * u.1) 64 u.2) now % 2 ^ (8 * x.b.sendBytes c.vds.length)
        exec (.collSent n rank) s = .next ((s.modCall n rank fun x => { x with data := some data }).publish x.agent (x.block + 56) (2 ^ 61))) ∧
      (s.underTest = [] → s.collCodes c = [] → (∀ r, r < c.vds.length → s.collRemote c r = true ∨ ∃ y ∈ c.calls, y.rank = r ∧ y.data.isSome = true) →
        let f := s.collFlags c x.b
        let u := (((c.calls.filter (!·.ended)).foldl (fun (s : State) y => s.collReceive c y) f.2).unmark (.coll c.id rank)).publish x.agent
          (x.block + 56) (2 ^ 63 + 2 ^ 61 + f.1)
        exec (.collDone n rank) s = .next ((if x.b.ctr = 0 then u else (u.bumpCtr x.agent x.b.ctr).getD u).endCall c rank)) ∧
      ((∃ k, k ∈ s.collCodes c) → exec (.collDone n rank) s = .next s) ∧
      (∀ code : BitVec 8,
        let all := ∀ r, r < c.vds.length → s.collRemote c r = true ∨ ∃ y ∈ c.calls, y.rank = r
        let may := if c.code = none ∧ c.calls.any (·.agent.det) = true then (s.collCodes c).head? = some code.toNat ∧ all else code.toNat ∈ s.collCodes c
        (¬may → exec (.collFail n rank code) s = .next s) ∧
        (s.underTest = [] → may →
          let t : State := { s with colls := s.colls.map fun y => if y.id = n then { y with code := some code.toNat } else y }
          let u := (t.unmark (.coll c.id rank)).publish x.agent (x.block + 56)
            (2 ^ 62 + code.toNat * 2 ^ 48 + (if x.data.isSome then 2 ^ 61 else 0))
          exec (.collFail n rank code) s = .next ((u.deliverEngine x.agent x.block).endCall c rank))) ∧
      (∀ va m v pa, Mem.wf s.mem = true → x.got = false → x.put = [] → c.parts x = [(va, m, some v)] → s.hbmRange x.agent .store va m = some [(pa, m)] →
        (s.collReceive c x).readN pa m = v % 2 ^ (8 * m)) ∧
      let seg := x.b.count * x.b.sew / 8
      (x.b.writes rank = true → rank = x.rank →
        (x.b.op = 2 → c.parts x = (List.range c.vds.length).map fun r =>
          (x.b.recv + r * seg, seg, (c.dataOf r).map fun d => bitsAt d 0 (8 * seg))) ∧
        (x.b.op = 3 → c.parts x = (List.range c.vds.length).map fun r =>
          (x.b.recv + r * seg, seg, (c.dataOf r).map fun d => bitsAt d (8 * seg * rank) (8 * seg))) ∧
        (x.b.op ≠ 2 → x.b.op ≠ 3 →
          c.parts x = [(x.b.recv, x.b.recvBytes c.vds.length, (c.known x.b).map fun data => (x.b.result rank data).1)]))

/-- R22, R24, R27, R62, R69, R345, R392: an arithmetic E-side form whose decode check fails raises ILLEGAL with that check's value; one whose queue
destination holds four entries, or whose source queue holds none, raises ILLEGAL with sub-code 0x0B or 0x0C; a trap bit on an empty
source raises REG_EMPTY with the register's code, of the first such source in the order A, B, C. A form whose guard is false does nothing
but advance; a queue destination takes a filled entry of zeros. So it is with the A-side forms of every family; an all-or-nothing one clears
`VSTART` as it traps (R17). That a false guard still takes the head of a queue that it names as a source, and still counts as forked, is log 11
(DEDUCED), and that it waits for its registers is log 54. The guard is read first: where its own parity check fails the instruction raises
HART_CHECK with the file of predicates, and where it is false nothing else is read. A form whose guard is true raises HART_CHECK with the file
of its first source whose check fails; the error is counted and logged, a test of a lane group of the hart's core begun, and the context
marked for its restart (R394, R395, R397); that it is the core's first lane group is the model's choice (log 42). -/
def Obligations.IssueRules : Prop :=
  (∀ e ∈ vectorIntForms ++ vectorFpForms, ∀ (f : Fields) (s : State), s.hart.onE = false →
    (∀ x, e.chk f s.hart.geom = some x → exec (e.instr f) s = .next (s.trap cILLEGAL x.eval 0)) ∧
    (e.chk f s.hart.geom = none →
      (∀ n, f.d = .q n → 4 ≤ (s.hart.q[n]).length → exec (e.instr f) s = .next (s.trap cILLEGAL 0x30B 0)) ∧
      (∀ n, (∀ k, f.d ≠ .q k) → f.a = .q n → s.hart.q[n] = [] → exec (e.instr f) s = .next (s.trap cILLEGAL 0x40C 0)) ∧
      (queueCheck s.hart f false = none →
        let quiet (trap : Bool) (r : Reg) : Prop := trap = true → s.hart.unready r = false
        (f.ta = true → s.hart.isEmpty f.a = true → exec (e.instr f) s = .next (s.trap cREGEMPTY (f.a.code.setWidth 64) 0)) ∧
        (quiet f.ta f.a → f.tb = true → s.hart.isEmpty f.b = true →
          exec (e.instr f) s = .next (s.trap cREGEMPTY (f.b.code.setWidth 64) 0)) ∧
        (quiet f.ta f.a → quiet f.tb f.b → f.tc = true → s.hart.isEmpty f.c = true →
          exec (e.instr f) s = .next (s.trap cREGEMPTY (f.c.code.setWidth 64) 0))) ∧
      (s.ClearFork { f with g := 0, gn := false } (e.also f s.hart) → s.hart.isEmpty (.p f.g) = false → s.hart.guard f = false →
        ((∀ n, f.d ≠ .q n) → exec (e.instr f) s = .next (s.forks f id)) ∧
        ∀ n, f.d = .q n → exec (e.instr f) s = .next (s.fork.modHart fun h => ((popQueues h f).pushQ n true 0).retire)))) ∧
  (∀ e ∈ asideForms.map (·, false) ++ whollyForms.map (·, true), ∀ (f : Fields) (s : State), s.cur < s.harts.length → s.hart.onE = false →
    let traps (cause : Nat) (eval : Word) : State := ((if e.2 then s.modSr fun r => { r with vstart := 0 } else s).trap cause eval 0)
    (∀ n, f.d = .q n → 4 ≤ (s.hart.q[n]).length → exec (e.1 f) s = .next (traps cILLEGAL 0x30B)) ∧
    (∀ n, (∀ k, f.d ≠ .q k) → f.a = .q n → s.hart.q[n] = [] → exec (e.1 f) s = .next (traps cILLEGAL 0x40C)) ∧
    (queueCheck s.hart f false = none →
      let quiet (trap : Bool) (r : Reg) : Prop := trap = true → s.hart.unready r = false
      (f.ta = true → s.hart.isEmpty f.a = true → exec (e.1 f) s = .next (traps cREGEMPTY (f.a.code.setWidth 64))) ∧
      (quiet f.ta f.a → f.tb = true → s.hart.isEmpty f.b = true → exec (e.1 f) s = .next (traps cREGEMPTY (f.b.code.setWidth 64))) ∧
      (quiet f.ta f.a → quiet f.tb f.b → f.tc = true → s.hart.isEmpty f.c = true →
        exec (e.1 f) s = .next (traps cREGEMPTY (f.c.code.setWidth 64))) ∧
      ((∀ r, s.hart.isEmpty r = false) → s.hart.waiting = [] → s.hart.struck = [] → s.hart.guard f = false →
        ((∀ n, f.d ≠ .q n) → exec (e.1 f) s = .next (s.completes f id)) ∧
        ∀ n, f.d = .q n → exec (e.1 f) s = .next (s.modHart fun h => ((popQueues h f).pushQ n true 0).retire)))) ∧
  let raised (s : State) (file : Nat) : State :=
    (((s.countUncorr s.hart.place.die s.hart.place.die).beginTest (.laneGroup s.hart.core 0)).modCtx s.hart.ctx fun c =>
      { c with broken := true }).trap cHARTCHECK (BitVec.ofNat 64 file) 0
  let ready (f : Fields) (s : State) : Prop := s.cur < s.harts.length ∧ s.hart.late = [] ∧ s.hart.onE = false ∧ s.hart.waiting = [] ∧
    queueCheck s.hart f false = none ∧ ∀ r, s.hart.isEmpty r = false
  (∀ e ∈ aluForms, ∀ (f : Fields) (s : State), ready f s →
    (.p f.g ∈ s.hart.struck → exec (e.1 f) s = .next (raised s 1)) ∧
    (.p f.g ∉ s.hart.struck → s.hart.guard f = false → (∀ n, f.d ≠ .q n) → exec (e.1 f) s = .next (s.completes f id)) ∧
    (.p f.g ∉ s.hart.struck → s.hart.guard f = true →
      (∀ n, f.a = .x n → n ≠ 0 → f.a ∈ s.hart.struck → exec (e.1 f) s = .next (raised s 1)) ∧
      (∀ n, f.a = .q n → f.a ∈ s.hart.struck → exec (e.1 f) s = .next (raised s 4)) ∧
      (∀ n, f.a ∉ s.hart.struck → f.b = .x n → n ≠ 0 → f.b ∈ s.hart.struck → exec (e.1 f) s = .next (raised s 1)))) ∧
  ∀ e ∈ vectorIntForms ++ vectorFpForms, ∀ (f : Fields) (s : State) (n : Fin 32), ready f s → s.hart.equeue < queueSize →
    e.chk f s.hart.geom = none → f.a = .v n → f.a ∈ s.hart.struck → .p f.g ∉ s.hart.struck → s.hart.guard f = true →
    exec (e.instr f) s = .next (raised s 2)

/-- R9, R18, R26, R30, R92, R345, R392: a write of x0 or p0 changes no register, and they read 0 and true; a write of another register changes it alone, and of a tile
register its `DIRTY` bit too; a value whose parity failed there is gone (log 42). An instruction that completes changes, besides its effect, the pc, the
loop counts and `INSTRET` of its hart and the queues it read: no byte of memory, no other hart, and nothing else of the state. -/
def Obligations.RegisterWriteRule : Prop :=
  (∀ (h : Hart) (w : Word) (b : Bool) (t : Tile),
    h.getX 0 = 0 ∧ h.getP 0 = true ∧ h.put (.x 0) (.word w) = h.mend (.x 0) ∧ h.put (.p 0) (.bit b) = h.mend (.p 0) ∧
    (∀ r, h.mend r = { h with struck := (h.mend r).struck } ∧ ∀ q, q ∈ (h.mend r).struck ↔ q ∈ h.struck ∧ q ≠ r) ∧
    (∀ n, n ≠ 0 → (h.put (.x n) (.word w)).getX n = w ∧ (∀ m, m ≠ n → (h.put (.x n) (.word w)).getX m = h.getX m) ∧
      h.put (.x n) (.word w) = { h.mend (.x n) with x := (h.put (.x n) (.word w)).x }) ∧
    (∀ n, n ≠ 0 → (h.put (.p n) (.bit b)).getP n = b ∧ (∀ m, m ≠ n → (h.put (.p n) (.bit b)).getP m = h.getP m) ∧
      h.put (.p n) (.bit b) = { h.mend (.p n) with p := (h.put (.p n) (.bit b)).p }) ∧
    ∀ n, (h.put (.v n) (.tile t)).v[n] = t ∧ (∀ m, m ≠ n → (h.put (.v n) (.tile t)).v[m] = h.v[m]) ∧
      (∀ k : Nat, k < 64 → (h.put (.v n) (.tile t)).sr.dirty.getLsbD k = (decide (k = n.val) || h.sr.dirty.getLsbD k)) ∧
      h.put (.v n) (.tile t) =
        { h.mend (.v n) with v := (h.put (.v n) (.tile t)).v, sr := { h.sr with dirty := (h.put (.v n) (.tile t)).sr.dirty } }) ∧
  ∀ (f : Fields) (s : State) (g : Hart → Hart), s.cur < s.harts.length →
    let t := s.completes f g
    let h := g s.hart
    t = { s with harts := t.harts } ∧ (∀ m, m ≠ s.cur → t.hartAt m = s.hartAt m) ∧ (∀ a, t.readByte a = s.readByte a) ∧
    t.hart.pc = (loopEnd h.pc h.sr).1 ∧ t.hart.sr = { (loopEnd h.pc h.sr).2 with instret := (loopEnd h.pc h.sr).2.instret + 1 } ∧
    t.hart.x = h.x ∧ t.hart.p = h.p ∧ t.hart.v = h.v ∧ t.hart.k = h.k ∧ t.hart.s = h.s ∧ t.hart.ma = h.ma ∧ t.hart.st = h.st ∧
    t.hart.empty = h.empty ∧ ((∀ n, f.a ≠ .q n ∧ f.b ≠ .q n ∧ f.c ≠ .q n) → t.hart.q = h.q)

/-- R2, R30, R56, R57, R98: a hart's step, where nothing else stands at its boundary, runs the instruction that the twelve bytes at its pc decode to
under its `VTYPE`; a word that decodes to none raises ILLEGAL with the value of R70, and bytes that cannot be fetched raise the fetch's own
cause. Each aligned 4-byte word is as memory holds it, or as it was fetched ahead. A hart whose request is on its way to a slice that has performed a
later operation of the cycle goes on in the next (log 28), and a step that would perform an access which waits for a test waits too (R395, log 38). An
entry of the schedule that names an event runs that event. Cycles that pass stop at the next at which something falls due, and what has fallen
due takes effect before they go on: the schedule, the cycles at which time stops and what comes before what there are the model's choice (log 2),
and that a fetch fault drops a held run entry is log 16. -/
def Obligations.StepRunsDecoded : Prop :=
  ∀ (s : State),
    (s.agenda = [] → s.cur < s.harts.length → s.hart.waiting = [] → s.behind s.cur = false → boundary s = .run →
      let named (i : Instr) : State := s.modHart fun h => { h with decoded := some i, undo := none }
      (s.underTest = [] →
        (∀ w i, fetch s = .word w → decodeAt s.hart.sr.vtype s.hart.st.pl w = .ok i → step s = exec i (named i)) ∧
        (∀ w e, fetch s = .word w → decodeAt s.hart.sr.vtype s.hart.st.pl w = .error e →
          step s = .next (trapOf s (whollyWord w e) cILLEGAL e.eval 0)) ∧
        (∀ epc cause eval, fetch s = .trap epc cause eval → step s =
          .next ((if cause = cFETCH then s.forgetRun s.hart.place eval.toNat else s).trapAt s.cur epc cause eval 0))) ∧
      (∀ w i t, fetch s = .word w → decodeAt s.hart.sr.vtype s.hart.st.pl w = .ok i → exec i (named i) = .next t →
        step s = .next (if s.overrun s.cur t then s else t)) ∧
      (fetch s = .wait → step s = .next s) ∧
      (∀ pa, s.hart.pc.toNat % 4 = 0 → s.hart.pc.toNat % 0x10000 + 12 ≤ 0x10000 → s.fetchAt s.hart.pc.toNat 12 = .ok pa →
        s.poisoned pa 12 = false → (s.hart.ahead = [] → fetch s = .word (BitVec.ofNat 96 (s.readN pa 12))) ∧
          ((∀ x ∈ s.hart.ahead, x.2 < 2 ^ 32) → ∃ w, fetch s = .word w ∧ ∀ i, i < 3 →
            bitsAt w.toNat (32 * i) 32 = s.readN (pa + 4 * i) 4 ∨ (pa + 4 * i, bitsAt w.toNat (32 * i) 32) ∈ s.hart.ahead)) ∧
      (s.hart.pc.toNat % 4 ≠ 0 → fetch s = .trap s.hart.prevPc cPCMIS (BitVec.ofNat 64 s.hart.pc.toNat))) ∧
    (s.agenda = [] → s.cur < s.harts.length → s.behind s.cur = true → step s = .next s) ∧
    (∀ i rest, s.agenda = .event i :: rest → i.parts = none → step s = exec i { s with agenda := rest }) ∧
    (∀ n rest, s.agenda = .hart n :: rest → step s = stepHart { s with agenda := rest, cur := n }) ∧
    ∀ cycles rest, s.agenda = .pass cycles :: rest →
      let expired := s.due s.expiries
      (expired ≠ [] → step s = .next { s with agenda := expired ++ s.agenda }) ∧
      (expired = [] → ∃ t m l, step s = .next t ∧ m ≤ cycles ∧ t.clock = s.clock + m ∧ t.mem = s.mem ∧
        (∀ x ∈ s.stops, s.clock < x → s.clock + m ≤ x) ∧ (m < cycles → s.clock + m ∈ s.stops) ∧
        t.agenda = l ++ (if m = cycles then rest else .pass (cycles - m) :: rest) ∧
        (∀ x ∈ s.ends, x.1 ≤ s.clock + m → ∀ a ∈ x.2, a ∈ l) ∧
        ∀ n, n < s.harts.length → (s.hartAt n).bound = true → (s.hartAt n).status ≠ HartStatus.stopped →
          (t.hartAt n).sr.cycle = (s.hartAt n).sr.cycle + BitVec.ofNat 64 m)

/-- R56 to R59, R69, R70: the words that the manual writes out decode to their instructions: `add x5, x6, x7`, `add x5, x6, -3`, a guarded and
masked `vadd` with hints, `vffma`, `vred.sum`, `mmax`, `ld.w`, `ttake`, `cparm` and `coll`; the word with D = p2 for `add`, the all-zero
word, a reserved opcode and `eret` at U are illegal, each for its reason. -/
def Obligations.DecodedWords : Prop :=
  decodeWord .u 0x000000000000000706050001 = .ok (.add { d := .x 5, a := .x 6, b := .x 7 }) ∧
  decodeWord .u 0xFFFFFFFD0000000006058001 = .ok (.addI { fn := 0x80, d := .x 5, a := .x 6, imm := 0xFFFFFFFD }) ∧
  decodeWord .u 0x00000000689C914544430034 = .ok (.vadd
    { d := .v 3, a := .v 4, b := .v 5, xl := 1, tb := true, men := true, k := 2, g := 3, gn := true, stall := 2, yld := true, ecls := 1 }) ∧
  decodeWord .u 0x000003440005404342410041 = .ok (.vffma { d := .v 1, a := .v 2, b := .v 3, c := .v 4, imm := 0x300, men := true, k := 5 }) ∧
  decodeWord .u 0x000009000004400642050058 = .ok (.vredSum { d := .x 5, a := .v 2, b := .x 6, imm := 0x900, men := true, k := 1 }) ∧
  decodeWord .u 0x000205040000004C4879006F = .ok (.mmax { d := .ma 1, a := .v 8, b := .v 12, imm := 0x20504 }) ∧
  decodeWord .u 0x000000100000000006050278 = .ok (.ld { fn := 2, d := .x 5, a := .x 6, imm := 0x10 }) ∧
  decodeWord .u 0x00030309000000450A4400A2 = .ok (.ttake { d := .v 4, a := .x 10, b := .v 5, c := .x 9, imm := 0x30300 }) ∧
  decodeWord .u 0x0000030C0000000B0A05009E = .ok (.cparm { d := .x 5, a := .x 10, b := .x 11, c := .x 12, imm := 0x300 }) ∧
  decodeWord .u 0x00000000000000000A0500B4 = .ok (.coll { d := .x 5, a := .x 10 }) ∧
  decodeWord .u 0x000000000000000706820001 = .error ⟨0x06, 3, 0⟩ ∧ decodeWord .f 0 = .error ⟨0x01, 1, 0⟩ ∧
  decodeWord .f 0x00000000000000000000000D = .error ⟨0x02, 1, 0⟩ ∧ decodeWord .u 0x00000000000000000000002B = .error ⟨0x04, 1, 0⟩

/-- R21, R56 to R61, R69: the word of a well-formed encoded instruction decodes, at a level that may run it, to that instruction with every
field; and every word that decodes is the word of the well-formed instruction it decodes to. Under a hart's `VTYPE` a word decodes to the same
instruction or is illegal: it is illegal exactly where `BL` is not 0 and a queue stands where a block is to be read or `XL` is not 0, and
where `FMT` is an integer format and `RM` of a reduction is not 0. -/
def Obligations.EncodeDecode : Prop :=
  (∀ (i : Instr) (w : IWord), i.wf = true → encode i = some w → decodeWord .f w = .ok i) ∧
  (∀ (i : Instr) (m : Form) (pl : Priv) (w : IWord), i.wf = true → encode i = some w → i.form = some m →
    decodeWord pl w = if pl.code < m.priv.code then .error ⟨0x04, 1, 0⟩ else .ok i) ∧
  (∀ (pl : Priv) (w : IWord) (i : Instr), decodeWord pl w = .ok i → i.wf = true ∧ encode i = some w) ∧
  (∀ (vt : Word) (pl : Priv) (w : IWord) (i : Instr), decodeAt vt pl w = .ok i → decodeWord pl w = .ok i) ∧
  ∀ (vt : Word) (pl : Priv) (w : IWord) (i : Instr) (m : Form) (op : BitVec 8) (f : Fields), decodeWord pl w = .ok i → i.form = some m →
    i.parts = some (op, f) →
    let blocked := vtBl vt ≠ 0
    (decodeAt vt pl w = .ok i ↔ ¬(blocked ∧ m.aTile = true ∧ f.a.isQ = true) ∧ ¬(blocked ∧ f.xl ≠ 0) ∧
      ¬(fmtIsInt (bitsAt vt.toNat 4 5) = true ∧ m.fpRm = true ∧ f.rm ≠ 0))

/-- R4: memory is little-endian: a value of n bytes has its least significant byte at its address and reads as the sum of its bytes by
their weights; a write of n bytes puts bits [8i+7:8i] of the value at the i-th; bit 0 is the least significant bit; a signed 64-bit
integer is in two's complement; and bit i of an instruction's word is bit i mod 8 of the byte i / 8 places above its address. -/
def Obligations.LittleEndianMemory : Prop :=
  ∀ (s : State) (pa v n : Nat), Mem.wf s.mem = true →
    s.readN pa n = ((List.range n).map fun i => (s.readByte (pa + i)).toNat * 2 ^ (8 * i)).sum ∧
    (∀ i, i < n → (s.writeN pa v n).readByte (pa + i) = BitVec.ofNat 8 (v / 2 ^ (8 * i))) ∧
    (∀ i k, i < n → k < 8 → (s.readN pa n).testBit (8 * i + k) = (s.readByte (pa + i)).getLsbD k) ∧
    (∀ w : Word, w.toInt = (w.toNat : Int) - if w.getLsbD 63 then 2 ^ 64 else 0) ∧
    ∀ (w : IWord) (i : Nat), i < 96 → s.hart.ahead = [] → s.hart.pc.toNat % 0x10000 + 12 ≤ 0x10000 → fetch s = .word w →
      ∃ a, s.fetchAt s.hart.pc.toNat 12 = .ok a ∧ w.getLsbD i = (s.readByte (a + i / 8)).getLsbD (i % 8)

/-- R4: every step keeps memory in its one form: addresses strictly rising, and no byte listed that reads as an unlisted one does. -/
def Obligations.StepKeepsMemoryForm : Prop :=
  ∀ s t : State, Mem.wf s.mem = true → step s = .next t → Mem.wf t.mem = true

/-- R13, R18: every step keeps the shapes legal and the clean tile registers zero: from a state in which every hart has a `VTYPE` that R33 allows,
a `VL` that fits it and a `VR` from 1 to 8, and holds zero in every tile register whose `DIRTY` bit is clear, and in which what may yet
become a hart is so too, a step leads to such a state again. -/
def Obligations.StepKeepsShape : Prop := ∀ s t : State, s.Shaped → step s = .next t → t.Shaped

/-- R285: `vsfc.2d` writes to each active element of D the key whose bit 2i is bit i of A's element and whose bit 2i + 1 is bit i of B's, of the
low 32 bits of each; `vsfc.3d` the key of the low 21 bits of the elements of A, B and C, three bits of the key to each i; higher bits of the
elements do not matter, and its bit 63 is zero. The other elements of D, and the flags, are as they were. -/
def Obligations.MortonKeys : Prop :=
  (∀ x y i : Nat, i < 32 → (interleave 2 [x, y]).testBit (2 * i) = x.testBit i ∧ (interleave 2 [x, y]).testBit (2 * i + 1) = y.testBit i) ∧
  (∀ x y z i : Nat, i < 21 → (interleave 3 [x, y, z]).testBit (3 * i) = x.testBit i ∧ (interleave 3 [x, y, z]).testBit (3 * i + 1) = y.testBit i ∧
    (interleave 3 [x, y, z]).testBit (3 * i + 2) = z.testBit i) ∧
  (∀ x y z : Nat, interleave 2 [x, y] < 2 ^ 64 ∧ interleave 3 [x, y, z] < 2 ^ 63) ∧
  ∀ (f : Fields) (s : State) (n : Fin 32), s.Clear f [] → s.hart.phased = false → meshShape s.hart.geom = none → f.d = .v n →
    64 * s.hart.geom.vl ≤ 1024 → s.hart.geom.vr ≤ 8 →
    let g := s.hart.geom
    let el (r : Reg) (i j : Nat) : Nat := elemBits (s.hart.tr r).toNat 64 i j
    let writes (t : State) (key : Nat → Nat → Nat) : Prop :=
      (∀ i j, i < g.vr → j < g.len i → elemBits (t.hart.v[n]).toNat 64 i j =
        if s.hart.active f ⟨i, j, i * g.vl + j⟩ = true then key i j else elemBits (s.hart.v[n]).toNat 64 i j) ∧
      t.hart.sr.fflags = s.hart.sr.fflags
    (∃ t, exec (.vsfc2d f) s = .next t ∧ writes t fun i j => interleave 2 [el f.a i j, el f.b i j]) ∧
    ∃ t, exec (.vsfc3d f) s = .next t ∧ writes t fun i j => interleave 3 [el f.a i j, el f.b i j, el f.c i j]

/-- R11, R32, R398: after reset memory lists nothing, no access, request or engine operation is outstanding, and the one hart is held at F; the hart
that a binding starts from, before its record's values are put into it (the pc, `VTYPE`, `VL`, `VR`, `WSHARE`, x1 and x2, `DETCTL`, `STVEC`: R314,
R324), has every register zero and full, `VTYPE` 1, `VL` 0, `VR` and `WSHARE` 1, and its queues empty. That reset has one hart slot, in
context 0, and that registers are zero there, is the model's choice (log 1). -/
def Obligations.ResetState : Prop :=
  Mem.wf State.reset.mem = true ∧ State.reset.Shaped ∧ (∀ a, State.reset.readByte a = 0) ∧ State.reset.cur < State.reset.harts.length ∧
  State.reset.time = 0 ∧ State.reset.hart.st.pl = .f ∧ State.reset.hart.status = HartStatus.held ∧ State.reset.hart.bound = false ∧
  State.reset.reqs = [] ∧ State.reset.baseOps = [] ∧ State.reset.prefetches = [] ∧ State.reset.tuples = [] ∧ State.reset.host.owner = 32 ∧ (∀ k : Fin 8, State.reset.host.mreg[k] = 0) ∧ State.reset.host.oepoch = 0 ∧
  ∀ (p : Place) (ctx gang hid : Nat),
    let h := Hart.fresh p ctx gang hid
    (∀ n, h.getX n = 0) ∧ (∀ n : Fin 16, h.getP n = decide (n = 0)) ∧ (∀ n : Fin 32, h.v[n] = 0) ∧ (∀ n : Fin 16, h.k[n] = 0) ∧
    (∀ n : Fin 8, h.s[n] = 0) ∧ (∀ n : Fin 2, h.ma[n] = 0) ∧ (∀ n : Fin 4, h.q[n] = []) ∧ (∀ r, h.isEmpty r = false) ∧
    h.sr.vr = 1 ∧ h.sr.vl = 0 ∧ h.sr.vtype = 1 ∧ h.sr.wshare = 1 ∧ h.sr.instret = 0 ∧ h.st.pl = .u ∧ h.st.aie = false ∧ h.st.tf = false
end

