-- ==== Sys2Proof/Laws/Dispatch.lean ====
section
/-! SUPPORT. The meaning each instruction dispatches to. -/
namespace Sys2Proof.Machine

@[simp] theorem exec_add (f : Fields) (s : State) : exec (.add f) s = execAdd f s := rfl
@[simp] theorem exec_addI (f : Fields) (s : State) : exec (.addI f) s = execAddI f s := rfl
@[simp] theorem exec_sub (f : Fields) (s : State) : exec (.sub f) s = execSub f s := rfl
@[simp] theorem exec_subI (f : Fields) (s : State) : exec (.subI f) s = execSubI f s := rfl
@[simp] theorem exec_mul (f : Fields) (s : State) : exec (.mul f) s = execMul f s := rfl
@[simp] theorem exec_mulI (f : Fields) (s : State) : exec (.mulI f) s = execMulI f s := rfl
@[simp] theorem exec_mulh (f : Fields) (s : State) : exec (.mulh f) s = execMulh f s := rfl
@[simp] theorem exec_mulhI (f : Fields) (s : State) : exec (.mulhI f) s = execMulhI f s := rfl
@[simp] theorem exec_mulhu (f : Fields) (s : State) : exec (.mulhu f) s = execMulhu f s := rfl
@[simp] theorem exec_mulhuI (f : Fields) (s : State) : exec (.mulhuI f) s = execMulhuI f s := rfl
@[simp] theorem exec_div (f : Fields) (s : State) : exec (.div f) s = execDiv f s := rfl
@[simp] theorem exec_divI (f : Fields) (s : State) : exec (.divI f) s = execDivI f s := rfl
@[simp] theorem exec_divu (f : Fields) (s : State) : exec (.divu f) s = execDivu f s := rfl
@[simp] theorem exec_divuI (f : Fields) (s : State) : exec (.divuI f) s = execDivuI f s := rfl
@[simp] theorem exec_rem (f : Fields) (s : State) : exec (.rem f) s = execRem f s := rfl
@[simp] theorem exec_remI (f : Fields) (s : State) : exec (.remI f) s = execRemI f s := rfl
@[simp] theorem exec_remu (f : Fields) (s : State) : exec (.remu f) s = execRemu f s := rfl
@[simp] theorem exec_remuI (f : Fields) (s : State) : exec (.remuI f) s = execRemuI f s := rfl
@[simp] theorem exec_and (f : Fields) (s : State) : exec (.and f) s = execAnd f s := rfl
@[simp] theorem exec_andI (f : Fields) (s : State) : exec (.andI f) s = execAndI f s := rfl
@[simp] theorem exec_or (f : Fields) (s : State) : exec (.or f) s = execOr f s := rfl
@[simp] theorem exec_orI (f : Fields) (s : State) : exec (.orI f) s = execOrI f s := rfl
@[simp] theorem exec_xor (f : Fields) (s : State) : exec (.xor f) s = execXor f s := rfl
@[simp] theorem exec_xorI (f : Fields) (s : State) : exec (.xorI f) s = execXorI f s := rfl
@[simp] theorem exec_andn (f : Fields) (s : State) : exec (.andn f) s = execAndn f s := rfl
@[simp] theorem exec_andnI (f : Fields) (s : State) : exec (.andnI f) s = execAndnI f s := rfl
@[simp] theorem exec_sll (f : Fields) (s : State) : exec (.sll f) s = execSll f s := rfl
@[simp] theorem exec_sllI (f : Fields) (s : State) : exec (.sllI f) s = execSllI f s := rfl
@[simp] theorem exec_srl (f : Fields) (s : State) : exec (.srl f) s = execSrl f s := rfl
@[simp] theorem exec_srlI (f : Fields) (s : State) : exec (.srlI f) s = execSrlI f s := rfl
@[simp] theorem exec_sra (f : Fields) (s : State) : exec (.sra f) s = execSra f s := rfl
@[simp] theorem exec_sraI (f : Fields) (s : State) : exec (.sraI f) s = execSraI f s := rfl
@[simp] theorem exec_rol (f : Fields) (s : State) : exec (.rol f) s = execRol f s := rfl
@[simp] theorem exec_rolI (f : Fields) (s : State) : exec (.rolI f) s = execRolI f s := rfl
@[simp] theorem exec_slt (f : Fields) (s : State) : exec (.slt f) s = execSlt f s := rfl
@[simp] theorem exec_sltI (f : Fields) (s : State) : exec (.sltI f) s = execSltI f s := rfl
@[simp] theorem exec_sltu (f : Fields) (s : State) : exec (.sltu f) s = execSltu f s := rfl
@[simp] theorem exec_sltuI (f : Fields) (s : State) : exec (.sltuI f) s = execSltuI f s := rfl
@[simp] theorem exec_min (f : Fields) (s : State) : exec (.min f) s = execMin f s := rfl
@[simp] theorem exec_minI (f : Fields) (s : State) : exec (.minI f) s = execMinI f s := rfl
@[simp] theorem exec_max (f : Fields) (s : State) : exec (.max f) s = execMax f s := rfl
@[simp] theorem exec_maxI (f : Fields) (s : State) : exec (.maxI f) s = execMaxI f s := rfl
@[simp] theorem exec_minu (f : Fields) (s : State) : exec (.minu f) s = execMinu f s := rfl
@[simp] theorem exec_minuI (f : Fields) (s : State) : exec (.minuI f) s = execMinuI f s := rfl
@[simp] theorem exec_maxu (f : Fields) (s : State) : exec (.maxu f) s = execMaxu f s := rfl
@[simp] theorem exec_maxuI (f : Fields) (s : State) : exec (.maxuI f) s = execMaxuI f s := rfl
@[simp] theorem exec_clz (f : Fields) (s : State) : exec (.clz f) s = execClz f s := rfl
@[simp] theorem exec_ctz (f : Fields) (s : State) : exec (.ctz f) s = execCtz f s := rfl
@[simp] theorem exec_popc (f : Fields) (s : State) : exec (.popc f) s = execPopc f s := rfl
@[simp] theorem exec_sext (f : Fields) (s : State) : exec (.sext f) s = execSext f s := rfl
@[simp] theorem exec_sextI (f : Fields) (s : State) : exec (.sextI f) s = execSextI f s := rfl
@[simp] theorem exec_zext (f : Fields) (s : State) : exec (.zext f) s = execZext f s := rfl
@[simp] theorem exec_zextI (f : Fields) (s : State) : exec (.zextI f) s = execZextI f s := rfl
@[simp] theorem exec_li (f : Fields) (s : State) : exec (.li f) s = execLi f s := rfl
@[simp] theorem exec_lih (f : Fields) (s : State) : exec (.lih f) s = execLih f s := rfl
@[simp] theorem exec_sel (f : Fields) (s : State) : exec (.sel f) s = execSel f s := rfl
@[simp] theorem exec_fadd (f : Fields) (s : State) : exec (.fadd f) s = execFadd f s := rfl
@[simp] theorem exec_fsub (f : Fields) (s : State) : exec (.fsub f) s = execFsub f s := rfl
@[simp] theorem exec_fmul (f : Fields) (s : State) : exec (.fmul f) s = execFmul f s := rfl
@[simp] theorem exec_fma (f : Fields) (s : State) : exec (.fma f) s = execFma f s := rfl
@[simp] theorem exec_fdiv (f : Fields) (s : State) : exec (.fdiv f) s = execFdiv f s := rfl
@[simp] theorem exec_fsqrt (f : Fields) (s : State) : exec (.fsqrt f) s = execFsqrt f s := rfl
@[simp] theorem exec_fmin (f : Fields) (s : State) : exec (.fmin f) s = execFmin f s := rfl
@[simp] theorem exec_fmax (f : Fields) (s : State) : exec (.fmax f) s = execFmax f s := rfl
@[simp] theorem exec_fsgn (f : Fields) (s : State) : exec (.fsgn f) s = execFsgn f s := rfl
@[simp] theorem exec_fsgnN (f : Fields) (s : State) : exec (.fsgnN f) s = execFsgnN f s := rfl
@[simp] theorem exec_fsgnX (f : Fields) (s : State) : exec (.fsgnX f) s = execFsgnX f s := rfl
@[simp] theorem exec_fclass (f : Fields) (s : State) : exec (.fclass f) s = execFclass f s := rfl
@[simp] theorem exec_fcmpEq (f : Fields) (s : State) : exec (.fcmpEq f) s = execFcmpEq f s := rfl
@[simp] theorem exec_fcmpLt (f : Fields) (s : State) : exec (.fcmpLt f) s = execFcmpLt f s := rfl
@[simp] theorem exec_fcmpLe (f : Fields) (s : State) : exec (.fcmpLe f) s = execFcmpLe f s := rfl
@[simp] theorem exec_fcmpUn (f : Fields) (s : State) : exec (.fcmpUn f) s = execFcmpUn f s := rfl
@[simp] theorem exec_fcvt (f : Fields) (s : State) : exec (.fcvt f) s = execFcvt f s := rfl
@[simp] theorem exec_pcmpEq (f : Fields) (s : State) : exec (.pcmpEq f) s = execPcmpEq f s := rfl
@[simp] theorem exec_pcmpNe (f : Fields) (s : State) : exec (.pcmpNe f) s = execPcmpNe f s := rfl
@[simp] theorem exec_pcmpLt (f : Fields) (s : State) : exec (.pcmpLt f) s = execPcmpLt f s := rfl
@[simp] theorem exec_pcmpGe (f : Fields) (s : State) : exec (.pcmpGe f) s = execPcmpGe f s := rfl
@[simp] theorem exec_pcmpLtu (f : Fields) (s : State) : exec (.pcmpLtu f) s = execPcmpLtu f s := rfl
@[simp] theorem exec_pcmpGeu (f : Fields) (s : State) : exec (.pcmpGeu f) s = execPcmpGeu f s := rfl
@[simp] theorem exec_pcmpEqI (f : Fields) (s : State) : exec (.pcmpEqI f) s = execPcmpEqI f s := rfl
@[simp] theorem exec_pcmpNeI (f : Fields) (s : State) : exec (.pcmpNeI f) s = execPcmpNeI f s := rfl
@[simp] theorem exec_pcmpLtI (f : Fields) (s : State) : exec (.pcmpLtI f) s = execPcmpLtI f s := rfl
@[simp] theorem exec_pcmpGeI (f : Fields) (s : State) : exec (.pcmpGeI f) s = execPcmpGeI f s := rfl
@[simp] theorem exec_pcmpLtuI (f : Fields) (s : State) : exec (.pcmpLtuI f) s = execPcmpLtuI f s := rfl
@[simp] theorem exec_pcmpGeuI (f : Fields) (s : State) : exec (.pcmpGeuI f) s = execPcmpGeuI f s := rfl
@[simp] theorem exec_plogAnd (f : Fields) (s : State) : exec (.plogAnd f) s = execPlogAnd f s := rfl
@[simp] theorem exec_plogOr (f : Fields) (s : State) : exec (.plogOr f) s = execPlogOr f s := rfl
@[simp] theorem exec_plogXor (f : Fields) (s : State) : exec (.plogXor f) s = execPlogXor f s := rfl
@[simp] theorem exec_plogAndn (f : Fields) (s : State) : exec (.plogAndn f) s = execPlogAndn f s := rfl
@[simp] theorem exec_pmov (f : Fields) (s : State) : exec (.pmov f) s = execPmov f s := rfl
@[simp] theorem exec_pmovPx (f : Fields) (s : State) : exec (.pmovPx f) s = execPmovPx f s := rfl
@[simp] theorem exec_pmovXp (f : Fields) (s : State) : exec (.pmovXp f) s = execPmovXp f s := rfl
@[simp] theorem exec_pmovPk (f : Fields) (s : State) : exec (.pmovPk f) s = execPmovPk f s := rfl
@[simp] theorem exec_pmovUpk (f : Fields) (s : State) : exec (.pmovUpk f) s = execPmovUpk f s := rfl
@[simp] theorem exec_br (f : Fields) (s : State) : exec (.br f) s = execBr f s := rfl
@[simp] theorem exec_brZ (f : Fields) (s : State) : exec (.brZ f) s = execBrZ f s := rfl
@[simp] theorem exec_brNz (f : Fields) (s : State) : exec (.brNz f) s = execBrNz f s := rfl
@[simp] theorem exec_jal (f : Fields) (s : State) : exec (.jal f) s = execJal f s := rfl
@[simp] theorem exec_jr (f : Fields) (s : State) : exec (.jr f) s = execJr f s := rfl
@[simp] theorem exec_loop0 (f : Fields) (s : State) : exec (.loop0 f) s = execLoop0 f s := rfl
@[simp] theorem exec_loop1 (f : Fields) (s : State) : exec (.loop1 f) s = execLoop1 f s := rfl
@[simp] theorem exec_lbrk0 (f : Fields) (s : State) : exec (.lbrk0 f) s = execLbrk0 f s := rfl
@[simp] theorem exec_lbrk1 (f : Fields) (s : State) : exec (.lbrk1 f) s = execLbrk1 f s := rfl
@[simp] theorem exec_yield (f : Fields) (s : State) : exec (.yield f) s = execYield f s := rfl
@[simp] theorem exec_exit (f : Fields) (s : State) : exec (.exit f) s = execExit f s := rfl
@[simp] theorem exec_gsr (f : Fields) (s : State) : exec (.gsr f) s = execGsr f s := rfl
@[simp] theorem exec_ssr (f : Fields) (s : State) : exec (.ssr f) s = execSsr f s := rfl
@[simp] theorem exec_ssrSet (f : Fields) (s : State) : exec (.ssrSet f) s = execSsrSet f s := rfl
@[simp] theorem exec_ssrClr (f : Fields) (s : State) : exec (.ssrClr f) s = execSsrClr f s := rfl
@[simp] theorem exec_fence (f : Fields) (s : State) : exec (.fence f) s = execFence f s := rfl
@[simp] theorem exec_sbar (f : Fields) (s : State) : exec (.sbar f) s = execSbar f s := rfl
@[simp] theorem exec_ifence (f : Fields) (s : State) : exec (.ifence f) s = execIfence f s := rfl
@[simp] theorem exec_sys (f : Fields) (s : State) : exec (.sys f) s = execSys f s := rfl
@[simp] theorem exec_ebrk (f : Fields) (s : State) : exec (.ebrk f) s = execEbrk f s := rfl
@[simp] theorem exec_eret (f : Fields) (s : State) : exec (.eret f) s = execEret f s := rfl
@[simp] theorem exec_tlbinvAll (f : Fields) (s : State) : exec (.tlbinvAll f) s = execTlbinvAll f s := rfl
@[simp] theorem exec_tlbinvAsid (f : Fields) (s : State) : exec (.tlbinvAsid f) s = execTlbinvAsid f s := rfl
@[simp] theorem exec_tlbinvVa (f : Fields) (s : State) : exec (.tlbinvVa f) s = execTlbinvVa f s := rfl
@[simp] theorem exec_tlbinvGlob (f : Fields) (s : State) : exec (.tlbinvGlob f) s = execTlbinvGlob f s := rfl
@[simp] theorem exec_hctlWfi (f : Fields) (s : State) : exec (.hctlWfi f) s = execHctlWfi f s := rfl
@[simp] theorem exec_hctlPre (f : Fields) (s : State) : exec (.hctlPre f) s = execHctlPre f s := rfl
@[simp] theorem exec_setvl (f : Fields) (s : State) : exec (.setvl f) s = execSetvl f s := rfl
@[simp] theorem exec_setvlI (f : Fields) (s : State) : exec (.setvlI f) s = execSetvlI f s := rfl
@[simp] theorem exec_setvr (f : Fields) (s : State) : exec (.setvr f) s = execSetvr f s := rfl
@[simp] theorem exec_setvrI (f : Fields) (s : State) : exec (.setvrI f) s = execSetvrI f s := rfl
@[simp] theorem exec_setvt (f : Fields) (s : State) : exec (.setvt f) s = execSetvt f s := rfl
@[simp] theorem exec_setvtI (f : Fields) (s : State) : exec (.setvtI f) s = execSetvtI f s := rfl
@[simp] theorem exec_setrl (f : Fields) (s : State) : exec (.setrl f) s = execSetrl f s := rfl
@[simp] theorem exec_setrlRow (f : Fields) (s : State) : exec (.setrlRow f) s = execSetrlRow f s := rfl
@[simp] theorem exec_vadd (f : Fields) (s : State) : exec (.vadd f) s = execVadd f s := rfl
@[simp] theorem exec_vaddI (f : Fields) (s : State) : exec (.vaddI f) s = execVaddI f s := rfl
@[simp] theorem exec_vsub (f : Fields) (s : State) : exec (.vsub f) s = execVsub f s := rfl
@[simp] theorem exec_vsubI (f : Fields) (s : State) : exec (.vsubI f) s = execVsubI f s := rfl
@[simp] theorem exec_vmul (f : Fields) (s : State) : exec (.vmul f) s = execVmul f s := rfl
@[simp] theorem exec_vmulI (f : Fields) (s : State) : exec (.vmulI f) s = execVmulI f s := rfl
@[simp] theorem exec_vmulh (f : Fields) (s : State) : exec (.vmulh f) s = execVmulh f s := rfl
@[simp] theorem exec_vmulhI (f : Fields) (s : State) : exec (.vmulhI f) s = execVmulhI f s := rfl
@[simp] theorem exec_vmacc (f : Fields) (s : State) : exec (.vmacc f) s = execVmacc f s := rfl
@[simp] theorem exec_vmaccI (f : Fields) (s : State) : exec (.vmaccI f) s = execVmaccI f s := rfl
@[simp] theorem exec_vmaccN (f : Fields) (s : State) : exec (.vmaccN f) s = execVmaccN f s := rfl
@[simp] theorem exec_vmaccNI (f : Fields) (s : State) : exec (.vmaccNI f) s = execVmaccNI f s := rfl
@[simp] theorem exec_vand (f : Fields) (s : State) : exec (.vand f) s = execVand f s := rfl
@[simp] theorem exec_vandI (f : Fields) (s : State) : exec (.vandI f) s = execVandI f s := rfl
@[simp] theorem exec_vor (f : Fields) (s : State) : exec (.vor f) s = execVor f s := rfl
@[simp] theorem exec_vorI (f : Fields) (s : State) : exec (.vorI f) s = execVorI f s := rfl
@[simp] theorem exec_vxor (f : Fields) (s : State) : exec (.vxor f) s = execVxor f s := rfl
@[simp] theorem exec_vxorI (f : Fields) (s : State) : exec (.vxorI f) s = execVxorI f s := rfl
@[simp] theorem exec_vsll (f : Fields) (s : State) : exec (.vsll f) s = execVsll f s := rfl
@[simp] theorem exec_vsllI (f : Fields) (s : State) : exec (.vsllI f) s = execVsllI f s := rfl
@[simp] theorem exec_vsrl (f : Fields) (s : State) : exec (.vsrl f) s = execVsrl f s := rfl
@[simp] theorem exec_vsrlI (f : Fields) (s : State) : exec (.vsrlI f) s = execVsrlI f s := rfl
@[simp] theorem exec_vsra (f : Fields) (s : State) : exec (.vsra f) s = execVsra f s := rfl
@[simp] theorem exec_vsraI (f : Fields) (s : State) : exec (.vsraI f) s = execVsraI f s := rfl
@[simp] theorem exec_vmin (f : Fields) (s : State) : exec (.vmin f) s = execVmin f s := rfl
@[simp] theorem exec_vminI (f : Fields) (s : State) : exec (.vminI f) s = execVminI f s := rfl
@[simp] theorem exec_vmax (f : Fields) (s : State) : exec (.vmax f) s = execVmax f s := rfl
@[simp] theorem exec_vmaxI (f : Fields) (s : State) : exec (.vmaxI f) s = execVmaxI f s := rfl
@[simp] theorem exec_vsadd (f : Fields) (s : State) : exec (.vsadd f) s = execVsadd f s := rfl
@[simp] theorem exec_vsaddI (f : Fields) (s : State) : exec (.vsaddI f) s = execVsaddI f s := rfl
@[simp] theorem exec_vfadd (f : Fields) (s : State) : exec (.vfadd f) s = execVfadd f s := rfl
@[simp] theorem exec_vfsub (f : Fields) (s : State) : exec (.vfsub f) s = execVfsub f s := rfl
@[simp] theorem exec_vfmul (f : Fields) (s : State) : exec (.vfmul f) s = execVfmul f s := rfl
@[simp] theorem exec_vffma (f : Fields) (s : State) : exec (.vffma f) s = execVffma f s := rfl
@[simp] theorem exec_vffmaMs (f : Fields) (s : State) : exec (.vffmaMs f) s = execVffmaMs f s := rfl
@[simp] theorem exec_vffmaNm (f : Fields) (s : State) : exec (.vffmaNm f) s = execVffmaNm f s := rfl
@[simp] theorem exec_vffmaNms (f : Fields) (s : State) : exec (.vffmaNms f) s = execVffmaNms f s := rfl
@[simp] theorem exec_vfdiv (f : Fields) (s : State) : exec (.vfdiv f) s = execVfdiv f s := rfl
@[simp] theorem exec_vfsqrt (f : Fields) (s : State) : exec (.vfsqrt f) s = execVfsqrt f s := rfl
@[simp] theorem exec_vfrcpe (f : Fields) (s : State) : exec (.vfrcpe f) s = execVfrcpe f s := rfl
@[simp] theorem exec_vfrsqe (f : Fields) (s : State) : exec (.vfrsqe f) s = execVfrsqe f s := rfl
@[simp] theorem exec_vfmin (f : Fields) (s : State) : exec (.vfmin f) s = execVfmin f s := rfl
@[simp] theorem exec_vfmax (f : Fields) (s : State) : exec (.vfmax f) s = execVfmax f s := rfl
@[simp] theorem exec_vfsgn (f : Fields) (s : State) : exec (.vfsgn f) s = execVfsgn f s := rfl
@[simp] theorem exec_vfsgnN (f : Fields) (s : State) : exec (.vfsgnN f) s = execVfsgnN f s := rfl
@[simp] theorem exec_vfsgnX (f : Fields) (s : State) : exec (.vfsgnX f) s = execVfsgnX f s := rfl
@[simp] theorem exec_vfcmpEq (f : Fields) (s : State) : exec (.vfcmpEq f) s = execVfcmpEq f s := rfl
@[simp] theorem exec_vfcmpLt (f : Fields) (s : State) : exec (.vfcmpLt f) s = execVfcmpLt f s := rfl
@[simp] theorem exec_vfcmpLe (f : Fields) (s : State) : exec (.vfcmpLe f) s = execVfcmpLe f s := rfl
@[simp] theorem exec_vfcmpUn (f : Fields) (s : State) : exec (.vfcmpUn f) s = execVfcmpUn f s := rfl
@[simp] theorem exec_vfclass (f : Fields) (s : State) : exec (.vfclass f) s = execVfclass f s := rfl
@[simp] theorem exec_vfcvt (f : Fields) (s : State) : exec (.vfcvt f) s = execVfcvt f s := rfl
@[simp] theorem exec_vmxq (f : Fields) (s : State) : exec (.vmxq f) s = execVmxq f s := rfl
@[simp] theorem exec_vmv (f : Fields) (s : State) : exec (.vmv f) s = execVmv f s := rfl
@[simp] theorem exec_vmvX (f : Fields) (s : State) : exec (.vmvX f) s = execVmvX f s := rfl
@[simp] theorem exec_vmvXv (f : Fields) (s : State) : exec (.vmvXv f) s = execVmvXv f s := rfl
@[simp] theorem exec_vmvI (f : Fields) (s : State) : exec (.vmvI f) s = execVmvI f s := rfl
@[simp] theorem exec_vrnd (f : Fields) (s : State) : exec (.vrnd f) s = execVrnd f s := rfl
@[simp] theorem exec_vrndAdv (f : Fields) (s : State) : exec (.vrndAdv f) s = execVrndAdv f s := rfl
@[simp] theorem exec_ctabw (f : Fields) (s : State) : exec (.ctabw f) s = execCtabw f s := rfl
@[simp] theorem exec_ctabwX (f : Fields) (s : State) : exec (.ctabwX f) s = execCtabwX f s := rfl
@[simp] theorem exec_kand (f : Fields) (s : State) : exec (.kand f) s = execKand f s := rfl
@[simp] theorem exec_kor (f : Fields) (s : State) : exec (.kor f) s = execKor f s := rfl
@[simp] theorem exec_kxor (f : Fields) (s : State) : exec (.kxor f) s = execKxor f s := rfl
@[simp] theorem exec_kandn (f : Fields) (s : State) : exec (.kandn f) s = execKandn f s := rfl
@[simp] theorem exec_kset (f : Fields) (s : State) : exec (.kset f) s = execKset f s := rfl
@[simp] theorem exec_ksetTile (f : Fields) (s : State) : exec (.ksetTile f) s = execKsetTile f s := rfl
@[simp] theorem exec_ksetLt (f : Fields) (s : State) : exec (.ksetLt f) s = execKsetLt f s := rfl
@[simp] theorem exec_kcnt (f : Fields) (s : State) : exec (.kcnt f) s = execKcnt f s := rfl
@[simp] theorem exec_kany (f : Fields) (s : State) : exec (.kany f) s = execKany f s := rfl
@[simp] theorem exec_kanyAll (f : Fields) (s : State) : exec (.kanyAll f) s = execKanyAll f s := rfl
@[simp] theorem exec_kfirst (f : Fields) (s : State) : exec (.kfirst f) s = execKfirst f s := rfl
@[simp] theorem exec_kmv (f : Fields) (s : State) : exec (.kmv f) s = execKmv f s := rfl
@[simp] theorem exec_kmvV (f : Fields) (s : State) : exec (.kmvV f) s = execKmvV f s := rfl
@[simp] theorem exec_kmvKv (f : Fields) (s : State) : exec (.kmvKv f) s = execKmvKv f s := rfl
@[simp] theorem exec_kmvX (f : Fields) (s : State) : exec (.kmvX f) s = execKmvX f s := rfl
@[simp] theorem exec_kmvKx (f : Fields) (s : State) : exec (.kmvKx f) s = execKmvKx f s := rfl
@[simp] theorem exec_vredSum (f : Fields) (s : State) : exec (.vredSum f) s = execVredSum f s := rfl
@[simp] theorem exec_vredMax (f : Fields) (s : State) : exec (.vredMax f) s = execVredMax f s := rfl
@[simp] theorem exec_vredMin (f : Fields) (s : State) : exec (.vredMin f) s = execVredMin f s := rfl
@[simp] theorem exec_vredAnd (f : Fields) (s : State) : exec (.vredAnd f) s = execVredAnd f s := rfl
@[simp] theorem exec_vredOr (f : Fields) (s : State) : exec (.vredOr f) s = execVredOr f s := rfl
@[simp] theorem exec_vredXor (f : Fields) (s : State) : exec (.vredXor f) s = execVredXor f s := rfl
@[simp] theorem exec_vfredoSum (f : Fields) (s : State) : exec (.vfredoSum f) s = execVfredoSum f s := rfl
@[simp] theorem exec_vredrowSum (f : Fields) (s : State) : exec (.vredrowSum f) s = execVredrowSum f s := rfl
@[simp] theorem exec_vredrowMax (f : Fields) (s : State) : exec (.vredrowMax f) s = execVredrowMax f s := rfl
@[simp] theorem exec_vredrowMin (f : Fields) (s : State) : exec (.vredrowMin f) s = execVredrowMin f s := rfl
@[simp] theorem exec_vredrowAnd (f : Fields) (s : State) : exec (.vredrowAnd f) s = execVredrowAnd f s := rfl
@[simp] theorem exec_vredrowOr (f : Fields) (s : State) : exec (.vredrowOr f) s = execVredrowOr f s := rfl
@[simp] theorem exec_vredrowXor (f : Fields) (s : State) : exec (.vredrowXor f) s = execVredrowXor f s := rfl
@[simp] theorem exec_vperm (f : Fields) (s : State) : exec (.vperm f) s = execVperm f s := rfl
@[simp] theorem exec_vpermRow (f : Fields) (s : State) : exec (.vpermRow f) s = execVpermRow f s := rfl
@[simp] theorem exec_vslideUp (f : Fields) (s : State) : exec (.vslideUp f) s = execVslideUp f s := rfl
@[simp] theorem exec_vslideDn (f : Fields) (s : State) : exec (.vslideDn f) s = execVslideDn f s := rfl
@[simp] theorem exec_vslideUpI (f : Fields) (s : State) : exec (.vslideUpI f) s = execVslideUpI f s := rfl
@[simp] theorem exec_vslideDnI (f : Fields) (s : State) : exec (.vslideDnI f) s = execVslideDnI f s := rfl
@[simp] theorem exec_vcomp (f : Fields) (s : State) : exec (.vcomp f) s = execVcomp f s := rfl
@[simp] theorem exec_vexp (f : Fields) (s : State) : exec (.vexp f) s = execVexp f s := rfl
@[simp] theorem exec_vpart (f : Fields) (s : State) : exec (.vpart f) s = execVpart f s := rfl
@[simp] theorem exec_vrowmv (f : Fields) (s : State) : exec (.vrowmv f) s = execVrowmv f s := rfl
@[simp] theorem exec_vtrn (f : Fields) (s : State) : exec (.vtrn f) s = execVtrn f s := rfl
@[simp] theorem exec_vmerge (f : Fields) (s : State) : exec (.vmerge f) s = execVmerge f s := rfl
@[simp] theorem exec_vzipLo (f : Fields) (s : State) : exec (.vzipLo f) s = execVzipLo f s := rfl
@[simp] theorem exec_vzipHi (f : Fields) (s : State) : exec (.vzipHi f) s = execVzipHi f s := rfl
@[simp] theorem exec_vzipEv (f : Fields) (s : State) : exec (.vzipEv f) s = execVzipEv f s := rfl
@[simp] theorem exec_vzipOd (f : Fields) (s : State) : exec (.vzipOd f) s = execVzipOd f s := rfl
@[simp] theorem exec_viota (f : Fields) (s : State) : exec (.viota f) s = execViota f s := rfl
@[simp] theorem exec_viotaI (f : Fields) (s : State) : exec (.viotaI f) s = execViotaI f s := rfl
@[simp] theorem exec_vbmv (f : Fields) (s : State) : exec (.vbmv f) s = execVbmv f s := rfl
@[simp] theorem exec_vbmvAcc (f : Fields) (s : State) : exec (.vbmvAcc f) s = execVbmvAcc f s := rfl
@[simp] theorem exec_vbmvNacc (f : Fields) (s : State) : exec (.vbmvNacc f) s = execVbmvNacc f s := rfl
@[simp] theorem exec_vbmm (f : Fields) (s : State) : exec (.vbmm f) s = execVbmm f s := rfl
@[simp] theorem exec_vbmmAcc (f : Fields) (s : State) : exec (.vbmmAcc f) s = execVbmmAcc f s := rfl
@[simp] theorem exec_vbmmNacc (f : Fields) (s : State) : exec (.vbmmNacc f) s = execVbmmNacc f s := rfl
@[simp] theorem exec_vblu (f : Fields) (s : State) : exec (.vblu f) s = execVblu f s := rfl
@[simp] theorem exec_vbtrs (f : Fields) (s : State) : exec (.vbtrs f) s = execVbtrs f s := rfl
@[simp] theorem exec_mcfgI (f : Fields) (s : State) : exec (.mcfgI f) s = execMcfgI f s := rfl
@[simp] theorem exec_mcfg (f : Fields) (s : State) : exec (.mcfg f) s = execMcfg f s := rfl
@[simp] theorem exec_mzero (f : Fields) (s : State) : exec (.mzero f) s = execMzero f s := rfl
@[simp] theorem exec_mmaf (f : Fields) (s : State) : exec (.mmaf f) s = execMmaf f s := rfl
@[simp] theorem exec_mmafZ (f : Fields) (s : State) : exec (.mmafZ f) s = execMmafZ f s := rfl
@[simp] theorem exec_mmax (f : Fields) (s : State) : exec (.mmax f) s = execMmax f s := rfl
@[simp] theorem exec_mmaxZ (f : Fields) (s : State) : exec (.mmaxZ f) s = execMmaxZ f s := rfl
@[simp] theorem exec_mmai (f : Fields) (s : State) : exec (.mmai f) s = execMmai f s := rfl
@[simp] theorem exec_mmaiZ (f : Fields) (s : State) : exec (.mmaiZ f) s = execMmaiZ f s := rfl
@[simp] theorem exec_mtern (f : Fields) (s : State) : exec (.mtern f) s = execMtern f s := rfl
@[simp] theorem exec_mternZ (f : Fields) (s : State) : exec (.mternZ f) s = execMternZ f s := rfl
@[simp] theorem exec_mrd (f : Fields) (s : State) : exec (.mrd f) s = execMrd f s := rfl
@[simp] theorem exec_mrdX (f : Fields) (s : State) : exec (.mrdX f) s = execMrdX f s := rfl
@[simp] theorem exec_mwr (f : Fields) (s : State) : exec (.mwr f) s = execMwr f s := rfl
@[simp] theorem exec_mwrX (f : Fields) (s : State) : exec (.mwrX f) s = execMwrX f s := rfl
@[simp] theorem exec_ld (f : Fields) (s : State) : exec (.ld f) s = execLd f s := rfl
@[simp] theorem exec_st (f : Fields) (s : State) : exec (.st f) s = execSt f s := rfl
@[simp] theorem exec_vld (f : Fields) (s : State) : exec (.vld f) s = execVld f s := rfl
@[simp] theorem exec_vldC (f : Fields) (s : State) : exec (.vldC f) s = execVldC f s := rfl
@[simp] theorem exec_vldR (f : Fields) (s : State) : exec (.vldR f) s = execVldR f s := rfl
@[simp] theorem exec_vlds (f : Fields) (s : State) : exec (.vlds f) s = execVlds f s := rfl
@[simp] theorem exec_vldx (f : Fields) (s : State) : exec (.vldx f) s = execVldx f s := rfl
@[simp] theorem exec_vst (f : Fields) (s : State) : exec (.vst f) s = execVst f s := rfl
@[simp] theorem exec_vstC (f : Fields) (s : State) : exec (.vstC f) s = execVstC f s := rfl
@[simp] theorem exec_vstR (f : Fields) (s : State) : exec (.vstR f) s = execVstR f s := rfl
@[simp] theorem exec_vsts (f : Fields) (s : State) : exec (.vsts f) s = execVsts f s := rfl
@[simp] theorem exec_vstx (f : Fields) (s : State) : exec (.vstx f) s = execVstx f s := rfl
@[simp] theorem exec_vldbm (f : Fields) (s : State) : exec (.vldbm f) s = execVldbm f s := rfl
@[simp] theorem exec_vstbm (f : Fields) (s : State) : exec (.vstbm f) s = execVstbm f s := rfl
@[simp] theorem exec_amo (f : Fields) (s : State) : exec (.amo f) s = execAmo f s := rfl
@[simp] theorem exec_vamo (f : Fields) (s : State) : exec (.vamo f) s = execVamo f s := rfl
@[simp] theorem exec_vamoo (f : Fields) (s : State) : exec (.vamoo f) s = execVamoo f s := rfl
@[simp] theorem exec_vredm (f : Fields) (s : State) : exec (.vredm f) s = execVredm f s := rfl
@[simp] theorem exec_pf (f : Fields) (s : State) : exec (.pf f) s = execPf f s := rfl
@[simp] theorem exec_pfTx (f : Fields) (s : State) : exec (.pfTx f) s = execPfTx f s := rfl
@[simp] theorem exec_hbgat (f : Fields) (s : State) : exec (.hbgat f) s = execHbgat f s := rfl
@[simp] theorem exec_hbred (f : Fields) (s : State) : exec (.hbred f) s = execHbred f s := rfl
@[simp] theorem exec_hbcvt (f : Fields) (s : State) : exec (.hbcvt f) s = execHbcvt f s := rfl
@[simp] theorem exec_barvTx (f : Fields) (s : State) : exec (.barvTx f) s = execBarvTx f s := rfl
@[simp] theorem exec_barvTxX (f : Fields) (s : State) : exec (.barvTxX f) s = execBarvTxX f s := rfl
@[simp] theorem exec_barvG (f : Fields) (s : State) : exec (.barvG f) s = execBarvG f s := rfl
@[simp] theorem exec_barvGX (f : Fields) (s : State) : exec (.barvGX f) s = execBarvGX f s := rfl
@[simp] theorem exec_barw (f : Fields) (s : State) : exec (.barw f) s = execBarw f s := rfl
@[simp] theorem exec_txpost (f : Fields) (s : State) : exec (.txpost f) s = execTxpost f s := rfl
@[simp] theorem exec_txarr (f : Fields) (s : State) : exec (.txarr f) s = execTxarr f s := rfl
@[simp] theorem exec_txarrInit (f : Fields) (s : State) : exec (.txarrInit f) s = execTxarrInit f s := rfl
@[simp] theorem exec_txwait (f : Fields) (s : State) : exec (.txwait f) s = execTxwait f s := rfl
@[simp] theorem exec_cwait (f : Fields) (s : State) : exec (.cwait f) s = execCwait f s := rfl
@[simp] theorem exec_marm (f : Fields) (s : State) : exec (.marm f) s = execMarm f s := rfl
@[simp] theorem exec_mwait (f : Fields) (s : State) : exec (.mwait f) s = execMwait f s := rfl
@[simp] theorem exec_gsync (f : Fields) (s : State) : exec (.gsync f) s = execGsync f s := rfl
@[simp] theorem exec_phaseC (f : Fields) (s : State) : exec (.phaseC f) s = execPhaseC f s := rfl
@[simp] theorem exec_phaseX (f : Fields) (s : State) : exec (.phaseX f) s = execPhaseX f s := rfl
@[simp] theorem exec_phaseGet (f : Fields) (s : State) : exec (.phaseGet f) s = execPhaseGet f s := rfl
@[simp] theorem exec_bdecl (f : Fields) (s : State) : exec (.bdecl f) s = execBdecl f s := rfl
@[simp] theorem exec_bdeclFree (f : Fields) (s : State) : exec (.bdeclFree f) s = execBdeclFree f s := rfl
@[simp] theorem exec_bset (f : Fields) (s : State) : exec (.bset f) s = execBset f s := rfl
@[simp] theorem exec_bsetGet (f : Fields) (s : State) : exec (.bsetGet f) s = execBsetGet f s := rfl
@[simp] theorem exec_cph (f : Fields) (s : State) : exec (.cph f) s = execCph f s := rfl
@[simp] theorem exec_cphGet (f : Fields) (s : State) : exec (.cphGet f) s = execCphGet f s := rfl
@[simp] theorem exec_cpt (f : Fields) (s : State) : exec (.cpt f) s = execCpt f s := rfl
@[simp] theorem exec_cparm (f : Fields) (s : State) : exec (.cparm f) s = execCparm f s := rfl
@[simp] theorem exec_tdep (f : Fields) (s : State) : exec (.tdep f) s = execTdep f s := rfl
@[simp] theorem exec_tcpy (f : Fields) (s : State) : exec (.tcpy f) s = execTcpy f s := rfl
@[simp] theorem exec_tcpyNb (f : Fields) (s : State) : exec (.tcpyNb f) s = execTcpyNb f s := rfl
@[simp] theorem exec_ttake (f : Fields) (s : State) : exec (.ttake f) s = execTtake f s := rfl
@[simp] theorem exec_ttakeNb (f : Fields) (s : State) : exec (.ttakeNb f) s = execTtakeNb f s := rfl
@[simp] theorem exec_tcan (f : Fields) (s : State) : exec (.tcan f) s = execTcan f s := rfl
@[simp] theorem exec_cballoc (f : Fields) (s : State) : exec (.cballoc f) s = execCballoc f s := rfl
@[simp] theorem exec_cbput (f : Fields) (s : State) : exec (.cbput f) s = execCbput f s := rfl
@[simp] theorem exec_cbstat (f : Fields) (s : State) : exec (.cbstat f) s = execCbstat f s := rfl
@[simp] theorem exec_cbstatBuf (f : Fields) (s : State) : exec (.cbstatBuf f) s = execCbstatBuf f s := rfl
@[simp] theorem exec_mbind (f : Fields) (s : State) : exec (.mbind f) s = execMbind f s := rfl
@[simp] theorem exec_munbind (f : Fields) (s : State) : exec (.munbind f) s = execMunbind f s := rfl
@[simp] theorem exec_nbld (f : Fields) (s : State) : exec (.nbld f) s = execNbld f s := rfl
@[simp] theorem exec_nbldNd (f : Fields) (s : State) : exec (.nbldNd f) s = execNbldNd f s := rfl
@[simp] theorem exec_fcld (f : Fields) (s : State) : exec (.fcld f) s = execFcld f s := rfl
@[simp] theorem exec_fcldC (f : Fields) (s : State) : exec (.fcldC f) s = execFcldC f s := rfl
@[simp] theorem exec_mmarkR (f : Fields) (s : State) : exec (.mmarkR f) s = execMmarkR f s := rfl
@[simp] theorem exec_mmarkC (f : Fields) (s : State) : exec (.mmarkC f) s = execMmarkC f s := rfl
@[simp] theorem exec_mrebuild (f : Fields) (s : State) : exec (.mrebuild f) s = execMrebuild f s := rfl
@[simp] theorem exec_mrebuildInit (f : Fields) (s : State) : exec (.mrebuildInit f) s = execMrebuildInit f s := rfl
@[simp] theorem exec_mfield (f : Fields) (s : State) : exec (.mfield f) s = execMfield f s := rfl
@[simp] theorem exec_mfieldRm (f : Fields) (s : State) : exec (.mfieldRm f) s = execMfieldRm f s := rfl
@[simp] theorem exec_mghost (f : Fields) (s : State) : exec (.mghost f) s = execMghost f s := rfl
@[simp] theorem exec_mbal (f : Fields) (s : State) : exec (.mbal f) s = execMbal f s := rfl
@[simp] theorem exec_vsfc2d (f : Fields) (s : State) : exec (.vsfc2d f) s = execVsfc2d f s := rfl
@[simp] theorem exec_vsfc3d (f : Fields) (s : State) : exec (.vsfc3d f) s = execVsfc3d f s := rfl
@[simp] theorem exec_mq (f : Fields) (s : State) : exec (.mq f) s = execMq f s := rfl
@[simp] theorem exec_mqField (f : Fields) (s : State) : exec (.mqField f) s = execMqField f s := rfl
@[simp] theorem exec_tkenq (f : Fields) (s : State) : exec (.tkenq f) s = execTkenq f s := rfl
@[simp] theorem exec_tkdone (f : Fields) (s : State) : exec (.tkdone f) s = execTkdone f s := rfl
@[simp] theorem exec_tknext (f : Fields) (s : State) : exec (.tknext f) s = execTknext f s := rfl
@[simp] theorem exec_vdhop (f : Fields) (s : State) : exec (.vdhop f) s = execVdhop f s := rfl
@[simp] theorem exec_coll (f : Fields) (s : State) : exec (.coll f) s = execColl f s := rfl

end Sys2Proof.Machine
end

