-- ==== Sys2Proof/Laws/Encoding.lean ====
section
/-! SUPPORT. The opcode table's rows: what a row builds names its own major opcode and the fields it was built from. -/
namespace Sys2Proof

theorem eq_code {opc : BitVec 8} {n : Nat} (h : opc.toNat = n) : opc = BitVec.ofNat 8 n := by
  subst h; simp
/-- Every row of an opcode builds instructions of that opcode, with the fields given (R56, R71). -/
theorem rowsOf_parts (opc : BitVec 8) : ∀ r ∈ rowsOf opc, ∀ f, (r.build f).parts = some (opc, f) := by
  unfold rowsOf
  split
  all_goals first
    | (rename_i h
       rw [eq_code h]
       simp only [rows01, rows02, rows03, rows04, rows05, rows06, rows07, rows08, rows09, rows0A, rows0B, rows0C, rows10,
    rows11, rows12, rows13, rows14, rows15, rows18, rows19, rows1A, rows1C, rows1D, rows1E, rows1F, rows20,
    rows21, rows22, rows28, rows29, rows2A, rows2B, rows2C, rows2D, rows30, rows31, rows32, rows33, rows34,
    rows35, rows36, rows37, rows38, rows39, rows3A, rows40, rows41, rows42, rows43, rows44, rows45, rows46,
    rows47, rows48, rows49, rows4A, rows50, rows51, rows52, rows53, rows54, rows55, rows58, rows59, rows5A,
    rows60, rows61, rows62, rows63, rows64, rows65, rows66, rows67, rows68, rows69, rows6A, rows6B, rows6C,
    rows6D, rows6E, rows6F, rows70, rows71, rows72, rows73, rows78, rows79, rows7A, rows7B, rows7C, rows7D,
    rows7E, rows7F, rows80, rows81, rows82, rows83, rows84, rows85, rows86, rows87, rows88, rows89, rows90,
    rows91, rows92, rows93, rows94, rows95, rows96, rows97, rows98, rows99, rows9A, rows9B, rows9C, rows9D,
    rows9E, rowsA0, rowsA1, rowsA2, rowsA3, rowsA4, rowsA5, rowsA6, rowsA8, rowsA9, rowsAA, rowsAB, rowsAC,
    rowsAD, rowsAE, rowsAF, rowsB0, rowsB1, rowsB2, rowsB3, rowsB4, List.mem_cons, List.not_mem_nil, or_false, forall_eq_or_imp, forall_eq]
       first
         | exact fun _ => rfl
         | (repeat' apply And.intro) <;> exact fun _ => rfl)
    | simp
/-- The row that the decoder finds builds instructions of its opcode. -/
theorem findRow_parts {opc fn : BitVec 8} {r : Row} (h : findRow opc fn = some r) (f : Fields) : (r.build f).parts = some (opc, f) :=
  rowsOf_parts opc r (List.mem_of_find?_eq_some h) f

end Sys2Proof
end

