-- ==== Sys2Proof/Laws/State.lean ====
section
/-! SUPPORT. What each update leaves alone, field by field: true by unfolding the update, so that no proof unfolds a record. -/
namespace Sys2Proof.Machine

/-! Changing harts. -/

@[simp] theorem State.modHartAt_pkg (s : State) (n : Nat) (g : Hart → Hart) : (s.modHartAt n g).pkg = s.pkg := rfl
@[simp] theorem State.modHartAt_packages (s : State) (n : Nat) (g : Hart → Hart) : (s.modHartAt n g).packages = s.packages := rfl
@[simp] theorem State.modHartAt_harvested (s : State) (n : Nat) (g : Hart → Hart) : (s.modHartAt n g).harvested = s.harvested := rfl
@[simp] theorem State.modHartAt_time (s : State) (n : Nat) (g : Hart → Hart) : (s.modHartAt n g).time = s.time := rfl
@[simp] theorem State.modHartAt_mem (s : State) (n : Nat) (g : Hart → Hart) : (s.modHartAt n g).mem = s.mem := rfl
@[simp] theorem State.modHartAt_poison (s : State) (n : Nat) (g : Hart → Hart) : (s.modHartAt n g).poison = s.poison := rfl
@[simp] theorem State.modHartAt_veils (s : State) (n : Nat) (g : Hart → Hart) : (s.modHartAt n g).veils = s.veils := rfl
@[simp] theorem State.modHartAt_clock (s : State) (n : Nat) (g : Hart → Hart) : (s.modHartAt n g).clock = s.clock := rfl
@[simp] theorem State.modHartAt_turns (s : State) (n : Nat) (g : Hart → Hart) : (s.modHartAt n g).turns = s.turns := rfl
@[simp] theorem State.modHartAt_owed (s : State) (n : Nat) (g : Hart → Hart) : (s.modHartAt n g).owed = s.owed := rfl
@[simp] theorem State.modHartAt_blocks (s : State) (n : Nat) (g : Hart → Hart) : (s.modHartAt n g).blocks = s.blocks := rfl
@[simp] theorem State.modHartAt_passes (s : State) (n : Nat) (g : Hart → Hart) : (s.modHartAt n g).passes = s.passes := rfl
@[simp] theorem State.modHartAt_alerts (s : State) (n : Nat) (g : Hart → Hart) : (s.modHartAt n g).alerts = s.alerts := rfl
@[simp] theorem State.modHartAt_dies (s : State) (n : Nat) (g : Hart → Hart) : (s.modHartAt n g).dies = s.dies := rfl
@[simp] theorem State.modHartAt_cur (s : State) (n : Nat) (g : Hart → Hart) : (s.modHartAt n g).cur = s.cur := rfl
@[simp] theorem State.modHartAt_agenda (s : State) (n : Nat) (g : Hart → Hart) : (s.modHartAt n g).agenda = s.agenda := rfl
@[simp] theorem State.modHartAt_ctxs (s : State) (n : Nat) (g : Hart → Hart) : (s.modHartAt n g).ctxs = s.ctxs := rfl
@[simp] theorem State.modHartAt_gangs (s : State) (n : Nat) (g : Hart → Hart) : (s.modHartAt n g).gangs = s.gangs := rfl
@[simp] theorem State.modHartAt_tasks (s : State) (n : Nat) (g : Hart → Hart) : (s.modHartAt n g).tasks = s.tasks := rfl
@[simp] theorem State.modHartAt_taskOrder (s : State) (n : Nat) (g : Hart → Hart) : (s.modHartAt n g).taskOrder = s.taskOrder := rfl
@[simp] theorem State.modHartAt_held (s : State) (n : Nat) (g : Hart → Hart) : (s.modHartAt n g).held = s.held := rfl
@[simp] theorem State.modHartAt_bufs (s : State) (n : Nat) (g : Hart → Hart) : (s.modHartAt n g).bufs = s.bufs := rfl
@[simp] theorem State.modHartAt_score (s : State) (n : Nat) (g : Hart → Hart) : (s.modHartAt n g).score = s.score := rfl
@[simp] theorem State.modHartAt_chans (s : State) (n : Nat) (g : Hart → Hart) : (s.modHartAt n g).chans = s.chans := rfl
@[simp] theorem State.modHartAt_armOrder (s : State) (n : Nat) (g : Hart → Hart) : (s.modHartAt n g).armOrder = s.armOrder := rfl
@[simp] theorem State.modHartAt_races (s : State) (n : Nat) (g : Hart → Hart) : (s.modHartAt n g).races = s.races := rfl
@[simp] theorem State.modHartAt_marks (s : State) (n : Nat) (g : Hart → Hart) : (s.modHartAt n g).marks = s.marks := rfl
@[simp] theorem State.modHartAt_tlb (s : State) (n : Nat) (g : Hart → Hart) : (s.modHartAt n g).tlb = s.tlb := rfl
@[simp] theorem State.modHartAt_issued (s : State) (n : Nat) (g : Hart → Hart) : (s.modHartAt n g).issued = s.issued := rfl
@[simp] theorem State.modHartAt_prefetches (s : State) (n : Nat) (g : Hart → Hart) : (s.modHartAt n g).prefetches = s.prefetches := rfl
@[simp] theorem State.modHartAt_baseOps (s : State) (n : Nat) (g : Hart → Hart) : (s.modHartAt n g).baseOps = s.baseOps := rfl
@[simp] theorem State.modHartAt_nextOp (s : State) (n : Nat) (g : Hart → Hart) : (s.modHartAt n g).nextOp = s.nextOp := rfl
@[simp] theorem State.modHartAt_reqs (s : State) (n : Nat) (g : Hart → Hart) : (s.modHartAt n g).reqs = s.reqs := rfl
@[simp] theorem State.modHartAt_tuples (s : State) (n : Nat) (g : Hart → Hart) : (s.modHartAt n g).tuples = s.tuples := rfl
@[simp] theorem State.modHartAt_parkNo (s : State) (n : Nat) (g : Hart → Hart) : (s.modHartAt n g).parkNo = s.parkNo := rfl
@[simp] theorem State.modHartAt_depNo (s : State) (n : Nat) (g : Hart → Hart) : (s.modHartAt n g).depNo = s.depNo := rfl
@[simp] theorem State.modHartAt_tdet (s : State) (n : Nat) (g : Hart → Hart) : (s.modHartAt n g).tdet = s.tdet := rfl
@[simp] theorem State.modHartAt_cbufs (s : State) (n : Nat) (g : Hart → Hart) : (s.modHartAt n g).cbufs = s.cbufs := rfl
@[simp] theorem State.modHartAt_meshes (s : State) (n : Nat) (g : Hart → Hart) : (s.modHartAt n g).meshes = s.meshes := rfl
@[simp] theorem State.modHartAt_meshJobs (s : State) (n : Nat) (g : Hart → Hart) : (s.modHartAt n g).meshJobs = s.meshJobs := rfl
@[simp] theorem State.modHartAt_remaps (s : State) (n : Nat) (g : Hart → Hart) : (s.modHartAt n g).remaps = s.remaps := rfl
@[simp] theorem State.modHartAt_refreshes (s : State) (n : Nat) (g : Hart → Hart) : (s.modHartAt n g).refreshes = s.refreshes := rfl
@[simp] theorem State.modHartAt_colls (s : State) (n : Nat) (g : Hart → Hart) : (s.modHartAt n g).colls = s.colls := rfl
@[simp] theorem State.modHartAt_collCounts (s : State) (n : Nat) (g : Hart → Hart) : (s.modHartAt n g).collCounts = s.collCounts := rfl
@[simp] theorem State.modHartAt_lostRoutes (s : State) (n : Nat) (g : Hart → Hart) : (s.modHartAt n g).lostRoutes = s.lostRoutes := rfl
@[simp] theorem State.modHartAt_routing (s : State) (n : Nat) (g : Hart → Hart) : (s.modHartAt n g).routing = s.routing := rfl
@[simp] theorem State.modHartAt_underTest (s : State) (n : Nat) (g : Hart → Hart) : (s.modHartAt n g).underTest = s.underTest := rfl
@[simp] theorem State.modHartAt_fenced (s : State) (n : Nat) (g : Hart → Hart) : (s.modHartAt n g).fenced = s.fenced := rfl
@[simp] theorem State.modHartAt_transients (s : State) (n : Nat) (g : Hart → Hart) : (s.modHartAt n g).transients = s.transients := rfl
@[simp] theorem State.modHartAt_checkpoints (s : State) (n : Nat) (g : Hart → Hart) : (s.modHartAt n g).checkpoints = s.checkpoints := rfl
@[simp] theorem State.modHartAt_host (s : State) (n : Nat) (g : Hart → Hart) : (s.modHartAt n g).host = s.host := rfl
@[simp] theorem State.modHartAt_ticket (s : State) (n : Nat) (g : Hart → Hart) : (s.modHartAt n g).ticket = s.ticket := rfl
@[simp] theorem State.modHartAt_log (s : State) (n : Nat) (g : Hart → Hart) : (s.modHartAt n g).log = s.log := rfl
@[simp] theorem State.modHartAt_logNext (s : State) (n : Nat) (g : Hart → Hart) : (s.modHartAt n g).logNext = s.logNext := rfl
@[simp] theorem State.modHartAt_free (s : State) (n : Nat) (g : Hart → Hart) : (s.modHartAt n g).free = s.free := rfl
@[simp] theorem State.modHart_pkg (s : State) (g : Hart → Hart) : (s.modHart g).pkg = s.pkg := rfl
@[simp] theorem State.modHart_packages (s : State) (g : Hart → Hart) : (s.modHart g).packages = s.packages := rfl
@[simp] theorem State.modHart_harvested (s : State) (g : Hart → Hart) : (s.modHart g).harvested = s.harvested := rfl
@[simp] theorem State.modHart_time (s : State) (g : Hart → Hart) : (s.modHart g).time = s.time := rfl
@[simp] theorem State.modHart_mem (s : State) (g : Hart → Hart) : (s.modHart g).mem = s.mem := rfl
@[simp] theorem State.modHart_poison (s : State) (g : Hart → Hart) : (s.modHart g).poison = s.poison := rfl
@[simp] theorem State.modHart_veils (s : State) (g : Hart → Hart) : (s.modHart g).veils = s.veils := rfl
@[simp] theorem State.modHart_clock (s : State) (g : Hart → Hart) : (s.modHart g).clock = s.clock := rfl
@[simp] theorem State.modHart_turns (s : State) (g : Hart → Hart) : (s.modHart g).turns = s.turns := rfl
@[simp] theorem State.modHart_owed (s : State) (g : Hart → Hart) : (s.modHart g).owed = s.owed := rfl
@[simp] theorem State.modHart_blocks (s : State) (g : Hart → Hart) : (s.modHart g).blocks = s.blocks := rfl
@[simp] theorem State.modHart_passes (s : State) (g : Hart → Hart) : (s.modHart g).passes = s.passes := rfl
@[simp] theorem State.modHart_alerts (s : State) (g : Hart → Hart) : (s.modHart g).alerts = s.alerts := rfl
@[simp] theorem State.modHart_dies (s : State) (g : Hart → Hart) : (s.modHart g).dies = s.dies := rfl
@[simp] theorem State.modHart_cur (s : State) (g : Hart → Hart) : (s.modHart g).cur = s.cur := rfl
@[simp] theorem State.modHart_agenda (s : State) (g : Hart → Hart) : (s.modHart g).agenda = s.agenda := rfl
@[simp] theorem State.modHart_ctxs (s : State) (g : Hart → Hart) : (s.modHart g).ctxs = s.ctxs := rfl
@[simp] theorem State.modHart_gangs (s : State) (g : Hart → Hart) : (s.modHart g).gangs = s.gangs := rfl
@[simp] theorem State.modHart_tasks (s : State) (g : Hart → Hart) : (s.modHart g).tasks = s.tasks := rfl
@[simp] theorem State.modHart_taskOrder (s : State) (g : Hart → Hart) : (s.modHart g).taskOrder = s.taskOrder := rfl
@[simp] theorem State.modHart_held (s : State) (g : Hart → Hart) : (s.modHart g).held = s.held := rfl
@[simp] theorem State.modHart_bufs (s : State) (g : Hart → Hart) : (s.modHart g).bufs = s.bufs := rfl
@[simp] theorem State.modHart_score (s : State) (g : Hart → Hart) : (s.modHart g).score = s.score := rfl
@[simp] theorem State.modHart_chans (s : State) (g : Hart → Hart) : (s.modHart g).chans = s.chans := rfl
@[simp] theorem State.modHart_armOrder (s : State) (g : Hart → Hart) : (s.modHart g).armOrder = s.armOrder := rfl
@[simp] theorem State.modHart_races (s : State) (g : Hart → Hart) : (s.modHart g).races = s.races := rfl
@[simp] theorem State.modHart_marks (s : State) (g : Hart → Hart) : (s.modHart g).marks = s.marks := rfl
@[simp] theorem State.modHart_tlb (s : State) (g : Hart → Hart) : (s.modHart g).tlb = s.tlb := rfl
@[simp] theorem State.modHart_issued (s : State) (g : Hart → Hart) : (s.modHart g).issued = s.issued := rfl
@[simp] theorem State.modHart_prefetches (s : State) (g : Hart → Hart) : (s.modHart g).prefetches = s.prefetches := rfl
@[simp] theorem State.modHart_baseOps (s : State) (g : Hart → Hart) : (s.modHart g).baseOps = s.baseOps := rfl
@[simp] theorem State.modHart_nextOp (s : State) (g : Hart → Hart) : (s.modHart g).nextOp = s.nextOp := rfl
@[simp] theorem State.modHart_reqs (s : State) (g : Hart → Hart) : (s.modHart g).reqs = s.reqs := rfl
@[simp] theorem State.modHart_tuples (s : State) (g : Hart → Hart) : (s.modHart g).tuples = s.tuples := rfl
@[simp] theorem State.modHart_parkNo (s : State) (g : Hart → Hart) : (s.modHart g).parkNo = s.parkNo := rfl
@[simp] theorem State.modHart_depNo (s : State) (g : Hart → Hart) : (s.modHart g).depNo = s.depNo := rfl
@[simp] theorem State.modHart_tdet (s : State) (g : Hart → Hart) : (s.modHart g).tdet = s.tdet := rfl
@[simp] theorem State.modHart_cbufs (s : State) (g : Hart → Hart) : (s.modHart g).cbufs = s.cbufs := rfl
@[simp] theorem State.modHart_meshes (s : State) (g : Hart → Hart) : (s.modHart g).meshes = s.meshes := rfl
@[simp] theorem State.modHart_meshJobs (s : State) (g : Hart → Hart) : (s.modHart g).meshJobs = s.meshJobs := rfl
@[simp] theorem State.modHart_remaps (s : State) (g : Hart → Hart) : (s.modHart g).remaps = s.remaps := rfl
@[simp] theorem State.modHart_refreshes (s : State) (g : Hart → Hart) : (s.modHart g).refreshes = s.refreshes := rfl
@[simp] theorem State.modHart_colls (s : State) (g : Hart → Hart) : (s.modHart g).colls = s.colls := rfl
@[simp] theorem State.modHart_collCounts (s : State) (g : Hart → Hart) : (s.modHart g).collCounts = s.collCounts := rfl
@[simp] theorem State.modHart_lostRoutes (s : State) (g : Hart → Hart) : (s.modHart g).lostRoutes = s.lostRoutes := rfl
@[simp] theorem State.modHart_routing (s : State) (g : Hart → Hart) : (s.modHart g).routing = s.routing := rfl
@[simp] theorem State.modHart_underTest (s : State) (g : Hart → Hart) : (s.modHart g).underTest = s.underTest := rfl
@[simp] theorem State.modHart_fenced (s : State) (g : Hart → Hart) : (s.modHart g).fenced = s.fenced := rfl
@[simp] theorem State.modHart_transients (s : State) (g : Hart → Hart) : (s.modHart g).transients = s.transients := rfl
@[simp] theorem State.modHart_checkpoints (s : State) (g : Hart → Hart) : (s.modHart g).checkpoints = s.checkpoints := rfl
@[simp] theorem State.modHart_host (s : State) (g : Hart → Hart) : (s.modHart g).host = s.host := rfl
@[simp] theorem State.modHart_ticket (s : State) (g : Hart → Hart) : (s.modHart g).ticket = s.ticket := rfl
@[simp] theorem State.modHart_log (s : State) (g : Hart → Hart) : (s.modHart g).log = s.log := rfl
@[simp] theorem State.modHart_logNext (s : State) (g : Hart → Hart) : (s.modHart g).logNext = s.logNext := rfl
@[simp] theorem State.modHart_free (s : State) (g : Hart → Hart) : (s.modHart g).free = s.free := rfl
@[simp] theorem State.modSr_pkg (s : State) (g : SysRegs → SysRegs) : (s.modSr g).pkg = s.pkg := rfl
@[simp] theorem State.modSr_packages (s : State) (g : SysRegs → SysRegs) : (s.modSr g).packages = s.packages := rfl
@[simp] theorem State.modSr_harvested (s : State) (g : SysRegs → SysRegs) : (s.modSr g).harvested = s.harvested := rfl
@[simp] theorem State.modSr_time (s : State) (g : SysRegs → SysRegs) : (s.modSr g).time = s.time := rfl
@[simp] theorem State.modSr_mem (s : State) (g : SysRegs → SysRegs) : (s.modSr g).mem = s.mem := rfl
@[simp] theorem State.modSr_poison (s : State) (g : SysRegs → SysRegs) : (s.modSr g).poison = s.poison := rfl
@[simp] theorem State.modSr_veils (s : State) (g : SysRegs → SysRegs) : (s.modSr g).veils = s.veils := rfl
@[simp] theorem State.modSr_clock (s : State) (g : SysRegs → SysRegs) : (s.modSr g).clock = s.clock := rfl
@[simp] theorem State.modSr_turns (s : State) (g : SysRegs → SysRegs) : (s.modSr g).turns = s.turns := rfl
@[simp] theorem State.modSr_owed (s : State) (g : SysRegs → SysRegs) : (s.modSr g).owed = s.owed := rfl
@[simp] theorem State.modSr_blocks (s : State) (g : SysRegs → SysRegs) : (s.modSr g).blocks = s.blocks := rfl
@[simp] theorem State.modSr_passes (s : State) (g : SysRegs → SysRegs) : (s.modSr g).passes = s.passes := rfl
@[simp] theorem State.modSr_alerts (s : State) (g : SysRegs → SysRegs) : (s.modSr g).alerts = s.alerts := rfl
@[simp] theorem State.modSr_dies (s : State) (g : SysRegs → SysRegs) : (s.modSr g).dies = s.dies := rfl
@[simp] theorem State.modSr_cur (s : State) (g : SysRegs → SysRegs) : (s.modSr g).cur = s.cur := rfl
@[simp] theorem State.modSr_agenda (s : State) (g : SysRegs → SysRegs) : (s.modSr g).agenda = s.agenda := rfl
@[simp] theorem State.modSr_ctxs (s : State) (g : SysRegs → SysRegs) : (s.modSr g).ctxs = s.ctxs := rfl
@[simp] theorem State.modSr_gangs (s : State) (g : SysRegs → SysRegs) : (s.modSr g).gangs = s.gangs := rfl
@[simp] theorem State.modSr_tasks (s : State) (g : SysRegs → SysRegs) : (s.modSr g).tasks = s.tasks := rfl
@[simp] theorem State.modSr_taskOrder (s : State) (g : SysRegs → SysRegs) : (s.modSr g).taskOrder = s.taskOrder := rfl
@[simp] theorem State.modSr_held (s : State) (g : SysRegs → SysRegs) : (s.modSr g).held = s.held := rfl
@[simp] theorem State.modSr_bufs (s : State) (g : SysRegs → SysRegs) : (s.modSr g).bufs = s.bufs := rfl
@[simp] theorem State.modSr_score (s : State) (g : SysRegs → SysRegs) : (s.modSr g).score = s.score := rfl
@[simp] theorem State.modSr_chans (s : State) (g : SysRegs → SysRegs) : (s.modSr g).chans = s.chans := rfl
@[simp] theorem State.modSr_armOrder (s : State) (g : SysRegs → SysRegs) : (s.modSr g).armOrder = s.armOrder := rfl
@[simp] theorem State.modSr_races (s : State) (g : SysRegs → SysRegs) : (s.modSr g).races = s.races := rfl
@[simp] theorem State.modSr_marks (s : State) (g : SysRegs → SysRegs) : (s.modSr g).marks = s.marks := rfl
@[simp] theorem State.modSr_tlb (s : State) (g : SysRegs → SysRegs) : (s.modSr g).tlb = s.tlb := rfl
@[simp] theorem State.modSr_issued (s : State) (g : SysRegs → SysRegs) : (s.modSr g).issued = s.issued := rfl
@[simp] theorem State.modSr_prefetches (s : State) (g : SysRegs → SysRegs) : (s.modSr g).prefetches = s.prefetches := rfl
@[simp] theorem State.modSr_baseOps (s : State) (g : SysRegs → SysRegs) : (s.modSr g).baseOps = s.baseOps := rfl
@[simp] theorem State.modSr_nextOp (s : State) (g : SysRegs → SysRegs) : (s.modSr g).nextOp = s.nextOp := rfl
@[simp] theorem State.modSr_reqs (s : State) (g : SysRegs → SysRegs) : (s.modSr g).reqs = s.reqs := rfl
@[simp] theorem State.modSr_tuples (s : State) (g : SysRegs → SysRegs) : (s.modSr g).tuples = s.tuples := rfl
@[simp] theorem State.modSr_parkNo (s : State) (g : SysRegs → SysRegs) : (s.modSr g).parkNo = s.parkNo := rfl
@[simp] theorem State.modSr_depNo (s : State) (g : SysRegs → SysRegs) : (s.modSr g).depNo = s.depNo := rfl
@[simp] theorem State.modSr_tdet (s : State) (g : SysRegs → SysRegs) : (s.modSr g).tdet = s.tdet := rfl
@[simp] theorem State.modSr_cbufs (s : State) (g : SysRegs → SysRegs) : (s.modSr g).cbufs = s.cbufs := rfl
@[simp] theorem State.modSr_meshes (s : State) (g : SysRegs → SysRegs) : (s.modSr g).meshes = s.meshes := rfl
@[simp] theorem State.modSr_meshJobs (s : State) (g : SysRegs → SysRegs) : (s.modSr g).meshJobs = s.meshJobs := rfl
@[simp] theorem State.modSr_remaps (s : State) (g : SysRegs → SysRegs) : (s.modSr g).remaps = s.remaps := rfl
@[simp] theorem State.modSr_refreshes (s : State) (g : SysRegs → SysRegs) : (s.modSr g).refreshes = s.refreshes := rfl
@[simp] theorem State.modSr_colls (s : State) (g : SysRegs → SysRegs) : (s.modSr g).colls = s.colls := rfl
@[simp] theorem State.modSr_collCounts (s : State) (g : SysRegs → SysRegs) : (s.modSr g).collCounts = s.collCounts := rfl
@[simp] theorem State.modSr_lostRoutes (s : State) (g : SysRegs → SysRegs) : (s.modSr g).lostRoutes = s.lostRoutes := rfl
@[simp] theorem State.modSr_routing (s : State) (g : SysRegs → SysRegs) : (s.modSr g).routing = s.routing := rfl
@[simp] theorem State.modSr_underTest (s : State) (g : SysRegs → SysRegs) : (s.modSr g).underTest = s.underTest := rfl
@[simp] theorem State.modSr_fenced (s : State) (g : SysRegs → SysRegs) : (s.modSr g).fenced = s.fenced := rfl
@[simp] theorem State.modSr_transients (s : State) (g : SysRegs → SysRegs) : (s.modSr g).transients = s.transients := rfl
@[simp] theorem State.modSr_checkpoints (s : State) (g : SysRegs → SysRegs) : (s.modSr g).checkpoints = s.checkpoints := rfl
@[simp] theorem State.modSr_host (s : State) (g : SysRegs → SysRegs) : (s.modSr g).host = s.host := rfl
@[simp] theorem State.modSr_ticket (s : State) (g : SysRegs → SysRegs) : (s.modSr g).ticket = s.ticket := rfl
@[simp] theorem State.modSr_log (s : State) (g : SysRegs → SysRegs) : (s.modSr g).log = s.log := rfl
@[simp] theorem State.modSr_logNext (s : State) (g : SysRegs → SysRegs) : (s.modSr g).logNext = s.logNext := rfl
@[simp] theorem State.modSr_free (s : State) (g : SysRegs → SysRegs) : (s.modSr g).free = s.free := rfl

/-! Changing a context, a gang, a die. -/

@[simp] theorem State.modCtx_pkg (s : State) (n : Nat) (g : Ctx → Ctx) : (s.modCtx n g).pkg = s.pkg := rfl
@[simp] theorem State.modCtx_packages (s : State) (n : Nat) (g : Ctx → Ctx) : (s.modCtx n g).packages = s.packages := rfl
@[simp] theorem State.modCtx_harvested (s : State) (n : Nat) (g : Ctx → Ctx) : (s.modCtx n g).harvested = s.harvested := rfl
@[simp] theorem State.modCtx_time (s : State) (n : Nat) (g : Ctx → Ctx) : (s.modCtx n g).time = s.time := rfl
@[simp] theorem State.modCtx_mem (s : State) (n : Nat) (g : Ctx → Ctx) : (s.modCtx n g).mem = s.mem := rfl
@[simp] theorem State.modCtx_poison (s : State) (n : Nat) (g : Ctx → Ctx) : (s.modCtx n g).poison = s.poison := rfl
@[simp] theorem State.modCtx_veils (s : State) (n : Nat) (g : Ctx → Ctx) : (s.modCtx n g).veils = s.veils := rfl
@[simp] theorem State.modCtx_clock (s : State) (n : Nat) (g : Ctx → Ctx) : (s.modCtx n g).clock = s.clock := rfl
@[simp] theorem State.modCtx_turns (s : State) (n : Nat) (g : Ctx → Ctx) : (s.modCtx n g).turns = s.turns := rfl
@[simp] theorem State.modCtx_owed (s : State) (n : Nat) (g : Ctx → Ctx) : (s.modCtx n g).owed = s.owed := rfl
@[simp] theorem State.modCtx_blocks (s : State) (n : Nat) (g : Ctx → Ctx) : (s.modCtx n g).blocks = s.blocks := rfl
@[simp] theorem State.modCtx_passes (s : State) (n : Nat) (g : Ctx → Ctx) : (s.modCtx n g).passes = s.passes := rfl
@[simp] theorem State.modCtx_alerts (s : State) (n : Nat) (g : Ctx → Ctx) : (s.modCtx n g).alerts = s.alerts := rfl
@[simp] theorem State.modCtx_dies (s : State) (n : Nat) (g : Ctx → Ctx) : (s.modCtx n g).dies = s.dies := rfl
@[simp] theorem State.modCtx_harts (s : State) (n : Nat) (g : Ctx → Ctx) : (s.modCtx n g).harts = s.harts := rfl
@[simp] theorem State.modCtx_cur (s : State) (n : Nat) (g : Ctx → Ctx) : (s.modCtx n g).cur = s.cur := rfl
@[simp] theorem State.modCtx_agenda (s : State) (n : Nat) (g : Ctx → Ctx) : (s.modCtx n g).agenda = s.agenda := rfl
@[simp] theorem State.modCtx_gangs (s : State) (n : Nat) (g : Ctx → Ctx) : (s.modCtx n g).gangs = s.gangs := rfl
@[simp] theorem State.modCtx_tasks (s : State) (n : Nat) (g : Ctx → Ctx) : (s.modCtx n g).tasks = s.tasks := rfl
@[simp] theorem State.modCtx_taskOrder (s : State) (n : Nat) (g : Ctx → Ctx) : (s.modCtx n g).taskOrder = s.taskOrder := rfl
@[simp] theorem State.modCtx_held (s : State) (n : Nat) (g : Ctx → Ctx) : (s.modCtx n g).held = s.held := rfl
@[simp] theorem State.modCtx_bufs (s : State) (n : Nat) (g : Ctx → Ctx) : (s.modCtx n g).bufs = s.bufs := rfl
@[simp] theorem State.modCtx_score (s : State) (n : Nat) (g : Ctx → Ctx) : (s.modCtx n g).score = s.score := rfl
@[simp] theorem State.modCtx_chans (s : State) (n : Nat) (g : Ctx → Ctx) : (s.modCtx n g).chans = s.chans := rfl
@[simp] theorem State.modCtx_armOrder (s : State) (n : Nat) (g : Ctx → Ctx) : (s.modCtx n g).armOrder = s.armOrder := rfl
@[simp] theorem State.modCtx_races (s : State) (n : Nat) (g : Ctx → Ctx) : (s.modCtx n g).races = s.races := rfl
@[simp] theorem State.modCtx_marks (s : State) (n : Nat) (g : Ctx → Ctx) : (s.modCtx n g).marks = s.marks := rfl
@[simp] theorem State.modCtx_tlb (s : State) (n : Nat) (g : Ctx → Ctx) : (s.modCtx n g).tlb = s.tlb := rfl
@[simp] theorem State.modCtx_issued (s : State) (n : Nat) (g : Ctx → Ctx) : (s.modCtx n g).issued = s.issued := rfl
@[simp] theorem State.modCtx_prefetches (s : State) (n : Nat) (g : Ctx → Ctx) : (s.modCtx n g).prefetches = s.prefetches := rfl
@[simp] theorem State.modCtx_baseOps (s : State) (n : Nat) (g : Ctx → Ctx) : (s.modCtx n g).baseOps = s.baseOps := rfl
@[simp] theorem State.modCtx_nextOp (s : State) (n : Nat) (g : Ctx → Ctx) : (s.modCtx n g).nextOp = s.nextOp := rfl
@[simp] theorem State.modCtx_reqs (s : State) (n : Nat) (g : Ctx → Ctx) : (s.modCtx n g).reqs = s.reqs := rfl
@[simp] theorem State.modCtx_tuples (s : State) (n : Nat) (g : Ctx → Ctx) : (s.modCtx n g).tuples = s.tuples := rfl
@[simp] theorem State.modCtx_parkNo (s : State) (n : Nat) (g : Ctx → Ctx) : (s.modCtx n g).parkNo = s.parkNo := rfl
@[simp] theorem State.modCtx_depNo (s : State) (n : Nat) (g : Ctx → Ctx) : (s.modCtx n g).depNo = s.depNo := rfl
@[simp] theorem State.modCtx_tdet (s : State) (n : Nat) (g : Ctx → Ctx) : (s.modCtx n g).tdet = s.tdet := rfl
@[simp] theorem State.modCtx_cbufs (s : State) (n : Nat) (g : Ctx → Ctx) : (s.modCtx n g).cbufs = s.cbufs := rfl
@[simp] theorem State.modCtx_meshes (s : State) (n : Nat) (g : Ctx → Ctx) : (s.modCtx n g).meshes = s.meshes := rfl
@[simp] theorem State.modCtx_meshJobs (s : State) (n : Nat) (g : Ctx → Ctx) : (s.modCtx n g).meshJobs = s.meshJobs := rfl
@[simp] theorem State.modCtx_remaps (s : State) (n : Nat) (g : Ctx → Ctx) : (s.modCtx n g).remaps = s.remaps := rfl
@[simp] theorem State.modCtx_refreshes (s : State) (n : Nat) (g : Ctx → Ctx) : (s.modCtx n g).refreshes = s.refreshes := rfl
@[simp] theorem State.modCtx_colls (s : State) (n : Nat) (g : Ctx → Ctx) : (s.modCtx n g).colls = s.colls := rfl
@[simp] theorem State.modCtx_collCounts (s : State) (n : Nat) (g : Ctx → Ctx) : (s.modCtx n g).collCounts = s.collCounts := rfl
@[simp] theorem State.modCtx_lostRoutes (s : State) (n : Nat) (g : Ctx → Ctx) : (s.modCtx n g).lostRoutes = s.lostRoutes := rfl
@[simp] theorem State.modCtx_routing (s : State) (n : Nat) (g : Ctx → Ctx) : (s.modCtx n g).routing = s.routing := rfl
@[simp] theorem State.modCtx_underTest (s : State) (n : Nat) (g : Ctx → Ctx) : (s.modCtx n g).underTest = s.underTest := rfl
@[simp] theorem State.modCtx_fenced (s : State) (n : Nat) (g : Ctx → Ctx) : (s.modCtx n g).fenced = s.fenced := rfl
@[simp] theorem State.modCtx_transients (s : State) (n : Nat) (g : Ctx → Ctx) : (s.modCtx n g).transients = s.transients := rfl
@[simp] theorem State.modCtx_checkpoints (s : State) (n : Nat) (g : Ctx → Ctx) : (s.modCtx n g).checkpoints = s.checkpoints := rfl
@[simp] theorem State.modCtx_host (s : State) (n : Nat) (g : Ctx → Ctx) : (s.modCtx n g).host = s.host := rfl
@[simp] theorem State.modCtx_ticket (s : State) (n : Nat) (g : Ctx → Ctx) : (s.modCtx n g).ticket = s.ticket := rfl
@[simp] theorem State.modCtx_log (s : State) (n : Nat) (g : Ctx → Ctx) : (s.modCtx n g).log = s.log := rfl
@[simp] theorem State.modCtx_logNext (s : State) (n : Nat) (g : Ctx → Ctx) : (s.modCtx n g).logNext = s.logNext := rfl
@[simp] theorem State.modCtx_free (s : State) (n : Nat) (g : Ctx → Ctx) : (s.modCtx n g).free = s.free := rfl
@[simp] theorem State.modGang_pkg (s : State) (c n : Nat) (g : Gang → Gang) : (s.modGang c n g).pkg = s.pkg := rfl
@[simp] theorem State.modGang_packages (s : State) (c n : Nat) (g : Gang → Gang) : (s.modGang c n g).packages = s.packages := rfl
@[simp] theorem State.modGang_harvested (s : State) (c n : Nat) (g : Gang → Gang) : (s.modGang c n g).harvested = s.harvested := rfl
@[simp] theorem State.modGang_time (s : State) (c n : Nat) (g : Gang → Gang) : (s.modGang c n g).time = s.time := rfl
@[simp] theorem State.modGang_mem (s : State) (c n : Nat) (g : Gang → Gang) : (s.modGang c n g).mem = s.mem := rfl
@[simp] theorem State.modGang_poison (s : State) (c n : Nat) (g : Gang → Gang) : (s.modGang c n g).poison = s.poison := rfl
@[simp] theorem State.modGang_veils (s : State) (c n : Nat) (g : Gang → Gang) : (s.modGang c n g).veils = s.veils := rfl
@[simp] theorem State.modGang_clock (s : State) (c n : Nat) (g : Gang → Gang) : (s.modGang c n g).clock = s.clock := rfl
@[simp] theorem State.modGang_turns (s : State) (c n : Nat) (g : Gang → Gang) : (s.modGang c n g).turns = s.turns := rfl
@[simp] theorem State.modGang_owed (s : State) (c n : Nat) (g : Gang → Gang) : (s.modGang c n g).owed = s.owed := rfl
@[simp] theorem State.modGang_blocks (s : State) (c n : Nat) (g : Gang → Gang) : (s.modGang c n g).blocks = s.blocks := rfl
@[simp] theorem State.modGang_passes (s : State) (c n : Nat) (g : Gang → Gang) : (s.modGang c n g).passes = s.passes := rfl
@[simp] theorem State.modGang_alerts (s : State) (c n : Nat) (g : Gang → Gang) : (s.modGang c n g).alerts = s.alerts := rfl
@[simp] theorem State.modGang_dies (s : State) (c n : Nat) (g : Gang → Gang) : (s.modGang c n g).dies = s.dies := rfl
@[simp] theorem State.modGang_harts (s : State) (c n : Nat) (g : Gang → Gang) : (s.modGang c n g).harts = s.harts := rfl
@[simp] theorem State.modGang_cur (s : State) (c n : Nat) (g : Gang → Gang) : (s.modGang c n g).cur = s.cur := rfl
@[simp] theorem State.modGang_agenda (s : State) (c n : Nat) (g : Gang → Gang) : (s.modGang c n g).agenda = s.agenda := rfl
@[simp] theorem State.modGang_ctxs (s : State) (c n : Nat) (g : Gang → Gang) : (s.modGang c n g).ctxs = s.ctxs := rfl
@[simp] theorem State.modGang_tasks (s : State) (c n : Nat) (g : Gang → Gang) : (s.modGang c n g).tasks = s.tasks := rfl
@[simp] theorem State.modGang_taskOrder (s : State) (c n : Nat) (g : Gang → Gang) : (s.modGang c n g).taskOrder = s.taskOrder := rfl
@[simp] theorem State.modGang_held (s : State) (c n : Nat) (g : Gang → Gang) : (s.modGang c n g).held = s.held := rfl
@[simp] theorem State.modGang_bufs (s : State) (c n : Nat) (g : Gang → Gang) : (s.modGang c n g).bufs = s.bufs := rfl
@[simp] theorem State.modGang_score (s : State) (c n : Nat) (g : Gang → Gang) : (s.modGang c n g).score = s.score := rfl
@[simp] theorem State.modGang_chans (s : State) (c n : Nat) (g : Gang → Gang) : (s.modGang c n g).chans = s.chans := rfl
@[simp] theorem State.modGang_armOrder (s : State) (c n : Nat) (g : Gang → Gang) : (s.modGang c n g).armOrder = s.armOrder := rfl
@[simp] theorem State.modGang_races (s : State) (c n : Nat) (g : Gang → Gang) : (s.modGang c n g).races = s.races := rfl
@[simp] theorem State.modGang_marks (s : State) (c n : Nat) (g : Gang → Gang) : (s.modGang c n g).marks = s.marks := rfl
@[simp] theorem State.modGang_tlb (s : State) (c n : Nat) (g : Gang → Gang) : (s.modGang c n g).tlb = s.tlb := rfl
@[simp] theorem State.modGang_issued (s : State) (c n : Nat) (g : Gang → Gang) : (s.modGang c n g).issued = s.issued := rfl
@[simp] theorem State.modGang_prefetches (s : State) (c n : Nat) (g : Gang → Gang) : (s.modGang c n g).prefetches = s.prefetches := rfl
@[simp] theorem State.modGang_baseOps (s : State) (c n : Nat) (g : Gang → Gang) : (s.modGang c n g).baseOps = s.baseOps := rfl
@[simp] theorem State.modGang_nextOp (s : State) (c n : Nat) (g : Gang → Gang) : (s.modGang c n g).nextOp = s.nextOp := rfl
@[simp] theorem State.modGang_reqs (s : State) (c n : Nat) (g : Gang → Gang) : (s.modGang c n g).reqs = s.reqs := rfl
@[simp] theorem State.modGang_tuples (s : State) (c n : Nat) (g : Gang → Gang) : (s.modGang c n g).tuples = s.tuples := rfl
@[simp] theorem State.modGang_parkNo (s : State) (c n : Nat) (g : Gang → Gang) : (s.modGang c n g).parkNo = s.parkNo := rfl
@[simp] theorem State.modGang_depNo (s : State) (c n : Nat) (g : Gang → Gang) : (s.modGang c n g).depNo = s.depNo := rfl
@[simp] theorem State.modGang_tdet (s : State) (c n : Nat) (g : Gang → Gang) : (s.modGang c n g).tdet = s.tdet := rfl
@[simp] theorem State.modGang_cbufs (s : State) (c n : Nat) (g : Gang → Gang) : (s.modGang c n g).cbufs = s.cbufs := rfl
@[simp] theorem State.modGang_meshes (s : State) (c n : Nat) (g : Gang → Gang) : (s.modGang c n g).meshes = s.meshes := rfl
@[simp] theorem State.modGang_meshJobs (s : State) (c n : Nat) (g : Gang → Gang) : (s.modGang c n g).meshJobs = s.meshJobs := rfl
@[simp] theorem State.modGang_remaps (s : State) (c n : Nat) (g : Gang → Gang) : (s.modGang c n g).remaps = s.remaps := rfl
@[simp] theorem State.modGang_refreshes (s : State) (c n : Nat) (g : Gang → Gang) : (s.modGang c n g).refreshes = s.refreshes := rfl
@[simp] theorem State.modGang_colls (s : State) (c n : Nat) (g : Gang → Gang) : (s.modGang c n g).colls = s.colls := rfl
@[simp] theorem State.modGang_collCounts (s : State) (c n : Nat) (g : Gang → Gang) : (s.modGang c n g).collCounts = s.collCounts := rfl
@[simp] theorem State.modGang_lostRoutes (s : State) (c n : Nat) (g : Gang → Gang) : (s.modGang c n g).lostRoutes = s.lostRoutes := rfl
@[simp] theorem State.modGang_routing (s : State) (c n : Nat) (g : Gang → Gang) : (s.modGang c n g).routing = s.routing := rfl
@[simp] theorem State.modGang_underTest (s : State) (c n : Nat) (g : Gang → Gang) : (s.modGang c n g).underTest = s.underTest := rfl
@[simp] theorem State.modGang_fenced (s : State) (c n : Nat) (g : Gang → Gang) : (s.modGang c n g).fenced = s.fenced := rfl
@[simp] theorem State.modGang_transients (s : State) (c n : Nat) (g : Gang → Gang) : (s.modGang c n g).transients = s.transients := rfl
@[simp] theorem State.modGang_checkpoints (s : State) (c n : Nat) (g : Gang → Gang) : (s.modGang c n g).checkpoints = s.checkpoints := rfl
@[simp] theorem State.modGang_host (s : State) (c n : Nat) (g : Gang → Gang) : (s.modGang c n g).host = s.host := rfl
@[simp] theorem State.modGang_ticket (s : State) (c n : Nat) (g : Gang → Gang) : (s.modGang c n g).ticket = s.ticket := rfl
@[simp] theorem State.modGang_log (s : State) (c n : Nat) (g : Gang → Gang) : (s.modGang c n g).log = s.log := rfl
@[simp] theorem State.modGang_logNext (s : State) (c n : Nat) (g : Gang → Gang) : (s.modGang c n g).logNext = s.logNext := rfl
@[simp] theorem State.modGang_free (s : State) (c n : Nat) (g : Gang → Gang) : (s.modGang c n g).free = s.free := rfl
@[simp] theorem State.modDie_pkg (s : State) (d : Nat) (g : Die → Die) : (s.modDie d g).pkg = s.pkg := by
  unfold State.modDie; split <;> rfl
@[simp] theorem State.modDie_packages (s : State) (d : Nat) (g : Die → Die) : (s.modDie d g).packages = s.packages := by
  unfold State.modDie; split <;> rfl
@[simp] theorem State.modDie_harvested (s : State) (d : Nat) (g : Die → Die) : (s.modDie d g).harvested = s.harvested := by
  unfold State.modDie; split <;> rfl
@[simp] theorem State.modDie_time (s : State) (d : Nat) (g : Die → Die) : (s.modDie d g).time = s.time := by
  unfold State.modDie; split <;> rfl
@[simp] theorem State.modDie_mem (s : State) (d : Nat) (g : Die → Die) : (s.modDie d g).mem = s.mem := by
  unfold State.modDie; split <;> rfl
@[simp] theorem State.modDie_poison (s : State) (d : Nat) (g : Die → Die) : (s.modDie d g).poison = s.poison := by
  unfold State.modDie; split <;> rfl
@[simp] theorem State.modDie_veils (s : State) (d : Nat) (g : Die → Die) : (s.modDie d g).veils = s.veils := by
  unfold State.modDie; split <;> rfl
@[simp] theorem State.modDie_clock (s : State) (d : Nat) (g : Die → Die) : (s.modDie d g).clock = s.clock := by
  unfold State.modDie; split <;> rfl
@[simp] theorem State.modDie_turns (s : State) (d : Nat) (g : Die → Die) : (s.modDie d g).turns = s.turns := by
  unfold State.modDie; split <;> rfl
@[simp] theorem State.modDie_owed (s : State) (d : Nat) (g : Die → Die) : (s.modDie d g).owed = s.owed := by
  unfold State.modDie; split <;> rfl
@[simp] theorem State.modDie_blocks (s : State) (d : Nat) (g : Die → Die) : (s.modDie d g).blocks = s.blocks := by
  unfold State.modDie; split <;> rfl
@[simp] theorem State.modDie_passes (s : State) (d : Nat) (g : Die → Die) : (s.modDie d g).passes = s.passes := by
  unfold State.modDie; split <;> rfl
@[simp] theorem State.modDie_alerts (s : State) (d : Nat) (g : Die → Die) : (s.modDie d g).alerts = s.alerts := by
  unfold State.modDie; split <;> rfl
@[simp] theorem State.modDie_harts (s : State) (d : Nat) (g : Die → Die) : (s.modDie d g).harts = s.harts := by
  unfold State.modDie; split <;> rfl
@[simp] theorem State.modDie_cur (s : State) (d : Nat) (g : Die → Die) : (s.modDie d g).cur = s.cur := by
  unfold State.modDie; split <;> rfl
@[simp] theorem State.modDie_agenda (s : State) (d : Nat) (g : Die → Die) : (s.modDie d g).agenda = s.agenda := by
  unfold State.modDie; split <;> rfl
@[simp] theorem State.modDie_ctxs (s : State) (d : Nat) (g : Die → Die) : (s.modDie d g).ctxs = s.ctxs := by
  unfold State.modDie; split <;> rfl
@[simp] theorem State.modDie_gangs (s : State) (d : Nat) (g : Die → Die) : (s.modDie d g).gangs = s.gangs := by
  unfold State.modDie; split <;> rfl
@[simp] theorem State.modDie_tasks (s : State) (d : Nat) (g : Die → Die) : (s.modDie d g).tasks = s.tasks := by
  unfold State.modDie; split <;> rfl
@[simp] theorem State.modDie_taskOrder (s : State) (d : Nat) (g : Die → Die) : (s.modDie d g).taskOrder = s.taskOrder := by
  unfold State.modDie; split <;> rfl
@[simp] theorem State.modDie_held (s : State) (d : Nat) (g : Die → Die) : (s.modDie d g).held = s.held := by
  unfold State.modDie; split <;> rfl
@[simp] theorem State.modDie_bufs (s : State) (d : Nat) (g : Die → Die) : (s.modDie d g).bufs = s.bufs := by
  unfold State.modDie; split <;> rfl
@[simp] theorem State.modDie_score (s : State) (d : Nat) (g : Die → Die) : (s.modDie d g).score = s.score := by
  unfold State.modDie; split <;> rfl
@[simp] theorem State.modDie_chans (s : State) (d : Nat) (g : Die → Die) : (s.modDie d g).chans = s.chans := by
  unfold State.modDie; split <;> rfl
@[simp] theorem State.modDie_armOrder (s : State) (d : Nat) (g : Die → Die) : (s.modDie d g).armOrder = s.armOrder := by
  unfold State.modDie; split <;> rfl
@[simp] theorem State.modDie_races (s : State) (d : Nat) (g : Die → Die) : (s.modDie d g).races = s.races := by
  unfold State.modDie; split <;> rfl
@[simp] theorem State.modDie_marks (s : State) (d : Nat) (g : Die → Die) : (s.modDie d g).marks = s.marks := by
  unfold State.modDie; split <;> rfl
@[simp] theorem State.modDie_tlb (s : State) (d : Nat) (g : Die → Die) : (s.modDie d g).tlb = s.tlb := by
  unfold State.modDie; split <;> rfl
@[simp] theorem State.modDie_issued (s : State) (d : Nat) (g : Die → Die) : (s.modDie d g).issued = s.issued := by
  unfold State.modDie; split <;> rfl
@[simp] theorem State.modDie_prefetches (s : State) (d : Nat) (g : Die → Die) : (s.modDie d g).prefetches = s.prefetches := by
  unfold State.modDie; split <;> rfl
@[simp] theorem State.modDie_baseOps (s : State) (d : Nat) (g : Die → Die) : (s.modDie d g).baseOps = s.baseOps := by
  unfold State.modDie; split <;> rfl
@[simp] theorem State.modDie_nextOp (s : State) (d : Nat) (g : Die → Die) : (s.modDie d g).nextOp = s.nextOp := by
  unfold State.modDie; split <;> rfl
@[simp] theorem State.modDie_reqs (s : State) (d : Nat) (g : Die → Die) : (s.modDie d g).reqs = s.reqs := by
  unfold State.modDie; split <;> rfl
@[simp] theorem State.modDie_tuples (s : State) (d : Nat) (g : Die → Die) : (s.modDie d g).tuples = s.tuples := by
  unfold State.modDie; split <;> rfl
@[simp] theorem State.modDie_parkNo (s : State) (d : Nat) (g : Die → Die) : (s.modDie d g).parkNo = s.parkNo := by
  unfold State.modDie; split <;> rfl
@[simp] theorem State.modDie_depNo (s : State) (d : Nat) (g : Die → Die) : (s.modDie d g).depNo = s.depNo := by
  unfold State.modDie; split <;> rfl
@[simp] theorem State.modDie_tdet (s : State) (d : Nat) (g : Die → Die) : (s.modDie d g).tdet = s.tdet := by
  unfold State.modDie; split <;> rfl
@[simp] theorem State.modDie_cbufs (s : State) (d : Nat) (g : Die → Die) : (s.modDie d g).cbufs = s.cbufs := by
  unfold State.modDie; split <;> rfl
@[simp] theorem State.modDie_meshes (s : State) (d : Nat) (g : Die → Die) : (s.modDie d g).meshes = s.meshes := by
  unfold State.modDie; split <;> rfl
@[simp] theorem State.modDie_meshJobs (s : State) (d : Nat) (g : Die → Die) : (s.modDie d g).meshJobs = s.meshJobs := by
  unfold State.modDie; split <;> rfl
@[simp] theorem State.modDie_remaps (s : State) (d : Nat) (g : Die → Die) : (s.modDie d g).remaps = s.remaps := by
  unfold State.modDie; split <;> rfl
@[simp] theorem State.modDie_refreshes (s : State) (d : Nat) (g : Die → Die) : (s.modDie d g).refreshes = s.refreshes := by
  unfold State.modDie; split <;> rfl
@[simp] theorem State.modDie_colls (s : State) (d : Nat) (g : Die → Die) : (s.modDie d g).colls = s.colls := by
  unfold State.modDie; split <;> rfl
@[simp] theorem State.modDie_collCounts (s : State) (d : Nat) (g : Die → Die) : (s.modDie d g).collCounts = s.collCounts := by
  unfold State.modDie; split <;> rfl
@[simp] theorem State.modDie_lostRoutes (s : State) (d : Nat) (g : Die → Die) : (s.modDie d g).lostRoutes = s.lostRoutes := by
  unfold State.modDie; split <;> rfl
@[simp] theorem State.modDie_routing (s : State) (d : Nat) (g : Die → Die) : (s.modDie d g).routing = s.routing := by
  unfold State.modDie; split <;> rfl
@[simp] theorem State.modDie_underTest (s : State) (d : Nat) (g : Die → Die) : (s.modDie d g).underTest = s.underTest := by
  unfold State.modDie; split <;> rfl
@[simp] theorem State.modDie_fenced (s : State) (d : Nat) (g : Die → Die) : (s.modDie d g).fenced = s.fenced := by
  unfold State.modDie; split <;> rfl
@[simp] theorem State.modDie_transients (s : State) (d : Nat) (g : Die → Die) : (s.modDie d g).transients = s.transients := by
  unfold State.modDie; split <;> rfl
@[simp] theorem State.modDie_checkpoints (s : State) (d : Nat) (g : Die → Die) : (s.modDie d g).checkpoints = s.checkpoints := by
  unfold State.modDie; split <;> rfl
@[simp] theorem State.modDie_host (s : State) (d : Nat) (g : Die → Die) : (s.modDie d g).host = s.host := by
  unfold State.modDie; split <;> rfl
@[simp] theorem State.modDie_ticket (s : State) (d : Nat) (g : Die → Die) : (s.modDie d g).ticket = s.ticket := by
  unfold State.modDie; split <;> rfl
@[simp] theorem State.modDie_log (s : State) (d : Nat) (g : Die → Die) : (s.modDie d g).log = s.log := by
  unfold State.modDie; split <;> rfl
@[simp] theorem State.modDie_logNext (s : State) (d : Nat) (g : Die → Die) : (s.modDie d g).logNext = s.logNext := by
  unfold State.modDie; split <;> rfl
@[simp] theorem State.modDie_free (s : State) (d : Nat) (g : Die → Die) : (s.modDie d g).free = s.free := by
  unfold State.modDie; split <;> rfl

/-! Registers of a hart. -/

@[simp] theorem Hart.setX_place (h : Hart) (n : Fin 64) (w : Word) : (h.setX n w).place = h.place := by
  unfold Hart.setX; split <;> rfl
@[simp] theorem Hart.setX_ctx (h : Hart) (n : Fin 64) (w : Word) : (h.setX n w).ctx = h.ctx := by
  unfold Hart.setX; split <;> rfl
@[simp] theorem Hart.setX_gang (h : Hart) (n : Fin 64) (w : Word) : (h.setX n w).gang = h.gang := by
  unfold Hart.setX; split <;> rfl
@[simp] theorem Hart.setX_hartid (h : Hart) (n : Fin 64) (w : Word) : (h.setX n w).hartid = h.hartid := by
  unfold Hart.setX; split <;> rfl
@[simp] theorem Hart.setX_vdid (h : Hart) (n : Fin 64) (w : Word) : (h.setX n w).vdid = h.vdid := by
  unfold Hart.setX; split <;> rfl
@[simp] theorem Hart.setX_member (h : Hart) (n : Fin 64) (w : Word) : (h.setX n w).member = h.member := by
  unfold Hart.setX; split <;> rfl
@[simp] theorem Hart.setX_status (h : Hart) (n : Fin 64) (w : Word) : (h.setX n w).status = h.status := by
  unfold Hart.setX; split <;> rfl
@[simp] theorem Hart.setX_p (h : Hart) (n : Fin 64) (w : Word) : (h.setX n w).p = h.p := by
  unfold Hart.setX; split <;> rfl
@[simp] theorem Hart.setX_v (h : Hart) (n : Fin 64) (w : Word) : (h.setX n w).v = h.v := by
  unfold Hart.setX; split <;> rfl
@[simp] theorem Hart.setX_k (h : Hart) (n : Fin 64) (w : Word) : (h.setX n w).k = h.k := by
  unfold Hart.setX; split <;> rfl
@[simp] theorem Hart.setX_s (h : Hart) (n : Fin 64) (w : Word) : (h.setX n w).s = h.s := by
  unfold Hart.setX; split <;> rfl
@[simp] theorem Hart.setX_ma (h : Hart) (n : Fin 64) (w : Word) : (h.setX n w).ma = h.ma := by
  unfold Hart.setX; split <;> rfl
@[simp] theorem Hart.setX_q (h : Hart) (n : Fin 64) (w : Word) : (h.setX n w).q = h.q := by
  unfold Hart.setX; split <;> rfl
@[simp] theorem Hart.setX_empty (h : Hart) (n : Fin 64) (w : Word) : (h.setX n w).empty = h.empty := by
  unfold Hart.setX; split <;> rfl
@[simp] theorem Hart.setX_pc (h : Hart) (n : Fin 64) (w : Word) : (h.setX n w).pc = h.pc := by
  unfold Hart.setX; split <;> rfl
@[simp] theorem Hart.setX_prevPc (h : Hart) (n : Fin 64) (w : Word) : (h.setX n w).prevPc = h.prevPc := by
  unfold Hart.setX; split <;> rfl
@[simp] theorem Hart.setX_sr (h : Hart) (n : Fin 64) (w : Word) : (h.setX n w).sr = h.sr := by
  unfold Hart.setX; split <;> rfl
@[simp] theorem Hart.setX_st (h : Hart) (n : Fin 64) (w : Word) : (h.setX n w).st = h.st := by
  unfold Hart.setX; split <;> rfl
@[simp] theorem Hart.setX_fw (h : Hart) (n : Fin 64) (w : Word) : (h.setX n w).fw = h.fw := by
  unfold Hart.setX; split <;> rfl
@[simp] theorem Hart.setX_acfgDec (h : Hart) (n : Fin 64) (w : Word) : (h.setX n w).acfgDec = h.acfgDec := by
  unfold Hart.setX; split <;> rfl
@[simp] theorem Hart.setX_seq (h : Hart) (n : Fin 64) (w : Word) : (h.setX n w).seq = h.seq := by
  unfold Hart.setX; split <;> rfl
@[simp] theorem Hart.setX_results (h : Hart) (n : Fin 64) (w : Word) : (h.setX n w).results = h.results := by
  unfold Hart.setX; split <;> rfl
@[simp] theorem Hart.setX_pend (h : Hart) (n : Fin 64) (w : Word) : (h.setX n w).pend = h.pend := by
  unfold Hart.setX; split <;> rfl
@[simp] theorem Hart.setX_late (h : Hart) (n : Fin 64) (w : Word) : (h.setX n w).late = h.late := by
  unfold Hart.setX; split <;> rfl
@[simp] theorem Hart.setX_equeue (h : Hart) (n : Fin 64) (w : Word) : (h.setX n w).equeue = h.equeue := by
  unfold Hart.setX; split <;> rfl
@[simp] theorem Hart.setX_waiting (h : Hart) (n : Fin 64) (w : Word) : (h.setX n w).waiting = h.waiting := by
  unfold Hart.setX; split <;> rfl
@[simp] theorem Hart.setX_stalled (h : Hart) (n : Fin 64) (w : Word) : (h.setX n w).stalled = h.stalled := by
  unfold Hart.setX; split <;> rfl
@[simp] theorem Hart.setX_causes (h : Hart) (n : Fin 64) (w : Word) : (h.setX n w).causes = h.causes := by
  unfold Hart.setX; split <;> rfl
@[simp] theorem Hart.setX_preempt (h : Hart) (n : Fin 64) (w : Word) : (h.setX n w).preempt = h.preempt := by
  unfold Hart.setX; split <;> rfl
@[simp] theorem Hart.setX_monitor (h : Hart) (n : Fin 64) (w : Word) : (h.setX n w).monitor = h.monitor := by
  unfold Hart.setX; split <;> rfl
@[simp] theorem Hart.setX_wait (h : Hart) (n : Fin 64) (w : Word) : (h.setX n w).wait = h.wait := by
  unfold Hart.setX; split <;> rfl
@[simp] theorem Hart.setX_arrival (h : Hart) (n : Fin 64) (w : Word) : (h.setX n w).arrival = h.arrival := by
  unfold Hart.setX; split <;> rfl
@[simp] theorem Hart.setX_stepKind (h : Hart) (n : Fin 64) (w : Word) : (h.setX n w).stepKind = h.stepKind := by
  unfold Hart.setX; split <;> rfl
@[simp] theorem Hart.setX_homeOp (h : Hart) (n : Fin 64) (w : Word) : (h.setX n w).homeOp = h.homeOp := by
  unfold Hart.setX; split <;> rfl
@[simp] theorem Hart.setX_binds (h : Hart) (n : Fin 64) (w : Word) : (h.setX n w).binds = h.binds := by
  unfold Hart.setX; split <;> rfl
@[simp] theorem Hart.setX_tileIndex (h : Hart) (n : Fin 64) (w : Word) : (h.setX n w).tileIndex = h.tileIndex := by
  unfold Hart.setX; split <;> rfl
@[simp] theorem Hart.setX_taskDone (h : Hart) (n : Fin 64) (w : Word) : (h.setX n w).taskDone = h.taskDone := by
  unfold Hart.setX; split <;> rfl
@[simp] theorem Hart.setX_taskRec (h : Hart) (n : Fin 64) (w : Word) : (h.setX n w).taskRec = h.taskRec := by
  unfold Hart.setX; split <;> rfl
@[simp] theorem Hart.setX_ticks (h : Hart) (n : Fin 64) (w : Word) : (h.setX n w).ticks = h.ticks := by
  unfold Hart.setX; split <;> rfl
@[simp] theorem Hart.setX_dcause (h : Hart) (n : Fin 64) (w : Word) : (h.setX n w).dcause = h.dcause := by
  unfold Hart.setX; split <;> rfl
@[simp] theorem Hart.setX_undo (h : Hart) (n : Fin 64) (w : Word) : (h.setX n w).undo = h.undo := by
  unfold Hart.setX; split <;> rfl
@[simp] theorem Hart.setX_ahead (h : Hart) (n : Fin 64) (w : Word) : (h.setX n w).ahead = h.ahead := by
  unfold Hart.setX; split <;> rfl
@[simp] theorem Hart.setX_struck (h : Hart) (n : Fin 64) (w : Word) : (h.setX n w).struck = h.struck := by
  unfold Hart.setX; split <;> rfl
@[simp] theorem Hart.setX_cut (h : Hart) (n : Fin 64) (w : Word) : (h.setX n w).cut = h.cut := by
  unfold Hart.setX; split <;> rfl
@[simp] theorem Hart.setX_mid (h : Hart) (n : Fin 64) (w : Word) : (h.setX n w).mid = h.mid := by
  unfold Hart.setX; split <;> rfl
@[simp] theorem Hart.setX_decoded (h : Hart) (n : Fin 64) (w : Word) : (h.setX n w).decoded = h.decoded := by
  unfold Hart.setX; split <;> rfl
@[simp] theorem Hart.setX_onE (h : Hart) (n : Fin 64) (w : Word) : (h.setX n w).onE = h.onE := by
  unfold Hart.setX; split <;> rfl
@[simp] theorem Hart.setP_place (h : Hart) (n : Fin 16) (b : Bool) : (h.setP n b).place = h.place := by
  unfold Hart.setP; split <;> rfl
@[simp] theorem Hart.setP_ctx (h : Hart) (n : Fin 16) (b : Bool) : (h.setP n b).ctx = h.ctx := by
  unfold Hart.setP; split <;> rfl
@[simp] theorem Hart.setP_gang (h : Hart) (n : Fin 16) (b : Bool) : (h.setP n b).gang = h.gang := by
  unfold Hart.setP; split <;> rfl
@[simp] theorem Hart.setP_hartid (h : Hart) (n : Fin 16) (b : Bool) : (h.setP n b).hartid = h.hartid := by
  unfold Hart.setP; split <;> rfl
@[simp] theorem Hart.setP_vdid (h : Hart) (n : Fin 16) (b : Bool) : (h.setP n b).vdid = h.vdid := by
  unfold Hart.setP; split <;> rfl
@[simp] theorem Hart.setP_member (h : Hart) (n : Fin 16) (b : Bool) : (h.setP n b).member = h.member := by
  unfold Hart.setP; split <;> rfl
@[simp] theorem Hart.setP_status (h : Hart) (n : Fin 16) (b : Bool) : (h.setP n b).status = h.status := by
  unfold Hart.setP; split <;> rfl
@[simp] theorem Hart.setP_x (h : Hart) (n : Fin 16) (b : Bool) : (h.setP n b).x = h.x := by
  unfold Hart.setP; split <;> rfl
@[simp] theorem Hart.setP_v (h : Hart) (n : Fin 16) (b : Bool) : (h.setP n b).v = h.v := by
  unfold Hart.setP; split <;> rfl
@[simp] theorem Hart.setP_k (h : Hart) (n : Fin 16) (b : Bool) : (h.setP n b).k = h.k := by
  unfold Hart.setP; split <;> rfl
@[simp] theorem Hart.setP_s (h : Hart) (n : Fin 16) (b : Bool) : (h.setP n b).s = h.s := by
  unfold Hart.setP; split <;> rfl
@[simp] theorem Hart.setP_ma (h : Hart) (n : Fin 16) (b : Bool) : (h.setP n b).ma = h.ma := by
  unfold Hart.setP; split <;> rfl
@[simp] theorem Hart.setP_q (h : Hart) (n : Fin 16) (b : Bool) : (h.setP n b).q = h.q := by
  unfold Hart.setP; split <;> rfl
@[simp] theorem Hart.setP_empty (h : Hart) (n : Fin 16) (b : Bool) : (h.setP n b).empty = h.empty := by
  unfold Hart.setP; split <;> rfl
@[simp] theorem Hart.setP_pc (h : Hart) (n : Fin 16) (b : Bool) : (h.setP n b).pc = h.pc := by
  unfold Hart.setP; split <;> rfl
@[simp] theorem Hart.setP_prevPc (h : Hart) (n : Fin 16) (b : Bool) : (h.setP n b).prevPc = h.prevPc := by
  unfold Hart.setP; split <;> rfl
@[simp] theorem Hart.setP_sr (h : Hart) (n : Fin 16) (b : Bool) : (h.setP n b).sr = h.sr := by
  unfold Hart.setP; split <;> rfl
@[simp] theorem Hart.setP_st (h : Hart) (n : Fin 16) (b : Bool) : (h.setP n b).st = h.st := by
  unfold Hart.setP; split <;> rfl
@[simp] theorem Hart.setP_fw (h : Hart) (n : Fin 16) (b : Bool) : (h.setP n b).fw = h.fw := by
  unfold Hart.setP; split <;> rfl
@[simp] theorem Hart.setP_acfgDec (h : Hart) (n : Fin 16) (b : Bool) : (h.setP n b).acfgDec = h.acfgDec := by
  unfold Hart.setP; split <;> rfl
@[simp] theorem Hart.setP_seq (h : Hart) (n : Fin 16) (b : Bool) : (h.setP n b).seq = h.seq := by
  unfold Hart.setP; split <;> rfl
@[simp] theorem Hart.setP_results (h : Hart) (n : Fin 16) (b : Bool) : (h.setP n b).results = h.results := by
  unfold Hart.setP; split <;> rfl
@[simp] theorem Hart.setP_pend (h : Hart) (n : Fin 16) (b : Bool) : (h.setP n b).pend = h.pend := by
  unfold Hart.setP; split <;> rfl
@[simp] theorem Hart.setP_late (h : Hart) (n : Fin 16) (b : Bool) : (h.setP n b).late = h.late := by
  unfold Hart.setP; split <;> rfl
@[simp] theorem Hart.setP_equeue (h : Hart) (n : Fin 16) (b : Bool) : (h.setP n b).equeue = h.equeue := by
  unfold Hart.setP; split <;> rfl
@[simp] theorem Hart.setP_waiting (h : Hart) (n : Fin 16) (b : Bool) : (h.setP n b).waiting = h.waiting := by
  unfold Hart.setP; split <;> rfl
@[simp] theorem Hart.setP_stalled (h : Hart) (n : Fin 16) (b : Bool) : (h.setP n b).stalled = h.stalled := by
  unfold Hart.setP; split <;> rfl
@[simp] theorem Hart.setP_causes (h : Hart) (n : Fin 16) (b : Bool) : (h.setP n b).causes = h.causes := by
  unfold Hart.setP; split <;> rfl
@[simp] theorem Hart.setP_preempt (h : Hart) (n : Fin 16) (b : Bool) : (h.setP n b).preempt = h.preempt := by
  unfold Hart.setP; split <;> rfl
@[simp] theorem Hart.setP_monitor (h : Hart) (n : Fin 16) (b : Bool) : (h.setP n b).monitor = h.monitor := by
  unfold Hart.setP; split <;> rfl
@[simp] theorem Hart.setP_wait (h : Hart) (n : Fin 16) (b : Bool) : (h.setP n b).wait = h.wait := by
  unfold Hart.setP; split <;> rfl
@[simp] theorem Hart.setP_arrival (h : Hart) (n : Fin 16) (b : Bool) : (h.setP n b).arrival = h.arrival := by
  unfold Hart.setP; split <;> rfl
@[simp] theorem Hart.setP_stepKind (h : Hart) (n : Fin 16) (b : Bool) : (h.setP n b).stepKind = h.stepKind := by
  unfold Hart.setP; split <;> rfl
@[simp] theorem Hart.setP_homeOp (h : Hart) (n : Fin 16) (b : Bool) : (h.setP n b).homeOp = h.homeOp := by
  unfold Hart.setP; split <;> rfl
@[simp] theorem Hart.setP_binds (h : Hart) (n : Fin 16) (b : Bool) : (h.setP n b).binds = h.binds := by
  unfold Hart.setP; split <;> rfl
@[simp] theorem Hart.setP_tileIndex (h : Hart) (n : Fin 16) (b : Bool) : (h.setP n b).tileIndex = h.tileIndex := by
  unfold Hart.setP; split <;> rfl
@[simp] theorem Hart.setP_taskDone (h : Hart) (n : Fin 16) (b : Bool) : (h.setP n b).taskDone = h.taskDone := by
  unfold Hart.setP; split <;> rfl
@[simp] theorem Hart.setP_taskRec (h : Hart) (n : Fin 16) (b : Bool) : (h.setP n b).taskRec = h.taskRec := by
  unfold Hart.setP; split <;> rfl
@[simp] theorem Hart.setP_ticks (h : Hart) (n : Fin 16) (b : Bool) : (h.setP n b).ticks = h.ticks := by
  unfold Hart.setP; split <;> rfl
@[simp] theorem Hart.setP_dcause (h : Hart) (n : Fin 16) (b : Bool) : (h.setP n b).dcause = h.dcause := by
  unfold Hart.setP; split <;> rfl
@[simp] theorem Hart.setP_undo (h : Hart) (n : Fin 16) (b : Bool) : (h.setP n b).undo = h.undo := by
  unfold Hart.setP; split <;> rfl
@[simp] theorem Hart.setP_ahead (h : Hart) (n : Fin 16) (b : Bool) : (h.setP n b).ahead = h.ahead := by
  unfold Hart.setP; split <;> rfl
@[simp] theorem Hart.setP_struck (h : Hart) (n : Fin 16) (b : Bool) : (h.setP n b).struck = h.struck := by
  unfold Hart.setP; split <;> rfl
@[simp] theorem Hart.setP_cut (h : Hart) (n : Fin 16) (b : Bool) : (h.setP n b).cut = h.cut := by
  unfold Hart.setP; split <;> rfl
@[simp] theorem Hart.setP_mid (h : Hart) (n : Fin 16) (b : Bool) : (h.setP n b).mid = h.mid := by
  unfold Hart.setP; split <;> rfl
@[simp] theorem Hart.setP_decoded (h : Hart) (n : Fin 16) (b : Bool) : (h.setP n b).decoded = h.decoded := by
  unfold Hart.setP; split <;> rfl
@[simp] theorem Hart.setP_onE (h : Hart) (n : Fin 16) (b : Bool) : (h.setP n b).onE = h.onE := by
  unfold Hart.setP; split <;> rfl
@[simp] theorem Hart.setV_place (h : Hart) (n : Fin 32) (t : Tile) : (h.setV n t).place = h.place := rfl
@[simp] theorem Hart.setV_ctx (h : Hart) (n : Fin 32) (t : Tile) : (h.setV n t).ctx = h.ctx := rfl
@[simp] theorem Hart.setV_gang (h : Hart) (n : Fin 32) (t : Tile) : (h.setV n t).gang = h.gang := rfl
@[simp] theorem Hart.setV_hartid (h : Hart) (n : Fin 32) (t : Tile) : (h.setV n t).hartid = h.hartid := rfl
@[simp] theorem Hart.setV_vdid (h : Hart) (n : Fin 32) (t : Tile) : (h.setV n t).vdid = h.vdid := rfl
@[simp] theorem Hart.setV_member (h : Hart) (n : Fin 32) (t : Tile) : (h.setV n t).member = h.member := rfl
@[simp] theorem Hart.setV_status (h : Hart) (n : Fin 32) (t : Tile) : (h.setV n t).status = h.status := rfl
@[simp] theorem Hart.setV_x (h : Hart) (n : Fin 32) (t : Tile) : (h.setV n t).x = h.x := rfl
@[simp] theorem Hart.setV_p (h : Hart) (n : Fin 32) (t : Tile) : (h.setV n t).p = h.p := rfl
@[simp] theorem Hart.setV_k (h : Hart) (n : Fin 32) (t : Tile) : (h.setV n t).k = h.k := rfl
@[simp] theorem Hart.setV_s (h : Hart) (n : Fin 32) (t : Tile) : (h.setV n t).s = h.s := rfl
@[simp] theorem Hart.setV_ma (h : Hart) (n : Fin 32) (t : Tile) : (h.setV n t).ma = h.ma := rfl
@[simp] theorem Hart.setV_q (h : Hart) (n : Fin 32) (t : Tile) : (h.setV n t).q = h.q := rfl
@[simp] theorem Hart.setV_empty (h : Hart) (n : Fin 32) (t : Tile) : (h.setV n t).empty = h.empty := rfl
@[simp] theorem Hart.setV_pc (h : Hart) (n : Fin 32) (t : Tile) : (h.setV n t).pc = h.pc := rfl
@[simp] theorem Hart.setV_prevPc (h : Hart) (n : Fin 32) (t : Tile) : (h.setV n t).prevPc = h.prevPc := rfl
@[simp] theorem Hart.setV_st (h : Hart) (n : Fin 32) (t : Tile) : (h.setV n t).st = h.st := rfl
@[simp] theorem Hart.setV_fw (h : Hart) (n : Fin 32) (t : Tile) : (h.setV n t).fw = h.fw := rfl
@[simp] theorem Hart.setV_acfgDec (h : Hart) (n : Fin 32) (t : Tile) : (h.setV n t).acfgDec = h.acfgDec := rfl
@[simp] theorem Hart.setV_seq (h : Hart) (n : Fin 32) (t : Tile) : (h.setV n t).seq = h.seq := rfl
@[simp] theorem Hart.setV_results (h : Hart) (n : Fin 32) (t : Tile) : (h.setV n t).results = h.results := rfl
@[simp] theorem Hart.setV_pend (h : Hart) (n : Fin 32) (t : Tile) : (h.setV n t).pend = h.pend := rfl
@[simp] theorem Hart.setV_late (h : Hart) (n : Fin 32) (t : Tile) : (h.setV n t).late = h.late := rfl
@[simp] theorem Hart.setV_equeue (h : Hart) (n : Fin 32) (t : Tile) : (h.setV n t).equeue = h.equeue := rfl
@[simp] theorem Hart.setV_waiting (h : Hart) (n : Fin 32) (t : Tile) : (h.setV n t).waiting = h.waiting := rfl
@[simp] theorem Hart.setV_stalled (h : Hart) (n : Fin 32) (t : Tile) : (h.setV n t).stalled = h.stalled := rfl
@[simp] theorem Hart.setV_causes (h : Hart) (n : Fin 32) (t : Tile) : (h.setV n t).causes = h.causes := rfl
@[simp] theorem Hart.setV_preempt (h : Hart) (n : Fin 32) (t : Tile) : (h.setV n t).preempt = h.preempt := rfl
@[simp] theorem Hart.setV_monitor (h : Hart) (n : Fin 32) (t : Tile) : (h.setV n t).monitor = h.monitor := rfl
@[simp] theorem Hart.setV_wait (h : Hart) (n : Fin 32) (t : Tile) : (h.setV n t).wait = h.wait := rfl
@[simp] theorem Hart.setV_arrival (h : Hart) (n : Fin 32) (t : Tile) : (h.setV n t).arrival = h.arrival := rfl
@[simp] theorem Hart.setV_stepKind (h : Hart) (n : Fin 32) (t : Tile) : (h.setV n t).stepKind = h.stepKind := rfl
@[simp] theorem Hart.setV_homeOp (h : Hart) (n : Fin 32) (t : Tile) : (h.setV n t).homeOp = h.homeOp := rfl
@[simp] theorem Hart.setV_binds (h : Hart) (n : Fin 32) (t : Tile) : (h.setV n t).binds = h.binds := rfl
@[simp] theorem Hart.setV_tileIndex (h : Hart) (n : Fin 32) (t : Tile) : (h.setV n t).tileIndex = h.tileIndex := rfl
@[simp] theorem Hart.setV_taskDone (h : Hart) (n : Fin 32) (t : Tile) : (h.setV n t).taskDone = h.taskDone := rfl
@[simp] theorem Hart.setV_taskRec (h : Hart) (n : Fin 32) (t : Tile) : (h.setV n t).taskRec = h.taskRec := rfl
@[simp] theorem Hart.setV_ticks (h : Hart) (n : Fin 32) (t : Tile) : (h.setV n t).ticks = h.ticks := rfl
@[simp] theorem Hart.setV_dcause (h : Hart) (n : Fin 32) (t : Tile) : (h.setV n t).dcause = h.dcause := rfl
@[simp] theorem Hart.setV_undo (h : Hart) (n : Fin 32) (t : Tile) : (h.setV n t).undo = h.undo := rfl
@[simp] theorem Hart.setV_ahead (h : Hart) (n : Fin 32) (t : Tile) : (h.setV n t).ahead = h.ahead := rfl
@[simp] theorem Hart.setV_struck (h : Hart) (n : Fin 32) (t : Tile) : (h.setV n t).struck = h.struck := rfl
@[simp] theorem Hart.setV_cut (h : Hart) (n : Fin 32) (t : Tile) : (h.setV n t).cut = h.cut := rfl
@[simp] theorem Hart.setV_mid (h : Hart) (n : Fin 32) (t : Tile) : (h.setV n t).mid = h.mid := rfl
@[simp] theorem Hart.setV_decoded (h : Hart) (n : Fin 32) (t : Tile) : (h.setV n t).decoded = h.decoded := rfl
@[simp] theorem Hart.setV_onE (h : Hart) (n : Fin 32) (t : Tile) : (h.setV n t).onE = h.onE := rfl
@[simp] theorem Hart.mend_place (h : Hart) (r : Reg) : (h.mend r).place = h.place := rfl
@[simp] theorem Hart.mend_ctx (h : Hart) (r : Reg) : (h.mend r).ctx = h.ctx := rfl
@[simp] theorem Hart.mend_gang (h : Hart) (r : Reg) : (h.mend r).gang = h.gang := rfl
@[simp] theorem Hart.mend_hartid (h : Hart) (r : Reg) : (h.mend r).hartid = h.hartid := rfl
@[simp] theorem Hart.mend_vdid (h : Hart) (r : Reg) : (h.mend r).vdid = h.vdid := rfl
@[simp] theorem Hart.mend_member (h : Hart) (r : Reg) : (h.mend r).member = h.member := rfl
@[simp] theorem Hart.mend_status (h : Hart) (r : Reg) : (h.mend r).status = h.status := rfl
@[simp] theorem Hart.mend_x (h : Hart) (r : Reg) : (h.mend r).x = h.x := rfl
@[simp] theorem Hart.mend_p (h : Hart) (r : Reg) : (h.mend r).p = h.p := rfl
@[simp] theorem Hart.mend_v (h : Hart) (r : Reg) : (h.mend r).v = h.v := rfl
@[simp] theorem Hart.mend_k (h : Hart) (r : Reg) : (h.mend r).k = h.k := rfl
@[simp] theorem Hart.mend_s (h : Hart) (r : Reg) : (h.mend r).s = h.s := rfl
@[simp] theorem Hart.mend_ma (h : Hart) (r : Reg) : (h.mend r).ma = h.ma := rfl
@[simp] theorem Hart.mend_q (h : Hart) (r : Reg) : (h.mend r).q = h.q := rfl
@[simp] theorem Hart.mend_empty (h : Hart) (r : Reg) : (h.mend r).empty = h.empty := rfl
@[simp] theorem Hart.mend_pc (h : Hart) (r : Reg) : (h.mend r).pc = h.pc := rfl
@[simp] theorem Hart.mend_prevPc (h : Hart) (r : Reg) : (h.mend r).prevPc = h.prevPc := rfl
@[simp] theorem Hart.mend_sr (h : Hart) (r : Reg) : (h.mend r).sr = h.sr := rfl
@[simp] theorem Hart.mend_st (h : Hart) (r : Reg) : (h.mend r).st = h.st := rfl
@[simp] theorem Hart.mend_fw (h : Hart) (r : Reg) : (h.mend r).fw = h.fw := rfl
@[simp] theorem Hart.mend_acfgDec (h : Hart) (r : Reg) : (h.mend r).acfgDec = h.acfgDec := rfl
@[simp] theorem Hart.mend_seq (h : Hart) (r : Reg) : (h.mend r).seq = h.seq := rfl
@[simp] theorem Hart.mend_results (h : Hart) (r : Reg) : (h.mend r).results = h.results := rfl
@[simp] theorem Hart.mend_pend (h : Hart) (r : Reg) : (h.mend r).pend = h.pend := rfl
@[simp] theorem Hart.mend_late (h : Hart) (r : Reg) : (h.mend r).late = h.late := rfl
@[simp] theorem Hart.mend_equeue (h : Hart) (r : Reg) : (h.mend r).equeue = h.equeue := rfl
@[simp] theorem Hart.mend_waiting (h : Hart) (r : Reg) : (h.mend r).waiting = h.waiting := rfl
@[simp] theorem Hart.mend_stalled (h : Hart) (r : Reg) : (h.mend r).stalled = h.stalled := rfl
@[simp] theorem Hart.mend_causes (h : Hart) (r : Reg) : (h.mend r).causes = h.causes := rfl
@[simp] theorem Hart.mend_preempt (h : Hart) (r : Reg) : (h.mend r).preempt = h.preempt := rfl
@[simp] theorem Hart.mend_monitor (h : Hart) (r : Reg) : (h.mend r).monitor = h.monitor := rfl
@[simp] theorem Hart.mend_wait (h : Hart) (r : Reg) : (h.mend r).wait = h.wait := rfl
@[simp] theorem Hart.mend_arrival (h : Hart) (r : Reg) : (h.mend r).arrival = h.arrival := rfl
@[simp] theorem Hart.mend_stepKind (h : Hart) (r : Reg) : (h.mend r).stepKind = h.stepKind := rfl
@[simp] theorem Hart.mend_homeOp (h : Hart) (r : Reg) : (h.mend r).homeOp = h.homeOp := rfl
@[simp] theorem Hart.mend_binds (h : Hart) (r : Reg) : (h.mend r).binds = h.binds := rfl
@[simp] theorem Hart.mend_tileIndex (h : Hart) (r : Reg) : (h.mend r).tileIndex = h.tileIndex := rfl
@[simp] theorem Hart.mend_taskDone (h : Hart) (r : Reg) : (h.mend r).taskDone = h.taskDone := rfl
@[simp] theorem Hart.mend_taskRec (h : Hart) (r : Reg) : (h.mend r).taskRec = h.taskRec := rfl
@[simp] theorem Hart.mend_ticks (h : Hart) (r : Reg) : (h.mend r).ticks = h.ticks := rfl
@[simp] theorem Hart.mend_dcause (h : Hart) (r : Reg) : (h.mend r).dcause = h.dcause := rfl
@[simp] theorem Hart.mend_undo (h : Hart) (r : Reg) : (h.mend r).undo = h.undo := rfl
@[simp] theorem Hart.mend_ahead (h : Hart) (r : Reg) : (h.mend r).ahead = h.ahead := rfl
@[simp] theorem Hart.mend_cut (h : Hart) (r : Reg) : (h.mend r).cut = h.cut := rfl
@[simp] theorem Hart.mend_mid (h : Hart) (r : Reg) : (h.mend r).mid = h.mid := rfl
@[simp] theorem Hart.mend_decoded (h : Hart) (r : Reg) : (h.mend r).decoded = h.decoded := rfl
@[simp] theorem Hart.mend_onE (h : Hart) (r : Reg) : (h.mend r).onE = h.onE := rfl
@[simp] theorem Hart.mend_struck (h : Hart) (r : Reg) : (h.mend r).struck = h.struck.filter (· != r) := rfl
@[simp] theorem Hart.mend_onto (h : Hart) (r : Reg) (hs : h.struck = []) : h.mend r = h := by
  cases h; simp_all [Hart.mend]
@[simp] theorem Hart.fillQ_place (h : Hart) (n : Fin 4) (seq : Nat) (t : Tile) : (h.fillQ n seq t).place = h.place := rfl
@[simp] theorem Hart.fillQ_ctx (h : Hart) (n : Fin 4) (seq : Nat) (t : Tile) : (h.fillQ n seq t).ctx = h.ctx := rfl
@[simp] theorem Hart.fillQ_gang (h : Hart) (n : Fin 4) (seq : Nat) (t : Tile) : (h.fillQ n seq t).gang = h.gang := rfl
@[simp] theorem Hart.fillQ_hartid (h : Hart) (n : Fin 4) (seq : Nat) (t : Tile) : (h.fillQ n seq t).hartid = h.hartid := rfl
@[simp] theorem Hart.fillQ_vdid (h : Hart) (n : Fin 4) (seq : Nat) (t : Tile) : (h.fillQ n seq t).vdid = h.vdid := rfl
@[simp] theorem Hart.fillQ_member (h : Hart) (n : Fin 4) (seq : Nat) (t : Tile) : (h.fillQ n seq t).member = h.member := rfl
@[simp] theorem Hart.fillQ_status (h : Hart) (n : Fin 4) (seq : Nat) (t : Tile) : (h.fillQ n seq t).status = h.status := rfl
@[simp] theorem Hart.fillQ_x (h : Hart) (n : Fin 4) (seq : Nat) (t : Tile) : (h.fillQ n seq t).x = h.x := rfl
@[simp] theorem Hart.fillQ_p (h : Hart) (n : Fin 4) (seq : Nat) (t : Tile) : (h.fillQ n seq t).p = h.p := rfl
@[simp] theorem Hart.fillQ_v (h : Hart) (n : Fin 4) (seq : Nat) (t : Tile) : (h.fillQ n seq t).v = h.v := rfl
@[simp] theorem Hart.fillQ_k (h : Hart) (n : Fin 4) (seq : Nat) (t : Tile) : (h.fillQ n seq t).k = h.k := rfl
@[simp] theorem Hart.fillQ_s (h : Hart) (n : Fin 4) (seq : Nat) (t : Tile) : (h.fillQ n seq t).s = h.s := rfl
@[simp] theorem Hart.fillQ_ma (h : Hart) (n : Fin 4) (seq : Nat) (t : Tile) : (h.fillQ n seq t).ma = h.ma := rfl
@[simp] theorem Hart.fillQ_empty (h : Hart) (n : Fin 4) (seq : Nat) (t : Tile) : (h.fillQ n seq t).empty = h.empty := rfl
@[simp] theorem Hart.fillQ_pc (h : Hart) (n : Fin 4) (seq : Nat) (t : Tile) : (h.fillQ n seq t).pc = h.pc := rfl
@[simp] theorem Hart.fillQ_prevPc (h : Hart) (n : Fin 4) (seq : Nat) (t : Tile) : (h.fillQ n seq t).prevPc = h.prevPc := rfl
@[simp] theorem Hart.fillQ_sr (h : Hart) (n : Fin 4) (seq : Nat) (t : Tile) : (h.fillQ n seq t).sr = h.sr := rfl
@[simp] theorem Hart.fillQ_st (h : Hart) (n : Fin 4) (seq : Nat) (t : Tile) : (h.fillQ n seq t).st = h.st := rfl
@[simp] theorem Hart.fillQ_fw (h : Hart) (n : Fin 4) (seq : Nat) (t : Tile) : (h.fillQ n seq t).fw = h.fw := rfl
@[simp] theorem Hart.fillQ_acfgDec (h : Hart) (n : Fin 4) (seq : Nat) (t : Tile) : (h.fillQ n seq t).acfgDec = h.acfgDec := rfl
@[simp] theorem Hart.fillQ_seq (h : Hart) (n : Fin 4) (seq : Nat) (t : Tile) : (h.fillQ n seq t).seq = h.seq := rfl
@[simp] theorem Hart.fillQ_results (h : Hart) (n : Fin 4) (seq : Nat) (t : Tile) : (h.fillQ n seq t).results = h.results := rfl
@[simp] theorem Hart.fillQ_pend (h : Hart) (n : Fin 4) (seq : Nat) (t : Tile) : (h.fillQ n seq t).pend = h.pend := rfl
@[simp] theorem Hart.fillQ_late (h : Hart) (n : Fin 4) (seq : Nat) (t : Tile) : (h.fillQ n seq t).late = h.late := rfl
@[simp] theorem Hart.fillQ_equeue (h : Hart) (n : Fin 4) (seq : Nat) (t : Tile) : (h.fillQ n seq t).equeue = h.equeue := rfl
@[simp] theorem Hart.fillQ_stalled (h : Hart) (n : Fin 4) (seq : Nat) (t : Tile) : (h.fillQ n seq t).stalled = h.stalled := rfl
@[simp] theorem Hart.fillQ_causes (h : Hart) (n : Fin 4) (seq : Nat) (t : Tile) : (h.fillQ n seq t).causes = h.causes := rfl
@[simp] theorem Hart.fillQ_preempt (h : Hart) (n : Fin 4) (seq : Nat) (t : Tile) : (h.fillQ n seq t).preempt = h.preempt := rfl
@[simp] theorem Hart.fillQ_monitor (h : Hart) (n : Fin 4) (seq : Nat) (t : Tile) : (h.fillQ n seq t).monitor = h.monitor := rfl
@[simp] theorem Hart.fillQ_wait (h : Hart) (n : Fin 4) (seq : Nat) (t : Tile) : (h.fillQ n seq t).wait = h.wait := rfl
@[simp] theorem Hart.fillQ_arrival (h : Hart) (n : Fin 4) (seq : Nat) (t : Tile) : (h.fillQ n seq t).arrival = h.arrival := rfl
@[simp] theorem Hart.fillQ_stepKind (h : Hart) (n : Fin 4) (seq : Nat) (t : Tile) : (h.fillQ n seq t).stepKind = h.stepKind := rfl
@[simp] theorem Hart.fillQ_homeOp (h : Hart) (n : Fin 4) (seq : Nat) (t : Tile) : (h.fillQ n seq t).homeOp = h.homeOp := rfl
@[simp] theorem Hart.fillQ_binds (h : Hart) (n : Fin 4) (seq : Nat) (t : Tile) : (h.fillQ n seq t).binds = h.binds := rfl
@[simp] theorem Hart.fillQ_tileIndex (h : Hart) (n : Fin 4) (seq : Nat) (t : Tile) : (h.fillQ n seq t).tileIndex = h.tileIndex := rfl
@[simp] theorem Hart.fillQ_taskDone (h : Hart) (n : Fin 4) (seq : Nat) (t : Tile) : (h.fillQ n seq t).taskDone = h.taskDone := rfl
@[simp] theorem Hart.fillQ_taskRec (h : Hart) (n : Fin 4) (seq : Nat) (t : Tile) : (h.fillQ n seq t).taskRec = h.taskRec := rfl
@[simp] theorem Hart.fillQ_ticks (h : Hart) (n : Fin 4) (seq : Nat) (t : Tile) : (h.fillQ n seq t).ticks = h.ticks := rfl
@[simp] theorem Hart.fillQ_dcause (h : Hart) (n : Fin 4) (seq : Nat) (t : Tile) : (h.fillQ n seq t).dcause = h.dcause := rfl
@[simp] theorem Hart.fillQ_undo (h : Hart) (n : Fin 4) (seq : Nat) (t : Tile) : (h.fillQ n seq t).undo = h.undo := rfl
@[simp] theorem Hart.fillQ_ahead (h : Hart) (n : Fin 4) (seq : Nat) (t : Tile) : (h.fillQ n seq t).ahead = h.ahead := rfl
@[simp] theorem Hart.fillQ_struck (h : Hart) (n : Fin 4) (seq : Nat) (t : Tile) : (h.fillQ n seq t).struck = h.struck := rfl
@[simp] theorem Hart.fillQ_cut (h : Hart) (n : Fin 4) (seq : Nat) (t : Tile) : (h.fillQ n seq t).cut = h.cut := rfl
@[simp] theorem Hart.fillQ_mid (h : Hart) (n : Fin 4) (seq : Nat) (t : Tile) : (h.fillQ n seq t).mid = h.mid := rfl
@[simp] theorem Hart.fillQ_decoded (h : Hart) (n : Fin 4) (seq : Nat) (t : Tile) : (h.fillQ n seq t).decoded = h.decoded := rfl
@[simp] theorem Hart.fillQ_onE (h : Hart) (n : Fin 4) (seq : Nat) (t : Tile) : (h.fillQ n seq t).onE = h.onE := rfl
@[simp] theorem Hart.put_place (h : Hart) (r : Reg) (v : RegVal) : (h.put r v).place = h.place := by
  cases r <;> cases v <;> simp [Hart.put]
@[simp] theorem Hart.put_ctx (h : Hart) (r : Reg) (v : RegVal) : (h.put r v).ctx = h.ctx := by
  cases r <;> cases v <;> simp [Hart.put]
@[simp] theorem Hart.put_gang (h : Hart) (r : Reg) (v : RegVal) : (h.put r v).gang = h.gang := by
  cases r <;> cases v <;> simp [Hart.put]
@[simp] theorem Hart.put_hartid (h : Hart) (r : Reg) (v : RegVal) : (h.put r v).hartid = h.hartid := by
  cases r <;> cases v <;> simp [Hart.put]
@[simp] theorem Hart.put_vdid (h : Hart) (r : Reg) (v : RegVal) : (h.put r v).vdid = h.vdid := by
  cases r <;> cases v <;> simp [Hart.put]
@[simp] theorem Hart.put_member (h : Hart) (r : Reg) (v : RegVal) : (h.put r v).member = h.member := by
  cases r <;> cases v <;> simp [Hart.put]
@[simp] theorem Hart.put_status (h : Hart) (r : Reg) (v : RegVal) : (h.put r v).status = h.status := by
  cases r <;> cases v <;> simp [Hart.put]
@[simp] theorem Hart.put_empty (h : Hart) (r : Reg) (v : RegVal) : (h.put r v).empty = h.empty := by
  cases r <;> cases v <;> simp [Hart.put]
@[simp] theorem Hart.put_pc (h : Hart) (r : Reg) (v : RegVal) : (h.put r v).pc = h.pc := by
  cases r <;> cases v <;> simp [Hart.put]
@[simp] theorem Hart.put_prevPc (h : Hart) (r : Reg) (v : RegVal) : (h.put r v).prevPc = h.prevPc := by
  cases r <;> cases v <;> simp [Hart.put]
@[simp] theorem Hart.put_st (h : Hart) (r : Reg) (v : RegVal) : (h.put r v).st = h.st := by
  cases r <;> cases v <;> simp [Hart.put]
@[simp] theorem Hart.put_fw (h : Hart) (r : Reg) (v : RegVal) : (h.put r v).fw = h.fw := by
  cases r <;> cases v <;> simp [Hart.put]
@[simp] theorem Hart.put_acfgDec (h : Hart) (r : Reg) (v : RegVal) : (h.put r v).acfgDec = h.acfgDec := by
  cases r <;> cases v <;> simp [Hart.put]
@[simp] theorem Hart.put_seq (h : Hart) (r : Reg) (v : RegVal) : (h.put r v).seq = h.seq := by
  cases r <;> cases v <;> simp [Hart.put]
@[simp] theorem Hart.put_results (h : Hart) (r : Reg) (v : RegVal) : (h.put r v).results = h.results := by
  cases r <;> cases v <;> simp [Hart.put]
@[simp] theorem Hart.put_pend (h : Hart) (r : Reg) (v : RegVal) : (h.put r v).pend = h.pend := by
  cases r <;> cases v <;> simp [Hart.put]
@[simp] theorem Hart.put_late (h : Hart) (r : Reg) (v : RegVal) : (h.put r v).late = h.late := by
  cases r <;> cases v <;> simp [Hart.put]
@[simp] theorem Hart.put_equeue (h : Hart) (r : Reg) (v : RegVal) : (h.put r v).equeue = h.equeue := by
  cases r <;> cases v <;> simp [Hart.put]
@[simp] theorem Hart.put_stalled (h : Hart) (r : Reg) (v : RegVal) : (h.put r v).stalled = h.stalled := by
  cases r <;> cases v <;> simp [Hart.put]
@[simp] theorem Hart.put_causes (h : Hart) (r : Reg) (v : RegVal) : (h.put r v).causes = h.causes := by
  cases r <;> cases v <;> simp [Hart.put]
@[simp] theorem Hart.put_preempt (h : Hart) (r : Reg) (v : RegVal) : (h.put r v).preempt = h.preempt := by
  cases r <;> cases v <;> simp [Hart.put]
@[simp] theorem Hart.put_monitor (h : Hart) (r : Reg) (v : RegVal) : (h.put r v).monitor = h.monitor := by
  cases r <;> cases v <;> simp [Hart.put]
@[simp] theorem Hart.put_wait (h : Hart) (r : Reg) (v : RegVal) : (h.put r v).wait = h.wait := by
  cases r <;> cases v <;> simp [Hart.put]
@[simp] theorem Hart.put_arrival (h : Hart) (r : Reg) (v : RegVal) : (h.put r v).arrival = h.arrival := by
  cases r <;> cases v <;> simp [Hart.put]
@[simp] theorem Hart.put_stepKind (h : Hart) (r : Reg) (v : RegVal) : (h.put r v).stepKind = h.stepKind := by
  cases r <;> cases v <;> simp [Hart.put]
@[simp] theorem Hart.put_homeOp (h : Hart) (r : Reg) (v : RegVal) : (h.put r v).homeOp = h.homeOp := by
  cases r <;> cases v <;> simp [Hart.put]
@[simp] theorem Hart.put_binds (h : Hart) (r : Reg) (v : RegVal) : (h.put r v).binds = h.binds := by
  cases r <;> cases v <;> simp [Hart.put]
@[simp] theorem Hart.put_tileIndex (h : Hart) (r : Reg) (v : RegVal) : (h.put r v).tileIndex = h.tileIndex := by
  cases r <;> cases v <;> simp [Hart.put]
@[simp] theorem Hart.put_taskDone (h : Hart) (r : Reg) (v : RegVal) : (h.put r v).taskDone = h.taskDone := by
  cases r <;> cases v <;> simp [Hart.put]
@[simp] theorem Hart.put_taskRec (h : Hart) (r : Reg) (v : RegVal) : (h.put r v).taskRec = h.taskRec := by
  cases r <;> cases v <;> simp [Hart.put]
@[simp] theorem Hart.put_ticks (h : Hart) (r : Reg) (v : RegVal) : (h.put r v).ticks = h.ticks := by
  cases r <;> cases v <;> simp [Hart.put]
@[simp] theorem Hart.put_dcause (h : Hart) (r : Reg) (v : RegVal) : (h.put r v).dcause = h.dcause := by
  cases r <;> cases v <;> simp [Hart.put]
@[simp] theorem Hart.put_undo (h : Hart) (r : Reg) (v : RegVal) : (h.put r v).undo = h.undo := by
  cases r <;> cases v <;> simp [Hart.put]
@[simp] theorem Hart.put_ahead (h : Hart) (r : Reg) (v : RegVal) : (h.put r v).ahead = h.ahead := by
  cases r <;> cases v <;> simp [Hart.put]
@[simp] theorem Hart.put_struck (h : Hart) (r : Reg) (v : RegVal) : (h.put r v).struck = h.struck.filter (· != r) := by
  cases r <;> cases v <;> simp [Hart.put]
@[simp] theorem Hart.put_cut (h : Hart) (r : Reg) (v : RegVal) : (h.put r v).cut = h.cut := by
  cases r <;> cases v <;> simp [Hart.put]
@[simp] theorem Hart.put_mid (h : Hart) (r : Reg) (v : RegVal) : (h.put r v).mid = h.mid := by
  cases r <;> cases v <;> simp [Hart.put]
@[simp] theorem Hart.put_decoded (h : Hart) (r : Reg) (v : RegVal) : (h.put r v).decoded = h.decoded := by
  cases r <;> cases v <;> simp [Hart.put]
@[simp] theorem Hart.put_onE (h : Hart) (r : Reg) (v : RegVal) : (h.put r v).onE = h.onE := by
  cases r <;> cases v <;> simp [Hart.put]
@[simp] theorem Hart.markEmpty_place (h : Hart) (r : Reg) (b : Bool) : (h.markEmpty r b).place = h.place := by
  cases r <;> simp only [Hart.markEmpty] <;> (try split) <;> rfl
@[simp] theorem Hart.markEmpty_ctx (h : Hart) (r : Reg) (b : Bool) : (h.markEmpty r b).ctx = h.ctx := by
  cases r <;> simp only [Hart.markEmpty] <;> (try split) <;> rfl
@[simp] theorem Hart.markEmpty_gang (h : Hart) (r : Reg) (b : Bool) : (h.markEmpty r b).gang = h.gang := by
  cases r <;> simp only [Hart.markEmpty] <;> (try split) <;> rfl
@[simp] theorem Hart.markEmpty_hartid (h : Hart) (r : Reg) (b : Bool) : (h.markEmpty r b).hartid = h.hartid := by
  cases r <;> simp only [Hart.markEmpty] <;> (try split) <;> rfl
@[simp] theorem Hart.markEmpty_vdid (h : Hart) (r : Reg) (b : Bool) : (h.markEmpty r b).vdid = h.vdid := by
  cases r <;> simp only [Hart.markEmpty] <;> (try split) <;> rfl
@[simp] theorem Hart.markEmpty_member (h : Hart) (r : Reg) (b : Bool) : (h.markEmpty r b).member = h.member := by
  cases r <;> simp only [Hart.markEmpty] <;> (try split) <;> rfl
@[simp] theorem Hart.markEmpty_status (h : Hart) (r : Reg) (b : Bool) : (h.markEmpty r b).status = h.status := by
  cases r <;> simp only [Hart.markEmpty] <;> (try split) <;> rfl
@[simp] theorem Hart.markEmpty_x (h : Hart) (r : Reg) (b : Bool) : (h.markEmpty r b).x = h.x := by
  cases r <;> simp only [Hart.markEmpty] <;> (try split) <;> rfl
@[simp] theorem Hart.markEmpty_p (h : Hart) (r : Reg) (b : Bool) : (h.markEmpty r b).p = h.p := by
  cases r <;> simp only [Hart.markEmpty] <;> (try split) <;> rfl
@[simp] theorem Hart.markEmpty_v (h : Hart) (r : Reg) (b : Bool) : (h.markEmpty r b).v = h.v := by
  cases r <;> simp only [Hart.markEmpty] <;> (try split) <;> rfl
@[simp] theorem Hart.markEmpty_k (h : Hart) (r : Reg) (b : Bool) : (h.markEmpty r b).k = h.k := by
  cases r <;> simp only [Hart.markEmpty] <;> (try split) <;> rfl
@[simp] theorem Hart.markEmpty_s (h : Hart) (r : Reg) (b : Bool) : (h.markEmpty r b).s = h.s := by
  cases r <;> simp only [Hart.markEmpty] <;> (try split) <;> rfl
@[simp] theorem Hart.markEmpty_ma (h : Hart) (r : Reg) (b : Bool) : (h.markEmpty r b).ma = h.ma := by
  cases r <;> simp only [Hart.markEmpty] <;> (try split) <;> rfl
@[simp] theorem Hart.markEmpty_q (h : Hart) (r : Reg) (b : Bool) : (h.markEmpty r b).q = h.q := by
  cases r <;> simp only [Hart.markEmpty] <;> (try split) <;> rfl
@[simp] theorem Hart.markEmpty_pc (h : Hart) (r : Reg) (b : Bool) : (h.markEmpty r b).pc = h.pc := by
  cases r <;> simp only [Hart.markEmpty] <;> (try split) <;> rfl
@[simp] theorem Hart.markEmpty_prevPc (h : Hart) (r : Reg) (b : Bool) : (h.markEmpty r b).prevPc = h.prevPc := by
  cases r <;> simp only [Hart.markEmpty] <;> (try split) <;> rfl
@[simp] theorem Hart.markEmpty_sr (h : Hart) (r : Reg) (b : Bool) : (h.markEmpty r b).sr = h.sr := by
  cases r <;> simp only [Hart.markEmpty] <;> (try split) <;> rfl
@[simp] theorem Hart.markEmpty_st (h : Hart) (r : Reg) (b : Bool) : (h.markEmpty r b).st = h.st := by
  cases r <;> simp only [Hart.markEmpty] <;> (try split) <;> rfl
@[simp] theorem Hart.markEmpty_fw (h : Hart) (r : Reg) (b : Bool) : (h.markEmpty r b).fw = h.fw := by
  cases r <;> simp only [Hart.markEmpty] <;> (try split) <;> rfl
@[simp] theorem Hart.markEmpty_acfgDec (h : Hart) (r : Reg) (b : Bool) : (h.markEmpty r b).acfgDec = h.acfgDec := by
  cases r <;> simp only [Hart.markEmpty] <;> (try split) <;> rfl
@[simp] theorem Hart.markEmpty_seq (h : Hart) (r : Reg) (b : Bool) : (h.markEmpty r b).seq = h.seq := by
  cases r <;> simp only [Hart.markEmpty] <;> (try split) <;> rfl
@[simp] theorem Hart.markEmpty_results (h : Hart) (r : Reg) (b : Bool) : (h.markEmpty r b).results = h.results := by
  cases r <;> simp only [Hart.markEmpty] <;> (try split) <;> rfl
@[simp] theorem Hart.markEmpty_pend (h : Hart) (r : Reg) (b : Bool) : (h.markEmpty r b).pend = h.pend := by
  cases r <;> simp only [Hart.markEmpty] <;> (try split) <;> rfl
@[simp] theorem Hart.markEmpty_late (h : Hart) (r : Reg) (b : Bool) : (h.markEmpty r b).late = h.late := by
  cases r <;> simp only [Hart.markEmpty] <;> (try split) <;> rfl
@[simp] theorem Hart.markEmpty_equeue (h : Hart) (r : Reg) (b : Bool) : (h.markEmpty r b).equeue = h.equeue := by
  cases r <;> simp only [Hart.markEmpty] <;> (try split) <;> rfl
@[simp] theorem Hart.markEmpty_waiting (h : Hart) (r : Reg) (b : Bool) : (h.markEmpty r b).waiting = h.waiting := by
  cases r <;> simp only [Hart.markEmpty] <;> (try split) <;> rfl
@[simp] theorem Hart.markEmpty_stalled (h : Hart) (r : Reg) (b : Bool) : (h.markEmpty r b).stalled = h.stalled := by
  cases r <;> simp only [Hart.markEmpty] <;> (try split) <;> rfl
@[simp] theorem Hart.markEmpty_causes (h : Hart) (r : Reg) (b : Bool) : (h.markEmpty r b).causes = h.causes := by
  cases r <;> simp only [Hart.markEmpty] <;> (try split) <;> rfl
@[simp] theorem Hart.markEmpty_preempt (h : Hart) (r : Reg) (b : Bool) : (h.markEmpty r b).preempt = h.preempt := by
  cases r <;> simp only [Hart.markEmpty] <;> (try split) <;> rfl
@[simp] theorem Hart.markEmpty_monitor (h : Hart) (r : Reg) (b : Bool) : (h.markEmpty r b).monitor = h.monitor := by
  cases r <;> simp only [Hart.markEmpty] <;> (try split) <;> rfl
@[simp] theorem Hart.markEmpty_wait (h : Hart) (r : Reg) (b : Bool) : (h.markEmpty r b).wait = h.wait := by
  cases r <;> simp only [Hart.markEmpty] <;> (try split) <;> rfl
@[simp] theorem Hart.markEmpty_arrival (h : Hart) (r : Reg) (b : Bool) : (h.markEmpty r b).arrival = h.arrival := by
  cases r <;> simp only [Hart.markEmpty] <;> (try split) <;> rfl
@[simp] theorem Hart.markEmpty_stepKind (h : Hart) (r : Reg) (b : Bool) : (h.markEmpty r b).stepKind = h.stepKind := by
  cases r <;> simp only [Hart.markEmpty] <;> (try split) <;> rfl
@[simp] theorem Hart.markEmpty_homeOp (h : Hart) (r : Reg) (b : Bool) : (h.markEmpty r b).homeOp = h.homeOp := by
  cases r <;> simp only [Hart.markEmpty] <;> (try split) <;> rfl
@[simp] theorem Hart.markEmpty_binds (h : Hart) (r : Reg) (b : Bool) : (h.markEmpty r b).binds = h.binds := by
  cases r <;> simp only [Hart.markEmpty] <;> (try split) <;> rfl
@[simp] theorem Hart.markEmpty_tileIndex (h : Hart) (r : Reg) (b : Bool) : (h.markEmpty r b).tileIndex = h.tileIndex := by
  cases r <;> simp only [Hart.markEmpty] <;> (try split) <;> rfl
@[simp] theorem Hart.markEmpty_taskDone (h : Hart) (r : Reg) (b : Bool) : (h.markEmpty r b).taskDone = h.taskDone := by
  cases r <;> simp only [Hart.markEmpty] <;> (try split) <;> rfl
@[simp] theorem Hart.markEmpty_taskRec (h : Hart) (r : Reg) (b : Bool) : (h.markEmpty r b).taskRec = h.taskRec := by
  cases r <;> simp only [Hart.markEmpty] <;> (try split) <;> rfl
@[simp] theorem Hart.markEmpty_ticks (h : Hart) (r : Reg) (b : Bool) : (h.markEmpty r b).ticks = h.ticks := by
  cases r <;> simp only [Hart.markEmpty] <;> (try split) <;> rfl
@[simp] theorem Hart.markEmpty_dcause (h : Hart) (r : Reg) (b : Bool) : (h.markEmpty r b).dcause = h.dcause := by
  cases r <;> simp only [Hart.markEmpty] <;> (try split) <;> rfl
@[simp] theorem Hart.markEmpty_undo (h : Hart) (r : Reg) (b : Bool) : (h.markEmpty r b).undo = h.undo := by
  cases r <;> simp only [Hart.markEmpty] <;> (try split) <;> rfl
@[simp] theorem Hart.markEmpty_ahead (h : Hart) (r : Reg) (b : Bool) : (h.markEmpty r b).ahead = h.ahead := by
  cases r <;> simp only [Hart.markEmpty] <;> (try split) <;> rfl
@[simp] theorem Hart.markEmpty_struck (h : Hart) (r : Reg) (b : Bool) : (h.markEmpty r b).struck = h.struck := by
  cases r <;> simp only [Hart.markEmpty] <;> (try split) <;> rfl
@[simp] theorem Hart.markEmpty_cut (h : Hart) (r : Reg) (b : Bool) : (h.markEmpty r b).cut = h.cut := by
  cases r <;> simp only [Hart.markEmpty] <;> (try split) <;> rfl
@[simp] theorem Hart.markEmpty_mid (h : Hart) (r : Reg) (b : Bool) : (h.markEmpty r b).mid = h.mid := by
  cases r <;> simp only [Hart.markEmpty] <;> (try split) <;> rfl
@[simp] theorem Hart.markEmpty_decoded (h : Hart) (r : Reg) (b : Bool) : (h.markEmpty r b).decoded = h.decoded := by
  cases r <;> simp only [Hart.markEmpty] <;> (try split) <;> rfl
@[simp] theorem Hart.markEmpty_onE (h : Hart) (r : Reg) (b : Bool) : (h.markEmpty r b).onE = h.onE := by
  cases r <;> simp only [Hart.markEmpty] <;> (try split) <;> rfl

/-! Completing an instruction. -/

@[simp] theorem Hart.retire_place (h : Hart) : h.retire.place = h.place := rfl
@[simp] theorem Hart.retireTo_place (h : Hart) (t : BitVec 55) : (h.retireTo t).place = h.place := rfl
@[simp] theorem Hart.retire_ctx (h : Hart) : h.retire.ctx = h.ctx := rfl
@[simp] theorem Hart.retireTo_ctx (h : Hart) (t : BitVec 55) : (h.retireTo t).ctx = h.ctx := rfl
@[simp] theorem Hart.retire_gang (h : Hart) : h.retire.gang = h.gang := rfl
@[simp] theorem Hart.retireTo_gang (h : Hart) (t : BitVec 55) : (h.retireTo t).gang = h.gang := rfl
@[simp] theorem Hart.retire_hartid (h : Hart) : h.retire.hartid = h.hartid := rfl
@[simp] theorem Hart.retireTo_hartid (h : Hart) (t : BitVec 55) : (h.retireTo t).hartid = h.hartid := rfl
@[simp] theorem Hart.retire_vdid (h : Hart) : h.retire.vdid = h.vdid := rfl
@[simp] theorem Hart.retireTo_vdid (h : Hart) (t : BitVec 55) : (h.retireTo t).vdid = h.vdid := rfl
@[simp] theorem Hart.retire_member (h : Hart) : h.retire.member = h.member := rfl
@[simp] theorem Hart.retireTo_member (h : Hart) (t : BitVec 55) : (h.retireTo t).member = h.member := rfl
@[simp] theorem Hart.retire_status (h : Hart) : h.retire.status = h.status := rfl
@[simp] theorem Hart.retireTo_status (h : Hart) (t : BitVec 55) : (h.retireTo t).status = h.status := rfl
@[simp] theorem Hart.retire_x (h : Hart) : h.retire.x = h.x := rfl
@[simp] theorem Hart.retireTo_x (h : Hart) (t : BitVec 55) : (h.retireTo t).x = h.x := rfl
@[simp] theorem Hart.retire_p (h : Hart) : h.retire.p = h.p := rfl
@[simp] theorem Hart.retireTo_p (h : Hart) (t : BitVec 55) : (h.retireTo t).p = h.p := rfl
@[simp] theorem Hart.retire_v (h : Hart) : h.retire.v = h.v := rfl
@[simp] theorem Hart.retireTo_v (h : Hart) (t : BitVec 55) : (h.retireTo t).v = h.v := rfl
@[simp] theorem Hart.retire_k (h : Hart) : h.retire.k = h.k := rfl
@[simp] theorem Hart.retireTo_k (h : Hart) (t : BitVec 55) : (h.retireTo t).k = h.k := rfl
@[simp] theorem Hart.retire_s (h : Hart) : h.retire.s = h.s := rfl
@[simp] theorem Hart.retireTo_s (h : Hart) (t : BitVec 55) : (h.retireTo t).s = h.s := rfl
@[simp] theorem Hart.retire_ma (h : Hart) : h.retire.ma = h.ma := rfl
@[simp] theorem Hart.retireTo_ma (h : Hart) (t : BitVec 55) : (h.retireTo t).ma = h.ma := rfl
@[simp] theorem Hart.retire_q (h : Hart) : h.retire.q = h.q := rfl
@[simp] theorem Hart.retireTo_q (h : Hart) (t : BitVec 55) : (h.retireTo t).q = h.q := rfl
@[simp] theorem Hart.retire_empty (h : Hart) : h.retire.empty = h.empty := rfl
@[simp] theorem Hart.retireTo_empty (h : Hart) (t : BitVec 55) : (h.retireTo t).empty = h.empty := rfl
@[simp] theorem Hart.retire_st (h : Hart) : h.retire.st = h.st := rfl
@[simp] theorem Hart.retireTo_st (h : Hart) (t : BitVec 55) : (h.retireTo t).st = h.st := rfl
@[simp] theorem Hart.retire_fw (h : Hart) : h.retire.fw = h.fw := rfl
@[simp] theorem Hart.retireTo_fw (h : Hart) (t : BitVec 55) : (h.retireTo t).fw = h.fw := rfl
@[simp] theorem Hart.retire_acfgDec (h : Hart) : h.retire.acfgDec = h.acfgDec := rfl
@[simp] theorem Hart.retireTo_acfgDec (h : Hart) (t : BitVec 55) : (h.retireTo t).acfgDec = h.acfgDec := rfl
@[simp] theorem Hart.retire_seq (h : Hart) : h.retire.seq = h.seq := rfl
@[simp] theorem Hart.retireTo_seq (h : Hart) (t : BitVec 55) : (h.retireTo t).seq = h.seq := rfl
@[simp] theorem Hart.retire_results (h : Hart) : h.retire.results = h.results := rfl
@[simp] theorem Hart.retireTo_results (h : Hart) (t : BitVec 55) : (h.retireTo t).results = h.results := rfl
@[simp] theorem Hart.retire_pend (h : Hart) : h.retire.pend = h.pend := rfl
@[simp] theorem Hart.retireTo_pend (h : Hart) (t : BitVec 55) : (h.retireTo t).pend = h.pend := rfl
@[simp] theorem Hart.retire_late (h : Hart) : h.retire.late = h.late := rfl
@[simp] theorem Hart.retireTo_late (h : Hart) (t : BitVec 55) : (h.retireTo t).late = h.late := rfl
@[simp] theorem Hart.retire_equeue (h : Hart) : h.retire.equeue = h.equeue := rfl
@[simp] theorem Hart.retireTo_equeue (h : Hart) (t : BitVec 55) : (h.retireTo t).equeue = h.equeue := rfl
@[simp] theorem Hart.retire_waiting (h : Hart) : h.retire.waiting = h.waiting := rfl
@[simp] theorem Hart.retireTo_waiting (h : Hart) (t : BitVec 55) : (h.retireTo t).waiting = h.waiting := rfl
@[simp] theorem Hart.retire_stalled (h : Hart) : h.retire.stalled = h.stalled := rfl
@[simp] theorem Hart.retireTo_stalled (h : Hart) (t : BitVec 55) : (h.retireTo t).stalled = h.stalled := rfl
@[simp] theorem Hart.retire_causes (h : Hart) : h.retire.causes = h.causes := rfl
@[simp] theorem Hart.retireTo_causes (h : Hart) (t : BitVec 55) : (h.retireTo t).causes = h.causes := rfl
@[simp] theorem Hart.retire_preempt (h : Hart) : h.retire.preempt = h.preempt := rfl
@[simp] theorem Hart.retireTo_preempt (h : Hart) (t : BitVec 55) : (h.retireTo t).preempt = h.preempt := rfl
@[simp] theorem Hart.retire_monitor (h : Hart) : h.retire.monitor = h.monitor := rfl
@[simp] theorem Hart.retireTo_monitor (h : Hart) (t : BitVec 55) : (h.retireTo t).monitor = h.monitor := rfl
@[simp] theorem Hart.retire_arrival (h : Hart) : h.retire.arrival = h.arrival := rfl
@[simp] theorem Hart.retireTo_arrival (h : Hart) (t : BitVec 55) : (h.retireTo t).arrival = h.arrival := rfl
@[simp] theorem Hart.retire_stepKind (h : Hart) : h.retire.stepKind = h.stepKind := rfl
@[simp] theorem Hart.retireTo_stepKind (h : Hart) (t : BitVec 55) : (h.retireTo t).stepKind = h.stepKind := rfl
@[simp] theorem Hart.retire_homeOp (h : Hart) : h.retire.homeOp = h.homeOp := rfl
@[simp] theorem Hart.retireTo_homeOp (h : Hart) (t : BitVec 55) : (h.retireTo t).homeOp = h.homeOp := rfl
@[simp] theorem Hart.retire_binds (h : Hart) : h.retire.binds = h.binds := rfl
@[simp] theorem Hart.retireTo_binds (h : Hart) (t : BitVec 55) : (h.retireTo t).binds = h.binds := rfl
@[simp] theorem Hart.retire_tileIndex (h : Hart) : h.retire.tileIndex = h.tileIndex := rfl
@[simp] theorem Hart.retireTo_tileIndex (h : Hart) (t : BitVec 55) : (h.retireTo t).tileIndex = h.tileIndex := rfl
@[simp] theorem Hart.retire_taskDone (h : Hart) : h.retire.taskDone = h.taskDone := rfl
@[simp] theorem Hart.retireTo_taskDone (h : Hart) (t : BitVec 55) : (h.retireTo t).taskDone = h.taskDone := rfl
@[simp] theorem Hart.retire_taskRec (h : Hart) : h.retire.taskRec = h.taskRec := rfl
@[simp] theorem Hart.retireTo_taskRec (h : Hart) (t : BitVec 55) : (h.retireTo t).taskRec = h.taskRec := rfl
@[simp] theorem Hart.retire_ticks (h : Hart) : h.retire.ticks = h.ticks := rfl
@[simp] theorem Hart.retireTo_ticks (h : Hart) (t : BitVec 55) : (h.retireTo t).ticks = h.ticks := rfl
@[simp] theorem Hart.retire_dcause (h : Hart) : h.retire.dcause = h.dcause := rfl
@[simp] theorem Hart.retire_undo (h : Hart) : h.retire.undo = h.undo := rfl
@[simp] theorem Hart.retire_ahead (h : Hart) : h.retire.ahead = h.ahead := rfl
@[simp] theorem Hart.retireTo_dcause (h : Hart) (t : BitVec 55) : (h.retireTo t).dcause = h.dcause := rfl
@[simp] theorem Hart.retireTo_undo (h : Hart) (t : BitVec 55) : (h.retireTo t).undo = h.undo := rfl
@[simp] theorem Hart.retireTo_ahead (h : Hart) (t : BitVec 55) : (h.retireTo t).ahead = h.ahead := rfl
@[simp] theorem Hart.retire_struck (h : Hart) : h.retire.struck = h.struck := rfl
@[simp] theorem Hart.retireTo_struck (h : Hart) (t : BitVec 55) : (h.retireTo t).struck = h.struck := rfl
@[simp] theorem Hart.retire_cut (h : Hart) : h.retire.cut = h.cut := rfl
@[simp] theorem Hart.retireTo_cut (h : Hart) (t : BitVec 55) : (h.retireTo t).cut = h.cut := rfl
@[simp] theorem Hart.retire_decoded (h : Hart) : h.retire.decoded = h.decoded := rfl
@[simp] theorem Hart.retireTo_decoded (h : Hart) (t : BitVec 55) : (h.retireTo t).decoded = h.decoded := rfl
@[simp] theorem Hart.retire_onE (h : Hart) : h.retire.onE = h.onE := rfl
@[simp] theorem Hart.retireTo_onE (h : Hart) (t : BitVec 55) : (h.retireTo t).onE = h.onE := rfl

end Sys2Proof.Machine
end

