-- ==== Sys2Proof/Laws/Issue.lean ====
section
/-! SUPPORT. Harts by index, and what `issue` does in a state in which nothing delays the instruction. -/
namespace Sys2Proof.Machine

@[simp] theorem updAt_length {α : Type} (l : List α) (n : Nat) (f : α → α) : (updAt l n f).length = l.length := by
  induction l generalizing n with
  | nil => rfl
  | cons a r ih => cases n <;> simp [updAt, ih]

theorem updAt_getD {α : Type} (l : List α) (n : Nat) (f : α → α) (d : α) (h : n < l.length) :
    (updAt l n f).getD n d = f (l.getD n d) := by
  induction l generalizing n with
  | nil => simp at h
  | cons a r ih =>
    cases n with
    | zero => rfl
    | succ k => simpa [updAt] using ih k (by simpa using h)

theorem updAt_getD_ne {α : Type} (l : List α) (n m : Nat) (f : α → α) (d : α) (h : n ≠ m) :
    (updAt l n f).getD m d = l.getD m d := by
  induction l generalizing n m with
  | nil => rfl
  | cons a r ih => cases n <;> cases m <;> simp_all [updAt]

theorem updAt_updAt {α : Type} (l : List α) (n : Nat) (f g : α → α) :
    updAt (updAt l n f) n g = updAt l n (fun a => g (f a)) := by
  induction l generalizing n with
  | nil => rfl
  | cons a r ih => cases n <;> simp [updAt, ih]

@[simp] theorem State.modHartAt_length (s : State) (n : Nat) (g : Hart → Hart) :
    (s.modHartAt n g).harts.length = s.harts.length := updAt_length _ _ _
@[simp] theorem State.modHart_length (s : State) (g : Hart → Hart) : (s.modHart g).harts.length = s.harts.length :=
  updAt_length _ _ _

/-- The hart that was changed. -/
theorem State.hart_modHart (s : State) (g : Hart → Hart) (h : s.cur < s.harts.length) : (s.modHart g).hart = g s.hart :=
  updAt_getD _ _ _ _ h
/-- Every other hart stands as it was. -/
theorem State.hartAt_modHart_ne (s : State) (n : Nat) (g : Hart → Hart) (h : s.cur ≠ n) :
    (s.modHart g).hartAt n = s.hartAt n := updAt_getD_ne _ _ _ _ _ h
/-- Two changes of the current hart are one. -/
theorem State.modHart_modHart (s : State) (f g : Hart → Hart) : (s.modHart f).modHart g = s.modHart fun h => g (f h) := by
  simp [State.modHart, State.modHartAt, updAt_updAt]

theorem updAt_id {α : Type} (l : List α) (n : Nat) (f : α → α) (d : α) (h : f (l.getD n d) = l.getD n d) :
    updAt l n f = l := by
  induction l generalizing n with
  | nil => rfl
  | cons a r ih =>
    cases n with
    | zero => simpa [updAt] using h
    | succ k => simpa [updAt] using ih k (by simpa using h)
/-- A change that leaves the current hart as it is changes nothing. -/
theorem State.modHart_self (s : State) (f : Hart → Hart) (h : f s.hart = s.hart) : s.modHart f = s := by
  show { s with harts := updAt s.harts s.cur f } = s
  rw [updAt_id _ _ _ _ h]
/-- Changes that agree on the current hart are the same change. -/
theorem State.modHart_congr (s : State) (f g : Hart → Hart) (h : f s.hart = g s.hart) : s.modHart f = s.modHart g := by
  have key : ∀ (l : List Hart) (n : Nat) (d : Hart), f (l.getD n d) = g (l.getD n d) → updAt l n f = updAt l n g := by
    intro l
    induction l with
    | nil => intros; rfl
    | cons a r ih =>
      intro n d hh
      cases n with
      | zero => simpa [updAt] using hh
      | succ k => simpa [updAt] using ih k d (by simpa using hh)
  show { s with harts := _ } = { s with harts := _ }
  rw [key _ _ _ h]

/-! Issue. -/

theorem mem_of_filter {α : Type} {p : α → Bool} {l : List α} {a : α} (h : a ∈ l.filter p) : a ∈ l := (List.mem_filter.1 h).1

theorem settle_full (s : State) (n : Nat) (r : Reg) (h : (s.hartAt n).isEmpty r = false) : s.settle n r = s := by
  simp [State.settle, h]
theorem settle_all (s : State) (n : Nat) (l : List Reg) (h : ∀ r ∈ l, (s.hartAt n).isEmpty r = false) :
    l.foldl (fun s r => s.settle n r) s = s := by
  induction l with
  | nil => rfl
  | cons r l ih =>
    rw [List.foldl_cons, settle_full s n r (h r (by simp))]
    exact ih fun q hq => h q (by simp [hq])
theorem foldl_settle (s : State) (l : List Reg) (h : ∀ r ∈ l, s.hart.isEmpty r = false) :
    l.foldl (fun s r => s.settle s.cur r) s = s := by
  induction l with
  | nil => rfl
  | cons r l ih =>
    rw [List.foldl_cons, settle_full s s.cur r (h r (by simp))]
    exact ih fun q hq => h q (by simp [hq])

@[simp] theorem popLate_nil (h : Hart) (hl : h.late = []) : h.popLate = (false, h) := by simp [Hart.popLate, hl]
/-- With nothing late, a result is written at once. -/
theorem produce_put (h : Hart) (r : Reg) (v : RegVal) (hl : h.late = []) : h.produce r v = h.put r v := by
  simp [Hart.produce, popLate_nil h hl]

theorem queueCheck_resumes (h : Hart) (f : Fields) (b : Bool) (hq : queueCheck h f false = none) :
    queueCheck h f b = none := by
  cases b with
  | false => exact hq
  | true =>
    revert hq
    cases hd : f.d <;> simp only [queueCheck, hd] <;> try exact id
    split <;> simp

/-- An instruction waits for its sources. -/
theorem source_waits {f : Fields} {also : List Reg} (o : Issue) {r : Reg} (h : r ∈ o.sources f) : r ∈ waitsFor f also := by
  simp only [Issue.sources, List.mem_filter, List.mem_cons] at h
  obtain ⟨rfl | rfl | h, -⟩ := h
  · simp [waitsFor]
  · simp [waitsFor]
  · split at h <;> simp_all [waitsFor]

namespace State.Clear
variable {s : State} {f : Fields} {also : List Reg}

theorem parity (c : s.Clear f also) (o : Issue) : parityFails s.hart f o = none := by simp [parityFails, c.sound]
theorem quiet (c : s.Clear f also) (l m : List Reg) : s.hart.hazard l m = false := by simp [Hart.hazard, c.drained]
theorem ready (c : s.Clear f also) {r : Reg} (h : r ∈ waitsFor f also) : s.hart.unready r = false := by
  simp [Hart.unready, c.full r h, c.drained]
theorem regEmpty_none (c : s.Clear f also) : regEmpty s.hart f = none := by
  have ha := c.ready (r := f.a) (by simp [waitsFor])
  have hb := c.ready (r := f.b) (by simp [waitsFor])
  have hc := c.ready (r := f.c) (by simp [waitsFor])
  simp [regEmpty, ha, hb, hc]
theorem runs (c : s.Clear f also) (o : Issue) : runBody f o s = finish f o (o.body s) := by
  simp [runBody, c.parity o, c.guard, c.sound]
end State.Clear

/-- With nothing on its way, a drain of the current hart's streams changes nothing. -/
theorem drainStreams_still {s : State} (m : Fin 4 → Bool) (h : s.still = true) : s.drainStreams s.cur m = s := by
  have hp : (s.hartAt s.cur).pend = [] := by simpa [State.still, State.hart] using h
  simp [State.drainStreams, hp, needed, State.performAll]
/-- With nothing on its way, nothing precedes an access. -/
theorem clearFor_still {s : State} (a : Access) (h : s.still = true) : s.clearFor s.cur a = s := by
  have hp : (s.hartAt s.cur).pend = [] := by simpa [State.still, State.hart] using h
  simp [State.clearFor, hp, precursors, needed, State.performAll]
theorem inStream_still {s : State} (n : Fin 4) (w : Bool) (h : s.still = true) : s.inStream n w = s := clearFor_still _ h
theorem drainAll_still {s : State} (h : s.still = true) : s.drainAll s.cur = s := drainStreams_still _ h

/-- What `issue` answers when nothing is in the way: the body's answer, finished. -/
theorem issue_clear {s : State} {f : Fields} (o : Issue) (c : s.Clear f o.also) (hi : o.illegal s = none)
    (hr : o.eside = true → s.hart.equeue < queueSize ∧ ∀ r ∈ o.reads, isScalar r = true → r ∈ waitsFor f o.also) : issue f o s = .next (finish f o (o.body s)) := by
  have hq := queueCheck_resumes _ _ o.resumesQ c.queues
  have hs : (waitsFor f o.also).foldl (fun s r => s.settle s.cur r) s = s := foldl_settle _ _ c.full
  simp only [issue, c.aside, hi, hq, c.regEmpty_none, Bool.false_eq_true, if_false]
  congr 1
  split
  · rename_i he
    have hq' : ¬ queueSize ≤ s.hart.equeue := Nat.not_le.2 (hr (by simp_all)).1
    have h1 : (o.scalars f).any s.hart.unready = false := by
      rw [List.any_eq_false]
      intro r hm
      simp only [Issue.scalars, List.mem_filter, List.mem_append] at hm
      have hw : r ∈ waitsFor f o.also := hm.1.elim (source_waits o) fun h => (hr (by simp_all)).2 r h hm.2
      simp [c.ready hw]
    have h2 : (waitsFor f o.also).any s.hart.isEmpty = false := by
      simpa using fun r hr => c.full r hr
    simp only [runFork, hs, h1, h2, c.drained, c.runs]
    simp [hq']
  · have hs' : ((waitsFor f o.also).filter fun r => !isFixed r).foldl (fun s r => s.settle s.cur r) s = s :=
      foldl_settle _ _ fun r hr => c.full r (mem_of_filter hr)
    have h1 : ((waitsFor f o.also).filter fun r => !isFixed r).any s.hart.unready = false := by
      simp only [List.any_eq_false]
      intro r hr
      simp [c.ready (mem_of_filter hr)]
    have h2 : (o.eside && decide (queueSize ≤ s.hart.equeue)) = false := by
      cases he : o.eside with
      | false => rfl
      | true => simpa using (hr he).1
    simp only [runA, hs', h1, h2, c.quiet, c.runs]
    simp

/-- An A-side instruction whose effect is on its hart alone. -/
theorem issue_completes {s : State} {f : Fields} (o : Issue) (g : Hart → Hart) (c : s.Clear f o.also)
    (hi : o.illegal s = none) (he : o.eside = false) (hb : o.body s = .done (s.modHart g)) :
    issue f o s = .next (s.completes f g) := by
  rw [issue_clear o c hi (by simp [he]), hb]
  simp [finish, he, State.completes, State.modHart_modHart]
/-- An A-side instruction with any effect on the state. -/
theorem issue_after {s t : State} {f : Fields} (o : Issue) (c : s.Clear f o.also)
    (hi : o.illegal s = none) (he : o.eside = false) (hb : o.body s = .done t) : issue f o s = .next (t.after f) := by
  rw [issue_clear o c hi (by simp [he]), hb]
  simp [finish, he, State.after]
/-- An instruction that raises a cause. -/
theorem issue_traps {s : State} {f : Fields} (o : Issue) (c : s.Clear f o.also) (hi : o.illegal s = none)
    (he : o.eside = true → s.hart.equeue < queueSize ∧ ∀ r ∈ o.reads, isScalar r = true → r ∈ waitsFor f o.also) (t : State) (k : Nat) (v : Word) (e : Nat) (hb : o.body s = .trap t k v e) :
    issue f o s = .next (trapOf t o.wholly k v e) := by
  rw [issue_clear o c hi he, hb]; rfl
/-- An E-side instruction whose effect is on its hart alone. -/
theorem issue_forks {s : State} {f : Fields} (o : Issue) (g : Hart → Hart) (c : s.ClearFork f o.also)
    (hi : o.illegal s = none) (he : o.eside = true)
    (hr : ∀ r ∈ o.reads, isScalar r = true → r ∈ waitsFor f o.also) (hb : o.body s = .done (s.modHart g)) :
    issue f o s = .next (s.forks f g) := by
  rw [issue_clear o c.toClear hi (fun _ => ⟨c.room, hr⟩), hb]
  simp [finish, he, State.forks]

end Sys2Proof.Machine
end

