-- ==== Sys2Proof/Laws/Eside.lean ====
section
/-! SUPPORT. What the E-side operations do in a state in which nothing delays the instruction. -/
namespace Sys2Proof.Machine

/-- Effects that agree on the current hart fork the same instruction. -/
theorem forks_congr (s : State) (f : Fields) (g g' : Hart → Hart) (h : g s.hart = g' s.hart) : s.forks f g = s.forks f g' := by
  unfold State.forks; rw [State.modHart_congr _ _ _ h]
/-- Effects that agree on the current hart complete the same instruction. -/
theorem completes_congr (s : State) (f : Fields) (g g' : Hart → Hart) (h : g s.hart = g' s.hart) :
    s.completes f g = s.completes f g' := by
  unfold State.completes; exact State.modHart_congr _ _ _ (by rw [h])
@[simp] theorem raise_late (h : Hart) (fl : Flags) : (h.raise fl).late = h.late := rfl

/-- An E-side operation whose registers are full and whose check passes completes at its fork with its effect. -/
theorem esideOp_forks {long : Bool} {w rd : List Reg} {f : Fields} {chk : Geom → Option Illegal} {also : Hart → List Reg}
    {body : Hart → Geom → Hart} {s : State} {g : Hart → Hart} (c : s.ClearFork f (also s.hart))
    (hr : ∀ r ∈ rd, isScalar r = true → r ∈ waitsFor f (also s.hart)) (hi : chk s.hart.geom = none)
    (h : body s.hart s.hart.geom = g s.hart) : esideOp long w rd f chk also body s = .next (s.forks f g) := by
  unfold esideOp
  rw [issue_forks _ (fun h => body h h.geom) c hi rfl hr rfl, forks_congr s f _ g h]

/-- A destination that a mask merges is no scalar. -/
theorem mergeReads_waits (f : Fields) (also : List Reg) : ∀ r ∈ mergeReads f, isScalar r = true → r ∈ waitsFor f also := by
  intro r h hs
  simp only [mergeReads] at h
  split at h <;> simp_all

/-- A sweep with nothing late writes its destination at once. -/
theorem sweepBody_pass (f : Fields) (imm long : Bool) (op : Geom → Nat → Nat → Nat → Nat → Nat × Flags) (h : Hart)
    (hl : h.late = []) : sweepBody f imm long op h h.geom =
      let r := pass (h.activeCells f h.geom) (tileOff h.geom.sew) h.geom.sew
        (fun p => op h.geom (elemBits (h.tr f.a).toNat h.geom.sew p.r p.c) (h.elemB f imm h.geom p)
          (elemBits (h.tr f.c).toNat h.geom.sew p.r p.c) (elemBits (h.tr f.d).toNat h.geom.sew p.r p.c)) (h.tr f.d).toNat
      (h.raise r.2.1).putTile f.d r.1 r.2.2 := by
  simp only [sweepBody]
  split
  · simp_all [produce_put, Hart.putTile]
  · rfl

end Sys2Proof.Machine
end

