-- ==== Sys2Proof/Laws/Mem.lean ====
section
/-! SUPPORT. The canonical form of memory, the laws of its reads and writes, and that each memory operation keeps the form. -/
namespace Sys2Proof.Machine

theorem Mem.wfFrom_mono {lo lo' : Nat} (h : lo' ≤ lo) (m : List Host.Cell) : Mem.wfFrom lo m = true → Mem.wfFrom lo' m = true := by
  cases m with
  | nil => simp [Mem.wfFrom]
  | cons c r =>
    obtain ⟨a, v⟩ := c
    simp only [Mem.wfFrom, Bool.and_eq_true, decide_eq_true_eq]
    rintro ⟨⟨h1, h2⟩, h3⟩
    exact ⟨⟨by omega, h2⟩, h3⟩
/-- A write of one byte at or above the bound keeps the form. -/
theorem Mem.set_wfFrom (m : List Host.Cell) (a : Nat) (v : Byte) (lo : Nat) (ha : lo ≤ a) (h : Mem.wfFrom lo m = true) :
    Mem.wfFrom lo (Mem.set m a v) = true := by
  induction m generalizing lo with
  | nil => by_cases hv : v = unlisted <;> simp [Mem.set, Mem.wfFrom, hv, ha]
  | cons c r ih =>
    obtain ⟨b, w⟩ := c
    simp only [Mem.wfFrom, Bool.and_eq_true, decide_eq_true_eq] at h
    obtain ⟨⟨h1, h2⟩, h3⟩ := h
    simp only [Mem.set]
    split
    · split
      · simp [Mem.wfFrom, h1, h2, h3]
      · simp only [Mem.wfFrom, Bool.and_eq_true, decide_eq_true_eq]
        exact ⟨⟨ha, ‹_›⟩, ⟨by omega, h2⟩, h3⟩
    · split
      · split
        · exact Mem.wfFrom_mono (by omega) r h3
        · simp only [Mem.wfFrom, Bool.and_eq_true, decide_eq_true_eq]
          exact ⟨⟨ha, ‹_›⟩, by subst_vars; exact h3⟩
      · simp only [Mem.wfFrom, Bool.and_eq_true, decide_eq_true_eq]
        exact ⟨⟨h1, h2⟩, ih (b + 1) (by omega) h3⟩
theorem Mem.set_wf (m : List Host.Cell) (a : Nat) (v : Byte) (h : Mem.wf m = true) : Mem.wf (Mem.set m a v) = true :=
  Mem.set_wfFrom m a v 0 (Nat.zero_le a) h
theorem Mem.setN_wf (m : List Host.Cell) (a v n : Nat) (h : Mem.wf m = true) : Mem.wf (Mem.setN m a v n) = true := by
  induction n generalizing m a v with
  | zero => exact h
  | succ n ih => exact ih _ _ _ (Mem.set_wf _ _ _ h)
theorem Mem.filter_wfFrom (m : List Host.Cell) (p : Host.Cell → Bool) (lo : Nat) (h : Mem.wfFrom lo m = true) :
    Mem.wfFrom lo (m.filter p) = true := by
  induction m generalizing lo with
  | nil => rfl
  | cons c r ih =>
    obtain ⟨b, w⟩ := c
    simp only [Mem.wfFrom, Bool.and_eq_true, decide_eq_true_eq] at h
    obtain ⟨⟨h1, h2⟩, h3⟩ := h
    rw [List.filter_cons]
    split
    · simp [Mem.wfFrom, h1, h2, ih _ h3]
    · exact Mem.wfFrom_mono (by omega) _ (ih _ h3)
theorem Mem.filter_wf (m : List Host.Cell) (p : Host.Cell → Bool) (h : Mem.wf m = true) : Mem.wf (m.filter p) = true :=
  Mem.filter_wfFrom m p 0 h
theorem Mem.fold_wf (l m : List Host.Cell) (h : Mem.wf m = true) :
    Mem.wf (l.foldl (fun m x => Mem.set m x.1 x.2) m) = true := by
  induction l generalizing m with
  | nil => exact h
  | cons c r ih => exact ih _ (Mem.set_wf _ _ _ h)

/-- Below every address it lists a memory reads as unlisted. -/
theorem Mem.get_below (m : List Host.Cell) (lo a : Nat) (ha : a < lo) (h : Mem.wfFrom lo m = true) : Mem.get m a = unlisted := by
  cases m with
  | nil => rfl
  | cons c r =>
    obtain ⟨b, w⟩ := c
    simp only [Mem.wfFrom, Bool.and_eq_true, decide_eq_true_eq] at h
    have h1 : a ≠ b := by omega
    have h2 : a < b := by omega
    simp [Mem.get, h1, h2]
theorem Mem.get_setFrom (m : List Host.Cell) (a b : Nat) (v : Byte) (lo : Nat) (h : Mem.wfFrom lo m = true) :
    Mem.get (Mem.set m a v) b = if b = a then v else Mem.get m b := by
  induction m generalizing lo with
  | nil =>
    by_cases hv : v = unlisted
    · simp [Mem.set, Mem.get, hv]
    · simp only [Mem.set, hv, if_false, Mem.get]
      split <;> simp_all
  | cons c r ih =>
    obtain ⟨d, w⟩ := c
    simp only [Mem.wfFrom, Bool.and_eq_true, decide_eq_true_eq] at h
    obtain ⟨⟨h1, h2⟩, h3⟩ := h
    by_cases hlt : a < d
    · by_cases hv : v = unlisted
      · simp only [Mem.set, hlt, hv, if_true]
        by_cases hb : b = a
        · subst hb
          have : b ≠ d := by omega
          simp [Mem.get, hlt, this]
        · simp [hb]
      · simp only [Mem.set, hlt, hv, if_true, if_false]
        by_cases hb : b = a
        · simp [Mem.get, hb]
        · by_cases hba : b < a
          · have : b ≠ d := by omega
            have h' : b < d := by omega
            simp [Mem.get, hb, hba, this, h']
          · rw [Mem.get]
            simp [hb, hba]
    · by_cases heq : a = d
      · subst heq
        by_cases hv : v = unlisted
        · simp only [Mem.set, hlt, hv, if_true, if_false]
          by_cases hb : b = a
          · simp [hb, Mem.get_below r (a + 1) a (by omega) h3]
          · by_cases hba : b < a
            · simp [Mem.get, hb, hba, Mem.get_below r (a + 1) b (by omega) h3]
            · simp [Mem.get, hb, hba]
        · simp only [Mem.set, hlt, hv, if_true, if_false]
          by_cases hb : b = a <;> simp [Mem.get, hb]
      · simp only [Mem.set, hlt, heq, if_false]
        by_cases hb : b = d
        · simp [Mem.get, hb, Ne.symm heq]
        · by_cases hbd : b < d
          · have : ¬ b = a := by omega
            simp [Mem.get, hb, hbd, this]
          · simp only [Mem.get, hb, hbd, if_false]
            exact ih (d + 1) h3
/-- A byte reads back what was written to it, and every other byte keeps its value. -/
theorem Mem.get_set (m : List Host.Cell) (a b : Nat) (v : Byte) (h : Mem.wf m = true) :
    Mem.get (Mem.set m a v) b = if b = a then v else Mem.get m b := Mem.get_setFrom m a b v 0 h
/-- After a write of `n` bytes a byte outside them keeps its value. -/
theorem Mem.get_setN_ne (m : List Host.Cell) (a v n b : Nat) (h : Mem.wf m = true) (hb : b < a ∨ a + n ≤ b) :
    Mem.get (Mem.setN m a v n) b = Mem.get m b := by
  induction n generalizing m a v with
  | zero => rfl
  | succ n ih =>
    rw [Mem.setN, ih _ _ _ (Mem.set_wf _ _ _ h) (by omega), Mem.get_set _ _ _ _ h, if_neg (by omega)]
/-- A number reads back as it was written. -/
theorem Mem.getN_setN (m : List Host.Cell) (a v n : Nat) (h : Mem.wf m = true) :
    Mem.getN (Mem.setN m a v n) a n = v % 2 ^ (8 * n) := by
  induction n generalizing m a v with
  | zero => simp [Mem.getN, Nat.mod_one]
  | succ n ih =>
    have h' := Mem.set_wf m a (BitVec.ofNat 8 v) h
    rw [Mem.setN, Mem.getN, Mem.get_setN_ne _ _ _ _ _ h' (by omega), Mem.get_set _ _ _ _ h, ih _ _ _ h']
    have h2 : (2 : Nat) ^ (8 * (n + 1)) = 256 * 2 ^ (8 * n) := by rw [Nat.mul_add, Nat.pow_add]; omega
    simp only [if_true, BitVec.toNat_ofNat]
    rw [h2, Nat.mod_mul]
/-- The number at `n` bytes outside a write stays. -/
theorem Mem.getN_setN_ne (m : List Host.Cell) (a v n b k : Nat) (h : Mem.wf m = true) (hb : b + k ≤ a ∨ a + n ≤ b) :
    Mem.getN (Mem.setN m a v n) b k = Mem.getN m b k := by
  induction k generalizing b with
  | zero => rfl
  | succ k ih => rw [Mem.getN, Mem.getN, ih _ (by omega), Mem.get_setN_ne _ _ _ _ _ h (by omega)]

/-- Two memories in the form that read the same everywhere are one. -/
theorem Mem.ext_wf (m m' : List Host.Cell) (lo : Nat) (h : Mem.wfFrom lo m = true) (h' : Mem.wfFrom lo m' = true)
    (hg : ∀ a, Mem.get m a = Mem.get m' a) : m = m' := by
  induction m generalizing m' lo with
  | nil =>
    cases m' with
    | nil => rfl
    | cons c r =>
      obtain ⟨b, w⟩ := c
      simp only [Mem.wfFrom, Bool.and_eq_true, decide_eq_true_eq] at h'
      have := hg b
      simp [Mem.get] at this
      exact absurd this.symm h'.1.2
  | cons c r ih =>
    obtain ⟨b, w⟩ := c
    simp only [Mem.wfFrom, Bool.and_eq_true, decide_eq_true_eq] at h
    cases m' with
    | nil =>
      have := hg b
      simp [Mem.get] at this
      exact absurd this h.1.2
    | cons c' r' =>
      obtain ⟨b', w'⟩ := c'
      simp only [Mem.wfFrom, Bool.and_eq_true, decide_eq_true_eq] at h'
      have e1 := hg b
      have e2 := hg b'
      simp only [Mem.get, if_true] at e1 e2
      have hbb : b = b' := by
        rcases Nat.lt_trichotomy b b' with hl | hl | hl
        · rw [if_neg (by omega), if_pos hl] at e1; exact absurd e1 h.1.2
        · exact hl
        · rw [if_neg (by omega), if_pos hl] at e2; exact absurd e2.symm h'.1.2
      subst hbb
      simp only [if_true] at e1
      subst e1
      congr 1
      refine ih r' (b + 1) h.2 h'.2 fun a => ?_
      have := hg a
      simp only [Mem.get] at this
      by_cases ha : a = b
      · rw [ha, Mem.get_below r _ _ (by omega) h.2, Mem.get_below r' _ _ (by omega) h'.2]
      · by_cases hl : a < b
        · rw [Mem.get_below r _ _ (by omega) h.2, Mem.get_below r' _ _ (by omega) h'.2]
        · simpa [ha, hl] using this

/-! The operations of a state that change memory. -/

@[simp] theorem State.purge_mem (s : State) : s.purge.mem = s.mem := rfl
@[simp] theorem State.purge_veils (s : State) : s.purge.veils = s.veils := rfl
@[simp] theorem State.setChan_mem (s : State) (c : Channel) : (s.setChan c).mem = s.mem := rfl
@[simp] theorem State.setChan_veils (s : State) (c : Channel) : (s.setChan c).veils = s.veils := rfl
theorem State.claimSome_mem (s : State) (ag : Agent) (ch : ChannelId) (l : List Nat) :
    (s.claimSome ag ch l).mem = s.mem ∧ (s.claimSome ag ch l).veils = s.veils := by
  induction l generalizing s with
  | nil => exact ⟨rfl, rfl⟩
  | cons a r ih =>
    simp only [State.claimSome]
    split
    · exact ih _
    · exact ⟨rfl, rfl⟩
theorem foldl_keeps {α : Type} {P : State → Prop} {f : State → α → State} (l : List α) (s : State) (hs : P s)
    (hf : ∀ s a, P s → P (f s a)) : P (l.foldl f s) := by
  induction l generalizing s with
  | nil => exact hs
  | cons a r ih => exact ih _ (hf _ _ hs)
@[simp] theorem State.mark_mem (s : State) (ag : Agent) (d c : Nat) (op : EngOp) (w : Bool) (va n : Nat) :
    (s.mark ag d c op w va n).mem = s.mem := by unfold State.mark; split <;> rfl
@[simp] theorem State.mark_veils (s : State) (ag : Agent) (d c : Nat) (op : EngOp) (w : Bool) (va n : Nat) :
    (s.mark ag d c op w va n).veils = s.veils := by unfold State.mark; split <;> rfl
theorem State.markRecord_mem (s : State) (ag : Agent) (ch : ChannelId) (a : Nat) :
    (s.markRecord ag ch a).mem = s.mem ∧ (s.markRecord ag ch a).veils = s.veils := by
  unfold State.markRecord
  split
  · exact ⟨rfl, rfl⟩
  · split
    · exact ⟨rfl, rfl⟩
    · refine foldl_keeps (P := fun t : State => t.mem = s.mem ∧ t.veils = s.veils) _ _ ⟨rfl, rfl⟩ fun t u ht => ?_
      rcases u.via with _ | v <;> rcases u.src with _ | w <;> simpa using ht
@[simp] theorem State.settleStopped_mem (s : State) (id : ChannelId) : (s.settleStopped id).mem = s.mem := by
  simp only [State.settleStopped]; split <;> rfl
@[simp] theorem State.settleStopped_veils (s : State) (id : ChannelId) : (s.settleStopped id).veils = s.veils := by
  simp only [State.settleStopped]; split <;> rfl
theorem State.hand_mem (s : State) (ag : Agent) (id : ChannelId) (t : Nat) :
    (s.hand ag id t).mem = s.mem ∧ (s.hand ag id t).veils = s.veils := by
  simp only [State.hand, State.settleStopped_mem, State.settleStopped_veils]
  refine foldl_keeps (P := fun t : State => t.mem = s.mem ∧ t.veils = s.veils) _ _ ?_ fun u a hu => ?_
  · simp [State.claimSome_mem]
  · have h := State.markRecord_mem u ag id a
    exact ⟨h.1.trans hu.1, h.2.trans hu.2⟩
theorem State.fire_mem (s : State) (x : ChannelId × Arm) : (s.fire x).mem = s.mem ∧ (s.fire x).veils = s.veils := by
  simp only [State.fire, State.hand_mem, State.setChan_mem, State.setChan_veils, and_self]
theorem State.fires_mem (s : State) (l : List (ChannelId × Arm)) :
    (l.foldl State.fire s).mem = s.mem ∧ (l.foldl State.fire s).veils = s.veils := by
  induction l generalizing s with
  | nil => exact ⟨rfl, rfl⟩
  | cons x r ih =>
    have h := State.fire_mem s x
    rw [List.foldl_cons, (ih _).1, (ih _).2]
    exact h
/-- What a write leaves in memory. -/
theorem State.writeN_mem (s : State) (pa v n : Nat) : (s.writeN pa v n).mem = Mem.setN s.mem pa v n := by
  simp only [State.writeN, (State.fires_mem _ _).1]; rfl
theorem State.writeN_veils (s : State) (pa v n : Nat) : (s.writeN pa v n).veils = s.unveil pa n := by
  simp only [State.writeN, (State.fires_mem _ _).2]; rfl
theorem State.putN_wf (s : State) (pa v n : Nat) (h : Mem.wf s.mem = true) : Mem.wf (s.putN pa v n).mem = true :=
  Mem.setN_wf _ _ _ _ h
theorem State.writeN_wf (s : State) (pa v n : Nat) (h : Mem.wf s.mem = true) : Mem.wf (s.writeN pa v n).mem = true := by
  rw [State.writeN_mem]; exact Mem.setN_wf _ _ _ _ h
theorem State.writeBits_wf (s : State) (pa bit w v : Nat) (h : Mem.wf s.mem = true) :
    Mem.wf (s.writeBits pa bit w v).mem = true := State.writeN_wf _ _ _ _ h
theorem State.forget_wf (s : State) (pa n : Nat) (h : Mem.wf s.mem = true) : Mem.wf (s.forget pa n).mem = true :=
  Mem.filter_wf _ _ h
theorem placeWord_wf (s : State) (w : Nat) (h : Mem.wf s.mem = true) : Mem.wf (placeWord s w).mem = true := by
  simp only [placeWord]
  exact Mem.setN_wf _ _ _ _ (Mem.setN_wf _ _ _ _ (Mem.setN_wf _ _ _ _ h))

/-! Reads of a state, whose veils a write lifts off its bytes. -/

/-- The veil over a byte: its stamp, and the offset of the byte in what was written. -/
def veilAt (l : List Veil) (a : Nat) : Option (List Nat × Nat) :=
  (l.find? fun v => decide (v.lo ≤ a) && decide (a < v.hi)).map fun v => (v.stamp, v.off + (a - v.lo))
theorem veilAt_append (l m : List Veil) (a : Nat) : veilAt (l ++ m) a = (veilAt l a).or (veilAt m a) := by
  simp only [veilAt, List.find?_append]
  cases l.find? _ <;> simp
@[simp] theorem veilAt_nil (a : Nat) : veilAt [] a = none := rfl
theorem veilAt_one (v : Veil) (a : Nat) : veilAt [v] a = if v.lo ≤ a ∧ a < v.hi then some (v.stamp, v.off + (a - v.lo)) else none := by
  by_cases h : v.lo ≤ a ∧ a < v.hi
  · simp [veilAt, h]
  · have h' : (decide (v.lo ≤ a) && decide (a < v.hi)) = false := by simpa using h
    simp [veilAt, List.find?, h', h]
theorem veilAt_without (v : Veil) (lo hi a : Nat) (hl : ¬(lo ≤ a ∧ a < hi)) : veilAt (Veil.without lo hi v) a = veilAt [v] a := by
  unfold Veil.without
  split
  · rfl
  · rw [veilAt_append, veilAt_one]
    by_cases h3 : v.lo < lo <;> by_cases h4 : hi < v.hi <;> by_cases h1 : v.lo ≤ a <;> by_cases h2 : a < v.hi <;>
      by_cases h5 : a < lo <;> simp only [h1, h2, h3, h4, h5, veilAt_one, veilAt_nil, if_true, if_false, and_true, and_false,
        Option.or_none, Option.none_or, Option.some_or] <;> first | rfl | omega | skip
    all_goals (split <;> first | rfl | omega | (simp only [Option.some.injEq, Prod.mk.injEq, true_and]; omega))
theorem veilAt_without_none (v : Veil) (lo hi a : Nat) (h1 : lo ≤ a) (h2 : a < hi) : veilAt (Veil.without lo hi v) a = none := by
  unfold Veil.without
  split
  · rw [veilAt_one, if_neg (by omega)]
  · rw [veilAt_append]
    have e1 : ∀ w : Veil, veilAt (if v.lo < lo then [{ w with hi := lo }] else []) a = none := by
      intro w; split <;> simp [veilAt_one]; omega
    have e2 : ∀ w : Veil, veilAt (if hi < v.hi then [{ w with lo := hi }] else []) a = none := by
      intro w; split <;> simp [veilAt_one]; omega
    rw [e1 v, e2 { v with off := v.off + (hi - v.lo) }]; rfl
theorem veilAt_unveil (l : List Veil) (lo hi a : Nat) :
    veilAt (l.flatMap (Veil.without lo hi)) a = if lo ≤ a ∧ a < hi then none else veilAt l a := by
  induction l with
  | nil => simp [veilAt]
  | cons v r ih =>
    rw [List.flatMap_cons, veilAt_append, ih, show v :: r = [v] ++ r from rfl, veilAt_append]
    by_cases h : lo ≤ a ∧ a < hi
    · simp [veilAt_without_none v lo hi a h.1 h.2, h]
    · rw [veilAt_without v lo hi a h, if_neg h, if_neg h]
theorem State.readByte_eq (s : State) (a : Nat) :
    s.readByte a = match veilAt s.veils a with
      | some k => Config.freeByte k.1 k.2
      | none => Mem.get s.mem a := by
  unfold State.readByte veilAt
  cases s.veils.find? _ <;> rfl
/-- A byte outside a write reads as before, and one inside it as memory has it. -/
theorem State.readByte_writeN (s : State) (pa v n a : Nat) (h : Mem.wf s.mem = true) :
    (s.writeN pa v n).readByte a = if pa ≤ a ∧ a < pa + n then Mem.get (Mem.setN s.mem pa v n) a else s.readByte a := by
  rw [State.readByte_eq, State.readByte_eq, State.writeN_mem, State.writeN_veils, State.unveil, veilAt_unveil]
  by_cases hi : pa ≤ a ∧ a < pa + n
  · simp [hi]
  · simp only [hi, if_false]
    rw [Mem.get_setN_ne _ _ _ _ _ h (by omega)]
theorem State.readByte_writeN_ne (s : State) (pa v n a : Nat) (h : Mem.wf s.mem = true) (ha : a < pa ∨ pa + n ≤ a) :
    (s.writeN pa v n).readByte a = s.readByte a := by
  rw [State.readByte_writeN _ _ _ _ _ h, if_neg (by omega)]
theorem State.readVeiled_getN (s : State) (m : List Host.Cell) (pa n : Nat)
    (h : ∀ a, pa ≤ a → a < pa + n → s.readByte a = Mem.get m a) : s.readVeiled pa n = Mem.getN m pa n := by
  induction n generalizing pa with
  | zero => rfl
  | succ n ih =>
    rw [State.readVeiled, Mem.getN, h pa (by omega) (by omega), ih (pa + 1) fun a h1 h2 => h a (by omega) (by omega)]
theorem State.readN_eq (s : State) (pa n : Nat) : s.readN pa n = s.readVeiled pa n := by
  unfold State.readN
  split
  · rename_i hv
    refine (State.readVeiled_getN s _ pa n fun a _ _ => ?_).symm
    have : s.veils = [] := by simpa using hv
    simp [State.readByte, this]
  · rfl
/-- The bytes of a write read back as written. -/
theorem State.readN_writeN (s : State) (pa v n : Nat) (h : Mem.wf s.mem = true) : (s.writeN pa v n).readN pa n = v % 2 ^ (8 * n) := by
  rw [State.readN_eq, ← Mem.getN_setN s.mem pa v n h]
  refine State.readVeiled_getN _ _ pa n fun a h1 h2 => ?_
  rw [State.readByte_writeN _ _ _ _ _ h, if_pos ⟨h1, h2⟩]
/-- Bytes outside a write read as before. -/
theorem State.readN_writeN_ne (s : State) (pa v n b k : Nat) (h : Mem.wf s.mem = true) (hb : b + k ≤ pa ∨ pa + n ≤ b) :
    (s.writeN pa v n).readN b k = s.readN b k := by
  rw [State.readN_eq, State.readN_eq]
  induction k generalizing b with
  | zero => rfl
  | succ k ih =>
    rw [State.readVeiled, State.readVeiled, State.readByte_writeN_ne _ _ _ _ _ h (by omega), ih (b + 1) (by omega)]

end Sys2Proof.Machine
end

