-- ==== Sys2Proof/Laws/Frames.lean ====
section
/-! SUPPORT. What the shared operations may change: engines' bookkeeping, a write of memory, race summaries, a counted error. A prover
rewrites with these equations instead of unfolding the operation. -/
namespace Sys2Proof.Machine

/-! Engines and writes of memory. -/

/-- What handing a record or firing an arm may change. -/
structure State.EngFrame (s t : State) : Prop where
  eq : t = { s with chans := t.chans, score := t.score, marks := t.marks }
theorem State.EngFrame.trans {s t u : State} (h : s.EngFrame t) (k : t.EngFrame u) : s.EngFrame u := by
  constructor; rw [k.eq, h.eq]
theorem State.EngFrame.refl (s : State) : s.EngFrame s := ⟨rfl⟩
theorem State.claimSome_frame (s : State) (ag : Agent) (ch : ChannelId) (l : List Nat) : s.EngFrame (s.claimSome ag ch l) := by
  induction l generalizing s with
  | nil => exact ⟨rfl⟩
  | cons a r ih =>
    simp only [State.claimSome]
    split
    · exact (State.EngFrame.mk rfl).trans (ih _)
    · exact ⟨rfl⟩
theorem State.mark_frame (s : State) (ag : Agent) (d c : Nat) (op : EngOp) (w : Bool) (va n : Nat) : s.EngFrame (s.mark ag d c op w va n) := by
  unfold State.mark; split <;> exact ⟨rfl⟩
theorem State.markRecord_frame (s : State) (ag : Agent) (ch : ChannelId) (a : Nat) : s.EngFrame (s.markRecord ag ch a) := by
  unfold State.markRecord
  split
  · exact ⟨rfl⟩
  · split
    · exact ⟨rfl⟩
    · refine foldl_keeps (P := fun t : State => s.EngFrame t) _ _ (.refl s) fun t u ht => ?_
      have h1 := ht.trans (State.mark_frame t ag ch.die ch.cluster (.copy ch a) true u.dst u.n)
      rcases u.via with _ | v <;> rcases u.src with _ | w
      · exact h1
      · exact h1.trans (State.mark_frame ..)
      · exact h1.trans (State.mark_frame ..)
      · exact (h1.trans (State.mark_frame ..)).trans (State.mark_frame ..)
theorem State.settleStopped_frame (s : State) (id : ChannelId) : s.EngFrame (s.settleStopped id) := by
  simp only [State.settleStopped]; split <;> exact ⟨rfl⟩
theorem State.hand_frame (s : State) (ag : Agent) (id : ChannelId) (t : Nat) : s.EngFrame (s.hand ag id t) := by
  refine State.EngFrame.trans (foldl_keeps (P := fun t : State => s.EngFrame t) _ _ ?_ fun u a hu =>
    hu.trans (State.markRecord_frame ..)) (State.settleStopped_frame ..)
  exact State.EngFrame.trans (t := s.setChan _) ⟨rfl⟩ (State.claimSome_frame ..)
theorem State.fires_frame (s : State) (l : List (ChannelId × Arm)) : s.EngFrame (l.foldl State.fire s) :=
  foldl_keeps (P := fun t : State => s.EngFrame t) _ _ (.refl s) fun u x hu =>
    hu.trans (State.EngFrame.trans (t := u.setChan { u.chan x.1 with arms := (u.chan x.1).arms.erase x.2 }) ⟨rfl⟩ (State.hand_frame ..))
/-- All that a write of memory may change. -/
theorem State.writeN_frame (s : State) (pa v n : Nat) : s.writeN pa v n =
    { s with mem := Mem.setN s.mem pa v n, veils := s.unveil pa n, harts := s.harts.map (Hart.wake pa n),
             poison := s.poison.filter fun u => !(decide (pa ≤ u.1) && decide (u.1 + u.2 ≤ pa + n))
             tuples := (s.writeN pa v n).tuples, reqs := (s.writeN pa v n).reqs, cbufs := (s.writeN pa v n).cbufs,
             marks := (s.writeN pa v n).marks, chans := (s.writeN pa v n).chans, score := (s.writeN pa v n).score } := by
  have h := State.fires_frame ((s.putN pa v n).purge) (((s.putN pa v n).purge).firing pa n)
  rw [show s.writeN pa v n = _ from h.eq]
  rfl

/-! Monitors, race summaries, accesses. -/

theorem Hart.wake_eq (lo n : Nat) (h : Hart) : h.wake lo n = { h with monitor := (h.wake lo n).monitor } := by
  unfold Hart.wake; split
  · split <;> rfl
  · rfl
theorem State.writeN_hartAt (s : State) (pa v n k : Nat) : (s.writeN pa v n).hartAt k = (s.hartAt k).wake pa n := by
  rw [State.writeN_frame]
  simp only [State.hartAt, List.getD_eq_getElem?_getD, List.getElem?_map]
  cases s.harts[k]? <;> rfl
@[simp] theorem State.writeN_cur (s : State) (pa v n : Nat) : (s.writeN pa v n).cur = s.cur := by rw [State.writeN_frame]
@[simp] theorem State.writeN_length (s : State) (pa v n : Nat) : (s.writeN pa v n).harts.length = s.harts.length := by rw [State.writeN_frame]; simp
/-- A state but for its race summaries. -/
structure State.RaceFrame (s t : State) : Prop where
  eq : t = { s with races := t.races }
theorem State.raceNote_frame (s : State) (va pa : Nat) (w : Bool) (c : Nat) (k : RaceKind) : s.RaceFrame (s.raceNote va pa w c k) := by
  unfold State.raceNote; split <;> exact ⟨rfl⟩
theorem State.noteAll_frame (s : State) (k : RaceKind) (l : List Piece) : s.RaceFrame (s.noteAll k l) :=
  foldl_keeps (P := fun t : State => s.RaceFrame t) _ _ ⟨rfl⟩ fun u p hu => ⟨by rw [(State.raceNote_frame u _ _ _ _ _).eq, hu.eq]⟩
theorem State.noteAll_eq (s : State) (k : RaceKind) (l : List Piece) : s.noteAll k l = { s with races := (s.noteAll k l).races } := (State.noteAll_frame s k l).eq
theorem noteAll_still {s : State} (k : RaceKind) (l : List Piece) (h : s.still = true) : (s.noteAll k l).still = true := by
  rw [State.noteAll_eq]; exact h
theorem access_still {s : State} (a : Access) (now : Bool) (hl : s.hart.late = []) (h : s.still = true) :
    s.access a now = s.perform s.cur a := by
  have hl' : (s.hartAt s.cur).late = [] := hl
  have e : (s.modHartAt s.cur fun _ => s.hartAt s.cur) = s := State.modHart_self s _ rfl
  have e' : ({ s with harts := updAt s.harts s.cur fun _ => s.hart } : State) = s := e
  unfold State.access State.issueAccess State.accessNow
  cases now <;> simp [hl, hl', e, e', clearFor_still _ h]

/-! Errors and their log. -/

theorem logEvent_frame (s : State) (a b : Nat) (c : Word) : s.logEvent a b c = { s with log := (s.logEvent a b c).log, logNext := (s.logEvent a b c).logNext, host := (s.logEvent a b c).host } := by
  unfold State.logEvent; split <;> rfl
theorem logOpen_frame (s : State) (a b : Nat) : s.logOpen a b = { s with log := (s.logOpen a b).log, logNext := (s.logOpen a b).logNext, host := (s.logOpen a b).host } := logEvent_frame _ _ _ _
theorem modDie_frame (s : State) (d : Nat) (f : Die → Die) : s.modDie d f = { s with dies := (s.modDie d f).dies } := by unfold State.modDie; split <;> rfl
theorem countError_frame (s : State) (a b c d : Nat) : s.countError a b c d = { s with dies := (s.countError a b c d).dies, log := (s.countError a b c d).log, logNext := (s.countError a b c d).logNext, host := (s.countError a b c d).host } := by
  unfold State.countError State.addCount; rw [logOpen_frame, modDie_frame]
theorem countError_dies (s : State) (a b c d : Nat) : (s.countError a b c d).dies = (s.modDie a fun x => { x with rascnt := BitVec.ofNat 64 (putBits x.rascnt.toNat c d (x.rascnt.toNat / 2 ^ c + 1)) }).dies := by
  unfold State.countError; rw [logOpen_frame]; rfl
theorem corrected_frame (s : State) (u : ErrUnit) : s.corrected u = { s with dies := (s.corrected u).dies, log := (s.corrected u).log, logNext := (s.corrected u).logNext, host := (s.corrected u).host } := by
  unfold State.corrected; split
  · exact countError_frame ..
  · rw [logOpen_frame]
theorem die_of_dies {s t : State} (h : s.dies = t.dies) (d : Nat) : s.die d = t.die d := by simp [State.die, h]
theorem corrected_dies (s : State) (u : ErrUnit) (d : Nat) (h : unitDie u = some d) (hd : d < 16) : ((s.corrected u).die d).rascnt.toNat =
   (putBits (s.die d).rascnt.toNat 0 32 ((s.die d).rascnt.toNat + 1)) % 2 ^ 64 := by
  have : (s.corrected u).dies = (s.modDie d fun x => { x with rascnt := BitVec.ofNat 64 (putBits x.rascnt.toNat 0 32 (x.rascnt.toNat + 1)) }).dies := by
    simp [State.corrected, h, State.countCorr, countError_dies]
  rw [die_of_dies this]
  simp [State.die, State.modDie, hd]
theorem underTest_mem (s : State) (u : ErrUnit) : u ∈ (s.beginTest u).underTest := by
  simp [State.beginTest]
theorem clearEntries_keeps (s : State) (c : Ctx) (d : Nat) :
    (s.clearEntries c d).fenced = s.fenced ∧ (s.clearEntries c d).underTest = s.underTest :=
  foldl_keeps (P := fun t : State => t.fenced = s.fenced ∧ t.underTest = s.underTest) _ _ ⟨rfl, rfl⟩ fun u e hu => by
    rw [State.writeN_frame]; exact hu
theorem harvest_keeps (s : State) (d : Nat) : (s.harvest d).fenced = s.fenced ∧ (s.harvest d).underTest = s.underTest := by
  unfold State.harvest
  split
  · exact ⟨rfl, rfl⟩
  · exact foldl_keeps (P := fun t : State => t.fenced = s.fenced ∧ t.underTest = s.underTest) _ _ ⟨rfl, rfl⟩ fun u c hu =>
      ⟨(clearEntries_keeps u c d).1.trans hu.1, (clearEntries_keeps u c d).2.trans hu.2⟩
/-- A lasting fault of a unit that is neither disabled nor on a harvested die fences it, and ends its tests alone. -/
theorem lasting_fenced (s : State) (u : ErrUnit) (event : Bool)
    (hl : ((!isSpared u && s.fenced.contains u) || (unitDie u).any fun d => s.harvested.contains (s.pkg, d)) = false) :
    u ∈ (s.lasting u event).fenced ∧ (s.lasting u event).underTest = s.underTest.filter (· != u) := by
  have fin : ∀ t v : State, t.underTest = s.underTest → v.fenced = t.fenced ++ [u] → v.underTest = t.underTest.filter (· != u) →
      u ∈ v.fenced ∧ v.underTest = s.underTest.filter (· != u) := fun t v h h1 h2 => ⟨by rw [h1]; simp, by rw [h2, h]⟩
  have hb : (s.countFault u event).underTest = s.underTest := by
    unfold State.countFault
    cases unitDie u <;> cases event <;> simp only [State.countLasting, State.addCount, if_true, Bool.false_eq_true, if_false] <;>
      first | rw [countError_frame] | rw [logOpen_frame] | rw [modDie_frame]
  unfold State.lasting
  split
  · rename_i h; rw [hl] at h; exact absurd h (by simp)
  · dsimp only
    split
    · split
      · exact fin _ _ hb rfl rfl
      · exact fin _ _ hb (harvest_keeps _ _).1 (harvest_keeps _ _).2
    · exact fin _ _ hb (harvest_keeps _ _).1 (harvest_keeps _ _).2
    · exact fin _ _ hb rfl rfl
    · exact fin _ _ hb rfl rfl

end Sys2Proof.Machine
end

