-- ==== Sys2Proof/Tests/Slice0.lean ====
section
/-! SUPPORT. Tests whose expected results are the manual's own (its worked words and examples), the checks of well-formedness, and a state
and operands that meet the hypotheses of each statement. -/
namespace Sys2Proof.Tests
open Sys2Proof Sys2Proof.Machine

noncomputable section

set_option Elab.async false

/-! A small machine: one hart at U in context 1 and gang 1; 512 MiB pages at 0, 2^29 and 2^30 map to HBM of die 0 in classes normal,
tuple and combine, and one at 3 * 2^29 maps the window of die 0; the context block lies at 0x300000, with virtual die 0 on die 0. -/

def words : List (Nat × Nat) :=
  [(0x10000, 0x20001), (0x20000, 0x200001AF), (0x20008, 0x400005AF), (0x20010, 0x600007AF), (0x20018, 0x100000009AF),
   (0x300000, 1), (0x300008, 0x100000), (0x300010, 0x200000), (0x300040, 2 ^ 63)]
def rigMem (more : List (Nat × Nat)) : List Host.Cell := (words ++ more).foldl (fun m w => Mem.setN m w.1 w.2 8) []
def rigGang : Gang where
  ctx := 1
  gid := 1
  record := 0x20005000
  queue := 0
  entry := 0x1000
  nhart := 1
  arg := 7
  vtype := 0x25
  vl := 4
  vr := 1
  wshare := 1
  vdfirst := 0
  vdcount := 1
  tqmask := 1
  det := false
  phased := false
  ctr := 0
  ebcap := 0
  budget := 0
  eclsw := 0
  erefill := 0
  bound := 1
  exited := 0
  taskBinds := 0
  phase := 0
  arrived := 0
  total := 0
  totals := []
  ticks := 0
  taskFailed := false
  engineFailed := false
  ended := false
def rigCtx : Ctx := { Ctx.fresh 1 0 with ptroot := 0x10000, vdtbase := 0x300000 }
/-- The machine with more words of memory, registers x, and a change of the hart. -/
def rig (more : List (Nat × Nat)) (xs : List (Fin 64 × Word)) (g : Hart → Hart) : State :=
  let h := xs.foldl (fun h p => h.setX p.1 p.2) { Hart.fresh ⟨0, 0, 0, 0⟩ 1 1 0 with pc := 0x1000 }
  { State.reset with harts := [g h], ctxs := [rigCtx], gangs := [rigGang], mem := rigMem more }
def rigX (xs : List (Fin 64 × Word)) : State := rig [] xs id
/-- The hart with a shape: `VTYPE`, `VL`, `VR`. -/
def shaped (t l r : Word) (h : Hart) : Hart := { h with sr := { h.sr with vtype := t, vl := l, vr := r } }
/-- Whether an instruction goes on to a state with a property. -/
def gives (o : Host.Outcome State Fault Refusal) (p : State → Bool) : Bool :=
  match o with
  | .next t => p t
  | _ => false
/-- Whether an answer is a value with a property. -/
def good {ε α : Type} (e : Except ε α) (p : α → Bool) : Bool :=
  match e with
  | .ok a => p a
  | .error _ => false
def isError {ε α : Type} (e : Except ε α) : Bool :=
  match e with
  | .ok _ => false
  | .error _ => true
/-- The value of the current hart's x register after an instruction. -/
def xAfter (i : Instr) (s : State) (n : Fin 64) (w : Word) : Bool := gives (exec i s) fun t => t.hart.getX n == w

/-! Well-formedness: an ill-formed instruction for each check (R58 to R69). -/

/-- An unused operand that is not x0. -/
theorem test_wf_unused : (Instr.li { d := .x 5, a := .x 6 }).wf = false := by decide +kernel
/-- A register of a class that the position does not admit. -/
theorem test_wf_class : (Instr.add { d := .p 2, a := .x 6, b := .v 7 }).wf = false := by decide +kernel
/-- A queue that two sources name (R27). -/
theorem test_wf_queue_twice : (Instr.vadd { d := .v 3, a := .q 1, b := .q 1 }).wf = false := by decide +kernel
/-- `XL` on a source that is no tile (R65). -/
theorem test_wf_xl : (Instr.add { d := .x 5, a := .x 6, b := .x 7, xl := 1 }).wf = false := by decide +kernel
/-- A trap bit on a position that takes none (R64). -/
theorem test_wf_trap_bit : (Instr.li { d := .x 5, ta := true }).wf = false := by decide +kernel
/-- A mask on a form that has none (R63). -/
theorem test_wf_mask : (Instr.add { d := .x 5, a := .x 6, b := .x 7, men := true }).wf = false := by decide +kernel
/-- A mask number without a mask. -/
theorem test_wf_mask_number : (Instr.vadd { d := .v 3, a := .v 4, b := .v 5, k := 2 }).wf = false := by decide +kernel
/-- The negation of p0 (R62). -/
theorem test_wf_guard : (Instr.add { d := .x 5, a := .x 6, b := .x 7, gn := true }).wf = false := by decide +kernel
/-- A stream on a form that has none (R67). -/
theorem test_wf_stream : (Instr.add { d := .x 5, a := .x 6, b := .x 7, strm := 1 }).wf = false := by decide +kernel
/-- An `IMM` bit without a meaning. -/
theorem test_wf_imm : (Instr.add { d := .x 5, a := .x 6, b := .x 7, imm := 1 }).wf = false := by decide +kernel
/-- Source C's place in `IMM` of a form that names C. -/
theorem test_wf_c_place : (Instr.vffma { d := .v 1, a := .v 2, b := .v 3, c := .v 4, imm := 0x344 }).wf = false := by decide +kernel
/-- A limit of the entry: `mcfg` with 32 KiB of accumulator (R145). -/
theorem test_wf_limit : (Instr.mcfgI { imm := 0x34040 }).wf = false := by decide +kernel
/-- The major function of another form. -/
theorem test_wf_function : (Instr.add { fn := 0x80, d := .x 5, a := .x 6, b := .x 7 }).wf = false := by decide +kernel
theorem test_wf_good : (Instr.add { d := .x 5, a := .x 6, b := .x 7 }).wf = true := by decide +kernel

/-! Decoding: words that the manual writes out, family by family. -/

theorem test_decode_scalar :
    decodeTableWord 96 0x0706050001 = some (.add { d := .x 5, a := .x 6, b := .x 7 }) ∧
    decodeTableWord 96 0xFFFFFFFD0000000006058001 = some (.addI { fn := 0x80, d := .x 5, a := .x 6, imm := 0xFFFFFFFD }) ∧
    decodeTableWord 96 0x80000000000000000005800A = some (.li { fn := 0x80, d := .x 5, imm := 0x80000000 }) ∧
    decodeTableWord 96 0x00000012000000000505800B = some (.lih { fn := 0x80, d := .x 5, a := .x 5, imm := 0x12 }) := by decide +kernel
theorem test_decode_control :
    decodeTableWord 96 0x0000000C000000000200011F = some (.loop1 { fn := 1, a := .x 2, imm := 0xC }) ∧
    decodeTableWord 96 0x000000300000000000000129 = some (.sbar { fn := 1, imm := 0x30 }) ∧
    decodeTableWord 96 0x000002F50000000000000029 = some (.fence { imm := 0x2F5 }) := by decide +kernel
theorem test_decode_vector :
    decodeTableWord 96 0x000004420000000000000132 = some (.setvtI { fn := 1, imm := 0x442 }) ∧
    decodeTableWord 96 0x689C914544430034 = some (.vadd
      { d := .v 3, a := .v 4, b := .v 5, xl := 1, tb := true, men := true, k := 2, g := 3, gn := true, stall := 2, yld := true, ecls := 1 }) ∧
    decodeTableWord 96 0x000003440005404342410041 =
      some (.vffma { d := .v 1, a := .v 2, b := .v 3, c := .v 4, imm := 0x300, men := true, k := 5 }) := by decide +kernel
theorem test_decode_reduction_permute :
    decodeTableWord 96 0x000009000004400642050058 =
      some (.vredSum { d := .x 5, a := .v 2, b := .x 6, imm := 0x900, men := true, k := 1 }) ∧
    decodeTableWord 96 0x000000090000000063460063 = some (.vpart { d := .v 6, a := .k 3, c := .x 9 }) ∧
    decodeTableWord 96 0x4341440268 = some (.vbmvNacc { fn := 2, d := .v 4, a := .v 1, b := .v 3 }) := by decide +kernel
theorem test_decode_matrix :
    decodeTableWord 96 0x00014040000000000000006C = some (.mcfgI { imm := 0x14040 }) ∧
    decodeTableWord 96 0x000205040000004C4879006F = some (.mmax { d := .ma 1, a := .v 8, b := .v 12, imm := 0x20504 }) := by decide +kernel
theorem test_decode_memory :
    decodeTableWord 96 0x000000100000000006050278 = some (.ld { fn := 2, d := .x 5, a := .x 6, imm := 0x10 }) ∧
    decodeTableWord 96 0x010000000A7A017A = some (.vldC { fn := 1, d := .q 0, a := .x 10, strm := 1 }) ∧
    decodeTableWord 96 0x00000180000000430A000081 = some (.vstbm { a := .x 10, b := .v 3, imm := 0x180 }) ∧
    decodeTableWord 96 0x000001050000000B0A00009A = some (.bdecl { a := .x 10, b := .x 11, imm := 0x105 }) ∧
    decodeTableWord 96 0x00000205000000000000009B = some (.bset { imm := 0x205 }) := by decide +kernel
theorem test_decode_engines :
    decodeTableWord 96 0x1614050092 = some (.txpost { d := .x 5, a := .x 20, b := .x 22 }) ∧
    decodeTableWord 96 0x0000030C0000000B0A05009E = some (.cparm { d := .x 5, a := .x 10, b := .x 11, c := .x 12, imm := 0x300 }) ∧
    decodeTableWord 96 0x00030309000000450A4400A2 = some (.ttake { d := .v 4, a := .x 10, b := .v 5, c := .x 9, imm := 0x30300 }) ∧
    decodeTableWord 96 0x0000000C0000000B0A0500A5 = some (.cbput { d := .x 5, a := .x 10, b := .x 11, c := .x 12 }) ∧
    decodeTableWord 96 0x00000002000000450A4400A9 = some (.nbld { d := .v 4, a := .x 10, b := .v 5, imm := 2 }) ∧
    decodeTableWord 96 0x0A0500AC = some (.mrebuild { d := .x 5, a := .x 10 }) := by decide +kernel
theorem test_decode_tasks :
    decodeTableWord 96 0x00000003000000000A0500B0 = some (.tkenq { d := .x 5, a := .x 10, imm := 3 }) ∧
    decodeTableWord 96 0x000700B2 = some (.tknext { d := .x 7 }) ∧
    decodeTableWord 96 0x07060500B3 = some (.vdhop { d := .x 5, a := .x 6, b := .x 7 }) ∧
    decodeTableWord 96 0x0A0500B4 = some (.coll { d := .x 5, a := .x 10 }) := by decide +kernel
/-- R70: D = p2 for `add`, then the same with a reserved code in B, which D's check comes before; and the all-zero word. -/
theorem test_decode_illegal :
    (match decodeWord .u 0x0706820001 with | .error e => e.eval | .ok _ => 0) = 0x306 ∧
    (match decodeWord .u 0x9006820001 with | .error e => e.eval | .ok _ => 0) = 0x306 ∧
    (match decodeWord .u 0 with | .error e => e.eval | .ok _ => 0) = 0x101 := by decide +kernel

/-! Steps: the manual's worked examples. -/

/-- R84: −7 / 0, −7 rem 0, −7 / 2, −7 rem 2. -/
theorem test_div :
    xAfter (.div { d := .x 5, a := .x 6, b := .x 7 }) (rigX [(6, -7), (7, 0)]) 5 (-1) ∧
    xAfter (.rem { d := .x 5, a := .x 6, b := .x 7 }) (rigX [(6, -7), (7, 0)]) 5 (-7) ∧
    xAfter (.div { d := .x 5, a := .x 6, b := .x 7 }) (rigX [(6, -7), (7, 2)]) 5 (-3) ∧
    xAfter (.rem { d := .x 5, a := .x 6, b := .x 7 }) (rigX [(6, -7), (7, 2)]) 5 (-1) := by decide +kernel
/-- R84: the quotient that overflows. -/
theorem test_div_overflow :
    xAfter (.div { d := .x 5, a := .x 6, b := .x 7 }) (rigX [(6, 2 ^ 63), (7, -1)]) 5 (2 ^ 63) ∧
    xAfter (.rem { d := .x 5, a := .x 6, b := .x 7 }) (rigX [(6, 2 ^ 63), (7, -1)]) 5 0 := by decide +kernel
/-- R83: `li` and `lih`. -/
theorem test_li_lih :
    xAfter (.li { fn := 0x80, d := .x 5, imm := 0x80000000 }) (rigX []) 5 0xFFFFFFFF80000000 ∧
    xAfter (.lih { fn := 0x80, d := .x 5, a := .x 5, imm := 0x12 }) (rigX [(5, 0xFFFFFFFF80000000)]) 5 0x1280000000 := by decide +kernel
/-- R87: −0, +∞, a negative subnormal and a positive quiet NaN, in binary64. -/
theorem test_fclass :
    (fpClass .f64 (2 ^ 63), fpClass .f64 0x7FF0000000000000, fpClass .f64 (2 ^ 63 + 1), fpClass .f64 0x7FF8000000000000) =
      (0x101, 0x008, 0x102, 0x010) := by decide +kernel
/-- R88: `fcvt.i32.f64` of 3.7 × 10^9 clamps and sets `NV` and `VSAT`. -/
theorem test_fcvt :
    gives (exec (.fcvt { fn := 0x60, d := .x 5, a := .x 6 }) (rigX [(6, 0x41EB9130A0000000)])) (fun t =>
      t.hart.getX 5 == 0x7FFFFFFF && t.hart.sr.fflags == (flNV ||| flVSAT).setWidth 64) := by decide +kernel
/-- R42: 464 to E4M3 ties to even at 448, and 500 overflows to NaN. -/
theorem test_round_e4m3 :
    (round .e4m3 .rne (.fin false 464 0)).1 = 0x7E ∧ (round .e4m3 .rne (.fin false 500 0)).1 = 0x7F := by decide +kernel
/-- R47: `vfrcpe` of 3.0. -/
theorem test_recip : (recipEst .f64 (FpFmt.f64.decode 0x4008000000000000)).1 = 0x3FD5560000000000 := by decide +kernel
/-- R104, R105: `setvl` grants 96 of 100 in blocks of 32, and `setvt` grants `VL` again. -/
theorem test_setvl :
    gives (exec (.setvlI { fn := 1, d := .x 5, imm := 100 }) (rig [] [] (shaped 0x442 0 1))) (fun t => t.hart.getX 5 == 96) ∧
    gives (exec (.setvtI { fn := 1, d := .x 6, imm := 0x24 }) (rig [] [] (shaped 0x442 96 1)))
      (fun t => t.hart.getX 6 == 32 && t.hart.sr.vl == 32) := by decide +kernel
/-- R122: the tile of `VL` 16, `VR` 2 with lengths 3 and 10; `kcnt` of bits 1, 5 and 20 in it. -/
theorem test_kset_tile :
    gives (exec (.ksetTile { fn := 1, d := .k 1 }) (rig [] [] fun h =>
        let h := shaped 0x805 16 2 h
        { h with sr := { h.sr with rowlen := 0xA03 } })) (fun t => t.hart.k[1] == 0x3FF0007) := by decide +kernel
/-- R117: the counter of `vrnd.adv` carries into its second register. -/
theorem test_vrnd_adv :
    gives (exec (.vrndAdv { fn := 1, d := .v 2, a := .x 4, b := .x 6 }) (rig [] [(6, 0xFFFFFFFFFFFFFFF8)] (shaped 0x023 16 2)))
      (fun t => t.hart.getX 6 == 0x18 && t.hart.getX 7 == 1) := by decide +kernel
/-- R131: `vpart` of the bits 1, 4, 5, 9 and 14. -/
theorem test_vpart :
    gives (exec (.vpart { d := .v 6, a := .k 3, c := .x 9 }) (rig [] [] fun h =>
        { shaped 0x013 8 2 h with k := h.k.set 3 0x4232 })) (fun t =>
      t.hart.getX 9 == 5 && (t.hart.v[6]).toNat % 2 ^ 128 == 0x0000000000E0009000500040001 &&
      (t.hart.v[7]).toNat % 2 ^ 128 == 0x000B000A000800070006000300020000) := by decide +kernel
/-- R52: the MX block of 2.0, 0.5 and 1.5, −4.0 with scales 0x80 and 0x7F is 2.0. -/
theorem test_mx_block :
    (round .f32 .rne (mxBlock 4 4 0x80 0x7F [(mxVal 4 0x40, mxVal 4 0x3C), (mxVal 4 0x30, mxVal 4 0xC8)]).1).1 = 0x40000000 := by
  decide +kernel
/-- R215: a post of 32 sectors after ten credits. -/
theorem test_txpost : (barUpdate 0x1FFFFFFF600000100 1 32 true).1 = 0x10000001600000020 := by decide +kernel
/-- R215: the last credit completes the phase. -/
theorem test_completion : (barUpdate 0x10000000100000020 0 (-1) false).1 = 0x10000000000000101 := by decide +kernel

/-! For each statement a state and operands that meet its hypotheses together, at the boundaries of its clauses. -/

/-- `State.Clear` as a check. -/
def clearB (s : State) (f : Fields) (also : List Reg) : Bool :=
  decide (s.cur < s.harts.length) && decide (s.hart.late = []) && decide (s.hart.struck = []) && !s.hart.onE &&
    decide (s.hart.waiting = []) && decide (queueCheck s.hart f false = none) &&
    (waitsFor f also).all (fun r => !s.hart.isEmpty r) && s.hart.guard f
theorem clear_of {s : State} {f : Fields} {also : List Reg} (h : clearB s f also = true) : s.Clear f also := by
  simp only [clearB, Bool.and_eq_true, decide_eq_true_eq, List.all_eq_true, Bool.not_eq_true'] at h
  obtain ⟨⟨⟨⟨⟨⟨⟨a, b⟩, c⟩, d⟩, e⟩, g⟩, i⟩, j⟩ := h
  exact ⟨a, b, c, d, e, g, i, j⟩

/-- Fields of a scalar form, of a predicate form, of a tile form with source C. -/
def fx : Fields := { d := .x 63, a := .x 6, b := .x 7 }
def fp : Fields := { d := .p 15, a := .x 6, b := .x 7 }
def fv : Fields := { d := .v 3, a := .v 4, b := .v 5, c := .v 6 }
/-- Harts with INT64 and FP64 shapes of 4 elements in a row. -/
def intRig : State := rig [] [(6, 3), (7, 5)] (shaped 0x05 4 2)
def fpRig : State := rig [] [(6, 3), (7, 5)] (shaped 0x25 4 2)
/-- Every form of a list meets its check, and stands clear with room in its E-queue, in some of the states. -/
def formsMeet (l : List EForm) (c : List (Fields × State)) : Bool :=
  l.all fun e => c.any fun p => (e.chk p.1 p.2.hart.geom).isNone && clearB p.2 p.1 (e.also p.1 p.2.hart) && decide (p.2.hart.equeue < queueSize)

theorem witness_ScalarResults : (rigX [(6, -7), (7, 0)]).Clear fx [] ∧ (rigX [(6, -7), (7, 0)]).Clear fp [] ∧ fx.d = .x 63 :=
  ⟨clear_of (by decide +kernel), clear_of (by decide +kernel), rfl⟩
theorem witness_PredicateResults : (rigX []).Clear fp [] ∧ fp.d = .p 15 ∧ (rigX []).Clear fx allPreds :=
  ⟨clear_of (by decide +kernel), rfl, clear_of (by decide +kernel)⟩
theorem witness_ScalarFpResults : (rigX [(6, 0x3FF0000000000000)]).Clear fx [] := clear_of (by decide +kernel)
/-- A magnitude that is exact, and one that ties. -/
theorem witness_RoundingRule : 8 % 2 ^ 2 = 0 ∧ 2 * (6 % 2 ^ 2) = 2 ^ 2 := by decide
/-- Both branches, and for the loop-end step each pair of loops that end here, or do not. -/
theorem witness_ControlResults :
    (rigX [(6, 0)]).Clear fx [] ∧ (rigX [(6, 0)]).hart.xr fx.a = 0 ∧ (rigX [(6, 1)]).Clear fx [] ∧ (rigX [(6, 1)]).hart.xr fx.a ≠ 0 ∧
    (∃ (pc : BitVec 55) (sr : SysRegs), ¬(pc.setWidth 64 = sr.le1 ∧ sr.lc1 ≠ 0) ∧ ¬(pc.setWidth 64 = sr.le0 ∧ sr.lc0 ≠ 0)) ∧
    (∃ (pc : BitVec 55) (sr : SysRegs), pc.setWidth 64 = sr.le1 ∧ sr.lc1 ≠ 0 ∧ sr.lc1 ≠ 1 ∧ (sr.lb1.setWidth 55 : BitVec 55) ≠ pc + 12) ∧
    (∃ (pc : BitVec 55) (sr : SysRegs), ¬(pc.setWidth 64 = sr.le1 ∧ sr.lc1 ≠ 0) ∧ pc.setWidth 64 = sr.le0 ∧ sr.lc0 = 1) ∧
    (∃ (pc : BitVec 55) (sr : SysRegs), ¬(pc.setWidth 64 = sr.le1 ∧ sr.lc1 ≠ 0) ∧ pc.setWidth 64 = sr.le0 ∧ sr.lc0 ≠ 0 ∧ sr.lc0 ≠ 1) ∧
    (∃ (pc : BitVec 55) (sr : SysRegs), pc.setWidth 64 = sr.le1 ∧ sr.lc1 = 1 ∧ ¬(pc.setWidth 64 = sr.le0 ∧ sr.lc0 ≠ 0)) ∧
    (∃ (pc : BitVec 55) (sr : SysRegs), pc.setWidth 64 = sr.le1 ∧ sr.lc1 = 2 ∧ (sr.lb1.setWidth 55 : BitVec 55) = pc + 12 ∧
      pc.setWidth 64 = sr.le0 ∧ sr.lc0 ≠ 0 ∧ sr.lc0 ≠ 1) ∧
    ∃ (pc : BitVec 55) (sr : SysRegs), pc.setWidth 64 = sr.le1 ∧ sr.lc1 = 1 ∧ pc.setWidth 64 = sr.le0 ∧ sr.lc0 = 1 :=
  ⟨clear_of (by decide +kernel), by decide +kernel, clear_of (by decide +kernel), by decide +kernel, ⟨0x100, {}, by decide⟩,
    ⟨0x100, { le1 := 0x100, lc1 := 2, lb1 := 0x40 }, by decide⟩, ⟨0x100, { le0 := 0x100, lc0 := 1 }, by decide⟩,
    ⟨0x100, { le0 := 0x100, lc0 := 2 }, by decide⟩, ⟨0x100, { le1 := 0x100, lc1 := 1 }, by decide⟩,
    ⟨0x100, { le1 := 0x100, lc1 := 2, lb1 := 0x10C, le0 := 0x100, lc0 := 2 }, by decide⟩,
    ⟨0x100, { le1 := 0x100, lc1 := 1, le0 := 0x100, lc0 := 1 }, by decide⟩⟩
/-- A legal and an illegal `VTYPE`, and a legal one with blocks. -/
theorem witness_ConfigResults :
    (rigX [(6, 0x442)]).Clear fx [] ∧ vtypeOk ((rigX [(6, 0x442)]).hart.xr fx.a) = true ∧ vtypeOk ((rigX [(6, 0x443)]).hart.xr fx.a) = false ∧
    vtBl 0x442 ≠ 0 :=
  ⟨clear_of (by decide +kernel), by and_intros <;> decide +kernel⟩
theorem witness_VectorElementResults :
    formsMeet (vectorIntForms ++ vectorFpForms) [(fv, intRig), (fv, fpRig)] = true ∧ formsMeet vectorMoveForms
      [(fv, intRig), (fv, fpRig), ({ d := .v 3, a := .v 4, imm := 0x4400 }, rig [] [] (shaped 0x24 32 1))] = true := by decide +kernel
theorem witness_MaskReductionPermuteResults :
    formsMeet (maskForms ++ reductionForms) [(fv, intRig), (fv, fpRig)] = true ∧ formsMeet (permuteForms ++ batchForms)
      [(fv, intRig), (fv, fpRig), (fv, rig [] [] fun h => { shaped 0x825 16 3 h with sr := { (shaped 0x825 16 3 h).sr with rowlen := 0x20202 } })] =
      true := by decide +kernel
/-- A register at U, one at S; a counter in a deterministic gang; a register above the level. -/
def atS (h : Hart) : Hart := { h with st := { h.st with pl := .s } }
def det (h : Hart) : Hart := { h with sr := { h.sr with detctl := 1 } }
def fsr (n : BitVec 32) : Fields := { d := .x 5, a := .x 6, imm := n }
theorem witness_SystemRegisterReads :
    (rigX []).Clear (fsr 0x001) (srAlso (fsr 0x001)) ∧ (rigX []).hart.det = false ∧ (rig [] [] atS).Clear (fsr 0x102) (srAlso (fsr 0x102)) ∧
    (1 ≤ (rig [] [] atS).hart.st.pl.code) ∧ (rig [] [] det).Clear (fsr 0x040) (srAlso (fsr 0x040)) ∧ (rig [] [] det).hart.det = true ∧ nondetSr 0x040 = true ∧
    (rigX []).hart.st.pl.code < 1 :=
  ⟨clear_of (by decide +kernel), by decide +kernel, clear_of (by decide +kernel), by decide +kernel, clear_of (by decide +kernel),
    by decide +kernel, by decide, by decide +kernel⟩
/-- A value that `VR` accepts, the next one that it does not, a register that is only read, and one above the level. -/
theorem witness_SystemRegisterWrites :
    (rigX []).Clear (fsr 0x002) (srAlso (fsr 0x002)) ∧ (rigX []).srAccepts 0x002 8 = true ∧ (rigX []).srAccepts 0x002 9 = false ∧
    (∃ r ∈ srRows, r.num = 0x002 ∧ ∃ l, r.write = some l ∧ l ≤ (rigX []).hart.st.pl.code) ∧ (∃ r ∈ srRows, r.num = 0x020 ∧ r.write = none) ∧
    ∃ r ∈ srRows, r.num = 0x101 ∧ (rigX []).hart.st.pl.code < r.read :=
  ⟨clear_of (by decide +kernel), by decide +kernel, by decide +kernel,
    ⟨⟨0x002, 0, some 0, fun s => s.hart.sr.vr, -1⟩, by simp [srRows], rfl, 0, rfl, by decide +kernel⟩,
    ⟨⟨0x020, 0, none, fun s => BitVec.ofNat 64 s.hart.hartid, -1⟩, by simp [srRows], rfl, rfl⟩,
    ⟨⟨0x101, 1, some 1, (·.hart.sr.stvec), -1⟩, by simp [srRows], rfl, by decide +kernel⟩⟩
theorem witness_SystemRegisterReadBack :
    (rigX []).cur < (rigX []).harts.length ∧ (rigX []).ctx.isSome = true ∧ (rigX []).gang.isSome = true ∧ (rigX []).srAccepts 0x005 3 = true := by
  decide +kernel
def atSF (h : Hart) : Hart := { h with st := { h.st with pl := .s, tf := true } }
def atF (tf : Bool) (h : Hart) : Hart := { h with st := { h.st with pl := .f }, fw := { h.fw with tf := tf } }
theorem witness_TrapEntry :
    0 < (rigX []).harts.length ∧ ((rigX []).hartAt 0).st.pl = .u ∧ ((rig [] [] atS).hartAt 0).st.pl = .s ∧
    ((rig [] [] atS).hartAt 0).st.tf = false ∧ ((rig [] [] atSF).hartAt 0).st.pl = .s ∧ ((rig [] [] atSF).hartAt 0).st.tf = true ∧
    cSYSCALL < 0x80 ∧ ((rig [] [] (atF false)).hartAt 0).st.pl = .f ∧ ((rig [] [] (atF false)).hartAt 0).fw.tf = false ∧
    ((rig [] [] (atF true)).hartAt 0).st.pl = .f ∧ ((rig [] [] (atF true)).hartAt 0).fw.tf = true := by decide +kernel
/-- At U, at S, at F; with a cause pending, and with none. -/
theorem witness_SystemInstructionResults :
    (rig [] [] atS).Clear fx [] ∧ (rig [] [] atS).hart.st.pl = .s ∧ (rig [] [] fun h => { h with st := { h.st with pl := .f } }).Clear fx [] ∧
    (rig [] [] fun h => { h with causes := [(cTIMER, 0)] }).Clear fx [] ∧ (rig [] [] fun h => { h with causes := [(cTIMER, 0)] }).hart.causes ≠ [] ∧
    (rigX []).Clear fx [] ∧ (rigX []).hart.preempt = none ∧ (rigX []).hart.causes = [] ∧ 0 < (rigX []).harts.length :=
  ⟨clear_of (by decide +kernel), by decide +kernel, clear_of (by decide +kernel), clear_of (by decide +kernel), by decide +kernel,
    clear_of (by decide +kernel), by and_intros <;> decide +kernel⟩
/-- Two stores of stream 1, with an order point of each kind between them that covers both, and a store that follows one of another stream. -/
def aStore (n : Fin 4) (a v : Nat) : Access := .of n false false (.store [⟨a, 0x20000000 + a, 0, 64, v⟩])
def aLoad (n : Fin 4) : Access := .of n false false (.load (.x 5) 0 0 .raw [])
def point (k : OrderKind) (m : BitVec 4) : Access := .of 0 false false (.order k m)
theorem witness_AccessOrder :
    (aStore 1 0 0).isOrder = false ∧ (aStore 1 0 0).stream = (aStore 1 64 0).stream ∧ ({ aStore 1 0 0 with rel := true }).rel = true ∧
    (point .streams 3).op = .order .streams 3 ∧ (3 : BitVec 4).getLsbD 1 = true ∧ (aStore 1 0 0).isWrite = true ∧ (aLoad 1).isRead = true ∧
    (∀ a ∈ [aStore 0 0 0, point .streams 3], a.isOrder = false → a.stream ≠ (aStore 2 64 0).stream) ∧
    (∀ o ∈ [aStore 0 0 0, point .streams 3], o.isOrder = true → ∃ m : BitVec 4, o.op = .order .streams m ∧ m.getLsbD 2 = false) := by
  refine ⟨rfl, rfl, rfl, rfl, rfl, by decide, by decide, by decide, ?_⟩
  intro o h i
  simp only [List.mem_cons, List.not_mem_nil, or_false] at h
  rcases h with rfl | rfl
  · cases i
  · exact ⟨3, rfl, rfl⟩
/-- The widest shape: sixteen 64-bit elements in eight rows. -/
theorem witness_SweepElements :
    0 < 64 ∧ 64 * (shaped 0x05 16 8 intRig.hart).geom.vl ≤ 1024 ∧ (shaped 0x05 16 8 intRig.hart).geom.vr ≤ 8 ∧
    (shaped 0x05 16 8 intRig.hart).geom.len 7 = 16 := by decide +kernel
/-- Shapes for the matrix forms: INT32 with INT8 tiles, FP32 with FP32 tiles, MX blocks of 32. -/
def accRig (cfg t l r : Word) : State :=
  rig [] [(6, cfg), (7, 0)] fun h => { shaped t l r h with acfgDec := cfg, sr := { (shaped t l r h).sr with acfg := cfg } }
def mformsMeet (l : List MForm) (c : List (Fields × State)) : Bool :=
  l.all fun e => c.any fun p => (e.chk p.1 p.2.hart.acfg p.2.hart.geom).isNone && clearB p.2 p.1 (e.also p.1) && decide (p.2.hart.equeue < queueSize) && (!e.governed || !p.2.issueStalls p.1.ecls)
theorem witness_MatrixResults :
    (rigX [(6, 0x14040)]).Clear fx [] ∧ acfgOk ((0x14040 : BitVec 32).setWidth 64) = true ∧ acfgOk ((rigX [(6, 0x14040)]).hart.xr fx.a) = true ∧
    acfgOk ((rigX [(6, 0x14041)]).hart.xr fx.a) = false ∧
    mformsMeet matrixForms
      [({ d := .ma 0, a := .v 2, b := .v 3 }, accRig 0x20101 0x02 1 1), ({ d := .ma 1, a := .v 8, b := .v 12, imm := 0x20504 }, accRig 0x10101 0x24 1 8),
        ({ d := .ma 0, a := .v 2, b := .v 3 }, accRig 0x10101 0x24 1 1), ({ d := .v 4, a := .ma 0, b := .x 7 }, accRig 0x10101 0x24 1 1),
        ({ d := .ma 0, a := .v 4, b := .x 7 }, accRig 0x10101 0x24 1 1)] = true :=
  ⟨clear_of (by decide +kernel), by and_intros <;> decide +kernel⟩
/-- The whole of an accumulator. -/
theorem witness_AccumulatorElements :
    (rigX []).hart.late = [] ∧ (acfgOf 0x14040).width * ((acfgOf 0x14040).rows * (acfgOf 0x14040).cols) = 131072 := by decide +kernel
/-- A check that fails, a full queue, an empty queue, an empty trapping source in each place, a guard that is false. -/
def full (n : Nat) (h : Hart) : Hart := (List.range n).foldl (fun h _ => h.pushQ 0 true 0) h
def guarded : Fields := { fv with g := 3 }
def emptied (r : Reg) : State := rig [] [] fun h => h.markEmpty r true
/-- Every register of a hart full; a hart whose parity check fails at one, with a full entry in q1. -/
def allFull (h : Hart) : Bool :=
  decide (∀ n, h.isEmpty (.x n) = false) && decide (∀ n, h.isEmpty (.p n) = false) && decide (∀ n, h.isEmpty (.v n) = false) &&
    decide (∀ n, h.isEmpty (.k n) = false) && decide (∀ n, h.isEmpty (.s n) = false) && decide (∀ n, h.isEmpty (.ma n) = false) &&
    decide (∀ n, h.isEmpty (.q n) = false)
theorem allFull_of {h : Hart} (e : allFull h = true) (r : Reg) : h.isEmpty r = false := by
  simp only [allFull, Bool.and_eq_true, decide_eq_true_eq] at e
  cases r <;> simp [e]
def hit (r : Reg) : State := rig [] [(6, 3), (7, 5)] fun h => { (shaped 0x05 4 2 h).pushQ 1 true 0 with struck := [r] }
def standsReady (s : State) (f : Fields) : Bool :=
  decide (s.cur < s.harts.length ∧ s.hart.late = [] ∧ s.hart.onE = false ∧ s.hart.waiting = [] ∧ queueCheck s.hart f false = none) && allFull s.hart
theorem witness_IssueRules :
    intRig.hart.onE = false ∧ (fmtChk fv intFmts false fpRig.hart.geom).isSome = true ∧
    (4 ≤ ((rig [] [] (full 4)).hart.q[(0 : Fin 4)]).length ∧ (rigX []).hart.q[(0 : Fin 4)] = []) ∧
    (queueCheck (emptied (.v 4)).hart fv false = none ∧ (emptied (.v 4)).hart.isEmpty fv.a = true) ∧
    ((emptied (.v 5)).hart.unready fv.a = false ∧ (emptied (.v 5)).hart.isEmpty fv.b = true) ∧
    ((emptied (.v 6)).hart.unready fv.a = false ∧ (emptied (.v 6)).hart.unready fv.b = false ∧ (emptied (.v 6)).hart.isEmpty fv.c = true) ∧
    intRig.Clear { guarded with g := 0, gn := false } [] ∧ intRig.hart.equeue < queueSize ∧ intRig.hart.isEmpty (.p guarded.g) = false ∧
    intRig.hart.guard guarded = false ∧
    ((emptied (.x 6)).hart.onE = false ∧ queueCheck (emptied (.x 6)).hart fx false = none ∧ (emptied (.x 6)).hart.isEmpty fx.a = true) ∧
    ((emptied (.x 7)).hart.unready fx.a = false ∧ (emptied (.x 7)).hart.isEmpty fx.b = true) ∧
    ((emptied (.x 8)).hart.unready fx.a = false ∧ (emptied (.x 8)).hart.unready fx.b = false ∧
      (emptied (.x 8)).hart.isEmpty { fx with c := .x 8 }.c = true) ∧
    ((hit (.x 1)).hart.waiting = [] ∧ intRig.hart.struck = [] ∧ (∀ r, (hit (.x 1)).hart.isEmpty r = false) ∧
      intRig.hart.guard { fx with g := 3 } = false) ∧
    (standsReady (hit (.p 3)) { fx with g := 3 } = true ∧ Reg.p 3 ∈ (hit (.p 3)).hart.struck) ∧
    (standsReady (hit (.x 6)) fx = true ∧ fx.a ∈ (hit (.x 6)).hart.struck ∧ Reg.p fx.g ∉ (hit (.x 6)).hart.struck ∧
      (hit (.x 6)).hart.guard fx = true) ∧
    (standsReady (hit (.x 7)) fx = true ∧ fx.b ∈ (hit (.x 7)).hart.struck ∧ fx.a ∉ (hit (.x 7)).hart.struck) ∧
    (standsReady (hit (.q 1)) { fx with a := .q 1 } = true ∧ Reg.q 1 ∈ (hit (.q 1)).hart.struck) ∧
    (standsReady (hit (.v 4)) fv = true ∧ fv.a ∈ (hit (.v 4)).hart.struck ∧ (hit (.v 4)).hart.equeue < queueSize ∧
      fmtChk fv intFmts false (hit (.v 4)).hart.geom = none) := by
  and_intros <;> first
    | decide +kernel
    | exact clear_of (by decide +kernel)
    | exact allFull_of (by decide +kernel)
theorem witness_RegisterWriteRule : (rigX []).cur < (rigX []).harts.length ∧ (∀ n, fx.a ≠ .q n ∧ fx.b ≠ .q n ∧ fx.c ≠ .q n) := by
  refine ⟨by decide +kernel, fun n => ⟨?_, ?_, ?_⟩⟩ <;> simp [fx]

/-! Memory. -/

/-- x6 points into the normal page at 0x4000, or to a given place. -/
def memX (a b : Word) : State := rigX [(6, a), (7, b)]
def fld : Fields := { fn := 3, d := .x 5, a := .x 6 }
def fst' : Fields := { fn := 3, a := .x 6, b := .x 7 }
/-- At S, x6 names a register of die 0's window: SRCARVE, RASCNT. -/
def winX (a b : Word) : State := rig [] [(6, a), (7, b)] atS
def dieAt (s : State) (pa o : Nat) : Bool := s.isMmio pa && decide (s.home (pa / 8 * 8) = .dieMmio 0 o) && decide (pkgOf pa = s.pkg)
theorem witness_LoadResults :
    (winX 0x6C000014 0).Clear { fld with fn := 2 } [] ∧ (winX 0x6C000014 0).still = true ∧
    (winX 0x6C000014 0).accessChk .load .read true 0x6C000014 4 = .ok 0x1000C000014 false 4 ∧ dieAt (winX 0 0) 0x1000C000014 0x10 = true ∧
    Mem.wf (memX 0x4000 0).mem = true ∧ (memX 0x4000 0).Clear fld [] ∧ (memX 0x4000 0).still = true ∧
    (memX 0x4000 0).accessChk .load .read true 0x4000 8 = .ok 0x20004000 false 0 ∧ (memX 0x4000 0).isMmio 0x20004000 = false ∧
    (memX 0x4000 0).poisoned 0x20004000 8 = false := by
  and_intros <;> first
    | decide +kernel
    | exact clear_of (by decide +kernel)
theorem witness_StoreResults :
    (winX 0x6C000000 16).Clear fst' [] ∧ (winX 0x6C000000 16).still = true ∧
    (winX 0x6C000000 16).accessChk .store .write true 0x6C000000 8 = .ok 0x1000C000000 false 4 ∧ dieAt (winX 0 0) 0x1000C000000 0 = true ∧
    dieAt (winX 0 0) 0x1000C000018 0x18 = true ∧ (memX 0x4000 9).still = true ∧ (memX 0x4000 9).isMmio 0x20004000 = false ∧
    Mem.wf (memX 0x4000 9).mem = true ∧ (memX 0x4000 9).Clear fst' [] ∧
    (memX 0x4000 9).accessChk .store .write true 0x4000 8 = .ok 0x20004000 false 0 ∧ (memX 0x4000 9).partPoisoned 0x20004000 8 = false ∧
    (memX 0x4000 9).lost 0x20004000 = false := by
  and_intros <;> first
    | decide +kernel
    | exact clear_of (by decide +kernel)
/-- Tiles of INT64 with two elements, at x10 with a row stride of 64 bytes where the form has one. -/
def tileRig (a : Word) : State := rig [] [(10, a), (11, 64)] (shaped 0x05 2 1)
def ftl : Fields := { d := .v 3, a := .x 10 }
def ftls : Fields := { d := .v 3, a := .x 10, b := .x 11 }
def ftlx : Fields := { d := .v 3, a := .x 10, b := .v 5 }
def fts : Fields := { a := .x 10, c := .v 6 }
def ftss : Fields := { a := .x 10, b := .x 11, c := .v 6 }
def ftsx : Fields := { a := .x 10, b := .v 5, c := .v 6 }
/-- A form's elements pass every check, and none lies in a damaged unit. -/
def passes (load : Bool) (e : TForm) (f : Fields) (s : State) : Bool :=
  let r := s.probe (if load then .load else .store) (if load then .read else .write) (e.todo f s)
  (e.chk f s.hart.geom).isNone && !e.refused f s && !s.hart.resumesQ f && clearB s f [] && s.still && decide (s.hart.cut = none) &&
    (match r.2 with
      | .none => true
      | _ => false) && (s.firstPoison (!load) (r.1.map (·.2))).isNone && r.1.all fun x => !s.lost x.2.pa
/-- A form's element e fails a check. -/
def faults (load : Bool) (e : TForm) (f : Fields) (s : State) : Bool :=
  let r := s.probe (if load then .load else .store) (if load then .read else .write) (e.todo f s)
  (e.chk f s.hart.geom).isNone && clearB s f [] && s.still && decide (s.hart.cut = none) && !e.refused f s && (match r.2 with
    | .fault _ _ _ => true
    | _ => false) && (s.firstPoison (!load) (r.1.map (·.2))).isNone
theorem witness_TileAccessResults :
    (tileLoads.all fun e => [ftl, ftls, ftlx].any fun f => passes true e f (tileRig 0x4000)) = true ∧
    (tileLoads.all fun e => [ftl, ftls, ftlx].any fun f => passes true e { f with d := .q 1 } (tileRig 0x4000)) = true ∧
    Mem.wf (tileRig 0x4000).mem = true ∧
    (tileStores.all fun e => [fts, ftss, ftsx].any fun f => passes false e f (tileRig 0x4000)) = true := by decide +kernel
def tileAtS (a : Word) : State := rig [] [(10, a), (11, 64)] fun h => atS (shaped 0x05 2 1 h)
/-- A misaligned address, an address with no page for a load and for a store, and a second element with no page. -/
theorem witness_AccessFaults :
    (memX 0x4001 0).Clear fld [] ∧ (0x4001 : Nat) % 8 ≠ 0 ∧
    (memX 0x80000000 0).accessChk .load .read true 0x80000000 8 = .trap cLOAD 0x80000000 ∧
    (memX 0x80000000 0).accessChk .store .write true 0x80000000 8 = .trap cSTORE 0x80000000 ∧ (tileRig 0x80000000).hart.st.pl = .u ∧ (tileAtS 0x80000000).hart.st.pl = .s ∧ (tileAtS 0x80000000).hart.st.tf = false ∧
    (tileLoads.any fun e => faults true e ftl (tileAtS 0x1FFFFFF8)) = true ∧ (memX 0x4001 0).still = true ∧
    (tileLoads.any fun e => faults true e ftl (tileRig 0x1FFFFFF8)) = true ∧ (tileLoads.any fun e => faults true e ftl (tileRig 0x80000000)) = true ∧
    (tileStores.any fun e => faults false e fts (tileRig 0x80000000)) = true :=
  ⟨clear_of (by decide +kernel), by decide, by and_intros <;> decide +kernel⟩
/-- Whole images of a tile, a mask and a scale register; a sparse image that fits its size exactly, and one byte less; and the
sparse form of a tile of zeros read back. -/
def sparseRig : State := rig [(0x20004000, 2 * 2 ^ 32)] [(10, 0x4000)] (shaped 0x05 2 1)
def moves (load : Bool) (s : State) (n : Nat) : Bool :=
  match s.chkRange (if load then .load else .store) (if load then .read else .write) 0x4000 n with
  | .ok l => (s.firstPoison (!load) l).isNone && l.all fun p => !s.lost p.pa
  | .error _ => false
def reads (s : State) (a n v : Nat) : Bool :=
  match s.readChk a n with
  | .ok (_, w) => w == v
  | .error _ => false
theorem witness_ImageResults :
    Mem.wf sparseRig.mem = true ∧ sparseRig.Clear ftl [] ∧ sparseRig.still = true ∧ (sparseRig.hart.xr ftl.a).toNat % 64 = 0 ∧
    moves true sparseRig (imageBytes (.v 3)) = true ∧ moves true sparseRig (imageBytes (.k 3)) = true ∧
    moves true sparseRig (imageBytes (.s 3)) = true ∧ moves false sparseRig (imageBytes (.v 3)) = true ∧
    sparseChk sparseRig.hart.geom = none ∧
    (sparseImage sparseRig.hart.geom 0).2 ≤ 64 ∧ moves false sparseRig (sparseImage sparseRig.hart.geom 0).2 = true ∧
    8 < (sparseImage sparseRig.hart.geom 0).2 ∧ sparseRig.hart.geom.cells.length = 2 ∧ reads sparseRig 0x4000 8 (2 * 2 ^ 32) = true ∧
    reads sparseRig 0x4008 (maskBytes 2) 0 = true ∧ popBelow 0 2 = 0 ∧ reads sparseRig (0x4008 + maskBytes 2) 0 0 = true :=
  ⟨by decide +kernel, clear_of (by decide +kernel), by and_intros <;> decide +kernel⟩
theorem witness_SparseRoundTrip :
    8 ≤ (shaped 0x05 16 8 intRig.hart).geom.sew ∧ (shaped 0x05 16 8 intRig.hart).geom.sew * (shaped 0x05 16 8 intRig.hart).geom.vl ≤ 1024 ∧
    (shaped 0x05 16 8 intRig.hart).geom.vr ≤ 8 := by decide +kernel
def famo : Fields := { fn := 0x10, d := .x 5, a := .x 6, b := .x 7 }
def amoRig : State := rig [] [(6, 0x4000), (7, 9)] (shaped 0x05 2 1)
theorem witness_AtomicResults :
    Mem.wf amoRig.mem = true ∧ amoRig.Clear famo [] ∧ addRefused famo amoRig = false ∧
    amoRig.accessChk .atomic (amRace famo) false 0x4000 8 = .ok 0x20004000 false 0 ∧ amoRig.partPoisoned 0x20004000 8 = false ∧
    amoRig.lost 0x20004000 = false ∧ amoRig.Clear { famo with b := .v 4 } [] ∧ amChk { famo with b := .v 4 } amoRig.hart.geom = none :=
  by and_intros <;> first | decide +kernel | exact clear_of (by decide +kernel)
def fvamo : Fields := { fn := 0, d := .v 3, a := .x 10, b := .v 5, c := .v 6 }
theorem witness_VectorAtomicResults :
    Mem.wf (tileRig 0x4000).mem = true ∧ (tileRig 0x4000).Clear fvamo [] ∧ amChk fvamo (tileRig 0x4000).hart.geom = none ∧
    addRefused fvamo (tileRig 0x4000) = false ∧ ((tileRig 0x4000).hart.det && !false && fvamo.d != .x 0) = false ∧
    (match (tileRig 0x4000).probe .atomic (amRace fvamo)
        ((((tileRig 0x4000).hart.activeCells fvamo (tileRig 0x4000).hart.geom).map (elemIndexed (tileRig 0x4000) fvamo (tileRig 0x4000).hart.geom)).filter
          ((tileRig 0x4000).hart.vstart ≤ ·.e)) with
      | (l, .none) => ((tileRig 0x4000).firstPoison true (l.map (·.2))).isNone
      | _ => false) = true := by
  and_intros <;> first
    | decide +kernel
    | exact clear_of (by decide +kernel)
theorem witness_LittleEndianMemory :
    Mem.wf (rigX []).mem = true ∧ (rig [(0x20001000, 0x0706050001)] [] id).hart.pc.toNat % 0x10000 + 12 ≤ 0x10000 ∧
    (match fetch (rig [(0x20001000, 0x0706050001)] [] id) with
      | .word w => w == 0x0706050001
      | _ => false) = true := by decide +kernel
/-- A step that goes on from a memory in canonical form. -/
theorem witness_StepKeepsMemoryForm :
    Mem.wf (rig [(0x20001000, 0x0706050001)] [] id).mem = true ∧
    gives (step (rig [(0x20001000, 0x0706050001)] [] id)) (fun t => t.hart.pc == 0x100C) = true := by decide +kernel
/-- A hart whose wait of 5 ns runs out in cycle 8, a request whose slice has served hart i in its cycle, a bank of HBM under test. -/
def lapsed (clock : Nat) : State :=
  { rig [] [] (fun h => { h with sr := { h.sr with ttmo := 5 }, wait := some ⟨0, none, false, false, false, false⟩ }) with clock := clock }
def aReq (take : Bool) (ph : ReqPhase) : TupleReq :=
  ⟨0, 0, { d := .v 4, a := .x 6, b := .v 5, c := .x 9, imm := 0x30300 }, take, false, 1, 0, 7, 0, none, ph⟩
def flown (clock : Nat) : State := { rigX [] with reqs := [aReq true .flying], turns := [⟨(rigX []).reqKey (aReq true .flying), clock, none⟩] }
def atTest (pa : Nat) (s : State) : State := { s with underTest := [.hbmRow 0 pa] }
theorem testing_row (s : State) (pa n : Nat) (h : pkgOf pa = s.pkg) : (atTest pa s).testing pa n = true := by
  simp [atTest, State.testing, State.underUnit, h]
/-- An access of a translated address in a bank under test stalls. -/
theorem resolve_stalls {s : State} {c : Ctx} {k : AccessKind} {scalar : Bool} {va n : Nat} {x : Xlat} (a : va < localBase)
    (b : s.ctx = some c) (d : s.translateLane s.hart.place none c.asid.toNat c.ptroot.toNat s.hart.st.pl k va = some x)
    (e : s.classFits x = true) (f : runtimeOnly x.pa = false) (g : classAdmits x.cls scalar va n = true) (h : s.testing x.pa n = true) :
    s.resolve k scalar va n = .stall := by
  have l : ¬va ≥ 2 ^ 55 := Nat.not_le.2 (Nat.lt_trans a (by decide))
  simp only [State.resolve, State.resolveLane, if_neg l, if_neg (Nat.not_le.2 a), b, d, e, f, g, h, Bool.not_true, Bool.false_and,
    Bool.false_eq_true, if_false, if_true, ite_self]
/-- A word that decodes, one that does not, a misaligned pc, and each entry of the schedule. -/
def steps (w : Nat) : State := rig [(0x20001000, w)] [] id
theorem fetch_waits : fetch (atTest 0x20001000 (steps 0x0706050001)) = .wait := by
  have r : (atTest 0x20001000 (steps 0x0706050001)).resolve .fetch false 0x1000 12 = .stall :=
    resolve_stalls (c := rigCtx) (x := ⟨0x20001000, 0⟩) (by decide) rfl (by decide +kernel) (by decide +kernel) (by decide) (by decide)
      (testing_row _ _ _ rfl)
  have p : (atTest 0x20001000 (steps 0x0706050001)).hart.pc.toNat = 0x1000 := by decide +kernel
  simp [fetch, State.fetchAt, unfetched, p, r, localBase]
theorem witness_StepRunsDecoded :
    (steps 0x0706050001).agenda = [] ∧ (steps 0x0706050001).cur < (steps 0x0706050001).harts.length ∧
    (steps 0x0706050001).hart.waiting = [] ∧ boundary (steps 0x0706050001) = .run ∧
    (match fetch (steps 0x0706050001) with
      | .word w => match decodeWord .u w with
        | .ok i => decide (i = .add { d := .x 5, a := .x 6, b := .x 7 })
        | _ => false
      | _ => false) = true ∧
    (match fetch (steps 0) with
      | .word w => match decodeWord .u w with
        | .error _ => true
        | _ => false
      | _ => false) = true ∧
    (rig [] [] fun h => { h with pc := 0x1002 }).hart.pc.toNat % 4 ≠ 0 ∧
    (match fetch (rig [] [] fun h => { h with pc := 0x80000000 }) with
      | .trap _ _ _ => true
      | _ => false) = true ∧
    (steps 0).hart.pc.toNat % 4 = 0 ∧ (steps 0).hart.pc.toNat % 0x10000 + 12 ≤ 0x10000 ∧
    good ((steps 0).fetchAt (steps 0).hart.pc.toNat 12) (fun pa => decide (pa = 0x20001000) && !(steps 0).poisoned pa 12) = true ∧
    Instr.ownerLapse.parts = none ∧ ((steps 0).hartAt 0).bound = true ∧
    (match fetch (steps 0x0706050001) with
      | .word w => match decodeAt 1 .u w with
        | .ok i => decide (i = .add { d := .x 5, a := .x 6, b := .x 7 })
        | _ => false
      | _ => false) = true ∧
    (match fetch (steps 0) with
      | .word w => isError (decodeAt 1 .u w)
      | _ => false) = true ∧ (steps 0).hart.ahead = [] ∧
    (∀ x ∈ (rig [] [] fun h => { h with ahead := [(0x20001000, 1)] }).hart.ahead, x.2 < 2 ^ 32) ∧
    ((rigX []).due (rigX []).expiries = [] ∧ (lapsed 7).due (lapsed 7).expiries = [] ∧ (lapsed 8).due (lapsed 8).expiries ≠ []) ∧
    ((steps 0x0706050001).behind 0 = false ∧ (flown 1).behind 0 = false ∧ (flown 0).behind 0 = true) ∧
    ((steps 0x0706050001).underTest = [] ∧ fetch (atTest 0x20001000 (steps 0x0706050001)) = .wait ∧ boundary (atTest 0x20001000 (steps 0x0706050001)) = .run) ∧
    ((steps 0).hartAt 0).status ≠ HartStatus.stopped := by
  and_intros <;> first
    | decide +kernel
    | exact fetch_waits
theorem witness_EncodeDecode :
    (Instr.add { d := .x 5, a := .x 6, b := .x 7 }).wf = true ∧ encode (.add { d := .x 5, a := .x 6, b := .x 7 }) = some 0x0706050001 ∧
    (Instr.add { d := .x 5, a := .x 6, b := .x 7 }).form.isSome = true ∧
    (match decodeWord .u 0x0706050001 with
      | .ok _ => true
      | _ => false) = true ∧ good (decodeAt 0x442 .u 0x0706050001) (fun _ => true) = true := by decide +kernel
/-- A shaped machine whose step goes on; the machine after reset. -/
theorem witness_StepKeepsShape :
    (steps 0x0706050001).Shaped ∧ gives (step (steps 0x0706050001)) (fun t => t.hart.pc == 0x100C) = true ∧ State.reset.Shaped := by
  refine ⟨⟨?_, ?_, ?_⟩, by decide +kernel, ?_, ?_, ?_⟩ <;> decide +kernel

/-! Engines, barriers, buffers. -/

/-- A PLAIN, a STAGED and a BARRIER buffer in the hart's cluster: entries 0, 1 and 2, and the barrier word at its place. -/
def buffers : List Buf :=
  [⟨1, 0, 0, 0, 0, 0x1000, .plain, false, .full, 0, 0, 0⟩, ⟨1, 0, 0, 1, 0x1000, 0x1000, .staged, false, .full, 0, 0, 0⟩,
    ⟨1, 0, 0, 2, 0x2000, 0x1000, .barrier, false, .full, 0, 0, 0⟩, ⟨1, 0, 0, 3, 0x3000, 0x40, .staged, false, .filling, 1, 0, 0⟩]
def barWord : BitVec 64 := BitVec.ofNat 64 (spadWin + 0x2000)
def barPa : Nat := State.reset.spadPa 0 0 0x2000
def bufRig (xs : List (Fin 64 × Word)) (g : Hart → Hart) : State := { rig [(barPa, 0x100)] xs g with bufs := buffers }
theorem witness_EngineIssueResults :
    (bufRig [(6, 0x4000), (7, 0x4000000), (8, barWord)] id).Clear { a := .x 6, b := .x 7, c := .x 8 } [] ∧
    (bufRig [(6, 0x4000), (7, 0x4000000), (8, barWord)] id).hart.phased = false ∧
    ((bufRig [(6, 0x4000), (7, 0x4000000), (8, barWord)] id).hartBar barWord.toNat).isSome = true ∧
    good ((bufRig [(6, 0x4000)] id).readChk 0x4000 64) (fun _ => true) = true :=
  ⟨clear_of (by decide +kernel), by and_intros <;> decide +kernel⟩
/-- The counts at which the clauses meet: one arrival too many, a sector count just outside, a completion, and no completion. -/
theorem witness_BarrierUpdate :
    (0x100 : Nat) < 2 ^ 128 ∧ barArrPend 0x100 < 2 ∧ barErrBit 0x100 = false ∧ barErrBit (barErr 0x100 1 0) = true ∧
    1 ≤ barArrPend 0x100 ∧ ¬(barSect 0x100 + 2 ^ 31 < (2 ^ 31 : Int)) ∧ 1 = barArrPend 0x100 ∧ barSect 0x100 + 0 = 0 ∧
    ¬(0 = barArrPend 0x100 ∧ barSect 0x100 = 0) := by and_intros <;> decide +kernel
def fbar : Fields := { d := .x 5, a := .x 6, b := .x 7 }
def barRig (b : Word) (g : Hart → Hart) : State := bufRig [(6, barWord), (7, b)] g
theorem witness_TransactionBarrierResults :
    (barRig 1 id).Clear fbar [] ∧ (barRig 1 id).hartBar ((barRig 1 id).hart.xr fbar.a).toNat = some barPa ∧
    (barRig 1 id).poisoned barPa 16 = false ∧ ((barRig (2 ^ 31 - 1) id).hart.xr fbar.b).toNat < 2 ^ 31 ∧
    2 ^ 31 ≤ ((barRig (2 ^ 31) id).hart.xr fbar.b).toNat ∧ ((barRig (2 ^ 24 - 1) id).hart.xr fbar.b).toNat < 2 ^ 24 ∧
    2 ^ 24 ≤ ((barRig (2 ^ 24) id).hart.xr fbar.b).toNat ∧ (bufRig [(6, barWord + 8)] id).hartBar (barWord + 8).toNat = none ∧
    (barRig 0 id).readN barPa 16 % 16 = ((barRig 0 id).hart.xr fbar.b).toNat % 16 ∧ (barRig 0 id).hart.wait.any (·.seen) = false ∧
    barErrBit ((barRig 0 id).readN barPa 16) = false ∧ (barRig 0 id).expired = false ∧
    (barRig 1 id).readN barPa 16 % 16 ≠ ((barRig 1 id).hart.xr fbar.b).toNat % 16 ∧
    (barRig 0 fun h => { h with wait := some ⟨0, none, true, false, false, false⟩ }).hart.wait.any (·.seen) = true ∧
    ({ barRig 0 (fun h => { h with wait := some ⟨0, none, false, false, false, false⟩, sr := { h.sr with ttmo := 5 } }) with clock := 8 } : State).expired = true ∧
    barErrBit (((bufRig [] id).barFail barPa 1 0).readN barPa 16) = true ∧ (0 < ((barRig 1 id).hart.xr fbar.b).toNat ∧ ((barRig 0 id).hart.xr fbar.b).toNat = 0) ∧ (barRig 1 id).still = true :=
  ⟨clear_of (by decide +kernel), by and_intros <;> decide +kernel⟩
/-- No arrival, one at a completed phase, one at the phase in progress; a member that completes the phase; both sides of a test. -/
def gangRig (a : Option Nat) (g : Gang) : State := { rig [] [(7, 1)] (fun h => { h with arrival := a }) with gangs := [g] }
theorem witness_GangBarrierResults :
    (gangRig none rigGang).Clear fbar [] ∧ (gangRig none rigGang).gang = some rigGang ∧ (gangRig none rigGang).hart.det = false ∧ rigGang.det = false ∧ (gangRig none rigGang).still = true ∧ (0 : Nat) < { rigGang with phase := 1 }.phase ∧
    (gangRig (some 0) { rigGang with phase := 1, totals := [3] }).hart.arrival = some 0 ∧
    (gangRig (some 0) { rigGang with nhart := 2, arrived := 1 }).expired = false ∧
    (({ lapsed 8 with gangs := [{ rigGang with nhart := 2, arrived := 1 }] } : State).modHart fun h => { h with arrival := some 0 }).expired = true ∧
    (gangRig none rigGang).hart.member = true ∧ rigGang.nhart ≤ rigGang.arrived + 1 ∧ rigGang.exited < rigGang.nhart ∧
    (gangRig none rigGang).gangOf 1 1 = some rigGang ∧
    (gangRig none { rigGang with arrived := 1 }).gangOf 1 1 = some { rigGang with arrived := 1 } ∧ rigGang.arrived < rigGang.nhart :=
  ⟨clear_of (by decide +kernel), by and_intros <;> decide +kernel⟩
def waitRig (b : Word) (g : Hart → Hart) : State := rig [(0x20004000, 7)] [(6, 0x4000), (7, b)] g
def timedOut (h : Hart) : Hart := { h with wait := some ⟨0, none, false, false, false, false⟩, sr := { h.sr with ttmo := 5 } }
theorem witness_WaitPhaseResults :
    (waitRig 7 id).Clear fbar [] ∧ (waitRig 7 id).waitAddr 0x4000 = .ok 0x20004000 false 0 ∧ (waitRig 7 id).poisoned 0x20004000 8 = false ∧
    (waitRig 7 id).watchesFull 0x20004000 = false ∧ (waitRig 7 id).still = true ∧ (false && (waitRig 7 id).scoreStalls 0x20004000 8 false) = false ∧ (7 : Word).toNat ≤ (waitRig 7 id).readN 0x20004000 8 ∧ (waitRig 8 id).readN 0x20004000 8 < (8 : Word).toNat ∧
    (waitRig 8 id).expired = false ∧ ({ waitRig 8 timedOut with clock := 8 } : State).expired = true ∧ (waitRig 7 id).hart.monitor = none ∧
    (waitRig 7 fun h => { h with monitor := some ⟨0x20004000, true⟩ }).hart.monitor = some ⟨0x20004000, true⟩ ∧
    (waitRig 7 fun h => { h with monitor := some ⟨0x20004000, false⟩, causes := [(cTIMER, 0)] }).hart.causes ≠ [] ∧
    (waitRig 7 det).hart.det = true ∧ (waitRig 7 fun h => { h with sr := { h.sr with detctl := 2 } }).hart.phased = true ∧
    (waitRig 7 id).hart.phased = false :=
  ⟨clear_of (by decide +kernel), by and_intros <;> decide +kernel⟩
/-- A range that ends at the cluster's last byte; entries of each kind; one with an operation in flight; one that is not declared. -/
theorem witness_BufferResults :
    (bufRig [(6, BitVec.ofNat 64 (spadWin + spadBytes - 64)), (7, 64)] id).Clear { a := .x 6, b := .x 7, imm := 5 } [] ∧
    inSpadWin (spadWin + spadBytes - 64) = true ∧ spadBytes - 64 + 64 ≤ spadBytes ∧ (bufRig [] id).bufEntry 5 = none ∧
    (buffers.all fun c => decide (c.base + c.size ≤ spadBytes - 64)) = true ∧
    (bufRig [] id).bufEntry 0 = some buffers[0] ∧ (bufRig [] id).bufEntry 1 = some buffers[1] ∧ (bufRig [] id).bufEntry 2 = some buffers[2] ∧
    (bufRig [] id).bufEntry 3 = some buffers[3] ∧ buffers[3].infl + buffers[3].outfl ≠ 0 ∧ buffers[0].infl + buffers[0].outfl = 0 :=
  ⟨clear_of (by decide +kernel), by and_intros <;> decide +kernel⟩
/-- One record at 0x4000 that ends its chain, a counter with room for an arm, and a channel with four arms. -/
def copyRig : State :=
  let s := rig [(0x20004000, 0)] [(6, 0x4000), (7, 8), (8, 0)] id
  s.setChan { s.chan (s.hartChan 0) with head := 0x4000 }
def fcp : Fields := { d := .x 5, a := .x 6, b := .x 7, c := .x 8 }
def anArm : Arm := ⟨0x20004000, 0x4000, 8, 0, 0, copyRig.agent⟩
theorem witness_CopyIssueResults :
    copyRig.Clear fcp [] ∧ copyRig.hart.phased = false ∧ ((copyRig.hart.xr fcp.a).toNat % 64 = 0 ∧ (copyRig.hart.xr fcp.b).toNat % 8 = 0) ∧
    (copyRig.chan (copyRig.hartChan 0)).busy = false ∧
    good (copyRig.cptFirst (copyRig.chan (copyRig.hartChan 0))) (fun p => p.2 == 0x4000 &&
      good (p.1.cptWalk 0x4000 64 p.2) (fun r => r.2 == some [0x4000] &&
        r.1.still && decide (([0x4000].flatMap (r.1.claimsOf r.1.agent (copyRig.hartChan 0))).length ≤ min scoreSize (r.1.scoreFree r.1.hart.core)))) = true ∧
    copyRig.counterAt 0x4000 = .ok 0x20004000 false 0 ∧ copyRig.counterAt 0x80000000 = .trap cACCESS 0x80000000 ∧ (copyRig.chan (copyRig.hartChan 0)).arms.length < 4 ∧
    4 ≤ ((copyRig.setChan { copyRig.chan (copyRig.hartChan 0) with arms := [anArm, anArm, anArm, anArm] }).chan (copyRig.hartChan 0)).arms.length :=
  ⟨clear_of (by decide +kernel), by and_intros <;> decide +kernel⟩

/-! Tuples, combine buffers, meshes. -/

/-- Space 0 with room for two tuples of a signature, its table at 0x100000; a stored tuple (7, 1) and, for the parked cases, a request. -/
def tupRig (reqs : List TupleReq) (tuples : List STuple) : State :=
  { rig [(0x20100000, 2 ^ 63 + 2), (0x20100008, 0x20000000)] [(6, 0), (7, 0)] id with reqs := reqs, tuples := tuples }
/-- A stored tuple of space 0, on the die where the home of its signature stands. -/
def aTuple (order : Nat) : STuple := ⟨1, 0, 7, order, (0, 0)⟩
theorem witness_DepositRule :
    (tupRig [] [aTuple 0, aTuple 1]).parkedFor 1 0 7 true = [] ∧ ((tupRig [] []).tupleHome 1 0 7).any (fun h => (h.pkg, h.die) == (0, 0)) = true ∧
    2 ≤ (tupRig [] [aTuple 0, aTuple 1]).partitionCount 1 0 ((tupRig [] []).tupleHome 1 0 7) ∧
    (tupRig [] [aTuple 0]).partitionCount 1 0 ((tupRig [] []).tupleHome 1 0 7) < 2 ∧ (tupRig [] []).parkedFor 1 0 7 false = [] ∧
    (tupRig [aReq true (.parked 0)] []).parkedFor 1 0 7 true = [aReq true (.parked 0)] ∧
    (tupRig [aReq false (.parked 0)] []).parkedFor 1 0 7 false = [aReq false (.parked 0)] ∧
    (aReq false (.parked 0)).isParked = true ∧ tupleMatches (aReq false (.parked 0)).image (aReq false (.parked 0)).mask 7 = true ∧
    (tupRig [] [aTuple 0]).oldest (aReq true .flying) = some (aTuple 0) ∧ (tupRig [] []).oldest (aReq true .flying) = none ∧
    (tupRig [] []).parkRoom (aReq true .flying) = true ∧
    ({ tupRig [] [] with ctxs := [] } : State).parkRoom (aReq true .flying) = false ∧
    (∀ n, ((tupRig [aReq false (.parked 0)] []).hartAt n).late = []) := by
  and_intros <;> first
    | decide +kernel
    | intro n
      cases n <;> rfl
def ftup : Fields := { d := .v 4, a := .x 6, b := .v 5, c := .x 9, imm := 0x30300 }
/-- A request for v4 with its registers empty, as it stands outstanding, and a cancellation that names it; slices that have not served
hart i yet, and one that a publish or a later hart has had in this cycle. -/
def canRig (ph : ReqPhase) : State := (tupRig [] []).addReq (aReq true ph)
def fcan : Fields := { d := .x 5, a := .v 4 }
def servedAfter (sig : Nat) (s : State) : State := { s with turns := [⟨s.tupleKey 1 0 sig, 0, none⟩] }
theorem witness_TupleResults :
    good ((tupRig [] []).spaceOf (tupRig [] []).agent 0 0) (fun p => p.tsid == 0 &&
      (tupRig [] []).inTurn ((tupRig [] []).tupleKey 1 p.tsid 0) (tupRig [] []).hart &&
      !(servedAfter 0 (tupRig [] [])).inTurn ((tupRig [] []).tupleKey 1 p.tsid 0) (tupRig [] []).hart) = true ∧
    8 ≤ ((tupRig (List.replicate 8 (aReq true (.parked 0))) []).reqs.filter (·.hart == 0)).length ∧
    (canRig (.parked 0)).Clear { fcan with a := .x 0 } [] ∧ (canRig .flying).Clear { fcan with a := .x 0 } [] ∧
    (canRig (.parked 0)).hart.isEmpty (.v 4) = true ∧ (canRig (.parked 0)).hart.isEmpty (.p 3) = true ∧
    (canRig (.parked 0)).hart.isEmpty (.x 9) = true ∧ (canRig (.parked 0)).still = true ∧ (canRig .flying).still = true ∧
    (canRig (.parked 0)).reqs.find? (fun r => r.hart == 0 && r.f.d == fcan.a) = some (aReq true (.parked 0)) ∧
    (canRig (.parked 0)).reqs.find? (·.id == 0) = some (aReq true (.parked 0)) ∧ (aReq true (.parked 0)).isParked = true ∧
    (canRig .flying).reqs.find? (·.id == 0) = some (aReq true .flying) ∧ (aReq true .flying).isParked = false ∧
    (canRig (.parked 0)).inTurn ((canRig (.parked 0)).reqKey (aReq true (.parked 0))) (canRig (.parked 0)).hart = true ∧
    (servedAfter 7 (canRig (.parked 0))).inTurn ((canRig (.parked 0)).reqKey (aReq true (.parked 0))) (canRig (.parked 0)).hart = false ∧
    (∀ r ∈ (tupRig [] []).reqs, r.hart = 0 → r.f.d ≠ fcan.a) ∧
    (tupRig [] []).Clear ftup [psReg ftup] ∧ (tupRig [] []).Clear { ftup with a := .x 0 } [] ∧ (tupRig [] []).hart.phased = false ∧ (tupRig [] []).still = true ∧ (tupRig [] []).hart.det = false ∧
    (∀ x ∈ (tupRig [aReq true (.parked 0)] []).reqs, x.phase ≠ .flying) ∧
    good ((tupRig [] []).spaceOf (tupRig [] []).agent 0 0) (fun _ => true) = true ∧
    isError ((tupRig [] []).spaceOf (tupRig [] []).agent 1 0) = true := by
  and_intros <;> first
    | decide +kernel
    | exact clear_of (by decide +kernel)
/-- Buffer 0: one slot of two experts among four, BF16 rows of 32 elements to FP32, its table at 0x200000, staged at 0x40000000. -/
def combWords : List (Nat × Nat) :=
  [(0x20200000, 2 ^ 63 + 1), (0x20200008, 32 + 0 * 2 ^ 16 + 1 * 2 ^ 20 + 2 * 2 ^ 24 + 4 * 2 ^ 28), (0x20200018, 0x40000000), (0x20200020, 0x10000)]
def aSlot (st : SlotState) : CSlot :=
  ⟨0, st, 9, [3, 1], [0x3F400000, 0x3E800000], [], 0, 0, some 0, false, false, false, 0, ⟨0, 1, 1, ⟨0, 0, 0, 0⟩, .u, false⟩⟩
def combRig (row : Nat) (slots : List CSlot) : State :=
  { rig combWords [(6, 0), (7, 0x4000), (8, 0x900030000)] (fun h => { h with v := h.v.set 5 (BitVec.ofNat 8192 row) }) with
    cbufs := if slots = [] then [] else [{ CBuf.fresh 1 0 with slots := slots }] }
/-- Token 9 for experts 3 and 1 with weights 0.75 and 0.25. -/
def aRow : Nat := 0x3F400000 + 0x3E800000 * 2 ^ 32 + (3 + 0x10000) * 2 ^ 256 + 9 * 2 ^ 384
def fcb : Fields := { d := .x 5, a := .x 6, b := .v 5 }
theorem witness_CombineResults :
    (combRig aRow []).Clear fcb [] ∧ good ((combRig 0 []).cbufDesc (combRig 0 []).agent 0) (fun d =>
      decide ((allocExperts d.k aRow).all (· < d.nexp)) && decide ((allocExperts d.k aRow).Nodup) &&
      ((combRig 0 []).cbuf 1 0).freeSlot d.nslot == some 0 && ((combRig 0 [aSlot .filling]).cbuf 1 0).freeSlot d.nslot == none &&
      decide (tagSlot 0x900030000 < d.nslot) && good ((combRig 0 []).chkRange .load .read 0x4000 d.rowBytes) fun _ => true) = true ∧
    ((combRig 0 []).cbuf 1 0).slot 0 = none ∧ ((combRig 0 [aSlot .filling]).cbuf 1 0).slot 0 = some (aSlot .filling) ∧
    (combRig 0 []).inTurn (.buffer 1 0) (combRig 0 []).hart = true ∧ (combRig 0 []).hart.xr fcb.b = 0 ∧
    ({ combRig 0 [] with turns := [⟨.buffer 1 0, 0, none⟩] } : State).inTurn (.buffer 1 0) (combRig 0 []).hart = false ∧
    ({ combRig 0 [] with turns := [⟨.buffer 1 0, 0, some (0, 1)⟩] } : State).inTurn (.buffer 1 0) (combRig 0 []).hart = true ∧ (aSlot .filling).token = tagToken 0x900030000 ∧
    (aSlot .filling).experts.idxOf? (tagExpert 0x900030000) = some 0 ∧ (aSlot .filling).experts.idxOf? (tagExpert 0x900020000) = none ∧
    (aSlot .filling).rows.any (·.1 == 0) = false ∧ ({ aSlot .filling with rows := [(0, 0)] }).rows.any (·.1 == 0) = true ∧
    (aSlot .closing).state ≠ .filling :=
  ⟨clear_of (by decide +kernel), by and_intros <;> decide +kernel⟩

/-- The test harts' agent, and a closed, an open and a combined slot of buffer 0. -/
def ag0 : Agent := ⟨0, 1, 1, ⟨0, 0, 0, 0⟩, .u, false⟩
def withOp (k : HomeKind) : State := rig [] [(6, 0)] fun h => { h with homeOp := some ⟨7, { fbar with a := .x 6 }, k⟩ }
def planOk (s : State) (t : CSlot) : Bool :=
  match s.slotDesc t.agent 0 with
  | some d => (s.combinePlan d t).isSome
  | none => false
def holds (k : HomeKind) (h : Hart) : Hart := { h with homeOp := some ⟨7, { fbar with a := .x 6 }, k⟩ }
/-- An allocation and a contribution that wait at buffer 0. -/
def atCombine (k : HomeKind) (slots : List CSlot) : State := (combRig 0 slots).modHart (holds k)
/-- Every access of an agent to a range in a bank under test waits. -/
theorem engHeld_of {s : State} {ag : Agent} {die cluster va n pa : Nat} {l : List (Nat × Nat)} (m : (va, n) ∈ l)
    (h : good ((atTest pa s).engRange ag die cluster .load va n) (· == [(pa, n)]) = true) (p : pkgOf pa = s.pkg) :
    (atTest pa s).engHeld ag die cluster l = true := by
  have t := testing_row s pa n p
  simp only [State.engHeld, Bool.and_eq_true, List.any_eq_true]
  refine ⟨rfl, (va, n), m, ?_⟩
  dsimp only
  cases e : (atTest pa s).engRange ag die cluster .load va n with
  | error _ => rw [e] at h; cases h
  | ok ps => rw [e] at h; rw [eq_of_beq h]; simp [t]
/-- The output row of the closed slot stands in a bank under test. -/
theorem combine_held : (atTest 0x20010480 (combRig 0 [aSlot .closing])).combineHeld ⟨1, 0⟩ (aSlot .closing) = true := by
  let d : CDesc := ((combRig 0 [aSlot .closing]).slotDesc ag0 0).getD (cdescOf 0 0)
  have e : (atTest 0x20010480 (combRig 0 [aSlot .closing])).slotDesc ag0 0 = some d := by decide +kernel
  have g : (atTest 0x20010480 (combRig 0 [aSlot .closing])).engHeld ag0 0 0 [(d.outRow 9, d.outBytes), (d.fallRow 9, if d.subst = 2 then 4 * d.rowlen else 0)] = true :=
    engHeld_of (va := d.outRow 9) (n := d.outBytes) (List.mem_cons_self ..) (by decide +kernel) rfl
  unfold State.combineHeld
  rw [show (aSlot .closing).agent = ag0 from rfl, show (⟨1, 0⟩ : BufferId).cbid = 0 from rfl, e]
  exact (Bool.and_eq_true _ _).mpr ⟨rfl, (Bool.or_eq_true _ _).mpr (.inl g)⟩
theorem witness_HomeEventResults :
    (rigX []).harts.findIdx? (fun h => h.homeOp.any (·.id == 7)) = none ∧ (rigX []).reqs.find? (fun r => r.id == 7) = none ∧
    (withOp (.cancel 0)).harts.findIdx? (fun h => h.homeOp.any (·.id == 7)) = some 0 ∧ ((withOp (.cancel 0)).hartAt 0).homeOp.isSome = true ∧
    (withOp (.deposit 0 2 7)).hart.det = false ∧
    ((tupRig [] []).tdetOf 0 0 (tupleWord (requestOf false false fbar 0 (tupRig [] [])).image 0)).refusesReq 0 false = false ∧
    (tupRig [] []).find (requestOf false false fbar 0 (tupRig [] [])) ≠ .full ∧
    (match (atCombine (.alloc 0 aRow) []).cbufDesc (atCombine (.alloc 0 aRow) []).agent 0 with
      | .ok d => ((atCombine (.alloc 0 aRow) []).cbuf 1 0).freeSlot d.nslot == some 0 &&
        ((atCombine (.alloc 0 aRow) [aSlot .filling]).cbuf 1 0).freeSlot d.nslot == none
      | .error _ => false) = true ∧
    (atCombine (.put 0 0x900030000 []) []).inTurn (.buffer 1 0) (atCombine (.put 0 0x900030000 []) []).hart = true ∧
    (homeEvents.all fun e => [HomeKind.deposit 0 2 7, .request true 0, .cancel 0, .alloc 0 0, .put 0 0x900030000 []].any fun k =>
      (e.2 fcb k (tupRig [] [])).isSome || (e.2 fcb k (combRig aRow [])).isSome) = true ∧
    (homeEvents.all fun e => (e.2 fcb (.cancel 0) (servedAfter 7 (canRig (.parked 0)))).isNone || (e.2 fcb (.cancel 0) (tupRig [] [])).isSome) = true ∧
    ((atCombine (.put 0 0x900030000 []) [aSlot .filling]).cbuf 1 0).slot (tagSlot 0x900030000) = some (aSlot .filling) ∧
    (tupRig [aReq true .flying] []).reqs.find? (fun x => x.id == 0) = some (aReq true .flying) ∧
    (tupRig [aReq true .flying] []).overtakes (aReq true .flying) = false ∧
    ((tupRig [aReq true .flying] []).modHart fun h => { h with pend := [aStore 0 0 0, (aReq true .flying).access] }).overtakes (aReq true .flying) = true ∧
    (aReq true (.answered 0 7)).phase = .answered 0 7 ∧
    ({ aReq true (.parked 0) with deadline := some 0 } : TupleReq).isParked = true ∧ (some 0).any ({ tupRig [] [] with clock := 1 } : State).over = true ∧ (some 0).any (tupRig [] []).over = false ∧
    (tupRig [aReq true .flying] []).reqInTurn (aReq true .flying) = true ∧ (flown 0).reqInTurn (aReq true .flying) = false ∧
    (tupRig [] []).underTest = [] ∧ (atTest 0x20010480 (combRig 0 [aSlot .closing])).combineHeld ⟨1, 0⟩ (aSlot .closing) = true ∧
    (aReq true (.answered 0 7)).hart < (tupRig [] []).harts.length ∧ psReg (aReq true .flying).f = .p 3 ∧
    (combRig 0 [aSlot .closing]).slotIn ⟨1, 0⟩ 0 .closing = some (aSlot .closing) ∧ planOk (combRig 0 [aSlot .closing]) (aSlot .closing) = true ∧
    ({ combRig 0 [aSlot .closing] with ctxs := [] } : State).slotDesc ag0 0 = none ∧
    (combRig 0 [aSlot .filling]).slotIn ⟨1, 0⟩ 0 .filling = some (aSlot .filling) ∧ (aSlot .filling).deadline.any ({ combRig 0 [] with clock := 1 } : State).over = true ∧ (aSlot .filling).deadline.any (combRig 0 []).over = false ∧
    (combRig 0 [aSlot .ready]).slotIn ⟨1, 0⟩ 0 .ready = some (aSlot .ready) ∧
    (match (combRig 0 [aSlot .ready]).slotDesc ag0 0 with
      | some e => match (combRig 0 [aSlot .ready]).hbmRange ag0.publish .atomic e.ctr 8 with
        | some [(pa, 8)] => !(combRig 0 [aSlot .ready]).poisoned pa 8
        | _ => false
      | none => false) = true ∧
    (∀ x ∈ ((combRig 0 [aSlot .ready]).cbuf 1 0).slots, x.state ≠ .free → (aSlot .ready).alloc ≤ x.alloc) ∧
    ¬(∀ x ∈ ((combRig 0 [{ aSlot .ready with n := 1, alloc := 1 }, aSlot .filling]).cbuf 1 0).slots, x.state ≠ .free → 1 ≤ x.alloc) ∧
    (∀ i, i < ({ aSlot .ready with rows := [(0, 5), (1, 6)] }).experts.length → ∃ r ∈ ({ aSlot .ready with rows := [(0, 5), (1, 6)] }).rows, r.1 = i) := by
  and_intros <;> first
    | decide +kernel
    | exact combine_held

/-- A mesh of one triangle, built, at 0x8000: generation 1 is the newest and bound; its part table at 0x9000, one field at 0xA000. -/
def meshWords (busy : Nat) : List (Nat × Nat) :=
  [(0x20008000, 2 + 2 ^ 31 + 2 ^ 32 + 2 ^ 40 + 2 ^ 48), (0x20008008, 1), (0x20008010, busy), (0x20008018, 0x9000), (0x20008020, 0xA000),
   (0x20008028, 4 + 4 * 2 ^ 32), (0x20008048, 0x4010000000000000), (0x20008050, 0x4010000000000000), (0x20009000, 4), (0x20009020, 2 ^ 32),
   (0x2000A000, 2 ^ 63 + 8), (0x2000A008, 1), (0x2000A010, 1), (0x2000A028, 1), (0x2000B000, 8)]
def aGen : MGen where
  dim := 2
  nodes := [[0, 0], [0x4000000000000000, 0], [0, 0x4000000000000000]]
  cells := [⟨[0, 1, 2], 0, 0, none, 0⟩]
  fams := []
  mids := []
  sides := [[.boundary, .boundary, .boundary]]
  faces := [⟨0, 0, none, false, 1⟩, ⟨0, 1, none, false, 1⟩, ⟨0, 2, none, false, 1⟩]
  first := [0]
  nown := [1]
  ghosts := [[]]
  secret := []
def aMesh : Mesh := ⟨1, 0x8000, 0x20008000, none, some aGen, [], false⟩
def meshRig (busy : Nat) (bound : Bool) (more : List (Nat × Nat)) : State :=
  { rig (meshWords busy ++ more) [(6, 0x8000), (7, 1)] (fun h => { shaped 0x15 1 1 h with binds := if bound then [(0x8000, 1)] else [] }) with
    meshes := [aMesh] }
def aDesc (s : State) : MDesc := s.readDesc 0x8000 0x20008000
def fq : Fields := { d := .v 4, a := .x 6, b := .v 5 }
theorem meshOpen (s : State) (f : Fields)
    (h : (s.still && !s.hart.phased && decide (s.descPa s.agent (s.hart.xr f.a).toNat = some 0x20008000) &&
      decide ((s.hart.xr f.a).toNat = 0x8000) && !s.poisoned 0x20008000 256 && !(aDesc s).bad && !(aDesc s).err) = true) :
    MeshOpen s f (aDesc s) := by
  simp only [Bool.and_eq_true, decide_eq_true_eq, Bool.not_eq_true'] at h
  obtain ⟨⟨⟨⟨⟨⟨a, b⟩, c⟩, d⟩, e⟩, g⟩, i⟩ := h
  exact ⟨⟨a, b, c, by rw [d]; rfl, e, g⟩, i⟩
theorem meshFound (s : State) (f : Fields)
    (h : (s.still && !s.hart.phased && decide (s.descPa s.agent (s.hart.xr f.a).toNat = some 0x20008000) &&
      decide ((s.hart.xr f.a).toNat = 0x8000) && !s.poisoned 0x20008000 256 && !(aDesc s).bad) = true) : MeshFound s f (aDesc s) := by
  simp only [Bool.and_eq_true, decide_eq_true_eq, Bool.not_eq_true'] at h
  obtain ⟨⟨⟨⟨⟨a, b⟩, c⟩, d⟩, e⟩, g⟩ := h
  exact ⟨a, b, c, by rw [d]; rfl, e, g⟩
def aTable (s : State) : List Nat := (s.partTable s.agent (aDesc s)).getD []
theorem partsOpen (s : State)
    (h : (decide (s.partTable s.agent (aDesc s) = some (aTable s)) && decide (s.partLost s.agent (aDesc s) = none) &&
      !(aTable s).any partBad) = true) : PartsOpen s (aDesc s) (aTable s) := by
  simp only [Bool.and_eq_true, decide_eq_true_eq, Bool.not_eq_true'] at h
  exact ⟨h.1.1, h.1.2, h.2⟩
/-- Where no unit holds an error no private array has lost anything, wherever the engine has put its bytes. -/
theorem nothing_lost {s : State} (h : s.poison = []) (g : s.lostRoutes = []) (ag : Agent) (array base bytes : Nat) (items : List (Nat × Nat)) :
    s.privateLost ag array base bytes items = none := by
  have sound (pa n : Nat) : s.poisoned pa n = false := by simp [State.poisoned, State.lost, h, g]
  simp only [State.privateLost, List.find?_eq_none]
  intro x _
  split <;> simp [sound]
/-- The agent of the mesh's hart, and the place of field 0's entry in memory. -/
def fieldPa (s : State) (k : AccessKind) : Option (List (Nat × Nat)) := s.hbmRange s.agent.publish k (fieldAddr (aDesc s) 0 0) 64
theorem witness_MeshQueryResults :
    (meshRig 0 true []).hart.phased = false ∧ meshShape (meshRig 0 true []).hart.geom = none ∧ isTile fq.d = true ∧
    (meshRig 0 true []).Clear fq [] ∧ (meshRig 0 true []).Clear fq [.v 5] ∧ fq.d = .v 4 ∧
    MeshFound (meshRig 0 true []) fq (aDesc (meshRig 0 true [])) ∧
    PartsOpen (meshRig 0 true []) (aDesc (meshRig 0 true [])) (aTable (meshRig 0 true [])) ∧
    (aDesc (meshRig 0 true [])).err = false ∧ (meshRig 0 true []).bindOf (aDesc (meshRig 0 true [])) = some 1 ∧
    ((meshRig 0 true []).mesh 1 0x8000).buf 1 = some aGen ∧ (meshRig 0 true []).intact aGen = true ∧
    bitsAt fq.imm.toNat 0 2 ≤ (aDesc (meshRig 0 true [])).dim ∧ good (cellsOf (meshRig 0 true []).hart fq 1) (fun l => l.length == 1) = true ∧
    (∀ l, (meshRig 0 true []).privateLost (meshRig 0 true []).agent 0 ((aDesc (meshRig 0 true [])).blk 1 4) (4 * 32) l = none) ∧
    (meshRig 0 true []).privateLost (meshRig 0 true []).agent 1 ((aDesc (meshRig 0 true [])).blk 1 5) (4 * 3 * 32) [(0, 0)] = none ∧
    fieldPa (meshRig 0 true []) .load = some [(0x2000A000, 64)] ∧ (meshRig 0 true []).poisoned 0x2000A000 64 = false ∧
    0 < (aDesc (meshRig 0 true [])).nfield ∧
    badRecord ((meshRig 0 true []).readN 0x2000A000 64) = false ∧ ((meshRig 0 true []).readN 0x2000A000 8).testBit 63 = true ∧
    1 ≤ (meshRig 0 true []).readN (0x2000A000 + 40) 8 ∧ (meshRig 0 true [(0x2000A028, 0)]).readN (0x2000A000 + 40) 8 < 1 ∧
    (∃ p ∈ (meshRig 0 true []).hart.geom.cells, (meshRig 0 true []).hart.active fq p = true) := by
  and_intros <;> first
    | decide +kernel
    | exact meshFound _ _ (by decide +kernel)
    | exact partsOpen _ (by decide +kernel)
    | exact clear_of (by decide +kernel)
    | exact nothing_lost rfl rfl _ _ _ _ _
    | exact fun _ => nothing_lost rfl rfl _ _ _ _ _
/-- The last bits that a key takes of each source, and a shape of one element. -/
theorem witness_MortonKeys :
    (31 < 32 ∧ 20 < 21) ∧ (meshRig 0 true []).Clear fq [] ∧ (meshRig 0 true []).hart.phased = false ∧
    meshShape (meshRig 0 true []).hart.geom = none ∧ fq.d = .v 4 ∧ 64 * (meshRig 0 true []).hart.geom.vl ≤ 1024 ∧
    (meshRig 0 true []).hart.geom.vr ≤ 8 ∧ 0 < (meshRig 0 true []).hart.geom.len 0 := by
  and_intros <;> first
    | decide +kernel
    | exact clear_of (by decide +kernel)
def fmw : Fields := { d := .x 5, a := .x 6, b := .x 7 }
theorem witness_MeshUpdateResults :
    MeshFound (meshRig 0 false []) fmw (aDesc (meshRig 0 false [])) ∧ (meshRig 0 false []).Clear fmw [] ∧
    (meshRig 0 false []).bindOf (aDesc (meshRig 0 false [])) = none ∧ (meshRig 0 false []).hart.binds.length < 4 ∧
    (aDesc (meshRig 0 false [])).built = true ∧ Mem.wf (meshRig 0 true []).mem = true ∧
    (aDesc (meshRig 0 true [])).gen = 1 ∧ ((meshRig 0 true []).mesh 1 0x8000).snap = false ∧
    good (cellsOf (meshRig 0 true []).hart fmw 1) (fun _ => true) = true ∧
    (meshRig (2 ^ 63) true []).Clear fmw [] ∧ (aDesc (meshRig (2 ^ 63) true [])).busy = true ∧ (aDesc (meshRig 0 true [])).busy = false ∧
    (jobForms.any fun e => e.2.2 (aDesc (meshRig 0 true []))) = true ∧ (jobForms.all fun e => !e.2.2 (aDesc (meshRig (2 ^ 63) true []))) = true ∧
    (meshRig 0 true []).inTurn (.mesh 1 0x8000) (meshRig 0 true []).hart = true ∧
    ({ meshRig 0 true [] with turns := [⟨.mesh 1 0x8000, 0, none⟩] } : State).inTurn (.mesh 1 0x8000) (meshRig 0 true []).hart = false ∧
    fieldPa (meshRig 0 true []) .store = some [(0x2000A000, 64)] ∧
    good ((meshRig 0 true []).readChk 0xB000 32) (fun r => !badTemplate r.2) = true ∧
    PartsOpen (meshRig 0 true []) (aDesc (meshRig 0 true [])) (aTable (meshRig 0 true [])) ∧
    (meshRig 0 true []).hart.xr fmw.b = 1#64 ∧ fmw.c = .x 0 ∧
    good ((meshRig 0 true []).meshRead (meshRig 0 true []).agent 0xA000 64) (fun w => w.testBit 63 && !badRecord w) = true := by
  and_intros <;> first
    | decide +kernel
    | exact meshFound _ _ (by decide +kernel)
    | exact partsOpen _ (by decide +kernel)
    | exact clear_of (by decide +kernel)
/-- A job of each outcome, a finished one, the first remap of a field and a later one, with and without a place it cannot read, a refresh. -/
def aJob (k : JobKind) (code : Option Nat) (next : Option MGen) : MeshJob := ⟨3, 1, 0x8000, k, fmw, ag0, 1, [], code, next, []⟩
def jobRig (more : List (Nat × Nat)) (j : MeshJob) : State := { meshRig 0 true ((0x2000A018, 64) :: more) with meshJobs := [j] }
def ran (more : List (Nat × Nat)) (j : MeshJob) : Except Nat (State × MGen × List (Origin Nat)) :=
  (jobRig more j).runJob j (aDesc (jobRig more j))
def aRemap (moves : List ((Nat × Nat) × Origin (Nat × Nat))) : Remap := ⟨4, 1, 0x8000, 0x20008000, ag0, 1, 0, 2, moves, []⟩
def aRefresh : Refresh := ⟨5, 1, 0x8000, 0x20008000, ag0, 1, [(0, 0)], 0⟩
def ghostGen : MGen := { aGen with ghosts := [[0]] }
def ghostRig (more : List (Nat × Nat)) : State := { meshRig 0 true more with refreshes := [aRefresh] }
/-- How the copies of the one ghost's sector end. -/
def copied (s : State) : Option Nat :=
  match s.meshRead ag0 0xA000 64 with
  | .ok w => (s.ghostCopy ag0 none (ghostMoves ghostGen w 1 0)).2.2
  | .error _ => some 0
theorem witness_MeshEventResults :
    (jobRig [] (aJob (.balance 0) none none)).meshJobs.find? (·.id == 3) = some (aJob (.balance 0) none none) ∧
    (aDesc (meshRig 0 true [])).blk ((1 + 1) % 2) 2 = 0 ∧ (aDesc (meshRig 0 true [])).blk 0 2 = 0 ∧
    isError (ran [] (aJob (.balance (2 ^ 60)) none none)) = true ∧ good (ran [] (aJob .rebuild none none)) (fun _ => true) = true ∧
    isError (ran [(0x20008018, 2 ^ 60)] (aJob (.init 0x4000) none none)) = true ∧
    good (ran [] (aJob (.init 0x4000) none none)) (fun _ => true) = true ∧
    (aJob .rebuild (some 3) none).code = some 3 ∧ (aJob .rebuild (some 0) (some aGen)).next = some aGen ∧
    ((meshRig 0 true []).mesh 1 0x8000).buf 1 = some aGen ∧
    (aJob .rebuild none none).agent.hart < (meshRig 0 true []).harts.length ∧ ((meshRig 0 true []).hartAt 0).status ≠ HartStatus.saved ∧
    ({ meshRig 0 true [] with remaps := [aRemap []] } : State).remaps.find? (·.id == 4) = some (aRemap []) ∧
    (∃ x ∈ [{ aRemap [] with id := 2 }, aRemap []], x.id < (aRemap []).id ∧ x.ctx = 1 ∧ x.va = 0x8000 ∧ x.field = 0) ∧
    (meshRig 0 true []).remapBroken (aRemap []) = false ∧ (meshRig 0 true []).underTest = [] ∧
    ¬(aDesc (meshRig 0 true [(0x20008070, 1)])).blk 0 2 = 0 ∧ (meshRig 0 true []).intact ghostGen = true ∧
    good ((meshRig 0 true [(0x2000A000, 2 ^ 63 + 7 * 2 ^ 56 + 8)]).meshRead ag0 0xA000 64) badRecord = true ∧
    isError ((meshRig 0 true []).meshRead ag0 (2 ^ 60) 64) = true ∧
    good ((meshRig 0 true []).meshRead ag0 0xA000 64) (fun w => !badRecord w &&
      good ((meshRig 0 true []).remapWrites (aRemap [((0, 0), .same (0, 0))]) w) (fun l => good ((meshRig 0 true []).meshWrites ag0 l) fun _ => true) &&
      isError ((meshRig 0 true []).remapWrites (aRemap [((0, 0), .same (0, 2 ^ 60))]) w)) = true ∧
    (meshRig 0 true []).hbmRange ag0 .store 0x4000 8 = some [(0x20004000, 8)] ∧ good ((meshRig 0 true []).meshWrite ag0 0x4000 9 8) (fun _ => true) = true ∧
    (ghostRig []).refreshes.find? (·.id == 5) = some aRefresh ∧ aRefresh.todo = [(0, 0)] ∧
    copied (ghostRig []) = none ∧ (copied (ghostRig [(0x2000A010, 2 ^ 60)])).isSome = true := by and_intros <;> decide +kernel

/-! Tasks, contexts, the host. -/

/-- A task record at 0x6000, a collective's block at 0x7000, a second virtual die on die 5, and a third in package 1. -/
def taskRig (g : Hart → Hart) : State :=
  rig [(0x20006020, 2 ^ 16), (0x300000, 3), (0x300048, 2 ^ 63 + 5), (0x300050, 2 ^ 63 + 16)] [(6, 0x6000), (7, 1)] g
/-- Communicator 1 of dies 5 and 0, and communicator 2 of die 7. -/
def commRig : State :=
  rig [(0x20000010, 2 ^ 63 + 2), (0x20000018, 0x3000), (0x20003000, 5), (0x20000020, 2 ^ 63 + 1), (0x20000028, 0x3008), (0x20003008, 7)] [] id
theorem witness_TaskResults :
    (taskRig id).Clear fmw [] ∧ (taskRig id).hart.results = [] ∧ (taskRig id).hart.empty = {} ∧ (taskRig id).hart.taskDone = true ∧
    (∀ c ∈ (taskRig id).ctxs, c.preempt = false) ∧ (taskRig id).still = true ∧ (taskRig id).hart.binds = [] ∧ (taskRig id).reqs = [] ∧
    ((taskRig fun h => { h with taskRec := some 0x6000, sr := { h.sr with tn := 2 } }).hart.taskRec.isSome = true ∧ 0 + 1 < (2 : Word).toNat) ∧
    (taskRig id).taskReadChk 0x6000 = .ok 0x20006000 false 0 ∧ (taskRig id).poisoned 0x20006000 64 = false ∧ (taskRig det).hart.det = true ∧
    (taskRig id).vdEntry 0x300000 0 = some (0, 0) ∧ (taskRig id).vdEntry 0x300000 1 = some (0, 5) ∧ (taskRig id).vdEntry 0x300000 2 = some (1, 0) ∧
    (taskRig id).vdEntry 0x300000 3 = none ∧ (taskRig id).ctx = some rigCtx ∧ (taskRig id).hart.phased = false ∧
    (taskRig id).commRanks (taskRig id).agent 0 = none ∧
    (taskRig id).resolve .load false 0x7000 8 = .ok 0x20007000 false 0 ∧ (taskRig id).resolve .store false 0x7000 8 = .ok 0x20007000 false 0 ∧
    good ((taskRig id).commandChk 0x7000 128) (fun _ => true) = true ∧ (commRig.commRanks commRig.agent 1).isSome = true ∧
    (commRig.commRanks commRig.agent 1).any (fun vds => vds.findIdx? (· == commRig.hart.vdid) == some 1) = true ∧
    (commRig.commRanks commRig.agent 2).any (fun vds => vds.contains commRig.hart.vdid) = false :=
  ⟨clear_of (by decide +kernel), by and_intros <;> decide +kernel⟩
/-- A save area at 0x22000000 with a header that has room; a context that is asked to save alone, whole, that stands away. -/
def saveWords (state : Nat) (used limit : Nat) : List (Nat × Nat) :=
  [(0x22000000, 1 + state * 2 ^ 16 + 2 ^ 24), (0x22000008, used), (0x22000010, limit)]
def saveRig (state limit : Nat) (g : Hart → Hart) (c : Ctx → Ctx) : State :=
  { rig (saveWords state 0x100 limit) [] g with ctxs := [c { rigCtx with saveptr := 0x22000000 }], packages := [0, 1] }
def asked (h : Hart) : Hart := { h with preempt := some false }
def waiting (w : Wait) (ttmo : Word) (h : Hart) : Hart := { h with wait := some w, sr := { h.sr with ttmo := ttmo } }
theorem witness_HartEventResults :
    0 < (rigX []).harts.length ∧
    ((rig [] [] fun h => { h with results := [(.x 5, .word 9)] }).hartAt 0).results.find? (·.1 == .x 5) = some (.x 5, .word 9) ∧
    ((rig [] [] fun h => { h with causes := [(cTIMER, 0)] }).hartAt 0).nextCause = some (cTIMER, 0) ∧
    (rigX []).takesSave 0 = false ∧ (saveRig 0 0x100000 asked id).takesSave 0 = true ∧ ((rigX []).hartAt 0).mayTake = true ∧ ((rigX []).hartAt 0).mid = false ∧ ((rigX []).hartAt 0).homeOp = none ∧ ((rigX []).hartAt 0).dcause = none ∧
    ((rig [] [] fun h => { h with results := [(.q 1, .entry 4 0)] }).hartAt 0).results.find? (·.1 == .q 1) = some (.q 1, .entry 4 0) ∧
    ((rigX []).hartAt 0).results.find? (·.1 == .x 5) = none ∧ ((rigX []).hartAt 0).det = false ∧ ((rigX []).hartAt 0).status = HartStatus.running ∧ ((rigX []).hartAt 0).wait = none ∧
    ((rig [] [] (waiting ⟨0, none, false, true, false, false⟩ 5)).hartAt 0).wait = some ⟨0, none, false, true, false, false⟩ ∧ 0 + (5 : Word).toNat ≤ 5 ∧
    4 < 0 + (5 : Word).toNat ∧
    (2 < (3 : Word).toNat ∧ (3 : Word).toNat ≤ 3) := by and_intros <;> decide +kernel
/-- A late store, an outside write, and a walk that finds a leaf. -/
def lateRig : State := rig [] [] fun h => { h with pend := [aStore 0 0x4000 9] }
/-- A store that an order point keeps behind one of another stream. -/
def behindRig : State := rig [] [] fun h => { h with pend := [aStore 0 0x4000 9, point .streams 3, aStore 1 0x4000 9] }
/-- A store in a bank of the scratchpad that is under test. -/
def spadStore : Access := .of 0 false false (.store [⟨0x4000, barPa, 0, 64, 9⟩])
def spadTest (s : State) : State := { s with underTest := [.sramRow 0 barPa] }
def aFlight : Flight := ⟨0x4000, [], 1, 0, ag0, [], (0, 0)⟩
def flightRig : State := copyRig.setChan { copyRig.chan (copyRig.hartChan 0) with flights := [aFlight], tail := 0x4000, last := 0x4000 }
/-- A record in flight that copies 64 bytes from an address, and how its first unit ends. -/
def moving (src : Nat) : State :=
  copyRig.setChan { copyRig.chan (copyRig.hartChan 0) with flights := [{ aFlight with words := [0, 64 * 2 ^ 32 + 8 * 2 ^ 24 + 1, src, 0x6000] }] }
def flying (src : Nat) : Option Nat := ((moving src).advance (copyRig.hartChan 0) 0 1).2
theorem witness_AccessEventResults :
    (lateRig.hartAt 0).pend.find? (fun a => a.stream == 0 && !a.isOrder) = some (aStore 0 0x4000 9) ∧
    (lateRig.hartAt 0).pend.find? (fun a => a.stream == 1 && !a.isOrder) = none ∧
    precursors ((lateRig.hartAt 0).pend.takeWhile (· != aStore 0 0x4000 9)) (aStore 0 0x4000 9) = [] ∧ lateRig.partPoisoned 0x20004000 8 = false ∧
    precursors ((behindRig.hartAt 0).pend.takeWhile (· != aStore 1 0x4000 9)) (aStore 1 0x4000 9) ≠ [] ∧ lateRig.lost 0x20004000 = false ∧ Mem.wf lateRig.mem = true ∧
    (flightRig.chan (copyRig.hartChan 0)).flights[0]? = some aFlight ∧ (flightRig.chan (copyRig.hartChan 0)).quiesced = false ∧
    flightRig.mayMove (copyRig.hartChan 0) 0 = true ∧ (flightRig.advance (copyRig.hartChan 0) 0 0).2 = none ∧ (flying (2 ^ 60)).isSome = true ∧ flying 0x5000 = none ∧
    lateRig.heldUp (aStore 0 0x4000 9) = false ∧ (spadTest lateRig).heldUp spadStore = true ∧ lateRig.armCount = 0 ∧
    (spadTest lateRig).testing barPa 8 = true ∧ lateRig.testing 0x20004000 1 = false ∧ lateRig.isMemory 0x20004000 1 = true ∧ (lateRig.ctxOf (lateRig.hartAt 0).ctx).isSome = true ∧ (0x4000 : Nat) < localBase ∧
    lateRig.walk 0x10000 0x4000 3 = some (0x200001AF, 0x20000000) ∧ leafAllows 0x200001AF .u .load = true := by and_intros <;> decide +kernel
theorem witness_IssueEventResults :
    ((rig [] [] fun h => { h with equeue := 1 }).nextQueued ⟨0, 0, 0⟩).isSome = true ∧ (rigX []).nextQueued ⟨0, 0, 0⟩ = none ∧ ((rigX []).hartAt 0).bound = true ∧ ((rigX []).hartAt 0).core = ⟨0, 0, 0⟩ ∧
    (rigX []).gangs[0]? = some rigGang := by and_intros <;> decide +kernel
/-- A launch record at 0x21000000 that is accepted, one that is not; a gang with a hart to bind; a finished gang; a READY task. -/
def queueRig (w : Nat) : State :=
  ({ rig [(0x21000000, 0x1000), (0x21000008, w), (0x21000010, 0x25), (0x21000018, 1)] [] id with gangs := [] }).modMaster 0 fun m =>
    m.setQueue 0 { base := 0x21000000, en := true, log2n := 4, ctxid := 1, head := 0, tail := 1, bad := false, stale := false }
def goodWord : Nat := 2 ^ 32 + 2 ^ 24 + 2 ^ 16 + 4
def recWords (w : Nat) : List Nat := words16 ((queueRig w).readN 0x21000000 128)
def readyTask : Task := ⟨1, 1, 0, 0x6000, 0, 0, [0x1000, 0, 0, 2 ^ 32 * 0xFFFFFFFF, 2 ^ 16], some (0, 0), false⟩
def readyRig : State := { taskRig id with tasks := [readyTask] }
theorem witness_LaunchResults :
    ((queueRig goodWord).ctxOf 1).isSome = true ∧ ((queueRig goodWord).master 0).queue 0 = { base := 0x21000000, en := true, log2n := 4, ctxid := 1, head := 0, tail := 1, bad := false, stale := false } ∧
    (queueRig goodWord).paOf (0x21000000 + 128 * (0 % 2 ^ 4)) = 0x21000000 ∧ (queueRig goodWord).poisoned 0x21000000 128 = false ∧
    (queueRig goodWord).boundOf 1 ≠ [] ∧ (queueRig goodWord).launchCode rigCtx (recWords goodWord) = none ∧ (queueRig 4).launchCode rigCtx (recWords 4) = some 1 ∧
    (∃ n, ((List.range 1).find? fun h => !({ rigX [] with harts := [] } : State).wasBound { rigGang with bound := 0 } h &&
      (({ rigX [] with harts := [] } : State).takeBlock 0x300000).localDie rigCtx (({ rigGang with bound := 0 } : Gang).vdOfHart h) == some 0) = some n) ∧
    (rigX []).slotFree ⟨0, 0, 0, 1⟩ = true ∧ (rigX []).gangDone rigGang = false ∧ rigGang.ended = false ∧ rigCtx.preempt = false ∧ rigCtx.away = false ∧
    rigCtx.undoing = false ∧ (rigX []).hbmRange (schedAgent 1 0) .atomic 0x4000 8 = some [(0x20004000, 8)] ∧ (rigX []).poisoned 0x20004000 8 = false ∧
    ({ rig [] [] (fun h => { h with status := .exited }) with gangs := [{ rigGang with exited := 1 }] } : State).gangDone { rigGang with exited := 1 } = true ∧
    (readyRig.takeBlock 0x300000).firstReady rigCtx = some readyTask ∧ readyRig.gangOf 1 1 = some rigGang ∧ (readyRig.takeBlock 0x300000).taskFits rigCtx readyTask ⟨0, 0, 0, 1⟩ = true := by
  and_intros <;> first
    | decide +kernel
    | exact ⟨0, by decide +kernel⟩

/-- The machine saved away, with a checkpoint in package 1 of its save area alone. -/
def awayRig : State := saveRig 2 0x100 id fun c => { c with away := true, broken := true }
def aCheckpoint : Checkpoint := { awayRig.snapshot rigCtx 1 (2 ^ 45) with pages := [⟨0x22000000, 0x1000, false, false⟩] }
theorem witness_SaveResumeResults :
    0 < (saveRig 0 0x100000 asked id).harts.length ∧ (saveRig 0 0x100000 asked id).takesSave 0 = true ∧
    ((saveRig 0 0x100000 asked id).hartAt 0).waiting = [] ∧ ((saveRig 0 0x100000 asked id).ctxOf 1).isSome = true ∧
    (saveRig 1 0x100000 asked fun c => { c with preempt := true }).takesSave 0 = true ∧
    bitsAt (((saveRig 1 0x100000 asked fun c => { c with preempt := true }).stopHart 0).saveWord 0x22000000 0) 16 8 = 1 ∧
    ((saveRig 0 0x100000 asked id).take 0x22000000 (((saveRig 0 0x100000 asked id).stopHart 0).hartAt 0 |>.imageSize 0)).isSome = true ∧
    (saveRig 0 0x100000 asked id).awaitsJob 0 = false ∧
    ({ saveRig 0 0x100000 asked id with meshJobs := [aJob .rebuild none none] } : State).awaitsJob 0 = true ∧
    ((saveRig 0 0x100000 asked id).hartAt 0).pend = [] ∧ (spadTest (saveRig 0 0x100000 asked id)).heldUp spadStore = true ∧
    (saveRig 0 0x100000 id id).isAway 1 = false ∧ awayRig.isAway 1 = true ∧
    (({ awayRig with harts := awayRig.harts.map fun h => { h with status := .halted } } : State).hartAt 0).status = HartStatus.halted ∧
    (saveRig 0 0x100 id id).takesSave 0 = false ∧ ((saveRig 0 0x100 id id).hartAt 0).status = HartStatus.running ∧
    ((saveRig 0 0x100 id id).die 0).resuming = none ∧ (0x22000000 : Nat) % 2 ^ 12 = 0 ∧ (0x22000000 : Nat) < 2 ^ 58 ∧
    (((saveRig 3 0x100 id id).modDie 0 fun x => { x with resuming := some 0x22000000 }).die 0).resuming = some 0x22000000 ∧
    (saveRig 3 0x100 id id).saveWord 0x22000000 6 = 0 ∧ ((saveRig 3 0x100 id id).areaCtx 0x22000000).isSome = true ∧
    (saveRig 0 0x100 id id).slotFree ⟨0, 0, 0, 1⟩ = true ∧ (saveRig 0 0x100 id id).slotFree ⟨0, 0, 0, 0⟩ = false ∧
    ((saveRig 0 0x100 id id).die 0).srcarve ≤ 16 ∧ ((saveRig 0 0x100 id id).die 0).srcarve = ((saveRig 0 0x100 id id).die 1).srcarve ∧
    (saveRig 0 0x100 id id).boundOf 1 ≠ [] ∧ (saveRig 0 0x100 id id).boundOf 2 = [] ∧ (saveRig 0 0x100 id id).collOn rigCtx 0 = false ∧
    (saveRig 0 0x100 id id).packages.contains 1 = true ∧ (saveRig 0 0x100 id id).lost (1 * 2 ^ 45) = false ∧
    awayRig.enginesBusy 1 = false ∧ (awayRig.ctxOf 1).any (·.away) = true ∧ (awayRig.ctxOf 1).any (·.broken) = true ∧
    bitsAt (awayRig.saveWord 0x22000000 0) 16 8 = 2 ∧ awayRig.peerOk 1 = true ∧ awayRig.peerOk 0 = false ∧
    awayRig.checkpoints.find? (·.ctx.ctxid == 1) = none ∧ (rigCtx.away = false ∧ rigCtx.broken = false) ∧
    ((keptPages (awayRig.snapshot rigCtx 1 0).pages).head?.any fun x => pkgOf (0 + x.2) != 1) = true ∧
    ({ awayRig with checkpoints := [aCheckpoint] } : State).checkpoints.find? (·.ctx.ctxid == 1) = some aCheckpoint ∧
    (∀ x ∈ keptPages aCheckpoint.pages, awayRig.poisoned (2 ^ 45 + x.2) x.1.size = false ∧ awayRig.isPageMemory (movedTo [] x.1.pa) = true) ∧
    (∃ x ∈ keptPages aCheckpoint.pages, awayRig.isPageMemory (movedTo [(0x22000000, 2 ^ 58)] x.1.pa) = false) := by
  and_intros <;> decide +kernel
/-- A context with a save area and an empty table, whose checkpoint has room. -/
def bareRig : State :=
  { awayRig with mem := (saveWords 2 0x100 0x100).foldl (fun m w => Mem.setN m w.1 w.2 8) [] }
theorem witness_CheckpointFits :
    (keptPages (bareRig.snapshot { rigCtx with ptroot := 0, saveptr := 0x22000000 } 1 (2 ^ 45)).pages).all (fun x =>
      !bareRig.poisoned x.1.pa x.1.size && pkgOf (2 ^ 45 + x.2) == 1 && bareRig.isHbm (2 ^ 45 + x.2) && bareRig.isHbm (2 ^ 45 + x.2 + x.1.size - 1)) =
      true := by decide +kernel
/-- An aperture's last unit, and the byte after it; a queue whose tail may move; a hart to ring. -/
def hostRig : State := (rigX []).modMaster 1 fun m => { m with apBase := 0x10000, apLimit := 0x20000, hdtgt := 2 ^ 32 }
theorem witness_HostResults :
    hostRig.host.enabled.contains 0 = true ∧ hostRig.host.enabled.contains 1 = false ∧ hostRig.bar2Refused 0 0x4000 8 = false ∧
    hostRig.bar2Refused 0 (2 ^ 40) 8 = true ∧ hostRig.poisoned (hostRig.paOf 0x4000) 8 = false ∧ hostRig.partPoisoned (hostRig.paOf 0x4000) 8 = false ∧
    hostRig.testing (hostRig.paOf 0x4000) 8 = false ∧ (atTest (hostRig.paOf 0x4000) hostRig).testing (hostRig.paOf 0x4000) 8 = true ∧
    Mem.wf hostRig.mem = true ∧ hostRig.assigned 0 1 = true ∧ hostRig.assigned 1 1 = false ∧ bitsAt (0x0004000000000000 : BitVec 64).toNat 32 16 = 0 ∧
    hostRig.assigned 0 0 = false ∧
    bitsAt (hostRig.master 1).hdtgt.toNat 32 32 = 1 ∧ hostRig.gangOf 1 1 = some rigGang ∧ rigGang.ended = false ∧
    (0 : Nat) < rigGang.nhart + rigGang.taskBinds ∧ (hostRig.hartAt 0).status = HartStatus.running ∧
    (hostRig.harts.findIdx? fun h => h.ctx == 1 && h.gang == 1 && h.hartid == 0) = some 0 ∧ hostRig.ctxOf 2 = none ∧
    hostRig.ctxOf 1 = some rigCtx ∧ rigCtx.func ≠ bitsAt (0x8000000100000000 : BitVec 64).toNat 32 5 := by
  and_intros <;> first
    | decide +kernel
    | exact testing_row _ _ _ rfl
/-- An owner, a claim, a lapse; a request within its master's aperture, and one outside; an unread entry of the log. -/
def trustRig : State :=
  (((rigX []).modHost fun h => { h with requests := [(rigX []).attReq 0], claims := [3] }).modMaster 0 fun m =>
    { m with apBase := 0x10000, apLimit := 0x20000 }).logEvent 0 1 0
theorem witness_TrustResults :
    (rigX []).host.owner = 32 ∧ (32 : Nat) ≠ (3 : Master).val ∧ bitsAt (5 : BitVec 64).toNat 0 6 ≤ 32 ∧ bitsAt (5 : BitVec 64).toNat 0 6 ≠ 32 ∧
    ({ rigX [] with clock := 3000000000 } : State).time ≤ (rigX []).host.beatAt + 2000000000 ∧
    (rigX []).host.beatAt + 2000000000 < ({ rigX [] with clock := 3000000002 } : State).time ∧
    (rigX []).host.claims = [] ∧ trustRig.host.claims ≠ [] ∧ (rigX []).host.halted = false ∧
    ((rigX []).master 0).abusy = false ∧ ((rigX []).modMaster 0 fun m => { m with abusy := true }).host.requests = [] ∧
    (((rigX []).modMaster 0 fun m => { m with abusy := true }).master 0).abusy = true ∧
    trustRig.host.requests = [(rigX []).attReq 0] ∧ ((rigX []).attReq 0).master < 33 ∧ (rigX []).inAperture 3 0 2740 = false ∧
    trustRig.inAperture 0 ((rigX []).attReq 0).adst 2740 = true ∧ trustRig.isHbm (trustRig.paOf ((rigX []).attReq 0).adst) = true ∧
    trustRig.isHbm (trustRig.paOf (((rigX []).attReq 0).adst + 2739)) = true ∧ Mem.wf trustRig.mem = true ∧
    (trustRig.log.filter fun e => e.source == (trustRig.master 0).elsel && decide (0 ≤ e.seq)).getLast?.isSome = true ∧
    (trustRig.master 0).cursors = [] ∧ ((rigX []).log.filter fun e => e.source == ((rigX []).master 0).elsel && decide (0 ≤ e.seq)) = [] := by
  and_intros <;> decide +kernel
/-- Earlier errors of a link under test; alerts of a channel; a die whose channels have used every spare. -/
def ledger (n : Nat) : State :=
  { rigX [] with underTest := [.port 3], transients := List.replicate n ⟨.port 3, 0⟩, alerts := List.replicate n (2, 5, 0) }
def spent : State := { rigX [] with fenced := List.replicate Config.channelSpares.toNat (.hbmChannel 2 1) }
theorem witness_RasResults :
    (unitDie (.port 3) = none ∧ isLink (.ucie 3) = true ∧ unitDie (.ucie 3) = some 3 ∧ isSpared (.hbmRow 0 0) = true ∧
      isSpared (.laneGroup ⟨0, 0, 0⟩ 0) = false) ∧ ((rigX []).harvested = [] ∧ ∀ h ∈ (rigX []).harts, h.pend = []) ∧
    isLink (.port 3) = true ∧ (36 + 3 : Nat) = logSource (.port 3) ∧ isLink (.die 3) = false ∧ (22 : Nat) = logSource (.hbmChannel 2 5) ∧
    unitDie (.hbmChannel 2 5) = some 2 ∧ .port 3 ∉ (rigX []).underTest ∧ .port 3 ∈ (ledger 0).underTest ∧
    ((ledger 14).transients.filter fun x => x.unit == .port 3 && decide ((ledger 14).time < x.at_ + 86400000000000)).length +
      (ledger 14).underTest.count (.port 3) < 16 ∧
    16 ≤ ((ledger 15).transients.filter fun x => x.unit == .port 3 && decide ((ledger 15).time < x.at_ + 86400000000000)).length +
      (ledger 15).underTest.count (.port 3) ∧
    (∀ n, ((ledger n).alerts.filter fun x => decide ((ledger n).time ≤ x.2.2 + Config.replayWindow.toNat) && (x.1 == 2 && x.2.1 == 5)).length = n) ∧
    ErrUnit.hbmChannel 2 5 ∉ (ledger 2).fenced ∧ (rigX []).underTest = [] ∧
    (Config.channelSpares.toNat ≤ (spent.fenced.filter fun x => match x with
      | .hbmChannel e _ => e == 2
      | _ => false).length ∧ ErrUnit.hbmChannel 2 5 ∉ spent.fenced ∧ (spent.pkg, 2) ∉ spent.harvested) ∧
    ((rigX []).hartAt 0).onSlot = true ∧ (rigX []).host.owner = 32 ∧ (1 : Nat) ≠ (rigX []).pkg := by
  and_intros <;> first
    | decide +kernel
    | intro n
      simp [ledger, rigX, rig, State.reset, State.time]
    | simp [spent, List.mem_replicate]
/-- A channel with nothing handed, one whose record's chain ends, one with a record to start, one with a record that has moved; a
prefetch; a command. -/
def chainRig (w : List (Nat × Nat)) : State :=
  let s := { rig w [(6, 0x4000)] id with bufs := buffers }
  s.setChan { s.chan (s.hartChan 0) with head := 0x4000, tail := 0x4000, handed := [⟨0x4000, ag0⟩] }
def copyWords (dst : Nat) : List (Nat × Nat) := [(0x20004008, 64 * 2 ^ 32 + 8 * 2 ^ 24 + 1), (0x20004010, 0x5000), (0x20004018, dst)]
def goes (w : Walk) : Nat :=
  match w with
  | .idle => 0
  | .fail _ c _ _ => c
  | .go _ _ _ => 1000
/-- Whether the record a channel starts has room on the scoreboard. -/
def hasRoom (s : State) : Bool :=
  match s.walkNext (copyRig.hartChan 0) with
  | .go ag addr _ => !s.claimed (copyRig.hartChan 0) addr &&
      decide ((s.claimsOf ag (copyRig.hartChan 0) addr).length ≤ s.scoreFree ⟨ag.place.die, ag.place.cluster, ag.place.core⟩)
  | _ => false
def crowded (s : State) : State := { s with score := List.replicate 32 ⟨⟨0, 0, 0⟩, 0, 0, false, copyRig.hartChan 0, 0x8000⟩ }
def prefetching (txb : Nat) : State := { bufRig [] id with prefetches := [⟨8, ag0, 0x4000, 2, txb⟩] }
def aCommand (w : List Nat) : BaseOp := ⟨8, .gather, ag0, 0x4000, w, 0⟩
def commandRig (w : List Nat) : State := { bufRig [] id with baseOps := [aCommand w] }
/-- A gather of one unit of 8 bytes; the same with a credit for the barrier, of 64 bytes. -/
def gatherWords : List Nat := [0x4000, 0x5000, 0x6000, 1 + 3 * 2 ^ 32, 0, 0, 0]
def creditWords : List Nat := [0x4000, 0x5000, 0x6000, 1 + 6 * 2 ^ 32, 0, spadWin + 0x2000, 0]
theorem witness_EngineEventResults :
    goes (copyRig.walkNext (copyRig.hartChan 0)) = 0 ∧ 0 < goes ((chainRig []).walkNext (copyRig.hartChan 0)) ∧
    goes ((chainRig []).walkNext (copyRig.hartChan 0)) < 256 ∧ goes ((chainRig (copyWords 0x6000)).walkNext (copyRig.hartChan 0)) = 1000 ∧
    ag0.hart < copyRig.harts.length ∧ (copyRig.hartAt 0).gone = false ∧ (copyRig.hartAt 0).status ≠ HartStatus.saved ∧
    hasRoom (chainRig (copyWords (spadWin + 0x40))) = true ∧ goes ((crowded (chainRig (copyWords (spadWin + 0x40)))).walkNext (copyRig.hartChan 0)) = 1000 ∧
    hasRoom (crowded (chainRig (copyWords (spadWin + 0x40)))) = false ∧
    ((chainRig []).bufOf 1 (copyRig.hartChan 0) (spadWin + 0x40)).isSome = true ∧ inSpadWin 0x5000 = false ∧
    (copyRig.chan (copyRig.hartChan 0)).flights = [] ∧
    (flightRig.chan (copyRig.hartChan 0)).flights = [aFlight] ∧ (flightRig.chan (copyRig.hartChan 0)).quiesced = false ∧
    flightRig.mayMove (copyRig.hartChan 0) 0 = true ∧ aFlight.addr < localBase ∧ (flightRig.chan (copyRig.hartChan 0)).seqw = 0 ∧
    (recOf aFlight.words).inc = false ∧ flightRig.lost 0x20004008 = false ∧ flightRig.partPoisoned 0x20004008 8 = false ∧
    good (flightRig.engRange ag0.publish 0 0 .store (0x4000 + 8) 8) (· == [(0x20004008, 8)]) = true ∧
    goes ((moving (2 ^ 60)).walkNext (copyRig.hartChan 0)) = 0 ∧ (flying (2 ^ 60)).any (· < 256) = true ∧
    Mem.wf copyRig.mem = true ∧ good (copyRig.readUnit ag0 (copyRig.hartChan 0) ⟨none, some 0x5000, 0x6000, 8, 0⟩) (fun _ => true) = true ∧
    good (copyRig.engRange ag0 0 0 .store 0x6000 8) (· == [(0x20006000, 8)]) = true ∧ copyRig.hitsBarrier 1 0 0 0x6000 8 = false ∧
    (prefetching 0).prefetches.find? (·.id == 8) = some ⟨8, ag0, 0x4000, 2, 0⟩ ∧
    (prefetching 0).barAt 1 0 0 0 = none ∧ (prefetching 0).barAt 1 0 0 barWord.toNat = some barPa ∧
    (commandRig gatherWords).baseOps.find? (·.id == 8) = some (aCommand gatherWords) ∧ (rigX []).baseOps.find? (·.id == 8) = none ∧
    ((commandRig gatherWords).baseHeld (aCommand gatherWords) = false ∧
      (spadTest (commandRig creditWords)).baseHeld (aCommand (gatherWords.set 6 (spadWin + 0x2000))) = true) ∧
    ((prefetching 0).agentHeld ag0 [(0x4000, 64)] = false ∧ (spadTest (prefetching 0)).agentHeld ag0 [(spadWin + 0x2000, 64)] = true) ∧
    ((prefetching 0).awayAt ag0 (spadWin + 0x2000) = false ∧
      ({ prefetching 0 with ctxs := [{ rigCtx with away := true }] } : State).awayAt ag0 (spadWin + 0x2000) = true) ∧
    (flightRig.retireHeld (copyRig.hartChan 0) aFlight = false ∧ (spadTest (bufRig [] id)).retireHeld (copyRig.hartChan 0)
      { aFlight with words := [0, 64 * 2 ^ 32 + 8 * 2 ^ 24 + 1, 0x5000, spadWin + 0x2000] } = true) ∧
    ((flightRig.setChan { flightRig.chan (copyRig.hartChan 0) with quiesced := true }).chan (copyRig.hartChan 0)).quiesced = true ∧
    good ((commandRig gatherWords).baseRun (aCommand gatherWords)) (fun _ => true) = true ∧
    good ((commandRig creditWords).baseRun (aCommand creditWords)) (fun _ => true) = true ∧
    isError ((commandRig []).baseRun (aCommand (gatherWords.set 0 (2 ^ 60)))) = true := by
  and_intros <;> decide +kernel
/-- A collective of one rank that sums 16 integers, before and after its data are read; an all-gather of two ranks, one in another package. -/
def aCall (rank op : Nat) (d : Option Nat) : CollCall :=
  ⟨rank, ag0, 0x7000, [0x8210 + op, 0x40000, 0x50000, 16, 0, 0, 0, 0, 0, 0, 0, 0, 0, 0, 0, 0], [], d, false, [], false, false⟩
def aColl (d : Option Nat) (code : Option Nat) : Coll := ⟨6, 1, 0, 0, [0], [aCall 0 0 d], code, none⟩
def collRig (d : Option Nat) : State := { rigX [] with colls := [aColl d none] }
theorem witness_CollectiveEventResults :
    (rigX []).coll 6 = none ∧ (collRig none).coll 6 = some (aColl none none) ∧ (aColl none none).call 0 = some (aCall 0 0 none) ∧
    (aColl none none).call 1 = none ∧ (aColl none none).code = none ∧ collBad (aCall 0 0 none).words 1 = false ∧
    (collRig none).collSpoilt (aCall 0 0 none) 1 = false ∧ (collRig none).collLost (aCall 0 0 none) 1 = false ∧ (aCall 0 0 none).put = [] ∧
    ((collRig none).collRange (aCall 0 0 none) .load (aCall 0 0 none).b.send ((aCall 0 0 none).b.sendBytes 1)).isSome = true ∧
    (collRig (some 0)).collCodes (aColl (some 0) none) = [] ∧ (aCall 0 0 (some 0)).b.ctr = 0 ∧
    (∀ r, r < (aColl (some 0) none).vds.length → (collRig (some 0)).collRemote (aColl (some 0) none) r = true ∨
      ∃ y ∈ (aColl (some 0) none).calls, y.rank = r ∧ y.data.isSome = true) ∧
    (1 : BitVec 8).toNat ∉ (collRig (some 0)).collCodes (aColl (some 0) none) ∧ (3 : BitVec 8).toNat ∈ (collRig none).collCodes (aColl none (some 3)) ∧
    Mem.wf (collRig (some 0)).mem = true ∧ (∃ va m v, (aColl (some 0) none).parts (aCall 0 0 (some 0)) = [(va, m, some v)] ∧
      (collRig (some 0)).hbmRange ag0 .store va m = some [(0x20050000, m)]) ∧
    (aCall 0 2 none).b.writes 0 = true ∧ (aCall 0 2 none).b.op = 2 ∧ (aCall 0 3 none).b.writes 0 = true ∧ (aCall 0 3 none).b.op = 3 ∧
    ((aCall 0 0 none).b.writes 0 = true ∧ (aCall 0 0 none).b.op ≠ 2 ∧ (aCall 0 0 none).b.op ≠ 3) := by
  and_intros <;> first | decide +kernel | exact ⟨0x50000, 64, 0, by decide +kernel, by decide +kernel⟩
theorem witness_ResetState : Mem.wf State.reset.mem = true := by decide

end

end Sys2Proof.Tests
end

section
/-! Number formats: the rounding rule, the scalar floating-point instructions, and the element-wise vector instructions. -/
namespace Sys2Proof.Machine

/-! Rounding a magnitude (R42, R43): in each mode, what is added to the quotient. -/

theorem roundMag_inexact (mode : Rm) (neg : Bool) (m k : Nat) : (roundMag mode neg m k).2 = decide (m % 2 ^ k ≠ 0) := by
  simp only [roundMag]; split <;> simp_all
theorem roundMag_exact {m k : Nat} (mode : Rm) (neg : Bool) (h : m % 2 ^ k = 0) : (roundMag mode neg m k).1 = m / 2 ^ k := by
  simp [roundMag, h]
theorem roundMag_rtz (neg : Bool) (m k : Nat) : (roundMag .rtz neg m k).1 = m / 2 ^ k := by
  simp only [roundMag]; split <;> rfl
theorem roundMag_rdn (neg : Bool) (m k : Nat) :
    (roundMag .rdn neg m k).1 = if neg then m / 2 ^ k + (if m % 2 ^ k = 0 then 0 else 1) else m / 2 ^ k := by
  simp only [roundMag]; split <;> cases neg <;> simp_all
theorem roundMag_rup (neg : Bool) (m k : Nat) : (roundMag .rup neg m k).1 = (roundMag .rdn (!neg) m k).1 := rfl
theorem roundMag_rna (neg : Bool) (m k : Nat) :
    (roundMag .rna neg m k).1 = m / 2 ^ k + if 2 ^ k ≤ 2 * (m % 2 ^ k) then 1 else 0 := by
  by_cases h : m % 2 ^ k = 0
  · simp [roundMag, h]
  · simp only [roundMag, h, if_false, ge_iff_le, decide_eq_true_eq]
    split <;> rfl
theorem roundMag_rne (neg : Bool) (m k : Nat) :
    (roundMag .rne neg m k).1 =
      m / 2 ^ k + if 2 ^ k < 2 * (m % 2 ^ k) ∨ 2 * (m % 2 ^ k) = 2 ^ k ∧ m / 2 ^ k % 2 = 1 then 1 else 0 := by
  by_cases h : m % 2 ^ k = 0
  · have : 2 ^ k ≠ 0 := Nat.ne_of_gt (Nat.two_pow_pos k)
    simp [roundMag, h, this.symm]
  · simp only [roundMag, h, if_false, gt_iff_lt, Bool.or_eq_true, Bool.and_eq_true, decide_eq_true_eq, beq_iff_eq]
    split <;> rfl

/-- A quotient rounded up is one more than the quotient where a remainder is left. -/
theorem ceil_div (m : Nat) {d : Nat} (hd : 0 < d) : (m + d - 1) / d = m / d + if m % d = 0 then 0 else 1 := by
  have hd' : d - 1 < d := by omega
  rw [Nat.add_sub_assoc hd, Nat.add_div hd, Nat.div_eq_of_lt hd', Nat.mod_eq_of_lt hd']
  split <;> split <;> omega
/-- A quotient rounded to nearest, ties up, is one more than the quotient from half a divisor on. -/
theorem half_up_div (m : Nat) {d : Nat} (hd : 0 < d) : (2 * m + d) / (2 * d) = m / d + if d ≤ 2 * (m % d) then 1 else 0 := by
  have hd' : d < 2 * d := by omega
  rw [Nat.add_div (by omega), Nat.mul_div_mul_left _ _ (by omega), Nat.mul_mod_mul_left, Nat.div_eq_of_lt hd', Nat.mod_eq_of_lt hd']
  split <;> split <;> omega

/-- Settles O4: each mode adds to the quotient what its remainder asks for. -/
theorem roundingRule : Obligations.RoundingRule := by
  unfold Obligations.RoundingRule
  intro neg m k
  have hd : 0 < 2 ^ k := Nat.two_pow_pos k
  refine ⟨fun mode => roundMag_inexact mode neg m k, fun mode h => ?_, roundMag_rtz neg m k, ?_, ?_, ?_, ?_⟩
  · rw [roundMag_exact mode neg h, Nat.div_mul_cancel (Nat.dvd_of_mod_eq_zero h)]
  · rw [roundMag_rdn, ceil_div m hd]
  · rw [roundMag_rup, roundMag_rdn, ceil_div m hd]
    cases neg <;> rfl
  · rw [roundMag_rna, Nat.pow_succ, Nat.mul_comm (2 ^ k) 2, half_up_div m hd]
  · intro q
    have hq : q = _ := roundMag_rne neg m k
    have hm : 2 ^ k * (m / 2 ^ k) + m % 2 ^ k = m := Nat.div_add_mod m _
    have hr := Nat.mod_lt m hd
    rw [hq, Nat.add_mul, Nat.mul_comm _ (2 ^ k)]
    split <;> omega

/-! Scalar floating point (R85 to R88). -/

/-- A scalar floating-point operation in a state in which nothing delays it: a long-latency one gives its result at once, too. -/
theorem fpOp_completes {s : State} {f : Fields} (op : FpFmt → Rm → Nat → Nat → Nat → Nat × Flags) (long : Bool) (c : s.Clear f []) :
    fpOp f op long s = .next (s.completes f fun h =>
      let r := op (ftOf f) (h.rm f) (h.fbits (ftOf f) f.a) (h.fbits (ftOf f) f.b) (h.fbits (ftOf f) f.c)
      (h.flag r.2).put f.d (asScalar f.d (BitVec.ofNat 64 r.1))) := by
  rw [fpOp, aside, issue_completes _ _ c rfl rfl rfl]
  refine congrArg _ (completes_congr _ _ _ _ ?_)
  cases long with
  | false => rfl
  | true => exact produce_put _ _ _ c.onTime

/-- Each form of R85 to R87 is the operation of its row. -/
theorem fpForms_fpOp : ∀ e ∈ fpForms, ∃ long, ∀ f s, exec (e.1 f) s = fpOp f e.2 long s := by
  simp only [fpForms, List.forall_mem_cons, List.not_mem_nil, false_implies, implies_true, and_true]
  and_intros
  all_goals exact ⟨_, fun _ _ => rfl⟩

/-- Settles O3: each form of the table is its `fpOp`, and `fcvt` has its effect on the hart alone. -/
theorem scalarFpResults : Obligations.ScalarFpResults := by
  unfold Obligations.ScalarFpResults
  intro f s c
  refine ⟨fun e he => ?_, ?_⟩
  · obtain ⟨long, h⟩ := fpForms_fpOp e he
    rw [h, fpOp_completes e.2 long c]
    exact congrArg _ (completes_congr _ _ _ _ rfl)
  · rw [exec_fcvt, execFcvt, aside, issue_completes _ _ c rfl rfl rfl]
    exact congrArg _ (completes_congr _ _ _ _ rfl)

/-! Element-wise vector instructions (R107 to R118). -/

/-- A form with room in the E-queue completes at its fork with the effect of its table. -/
def EForm.Completes (e : EForm) : Prop :=
  ∀ (f : Fields) (s : State), s.ClearFork f (e.also f s.hart) → e.chk f s.hart.geom = none →
    exec (e.instr f) s = .next (s.forks f fun h => e.effect f h h.geom)

/-- A scalar destination is one of the registers an instruction waits for. -/
theorem dest_waits (f : Fields) (also : List Reg) (h : isScalar f.d = true) : f.d ∈ waitsFor f also := by
  unfold waitsFor
  cases hd : f.d <;> simp_all [isScalar]
@[simp] theorem putTile_late (h : Hart) (r : Reg) (t : Nat) (any : Bool) : (h.putTile r t any).late = h.late := by
  unfold Hart.putTile; split <;> simp

/-- An E-side operation completes as its row says where its effect agrees with the row's on a hart with nothing late. -/
theorem esideOp_completes {e : EForm} {long : Bool} {w : Fields → List Reg} {rd : Fields → Hart → List Reg}
    {body : Fields → Hart → Geom → Hart}
    (hx : ∀ f s, exec (e.instr f) s = esideOp long (w f) (rd f s.hart) f (e.chk f) (e.also f) (body f) s)
    (hr : ∀ f h, ∀ r ∈ rd f h, isScalar r = true → r ∈ waitsFor f (e.also f h))
    (hb : ∀ f h, h.late = [] → body f h h.geom = e.effect f h h.geom) : e.Completes := by
  intro f s c hi
  rw [hx]
  exact esideOp_forks c (hr f s.hart) hi (hb f s.hart c.onTime)

/-- A sweep over the active elements that reads no other register than those its fields name: D always, or only where a mask may keep
elements of it. -/
theorem elementwise_completes {mk : Fields → Instr} {ok : Nat → Bool} {anyBl imm long : Bool}
    {op : Fields → Hart → Geom → Nat → Nat → Nat → Nat → Nat × Flags} {rd : Fields → List Reg}
    (hx : ∀ f s, exec (mk f) s = esideOp long [] (rd f) f (fmtChk f ok anyBl) noneAlso
      (fun h => sweepBody f imm long (op f h) h) s)
    (hr : ∀ f, ∀ r ∈ rd f, r = f.d) : (elementwise mk ok anyBl imm op).Completes :=
  esideOp_completes (e := elementwise mk ok anyBl imm op) (rd := fun f _ => rd f) hx
    (fun f _ r hm hs => by rw [hr f r hm] at hs ⊢; exact dest_waits f [] hs)
    fun f h hl => sweepBody_pass f imm long (op f h) h hl

/-- Each integer form is its sweep; the accumulating ones read D under any mask. -/
theorem vectorIntForms_complete : ∀ e ∈ vectorIntForms, e.Completes := by
  simp only [vectorIntForms, intForm, List.forall_mem_append, List.forall_mem_cons, List.not_mem_nil, false_implies, implies_true, and_true]
  and_intros
  all_goals exact elementwise_completes (fun _ _ => rfl) (by simp [mergeReads])

/-- Each floating-point form is its sweep. -/
theorem vectorFpForms_complete : ∀ e ∈ vectorFpForms, e.Completes := by
  simp only [vectorFpForms, vfpForm, List.forall_mem_cons, List.not_mem_nil, false_implies, implies_true, and_true]
  and_intros
  all_goals exact elementwise_completes (fun _ _ => rfl) (by simp [mergeReads])

/-- An E-side operation whose effect is its row's. -/
theorem esideOp_effect {e : EForm} (w : Fields → List Reg) (rd : Fields → Hart → List Reg)
    (hx : ∀ f s, exec (e.instr f) s = esideOp false (w f) (rd f s.hart) f (e.chk f) (e.also f) (e.effect f) s)
    (hr : ∀ f h, ∀ r ∈ rd f h, isScalar r = true → r ∈ waitsFor f (e.also f h)) : e.Completes :=
  esideOp_completes hx hr fun _ _ _ => rfl

theorem cmpForm_completes {mk : Fields → Instr} {k : Nat} (hx : ∀ f s, exec (mk f) s = vfcmpOp k f s) : (cmpForm mk k).Completes :=
  esideOp_effect (fun _ => []) (fun f _ => mergeReads f) hx (fun f _ => mergeReads_waits f _)

/-- A word of a tile by division and by extraction. -/
theorem ofNat_bitsAt (t : Tile) (lo : Nat) : BitVec.ofNat 64 (bitsAt t.toNat lo 64) = t.extractLsb' lo 64 := by
  apply BitVec.eq_of_toNat_eq
  simp [bitsAt, Nat.shiftRight_eq_div_pow]
theorem bitsAt_zero (n k : Nat) : bitsAt n 0 k = n % 2 ^ k := by simp [bitsAt]

theorem isScalar_scaleReg (r : Reg) : ∀ q ∈ scaleReg r, isScalar q = false := by
  cases r <;> simp [scaleReg, isScalar]
theorem isScalar_scalesRead (f : Fields) (h : Hart) : ∀ q ∈ scalesRead f h, isScalar q = false := by
  unfold scalesRead; split
  · simp
  · exact isScalar_scaleReg f.a
/-- The counter of `vrnd` is among the registers it waits for. -/
theorem vrnd_waits (f : Fields) :
    ∀ r ∈ f.b :: regAfter f.b :: mergeReads f, isScalar r = true → r ∈ waitsFor f [regAfter f.b] := by
  intro r hm hs
  obtain rfl | rfl | hm := by simpa using hm
  · simp [waitsFor]
  · simp [waitsFor]
  · exact mergeReads_waits f _ r hm hs
/-- The registers of `vfcvt`: only a merged D may be a scalar. -/
theorem vfcvt_waits (f : Fields) (h : Hart) (also : List Reg) :
    ∀ r ∈ mergeReads f ++ scalesRead f h, isScalar r = true → r ∈ waitsFor f also := by
  intro r hm hs
  obtain hm | hm := List.mem_append.1 hm
  · exact mergeReads_waits f _ r hm hs
  · simp [isScalar_scalesRead f h r hm] at hs

/-- The comparisons, conversion, quantisation, moves, random numbers and the code table. -/
theorem vectorMoveForms_complete : ∀ e ∈ vectorMoveForms, e.Completes := by
  simp only [vectorMoveForms, List.forall_mem_cons, List.not_mem_nil, false_implies, implies_true, and_true]
  refine ⟨cmpForm_completes fun _ _ => rfl, cmpForm_completes fun _ _ => rfl, cmpForm_completes fun _ _ => rfl,
    cmpForm_completes fun _ _ => rfl, ?vfcvt, elementwise_completes (fun _ _ => rfl) (by simp [mergeReads]),
    elementwise_completes (fun _ _ => rfl) (by simp [mergeReads]), elementwise_completes (fun _ _ => rfl) (by simp [mergeReads]),
    ?vmvXv, ?vrnd, ?vrndAdv, ?ctabw, ?ctabwX, ?vmxq⟩
  case vfcvt => exact esideOp_effect (fun _ => []) (fun f h => mergeReads f ++ scalesRead f h) (fun _ _ => rfl) fun f h => vfcvt_waits f h _
  case vrnd => exact esideOp_effect (fun _ => []) (fun f _ => f.b :: regAfter f.b :: mergeReads f) (fun _ _ => rfl) fun f _ => vrnd_waits f
  case vmvXv =>
    intro f s c hi
    rw [exec_vmvXv, execVmvXv, eside]
    exact esideOp_forks c (mergeReads_waits f _) hi (by simp [produce_put, c.onTime, bitsAt_zero])
  case vrndAdv =>
    intro f s c hi
    rw [exec_vrndAdv, execVrndAdv, vrndOp]
    exact esideOp_forks c (vrnd_waits f) hi (by simp [Hart.produceAll, produce_put, c.onTime])
  case ctabw =>
    intro f s c hi
    rw [exec_ctabw, execCtabw, eside]
    exact esideOp_forks c (mergeReads_waits f _) hi (by simp only [ofNat_bitsAt])
  case ctabwX =>
    intro f s c hi
    rw [exec_ctabwX, execCtabwX, eside]
    exact esideOp_forks c (mergeReads_waits f _) hi (by simp [bitsAt_zero])
  case vmxq => exact esideOp_effect (fun f => scaleReg f.d) (fun _ _ => []) (fun _ _ => rfl) (by simp)

/-- Settles O7: each form of the three tables completes with its effect. -/
theorem vectorElementResults : Obligations.VectorElementResults := by
  unfold Obligations.VectorElementResults
  intro e he
  obtain (he | he) | he := by simpa only [List.mem_append] using he
  · exact vectorIntForms_complete e he
  · exact vectorFpForms_complete e he
  · exact vectorMoveForms_complete e he

end Sys2Proof.Machine
end

section
/-! Decoding by rows, and the words that the manual writes out (R56 to R59, R69, R70). -/
namespace Sys2Proof

/-- With a row of the table found, its level and then its form decide (R69 steps 3 to 6). -/
theorem decodeSnap_of_row {w : IWord} {r : Row} (v : Snap) (pl : Priv)
    (hr : findRow (w.extractLsb' 0 8) (w.extractLsb' 8 8) = some r) :
    decodeSnap v pl w = if pl.code < r.form.priv.code then .error ⟨0x04, 1, 0⟩ else (decodeForm v r.form w).map r.build := by
  have he : (rowsOf (w.extractLsb' 0 8)).isEmpty = false := by
    simpa using List.ne_nil_of_mem (List.mem_of_find?_eq_some hr)
  have h0 : w.extractLsb' 0 8 ≠ 0 := fun h => by simp [h, rowsOf] at he
  simp only [decodeSnap, if_neg h0, he, Bool.false_eq_true, if_false, hr]
  split
  · rfl
  · cases decodeForm v r.form w <;> rfl

section
variable {pl : Priv} {w : IWord} {r : Row} (hr : findRow (w.extractLsb' 0 8) (w.extractLsb' 8 8) = some r)
include hr
/-- A word whose fields fit the form of its row, at a level that may run it. -/
theorem decodeWord_ok {f : Fields} (hp : r.form.priv.code ≤ pl.code) (hf : decodeForm {} r.form w = .ok f) :
    decodeWord pl w = .ok (r.build f) := by
  rw [decodeWord, decodeSnap_of_row {} pl hr, if_neg (Nat.not_lt.2 hp), hf]; rfl
/-- A word whose fields do not fit the form of its row. -/
theorem decodeWord_misfit {e : Illegal} (hp : r.form.priv.code ≤ pl.code) (hf : decodeForm {} r.form w = .error e) :
    decodeWord pl w = .error e := by
  rw [decodeWord, decodeSnap_of_row {} pl hr, if_neg (Nat.not_lt.2 hp), hf]; rfl
/-- A word of a form that the level may not run. -/
theorem decodeWord_above (hp : pl.code < r.form.priv.code) : decodeWord pl w = .error ⟨0x04, 1, 0⟩ := by
  rw [decodeWord, decodeSnap_of_row {} pl hr, if_pos hp]
end

/-- The opcode 0 is illegal by itself (R69 step 1). -/
theorem decodeWord_zero {w : IWord} (pl : Priv) (h : w.extractLsb' 0 8 = 0) : decodeWord pl w = .error ⟨0x01, 1, 0⟩ := by
  simp only [decodeWord, decodeSnap, if_pos h]
/-- An opcode that has no row is reserved (R69 step 1, R72). -/
theorem decodeWord_reserved {w : IWord} (pl : Priv) (h0 : w.extractLsb' 0 8 ≠ 0) (h : rowsOf (w.extractLsb' 0 8) = []) :
    decodeWord pl w = .error ⟨0x02, 1, 0⟩ := by
  simp only [decodeWord, decodeSnap, if_neg h0, h, List.isEmpty_nil, if_true]

/-- Settles O54: each word that decodes by the row of its opcode and function, each that is illegal by the step of R69 that refuses it. -/
theorem decodedWords : Obligations.DecodedWords := by
  unfold Obligations.DecodedWords
  refine ⟨?add, ?addI, ?vadd, ?vffma, ?vredSum, ?mmax, ?ld, ?ttake, ?cparm, ?coll, ?addP2, ?zero, ?reserved, ?eret⟩
  case add => exact decodeWord_ok (r := rows01[0]) rfl (by decide) rfl
  case addI => exact decodeWord_ok (r := rows01[1]) rfl (by decide) rfl
  case vadd => exact decodeWord_ok (r := rows34[0]) rfl (by decide) rfl
  case vffma => exact decodeWord_ok (r := rows41[0]) rfl (by decide) rfl
  case vredSum => exact decodeWord_ok (r := rows58[0]) rfl (by decide) rfl
  case mmax => exact decodeWord_ok (r := rows6F[0]) rfl (by decide) rfl
  case ld => exact decodeWord_ok (r := rows78[0]) rfl (by decide) rfl
  case ttake => exact decodeWord_ok (r := rowsA2[0]) rfl (by decide) rfl
  case cparm => exact decodeWord_ok (r := rows9E[0]) rfl (by decide) rfl
  case coll => exact decodeWord_ok (r := rowsB4[0]) rfl (by decide) rfl
  case addP2 => exact decodeWord_misfit (r := rows01[0]) rfl (by decide) rfl
  case zero => exact decodeWord_zero .f rfl
  case reserved => exact decodeWord_reserved .f (by decide) rfl
  case eret => exact decodeWord_above (r := rows2B[0]) rfl (by decide)

end Sys2Proof
end

section
/-! Transfers of control, hardware loops and the loop-end step (R57, R90 to R93). -/
namespace Sys2Proof.Machine

/-- An A-side instruction that transfers control with an effect on its hart alone. -/
theorem issue_jumps {s : State} {f : Fields} (o : Issue) (t : BitVec 55) (g : Hart → Hart) (c : s.Clear f o.also)
    (hi : o.illegal s = none) (he : o.eside = false) (hb : o.body s = .jump (s.modHart g) t) :
    issue f o s = .next (s.jumps f t g) := by
  rw [issue_clear o c hi (by simp [he]), hb]
  simp [finish, State.jumps, State.modHart_modHart]

section
variable {s : State} {f : Fields} (c : s.Clear f [])
include c

/-- An instruction of `aside` that transfers control. -/
theorem aside_jumps {body : State → Res} (t : BitVec 55) (g : Hart → Hart) (h : body s = .jump (s.modHart g) t) :
    aside f body s = .next (s.jumps f t g) := issue_jumps { body } t g c rfl rfl h
/-- An instruction of `aside` that completes in place. -/
theorem aside_completes {body : State → Res} (g : Hart → Hart) (h : body s = .done (s.modHart g)) :
    aside f body s = .next (s.completes f g) := issue_completes { body } g c rfl rfl h

/-- A branch transfers control where its condition holds, and else completes (R90). -/
theorem branchIf_clear (p : Hart → Bool) :
    branchIf f p s = .next (if p s.hart then s.jumps f (target s.hart f) id else s.completes f id) := by
  have hs : s.modHart id = s := s.modHart_self id rfl
  cases h : p s.hart with
  | true => exact aside_jumps c _ id (by simp [h, hs])
  | false => exact aside_completes c id (by simp [h, hs])

/-- `loop` sets its registers, and passes over the body where the count is zero (R91). -/
theorem loopOp_clear (one : Bool) :
    let g (h : Hart) : Hart := { h with sr := h.sr.setLoop one (h.xr f.a) (linkX h) ((target h f).setWidth 64) }
    loopOp f one s = .next (if s.hart.xr f.a = 0 then s.jumps f (target s.hart f + 12) g else s.completes f g) := by
  intro g
  have hs : (s.modSr fun r => r.setLoop one (s.hart.xr f.a) (linkX s.hart) ((target s.hart f).setWidth 64)) = s.modHart g :=
    s.modHart_congr _ g rfl
  by_cases h : s.hart.xr f.a = 0
  · rw [if_pos h]
    exact aside_jumps c _ g (by simp only [hs, if_pos h])
  · rw [if_neg h]
    exact aside_completes c g (by simp only [hs, if_neg h])

/-- Each form of the table transfers control to its target, with its effect. -/
theorem jumpForms_jump : ∀ e ∈ jumpForms, exec (e.1 f) s = .next (s.jumps f (e.2.1 f s.hart) (e.2.2 f)) := by
  simp only [jumpForms, List.forall_mem_cons, List.not_mem_nil, false_implies, implies_true, and_true]
  refine ⟨?br, ?jal, ?jr, ?lbrk0, ?lbrk1⟩
  case br => exact branchIf_clear c fun _ => true
  case jal => exact aside_jumps c _ _ rfl
  case jr => exact aside_jumps c _ _ rfl
  case lbrk0 => exact aside_jumps c _ _ rfl
  case lbrk1 => exact aside_jumps c _ _ rfl

/-- `loop.0` and `loop.1` are the loop instruction of their registers. -/
theorem loopForms_loop : ∀ e ∈ loopForms, exec (e.1 f) s =
    .next (if s.hart.xr f.a = 0 then s.jumps f (target s.hart f + 12) (e.2 f) else s.completes f (e.2 f)) := by
  simp only [loopForms, List.forall_mem_cons, List.not_mem_nil, false_implies, implies_true, and_true]
  exact ⟨loopOp_clear c false, loopOp_clear c true⟩
end

/-! The loop-end step (R92): loop 1, then loop 0 where the next instruction still follows. -/

/-- The step of loop 0 at a place whose next instruction is the one that follows. -/
def loop0End (pc : BitVec 55) (sr : SysRegs) : BitVec 55 × SysRegs :=
  if pc.setWidth 64 = sr.le0 ∧ sr.lc0 ≠ 0 then
    (if sr.lc0 = 1 then pc + 12 else sr.lb0.setWidth 55, { sr with lc0 := sr.lc0 - 1 })
  else (pc + 12, sr)

section
variable {pc : BitVec 55} {sr : SysRegs}

theorem loop0End_past (h : ¬(pc.setWidth 64 = sr.le0 ∧ sr.lc0 ≠ 0)) : loop0End pc sr = (pc + 12, sr) := if_neg h
theorem loop0End_back (h : pc.setWidth 64 = sr.le0 ∧ sr.lc0 ≠ 0) (hc : sr.lc0 ≠ 1) :
    loop0End pc sr = (sr.lb0.setWidth 55, { sr with lc0 := sr.lc0 - 1 }) := by
  rw [loop0End, if_pos h, if_neg hc]
theorem loop0End_out (h : pc.setWidth 64 = sr.le0 ∧ sr.lc0 ≠ 0) (hc : sr.lc0 = 1) :
    loop0End pc sr = (pc + 12, { sr with lc0 := 0 }) := by
  rw [loop0End, if_pos h, if_pos hc, hc]; rfl

/-- A count that goes down reaches zero from one alone. -/
theorem count_runs_out (n : Word) : n - 1 = 0 ↔ n = 1 := by
  constructor <;> intro h <;> bv_omega

/-- The second half of `loopEnd`, in its own terms, is `loop0End` where loop 1 leaves the next instruction the one that follows. -/
theorem loop0End_step (npc : BitVec 55) (h : npc = pc + 12) :
    let at0 := decide (npc = pc + 12) && decide (pc.setWidth 64 = sr.le0) && decide (sr.lc0 ≠ 0)
    let sr0 := if at0 then { sr with lc0 := sr.lc0 - 1 } else sr
    (if at0 && decide (sr0.lc0 ≠ 0) then sr.lb0.setWidth 55 else npc, sr0) = loop0End pc sr := by
  subst h
  by_cases h0 : pc.setWidth 64 = sr.le0 ∧ sr.lc0 ≠ 0
  · have hd : (decide (pc.setWidth 64 = sr.le0) && decide (sr.lc0 ≠ 0)) = true := by simpa using h0
    simp only [decide_true, Bool.true_and, hd, if_true, loop0End, if_pos h0, decide_eq_true_eq, ne_eq, count_runs_out, ite_not]
  · have hd : (decide (pc.setWidth 64 = sr.le0) && decide (sr.lc0 ≠ 0)) = false := by simpa using h0
    simp only [decide_true, Bool.true_and, hd, Bool.false_and, Bool.false_eq_true, if_false, loop0End, if_neg h0]

/-- Where loop 1 does not end, loop 0 is stepped. -/
theorem loopEnd_past (h : ¬(pc.setWidth 64 = sr.le1 ∧ sr.lc1 ≠ 0)) : loopEnd pc sr = loop0End pc sr := by
  have h1 : (decide (pc.setWidth 64 = sr.le1) && decide (sr.lc1 ≠ 0)) = false := by simpa using h
  simp only [loopEnd, h1]
  exact loop0End_step _ rfl
/-- Where loop 1 goes back, loop 0 is not stepped. -/
theorem loopEnd_back (h : pc.setWidth 64 = sr.le1 ∧ sr.lc1 ≠ 0) (hc : sr.lc1 ≠ 1) (hb : (sr.lb1.setWidth 55 : BitVec 55) ≠ pc + 12) :
    loopEnd pc sr = (sr.lb1.setWidth 55, { sr with lc1 := sr.lc1 - 1 }) := by
  have h1 : (decide (pc.setWidth 64 = sr.le1) && decide (sr.lc1 ≠ 0)) = true := by simpa using h
  have hz : sr.lc1 - 1 ≠ 0 := mt (count_runs_out sr.lc1).1 hc
  simp only [loopEnd, h1, hz, hb, ne_eq, not_false_eq_true, decide_true, decide_false, Bool.and_true, Bool.false_and, if_true,
    Bool.false_eq_true, if_false]
/-- Where loop 1 runs out, or goes back to the instruction that follows, loop 0 is stepped after it. -/
theorem loopEnd_through (h : pc.setWidth 64 = sr.le1 ∧ sr.lc1 ≠ 0) (hb : sr.lc1 = 1 ∨ (sr.lb1.setWidth 55 : BitVec 55) = pc + 12) :
    loopEnd pc sr = loop0End pc { sr with lc1 := sr.lc1 - 1 } := by
  have h1 : (decide (pc.setWidth 64 = sr.le1) && decide (sr.lc1 ≠ 0)) = true := by simpa using h
  simp only [loopEnd, h1, if_true]
  refine loop0End_step (sr := { sr with lc1 := sr.lc1 - 1 }) _ ?_
  rw [Bool.true_and, ite_eq_right_iff, decide_eq_true_eq, ne_eq, count_runs_out]
  exact hb.resolve_left
end

/-- Settles O5: the transfers by `jumpForms_jump`, `branchIf_clear` and `loopForms_loop`, the loop-end step by what loop 1 does and then loop 0. -/
theorem controlResults : Obligations.ControlResults := by
  unfold Obligations.ControlResults
  refine ⟨fun f s c => ⟨jumpForms_jump c, ?brZ, ?brNz, loopForms_loop c⟩, fun pc sr => ?_⟩
  case brZ => simpa [execBrZ, target] using branchIf_clear c fun h => h.xr f.a == 0
  case brNz => simpa [execBrNz, target] using branchIf_clear c fun h => h.xr f.a != 0
  refine ⟨fun h1 h0 => ?past, loopEnd_back, fun h1 h0 hc => ?back0, fun h1 h0 hc => ?out0, fun h1 hb =>
    ⟨fun h0 => ?past1, fun h0 hc => ?back1, fun h0 hc => ?out1⟩⟩
  case past => exact (loopEnd_past h1).trans (loop0End_past h0)
  case back0 => exact (loopEnd_past h1).trans (loop0End_back h0 hc)
  case out0 => exact (loopEnd_past h1).trans (loop0End_out h0 hc)
  case past1 => exact (loopEnd_through h1 hb).trans (loop0End_past h0)
  case back1 => exact (loopEnd_through h1 hb).trans (loop0End_back h0 hc)
  case out1 => exact (loopEnd_through h1 hb).trans (loop0End_out h0 hc)

end Sys2Proof.Machine
end


section
/-! Configuration of the tile shape, and the sweep of a tile (R15, R103 to R105, R109). -/
namespace Sys2Proof.Machine

/-! Configuration (R103 to R105). -/

/-- Each form of the table sets its shape register and D. -/
theorem configForms_complete {s : State} {f : Fields} (c : s.Clear f []) : ∀ e ∈ configForms,
    exec (e.1 f) s = .next (s.completes f fun h => (e.2.1 f h).put f.d (.word (e.2.2 (e.2.1 f h)))) := by
  simp only [configForms, List.forall_mem_cons, List.not_mem_nil, false_implies, implies_true, and_true]
  and_intros
  all_goals exact aside_completes c _ rfl

/-- ILLEGAL is no access fault: an instruction that may resume takes it with nothing else changed. -/
theorem trapOf_illegal (s : State) (v : Word) (e : Nat) : trapOf s false cILLEGAL v e = s.trap cILLEGAL v e := rfl

/-- `setvt` checks its register when it executes (R105). -/
theorem setvt_clear {s : State} {f : Fields} (c : s.Clear f []) :
    exec (.setvt f) s = .next (if vtypeOk (s.hart.xr f.a) = true then
      s.completes f fun h => (h.withVt (h.xr f.a)).put f.d (.word (h.withVt (h.xr f.a)).sr.vl)
      else s.trap cILLEGAL 0x40A 0) := by
  rw [exec_setvt, execSetvt]
  by_cases ok : vtypeOk (s.hart.xr f.a) = true
  · rw [if_pos ok]
    refine aside_completes c _ ?_
    rw [if_pos ok]
    exact congrArg _ (s.modHart_congr _ _ rfl)
  · rw [if_neg ok, ← trapOf_illegal]
    exact issue_traps _ c rfl (by simp) s _ _ _ (if_neg ok)

/-- A field of a word, as a number. -/
theorem toNat_extractLsb' (t : Word) (lo n : Nat) : (t.extractLsb' lo n).toNat = bitsAt t.toNat lo n := by
  rw [BitVec.extractLsb'_toNat, Nat.shiftRight_eq_div_pow, bitsAt]
/-- Table 1 of R33 has no format with the width of a reserved code. -/
theorem fmtLegal_sew_pos {fmt sew bl : Nat} (h : fmtLegal fmt sew bl = true) : 0 < sew := by
  refine Nat.pos_of_ne_zero fun h0 => ?_
  subst h0
  unfold fmtLegal at h
  split at h <;> simp at h
theorem vtSew_pos {t : Word} (h : vtypeOk t = true) : 0 < vtSew t := by
  simp only [vtypeOk, Bool.and_eq_true, toNat_extractLsb'] at h
  exact fmtLegal_sew_pos h.2
/-- `VLMAX` of a legal `VTYPE` (R13). -/
theorem vlmaxOf_legal {t : Word} (h : vtypeOk t = true) : vlmaxOf t = 1024 / vtSew t :=
  congrArg _ (Nat.max_eq_right (vtSew_pos h))

theorem grant_le (t : Word) (n : Nat) : grant t n ≤ min n (vlmaxOf t) := by
  simp only [grant]
  split
  · exact Nat.le_refl _
  · exact Nat.mul_div_le _ _
theorem vtBl_dvd_grant {t : Word} (n : Nat) (h : vtBl t ≠ 0) : vtBl t ∣ grant t n := by
  simp only [grant, if_neg h]
  exact Nat.dvd_mul_right _ _
/-- A grant is the greatest length of whole blocks within the request and `VLMAX`. -/
theorem le_grant {t : Word} {n m : Nat} (hm : m ≤ min n (vlmaxOf t)) (hb : vtBl t = 0 ∨ vtBl t ∣ m) : m ≤ grant t n := by
  simp only [grant]
  split
  next => exact hm
  next h =>
    calc m = vtBl t * (m / vtBl t) := (Nat.mul_div_cancel' (hb.resolve_left h)).symm
      _ ≤ vtBl t * (min n (vlmaxOf t) / vtBl t) := Nat.mul_le_mul_left _ (Nat.div_le_div_right hm)

/-- Settles O6: the forms of the table, `setvt` with its check, and the grant as the greatest of the lengths allowed. -/
theorem configResults : Obligations.ConfigResults := by
  unfold Obligations.ConfigResults
  refine ⟨fun f s c => ⟨configForms_complete c, setvt_clear c⟩, fun t n ok => ?_⟩
  have hg := Nat.le_min.1 (grant_le t n)
  rw [← vlmaxOf_legal ok]
  exact ⟨hg.1, hg.2, vtBl_dvd_grant n, fun m hn hx => le_grant (Nat.le_min.2 ⟨hn, hx⟩)⟩

/-! Sweeps (R15, R109). -/

theorem testBit_bitsAt (t lo n i : Nat) : (bitsAt t lo n).testBit i = (decide (i < n) && t.testBit (lo + i)) := by
  simp [bitsAt, Nat.testBit_mod_two_pow, Nat.testBit_div_two_pow, Nat.add_comm]
/-- An image with `w` bits replaced has the new bits there, and its own elsewhere. -/
theorem testBit_putBits (t off w v b : Nat) :
    (putBits t off w v).testBit b = if off ≤ b ∧ b < off + w then v.testBit (b - off) else t.testBit b := by
  have hs : putBits t off w v = 2 ^ off * (2 ^ w * (t / 2 ^ (off + w)) + v % 2 ^ w) + t % 2 ^ off := by
    rw [putBits, Nat.pow_add, Nat.mul_add, Nat.mul_comm (v % 2 ^ w), Nat.mul_comm (t / _), Nat.mul_assoc]
  rw [hs, Nat.testBit_two_pow_mul_add _ (Nat.mod_lt _ (Nat.two_pow_pos _)),
    Nat.testBit_two_pow_mul_add _ (Nat.mod_lt _ (Nat.two_pow_pos _)), Nat.testBit_mod_two_pow, Nat.testBit_mod_two_pow,
    Nat.testBit_div_two_pow]
  by_cases hlo : b < off
  · rw [if_pos hlo, if_neg (by omega)]
    simp [hlo]
  by_cases hhi : b - off < w
  · rw [if_neg hlo, if_pos hhi, if_pos (by omega)]
    simp [hhi]
  · rw [if_neg hlo, if_neg hhi, if_neg (by omega), show b - off - w + (off + w) = b by omega]

section
variable {off : Cell → Nat} {w : Nat} {fn : Cell → Nat × Flags}

/-- The image that a pass leaves does not depend on the flags it gathers. -/
theorem pass_image (cells : List Cell) (t : Nat) :
    (pass cells off w fn t).1 = cells.foldl (fun t p => putBits t (off p) w (fn p).1) t :=
  (List.foldl_hom Prod.fst fun _ _ => rfl).symm
theorem pass_cons_image (p : Cell) (cells : List Cell) (t : Nat) :
    (pass (p :: cells) off w fn t).1 = (pass cells off w fn (putBits t (off p) w (fn p).1)).1 := by
  rw [pass_image, pass_image, List.foldl_cons]

/-- A pass keeps a bit that lies in none of its positions. -/
theorem pass_testBit_outside {cells : List Cell} {b : Nat} (h : ∀ p ∈ cells, ¬(off p ≤ b ∧ b < off p + w)) (t : Nat) :
    (pass cells off w fn t).1.testBit b = t.testBit b := by
  induction cells generalizing t with
  | nil => rfl
  | cons p ps ih =>
    rw [List.forall_mem_cons] at h
    rw [pass_cons_image, ih h.2, testBit_putBits, if_neg h.1]
/-- A pass gives a bit that lies in one of its positions alone the value of that position. -/
theorem pass_testBit_inside {cells : List Cell} {b : Nat} {p : Cell} (hp : p ∈ cells) (hb : off p ≤ b ∧ b < off p + w)
    (h : ∀ q ∈ cells, off q ≤ b ∧ b < off q + w → q = p) (t : Nat) :
    (pass cells off w fn t).1.testBit b = (fn p).1.testBit (b - off p) := by
  induction cells generalizing t with
  | nil => simp at hp
  | cons q qs ih =>
    rw [List.forall_mem_cons] at h
    rw [pass_cons_image]
    by_cases hqs : p ∈ qs
    · exact ih hqs h.2 _
    · have hq : p = q := (List.mem_cons.1 hp).resolve_right hqs
      subst hq
      rw [pass_testBit_outside fun q hm hqb => hqs (h.2 q hm hqb ▸ hm), testBit_putBits, if_pos hb]
end

theorem Geom.len_le (g : Geom) (r : Nat) : g.len r ≤ g.vl := by
  unfold Geom.len
  split
  · exact Nat.min_le_right _ _
  · exact Nat.le_refl _
/-- The active positions are those in the tile whose mask bit allows them (R15). -/
theorem mem_activeCells {h : Hart} {f : Fields} {g : Geom} {p : Cell} : p ∈ h.activeCells f g ↔
    (∃ r c, (r < g.vr ∧ c < g.len r) ∧ p = ⟨r, c, r * g.vl + c⟩) ∧ h.active f p = true := by
  simp only [Hart.activeCells, Geom.cells, Geom.row, List.mem_filter, List.mem_flatMap, List.mem_map, List.mem_range]
  refine and_congr_left fun _ => ⟨?_, ?_⟩
  · rintro ⟨r, hr, c, hc, rfl⟩
    exact ⟨r, c, ⟨hr, hc⟩, rfl⟩
  · rintro ⟨r, c, ⟨hr, hc⟩, rfl⟩
    exact ⟨r, hr, c, hc, rfl⟩

/-- A row of 1,024 bits holds its elements side by side: a bit of an element says which element it is. -/
theorem place_of_bit {w vl r c b : Nat} (hw : w * vl ≤ 1024) (hc : c < vl) (hb : 1024 * r + w * c ≤ b ∧ b < 1024 * r + w * c + w) :
    r = b / 1024 ∧ c = b % 1024 / w := by
  have hrow : w * c + w ≤ 1024 := Nat.le_trans (Nat.mul_le_mul_left w hc) hw
  have hr : b / 1024 = r := by omega
  refine ⟨hr.symm, ((Nat.div_eq_iff (by omega)).2 ?_).symm⟩
  rw [Nat.mul_comm c]
  omega

section
variable {h : Hart} {f : Fields} {g : Geom} {w r c : Nat} (hw : w * g.vl ≤ 1024) (hc : c < g.len r)
include hw hc

/-- No other active position has a bit of the element at row r, column c. -/
theorem activeCells_disjoint {i : Nat} (hi : i < w) : ∀ q ∈ h.activeCells f g,
    tileOff w q ≤ 1024 * r + w * c + i ∧ 1024 * r + w * c + i < tileOff w q + w → q = ⟨r, c, r * g.vl + c⟩ := by
  intro q hq hb
  obtain ⟨⟨r', c', ⟨-, hc'⟩, rfl⟩, -⟩ := mem_activeCells.1 hq
  have hi : 1024 * r + w * c ≤ 1024 * r + w * c + i ∧ 1024 * r + w * c + i < 1024 * r + w * c + w := by omega
  obtain ⟨hrb, hcb⟩ := place_of_bit hw (Nat.lt_of_lt_of_le hc (g.len_le r)) hi
  obtain ⟨hrb', hcb'⟩ : r' = _ ∧ c' = _ := place_of_bit hw (Nat.lt_of_lt_of_le hc' (g.len_le r')) hb
  rw [hrb'.trans hrb.symm, hcb'.trans hcb.symm]

/-- A sweep gives a bit of an active element its value, and keeps a bit of an inactive one. -/
theorem sweep_testBit (hr : r < g.vr) (fn : Cell → Nat × Flags) (t : Nat) {i : Nat} (hi : i < w) :
    (pass (h.activeCells f g) (tileOff w) w fn t).1.testBit (1024 * r + w * c + i) =
      if h.active f ⟨r, c, r * g.vl + c⟩ = true then (fn ⟨r, c, r * g.vl + c⟩).1.testBit i
      else t.testBit (1024 * r + w * c + i) := by
  have only := activeCells_disjoint (h := h) (f := f) hw hc hi
  split
  next ha =>
    have hb : 1024 * r + w * c ≤ 1024 * r + w * c + i ∧ 1024 * r + w * c + i < 1024 * r + w * c + w := by omega
    rw [pass_testBit_inside (mem_activeCells.2 ⟨⟨r, c, ⟨hr, hc⟩, rfl⟩, ha⟩) hb only, tileOff, Nat.add_sub_cancel_left]
  next ha => exact pass_testBit_outside (fun q hq hb => ha (only q hq hb ▸ (mem_activeCells.1 hq).2)) t
end

/-- Settles O15: bit by bit, by `sweep_testBit` within an element and `pass_testBit_outside` elsewhere. -/
theorem sweepElements : Obligations.SweepElements := by
  unfold Obligations.SweepElements
  intro h f g w fn t _ hw _
  constructor
  · intro r c hr hc p
    refine Nat.eq_of_testBit_eq fun i => ?_
    rw [elemBits, testBit_bitsAt]
    by_cases hi : i < w
    · rw [sweep_testBit hw hc hr fn t hi]
      split
      · rw [Nat.testBit_mod_two_pow]
      · rw [elemBits, testBit_bitsAt]
    · split <;> simp [hi, elemBits, testBit_bitsAt, Nat.testBit_mod_two_pow]
  · intro b hb
    refine pass_testBit_outside (fun q hq => ?_) t
    obtain ⟨⟨r, c, ⟨hr, hc⟩, rfl⟩, ha⟩ := mem_activeCells.1 hq
    exact hb r c hr hc ha

end Sys2Proof.Machine
end

section
/-! Masks, reductions, permutes and batched small matrices (R122 to R139). -/
namespace Sys2Proof.Machine

/-- A form that is an `eside` of its row's check and effect: of scalars it reads none but those it waits for. -/
theorem eside_completes {e : EForm} (hx : ∀ f s, exec (e.instr f) s = eside f (e.chk f) (e.also f) (e.effect f) s) : e.Completes :=
  esideOp_effect (fun _ => []) (fun f _ => mergeReads f) hx fun f _ => mergeReads_waits f _

/-! Mask instructions (R122). -/

/-- A field of a register by division and by extraction. -/
theorem ofNat_bitsAt_extract {n : Nat} (t : BitVec n) (lo w : Nat) : BitVec.ofNat w (bitsAt t.toNat lo w) = t.extractLsb' lo w := by
  apply BitVec.eq_of_toNat_eq
  simp [bitsAt, Nat.shiftRight_eq_div_pow]

theorem maskForm_completes {mk : Fields → Instr} {op : Fields → Hart → Geom → Mask} (hx : ∀ f s, exec (mk f) s = kOp f (op f) s) :
    (maskForm mk op).Completes :=
  eside_completes hx

/-- A scalar result is given at once where nothing is late. -/
theorem maskScalarForm_completes {mk : Fields → Instr} {op : Fields → Hart → Geom → Word}
    (hx : ∀ f s, exec (mk f) s = kScalar f (op f) s) : (maskScalarForm mk op).Completes := by
  intro f s c hi
  rw [maskScalarForm, hx, kScalar, eside]
  exact esideOp_forks c (mergeReads_waits f _) hi (produce_put _ _ _ c.onTime)

/-- Each mask instruction: those over whole masks, those with a scalar result, and those that bring some bits of D. -/
theorem maskForms_complete : ∀ e ∈ maskForms, e.Completes := by
  simp only [maskForms, List.forall_mem_cons, List.not_mem_nil, false_implies, implies_true, and_true]
  refine ⟨maskForm_completes fun _ _ => rfl, maskForm_completes fun _ _ => rfl, maskForm_completes fun _ _ => rfl,
    maskForm_completes fun _ _ => rfl, maskForm_completes fun _ _ => rfl, maskForm_completes fun _ _ => rfl,
    maskForm_completes fun _ _ => rfl, maskForm_completes fun _ _ => rfl, ?kmvX, maskScalarForm_completes fun _ _ => rfl, ?kany,
    maskScalarForm_completes fun _ _ => rfl, ?kfirst, ?kmvKx, ?kmvV, ?kmvKv⟩
  case kmvX =>
    intro f s c hi
    rw [maskForm, exec_kmvX, execKmvX]
    refine esideOp_forks c (fun r hm hs => ?_) hi (by simp only [bitsAt_zero, Nat.reducePow])
    obtain rfl := List.mem_singleton.1 hm
    exact dest_waits f _ hs
  case kany =>
    refine maskScalarForm_completes fun f s => ?_
    simp only [exec_kany, execKany, truth, Bool.not_eq_true', ← Bool.not_eq_true, ite_not]
  case kfirst => exact maskScalarForm_completes fun _ _ => rfl
  case kmvKx =>
    refine maskScalarForm_completes fun f s => ?_
    simp only [exec_kmvKx, execKmvKx, ofNat_bitsAt_extract, bitsAt_zero, Nat.reducePow]
  case kmvV => exact eside_completes fun _ _ => rfl
  case kmvKv => exact eside_completes fun _ _ => rfl

/-! Reductions (R123 to R126). -/

/-- With nothing late the result of a reduction enters D as its table says. -/
theorem putRed_redPut (h : Hart) (f : Fields) (g : Geom) (r : Nat × Flags) (hl : h.late = []) :
    h.putRed f g r = redForm.redPut h f g r := by
  unfold Hart.putRed redForm.redPut
  cases hd : f.d with
  | x n => exact produce_put (h.raise r.2) (.x n) _ hl
  | _ => rfl

theorem redForm_completes {mk : Fields → Instr} {o : RedOp} {ok : Nat → Bool} (hx : ∀ f s, exec (mk f) s = vredOp o ok f s) :
    (redForm mk o ok).Completes :=
  esideOp_completes (e := redForm mk o ok) (w := fun _ => []) (rd := fun _ _ => []) hx (by simp) fun f h hl => putRed_redPut h f _ _ hl

theorem redRowForm_completes {mk : Fields → Instr} {o : RedOp} {ok : Nat → Bool}
    (hx : ∀ f s, exec (mk f) s = vredrowOp o ok f s) : (redRowForm mk o ok).Completes :=
  esideOp_effect (e := redRowForm mk o ok) (fun _ => []) (fun _ _ => []) hx (by simp)

/-- A reduction that passes its check has one of the formats it admits. -/
theorem redChk_ok {f : Fields} {ok : Nat → Bool} {g : Geom} (h : redChk f ok g = none) : ok g.fmt = true := by
  unfold redChk at h
  split at h
  · cases h
  · split at h
    · cases h
    · simp_all

/-- Each reduction; the ordered sum starts from -0.0 because its check admits floating-point formats alone. -/
theorem reductionForms_complete : ∀ e ∈ reductionForms, e.Completes := by
  simp only [reductionForms, List.forall_mem_cons, List.not_mem_nil, false_implies, implies_true, and_true]
  refine ⟨redForm_completes fun _ _ => rfl, redForm_completes fun _ _ => rfl, redForm_completes fun _ _ => rfl,
    redForm_completes fun _ _ => rfl, redForm_completes fun _ _ => rfl, redForm_completes fun _ _ => rfl, ?vfredo,
    redRowForm_completes fun _ _ => rfl, redRowForm_completes fun _ _ => rfl, redRowForm_completes fun _ _ => rfl,
    redRowForm_completes fun _ _ => rfl, redRowForm_completes fun _ _ => rfl, redRowForm_completes fun _ _ => rfl⟩
  intro f s c hi
  have hf : s.hart.geom.isFp = true := redChk_ok hi
  rw [exec_vfredoSum, execVfredoSum]
  refine esideOp_forks c (by simp) hi ?_
  simp only [redId, hf, if_true]
  exact putRed_redPut s.hart f _ _ c.onTime

/-! Permutes (R127 to R135). -/

theorem permForm_completes {mk : Fields → Instr} {ok : Nat → Bool} {val : Fields → Hart → Geom → Cell → Nat}
    (hx : ∀ f s, exec (mk f) s = permute f ok (val f) s) : (permForm mk ok val).Completes :=
  eside_completes (e := permForm mk ok val) hx

@[simp] theorem place_late (h : Hart) (g : Geom) (d : Reg) (l : List (Cell × Nat)) : (place h g d l).late = h.late := by
  simp [place]

/-- Each permute: those that give every active position a value, and those that place elements or count them. -/
theorem permuteForms_complete : ∀ e ∈ permuteForms, e.Completes := by
  simp only [permuteForms, List.forall_mem_cons, List.not_mem_nil, false_implies, implies_true, and_true]
  refine ⟨permForm_completes fun _ _ => rfl, permForm_completes fun _ _ => rfl, permForm_completes fun _ _ => rfl,
    permForm_completes fun _ _ => rfl, ?slideUpI, ?slideDnI, ?vcomp, ?vexp, ?vpart, ?vrowmv, ?vtrn, ?vmerge,
    permForm_completes fun _ _ => rfl, permForm_completes fun _ _ => rfl, permForm_completes fun _ _ => rfl,
    permForm_completes fun _ _ => rfl, permForm_completes fun _ _ => rfl, permForm_completes fun _ _ => rfl⟩
  case slideUpI =>
    refine permForm_completes fun f s => ?_
    simp only [exec_vslideUpI, execVslideUpI, slideUp, bitsAt_zero, Nat.reducePow]
  case slideDnI =>
    refine permForm_completes fun f s => ?_
    simp only [exec_vslideDnI, execVslideDnI, slideDn, bitsAt_zero, Nat.reducePow]
  case vcomp =>
    intro f s c hi
    rw [exec_vcomp, execVcomp]
    exact esideOp_forks c (by simp) hi (produce_put _ _ _ (by simp [c.onTime]))
  case vpart =>
    intro f s c hi
    rw [exec_vpart, execVpart]
    exact esideOp_forks c (by simp) hi (produce_put _ _ _ (by simp [c.onTime]))
  case vrowmv =>
    intro f s c hi
    rw [exec_vrowmv, execVrowmv, eside]
    have row : bitsAt f.imm.toNat 3 3 = f.imm.toNat / 8 % 8 := rfl
    exact esideOp_forks c (mergeReads_waits f _) hi (by simp only [row, bitsAt_zero, Nat.reducePow, Hart.putTile, if_true])
  case vexp => exact eside_completes fun _ _ => rfl
  case vtrn => exact eside_completes fun _ _ => rfl
  case vmerge => exact eside_completes fun _ _ => rfl

/-! Batched small matrices (R136 to R139). -/

/-- A batched form that reads no register but D besides its sources. -/
theorem batchForm_completes {mk : Fields → Instr} {prob : Fields → Hart → Geom → Rm → Nat → Nat → Batch}
    (rd : Fields → List Reg) (hx : ∀ f s, exec (mk f) s = batch f (rd f) (prob f) s) (hr : ∀ f, ∀ r ∈ rd f, r = f.d) :
    (batchForm mk prob).Completes :=
  esideOp_effect (e := batchForm mk prob) (fun _ => []) (fun f _ => rd f) hx fun f _ r hm hs => by
    rw [hr f r hm] at hs ⊢
    exact dest_waits f _ hs

theorem BatchForm.reads_dest (k : BatchForm) (f : Fields) : ∀ r ∈ k.reads f, r = f.d := by
  cases k <;> simp [BatchForm.reads]

/-- Each batched form; the accumulating products read D. -/
theorem batchForms_complete : ∀ e ∈ batchForms, e.Completes := by
  simp only [batchForms, List.forall_mem_cons, List.not_mem_nil, false_implies, implies_true, and_true]
  exact ⟨batchForm_completes _ (fun _ _ => rfl) (BatchForm.reads_dest .plain),
    batchForm_completes _ (fun _ _ => rfl) (BatchForm.reads_dest .acc),
    batchForm_completes _ (fun _ _ => rfl) (BatchForm.reads_dest .nacc),
    batchForm_completes _ (fun _ _ => rfl) (BatchForm.reads_dest .plain),
    batchForm_completes _ (fun _ _ => rfl) (BatchForm.reads_dest .acc),
    batchForm_completes _ (fun _ _ => rfl) (BatchForm.reads_dest .nacc),
    batchForm_completes (fun _ => []) (fun _ _ => rfl) (by simp),
    batchForm_completes (fun _ => []) (fun _ _ => rfl) (by simp)⟩

/-- Settles O8: each form of the four tables completes with its effect. -/
theorem maskReductionPermuteResults : Obligations.MaskReductionPermuteResults := by
  unfold Obligations.MaskReductionPermuteResults
  intro e he
  obtain ((he | he) | he) | he := by simpa only [List.mem_append] using he
  · exact maskForms_complete e he
  · exact reductionForms_complete e he
  · exact permuteForms_complete e he
  · exact batchForms_complete e he

end Sys2Proof.Machine
end

section
/-! Matrix configuration, matrix instructions and accumulators (R140 to R151). -/
namespace Sys2Proof.Machine

/-! Configuration (R141, R142, R145). -/

/-- `mcfg` with a legal value sets `ACFG` and its copy at its fork. -/
theorem mcfgOp_sets {s : State} {f : Fields} {body : State → Res} {w : Word} (c : s.ClearFork f [])
    (hb : body s = .done (s.modHart fun h => h.setAcfg w)) : mcfgOp f body s = .next (s.forks f fun h => h.setAcfg w) :=
  issue_forks _ _ c rfl rfl (by simp) hb

section
variable {s : State} {f : Fields} (c : s.ClearFork f [])
include c

/-- The immediate was checked at decode, so it is not checked again. -/
theorem mcfgI_sets : exec (.mcfgI f) s = .next (s.forks f fun h => h.setAcfg (f.imm.setWidth 64)) := mcfgOp_sets c rfl
/-- x[A] is checked at the fork. -/
theorem mcfg_sets (ok : acfgOk (s.hart.xr f.a) = true) : exec (.mcfg f) s = .next (s.forks f fun h => h.setAcfg (h.xr f.a)) := by
  rw [exec_mcfg, execMcfg, mcfgOp_sets (w := s.hart.xr f.a) c (if_pos ok)]
  exact congrArg _ (forks_congr s f _ _ rfl)
theorem mcfg_traps (ok : acfgOk (s.hart.xr f.a) = false) : exec (.mcfg f) s = .next (s.trap cILLEGAL 0x40A 0) := by
  rw [exec_mcfg, execMcfg, mcfgOp, ← trapOf_illegal]
  exact issue_traps _ c.toClear rfl (fun _ => ⟨c.room, by simp⟩) s _ _ _ (if_neg (Bool.eq_false_iff.1 ok))
end

/-! Matrix forms (R144 to R151). -/

/-- A matrix form that passes its check, and is not held by the power governor, completes at its fork with the effect of its table. -/
def MForm.Completes (e : MForm) : Prop :=
  ∀ (f : Fields) (s : State), s.ClearFork f (e.also f) → e.chk f s.hart.acfg s.hart.geom = none →
    (e.governed = true → s.issueStalls f.ecls = false) →
    exec (e.instr f) s = .next ((if e.governed then (s.debitIssue f).modHart fun h => { h with stalled := none } else s).forks f (e.effect f))

section
variable {s : State} {f : Fields} {chk : ACfg → Geom → Option Illegal} {also reads : List Reg} {body : State → Res}
  (c : s.ClearFork f also) (hi : chk s.hart.acfg s.hart.geom = none) (hr : ∀ r ∈ reads, isScalar r = true → r ∈ waitsFor f also)
include c hi hr

/-- A matrix instruction whose body leads to `t` and has the effect `g` there. -/
theorem matrixOp_forks {t : State} {g : Hart → Hart} (hb : body s = .done (t.modHart g)) :
    matrixOp f chk also reads body s = .next (t.forks f g) := by
  rw [matrixOp, issue_clear _ c.toClear hi fun _ => ⟨c.room, hr⟩]
  simp only [hb]
  rfl
/-- One whose effect is on its hart alone. -/
theorem matrixOp_completes {g g' : Hart → Hart} (hb : body s = .done (s.modHart g)) (hg : g s.hart = g' s.hart) :
    matrixOp f chk also reads body s = .next (s.forks f g') := by
  rw [matrixOp_forks c hi hr hb, forks_congr s f g g' hg]
end

/-- An issue that the governor does not hold debits and has its effect (R151). -/
theorem matrixIssue_runs {s : State} {f : Fields} (body : Hart → Hart) (h : s.issueStalls f.ecls = false) :
    matrixIssue f body s = .done (((s.debitIssue f).modHart fun h => { h with stalled := none }).modHart body) :=
  if_neg (by simp [h])

/-- An accumulating form reads its accumulator, unless it starts from zero, and the registers it waits for. -/
theorem accReads_wait (z : Bool) (f : Fields) (also : List Reg) :
    ∀ r ∈ accRead z f ++ also, isScalar r = true → r ∈ waitsFor f also := by
  intro r hm hs
  obtain hm | hm := List.mem_append.1 hm
  · cases z with
    | false =>
      obtain rfl := List.mem_singleton.1 hm
      exact dest_waits f _ hs
    | true => simp [accRead] at hm
  · exact List.mem_append_right _ hm

/-- Both accumulating forms, from the old elements and from zero. -/
theorem accForms_complete {mk mkZ : Fields → Instr} {chk : ACfg → Geom → Option Illegal} {also : Fields → List Reg}
    {fn : Fields → Hart → Nat → Nat → Nat → Nat × Flags × Nat}
    (hx : ∀ z f s, exec (cond z mkZ mk f) s =
      matrixOp f chk (also f) (accRead z f ++ also f) (matrixIssue f fun h => accUpdate h f h.acfg z (fn f h)) s) :
    ∀ e ∈ accForms mk mkZ chk also fn, e.Completes := by
  simp only [accForms, List.forall_mem_cons, List.not_mem_nil, false_implies, implies_true, and_true]
  constructor
  · intro f s c hi hg
    exact (hx false f s).trans (matrixOp_forks c hi (accReads_wait false f _) (matrixIssue_runs _ (hg rfl)))
  · intro f s c hi hg
    exact (hx true f s).trans (matrixOp_forks c hi (accReads_wait true f _) (matrixIssue_runs _ (hg rfl)))

/-- The positions of the swept rows: a tile row with an accumulator row to match (R150). -/
theorem sweptRows_cells (c : ACfg) (g : Geom) (a : Nat) :
    ((sweptRows c g a).flatMap fun p => (List.range c.cols).map fun j => (⟨p.1, j, p.2 * c.cols + j⟩ : Cell)) =
      (List.range g.vr).flatMap fun r =>
        if a + r < c.rows then (List.range c.cols).map fun j => (⟨r, j, (a + r) * c.cols + j⟩ : Cell) else [] := by
  unfold sweptRows
  induction List.range g.vr with
  | nil => rfl
  | cons r rs ih =>
    rw [List.map_cons, List.flatMap_cons, ← ih]
    by_cases h : a + r < c.rows
    · rw [List.filter_cons_of_pos (by simpa using h), List.flatMap_cons, if_pos h]
    · rw [List.filter_cons_of_neg (by simpa using h), if_neg h, List.nil_append]

/-- The moves of accumulator rows, with the row that the form names: nothing late, each result is written at once. -/
theorem rowForms_complete {row : Fields → Hart → Nat} {rd wr : Fields → Instr} (reg : Bool)
    (hrow : ∀ f h, row f h = arow reg h f) (hrd : ∀ f s, exec (rd f) s = mrdOp reg f s) (hwr : ∀ f s, exec (wr f) s = mwrOp reg f s) :
    ∀ e ∈ rowForms row rd wr, e.Completes := by
  simp only [rowForms, List.forall_mem_cons, List.not_mem_nil, false_implies, implies_true, and_true]
  constructor
  · intro f s c hi _
    rw [hrd]
    refine matrixOp_completes (chk := mrowChk true f) c hi (by simp) rfl ?_
    simp only [sweptRows_cells, produce_put _ _ _ ((raise_late _ _).trans c.onTime), hrow, Hart.putTile]
  · intro f s c hi _
    rw [hwr]
    refine matrixOp_completes (chk := mrowChk false f) c hi (fun r hm hs => ?_) rfl ?_
    · obtain rfl := List.mem_singleton.1 hm
      exact dest_waits f _ hs
    · simp only [sweptRows_cells, produce_put _ _ _ ((raise_late _ _).trans c.onTime), hrow]

/-- `mzero` gives D at once where nothing is late. -/
theorem mzero_completes {s : State} {f : Fields} (c : s.ClearFork f []) : exec (.mzero f) s = .next (s.forks f fun h => h.put f.d (.acc 0)) :=
  matrixOp_completes (chk := fun _ _ => none) c rfl (by simp) rfl (produce_put _ _ _ c.onTime)

/-- Each matrix form of the table. -/
theorem matrixForms_complete : ∀ e ∈ matrixForms, e.Completes := by
  simp only [matrixForms, List.forall_mem_append, List.forall_mem_singleton, and_assoc]
  refine ⟨fun f s c _ _ => mzero_completes c, accForms_complete ?mmaf, accForms_complete ?mmai, accForms_complete ?mtern,
    accForms_complete ?mmax, rowForms_complete false (fun f _ => (bitsAt_zero f.imm.toNat 6).symm) (fun _ _ => rfl) (fun _ _ => rfl),
    rowForms_complete true (fun _ _ => rfl) (fun _ _ => rfl) (fun _ _ => rfl)⟩
  all_goals
    intro z f s
    cases z <;> rfl

/-- Settles O16: `mcfg` by the check of its value, each other form by its table. -/
theorem matrixResults : Obligations.MatrixResults := by
  unfold Obligations.MatrixResults
  exact ⟨fun f s c => ⟨fun _ => mcfgI_sets c, mcfg_sets c, mcfg_traps c⟩, matrixForms_complete⟩

/-! Accumulations (R140, R144). -/

/-- Values of `w` bits side by side, the first lowest. -/
def packed (w : Nat) (l : List Nat) : Nat := l.foldr (fun x acc => acc * 2 ^ w + x % 2 ^ w) 0
@[simp] theorem packed_cons (w x : Nat) (l : List Nat) : packed w (x :: l) = packed w l * 2 ^ w + x % 2 ^ w := rfl
/-- An accumulator with its elements replaced keeps what lies above them. -/
theorem accPut_packed (c : ACfg) (img : Nat) (l : List Nat) :
    accPut c img l = 2 ^ (c.width * (c.rows * c.cols)) * (img / 2 ^ (c.width * (c.rows * c.cols))) + packed c.width l := by
  rw [Nat.mul_comm]; rfl

theorem packed_lt (w : Nat) (l : List Nat) : packed w l < 2 ^ (w * l.length) := by
  induction l with
  | nil => simp [packed]
  | cons x l ih =>
    have hx : x % 2 ^ w < 2 ^ w := Nat.mod_lt _ (Nat.two_pow_pos w)
    calc packed w (x :: l) < packed w l * 2 ^ w + 2 ^ w := Nat.add_lt_add_left hx _
      _ = (packed w l + 1) * 2 ^ w := (Nat.succ_mul _ _).symm
      _ ≤ 2 ^ (w * l.length) * 2 ^ w := Nat.mul_le_mul_right _ ih
      _ = 2 ^ (w * (x :: l).length) := by rw [← Nat.pow_add, List.length_cons, Nat.mul_succ]
/-- Each value stands in its place. -/
theorem bitsAt_packed (w : Nat) (l : List Nat) {i : Nat} (h : i < l.length) : bitsAt (packed w l) (w * i) w = l[i] % 2 ^ w := by
  induction l generalizing i with
  | nil => simp at h
  | cons x l ih =>
    cases i with
    | zero => simp [bitsAt_zero]
    | succ i =>
      have tail : packed w (x :: l) / 2 ^ w = packed w l := by
        rw [packed_cons, Nat.mul_comm, Nat.mul_add_div (Nat.two_pow_pos w), Nat.div_eq_of_lt (Nat.mod_lt _ (Nat.two_pow_pos w)), Nat.add_zero]
      have hs : bitsAt (packed w (x :: l)) (w * (i + 1)) w = bitsAt (packed w l) (w * i) w := by
        rw [bitsAt, Nat.mul_succ, Nat.add_comm, Nat.pow_add, ← Nat.div_div_eq_div_mul, tail]; rfl
      rw [hs, ih (Nat.lt_of_succ_lt_succ h), List.getElem_cons_succ]

/-- A field below the cut of an image is that of the lower part. -/
theorem bitsAt_low_part {n lo w : Nat} (q : Nat) {p : Nat} (hp : p < 2 ^ n) (h : lo + w ≤ n) : bitsAt (2 ^ n * q + p) lo w = bitsAt p lo w := by
  refine Nat.eq_of_testBit_eq fun i => ?_
  rw [testBit_bitsAt, testBit_bitsAt, Nat.testBit_two_pow_mul_add _ hp]
  by_cases hi : i < w
  · rw [if_pos (by omega)]
  · simp [hi]
/-- A field that a register has room for is that of the number written. -/
theorem bitsAt_ofNat {n lo w : Nat} (m : Nat) (h : lo + w ≤ n) : bitsAt (BitVec.ofNat n m).toNat lo w = bitsAt m lo w := by
  have whole : bitsAt (2 ^ n * (m / 2 ^ n) + m % 2 ^ n) lo w = bitsAt (m % 2 ^ n) lo w :=
    bitsAt_low_part _ (Nat.mod_lt _ (Nat.two_pow_pos n)) h
  rw [BitVec.toNat_ofNat, ← whole, Nat.div_add_mod]

section
variable {c : ACfg} {l : List Nat} (hl : l.length = c.rows * c.cols) (img : Nat)
include hl

theorem accPut_elem {i : Nat} (hi : i < l.length) : bitsAt (accPut c img l) (c.width * i) c.width = l[i] % 2 ^ c.width := by
  have place_fits : c.width * i + c.width ≤ c.width * l.length := Nat.mul_le_mul_left c.width hi
  rw [accPut_packed, ← hl, bitsAt_low_part _ (packed_lt _ l) place_fits, bitsAt_packed _ l hi]
theorem accPut_above {b : Nat} (hb : c.width * (c.rows * c.cols) ≤ b) : (accPut c img l).testBit b = img.testBit b := by
  rw [accPut_packed, ← hl, Nat.testBit_two_pow_mul_add _ (packed_lt _ l), hl, if_neg (Nat.not_lt.2 hb), Nat.testBit_div_two_pow, Nat.sub_add_cancel hb]
end

/-- Element (i, j) stands at place i * cols + j. -/
theorem acc_place {rows cols i j : Nat} (hi : i < rows) (hj : j < cols) :
    i * cols + j < rows * cols ∧ (i * cols + j) / cols = i ∧ (i * cols + j) % cols = j := by
  have hc : 0 < cols := Nat.zero_lt_of_lt hj
  refine ⟨?_, ?_, ?_⟩
  · calc i * cols + j < i * cols + cols := Nat.add_lt_add_left hj _
      _ = (i + 1) * cols := (Nat.succ_mul i cols).symm
      _ ≤ rows * cols := Nat.mul_le_mul_right _ hi
  · rw [Nat.mul_comm, Nat.mul_add_div hc, Nat.div_eq_of_lt hj, Nat.add_zero]
  · rw [Nat.mul_comm, Nat.mul_add_mod, Nat.mod_eq_of_lt hj]

/-- What a form gives the elements of an accumulator's image, row by row: bits, `FFLAGS` and `MSTAT` bits. -/
def accResults (c : ACfg) (img : Nat) (z : Bool) (fn : Nat → Nat → Nat → Nat × Flags × Nat) : List (Nat × Flags × Nat) :=
  ((List.range (c.rows * c.cols)).zip (accElems c img)).map fun p => fn (p.1 / c.cols) (p.1 % c.cols) (if z then 0 else p.2)
/-- The image that a form leaves. -/
def accImage (c : ACfg) (img : Nat) (z : Bool) (fn : Nat → Nat → Nat → Nat × Flags × Nat) : Nat :=
  accPut c img ((accResults c img z fn).map Prod.fst)

section
variable (c : ACfg) (img : Nat) (z : Bool) (fn : Nat → Nat → Nat → Nat × Flags × Nat)

theorem accBits_length : ((accResults c img z fn).map Prod.fst).length = c.rows * c.cols := by simp [accResults, accElems]
/-- Element (i, j) has the value of its place, from the old one or from zero. -/
theorem accImage_elem {i j : Nat} (hi : i < c.rows) (hj : j < c.cols) : bitsAt (accImage c img z fn) (c.width * (i * c.cols + j)) c.width =
    (fn i j (if z then 0 else bitsAt img (c.width * (i * c.cols + j)) c.width)).1 % 2 ^ c.width := by
  obtain ⟨hlt, hdiv, hmod⟩ := acc_place hi hj
  rw [accImage, accPut_elem (accBits_length c img z fn) img (by rwa [accBits_length])]
  simp [accResults, accElems, hdiv, hmod]
theorem accImage_above {b : Nat} (hb : c.width * (c.rows * c.cols) ≤ b) : (accImage c img z fn).testBit b = img.testBit b :=
  accPut_above (accBits_length c img z fn) img hb
end

/-- With nothing late, an accumulation changes its accumulator, and of the rest system registers and a register's parity mark alone. -/
theorem accUpdate_put {h : Hart} {f : Fields} {n : Fin 2} (c : ACfg) (z : Bool) (fn : Nat → Nat → Nat → Nat × Flags × Nat)
    (hd : f.d = .ma n) (hl : h.late = []) : ∃ sr : SysRegs, accUpdate h f c z fn =
      { h.mend (.ma n) with sr := sr, ma := h.ma.set n (BitVec.ofNat 131072 (accImage c (h.ma[n]).toNat z fn)) } := by
  have written (sr : SysRegs) (v : RegVal) : ({ h with sr := sr } : Hart).produce (.ma n) v = ({ h with sr := sr } : Hart).put (.ma n) v :=
    produce_put _ _ _ hl
  simp only [accUpdate, Hart.raise, hd, written]
  exact ⟨_, rfl⟩

/-- Settles O17: the elements by `accImage_elem`, the bits above them by `accImage_above`, the rest because D alone is written. -/
theorem accumulatorElements : Obligations.AccumulatorElements := by
  unfold Obligations.AccumulatorElements
  intro h f n c z fn hd hl fits t old
  obtain ⟨sr, ht⟩ : ∃ sr : SysRegs, t = _ := accUpdate_put c z fn hd hl
  have hma : t.ma = h.ma.set n (BitVec.ofNat 131072 (accImage c (h.ma[n]).toNat z fn)) := congrArg Hart.ma ht
  refine ⟨fun i j hi hj => ?elements, fun b hb => ?above, fun m hm => ?other, ?frame⟩
  case elements =>
    have room : c.width * (i * c.cols + j) + c.width ≤ 131072 :=
      Nat.le_trans (Nat.mul_le_mul_left c.width (acc_place hi hj).1) fits
    rw [hma, Fin.getElem_fin, Vector.getElem_set_self, bitsAt_ofNat _ room, accImage_elem c _ z fn hi hj]
  case above =>
    rw [hma, Fin.getElem_fin, Vector.getElem_set_self, BitVec.getLsbD_ofNat, accImage_above c _ z fn hb,
      BitVec.testBit_toNat]
    simpa using BitVec.lt_of_getLsbD
  case other =>
    rw [hma]
    exact Vector.getElem_set_ne _ _ fun e => hm (Fin.ext e.symm)
  case frame =>
    rw [ht]
    exact ⟨rfl, rfl, rfl, rfl, rfl⟩

end Sys2Proof.Machine
end

section
/-! Declared buffers (R186 to R188). -/
namespace Sys2Proof.Machine

theorem bufIndex_eq (f : Fields) : bufIndex f = f.imm.toNat % 64 := bitsAt_zero _ 6

/-- The buffer that `bdecl` declares: a STAGED one EMPTY and others FULL (R187). -/
def State.declaredBuf (s : State) (f : Fields) : Buf :=
  let kind := bufKindOf (bitsAt f.imm.toNat 8 2)
  ⟨s.hart.ctx, s.hart.place.die, s.hart.place.cluster, f.imm.toNat % 64, (s.hart.xr f.a).toNat - spadWin, (s.hart.xr f.b).toNat, kind,
    f.imm.getLsbD 10, if kind = .staged then .empty else .full, 0, 0, 0⟩

section
variable {s : State} {f : Fields} (c : s.Clear f [])
include c

/-- An instruction of `aside` that changes the state and completes in place. -/
theorem aside_after {body : State → Res} {t : State} (h : body s = .done t) : aside f body s = .next (t.after f) :=
  issue_after { body } c rfl rfl h
/-- An instruction of `aside` that raises BUFFER_STATE: no access fault, so nothing else changes. -/
theorem aside_badEntry {body : State → Res} (h : body s = badEntry f s) :
    aside f body s = .next (s.trap cBUFFER (BitVec.ofNat 64 (f.imm.toNat % 64)) 0) := by
  rw [← bufIndex_eq]
  exact issue_traps { body } c rfl (by simp) s _ _ _ h

variable (still : s.still = true)
include still

/-- `bdecl` adds the buffer where its range is a sound one that no other of the cluster overlaps, and its index is free (R187, R191). -/
theorem bdecl_adds (window : inSpadWin (s.hart.xr f.a).toNat = true) (aligned : (s.hart.xr f.a).toNat % 64 = 0)
    (pos : 0 < (s.hart.xr f.b).toNat) (units : (s.hart.xr f.b).toNat % 64 = 0)
    (inside : (s.hart.xr f.a).toNat - spadWin + (s.hart.xr f.b).toNat ≤ spadBytes) (free : s.bufEntry (f.imm.toNat % 64) = none)
    (apart : ∀ b ∈ s.bufs, b.ctx = s.hart.ctx → b.die = s.hart.place.die → b.cluster = s.hart.place.cluster →
      (s.hart.xr f.a).toNat - spadWin + (s.hart.xr f.b).toNat ≤ b.base ∨ b.base + b.size ≤ (s.hart.xr f.a).toNat - spadWin) :
    let b := s.declaredBuf f
    let t : State := { s with bufs := s.bufs ++ [b] }
    exec (.bdecl f) s = .next (State.after (if b.kind = .barrier then t.writeN (t.spadPa b.die b.cluster b.base) 0 b.size else t) f) := by
  have clash : (s.bufs.any fun b => b.ctx == s.hart.ctx && b.die == s.hart.place.die && b.cluster == s.hart.place.cluster
      && decide (b.base < (s.hart.xr f.a).toNat - spadWin + (s.hart.xr f.b).toNat)
      && decide ((s.hart.xr f.a).toNat - spadWin < b.base + b.size)) = false := by
    simp only [List.any_eq_false, Bool.and_eq_true, beq_iff_eq, decide_eq_true_eq, not_and, and_imp]
    intro b hb hx hd hk
    have := apart b hb hx hd hk
    omega
  rw [exec_bdecl]
  refine aside_after c ?_
  simp only [drainAll_still still, bufIndex_eq, free, clash, window, aligned, units, Nat.pos_iff_ne_zero.1 pos, Nat.not_lt.2 inside,
    Bool.not_true, Bool.false_eq_true, Option.isSome_none, ne_eq, not_true_eq_false, or_self, if_false]
  rfl

/-- An index with no entry is BUFFER_STATE to both instructions that change one (R187, R188). -/
theorem bufEntry_none_traps (none_ : s.bufEntry (f.imm.toNat % 64) = none) :
    let bad := s.trap cBUFFER (BitVec.ofNat 64 (f.imm.toNat % 64)) 0
    exec (.bdeclFree f) s = .next bad ∧ exec (.bset f) s = .next bad := by
  constructor <;> exact aside_badEntry c (by simp only [drainAll_still still, bufIndex_eq, none_])

variable {b : Buf} (entry : s.bufEntry (f.imm.toNat % 64) = some b)
include entry

/-- So is one with an operation in flight. -/
theorem bufEntry_busy_traps (busy : b.infl + b.outfl ≠ 0) :
    let bad := s.trap cBUFFER (BitVec.ofNat 64 (f.imm.toNat % 64)) 0
    exec (.bdeclFree f) s = .next bad ∧ exec (.bset f) s = .next bad := by
  refine ⟨aside_badEntry c ?_, aside_badEntry c ?_⟩
  · simp only [drainAll_still still, bufIndex_eq, entry, if_pos busy]
  · simp only [drainAll_still still, bufIndex_eq, entry, if_pos (Or.inr (Or.inr busy))]
/-- `bdecl.free` removes an entry with nothing in flight (R187). -/
theorem bdeclFree_removes (idle : b.infl + b.outfl = 0) :
    exec (.bdeclFree f) s = .next (State.after { s with bufs := s.bufs.filter (· != b) } f) :=
  aside_after c (by simp only [drainAll_still still, bufIndex_eq, entry, if_neg (Decidable.not_not.2 idle)])
/-- `bset` sets the state of an idle STAGED entry, and of a PLAIN one to FULL (R188). -/
theorem bset_sets (idle : b.infl + b.outfl = 0) (ok : b.kind = .staged ∨ b.kind = .plain ∧ bufStateOf (bitsAt f.imm.toNat 8 2) = .full) :
    exec (.bset f) s = .next ((s.modBuf b fun b => { b with state := bufStateOf (bitsAt f.imm.toNat 8 2), xcnt := 0 }).after f) := by
  refine aside_after c ?_
  rcases ok with k | ⟨k, full⟩
  · simp [drainAll_still still, bufIndex_eq, entry, idle, k]
  · simp [drainAll_still still, bufIndex_eq, entry, idle, k, full]
/-- A BARRIER entry has no state to set, and a PLAIN one none but FULL (R188). -/
theorem bset_traps (bad : b.kind = .barrier ∨ b.kind = .plain ∧ bufStateOf (bitsAt f.imm.toNat 8 2) ≠ .full) :
    exec (.bset f) s = .next (s.trap cBUFFER (BitVec.ofNat 64 (f.imm.toNat % 64)) 0) :=
  aside_badEntry c (by simp only [drainAll_still still, bufIndex_eq, entry, if_pos (or_assoc.1 (Or.inl bad))])
end

/-- `bset.get` reads an entry's image, and 0 where there is none (R188). -/
theorem bsetGet_reads {s : State} {f : Fields} (c : s.Clear f []) (still : s.still = true) :
    exec (.bsetGet f) s = .next (s.completes f fun h => h.put f.d (.word (match s.bufEntry (f.imm.toNat % 64) with
      | some b => BitVec.ofNat 64 b.image
      | none => 0))) :=
  aside_completes c _ (by simp only [drainAll_still still, bufIndex_eq, give] <;> rfl)

/-- Settles O31: an equation for each instruction and each thing that may stand under its index. -/
theorem bufferResults : Obligations.BufferResults := by
  unfold Obligations.BufferResults
  intro f s c still i off n kind st b bad
  refine ⟨bdecl_adds c still, fun b entry idle => ⟨bdeclFree_removes c still entry idle, bset_sets c still entry idle, bset_traps c still entry⟩,
    fun b entry busy => bufEntry_busy_traps c still entry busy, bufEntry_none_traps c still, bsetGet_reads c still⟩

end Sys2Proof.Machine
end

section
/-! Saving, resuming, checkpoints and carve-outs (R184, R335, R352 to R366, R396, R397). -/
namespace Sys2Proof.Machine

/-- A write keeps of the stored tuples those whose space, as memory then stands, has a descriptor in force (R237). -/
theorem State.writeN_tuples (s : State) (pa v n : Nat) :
    (s.writeN pa v n).tuples = s.tuples.filter fun x => !(s.putN pa v n).spaceDead x.ctx x.tsid :=
  congrArg State.tuples (State.fires_frame _ _).eq

/-- A copy of at least a byte writes, so no tuple outlives it where every tuple's space is dead whatever is written. -/
theorem State.copyBytes_drops {s : State} {src dst n : Nat} (pos : 0 < n)
    (dead : ∀ pa v k, ∀ x ∈ s.tuples, (s.putN pa v k).spaceDead x.ctx x.tsid = true) : (s.copyBytes src dst n).tuples = [] := by
  obtain ⟨i, r, first⟩ := List.exists_cons_of_ne_nil (l := List.range ((n + 1023) / 1024)) (by simp only [ne_eq, List.range_eq_nil]; omega)
  rw [State.copyBytes, first, List.foldl_cons]
  refine foldl_keeps (P := fun u : State => u.tuples = []) _ _ ?_ fun u j none_ => ?_
  · rw [State.writeN_tuples, List.filter_eq_nil_iff]
    intro x hx
    simp [dead _ _ _ x hx]
  · rw [State.writeN_tuples, none_, List.filter_nil]

/-- A machine whose dies carve out one slice each. Context 0 has a tuple on die 0, its one virtual die, and its context block, as last
read, names no table of tuple spaces. -/
def tablelessRig : State :=
  { State.reset with dies := Vector.replicate 16 { srcarve := 1 }, blocks := [⟨0, 1, [(0, 0, 0)], 0, 0⟩], tuples := [⟨0, 0, 7, 0, (0, 0)⟩] }

/-- The same machine in a move from die 0 to die 1, once its tuple is die 1's and before the carve-out's bytes are copied. -/
def movedRig : State := { tablelessRig with tuples := [⟨0, 0, 7, 0, (0, 1)⟩] }
/-- The move runs: both dies carve out the same slice, and no hart or collective of the context stands in its way. -/
theorem tablelessRig_moves : exec (.homeSliceStateMove 0 0 1) tablelessRig =
    .next (movedRig.copyBytes (movedRig.paOf (dieWindow 0 + 0x8000000)) (movedRig.paOf (dieWindow 1 + 0x8000000)) sliceBytes) := rfl

/-- No write gives its block a table. -/
theorem movedRig_dead (pa v n : Nat) : ∀ x ∈ movedRig.tuples, (movedRig.putN pa v n).spaceDead x.ctx x.tsid = true := by
  intro x hx
  rw [List.mem_singleton.1 hx]
  rfl

/-- Refutes O45: a move of home-slice state does not give every tuple of the one die to the other. The statement does not ask that the
spaces of the stored tuples stand, and the copy of the carve-out is a write of memory, which purges the tuples of a space that does not
(R237): the one tuple of `tablelessRig` is gone after the move. -/
theorem not_saveResumeResults : ¬ Obligations.SaveResumeResults := by
  unfold Obligations.SaveResumeResults
  intro h
  obtain ⟨events, -⟩ := h
  obtain ⟨-, -, -, -, -, -, -, -, move⟩ := events tablelessRig
  obtain ⟨-, moves⟩ := move 0 0 1 (Ctx.fresh 0 0) (by decide) (by decide) rfl (by decide)
  obtain ⟨t, runs, kept, -⟩ := moves rfl rfl rfl rfl
  have gone : t.tuples = [] := by
    rw [tablelessRig_moves] at runs
    rw [← Host.Outcome.next.inj runs]
    exact State.copyBytes_drops (by decide) movedRig_dead
  rw [gone] at kept
  cases kept

end Sys2Proof.Machine
end

section
/-! Accesses performed at their homes, and walks held (R195, R199, R232, R339, R342, R395). -/
namespace Sys2Proof.Machine

/-! What each event reaches. -/

theorem exec_memoryAccessPerform (a : AccessRef) (s : State) : exec (.memoryAccessPerform a) s = execMemoryAccessPerform a s := rfl
theorem exec_pageTableWalk (n : Nat) (kind : AccessKind) (va : Nat) (s : State) :
    exec (.pageTableWalk n kind va) s = execPageTableWalk n kind va s := rfl
theorem exec_performHart (n : Nat) (strm : Fin 4) (s : State) : exec (.memoryAccessPerform (.hart n strm)) s = .next (s.performNext n strm) := rfl

/-! The next access of a stream (R195, R199). -/

/-- What performing a part leaves pending of its access: what is left of it in its place, or nothing. -/
def Hart.settlePart (a : Access) (rest : Option Access) (h : Hart) : Hart :=
  match rest with
  | some b => { h with pend := h.pend.replace a b }
  | none => h.dropAccess a

section
variable {s : State} {n : Nat} {strm : Fin 4}

theorem performNext_idle (idle : (s.hartAt n).pend.find? (fun a => a.stream == strm && !a.isOrder) = none) : s.performNext n strm = s := by
  simp only [State.performNext, idle]

variable {a : Access} (oldest : (s.hartAt n).pend.find? (fun a => a.stream == strm && !a.isOrder) = some a)
include oldest

/-- An access waits for one that must precede it, and for the end of a test of its bank. -/
theorem performNext_waits (waits : precursors ((s.hartAt n).pend.takeWhile (· != a)) a ≠ [] ∨ s.heldUp a = true) : s.performNext n strm = s := by
  simp only [State.performNext, oldest]
  refine if_neg fun go => ?_
  simp only [Bool.and_eq_true, List.isEmpty_iff, Bool.not_eq_true'] at go
  obtain ⟨⟨first, -⟩, free⟩ := go
  obtain behind | held := waits
  · exact behind first
  · exact Bool.false_ne_true (free.symm.trans held)

/-- A store that nothing precedes and no test holds up performs its first part. -/
theorem performNext_store {l : List StorePart} (first : precursors ((s.hartAt n).pend.takeWhile (· != a)) a = []) (store : a.op = .store l)
    (free : s.heldUp a = false) :
    s.performNext n strm = (s.performPart n a).1.modHartAt n (Hart.settlePart a (s.performPart n a).2) := by
  simp only [State.performNext, oldest, store]
  exact if_pos (by simp [first, free])
end

/-! The part of a store. -/

/-- Where no trigger is armed, a part is performed with nothing before it (R236). -/
theorem performPart_unarmed {s : State} (n : Nat) (a : Access) (unarmed : s.armCount = 0) : s.performPart n a = s.doPart n a :=
  if_neg (by simp [unarmed])

/-- The part of a store at a home that can be reached: its bits are written, and the parts behind it are left. -/
theorem doPart_store {s : State} (n : Nat) {a : Access} {p : StorePart} {r : List StorePart} (store : a.op = .store (p :: r))
    (reached : s.lost p.pa = false) :
    s.doPart n a = ((s.drawTicket a.sc p.pa).writeBits p.pa p.bit p.width p.value, if r.isEmpty then none else some { a with op := .store r }) := by
  simp [State.doPart, store, reached]

/-- A ticket is drawn from a count that nothing else reads. -/
theorem drawTicket_eq (s : State) (sc : Bool) (pa : Nat) : s.drawTicket sc pa = { s with ticket := (s.drawTicket sc pa).ticket } := by
  unfold State.drawTicket
  split <;> rfl
@[simp] theorem drawTicket_mem (s : State) (sc : Bool) (pa : Nat) : (s.drawTicket sc pa).mem = s.mem := by rw [drawTicket_eq]
@[simp] theorem drawTicket_harts (s : State) (sc : Bool) (pa : Nat) : (s.drawTicket sc pa).harts = s.harts := by rw [drawTicket_eq]
@[simp] theorem drawTicket_hartAt (s : State) (sc : Bool) (pa n : Nat) : (s.drawTicket sc pa).hartAt n = s.hartAt n := by rw [drawTicket_eq]; rfl
@[simp] theorem drawTicket_readByte (s : State) (sc : Bool) (pa b : Nat) : (s.drawTicket sc pa).readByte b = s.readByte b := by
  rw [drawTicket_eq]; rfl

@[simp] theorem modHartAt_readByte (s : State) (n : Nat) (g : Hart → Hart) (b : Nat) : (s.modHartAt n g).readByte b = s.readByte b := rfl
/-- Numbers are read byte by byte. -/
theorem readN_congr {s t : State} (bytes : ∀ b, t.readByte b = s.readByte b) (pa n : Nat) : t.readN pa n = s.readN pa n := by
  rw [State.readN_eq, State.readN_eq]
  induction n generalizing pa with
  | zero => rfl
  | succ n ih => rw [State.readVeiled, State.readVeiled, bytes, ih]
@[simp] theorem modHartAt_readN (s : State) (n : Nat) (g : Hart → Hart) (pa k : Nat) : (s.modHartAt n g).readN pa k = s.readN pa k :=
  readN_congr (modHartAt_readByte s n g) pa k
theorem hartAt_modHartAt (s : State) (n : Nat) (g : Hart → Hart) (bound : n < s.harts.length) : (s.modHartAt n g).hartAt n = g (s.hartAt n) :=
  updAt_getD _ _ _ _ bound

@[simp] theorem wake_pend (lo n : Nat) (h : Hart) : (h.wake lo n).pend = h.pend := by rw [Hart.wake_eq]
@[simp] theorem writeBits_pend (s : State) (pa bit w v n : Nat) : ((s.writeBits pa bit w v).hartAt n).pend = (s.hartAt n).pend := by
  rw [State.writeBits, State.writeN_hartAt, wake_pend]
@[simp] theorem writeBits_length (s : State) (pa bit w v : Nat) : (s.writeBits pa bit w v).harts.length = s.harts.length := State.writeN_length ..

section
variable {s : State} (wf : Mem.wf s.mem = true) {w : Nat} (whole : w % 8 = 0) (pa v : Nat)
include wf whole

/-- Whole bytes read back as they were written. -/
theorem readN_writeBits : (s.writeBits pa 0 w v).readN pa (w / 8) = v % 2 ^ w := by
  have bytes : (0 + w + 7) / 8 = w / 8 := by omega
  have bits : 8 * (w / 8) = w := by omega
  rw [State.writeBits, bytes, State.readN_writeN _ _ _ _ wf, bits]
  simp [Nat.mod_one]
/-- The bytes beside them stay. -/
theorem readByte_writeBits_ne {b : Nat} (beside : b < pa ∨ pa + w / 8 ≤ b) : (s.writeBits pa 0 w v).readByte b = s.readByte b :=
  State.readByte_writeN_ne _ _ _ _ _ wf (by omega)
end

/-- What the event of a store's part leads to where no trigger is armed and the home can be reached. -/
theorem performNext_storePart {s : State} {n : Nat} {strm : Fin 4} {a : Access} {p : StorePart} {r : List StorePart}
    (oldest : (s.hartAt n).pend.find? (fun a => a.stream == strm && !a.isOrder) = some a)
    (first : precursors ((s.hartAt n).pend.takeWhile (· != a)) a = []) (store : a.op = .store (p :: r)) (free : s.heldUp a = false)
    (unarmed : s.armCount = 0) (reached : s.lost p.pa = false) :
    s.performNext n strm = ((s.drawTicket a.sc p.pa).writeBits p.pa p.bit p.width p.value).modHartAt n
      (Hart.settlePart a (if r.isEmpty then none else some { a with op := .store r })) := by
  rw [performNext_store oldest first store free, performPart_unarmed n a unarmed, doPart_store n store reached]

/-! Writes from outside the package. -/

/-- A list of bytes written as one number stands in memory byte by byte. -/
theorem get_setN_bytesValue {m : List Host.Cell} (wf : Mem.wf m = true) (pa : Nat) {l : List Byte} {i : Nat} (h : i < l.length) :
    Mem.get (Mem.setN m pa (bytesValue l) l.length) (pa + i) = l.getD i 0 := by
  induction l generalizing m pa i with
  | nil => simp at h
  | cons b r ih =>
    have low : BitVec.ofNat 8 (bytesValue (b :: r)) = b := BitVec.eq_of_toNat_eq (by simp [bytesValue]; omega)
    have high : bytesValue (b :: r) / 256 = bytesValue r := by simp only [bytesValue]; omega
    have wf' := Mem.set_wf m pa b wf
    rw [List.length_cons, Mem.setN, low, high]
    cases i with
    | zero => rw [Mem.get_setN_ne _ _ _ _ _ wf' (by omega), Mem.get_set _ _ _ _ wf, if_pos (Nat.add_zero pa)]; rfl
    | succ i =>
      have next : pa + (i + 1) = pa + 1 + i := by omega
      rw [next, ih wf' (pa + 1) (Nat.lt_of_succ_lt_succ h)]; rfl

section
variable {s : State} {pa : Nat} {bytes : List Byte}

theorem outsideWrite_waits (test : s.testing pa bytes.length = true) : exec (.memoryAccessPerform (.outsideWrite pa bytes)) s = .next s :=
  congrArg _ (if_neg (by simp [test]))
theorem outsideWrite_writes (nonempty : bytes ≠ []) (memory : s.isMemory pa bytes.length = true) (free : s.testing pa bytes.length = false) :
    exec (.memoryAccessPerform (.outsideWrite pa bytes)) s = .next (s.writeN pa (bytesValue bytes) bytes.length) :=
  congrArg _ (if_pos (by simp [nonempty, memory, free]))
end

/-! Copies in flight (R232). -/

/-- A record that may move moves units, and fails where one of them does. -/
theorem copyUnits_move {s : State} {ch : ChannelId} {k : Nat} {fl : Flight} (n : Nat) (flight : (s.chan ch).flights[k]? = some fl)
    (runs : (s.chan ch).quiesced = false) (may : s.mayMove ch k = true) :
    let m := ({ s with score := s.score ++ s.owedClaims ch fl } : State).advance ch k n
    (m.2 = none → exec (.memoryAccessPerform (.copyUnits ch k n)) s = .next m.1) ∧
    ∀ code, m.2 = some code → exec (.memoryAccessPerform (.copyUnits ch k n)) s =
      .next (m.1.failRecord ch k fl.agent fl.seq code fl.addr (recOf fl.words).txb) := by
  refine ⟨fun done => ?_, fun code failed => ?_⟩
  · simp [exec_memoryAccessPerform, execMemoryAccessPerform, flight, runs, may, done]
  · simp [exec_memoryAccessPerform, execMemoryAccessPerform, flight, runs, may, failed]

/-! Translations held (R342). -/

theorem mem_holdEntry_self (e : TlbEntry) (l : List TlbEntry) : e ∈ holdEntry e l := List.mem_append_left _ List.mem_cons_self
/-- A level that takes an entry in displaces nothing of another. -/
theorem mem_holdEntry_of_ne {e x : TlbEntry} {l : List TlbEntry} (held : x ∈ l) (other : x.level ≠ e.level) : x ∈ holdEntry e l :=
  List.mem_append_right _ (List.mem_filter.2 ⟨held, by simpa using other⟩)

/-- A walk that finds a leaf with the right of its access is held for the core, and for the die under it (R339, R342). -/
theorem pageTableWalk_holds {s : State} {n va pte size : Nat} {kind : AccessKind} {c : Ctx} (ctx : s.ctxOf (s.hartAt n).ctx = some c)
    (translated : va < localBase) (leaf : s.walk c.ptroot.toNat va 3 = some (pte, size)) (right : leafAllows pte (s.hartAt n).st.pl kind = true) :
    let e : TlbEntry := ⟨.l2 (s.hartAt n).place.die, false, c.asid.toNat, va / size * size, size, BitVec.ofNat 64 pte, []⟩
    exec (.pageTableWalk n kind va) s = .next { s with tlb := holdEntry { e with level := .l1 (s.hartAt n).core } (holdEntry e s.tlb) } := by
  simp [exec_pageTableWalk, execPageTableWalk, ctx, Nat.not_le.2 translated, leaf, right]

/-- Settles O42: a stream's event by `performNext_idle`, `performNext_waits` and `performNext_storePart`, each other event by the
equation that says what it leads to. -/
theorem accessEventResults : Obligations.AccessEventResults := by
  unfold Obligations.AccessEventResults
  intro s
  refine ⟨fun n strm _ idle => ?idle, fun n strm a p r bound oldest first store free unarmed aligned width reached _ wf => ?store,
    fun n strm a _ oldest waits => ?waits, fun ch k n fl => copyUnits_move n, fun pa bytes => outsideWrite_waits,
    fun pa bytes nonempty memory free wf => ?outside, fun n kind va c pte size ctx translated leaf right => ?walk⟩
  case idle => rw [exec_performHart, performNext_idle idle]
  case waits => rw [exec_performHart, performNext_waits oldest waits]
  case store =>
    have wf' : Mem.wf (s.drawTicket a.sc p.pa).mem = true := by rwa [drawTicket_mem]
    have pend (rest : Option Access) := congrArg Hart.pend (hartAt_modHartAt ((s.drawTicket a.sc p.pa).writeBits p.pa 0 p.width p.value) n
      (Hart.settlePart a rest) (by simpa using bound))
    refine ⟨_, congrArg Host.Outcome.next (performNext_storePart oldest first store free unarmed reached), ?_, fun b beside => ?_,
      fun last => ?_, fun more => ?_⟩
    · rw [aligned, modHartAt_readN, readN_writeBits wf' width]
    · rw [aligned, modHartAt_readByte, readByte_writeBits_ne wf' width _ _ beside, drawTicket_readByte]
    · rw [aligned, pend]
      simp [last, Hart.settlePart, Hart.dropAccess]
    · rw [aligned, pend]
      simp [more, Hart.settlePart]
  case outside =>
    refine ⟨_, outsideWrite_writes nonempty memory free, fun i h => ?_, fun b beside => State.readByte_writeN_ne _ _ _ _ _ wf beside⟩
    rw [State.readByte_writeN _ _ _ _ _ wf, if_pos ⟨Nat.le_add_right _ _, Nat.add_lt_add_left h _⟩, get_setN_bytesValue wf pa h]
  case walk =>
    exact ⟨pageTableWalk_holds ctx translated leaf right, mem_holdEntry_self _ _, mem_holdEntry_of_ne (mem_holdEntry_self _ _) nofun⟩

end Sys2Proof.Machine
end

section
/-! The update step of a transaction barrier (R215). -/
namespace Sys2Proof.Machine

/-! Fields of an image of which one field has been replaced. -/

theorem bitsAt_putBits_same (t off w v : Nat) : bitsAt (putBits t off w v) off w = v % 2 ^ w := by
  refine Nat.eq_of_testBit_eq fun i => ?_
  rw [testBit_bitsAt, testBit_putBits, Nat.testBit_mod_two_pow]
  by_cases hi : i < w
  · simp [hi]
  · simp [hi]
theorem bitsAt_putBits_apart {off w lo n : Nat} (t v : Nat) (h : lo + n ≤ off ∨ off + w ≤ lo) :
    bitsAt (putBits t off w v) lo n = bitsAt t lo n := by
  refine Nat.eq_of_testBit_eq fun i => ?_
  rw [testBit_bitsAt, testBit_bitsAt, testBit_putBits]
  by_cases hi : i < n
  · rw [if_neg (by omega)]
  · simp [hi]

/-- A number of `w` bits in two's complement is read back, where it fits (R3). -/
theorem intOf_bitsOf {z : Int} (lo : -(2 ^ 31 : Int) ≤ z) (hi : z < (2 ^ 31 : Int)) : intOf 32 true (bitsOf 32 z) = z := by
  have hb : bitsOf 32 z < 2 ^ 32 := by unfold bitsOf; omega
  have top : (bitsOf 32 z).testBit 31 = decide (2 ^ 31 ≤ bitsOf 32 z) := by
    rw [Nat.testBit_eq_decide_div_mod_eq]
    exact decide_eq_decide.2 (by omega)
  unfold intOf
  simp only [Nat.add_one_sub_one, Bool.true_and, top, decide_eq_true_eq]
  unfold bitsOf at *
  split <;> omega

/-! An error. -/

theorem barErr_kept {v : Nat} (c s : Nat) (h : barErrBit v = true) : barErr v c s = v := if_pos h
theorem barErr_first {v : Nat} (c : Nat) (h : barErrBit v = false) :
    barErr v c 0 = (2 ^ 31 + c % 128 * 2 ^ 24) * 2 ^ 96 + v % 2 ^ 96 := by
  simp [barErr, h, Nat.add_comm]
/-- An error is recorded in the fields above the counts, and an earlier one stays (R215). -/
theorem barErr_keeps (v c : Nat) :
    barErr v c 0 % 2 ^ 96 = v % 2 ^ 96 ∧ barErrBit (barErr v c 0) = true ∧ (barErrBit v = true → barErr v c 0 = v) := by
  cases h : barErrBit v with
  | true => simp [barErr_kept c 0 h, h]
  | false =>
    refine ⟨?_, ?_, nofun⟩
    · rw [barErr_first c h]; omega
    · rw [barErr_first c h, barErrBit, Nat.testBit_eq_decide_div_mod_eq]
      exact decide_eq_true (by omega)
theorem barErr_code {v c : Nat} (hc : c < 128) (h : barErrBit v = false) : bitsAt (barErr v c 0) 120 7 = c := by
  rw [barErr_first c h, bitsAt]; omega

/-! The update. -/

section
variable {v da : Nat} {ds : Int} (posted : Bool)

theorem barUpdate_tooMany (h : barArrPend v < da) : barUpdate v da ds posted = (barErr v 1 0, false, true) := if_pos h
theorem barUpdate_overflow (h : da ≤ barArrPend v) (out : ¬(-(2 ^ 31 : Int) ≤ barSect v + ds ∧ barSect v + ds < (2 ^ 31 : Int))) :
    barUpdate v da ds posted = (barErr v 2 0, false, true) := by
  have lo : intMin 32 true = -(2 ^ 31 : Int) := rfl
  have hi : intMax 32 true = (2 ^ 31 : Int) - 1 := rfl
  rw [barUpdate, if_neg (Nat.not_lt.2 h), lo, hi]
  exact if_pos (by omega)

/-- The image with `POSTED` set where a post makes the update. -/
def withPosted (posted : Bool) (v : Nat) : Nat := if posted then v ||| 0x20 else v
theorem testBit_withPosted (v i : Nat) : (withPosted posted v).testBit i = (v.testBit i || (posted && i == 5)) := by
  unfold withPosted
  cases posted
  · simp
  · rw [if_pos rfl, Nat.testBit_or, show (0x20 : Nat) = 2 ^ 5 from rfl, Nat.testBit_two_pow]
    simp [eq_comm, beq_eq_decide]
theorem bitsAt_withPosted (v : Nat) {lo n : Nat} (h : lo + n ≤ 5 ∨ 5 < lo) : bitsAt (withPosted posted v) lo n = bitsAt v lo n := by
  refine Nat.eq_of_testBit_eq fun i => ?_
  rw [testBit_bitsAt, testBit_bitsAt, testBit_withPosted]
  by_cases hi : i < n
  · have : (lo + i == 5) = false := by simp; omega
    simp [this]
  · simp [hi]

variable (h : da ≤ barArrPend v) (fits : -(2 ^ 31 : Int) ≤ barSect v + ds ∧ barSect v + ds < (2 ^ 31 : Int))
include h fits

theorem barUpdate_fits : barUpdate v da ds posted =
    if da = barArrPend v ∧ barSect v + ds = 0 then
      (putBits (putBits (putBits (putBits (withPosted posted v) 0 4 ((barPhase v + 1) % 16)) 4 4 0) 8 24 (barInit v)) 32 32 0, true, false)
    else (putBits (putBits (withPosted posted v) 8 24 (barArrPend v - da)) 32 32 (bitsOf 32 (barSect v + ds)), false, false) := by
  have lo : intMin 32 true = -(2 ^ 31 : Int) := rfl
  have hi : intMax 32 true = (2 ^ 31 : Int) - 1 := rfl
  have zero : barArrPend v - da = 0 ↔ da = barArrPend v := by omega
  have pend : barArrPend (withPosted posted v) = barArrPend v := bitsAt_withPosted posted v (by omega)
  have phase : barPhase (withPosted posted v) = barPhase v := bitsAt_withPosted posted v (by omega)
  have init : barInit (withPosted posted v) = barInit v := bitsAt_withPosted posted v (by omega)
  rw [barUpdate, if_neg (Nat.not_lt.2 h), lo, hi, if_neg (by omega)]
  simp only [← withPosted.eq_1, pend, phase, init, zero]

/-- The last arrival and the last credit complete the phase (R215). -/
theorem barUpdate_completes (last : da = barArrPend v ∧ barSect v + ds = 0) :
    let r := barUpdate v da ds posted
    barPhase r.1 = (barPhase v + 1) % 16 ∧ barArrPend r.1 = barInit v ∧ barSect r.1 = 0 ∧ bitsAt r.1 4 4 = 0 ∧
      bitsAt r.1 64 64 = bitsAt v 64 64 ∧ r.2 = (true, false) := by
  have init : barInit v < 2 ^ 24 := Nat.mod_lt _ (by decide)
  simp only [barUpdate_fits posted h fits, if_pos last]
  simp [barPhase, barArrPend, barSect, bitsAt_putBits_same, bitsAt_putBits_apart, bitsAt_withPosted, intOf]
  exact init

/-- Any other update takes effect on the counts (R215). -/
theorem barUpdate_counts (more : ¬(da = barArrPend v ∧ barSect v + ds = 0)) :
    let r := barUpdate v da ds posted
    barPhase r.1 = barPhase v ∧ barArrPend r.1 = barArrPend v - da ∧ barSect r.1 = barSect v + ds ∧
      (posted = true → r.1.testBit 5 = true) ∧ (posted = false → r.1.testBit 5 = v.testBit 5) ∧
      bitsAt r.1 64 64 = bitsAt v 64 64 ∧ r.2 = (false, false) := by
  have count : (barArrPend v - da) % 2 ^ 24 = barArrPend v - da := by unfold barArrPend bitsAt; omega
  have sect : bitsOf 32 (barSect v + ds) % 2 ^ 32 = bitsOf 32 (barSect v + ds) := by unfold bitsOf; omega
  simp only [barUpdate_fits posted h fits, if_neg more]
  refine ⟨?_, ?_, ?_, ?_, ?_, ?_, trivial⟩
  · simp [barPhase, bitsAt_putBits_apart, bitsAt_withPosted]
  · rw [barArrPend, bitsAt_putBits_apart _ _ (by omega), bitsAt_putBits_same, count]
  · rw [barSect, bitsAt_putBits_same, sect, intOf_bitsOf fits.1 fits.2]
  · rintro rfl; simp [testBit_putBits, testBit_withPosted]
  · rintro rfl; simp [testBit_putBits, testBit_withPosted]
  · simp [bitsAt_putBits_apart, bitsAt_withPosted]
end

/-- Settles O27: an update fails, completes the phase, or takes effect on the counts. -/
theorem barrierUpdate : Obligations.BarrierUpdate := by
  unfold Obligations.BarrierUpdate
  intro v da ds posted _ r sect fits kept
  refine ⟨fun many => ?tooMany, fun h out => ?overflow, fun h fit zero => barUpdate_completes posted h.le fit ⟨h, zero⟩,
    fun h fit more => barUpdate_counts posted h fit more⟩
  case tooMany =>
    have hr : r = _ := barUpdate_tooMany posted many
    obtain ⟨low, err, old⟩ := barErr_keeps v 1
    exact ⟨⟨by rw [hr, low], by rw [hr, err], by rw [hr], by rwa [hr]⟩, fun none_ => by rw [hr]; exact barErr_code (by decide) none_⟩
  case overflow =>
    have hr : r = _ := barUpdate_overflow posted h out
    obtain ⟨low, err, old⟩ := barErr_keeps v 2
    exact ⟨⟨by rw [hr, low], by rw [hr, err], by rw [hr], by rwa [hr]⟩, fun none_ => by rw [hr]; exact barErr_code (by decide) none_⟩

end Sys2Proof.Machine
end

section
/-! Taking a trap at S and at F (R345, R348, R352, R399). -/
namespace Sys2Proof.Machine

theorem hartAt_modHartAt_ne (s : State) (g : Hart → Hart) {m n : Nat} (other : m ≠ n) : (s.modHartAt n g).hartAt m = s.hartAt m :=
  updAt_getD_ne _ _ _ _ _ other.symm
/-- A log entry changes no hart. -/
theorem logEvent_hartAt (s : State) (source code : Nat) (detail : Word) (m : Nat) :
    (s.logEvent source code detail).hartAt m = s.hartAt m := by rw [logEvent_frame]; rfl

section
variable {s : State} {n : Nat} (epc : BitVec 55) (cause : Nat) (eval : Word) (eidx : Nat)

/-- A trap of U, and of S where none is being handled, enters the handler at S (R348). -/
theorem trapAt_enterS (h : (s.hartAt n).st.pl = .u ∨ (s.hartAt n).st.pl = .s ∧ (s.hartAt n).st.tf = false) :
    s.trapAt n epc cause eval eidx = s.modHartAt n fun h => h.enterS epc cause eval eidx := by
  rcases h with hu | ⟨hs, tf⟩
  · simp only [State.trapAt, hu]
  · simp only [State.trapAt, hs, tf, Bool.false_and, Bool.false_eq_true, if_false]
/-- A synchronous cause in the handler at S is a double trap (R352). -/
theorem trapAt_double (hs : (s.hartAt n).st.pl = .s) (tf : (s.hartAt n).st.tf = true) (sync : cause < 0x80) :
    s.trapAt n epc cause eval eidx = s.modHartAt n fun h => { h with dcause := some cause, wait := none } := by
  simp only [State.trapAt, hs, tf, sync, decide_true, Bool.and_self, if_true]
theorem trapAt_enterF (hf : (s.hartAt n).st.pl = .f) (tf : (s.hartAt n).fw.tf = false) :
    s.trapAt n epc cause eval eidx = s.modHartAt n fun h => h.enterF epc cause eval eidx := by
  simp only [State.trapAt, hf, tf, Bool.false_eq_true, if_false]
/-- A cause in the handler at F halts the slot, which is logged (R399). -/
theorem trapAt_halts (hf : (s.hartAt n).st.pl = .f) (tf : (s.hartAt n).fw.tf = true) :
    s.trapAt n epc cause eval eidx =
      (s.modHartAt n fun h => { h with status := .halted, wait := none }).logEvent (s.hartAt n).place.die 0x02 (BitVec.ofNat 64 cause) := by
  simp only [State.trapAt, hf, tf, if_true]

/-- A trap changes its own hart alone. -/
theorem trapAt_others {m : Nat} (other : m ≠ n) : (s.trapAt n epc cause eval eidx).hartAt m = s.hartAt m := by
  cases level : (s.hartAt n).st.pl with
  | u =>
    rw [trapAt_enterS epc cause eval eidx (.inl level)]
    exact hartAt_modHartAt_ne s _ other
  | s =>
    simp only [State.trapAt, level]
    split <;> exact hartAt_modHartAt_ne s _ other
  | f =>
    simp only [State.trapAt, level]
    split
    · rw [logEvent_hartAt]
      exact hartAt_modHartAt_ne s _ other
    · exact hartAt_modHartAt_ne s _ other
end

/-- Settles O12: one equation for each way a trap is taken, and the harts beside by `trapAt_others`. -/
theorem trapEntry : Obligations.TrapEntry := by
  unfold Obligations.TrapEntry
  refine ⟨fun s n epc cause eval eidx bound level => ?handler, fun s n epc cause eval eidx bound =>
    ⟨fun m other => trapAt_others epc cause eval eidx other, fun hs tf sync => ?double, fun hf tf => ?firmware, fun hf tf => ?halts⟩⟩
  case handler =>
    refine ⟨?_, fun m other => trapAt_others epc cause eval eidx other, ?_, ?_⟩
    · rw [trapAt_enterS epc cause eval eidx level, hartAt_modHartAt _ _ _ bound]; rfl
    · rw [trapAt_enterS epc cause eval eidx level]; rfl
    · rw [trapAt_enterS epc cause eval eidx level, State.modHartAt_length]
  case double => rw [trapAt_double epc cause eval eidx hs tf sync, hartAt_modHartAt _ _ _ bound]
  case firmware => rw [trapAt_enterF epc cause eval eidx hf tf, hartAt_modHartAt _ _ _ bound]; rfl
  case halts => rw [trapAt_halts epc cause eval eidx hf tf, logEvent_hartAt, hartAt_modHartAt _ _ _ bound]

end Sys2Proof.Machine
end

section
/-! Transaction barriers as harts see them (R214, R217, R218). -/
namespace Sys2Proof.Machine

/-! What an A-side instruction answers where its body waits or traps. -/

/-- A cause other than a page fault changes nothing but what the trap does. -/
theorem trapOf_plain (t : State) {k : Nat} (v : Word) (e : Nat) (hk : k ≠ cLOAD ∧ k ≠ cSTORE) : trapOf t false k v e = t.trap k v e := by
  simp [trapOf, hk.1, hk.2]

section
variable {s t : State} {f : Fields} {body : State → Res} (c : s.Clear f [])
include c

/-- An instruction of `aside` that waits at its place. -/
theorem aside_waits (h : body s = .wait t) : aside f body s = .next t := by
  rw [aside, issue_clear { body } c rfl (by simp)]
  simp only [h]
  rfl
/-- An instruction of `aside` that raises a cause other than a page fault. -/
theorem aside_traps {k : Nat} {v : Word} {e : Nat} (h : body s = .trap t k v e) (hk : k ≠ cLOAD ∧ k ≠ cSTORE := by decide) :
    aside f body s = .next (t.trap k v e) := by
  rw [aside, issue_traps { body } c rfl (by simp) t k v e h, trapOf_plain t v e hk]
end

section
variable {s : State} {f : Fields} {pa : Nat}

theorem onBarrier_body (bar : s.hartBar (s.hart.xr f.a).toNat = some pa) (free : s.testing pa 16 = false) (sound : s.poisoned pa 16 = false)
    (body : Nat → State → Res) : onBarrier f body s = body pa s := by
  simp only [onBarrier, bar, free, sound, Bool.false_eq_true, if_false]
/-- An address that names no barrier raises ACCESS (R214). -/
theorem onBarrier_none (bar : s.hartBar (s.hart.xr f.a).toNat = none) (body : Nat → State → Res) :
    onBarrier f body s = .trap s cACCESS (s.hart.xr f.a) 0 := by
  simp only [onBarrier, bar]

theorem arrive_still (still : s.still = true) (da : Nat) (ds : Int) (posted : Bool) (pa : Nat) : arrive f da ds posted pa s =
    .done ((s.barStep pa da ds posted).modHart fun h => h.put f.d (.word (BitVec.ofNat 64 (barPhase (s.readN pa 16))))) := by
  simp only [arrive, drainAll_still still, give]

variable (c : s.Clear f [])
include c

theorem onBarrier_none_traps (bar : s.hartBar (s.hart.xr f.a).toNat = none) :
    ∀ i ∈ [Instr.barvTx f, .barvTxX f, .txarr f, .txpost f, .txarrInit f, .txwait f], exec i s = .next (s.trap cACCESS (s.hart.xr f.a) 0) := by
  simp only [List.forall_mem_cons, List.not_mem_nil, false_implies, implies_true, and_true]
  and_intros
  all_goals exact aside_traps c (onBarrier_none bar _)

variable (bar : s.hartBar (s.hart.xr f.a).toNat = some pa) (free : s.testing pa 16 = false) (sound : s.poisoned pa 16 = false)
include bar free sound

theorem txpost_traps (big : 2 ^ 31 ≤ (s.hart.xr f.b).toNat) : exec (.txpost f) s = .next (s.trap cACCESS (s.hart.xr f.b) 0) :=
  aside_traps c ((onBarrier_body bar free sound _).trans (if_pos (by omega)))
theorem txarrInit_traps (bad : (s.hart.xr f.b).toNat = 0 ∨ 2 ^ 24 ≤ (s.hart.xr f.b).toNat) :
    exec (.txarrInit f) s = .next (s.trap cACCESS (s.hart.xr f.b) 0) :=
  aside_traps c ((onBarrier_body bar free sound _).trans (if_pos (by omega)))

variable (still : s.still = true)
include still

/-- An arriving form. -/
theorem onBarrier_arrives (da : State → Nat) :
    aside f (fun s => onBarrier f (arrive f (da s) 0 false) s) s = .next (State.after ((s.barStep pa (da s) 0 false).modHart fun h =>
      h.put f.d (.word (BitVec.ofNat 64 (barPhase (s.readN pa 16))))) f) :=
  aside_after c ((onBarrier_body bar free sound _).trans (arrive_still still _ _ _ _))
/-- `txpost` posts a count of sectors that the field holds (R217). -/
theorem txpost_posts (fits : (s.hart.xr f.b).toNat < 2 ^ 31) :
    exec (.txpost f) s = .next (State.after ((s.barStep pa 1 (s.hart.xr f.b).toNat true).modHart fun h =>
      h.put f.d (.word (BitVec.ofNat 64 (barPhase (s.readN pa 16))))) f) := by
  refine aside_after c ((onBarrier_body bar free sound _).trans ?_)
  rw [← arrive_still still]
  exact if_neg (by omega)
/-- `txarr.init` writes a whole barrier, whose waiters test again (R217, R218). -/
theorem txarrInit_writes (pos : 0 < (s.hart.xr f.b).toNat) (fits : (s.hart.xr f.b).toNat < 2 ^ 24) :
    exec (.txarrInit f) s = .next (((s.writeN pa ((s.hart.xr f.b).toNat * 2 ^ 64 + (s.hart.xr f.b).toNat * 2 ^ 8) 16).wakeWaiters pa false).after f) := by
  refine aside_after c ((onBarrier_body bar free sound _).trans ((if_neg (by omega)).trans ?_))
  simp only [inStream_still _ _ still, drainAll_still still, ite_self]

/-! `txwait` (R218) tests the phase, then the error, then `TTMO`. -/

/-- What `txwait` answers at a barrier. -/
def txwaitRes (f : Fields) (s : State) (pa : Nat) : Res :=
  if s.readN pa 16 % 16 ≠ (s.hart.xr f.b).toNat % 16 ∨ s.hart.wait.any (·.seen) = true then give f s 0
  else if barErrBit (s.readN pa 16) then give f s (BitVec.ofNat 64 (bitsAt (s.readN pa 16) 96 32))
  else if s.expired then give f s 1
  else waitOn s (some pa)
omit c in
theorem txwait_answers : ∃ body, exec (.txwait f) s = aside f body s ∧ body s = txwaitRes f s pa := by
  refine ⟨_, rfl, (onBarrier_body bar free sound _).trans ?_⟩
  simp only [inStream_still _ _ still, txwaitRes, barPhase, bitsAt_zero, Nat.reducePow]
  cases s.hart.wait <;> rfl

theorem txwait_passed (h : ¬(s.readN pa 16 % 16 = (s.hart.xr f.b).toNat % 16) ∨ s.hart.wait.any (·.seen) = true) :
    exec (.txwait f) s = .next (s.completes f fun h => h.put f.d (.word (BitVec.ofNat 64 0))) := by
  obtain ⟨body, runs, answer⟩ := txwait_answers bar free sound still
  rw [runs]
  exact aside_completes c _ (answer.trans (if_pos h))

variable (there : s.readN pa 16 % 16 = (s.hart.xr f.b).toNat % 16) (seen : s.hart.wait.any (·.seen) = false)
include there seen

theorem txwait_failed (err : barErrBit (s.readN pa 16) = true) :
    exec (.txwait f) s = .next (s.completes f fun h => h.put f.d (.word (BitVec.ofNat 64 (bitsAt (s.readN pa 16) 96 32)))) := by
  obtain ⟨body, runs, answer⟩ := txwait_answers bar free sound still
  rw [runs]
  exact aside_completes c _ (answer.trans (by simp [txwaitRes, there, seen, err, give]))

variable (err : barErrBit (s.readN pa 16) = false)
include err

theorem txwait_expires (due : s.expired = true) :
    exec (.txwait f) s = .next (s.completes f fun h => h.put f.d (.word (BitVec.ofNat 64 1))) := by
  obtain ⟨body, runs, answer⟩ := txwait_answers bar free sound still
  rw [runs]
  exact aside_completes c _ (answer.trans (by simp [txwaitRes, there, seen, err, due, give]))
theorem txwait_waits (time : s.expired = false) : exec (.txwait f) s = .next (s.modHart fun h => h.sleep s.time (some pa) false) := by
  obtain ⟨body, runs, answer⟩ := txwait_answers bar free sound still
  rw [runs]
  exact aside_waits c (answer.trans (by simp [txwaitRes, there, seen, err, time, waitOn]))
end

/-- Settles O28: an equation for each form at a barrier, and one for all of them where there is none. -/
theorem transactionBarrierResults : Obligations.TransactionBarrierResults := by
  unfold Obligations.TransactionBarrierResults
  refine ⟨fun f s c still => ⟨fun pa bar free sound => ?_, onBarrier_none_traps c⟩, fun f s pa c still bar free sound => ?_⟩
  · exact ⟨onBarrier_arrives c bar free sound still fun s => maskCount s.hart f, onBarrier_arrives c bar free sound still fun s => (s.hart.xr f.b).toNat,
      onBarrier_arrives c bar free sound still fun _ => 1, txpost_posts c bar free sound still, txpost_traps c bar free sound,
      txarrInit_writes c bar free sound still, txarrInit_traps c bar free sound⟩
  · exact ⟨txwait_passed c bar free sound still, txwait_failed c bar free sound still, txwait_expires c bar free sound still,
      txwait_waits c bar free sound still⟩

end Sys2Proof.Machine
end

section
/-! The gang barrier (R219 to R221, R290). -/
namespace Sys2Proof.Machine

/-! The gang as it is found after a change of it. -/

/-- The gang that was changed is found in its new form. -/
theorem gangOf_modGang (s : State) (ctx gid : Nat) (u : Gang → Gang) (keeps : ∀ g, (u g).ctx = g.ctx ∧ (u g).gid = g.gid) :
    (s.modGang ctx gid u).gangOf ctx gid = (s.gangOf ctx gid).map u := by
  have same : ((fun g : Gang => g.ctx == ctx && g.gid == gid) ∘ fun g => if (g.ctx == ctx && g.gid == gid) = true then u g else g) =
      fun g => g.ctx == ctx && g.gid == gid := by
    funext g
    simp only [Function.comp]
    split <;> simp [keeps]
  simp only [State.gangOf, State.modGang, List.find?_map, same]
  cases found : s.gangs.find? (fun g => g.ctx == ctx && g.gid == gid) with
  | none => rfl
  | some g =>
    have := List.find?_some found
    simp only [Option.map_some, this, if_true]

/-- The next phase of a gang (R219): the members that have exited count as arrived, and the total is kept. -/
def Gang.nextPhase (g : Gang) : Gang := { g with phase := g.phase + 1, arrived := g.exited, total := 0, totals := g.total :: g.totals }
/-- The total of the phase that has just completed is the last one kept. -/
theorem totalOf_nextPhase (g : Gang) : g.nextPhase.totalOf g.phase = g.total := by
  simp [Gang.totalOf, Gang.nextPhase]

section
variable {s : State} {ctx gid : Nat} {g : Gang} (found : s.gangOf ctx gid = some g)
include found

/-- The phase completes once every member has arrived or exited (R219). -/
theorem gangTest_completes (free : g.det = false) (left : g.exited < g.nhart) (all : g.nhart ≤ g.arrived) :
    s.gangTest ctx gid = s.modGang ctx gid Gang.nextPhase := by
  simp only [State.gangTest, found, free, Bool.false_and]
  exact if_pos ⟨all, .inl left, by simp⟩
theorem gangTest_waits (some_ : g.arrived < g.nhart) : s.gangTest ctx gid = s := by
  simp only [State.gangTest, found]
  exact if_neg fun h => absurd h.1 (Nat.not_le.2 some_)
end

/-! The instructions. -/

/-- The hart with the head of the queue that a source names taken off (R26). -/
def Hart.popSource (h : Hart) : Reg → Hart
  | .q n => { h with q := h.q.set n (h.q[n]).tail }
  | _ => h
theorem Hart.popSource_arrival (h : Hart) (r : Reg) : (h.popSource r).arrival = h.arrival := by cases r <;> rfl
theorem popQueues_arrival (h : Hart) (f : Fields) : (popQueues h f).arrival = h.arrival := by
  calc (popQueues h f).arrival
      = (((({ h with undo := h.undo.map fun u => { u with heads := sourceHeads h f } } : Hart).popSource f.a).popSource f.b).popSource f.c).arrival := rfl
    _ = h.arrival := by simp only [Hart.popSource_arrival]

/-- The current hart with its arrival consumed (R290). -/
def State.consumed (s : State) : State := s.modHart fun h => { h.nextEpoch with arrival := none }

theorem gangRefused_free {h : Hart} (free : h.det = false) (arrival : Bool) : gangRefused arrival h = false := by simp [gangRefused, free]

section
variable {s : State} {f : Fields} {g : Gang} {p : Nat} (gang : s.gang = some g)
include gang

theorem gangWait_past (pend : s.hart.arrival = some p) (past : p < g.phase) :
    gangWait f s = give f s.consumed (BitVec.ofNat 64 (g.totalOf p)) := by
  simp only [gangWait, pend, gang, past, if_true]; rfl
theorem gangWait_expires (pend : s.hart.arrival = some p) (wait : g.phase ≤ p) (due : s.expired = true) :
    gangWait f s = give f s (BitVec.allOnes 64) := by
  simp only [gangWait, pend, gang, Nat.not_lt.2 wait, due, if_true, if_false]; rfl
theorem gangWait_waits (pend : s.hart.arrival = some p) (wait : g.phase ≤ p) (time : s.expired = false) : gangWait f s = waitOn s none := by
  simp only [gangWait, pend, gang, Nat.not_lt.2 wait, time, Bool.false_eq_true, if_false]
theorem gangWait_last (none_ : s.hart.arrival = none) : gangWait f s = give f s (BitVec.ofNat 64 (g.totals.headD 0)) := by
  simp only [gangWait, none_, gang]

/-- The arrival of a member that is the last (R219): the next phase begins, and the arrival stands pending at the one that is past. -/
theorem hartArrive_last {n : Nat} (here : s.cur < s.harts.length) (still : s.still = true) (member : s.hart.member = true)
    (free : g.det = false) (last : g.nhart ≤ g.arrived + 1) (left : g.exited < g.nhart) :
    (s.hartArrive n).hart = { s.hart with arrival := some g.phase } ∧
      (s.hartArrive n).gang = some { g with arrived := g.arrived + 1, total := (g.total + n) % 2 ^ 63 }.nextPhase ∧
      (s.hartArrive n).cur = s.cur ∧ (s.hartArrive n).harts.length = s.harts.length := by
  let u : State := s.modHart fun h => { h with arrival := some g.phase }
  let arrived (g : Gang) : Gang := { g with arrived := g.arrived + 1, total := (g.total + n) % 2 ^ 63 }
  have hart : u.hart = { s.hart with arrival := some g.phase } := State.hart_modHart s _ here
  have found : (u.modGang s.hart.ctx s.hart.gang arrived).gangOf s.hart.ctx s.hart.gang = some (arrived g) := by
    rw [gangOf_modGang u _ _ arrived fun g => ⟨rfl, rfl⟩]
    exact congrArg _ gang
  have runs : s.hartArrive n = (u.modGang s.hart.ctx s.hart.gang arrived).modGang s.hart.ctx s.hart.gang Gang.nextPhase := by
    simp only [State.hartArrive, gang, drainAll_still still, member, if_true, State.gangArrive]
    exact gangTest_completes found free left last
  have same : (s.hartArrive n).hart = u.hart := by rw [runs]; rfl
  refine ⟨same.trans hart, ?_, by rw [runs]; rfl, ?_⟩
  · rw [State.gang, same, hart, runs]
    exact (gangOf_modGang _ _ _ Gang.nextPhase fun g => ⟨rfl, rfl⟩).trans (congrArg _ found)
  · rw [runs]; exact State.modHart_length s _
end

section
variable {s : State} {f : Fields} {g : Gang} {p : Nat} (c : s.Clear f []) (free : s.hart.det = false)

section
include free

theorem barw_waits {r : Res} (h : gangWait f s = r) : ∃ body, exec (.barw f) s = aside f body s ∧ body s = r :=
  ⟨_, rfl, by simp only [gangRefused_free free, Bool.false_eq_true, if_false, h]⟩
theorem gsync_waits {r : Res} (pend : s.hart.arrival = some p) (h : gangWait f s = r) :
    ∃ body, exec (.gsync f) s = aside f body s ∧ body s = r :=
  ⟨_, rfl, by simp only [gangRefused_free free, Bool.false_eq_true, if_false, pend, Option.isSome_some, if_true, h]⟩
theorem gsync_arrives {r : Res} (none_ : s.hart.arrival = none) (h : gangWait f (s.hartArrive 1) = r) :
    ∃ body, exec (.gsync f) s = aside f body s ∧ body s = r :=
  ⟨_, rfl, by simp only [gangRefused_free free, Bool.false_eq_true, if_false, none_, Option.isSome_none, h]⟩
end

section
include c

theorem after_of_give {i : Instr} {t : State} {w : Word} (h : ∃ body, exec i s = aside f body s ∧ body s = give f t w) :
    exec i s = .next (State.after (t.modHart fun h => h.put f.d (.word w)) f) := by
  obtain ⟨body, runs, answer⟩ := h
  rw [runs, aside_after c answer]
theorem sleeps_of_waitOn {i : Instr} {obj : Option Nat} (h : ∃ body, exec i s = aside f body s ∧ body s = waitOn s obj) :
    exec i s = .next (s.modHart fun h => h.sleep s.time obj false) := by
  obtain ⟨body, runs, answer⟩ := h
  rw [runs, aside_waits c answer]
end

include c free

theorem barvG_arrives (count : Hart → Nat) (none_ : s.hart.arrival = none) :
    barvG f count s = .next ((s.hartArrive (count s.hart)).after f) :=
  aside_after c (by simp only [gangRefused_free free, none_, Bool.false_eq_true, if_false])

variable (gang : s.gang = some g)
include gang

theorem barvG_again (count : Hart → Nat) (pend : s.hart.arrival = some p) (past : p < g.phase) :
    barvG f count s = .next ((s.consumed.hartArrive (count s.hart)).after f) :=
  aside_after c (by simp only [gangRefused_free free, pend, gang, Bool.false_eq_true, if_false, Nat.not_le.2 past]; rfl)
theorem barvG_waits (count : Hart → Nat) (pend : s.hart.arrival = some p) (wait : g.phase ≤ p) :
    barvG f count s = .next (s.modHart fun h => h.sleep s.time none false) :=
  aside_waits c (by simp only [gangRefused_free free, pend, gang, Bool.false_eq_true, if_false, wait, if_true]; rfl)

/-- `gsync` of the last member to arrive goes on at once, with the total of the phase it completes (R220, R290). -/
theorem gsync_last (still : s.still = true) (det : g.det = false) (none_ : s.hart.arrival = none) (member : s.hart.member = true)
    (last : g.nhart ≤ g.arrived + 1) (left : g.exited < g.nhart) :
    ∃ t, exec (.gsync f) s = .next t ∧ t.hart.arrival = none ∧
      t.hart = (popQueues (({ s.hart.nextEpoch with arrival := none } : Hart).put f.d
        (.word (BitVec.ofNat 64 ((g.total + 1) % 2 ^ 63)))) f).retire := by
  obtain ⟨hart, next, cur, length⟩ := hartArrive_last (n := 1) gang c.here still member det last left
  have pend : (s.hartArrive 1).hart.arrival = some g.phase := by rw [hart]
  have here : (s.hartArrive 1).cur < (s.hartArrive 1).harts.length := by rw [cur, length]; exact c.here
  have waits := gangWait_past (f := f) next pend (Nat.lt_succ_self _)
  rw [show Gang.totalOf _ g.phase = _ from totalOf_nextPhase { g with arrived := g.arrived + 1, total := (g.total + 1) % 2 ^ 63 }] at waits
  refine ⟨_, after_of_give c (gsync_arrives free none_ waits), ?_⟩
  have end_ : (State.after ((s.hartArrive 1).consumed.modHart fun h => h.put f.d (.word (BitVec.ofNat 64 ((g.total + 1) % 2 ^ 63)))) f).hart =
      (popQueues (({ s.hart.nextEpoch with arrival := none } : Hart).put f.d (.word (BitVec.ofNat 64 ((g.total + 1) % 2 ^ 63)))) f).retire := by
    rw [State.after, State.consumed, State.modHart_modHart, State.modHart_modHart, State.hart_modHart _ _ here, hart]; rfl
  refine ⟨?_, end_⟩
  rw [end_, Hart.retire_arrival, popQueues_arrival, Hart.put_arrival]
end

/-- Settles O29: an equation for each instruction and each state of its arrival; the phase by `gangTest_completes`. -/
theorem gangBarrierResults : Obligations.GangBarrierResults := by
  unfold Obligations.GangBarrierResults
  refine ⟨fun f s g c still gang free det => ?_, fun s ctx gid g found free left => ⟨fun all => ?_, gangTest_waits found⟩⟩
  · refine ⟨fun none_ => ⟨?_, ?_, ?_⟩, fun p pend past => ⟨?_, ?_, ?_, ?_⟩, fun p pend wait time => ?_, fun p pend wait due => ⟨?_, ?_⟩,
      gsync_last c free gang still det⟩
    · exact barvG_arrives c free (maskCount · f) none_
    · exact barvG_arrives c free (fun h => (h.xr f.b).toNat) none_
    · exact after_of_give c (barw_waits free (gangWait_last gang none_))
    · exact barvG_again c free gang (maskCount · f) pend past
    · exact barvG_again c free gang (fun h => (h.xr f.b).toNat) pend past
    · exact after_of_give c (barw_waits free (gangWait_past gang pend past))
    · exact after_of_give c (gsync_waits free pend (gangWait_past gang pend past))
    · simp only [List.forall_mem_cons, List.not_mem_nil, false_implies, implies_true, and_true]
      exact ⟨barvG_waits c free gang (maskCount · f) pend wait,
        barvG_waits c free gang (fun h => (h.xr f.b).toNat) pend wait,
        sleeps_of_waitOn c (barw_waits free (gangWait_waits gang pend wait time)),
        sleeps_of_waitOn c (gsync_waits free pend (gangWait_waits gang pend wait time))⟩
    · exact after_of_give c (barw_waits free (gangWait_expires gang pend wait due))
    · exact after_of_give c (gsync_waits free pend (gangWait_expires gang pend wait due))
  · rw [gangTest_completes found free left all, gangOf_modGang _ _ _ Gang.nextPhase fun g => ⟨rfl, rfl⟩, found]; rfl

end Sys2Proof.Machine
end

section
/-! Counted waits, monitors and phased mode (R221 to R223, R225, R296). -/
namespace Sys2Proof.Machine

section
variable {s : State} {f : Fields} {body : State → Res} (c : s.Clear f [])
include c

/-- An instruction of `aside` that gives D a value. -/
theorem aside_gives (w : Word) (h : body s = give f s w) : aside f body s = .next (s.completes f fun h => h.put f.d (.word w)) :=
  aside_completes c _ h
/-- An instruction of `aside` that changes the state and gives D a value. -/
theorem aside_gives_after {t : State} (w : Word) (h : body s = give f t w) :
    aside f body s = .next (State.after (t.modHart fun h => h.put f.d (.word w)) f) :=
  aside_after c h

theorem setPhase_phased (k : Nat) (h : s.hart.phased = true) : setPhase f k s = .next (s.completes f fun h => { h with stepKind := k }) :=
  aside_completes c _ (if_pos h)
theorem setPhase_unphased (k : Nat) (h : s.hart.phased = false) : setPhase f k s = .next (s.trap cPHASE 0 0) :=
  aside_traps c (if_neg (by simp [h]))

theorem aside_refusedDet (code : Nat) (det : s.hart.det = true) : aside f (refusedDet code body) s = .next (s.trap cNONDET (BitVec.ofNat 64 code) 0) :=
  aside_traps c (if_pos det)

/-- What `mwait` gives disarms the line. -/
theorem mwait_returns (det : s.hart.det = false) (w : Word)
    (h : body s = give f (s.modHart fun h => { h with monitor := none }) w) :
    aside f (refusedDet 5 body) s = .next (s.completes f fun h => ({ h with monitor := none } : Hart).put f.d (.word w)) :=
  aside_completes c _ (by simp only [refusedDet, det, Bool.false_eq_true, if_false, h, give, State.modHart_modHart])

section
variable {m : Monitor} (det : s.hart.det = false) (armed : s.hart.monitor = some m) (asleep : m.woken = false)
include det

theorem mwait_unarmed (unarmed : s.hart.monitor = none) :
    exec (.mwait f) s = .next (s.completes f fun h => ({ h with monitor := none } : Hart).put f.d (.word 3)) :=
  mwait_returns c det 3 (by simp only [unarmed])
include armed
theorem mwait_woken (woken : m.woken = true) :
    exec (.mwait f) s = .next (s.completes f fun h => ({ h with monitor := none } : Hart).put f.d (.word 0)) :=
  mwait_returns c det 0 (by simp only [armed, woken, if_true])
include asleep
theorem mwait_expires (due : s.expired = true) :
    exec (.mwait f) s = .next (s.completes f fun h => ({ h with monitor := none } : Hart).put f.d (.word 1)) :=
  mwait_returns c det 1 (by simp only [armed, asleep, due, Bool.false_eq_true, if_true, if_false])
theorem mwait_interrupted (time : s.expired = false) (event : s.hart.preempt.isSome = true ∨ s.hart.causes ≠ []) :
    exec (.mwait f) s = .next (s.completes f fun h => ({ h with monitor := none } : Hart).put f.d (.word 2)) := by
  have some_ : (s.hart.preempt.isSome || !s.hart.causes.isEmpty) = true := by simpa using event
  exact mwait_returns c det 2 (by simp only [armed, asleep, time, some_, Bool.false_eq_true, if_true, if_false])
end

section
variable {pa : Nat} {win : Bool} {cls : Nat} (still : s.still = true)
include still

theorem marm_arms (det : s.hart.det = false) (ok : s.waitAddr (s.hart.xr f.a).toNat = .ok pa win cls) (room : s.watchesFull pa = false) :
    exec (.marm f) s = .next (s.completes f fun h => { h with monitor := some ⟨pa / 64 * 64, false⟩ }) :=
  aside_completes c _ (by simp only [refusedDet, det, inStream_still _ _ still, ok, room, Bool.false_eq_true, if_false])

variable (aligned : (s.hart.xr f.a).toNat % 8 = 0) (ok : s.waitAddr (s.hart.xr f.a).toNat = .ok pa win cls)
  (free : (win && s.scoreStalls pa 8 false) = false) (sound : s.poisoned pa 8 = false)
include aligned ok free sound

omit c in
/-- `cwait` once its word may be read (R222). -/
theorem cwait_reads : ∃ body, exec (.cwait f) s = aside f body s ∧ body s =
    if (s.hart.xr f.b).toNat ≤ s.readN pa 8 then give f s (if s.hart.det then s.hart.xr f.b else BitVec.ofNat 64 (s.readN pa 8))
    else if s.expired then give f s (BitVec.ofNat 64 (s.readN pa 8))
    else waitOn s (some (pa / 64 * 64)) :=
  ⟨_, rfl, by simp only [inStream_still _ _ still, aligned, ok, free, sound, ne_eq, not_true_eq_false, Bool.false_eq_true, if_false, ge_iff_le]⟩

theorem cwait_gives (reached : (s.hart.xr f.b).toNat ≤ s.readN pa 8) : exec (.cwait f) s =
    .next (s.completes f fun h => h.put f.d (.word (if s.hart.det then s.hart.xr f.b else BitVec.ofNat 64 (s.readN pa 8)))) := by
  obtain ⟨body, runs, answer⟩ := cwait_reads still aligned ok free sound
  rw [runs, aside_gives c _ (answer.trans (if_pos reached))]
variable (below : s.readN pa 8 < (s.hart.xr f.b).toNat)
include below
theorem cwait_expires (due : s.expired = true) :
    exec (.cwait f) s = .next (s.completes f fun h => h.put f.d (.word (BitVec.ofNat 64 (s.readN pa 8)))) := by
  obtain ⟨body, runs, answer⟩ := cwait_reads still aligned ok free sound
  rw [runs, aside_gives c _ (answer.trans ((if_neg (Nat.not_le.2 below)).trans (if_pos due)))]
theorem cwait_waits (time : s.expired = false) :
    exec (.cwait f) s = .next (s.modHart fun h => h.sleep s.time (some (pa / 64 * 64)) false) := by
  obtain ⟨body, runs, answer⟩ := cwait_reads still aligned ok free sound
  rw [runs, aside_waits c (answer.trans ((if_neg (Nat.not_le.2 below)).trans (if_neg (by simp [time]))))]
end
end

/-- Settles O30: an equation for each instruction and each of its cases. -/
theorem waitPhaseResults : Obligations.WaitPhaseResults := by
  unfold Obligations.WaitPhaseResults
  refine ⟨fun f s c still => ⟨fun pa win cls aligned ok free sound => ⟨?_, ?_, ?_⟩, fun pa win cls det ok room => ?_,
    mwait_unarmed c, fun m => mwait_woken c, fun m => mwait_expires c, fun m => mwait_interrupted c, fun det => ⟨?_, ?_⟩⟩,
    fun f s c => ⟨fun h => ⟨?_, ?_⟩, fun h => ⟨?_, ?_⟩, ?_⟩⟩
  · exact cwait_gives c still aligned ok free sound
  · exact cwait_expires c still aligned ok free sound
  · exact cwait_waits c still aligned ok free sound
  · exact marm_arms c still det ok room
  · exact aside_refusedDet c 5 det
  · exact aside_refusedDet c 5 det
  · exact setPhase_phased c 1 h
  · exact setPhase_phased c 2 h
  · exact setPhase_unphased c 1 h
  · exact setPhase_unphased c 2 h
  · exact aside_gives c _ rfl

end Sys2Proof.Machine
end

section
/-! Copy channels as harts see them (R227 to R229, R236). -/
namespace Sys2Proof.Machine

/-- The cause of an access that a buffer's state forbids is no page fault. -/
theorem bufChk_plain {s : State} {va c v : Nat} {write : Bool} (h : s.bufChk va write = some (c, v)) : c ≠ cLOAD ∧ c ≠ cSTORE := by
  have either : c = cACCESS ∨ c = cBARRIER ∨ c = cBUFFER := by
    simp only [State.bufChk, Option.ite_none_left_eq_some] at h
    split at h
    case h_1 => exact .inl (by simp_all)
    case h_2 => split_ifs at h <;> simp_all
  rcases either with rfl | rfl | rfl <;> decide
/-- A counter that may not be armed raises a cause with its address, and no page fault (R236). -/
theorem counterAt_trap {s : State} {va e v : Nat} (h : s.counterAt va = .trap e v) : v = va ∧ e ≠ cLOAD ∧ e ≠ cSTORE := by
  have access : Chk.trap cACCESS va = .trap e v → v = va ∧ e ≠ cLOAD ∧ e ≠ cSTORE := by
    rintro ⟨⟩; exact ⟨rfl, by decide⟩
  simp only [State.counterAt] at h
  split at h
  case h_1 =>
    split_ifs at h
    · exact access h
    · split at h
      case h_1 forbids => cases h; exact ⟨rfl, bufChk_plain forbids⟩
      case h_2 => cases h
    · exact access h
  case h_2 => exact access h
  case h_3 => cases h

theorem phased_unphased {s : State} (h : s.hart.phased = false) (both : Bool) (body : State → Res) : phased both body s = body s := by
  simp [phased, h]

section
variable {s : State} {f : Fields} (c : s.Clear f []) (unphased : s.hart.phased = false)
include c unphased

/-- `cph` sets an idle channel, and gives 1 for a busy one (R228). -/
theorem cph_sets (head : (s.hart.xr f.a).toNat % 64 = 0) (seq : (s.hart.xr f.b).toNat % 8 = 0) : exec (.cph f) s =
    .next (State.after ((if (s.chan (s.hartChan (f.imm.toNat % 16))).busy then s.modHart fun h => h.put f.d (.word 1)
      else (s.setChan { s.chan (s.hartChan (f.imm.toNat % 16)) with
        head := (s.hart.xr f.a).toNat, seqw := (s.hart.xr f.b).toNat, tail := 0, last := 0, err := false, ecode := 0, eseq := 0
        arms := [], handed := [] }).modHart fun h => h.put f.d (.word 0))) f) := by
  apply aside_after c
  simp only [phased_unphased unphased, head, seq, bitsAt_zero, ne_eq, not_true_eq_false, if_false]
  exact (apply_ite Res.done ..).symm

theorem cphGet_gives : exec (.cphGet f) s =
    .next (State.after (s.modHart fun h => h.put f.d (.word (BitVec.ofNat 64 (s.chan (s.hartChan (f.imm.toNat % 16))).cstat))) f) :=
  aside_gives_after c _ (by simp only [phased_unphased unphased, bitsAt_zero, Nat.reducePow])

variable (still : s.still = true)
include still

/-- `cpt` hands the records of its walk when their claims fit on the scoreboard (R229). -/
theorem cpt_hands {s2 s3 : State} {first : Nat} {l : List Nat} (start : s.cptFirst (s.chan (s.hartChan (f.imm.toNat % 16))) = .ok (s2, first))
    (walk : s2.cptWalk (s.hart.xr f.a).toNat 64 first = .ok (s3, some l))
    (room : (l.flatMap (s3.claimsOf s3.agent (s.hartChan (f.imm.toNat % 16)))).length ≤ min scoreSize (s3.scoreFree s3.hart.core))
    (quiet : s3.still = true) :
    exec (.cpt f) s = .next ((s3.hand s3.agent (s.hartChan (f.imm.toNat % 16)) (s.hart.xr f.a).toNat).after f) := by
  obtain ⟨size, free⟩ := le_min_iff.1 room
  apply aside_after c
  simp only [phased_unphased unphased, inStream_still _ _ still, bitsAt_zero, Nat.reducePow, start, walk, if_neg (Nat.not_lt.2 size),
    if_neg (Nat.not_lt.2 free), drainAll_still quiet, gt_iff_lt]

variable (aligned : (s.hart.xr f.a).toNat % 8 = 0)
include aligned

theorem cparm_traps {e v : Nat} (bad : s.counterAt (s.hart.xr f.a).toNat = .trap e v) :
    exec (.cparm f) s = .next (s.trap e (s.hart.xr f.a) 0) := by
  obtain ⟨rfl, plain⟩ := counterAt_trap bad
  refine aside_traps c ?_ plain
  simp only [phased_unphased unphased, drainAll_still still, aligned, bad, ne_eq, not_true_eq_false, if_false, Chk.res, BitVec.ofNat_toNat,
    BitVec.setWidth_eq]

variable {pa cls : Nat} {win : Bool} (ok : s.counterAt (s.hart.xr f.a).toNat = .ok pa win cls)
include ok

theorem cparm_full (full : 4 ≤ (s.chan (s.hartChan (bitsAt f.imm.toNat 8 4))).arms.length) :
    exec (.cparm f) s = .next (State.after (s.modHart fun h => h.put f.d (.word 1)) f) :=
  aside_gives_after c _ (by
    simp only [phased_unphased unphased, drainAll_still still, aligned, ok, full, ne_eq, not_true_eq_false, if_false, ge_iff_le, if_true])
/-- `cparm` adds its arm, which fires at once when the counter has reached its threshold (R236). -/
theorem cparm_arms (room : (s.chan (s.hartChan (bitsAt f.imm.toNat 8 4))).arms.length < 4) :
    let c := s.chan (s.hartChan (bitsAt f.imm.toNat 8 4))
    let arm : Arm := ⟨pa, (s.hart.xr f.a).toNat, (s.hart.xr f.b).toNat, (s.hart.xr f.c).toNat, s.armOrder, s.agent⟩
    let t := { s.setChan { c with arms := c.arms ++ [arm] } with armOrder := s.armOrder + 1 }
    exec (.cparm f) s = .next (State.after
      ((if t.readN pa 8 ≥ (s.hart.xr f.b).toNat then t.fire (c.id, arm) else t).modHart fun h => h.put f.d (.word 0)) f) :=
  aside_gives_after c _ (by
    simp only [phased_unphased unphased, drainAll_still still, aligned, ok, Nat.not_le.2 room, ne_eq, not_true_eq_false, if_false, ge_iff_le])
end

/-- Settles O32: an equation for each instruction and each answer of its checks. -/
theorem copyIssueResults : Obligations.CopyIssueResults := by
  unfold Obligations.CopyIssueResults
  refine fun f s c still unphased => ⟨fun head seq => ?_, cphGet_gives c unphased, fun s2 first s3 l => cpt_hands c unphased still,
    fun e v aligned => cparm_traps c unphased still aligned, fun pa win cls aligned ok => ⟨cparm_full c unphased still aligned ok,
      cparm_arms c unphased still aligned ok⟩⟩
  rw [cph_sets c unphased head seq]
  split <;> rfl

end Sys2Proof.Machine
end

section
/-! Deposits and matches in a tuple space (R238, R239, R244, R245). -/
namespace Sys2Proof.Machine

/-- What a change of a hart leaves of every hart that it leaves of that one. -/
theorem modHartAt_keeps {α : Type} (p : Hart → α) (s : State) (n m : Nat) {g : Hart → Hart} (keep : p (g (s.hartAt n)) = p (s.hartAt n)) :
    p ((s.modHartAt n g).hartAt m) = p (s.hartAt m) := by
  by_cases same : m = n
  case neg => rw [hartAt_modHartAt_ne s g same]
  case pos =>
    subst same
    by_cases bound : m < s.harts.length
    case pos => rw [hartAt_modHartAt s m g bound, keep]
    case neg =>
      have out : (s.modHartAt m g).harts.length ≤ m := by rw [State.modHartAt_length]; exact Nat.not_lt.1 bound
      simp only [State.hartAt, List.getD_eq_default _ _ out, List.getD_eq_default _ _ (Nat.not_lt.1 bound)]

/-! The parked requests in park order. -/

theorem insertReq_perm (r : TupleReq) (l : List TupleReq) : (insertReq r l).Perm (r :: l) := by
  induction l with
  | nil => exact .refl _
  | cons x rest ih =>
    simp only [insertReq]
    split
    · exact .refl _
    · exact (ih.cons x).trans (.swap ..)
theorem insertReq_sorted {r : TupleReq} {l : List TupleReq} (sorted : l.Pairwise fun x y => x.order ≤ y.order) :
    (insertReq r l).Pairwise fun x y => x.order ≤ y.order := by
  induction l with
  | nil => simp [insertReq]
  | cons x rest ih =>
    obtain ⟨first, rest_sorted⟩ := List.pairwise_cons.1 sorted
    simp only [insertReq]
    split
    case isTrue before =>
      exact List.pairwise_cons.2 ⟨List.forall_mem_cons.2 ⟨before.le, fun y hy => before.le.trans (first y hy)⟩, sorted⟩
    case isFalse after =>
      refine List.pairwise_cons.2 ⟨fun y hy => ?_, ih rest_sorted⟩
      exact (List.forall_mem_cons (p := fun y : TupleReq => x.order ≤ y.order)).2 ⟨Nat.not_lt.1 after, first⟩ y ((insertReq_perm r rest).mem_iff.1 hy)
/-- The requests of a list in park order. -/
theorem parkOrder (l : List TupleReq) {found : List TupleReq} (sorted : found.Pairwise fun x y => x.order ≤ y.order) :
    (l.foldl (fun l r => insertReq r l) found).Perm (l ++ found) ∧
      (l.foldl (fun l r => insertReq r l) found).Pairwise fun x y => x.order ≤ y.order := by
  induction l generalizing found with
  | nil => exact ⟨.refl _, sorted⟩
  | cons r rest ih =>
    obtain ⟨perm, order⟩ := ih (insertReq_sorted (r := r) sorted)
    exact ⟨perm.trans (((insertReq_perm r found).append_left rest).trans List.perm_middle), order⟩

theorem parkedFor_sorted (s : State) (ctx tsid image : Nat) (take : Bool) :
    (s.parkedFor ctx tsid image take).Pairwise fun x y => x.order ≤ y.order := (parkOrder _ .nil).2
/-- The parked requests that a deposit answers are those of its space and kind whose pattern it matches. -/
theorem mem_parkedFor {s : State} {ctx tsid image : Nat} {take : Bool} {r : TupleReq} : r ∈ s.parkedFor ctx tsid image take ↔
    r ∈ s.reqs ∧ r.ctx = ctx ∧ r.tsid = tsid ∧ r.isParked = true ∧ r.take = take ∧ tupleMatches r.image r.mask image = true := by
  rw [State.parkedFor, (parkOrder _ .nil).1.mem_iff]
  simp only [List.append_nil, List.mem_filter, Bool.and_eq_true, beq_iff_eq, and_assoc]

/-! The answer to a request. -/

/-- An answer changes the requests and the hart of one. -/
theorem answer_frame (s : State) (r : TupleReq) (status image : Nat) :
    s.answer r status image = { s with harts := (s.answer r status image).harts, reqs := (s.answer r status image).reqs } := by
  unfold State.answer
  dsimp only
  split <;> rfl
@[simp] theorem answer_tuples (s : State) (r : TupleReq) (status image : Nat) : (s.answer r status image).tuples = s.tuples := by
  rw [answer_frame]
/-- The answers of a deposit change the requests and their harts. -/
theorem answers_frame (l : List TupleReq) (s : State) (image : Nat) :
    let u := l.foldl (fun s r => s.answer r 0 image) s
    u = { s with harts := u.harts, reqs := u.reqs } := by
  refine foldl_keeps (P := fun u => u = { s with harts := u.harts, reqs := u.reqs }) l s rfl fun u r same => ?_
  rw [answer_frame, same]

/-- With no delay before it an answer reaches its hart at once. -/
theorem answer_at_once {s : State} {r : TupleReq} (prompt : (s.hartAt r.hart).late = []) (status image : Nat) :
    s.answer r status image = s.deliver r status image := by
  have still : (s.modHartAt r.hart fun _ => s.hartAt r.hart) = s := by
    rw [State.modHartAt, updAt_id s.harts r.hart _ (Hart.fresh ⟨0, 0, 0, 0⟩ 0 0 0) rfl]
  simp only [State.answer, popLate_nil _ prompt, still, Bool.false_eq_true, if_false]
theorem deliver_reqs (s : State) (r : TupleReq) (status image : Nat) : (s.deliver r status image).reqs = s.reqs.filter (·.id != r.id) := rfl
/-- What writes of registers leave of a hart, an answer leaves of every hart. -/
theorem deliver_keeps {α : Type} {p : Hart → α} (onPut : ∀ h r v, p (h.put r v) = p h) (onEmpty : ∀ h r b, p (h.markEmpty r b) = p h)
    (s : State) (r : TupleReq) (status image n : Nat) : p ((s.deliver r status image).hartAt n) = p (s.hartAt n) := by
  have marks (l : List Reg) (h : Hart) : p (l.foldl (fun h x => h.markEmpty x false) h) = p h := by
    induction l generalizing h with
    | nil => rfl
    | cons r rest ih => rw [List.foldl_cons, ih, onEmpty]
  rw [State.deliver, modHartAt_keeps p]
  · rfl
  · simp only [marks, Hart.putStatus, onPut]
    split
    · exact onPut _ _ _
    · rfl
theorem deliver_late (s : State) (r : TupleReq) (status image n : Nat) : ((s.deliver r status image).hartAt n).late = (s.hartAt n).late :=
  deliver_keeps Hart.put_late Hart.markEmpty_late s r status image n

/-- Requests that are answered at once are gone. -/
theorem answers_gone (l : List TupleReq) {s : State} (image : Nat) (prompt : ∀ n, (s.hartAt n).late = []) :
    ∀ x ∈ (l.foldl (fun s r => s.answer r 0 image) s).reqs, x ∈ s.reqs ∧ ∀ c ∈ l, x.id ≠ c.id := by
  induction l generalizing s with
  | nil => exact fun x hx => ⟨hx, fun c hc => absurd hc List.not_mem_nil⟩
  | cons r rest ih =>
    have answered := answer_at_once (prompt r.hart) 0 image
    rw [List.foldl_cons, answered]
    intro x hx
    obtain ⟨left, apart⟩ := ih (s := s.deliver r 0 image) (fun n => (deliver_late s r 0 image n).trans (prompt n)) x hx
    have kept : x ∈ s.reqs ∧ x.id ≠ r.id := by
      simpa only [deliver_reqs, List.mem_filter, bne_iff_ne] using left
    exact ⟨kept.1, List.forall_mem_cons.2 ⟨kept.2, apart⟩⟩

/-! A deposit (R244). -/

section
variable {s : State} {ctx tsid cap image : Nat}

theorem deposit_full (none_ : s.parkedFor ctx tsid image true = [])
    (full : cap ≤ s.partitionCount ctx tsid (s.tupleHome ctx tsid (tupleWord image 0))) : s.deposit ctx tsid cap image = (s, 2) := by
  simp only [State.deposit, none_, List.isEmpty_nil, full, true_and, if_true]
theorem deposit_stores {h : Slice} (home : s.tupleHome ctx tsid (tupleWord image 0) = some h) (none_ : s.parkedFor ctx tsid image true = [])
    (room : s.partitionCount ctx tsid (s.tupleHome ctx tsid (tupleWord image 0)) < cap) :
    s.deposit ctx tsid cap image = ({ (s.parkedFor ctx tsid image false).foldl (fun s r => s.answer r 0 image) s with
      tuples := s.tuples ++ [⟨ctx, tsid, image, s.depNo, (h.pkg, h.die)⟩], depNo := s.depNo + 1 }, 0) := by
  have frame := answers_frame (s.parkedFor ctx tsid image false) s image
  simp only [State.deposit, none_, home, List.isEmpty_nil, true_and]
  rw [if_neg (by rw [← home]; exact Nat.not_le.2 room)]
  rw [frame]
  rfl
theorem deposit_taken {r : TupleReq} {rest : List TupleReq} (taker : s.parkedFor ctx tsid image true = r :: rest) :
    s.deposit ctx tsid cap image = (((s.parkedFor ctx tsid image false).foldl (fun s r => s.answer r 0 image) s).answer r 0 image, 0) := by
  simp only [State.deposit, taker, List.isEmpty_cons, Bool.false_eq_true, false_and, if_false]
end

/-! A request (R245). -/

section
variable {s : State} {r : TupleReq}

/-- A stored tuple that a request may be answered with. -/
def State.fits (s : State) (r : TupleReq) (t : STuple) : Prop :=
  t ∈ s.tuples ∧ t.ctx = r.ctx ∧ t.tsid = r.tsid ∧ tupleMatches r.image r.mask t.image = true ∧
    ∃ h, s.tupleHome t.ctx t.tsid (tupleWord t.image 0) = some h ∧ (h.pkg, h.die) = t.die
theorem keeps_iff {t : STuple} : s.keeps t = true ↔
    ∃ h, s.tupleHome t.ctx t.tsid (tupleWord t.image 0) = some h ∧ (h.pkg, h.die) = t.die := by
  simp [State.keeps, Option.any_eq_true]
/-- The stored tuples among which a request finds the oldest. -/
def State.fitting (s : State) (r : TupleReq) : List STuple :=
  s.tuples.filter fun t => t.ctx == r.ctx && t.tsid == r.tsid && tupleMatches r.image r.mask t.image && s.keeps t
theorem mem_fitting {t : STuple} : t ∈ s.fitting r ↔ s.fits r t := by
  simp only [State.fitting, State.fits, List.mem_filter, Bool.and_eq_true, beq_iff_eq, keeps_iff, and_assoc]
/-- The oldest is the one of the lowest deposit number. -/
theorem oldest_eq_argmin : s.oldest r = (s.fitting r).argmin STuple.order := by
  unfold State.oldest List.argmin State.fitting
  congr 1
  funext best t
  cases best <;> rfl
theorem oldest_least {t : STuple} (h : s.oldest r = some t) : s.fits r t ∧ ∀ u, s.fits r u → t.order ≤ u.order := by
  rw [oldest_eq_argmin] at h
  exact ⟨mem_fitting.1 (List.argmin_mem h), fun u hu => List.le_of_mem_argmin (mem_fitting.2 hu) h⟩
theorem oldest_none : s.oldest r = none ↔ ¬∃ t, s.fits r t := by
  rw [oldest_eq_argmin, List.argmin_eq_none, List.eq_nil_iff_forall_not_mem]
  simp only [mem_fitting, not_exists]

theorem find_eq (s : State) (r : TupleReq) (k : HomeKey) (h : Hart) : (s.takeTurn k h).find r = s.find r := rfl

theorem request_finds {t : STuple} (h : s.oldest r = some t) : s.request r =
    if r.take then ({ s.takeTurn (s.reqKey r) (s.hartAt r.hart) with tuples := s.tuples.erase t } : State).answer r 0 t.image
    else (s.takeTurn (s.reqKey r) (s.hartAt r.hart)).answer r 0 t.image := by
  have found : s.find r = .tuple t := by simp only [State.find, h]
  simp only [State.request, find_eq, found]
  split <;> rfl
variable (nothing : s.oldest r = none)
include nothing
theorem request_noMatch (nb : r.nb = true) : s.request r = (s.takeTurn (s.reqKey r) (s.hartAt r.hart)).answer r 1 0 := by
  have found : s.find r = .noMatch := by simp only [State.find, nothing, nb, if_true]
  simp only [State.request, find_eq, found]
variable (waits : r.nb = false)
include waits
theorem request_full (full : s.parkRoom r = false) : s.request r = (s.takeTurn (s.reqKey r) (s.hartAt r.hart)).answer r 2 0 := by
  have found : s.find r = .full := by simp only [State.find, nothing, waits, full, Bool.false_eq_true, if_false]
  simp only [State.request, find_eq, found]
theorem request_parks (room : s.parkRoom r = true) : s.request r = { s.takeTurn (s.reqKey r) (s.hartAt r.hart) with
    parkNo := s.parkNo + 1
    reqs := s.reqs.map fun x => if x.id = r.id then { x with phase := .parked s.parkNo } else x } := by
  have found : s.find r = .park := by simp only [State.find, nothing, waits, room, Bool.false_eq_true, if_false, if_true]
  simp only [State.request, find_eq, found, beq_iff_eq]
  rfl
end

/-- Settles O33: a deposit by its three cases over the sorted list of the parked requests, a request by the least of the tuples that fit. -/
theorem depositRule : Obligations.DepositRule := by
  unfold Obligations.DepositRule
  refine ⟨fun s ctx tsid cap image => ⟨deposit_full, fun h => deposit_stores, fun r rest taker => ⟨deposit_taken taker, ?_⟩, ?_, ?_, ?_, ?_⟩,
    fun s r => ⟨fun t => oldest_least, oldest_none, fun t => request_finds, request_noMatch, request_full, request_parks,
      fun status image prompt => answer_at_once prompt status image⟩⟩
  · rw [answer_tuples, answers_frame]
  · exact fun prompt c hc x hx => (answers_gone _ image prompt x hx).2 c hc
  · intro take r hr
    obtain ⟨mem, -, -, parked, kind, fits⟩ := mem_parkedFor.1 hr
    exact ⟨mem, parked, kind, fits⟩
  · exact fun take r mem ctx tsid parked kind fits => mem_parkedFor.2 ⟨mem, ctx, tsid, parked, kind, fits⟩
  · exact parkedFor_sorted s ctx tsid image

end Sys2Proof.Machine
end

section
/-! Tuple instructions (R241 to R248). -/
namespace Sys2Proof.Machine

/-! What a deposit leaves of the harts. -/

theorem put_det (h : Hart) (r : Reg) (v : RegVal) : (h.put r v).det = h.det := by
  have same : (h.put r v).sr.detctl = h.sr.detctl := by
    cases r <;> cases v <;> simp [Hart.put, Hart.setV]
  rw [Hart.det, same, Hart.det]
theorem markEmpty_det (h : Hart) (r : Reg) (b : Bool) : (h.markEmpty r b).det = h.det := by rw [Hart.det, Hart.markEmpty_sr, Hart.det]
theorem answer_det (s : State) (r : TupleReq) (status image n : Nat) : ((s.answer r status image).hartAt n).det = (s.hartAt n).det := by
  have popped : ((s.modHartAt r.hart fun _ => (s.hartAt r.hart).popLate.2).hartAt n).det = (s.hartAt n).det := by
    refine modHartAt_keeps Hart.det s r.hart n ?_
    unfold Hart.popLate
    split <;> rfl
  unfold State.answer
  dsimp only
  split
  · exact popped
  · exact (deliver_keeps put_det markEmpty_det _ r status image n).trans popped
theorem answers_det (l : List TupleReq) (s : State) (image n : Nat) :
    ((l.foldl (fun s r => s.answer r 0 image) s).hartAt n).det = (s.hartAt n).det :=
  foldl_keeps (P := fun u => (u.hartAt n).det = (s.hartAt n).det) l s rfl fun u r same => (answer_det u r 0 image n).trans same
theorem deposit_det (s : State) (ctx tsid cap image n : Nat) : ((s.deposit ctx tsid cap image).1.hartAt n).det = (s.hartAt n).det := by
  unfold State.deposit
  dsimp only
  split
  · rfl
  · split
    · exact (answer_det _ _ _ _ _).trans (answers_det _ _ _ _)
    · exact answers_det _ _ _ _

/-- Creating a home changes no hart. -/
theorem openSpace_frame (s : State) (ctx tsid : Nat) :
    (s.openSpace ctx tsid).harts = s.harts ∧ (s.openSpace ctx tsid).cur = s.cur := by
  unfold State.openSpace State.createHome
  split
  · exact ⟨rfl, rfl⟩
  · split <;> exact ⟨rfl, rfl⟩
theorem openSpace_hartAt (s : State) (ctx tsid n : Nat) : (s.openSpace ctx tsid).hartAt n = s.hartAt n := by
  rw [State.hartAt, (openSpace_frame s ctx tsid).1, State.hartAt]

/-! The operations at a home. -/

/-- With no delay before it an operation reaches its home at once. -/
theorem atHome_at_once {s : State} (prompt : s.hart.late = []) (f : Fields) (k : HomeKind) (run : HomeKind → State → Res) :
    atHome f k run s = run k s := by
  have still : (s.modHart fun _ => s.hart) = s := s.modHart_self _ rfl
  simp only [atHome, popLate_nil _ prompt, still, Bool.false_eq_true, if_false]

theorem noteDep_free {s : State} {n : Nat} (free : (s.hartAt n).det = false) (tsid sig : Nat) : s.noteDep n tsid sig = s := by
  simp only [State.noteDep, free, Bool.not_false, if_true]
/-- A deposit of a hart outside a deterministic gang gives its status (R244). -/
theorem depositRun_free {s : State} (free : s.hart.det = false) (f : Fields) (tsid cap image : Nat) :
    depositRun f tsid cap image s =
      let u := ((s.openSpace s.hart.ctx tsid).takeTurn (s.tupleKey s.hart.ctx tsid (tupleWord image 0)) s.hart).deposit s.hart.ctx tsid cap image
      .done (u.1.modHart fun h => h.putStatus f u.2) := by
  simp only [depositRun, free, Bool.false_and, Bool.false_eq_true, if_false]
  rw [noteDep_free]
  rw [deposit_det]
  show ((s.openSpace s.hart.ctx tsid).hartAt (s.openSpace s.hart.ctx tsid).cur).det = false
  rw [openSpace_hartAt, (openSpace_frame s _ _).2]
  exact free

section
variable {s : State} {f : Fields} {body : State → Res}

/-- An A-side instruction that gives its status to p[PS] and x[C] (R243). -/
def withStatus (f : Fields) (body : State → Res) : Issue := { also := [psReg f], writes := [psReg f, f.c], body }

section
variable {t : State} (c : s.Clear f [psReg f])
include c
theorem withStatus_after (h : body s = .done t) : issue f (withStatus f body) s = .next (t.after f) := issue_after (withStatus f body) c rfl rfl h
theorem withStatus_waits (h : body s = .wait t) : issue f (withStatus f body) s = .next t := by
  rw [issue_clear (withStatus f body) c rfl (by simp [withStatus])]
  simp only [withStatus, h]
  rfl
theorem withStatus_traps {e : Nat} (h : body s = tupleTrap s e) :
    issue f (withStatus f body) s = .next (s.trap cTUPLE (BitVec.ofNat 64 e) 0) := by
  rw [issue_traps (withStatus f body) c rfl (by simp [withStatus]) s _ _ _ h]
  exact congrArg _ (trapOf_plain s _ _ (by decide))
end

variable (c : s.Clear f [psReg f]) (still : s.still = true) (unphased : s.hart.phased = false) (free : s.hart.det = false)
include c unphased

section
include still

/-- A deposit into a usable space, in its turn (R244). -/
theorem tdep_deposits {p : Space} (space : s.spaceOf s.agent (s.hart.xr f.a).toNat
      (tupleWord (imageB s.hart f % 2 ^ (64 * (bitsAt f.imm.toNat 12 3 + 1))) 0) = .ok p) (free : s.hart.det = false) :
    let image := imageB s.hart f % 2 ^ (64 * (bitsAt f.imm.toNat 12 3 + 1))
    let k := s.tupleKey s.hart.ctx p.tsid (tupleWord image 0)
    let u := ((s.openSpace s.hart.ctx p.tsid).takeTurn k s.hart).deposit s.hart.ctx p.tsid p.cap image
    (s.inTurn k s.hart = true → exec (.tdep f) s = .next (State.after (u.1.modHart fun h => h.putStatus f u.2) f)) ∧
      (s.inTurn k s.hart = false → exec (.tdep f) s = .next s) := by
  intro image k u
  constructor
  · intro turn
    refine withStatus_after c ?_
    simp only [phased_unphased unphased, drainAll_still still, space]
    rw [atHome_at_once c.onTime, depositRun_free free]
    exact if_neg (show ¬(!s.inTurn k s.hart) = true by simp [turn])
  · intro late
    refine withStatus_waits c ?_
    simp only [phased_unphased unphased, drainAll_still still, space]
    exact if_pos (show (!s.inTurn k s.hart) = true by simp [late])
theorem tdep_traps {e : Nat} (bad : s.spaceOf s.agent (s.hart.xr f.a).toNat
      (tupleWord (imageB s.hart f % 2 ^ (64 * (bitsAt f.imm.toNat 12 3 + 1))) 0) = .error e) :
    exec (.tdep f) s = .next (s.trap cTUPLE (BitVec.ofNat 64 e) 0) := by
  refine withStatus_traps c ?_
  simp only [phased_unphased unphased, drainAll_still still, bad]
end

section
variable (take nb : Bool)
include free

theorem requestOp_traps {e : Nat} (bad : s.spaceOf s.agent (s.hart.xr f.a).toNat (tupleWord (imageB s.hart f) 0) = .error e) :
    requestOp take nb f s = .next (s.trap cTUPLE (BitVec.ofNat 64 e) 0) := by
  refine withStatus_traps c ?_
  simp only [phased_unphased unphased, free, bad, Bool.false_and, Bool.false_eq_true, if_false]

variable {p : Space} (space : s.spaceOf s.agent (s.hart.xr f.a).toNat (tupleWord (imageB s.hart f) 0) = .ok p)
include space

/-- A hart with eight requests waits for one of them (R245). -/
theorem requestOp_many (many : 8 ≤ (s.reqs.filter (·.hart == s.cur)).length) : requestOp take nb f s = .next s := by
  refine withStatus_waits c ?_
  simp only [phased_unphased unphased, free, space, Bool.false_and, Bool.false_eq_true, if_false]
  exact if_pos (.inl many)

variable (few : (s.reqs.filter (·.hart == s.cur)).length < 8)
include few
/-- A request is performed at its home in its turn, and is on its way out of it (R245, R249). -/
theorem requestOp_asks (still : s.still = true) :
    requestOp take nb f s = .next ((if s.inTurn (s.tupleKey s.hart.ctx p.tsid (tupleWord (imageB s.hart f) 0)) s.hart
      then ((s.openSpace s.hart.ctx p.tsid).addReq (requestOf take nb f p.tsid s)).request (requestOf take nb f p.tsid s)
      else s.sendReq (requestOf take nb f p.tsid s)).after f) := by
  have same : (s.modHart fun _ => s.hart) = s := s.modHart_self _ rfl
  refine withStatus_after c ?_
  simp only [phased_unphased unphased, free, space, Bool.false_and, Bool.false_eq_true, if_false, false_and, or_false, Nat.not_le.2 few,
    popLate_nil _ c.onTime, same, Bool.false_or, ge_iff_le, inStream_still _ _ still]
  cases s.inTurn (s.tupleKey s.hart.ctx p.tsid (tupleWord (imageB s.hart f) 0)) s.hart <;> rfl
theorem requestOp_now (still : s.still = true)
    (turn : s.inTurn (s.tupleKey s.hart.ctx p.tsid (tupleWord (imageB s.hart f) 0)) s.hart = true) :
    requestOp take nb f s = .next
      ((((s.openSpace s.hart.ctx p.tsid).addReq (requestOf take nb f p.tsid s)).request (requestOf take nb f p.tsid s)).after f) := by
  rw [requestOp_asks c unphased free take nb space few still, if_pos turn]
theorem requestOp_later (still : s.still = true)
    (late : s.inTurn (s.tupleKey s.hart.ctx p.tsid (tupleWord (imageB s.hart f) 0)) s.hart = false) :
    requestOp take nb f s = .next ((s.sendReq (requestOf take nb f p.tsid s)).after f) := by
  rw [requestOp_asks c unphased free take nb space few still, if_neg (Bool.eq_false_iff.1 late)]
end
end

/-! Cancelling (R248). -/

section
variable {s : State} {f : Fields} (c : s.Clear { f with a := .x 0 } []) (unphased : s.hart.phased = false) (free : s.hart.det = false)
include c unphased free

theorem tcan_none (none_ : ∀ r ∈ s.reqs, r.hart = s.cur → r.f.d ≠ f.a) :
    exec (.tcan f) s = .next (State.after (s.modHart fun h => h.put f.d (.word 0)) { f with a := .x 0 }) := by
  have nothing : s.reqs.find? (fun r => r.hart == s.cur && r.f.d == f.a) = none :=
    List.find?_eq_none.2 fun r mem => by simpa using none_ r mem
  refine aside_after c ?_
  simp only [phased_unphased unphased, refusedDet, free, nothing, Bool.false_eq_true, if_false, give]

variable (still : s.still = true) {r : TupleReq} (found : s.reqs.find? (fun x => x.hart == s.cur && x.f.d == f.a) = some r)
include still found
theorem tcan_waits (late : s.inTurn (s.reqKey r) s.hart = false) : exec (.tcan f) s = .next s := by
  refine aside_waits c ?_
  simp only [phased_unphased unphased, refusedDet, free, found, inStream_still _ _ still, late, Bool.not_false, if_true, Bool.false_eq_true, if_false]
/-- In its turn a cancellation withdraws a parked request, which ends with CANCELLED (R248). -/
theorem tcan_withdraws (same : s.reqs.find? (fun x => x.id == r.id) = some r) (turn : s.inTurn (s.reqKey r) s.hart = true) :
    exec (.tcan f) s = .next (State.after (if r.isParked
      then ((s.takeTurn (s.reqKey r) s.hart).answer r 4 0).modHart fun h => h.put f.d (.word 1)
      else (s.takeTurn (s.reqKey r) s.hart).modHart fun h => h.put f.d (.word 0)) { f with a := .x 0 }) := by
  refine aside_after c ?_
  simp only [phased_unphased unphased, refusedDet, free, found, inStream_still _ _ still, turn, Bool.not_true, Bool.false_eq_true, if_false]
  rw [atHome_at_once c.onTime]
  simp only [cancelRun, same, give]
  exact (apply_ite Res.done ..).symm
end

/-- The requesting forms are those of `requestOp` (R245). -/
theorem requestForms_exec (f : Fields) (s : State) : ∀ o ∈ requestForms, exec (o.1 f) s = requestOp o.2.1 o.2.2 f s := by
  simp only [requestForms, List.forall_mem_cons, List.not_mem_nil, false_implies, implies_true, and_true]
  and_intros <;> rfl

/-- Settles O34: an equation for a deposit, for the requesting forms together, and for a cancellation. -/
theorem tupleResults : Obligations.TupleResults := by
  unfold Obligations.TupleResults
  refine ⟨fun f s c still unphased free => ⟨fun p space => tdep_deposits c still unphased space free, fun e => tdep_traps c still unphased,
    fun o ho few p space => ⟨fun turn => ?_, fun late => ?_⟩, fun o ho e bad => ?_, fun o ho p space many => ?_⟩,
    fun f s c still unphased free => ⟨tcan_none c unphased free, fun r found same => ⟨tcan_waits c unphased free still found,
      fun turn => ⟨fun parked => ?_, fun loose => ?_⟩⟩⟩⟩
  · exact (requestForms_exec f s o ho).trans (requestOp_now c unphased free _ _ space few still turn)
  · exact (requestForms_exec f s o ho).trans (requestOp_later c unphased free _ _ space few still late)
  · rw [requestForms_exec f s o ho, requestOp_traps c unphased free _ _ bad]
  · rw [requestForms_exec f s o ho, requestOp_many c unphased free _ _ space many]
  · rw [tcan_withdraws c unphased free still found same turn, if_pos parked]
  · rw [tcan_withdraws c unphased free still found same turn, if_neg (by simp [loose])]

end Sys2Proof.Machine
end

section
/-! Lane groups, energy budgets, issue windows and backstops (R325 to R328). -/
namespace Sys2Proof.Machine

/-! An element of a list after a change of one. -/

theorem updAt_getElem? {α : Type} (l : List α) (n : Nat) (f : α → α) : (updAt l n f)[n]? = l[n]?.map f := by
  induction l generalizing n with
  | nil => rfl
  | cons a r ih =>
    cases n with
    | zero => rfl
    | succ n => exact ih n
theorem updAt_getElem?_ne {α : Type} (l : List α) {n m : Nat} (f : α → α) (other : m ≠ n) : (updAt l n f)[m]? = l[m]? := by
  induction l generalizing n m with
  | nil => rfl
  | cons a r ih =>
    cases n with
    | zero =>
      cases m with
      | zero => exact absurd rfl other
      | succ m => rfl
    | succ n =>
      cases m with
      | zero => rfl
      | succ m => exact ih (fun same => other (congrArg _ same))

/-! The pass of a slot (R325). -/

theorem passOf_setPass (s : State) (p : Place) (n : Nat) : (s.setPass p n).passOf p = n := by
  simp [State.passOf, State.setPass]
theorem passOf_setPass_ne (s : State) {p q : Place} (n : Nat) (other : q ≠ p) : (s.setPass p n).passOf q = s.passOf q := by
  have skip : (fun a : Place × Nat => decide ((a.1 != p) = true ∧ (a.1 == q) = true)) = fun a => a.1 == q := by
    funext a
    by_cases h : a.1 = q <;> simp [h, other]
  have here : ((p, n).1 == q) = false := by simpa using other.symm
  simp only [State.passOf, State.setPass, List.find?_cons, here, List.find?_filter, skip]

/-- The order in which a free lane group prefers the harts: the least pass, then the lower slot (R325). -/
def State.laneKey (s : State) (h : Hart) : ℕ ×ₗ ℕ := toLex (s.passOf h.place, h.place.slot)
theorem laneKey_lt {s : State} {h b : Hart} : s.laneKey h < s.laneKey b ↔
    s.passOf h.place < s.passOf b.place ∨ (s.passOf h.place = s.passOf b.place ∧ h.place.slot < b.place.slot) := Prod.Lex.toLex_lt_toLex
/-- The hart whose head a free lane group takes is the least of those that have one to start. -/
theorem nextQueued_eq_argmin (s : State) (core : CorePlace) :
    s.nextQueued core = ((s.queued core).filter fun h => h.waiting.length < h.equeue).argmin s.laneKey := by
  unfold State.nextQueued List.argmin
  congr 1
  funext best h
  cases best with
  | none => rfl
  | some b => exact if_congr laneKey_lt.symm rfl rfl
theorem nextQueued_least {s : State} {core : CorePlace} {b : Hart} (next : s.nextQueued core = some b) :
    b ∈ s.queued core ∧ b.waiting.length < b.equeue ∧ ∀ h ∈ s.queued core, h.waiting.length < h.equeue →
      s.passOf b.place < s.passOf h.place ∨ (s.passOf b.place = s.passOf h.place ∧ b.place.slot ≤ h.place.slot) := by
  rw [nextQueued_eq_argmin] at next
  obtain ⟨mem, ready⟩ := List.mem_filter.1 (List.argmin_mem next)
  refine ⟨mem, of_decide_eq_true ready, fun h hm hr => ?_⟩
  exact Prod.Lex.toLex_le_toLex.1 (List.le_of_mem_argmin (List.mem_filter.2 ⟨hm, decide_eq_true hr⟩) next)
theorem nextQueued_none {s : State} {core : CorePlace} (none_ : s.nextQueued core = none) : ∀ h ∈ s.queued core, h.equeue ≤ h.waiting.length := by
  rw [nextQueued_eq_argmin, List.argmin_eq_none, List.filter_eq_nil_iff] at none_
  exact fun h mem => Nat.not_lt.1 fun ready => none_ h mem (decide_eq_true ready)

/-! What the events reach. -/

theorem laneGroupArbitration_takes {s : State} {core : CorePlace} {b : Hart} (next : s.nextQueued core = some b) :
    exec (.laneGroupArbitration core) s = .next (({ s with harts := s.harts.map fun (h : Hart) =>
        if (h.onSlot && h.place == b.place) = true then { h with equeue := h.equeue - 1 } else h } : State).setPass b.place
          (s.passOf b.place + 0x10000 / max 1 (bitsAt b.sr.wshare.toNat 0 4))) := by
  show execLaneGroupArbitration core s = _
  simp only [execLaneGroupArbitration, next]
  rfl
theorem laneGroupArbitration_idle {s : State} {core : CorePlace} (none_ : s.nextQueued core = none) :
    exec (.laneGroupArbitration core) s = .next s := by
  show execLaneGroupArbitration core s = _
  simp only [execLaneGroupArbitration, none_]

/-- A change of every hart is seen at each of them. -/
theorem hartAt_map (s : State) (g : Hart → Hart) {n : Nat} (bound : n < s.harts.length) :
    ({ s with harts := s.harts.map g } : State).hartAt n = g (s.hartAt n) := by
  simp [State.hartAt, List.getD_eq_getElem?_getD, bound]

/-- Settles O43: the arbiter's choice is a least element, and each event is one change of the state. -/
theorem issueEventResults : Obligations.IssueEventResults := by
  unfold Obligations.IssueEventResults
  refine fun s core => ⟨fun b next => ⟨laneGroupArbitration_takes next, nextQueued_least next⟩,
    fun none_ => ⟨nextQueued_none none_, laneGroupArbitration_idle none_⟩, fun p n => ⟨passOf_setPass s p n, fun q => passOf_setPass_ne s n⟩,
    fun n g there => ⟨_, rfl, ?_, fun m => updAt_getElem?_ne _ _⟩, rfl, _, rfl, fun n bound => ?_⟩
  · exact (updAt_getElem? _ _ _).trans (congrArg _ there)
  · rw [hartAt_map s _ bound]
    simp only [Bool.and_eq_true, beq_iff_eq]

end Sys2Proof.Machine
end

section
/-! Launches, bindings and the end of a gang (R313 to R315, R323, R324, R333). -/
namespace Sys2Proof.Machine

/-! A launch queue (R313, R373). -/

/-- The head of a launch queue moves on by one. -/
def State.headMoved (s : State) (func q : Nat) (x : LQueue) : State :=
  s.modMaster func fun m => m.setQueue q { m.queue q with head := (x.head + 1) % 2 ^ 32 }
/-- A launch is signalled on the vector of its queue. -/
def State.signalled (s : State) (func q : Nat) : State := s.modHost fun h => { h with msix := h.msix ++ [(func, q)] }
/-- The state in which the scheduler checks a record of a context: a launch that finds no hart bound reads the context block (log 45). -/
def State.launching (s : State) (c : Ctx) : State := if s.boundOf c.ctxid = [] then s.takeBlock c.vdtbase.toNat else s
theorem launching_eq (s : State) (c : Ctx) : (if (s.boundOf c.ctxid).isEmpty then s.takeBlock c.vdtbase.toNat else s) = s.launching c := by
  simp only [State.launching, List.isEmpty_iff]
/-- Reading a context block changes no memory. -/
theorem launching_poisoned (s : State) (c : Ctx) (pa n : Nat) : (s.launching c).poisoned pa n = s.poisoned pa n := by
  unfold State.launching
  split <;> rfl

section
variable {s : State} {func q : Nat} {c : Ctx} (func_lt : func < 32) (q_lt : q < 8) (ctx : s.ctxOf ((s.master func).queue q).ctxid = some c)
include func_lt q_lt ctx

omit func_lt q_lt in
theorem launchRecordTake_idle (idle : ((s.master func).queue q).en = false ∨ ((s.master func).queue q).head = ((s.master func).queue q).tail ∨
    ((s.master func).queue q).stale = true) : exec (.launchRecordTake func q) s = .next s := by
  show execLaunchRecordTake func q s = _
  simp only [execLaunchRecordTake, ctx]
  refine if_pos ?_
  obtain off | empty | stale := idle
  · simp [off]
  · simp [empty]
  · simp [stale]

variable (on : ((s.master func).queue q).en = true) (some_ : ((s.master func).queue q).head ≠ ((s.master func).queue q).tail)
  (fresh : ((s.master func).queue q).stale = false)
include on some_ fresh

/-- The scheduler takes a record: it refuses it with a code, or makes a gang of it, and the head moves (R313). -/
theorem launchRecordTake_takes :
    let x := (s.master func).queue q
    let slot := s.paOf (x.base + 128 * (x.head % 2 ^ x.log2n))
    let l := words16 (s.readN slot 128)
    let u := s.launching c
    exec (.launchRecordTake func q) s = .next ((match (if s.poisoned slot 128 then some 1 else u.launchCode c l) with
      | some e => u.refuseLaunch c.ctxid func q slot (l.getD 7 0) e
      | none => u.acceptLaunch c func q slot l).headMoved func q x) := by
  have go : ¬(func ≥ 32 ∨ q ≥ 8 ∨ (!((s.master func).queue q).en) = true ∨ ((s.master func).queue q).head = ((s.master func).queue q).tail ∨
      ((s.master func).queue q).stale = true) := by simp [func_lt, q_lt, on, some_, fresh]
  show execLaunchRecordTake func q s = _
  simp only [execLaunchRecordTake, ctx, if_neg go, launching_eq, launching_poisoned]
  rfl

theorem launchRecordTake_refuses {e : Nat} (bad :
    let x := (s.master func).queue q
    let slot := s.paOf (x.base + 128 * (x.head % 2 ^ x.log2n))
    s.poisoned slot 128 = true ∧ e = 1 ∨ s.poisoned slot 128 = false ∧ (s.launching c).launchCode c (words16 (s.readN slot 128)) = some e) :
    let x := (s.master func).queue q
    let slot := s.paOf (x.base + 128 * (x.head % 2 ^ x.log2n))
    let l := words16 (s.readN slot 128)
    let w := (s.launching c).writeN (slot + 64) (3 * 2 ^ 62 + e * 2 ^ 48) 8
    exec (.launchRecordTake func q) s =
      .next (((if l.getD 7 0 = 0 then w else (w.bumpAt c.ctxid (l.getD 7 0)).getD w).signalled func q).headMoved func q x) := by
  rw [launchRecordTake_takes func_lt q_lt ctx on some_ fresh]
  obtain ⟨spoilt, rfl⟩ | ⟨sound, code⟩ := bad
  · simp only [spoilt, if_true]; rfl
  · simp only [sound, code, Bool.false_eq_true, if_false]; rfl
theorem launchRecordTake_accepts
    (sound : s.poisoned (s.paOf (((s.master func).queue q).base + 128 * (((s.master func).queue q).head % 2 ^ ((s.master func).queue q).log2n))) 128 = false)
    (good : (s.launching c).launchCode c (words16 (s.readN (s.paOf (((s.master func).queue q).base +
      128 * (((s.master func).queue q).head % 2 ^ ((s.master func).queue q).log2n))) 128)) = none) :
    let x := (s.master func).queue q
    let slot := s.paOf (x.base + 128 * (x.head % 2 ^ x.log2n))
    let l := words16 (s.readN slot 128)
    let w := ((s.launching c).writeN (slot + 64) c.nextGid 8).modCtx c.ctxid fun c => { c with nextGid := (c.nextGid + 1) % 2 ^ 32 }
    exec (.launchRecordTake func q) s =
      .next (State.headMoved { w with gangs := w.gangs ++ [gangOfRecord c.ctxid c.nextGid slot (8 * func + q) l] } func q x) := by
  rw [launchRecordTake_takes func_lt q_lt ctx on some_ fresh]
  simp only [sound, good, Bool.false_eq_true, if_false]
  rfl
end

/-- The scheduler's counter rises by 1 (R315). -/
theorem bumpAt_adds {s : State} {ctx ctr pa : Nat} (aligned : ctr % 8 = 0) (there : s.hbmRange (schedAgent ctx 0) .atomic ctr 8 = some [(pa, 8)])
    (sound : s.poisoned pa 8 = false) : s.bumpAt ctx ctr = some (s.writeN pa ((s.readN pa 8 + 1) % 2 ^ 64) 8) := by
  have agent : (schedAgent ctx 0).publish = schedAgent ctx 0 := rfl
  simp only [State.bumpAt, aligned, if_true, State.bumpCtr, agent, there, sound, Bool.false_eq_true, if_false]

/-! A binding (R314, R324). -/

/-- The hart that a binding of a gang makes, before its own entries. -/
def State.boundHart (s : State) (g : Gang) (c : Ctx) (p : Place) (hartid epoch : Nat) : Hart :=
  { Hart.fresh p g.ctx g.gid hartid with
    vdid := (s.vdOf c.vdtbase.toNat s.pkg p.die).getD 0
    stepKind := if g.phased then 1 else 0
    sr := { vtype := g.vtype, vl := g.vl, vr := g.vr, wshare := g.wshare, detctl := g.detctl epoch, stvec := c.stvec } }
theorem updAt_append_last {α : Type} (l : List α) (a : α) (f : α → α) : updAt (l ++ [a]) l.length f = l ++ [f a] := by
  induction l with
  | nil => rfl
  | cons b r ih => exact congrArg (b :: ·) ih
/-- Causes that are held for a hart become pending, and change nothing else of it. -/
theorem foldl_post_eq (l : List Held) (h : Hart) :
    ∃ causes, l.foldl (fun (h : Hart) x => h.post x.cause x.eval) h = { h with causes } := by
  induction l generalizing h with
  | nil => exact ⟨h.causes, rfl⟩
  | cons x rest ih =>
    obtain ⟨causes, eq⟩ := ih (h.post x.cause x.eval)
    refine ⟨causes, eq.trans ?_⟩
    unfold Hart.post
    split <;> rfl
/-- A binding adds one hart, with what is held for it pending, and writes no memory. -/
theorem bindHart_adds (s : State) (g : Gang) (c : Ctx) (p : Place) (hartid epoch : Nat) (f : Hart → Hart) :
    ∃ causes, (s.bindHart g c p hartid epoch f).harts = s.harts ++ [{ f (s.boundHart g c p hartid epoch) with causes }] ∧
      (s.bindHart g c p hartid epoch f).mem = s.mem := by
  obtain ⟨causes, eq⟩ := foldl_post_eq (s.held.filter fun x : Held =>
    let h := ({ s with harts := s.harts ++ [f (s.boundHart g c p hartid epoch)] } : State).hartAt s.harts.length
    x.ctx == h.ctx && x.gang == h.gang && x.hartid == h.hartid) (f (s.boundHart g c p hartid epoch))
  exact ⟨causes, (updAt_append_last _ _ _).trans (congrArg (s.harts ++ [·]) eq), rfl⟩

/-- A launched hart is bound (R314). -/
theorem launchHartBind_binds {s : State} {g : Nat} {place : Place} {x : Gang} {c : Ctx} {n : Nat} (gang : s.gangs[g]? = some x)
    (ctx : s.ctxOf x.ctx = some c)
    (lowest : ((List.range x.nhart).find? fun h => !s.wasBound x h && (s.takeBlock c.vdtbase.toNat).localDie c (x.vdOfHart h) == some place.die) =
      some n) (going : x.ended = false) (here : c.preempt = false) (stays : c.away = false) (done : c.undoing = false)
    (free : s.slotFree place = true) :
    exec (.launchHartBind g place) s = .next (((s.withBlock c).modGang x.ctx x.gid fun g => { g with bound := g.bound + 1 }).bindHart x c place n 0
      fun h => { h with
        pc := x.entry.setWidth 55, x := (h.x.set 1 (BitVec.ofNat 64 x.record)).set 2 x.arg, sr := { h.sr with tn := 1 } }) := by
  show execLaunchHartBind g place s = _
  simp only [execLaunchHartBind, gang, ctx, State.withBlock, lowest, going, here, stays, done, free]
  rfl

/-! The end of a gang (R315). -/

theorem gangEnd_waits {s : State} {g : Nat} {x : Gang} (gang : s.gangs[g]? = some x) (more : s.gangDone x = false) :
    exec (.gangEnd g) s = .next s := by
  show execGangEnd g s = _
  simp only [execGangEnd, gang, more, Bool.not_false, if_true]
theorem gangEnd_ends {s : State} {g : Nat} {x : Gang} (gang : s.gangs[g]? = some x) (done : s.gangDone x = true)
    (none_ : ∀ t ∈ s.tasks, ¬(t.ctx = x.ctx ∧ t.gang = x.gid)) :
    let code := if x.taskFailed then 4 else if x.engineFailed then 5 else 0
    let u := (s.writeN (x.record + 64) (2 ^ 63 + (if code = 0 then 0 else 2 ^ 62) + code * 2 ^ 48 + x.gid) 8).modGang x.ctx x.gid
      fun g => { g with ended := true }
    exec (.gangEnd g) s = .next ((match (if x.ctr = 0 then some u else u.bumpAt x.ctx x.ctr) with
      | some v => v
      | none => u.recordError x 6).modHost fun h => { h with msix := h.msix ++ [(x.queue / 8, x.queue % 8)] }) := by
  have waiting : (s.tasks.filter fun t => t.ctx == x.ctx && t.gang == x.gid) = [] :=
    List.filter_eq_nil_iff.2 fun t mem => by simpa using none_ t mem
  show execGangEnd g s = _
  simp only [execGangEnd, gang, done, waiting, List.foldl_nil, List.isEmpty_nil, Bool.not_true, Bool.or_false, Bool.false_eq_true, if_false]
  split <;> rfl

/-! A ready task is bound (R323, R324). -/

theorem writeRanges_length (s : State) (v : Nat) (l : List (Nat × Nat)) : (s.writeRanges v l).harts.length = s.harts.length := by
  have step (acc : State × Nat) : (l.foldl (fun (acc : State × Nat) (p : Nat × Nat) =>
      (acc.1.writeN p.1 (acc.2 % 2 ^ (8 * p.2)) p.2, acc.2 / 2 ^ (8 * p.2))) acc).1.harts.length = acc.1.harts.length := by
    induction l generalizing acc with
    | nil => rfl
    | cons p rest ih => rw [List.foldl_cons, ih, State.writeN_length]
  exact step (s, v)
theorem schedWrite_length {s t : State} {ctx va v n : Nat} (h : s.schedWrite ctx va v n = some t) : t.harts.length = s.harts.length := by
  unfold State.schedWrite at h
  split at h
  case h_1 l _ =>
    split at h
    · cases h
    · cases h; exact writeRanges_length s v l
  case h_2 => cases h
theorem setWord4_length (s : State) (ctx addr : Nat) (f : Nat → Nat) : (s.setWord4 ctx addr f).harts.length = s.harts.length := by
  unfold State.setWord4
  split
  case h_1 w _ =>
    cases written : s.schedWrite ctx (addr + 32) (f w) 8 with
    | none => rfl
    | some t => exact schedWrite_length written
  case h_2 => rfl

/-- The state in which a ready task is bound: its record says so, and its gang counts it. -/
def State.taskTaken (s : State) (c : Ctx) (k : Task) (g : Gang) : State :=
  let s := (s.withBlock c).setTaskState k.ctx k.addr 3 0
  ({ s with tasks := s.tasks.map fun x => if x = k then { x with running := true } else x } : State).modGang g.ctx g.gid
    fun g => { g with taskBinds := g.taskBinds + 1 }
theorem taskTaken_length (s : State) (c : Ctx) (k : Task) (g : Gang) : (s.taskTaken c k g).harts.length = s.harts.length :=
  setWord4_length (s.withBlock c) _ _ _

theorem taskBind_binds {s : State} {ctx : Nat} {place : Place} {c : Ctx} {k : Task} {g : Gang} (owner : s.ctxOf ctx = some c)
    (first : (s.takeBlock c.vdtbase.toNat).firstReady c = some k) (gang : s.gangOf k.ctx k.gang = some g) (here : c.preempt = false)
    (stays : c.away = false) (done : c.undoing = false) (free : s.slotFree place = true)
    (fits : (s.takeBlock c.vdtbase.toNat).taskFits c k place = true) :
    exec (.taskBind ctx place) s = .next ((s.taskTaken c k g).bindHart g c place ((g.nhart + g.taskBinds) % 2 ^ 32) k.epoch fun h =>
      { h with
        member := false, taskDone := false, taskRec := some k.addr
        pc := (BitVec.ofNat 64 (k.words.getD 0 0)).setWidth 55
        x := (h.x.set 1 (BitVec.ofNat 64 k.addr)).set 2 (BitVec.ofNat 64 (k.words.getD 1 0))
        sr := { h.sr with
          task := BitVec.ofNat 64 k.addr, tile0 := BitVec.ofNat 64 (k.words.getD 1 0), tile1 := BitVec.ofNat 64 (k.words.getD 2 0)
          tile2 := BitVec.ofNat 64 (k.words.getD 3 0) &&& 0xFFFFFFFF, tn := BitVec.ofNat 64 (bitsAt (k.words.getD 4 0) 16 16) } }) := by
  show execTaskBind ctx place s = _
  simp only [execTaskBind, owner, State.withBlock, first, gang, here, stays, done, free, fits]
  rfl

/-- What a hart reads in the registers that its binding writes. -/
theorem getX_set_operands (h : Hart) (a b : Word) :
    ({ h with x := (h.x.set 1 a).set 2 b } : Hart).getX 1 = a ∧ ({ h with x := (h.x.set 1 a).set 2 b } : Hart).getX 2 = b := by
  constructor <;> simp [Hart.getX]

/-- Settles O44: an equation for each event and each of its conditions; the hart that a binding adds by `bindHart_adds`. -/
theorem launchResults : Obligations.LaunchResults := by
  unfold Obligations.LaunchResults
  refine fun s => ⟨fun func q c func_lt q_lt ctx => ⟨launchRecordTake_idle ctx,
    fun on some_ fresh => ⟨fun e => launchRecordTake_refuses func_lt q_lt ctx on some_ fresh,
      launchRecordTake_accepts func_lt q_lt ctx on some_ fresh⟩⟩, fun ctx ctr pa => bumpAt_adds, ?bind, fun g x => gangEnd_waits,
    fun g x => gangEnd_ends, ?task⟩
  case bind =>
    intro g place x c n gang ctx lowest going here stays done free
    obtain ⟨causes, added, mem⟩ := bindHart_adds ((s.withBlock c).modGang x.ctx x.gid fun g => { g with bound := g.bound + 1 }) x c place n 0
      fun h => { h with
        pc := x.entry.setWidth 55, x := (h.x.set 1 (BitVec.ofNat 64 x.record)).set 2 x.arg, sr := { h.sr with tn := 1 } }
    refine ⟨_, _, launchHartBind_binds gang ctx lowest going here stays done free, added, rfl, rfl, rfl, rfl, rfl, ?_, ?_, rfl, rfl, rfl, rfl,
      rfl, rfl, rfl, rfl, mem⟩
    · exact (getX_set_operands _ _ _).1
    · exact (getX_set_operands _ _ _).2
  case task =>
    intro ctx place c k g owner u first gang here stays done free fits
    obtain ⟨causes, added, -⟩ := bindHart_adds (s.taskTaken c k g) g c place ((g.nhart + g.taskBinds) % 2 ^ 32) k.epoch fun h =>
      { h with
        member := false, taskDone := false, taskRec := some k.addr
        pc := (BitVec.ofNat 64 (k.words.getD 0 0)).setWidth 55
        x := (h.x.set 1 (BitVec.ofNat 64 k.addr)).set 2 (BitVec.ofNat 64 (k.words.getD 1 0))
        sr := { h.sr with
          task := BitVec.ofNat 64 k.addr, tile0 := BitVec.ofNat 64 (k.words.getD 1 0), tile1 := BitVec.ofNat 64 (k.words.getD 2 0)
          tile2 := BitVec.ofNat 64 (k.words.getD 3 0) &&& 0xFFFFFFFF, tn := BitVec.ofNat 64 (bitsAt (k.words.getD 4 0) 16 16) } }
    refine ⟨_, _, _, taskBind_binds owner first gang here stays done free fits, added, taskTaken_length s c k g, rfl, rfl, rfl, rfl, rfl, rfl,
      rfl, ?_, ?_, rfl, rfl⟩
    · exact (getX_set_operands _ _ _).1
    · exact (getX_set_operands _ _ _).2

end Sys2Proof.Machine
end

section
/-! The host interface (R371 to R376). -/
namespace Sys2Proof.Machine

/-! A master's registers and launch queues after a write. -/

theorem master_modMaster (s : State) {m : Nat} (f : MasterRegs → MasterRegs) (hm : m < 33) : (s.modMaster m f).master m = f (s.master m) := by
  simp [State.master, State.modMaster, hm, State.modHost]
theorem modMaster_mem (s : State) (m : Nat) (f : MasterRegs → MasterRegs) : (s.modMaster m f).mem = s.mem := by
  unfold State.modMaster; split <;> rfl
theorem queue_setQueue (m : MasterRegs) {q : Nat} (x : LQueue) (hq : q < 8) : (m.setQueue q x).queue q = x := by
  simp [MasterRegs.queue, MasterRegs.setQueue, hq]

/-! The context that was changed is found in its new form. -/

theorem ctxOf_modCtx {s : State} {n : Nat} {c : Ctx} (u : Ctx → Ctx) (found : s.ctxOf n = some c) (keeps : ∀ c, (u c).ctxid = c.ctxid) :
    (s.modCtx n u).ctxOf n = some (u c) := by
  have same : ((fun c : Ctx => c.ctxid == n) ∘ fun c => if (c.ctxid == n) = true then u c else c) = fun c => c.ctxid == n := by
    funext c
    simp only [Function.comp]
    split <;> simp [keeps]
  have first : s.ctxs.find? (fun c => c.ctxid == n) = some c := found
  have named := List.find?_some first
  simp only [State.ctxOf, State.modCtx, List.find?_map, same, first, Option.map_some, named, if_true]

/-! The fields of a register among its listed bits. -/

theorem bitsAt_and {m lo w : Nat} (v : Nat) (listed : bitsAt m lo w = 2 ^ w - 1) : bitsAt (v &&& m) lo w = bitsAt v lo w := by
  apply Nat.eq_of_testBit_eq
  intro i
  have here : (bitsAt m lo w).testBit i = decide (i < w) := by rw [listed, Nat.testBit_two_pow_sub_one]
  rw [testBit_bitsAt] at here
  rw [testBit_bitsAt, testBit_bitsAt, Nat.testBit_and]
  by_cases inside : i < w
  · have set : m.testBit (lo + i) = true := by simpa [inside] using here
    rw [set, Bool.and_true]
  · simp only [inside, decide_false, Bool.false_and]

/-! BAR2 (R372). -/

section
variable {s : State} {func : Nat}

theorem hostBar2_disabled (off : s.host.enabled.contains func = false) (at_ n : Nat) (w : Option Nat) :
    exec (.hostBar2Access func at_ n w) s = .next s := by
  show execHostBar2Access func at_ n w s = _
  simp only [execHostBar2Access, off, Bool.not_false, if_true]

variable (on : s.host.enabled.contains func = true) {off n : Nat}
include on

/-- An access outside the aperture is refused and counted, and a read of it returns all ones. -/
theorem hostBar2_refused (hm : func < 33) (refused : s.bar2Refused func off n = true) (w : Option Nat) : ∃ t,
    exec (.hostBar2Access func off n w) s = .next t ∧ (t.master func).ur = (s.master func).ur + 1 ∧ t.mem = s.mem ∧
      (w = none → t.host.reply = 2 ^ (8 * n) - 1) := by
  let u : State := s.modMaster func fun m => { m with ur := m.ur + 1 }
  have counted : (u.master func).ur = (s.master func).ur + 1 := by rw [master_modMaster s _ hm]
  have mem : u.mem = s.mem := modMaster_mem s _ _
  have runs : exec (.hostBar2Access func off n w) s = .next (if w.isNone then u.modHost fun h => { h with reply := 2 ^ (8 * n) - 1 } else u) := by
    show execHostBar2Access func off n w s = _
    simp only [execHostBar2Access, on, refused, Bool.not_true, Bool.false_eq_true, if_false, if_true]
    rfl
  cases w with
  | none => exact ⟨_, runs, counted, mem, fun _ => rfl⟩
  | some v => exact ⟨_, runs, counted, mem, nofun⟩

variable (inside : s.bar2Refused func off n = false)
include inside
theorem hostBar2_tested (test : s.testing (s.paOf off) n = true) (w : Option Nat) : exec (.hostBar2Access func off n w) s = .next s := by
  show execHostBar2Access func off n w s = _
  simp only [execHostBar2Access, on, inside, test, Bool.not_true, Bool.false_eq_true, if_false, if_true]
variable (free : s.testing (s.paOf off) n = false)
include free
theorem hostBar2_reads (sound : s.poisoned (s.paOf off) n = false) :
    exec (.hostBar2Access func off n none) s = .next (s.modHost fun h => { h with reply := s.readN (s.paOf off) n }) := by
  show execHostBar2Access func off n none s = _
  simp only [execHostBar2Access, on, inside, free, sound, Bool.not_true, Bool.false_eq_true, if_false]
theorem hostBar2_writes (sound : s.partPoisoned (s.paOf off) n = false) (v : Nat) :
    exec (.hostBar2Access func off n (some v)) s = .next (s.writeN (s.paOf off) (v % 2 ^ (8 * n)) n) := by
  show execHostBar2Access func off n (some v) s = _
  simp only [execHostBar2Access, on, inside, free, sound, Bool.not_true, Bool.false_eq_true, if_false]
end

/-! Launch queues (R373). -/

section
variable {s : State} {func q : Nat} (hm : func < 33) (hq : q < 8) (v : BitVec 64)

theorem writeLqcfg_listed : s.writeLqcfg func q (v.toNat &&& lqMask 0x08) =
    if bitsAt v.toNat 16 5 < 4 ∨ bitsAt v.toNat 16 5 > 16 ∨ !s.assigned func (v.toNat % 2 ^ 16) then
      s.modMaster func fun m => { m with lqbad := m.lqbad + 1 }
    else s.modMaster func fun m => m.setQueue q { m.queue q with
      en := v.getLsbD 63, log2n := bitsAt v.toNat 16 5, ctxid := v.toNat % 2 ^ 16, head := 0, tail := 0, bad := false, stale := false } := by
  have size : bitsAt (v.toNat &&& lqMask 0x08) 16 5 = bitsAt v.toNat 16 5 := bitsAt_and _ (by decide)
  have ctx : bitsAt (v.toNat &&& lqMask 0x08) 0 16 = v.toNat % 2 ^ 16 := (bitsAt_and _ (by decide)).trans (bitsAt_zero _ _)
  have on : (v.toNat &&& lqMask 0x08).testBit 63 = v.getLsbD 63 := by
    rw [Nat.testBit_and, show (lqMask 0x08).testBit 63 = true by decide, Bool.and_true]
    rfl
  simp only [State.writeLqcfg, size, ctx, on]

include hm
/-- A launch queue is configured, or the write is counted as wrong. -/
theorem lqcfgWrite_cases :
    let n := bitsAt v.toNat 16 5
    let ok := 4 ≤ n ∧ n ≤ 16 ∧ s.assigned func (v.toNat % 2 ^ 16) = true
    ∃ t, exec (.lqcfgWrite func q v) s = .next t ∧
      (¬ok → (t.master func).lqbad = (s.master func).lqbad + 1 ∧ (t.master func).queues = (s.master func).queues) ∧
      (q < 8 → ok → (t.master func).queue q = { (s.master func).queue q with
        en := v.getLsbD 63, log2n := n, ctxid := v.toNat % 2 ^ 16, head := 0, tail := 0, bad := false, stale := false }) := by
  have runs : exec (.lqcfgWrite func q v) s = .next (s.writeLqcfg func q (v.toNat &&& lqMask 0x08)) := rfl
  refine ⟨_, runs, fun bad => ?_, fun hq ok => ?_⟩
  · rw [writeLqcfg_listed v, if_pos, master_modMaster s _ hm]
    · exact ⟨rfl, rfl⟩
    · simpa only [not_and_or, Nat.not_le, Bool.not_eq_true, Bool.not_eq_eq_eq_not, Bool.not_true] using bad
  · obtain ⟨low, high, act⟩ := ok
    have listed : ¬(bitsAt v.toNat 16 5 < 4 ∨ bitsAt v.toNat 16 5 > 16 ∨ (!s.assigned func (v.toNat % 2 ^ 16)) = true) := by
      simp only [act, Bool.not_true, Bool.false_eq_true, or_false]
      omega
    rw [writeLqcfg_listed v, if_neg listed, master_modMaster s _ hm, queue_setQueue _ _ hq]

include hq
/-- The tail of a launch queue moves on within its size, or the queue is marked. -/
theorem lqtailWrite_cases : let x := (s.master func).queue q
    let tail := v.toNat % 2 ^ 32
    let ahead (k : Nat) : Nat := (k + 2 ^ 32 - x.head) % 2 ^ 32
    ∃ t, exec (.lqtailWrite func q v) s = .next t ∧
      (ahead tail ≤ 2 ^ x.log2n → ahead x.tail ≤ ahead tail → (t.master func).queue q = { x with tail := tail }) ∧
      ((2 ^ x.log2n < ahead tail ∨ ahead tail < ahead x.tail) → (t.master func).queue q = { x with bad := true }) := by
  intro x tail ahead
  have listed : (v.toNat &&& lqMask 0x18) % 2 ^ 32 = v.toNat % 2 ^ 32 := by
    rw [← bitsAt_zero, ← bitsAt_zero]; exact bitsAt_and _ (by decide)
  have runs : exec (.lqtailWrite func q v) s = .next (s.modMaster func fun m => m.setQueue q
      (if (decide (ahead tail > 2 ^ x.log2n) || decide (ahead tail < ahead x.tail)) = true then { x with bad := true } else { x with tail := tail })) := by
    show Host.Outcome.next (s.writeLqtail func q (v.toNat &&& lqMask 0x18)) = _
    simp only [State.writeLqtail, listed]
    rfl
  refine ⟨_, runs, fun room on => ?_, fun bad => ?_⟩
  · rw [master_modMaster s _ hm, queue_setQueue _ _ hq, if_neg (by simp [room, on])]
  · rw [master_modMaster s _ hm, queue_setQueue _ _ hq, if_pos (by simpa using bad)]
end

/-! Host requests (R375). -/

section
variable {s : State} {func : Nat} {v : BitVec 64}

theorem hdoor_unassigned (no : s.assigned func (bitsAt v.toNat 32 16) = false) :
    exec (.hdoorWrite func v) s = .next (s.modMaster func fun m => { m with drop := m.drop + 1 }) := by
  show execHdoorWrite func v s = _
  simp only [execHdoorWrite, no, Bool.not_false, if_true]
  rfl
/-- Changes that agree on a hart are the same change of it. -/
theorem modHartAt_congr (s : State) (n : Nat) {f g : Hart → Hart} (h : f (s.hartAt n) = g (s.hartAt n)) : s.modHartAt n f = s.modHartAt n g :=
  congrArg (fun l => { s with harts := l }) (congrArg State.harts (State.modHart_congr { s with cur := n } f g h))
/-- HOST reaches a running hart, unless it is pending there already. -/
theorem hdoor_running {g : Gang} {n : Nat} (yes : s.assigned func (bitsAt v.toNat 32 16) = true)
    (gang : s.gangOf (bitsAt v.toNat 32 16) (bitsAt (s.master func).hdtgt.toNat 32 32) = some g) (going : g.ended = false)
    (named : bitsAt (s.master func).hdtgt.toNat 0 32 < g.nhart + g.taskBinds)
    (there : (s.harts.findIdx? fun h => h.ctx == bitsAt v.toNat 32 16 && h.gang == bitsAt (s.master func).hdtgt.toNat 32 32 &&
      h.hartid == bitsAt (s.master func).hdtgt.toNat 0 32) = some n) (running : (s.hartAt n).status = HartStatus.running) :
    exec (.hdoorWrite func v) s = .next (if (s.hartAt n).causes.any (·.1 == cHOST) then s.modMaster func fun m => { m with drop := m.drop + 1 }
      else s.modHartAt n fun h => { h with causes := h.causes ++ [(cHOST, BitVec.ofNat 64 (v.toNat % 2 ^ 32))] }) := by
  have here : (s.hartAt n).gone = false := by simp [Hart.gone, running]
  show execHdoorWrite func v s = _
  simp only [execHdoorWrite, yes, gang, there, going, Nat.not_le.2 named, here, running, Bool.not_true, Bool.false_eq_true, false_or, if_false,
    bitsAt_zero v.toNat, reduceCtorEq, false_and, ne_eq, not_false_eq_true, true_and, or_self]
  cases pending : (s.hartAt n).causes.any (·.1 == cHOST) with
  | true => rfl
  | false =>
    simp only [Bool.false_eq_true, if_false, State.postTo, running, reduceCtorEq]
    exact congrArg _ (modHartAt_congr s n (by simp only [Hart.post, pending, Bool.false_eq_true, if_false]))

theorem hpre_asks : exec (.hpreWrite func v) s = .next (if s.assigned func (v.toNat % 2 ^ 16) then
    (s.askContext (v.toNat % 2 ^ 16)).finishSave (v.toNat % 2 ^ 16) else s.modMaster func fun m => { m with drop := m.drop + 1 }) := by
  show execHpreWrite func v s = _
  simp only [execHpreWrite, bitsAt_zero]
  rfl
end

/-! Contexts (R376). -/

section
variable {s : State} {ctx : Nat} {v : BitVec 64}

theorem ctxcr_ignored (bad : bitsAt v.toNat 37 26 ≠ 0 ∨ v.toNat % 2 ^ 32 ≠ 0) : exec (.ctxcrWrite ctx v) s = .next s :=
  congrArg Host.Outcome.next (if_pos (by rwa [bitsAt_zero]))

variable (zero : bitsAt v.toNat 37 26 = 0) (low : v.toNat % 2 ^ 32 = 0)
include zero low
theorem ctxcr_listed : exec (.ctxcrWrite ctx v) s = .next (match s.ctxOf ctx with
    | none => if v.getLsbD 63 then { s with ctxs := s.ctxs ++ [Ctx.fresh ctx (bitsAt v.toNat 32 5)] } else s
    | some _ => s.writeCtxcr ctx v.toNat) := by
  show Host.Outcome.next (s.writeCtxcr ctx v.toNat) = _
  cases known : s.ctxOf ctx with
  | some c => rfl
  | none =>
    simp only [State.writeCtxcr, zero, bitsAt_zero, low, known, ne_eq, not_true_eq_false, or_self, if_false]
    rfl
theorem ctxcr_moves {c : Ctx} (valid : v.getLsbD 63 = true) (known : s.ctxOf ctx = some c) (other : c.func ≠ bitsAt v.toNat 32 5) :
    ∃ t, exec (.ctxcrWrite ctx v) s = .next t ∧ t.ctxOf ctx = some { c with func := bitsAt v.toNat 32 5 } ∧ t.harts = s.harts ∧ t.mem = s.mem := by
  have on : v.toNat.testBit 63 = true := valid
  have runs : exec (.ctxcrWrite ctx v) s = .next ((s.modCtx ctx fun c => { c with func := bitsAt v.toNat 32 5 }).modHost fun h =>
      { h with masters := (h.masters.zipIdx).map fun (m, i) =>
        if i = bitsAt v.toNat 32 5 ∨ i = 0 then m
        else { m with queues := m.queues.map fun q => if q.ctxid = ctx then { q with stale := true } else q } }) := by
    show Host.Outcome.next (s.writeCtxcr ctx v.toNat) = _
    simp only [State.writeCtxcr, zero, bitsAt_zero, low, known, on, other, ne_eq, not_true_eq_false, or_self, if_false, if_true]
  exact ⟨_, runs, ctxOf_modCtx _ known fun _ => rfl, rfl, rfl⟩
end

/-- Settles O46: an equation for each access and write of the host, and each of its conditions. -/
theorem hostResults : Obligations.HostResults := by
  unfold Obligations.HostResults
  refine fun s func hm => ⟨fun off n w disabled => hostBar2_disabled disabled off n w, fun off n w on refused => hostBar2_refused on hm refused w,
    fun off n w on inside test => hostBar2_tested on inside test w, fun off n on => hostBar2_reads on, fun off n v on inside free sound wf => ?write,
    fun q v hq => ?cfg, fun q v hq => lqtailWrite_cases hm hq v, fun v => hdoor_unassigned, fun v g n yes => hdoor_running yes,
    fun v => hpre_asks, fun ctx v => ⟨ctxcr_ignored, fun zero low valid => ⟨fun unknown => ?new, fun c => ctxcr_moves zero low valid⟩,
      fun zero low invalid unknown => ?none⟩⟩
  case write =>
    refine ⟨_, hostBar2_writes on inside free sound v, ?_, fun b other => State.readByte_writeN_ne s _ _ _ b wf other⟩
    rw [State.readN_writeN s _ _ _ wf, Nat.mod_mod]
  case cfg =>
    obtain ⟨t, runs, bad, ok⟩ := lqcfgWrite_cases (s := s) (q := q) hm v
    exact ⟨t, runs, bad, ok hq⟩
  case new => simp only [ctxcr_listed zero low, unknown, valid, if_true]
  case none => simp only [ctxcr_listed zero low, unknown, invalid, Bool.false_eq_true, if_false]

end Sys2Proof.Machine
end

section
/-! Errors, parity alerts, tests, lost routes (R378, R379, R392 to R395, R402). -/
namespace Sys2Proof.Machine

/-! Events (R402). -/

/-- What an entry in the log of a source adds to what was logged before. -/
structure State.Logs (s t : State) (source : Fin 85) (code : Nat) (detail : Word) : Prop where
  head : t.log.head? = some ⟨source, s.logNext[source], s.time, code, detail⟩
  next : t.logNext[source] = s.logNext[source] + 1
  signal : t.host.msix = s.host.msix ++ [(0, 10)]
theorem logEvent_logs (s : State) (source : Fin 85) (code : Nat) (detail : Word) :
    s.Logs (s.logEvent source.val code detail) source code detail := by
  constructor <;> simp [State.logEvent]
theorem logOpen_logs (s : State) {n : Nat} (source : Fin 85) (kind : Nat) (named : source.val = n) :
    s.Logs (s.logOpen n kind) source (Config.eventCode kind).toNat (Config.eventDetail kind) :=
  named ▸ logEvent_logs s source _ _
/-- A change of the dies before it leaves the entry as it is. -/
theorem State.Logs.of_modDie {s t : State} {d : Nat} {f : Die → Die} {source : Fin 85} {code : Nat} {detail : Word}
    (h : (s.modDie d f).Logs t source code detail) : s.Logs t source code detail := by
  obtain ⟨head, next, signal⟩ := h
  rw [modDie_frame] at head next signal
  exact ⟨head, next, signal⟩
theorem corrected_logs {s : State} {u : ErrUnit} {d : Nat} {source : Fin 85} (die : unitDie u = some d) (named : source.val = logSource u) :
    s.Logs (s.corrected u) source (Config.eventCode evError).toNat (Config.eventDetail evError) := by
  have runs : s.corrected u = (s.addCount d 0 32).logOpen (logSource u) evError := by simp only [State.corrected, die]; rfl
  rw [runs]
  exact (logOpen_logs (s.addCount d 0 32) source evError named).of_modDie

/-! The counts of a die (R394). -/

theorem corrected_counts (s : State) {u : ErrUnit} {d : Nat} (die : unitDie u = some d) (hd : d < 16) :
    ((s.corrected u).die d).rascnt.toNat % 2 ^ 32 = ((s.die d).rascnt.toNat + 1) % 2 ^ 32 ∧
      ((s.corrected u).die d).rascnt.toNat / 2 ^ 32 = (s.die d).rascnt.toNat / 2 ^ 32 := by
  rw [corrected_dies s u d die hd, putBits]
  have := (s.die d).rascnt.isLt
  omega
theorem addCount_lasting (s : State) {d : Nat} (hd : d < 16) :
    ((s.addCount d 48 16).die d).rascnt.toNat / 2 ^ 48 = ((s.die d).rascnt.toNat / 2 ^ 48 + 1) % 2 ^ 16 := by
  have counted : ((s.addCount d 48 16).die d).rascnt.toNat =
      putBits (s.die d).rascnt.toNat 48 16 ((s.die d).rascnt.toNat / 2 ^ 48 + 1) % 2 ^ 64 := by
    simp [State.die, State.addCount, State.modDie, hd]
  rw [counted, putBits]
  have := (s.die d).rascnt.isLt
  omega
theorem countFault_counts (s : State) {u : ErrUnit} {d : Nat} (event : Bool) (die : unitDie u = some d) (hd : d < 16) :
    ((s.countFault u event).die d).rascnt.toNat / 2 ^ 48 = ((s.die d).rascnt.toNat / 2 ^ 48 + 1) % 2 ^ 16 := by
  rw [← addCount_lasting s hd]
  have same : (s.countFault u event).dies = (s.addCount d 48 16).dies := by
    cases event with
    | false => simp only [State.countFault, die, Bool.false_eq_true, if_false]
    | true => simp only [State.countFault, die, if_true]; exact countError_dies ..
  rw [die_of_dies same]

/-! What harvesting leaves of the slots and the counts (R395). -/

/-- What a write of memory leaves of the dies and of the slots of the harts. -/
structure State.SameSlots (s t : State) : Prop where
  dies : t.dies = s.dies
  pkg : t.pkg = s.pkg
  harvested : t.harvested = s.harvested
  length : t.harts.length = s.harts.length
  onSlot : ∀ n, (t.hartAt n).onSlot = (s.hartAt n).onSlot
  place : ∀ n, (t.hartAt n).place = (s.hartAt n).place
theorem State.SameSlots.refl (s : State) : s.SameSlots s := ⟨rfl, rfl, rfl, rfl, fun _ => rfl, fun _ => rfl⟩
theorem State.SameSlots.trans {s t u : State} (h : s.SameSlots t) (k : t.SameSlots u) : s.SameSlots u where
  dies := k.dies.trans h.dies
  pkg := k.pkg.trans h.pkg
  harvested := k.harvested.trans h.harvested
  length := k.length.trans h.length
  onSlot n := (k.onSlot n).trans (h.onSlot n)
  place n := (k.place n).trans (h.place n)
theorem writeN_sameSlots (s : State) (pa v n : Nat) : s.SameSlots (s.writeN pa v n) where
  dies := by rw [State.writeN_frame]
  pkg := by rw [State.writeN_frame]
  harvested := by rw [State.writeN_frame]
  length := State.writeN_length ..
  onSlot k := by rw [State.writeN_hartAt, Hart.wake_eq]; rfl
  place k := by rw [State.writeN_hartAt, Hart.wake_eq]
theorem clearEntries_sameSlots (s : State) (c : Ctx) (d : Nat) : s.SameSlots (s.clearEntries c d) := by
  have written := foldl_keeps (P := s.SameSlots) (f := fun (s : State) (e : Nat × (Nat × Nat)) => s.writeN (c.vdtbase.toNat + 64 + 8 * e.1) 0 8)
    ((s.block c.vdtbase.toNat).dies.filter fun e => e.2 == (s.pkg, d)) s (.refl s) fun t e same => same.trans (writeN_sameSlots t _ _ _)
  exact written.trans ⟨rfl, rfl, rfl, rfl, fun _ => rfl, fun _ => rfl⟩

/-- The state of a die that is about to be harvested: the contexts that hold state there are marked, and their entries cleared. -/
def State.forsaken (s : State) (d : Nat) : State :=
  let s := s.breakCtxs (· == (s.pkg, d)) fun pa => pkgOf pa == s.pkg && (homeOf (s.carved s.pkg) (localOf pa)).die == some d
  s.ctxs.foldl (fun (s : State) c => s.clearEntries c d) s
theorem forsaken_sameSlots (s : State) (d : Nat) : s.SameSlots (s.forsaken d) :=
  foldl_keeps (P := s.SameSlots) (f := fun (s : State) (c : Ctx) => s.clearEntries c d) _ _ ⟨rfl, rfl, rfl, rfl, fun _ => rfl, fun _ => rfl⟩
    fun t c same => same.trans (clearEntries_sameSlots t c d)
theorem harvest_dies (s : State) (d : Nat) : (s.harvest d).dies = s.dies := by
  unfold State.harvest
  split
  · rfl
  · exact (forsaken_sameSlots s d).dies
/-- A die that is harvested stands so, and the slots there halt. -/
theorem harvest_halts {s : State} {d : Nat} (fresh : (s.pkg, d) ∉ s.harvested) : (s.pkg, d) ∈ (s.harvest d).harvested ∧
    ∀ n, n < s.harts.length → (s.hartAt n).onSlot = true → (s.hartAt n).place.die = d →
      ((s.harvest d).hartAt n).status = HartStatus.halted := by
  have same := forsaken_sameSlots s d
  have skip : s.harvested.contains (s.pkg, d) = false := by simpa using fresh
  have gone : (s.harvest d).harvested = (s.forsaken d).harvested ++ [((s.forsaken d).pkg, d)] := by
    unfold State.harvest
    rw [if_neg (by simp [fresh])]
    rfl
  have harts : (s.harvest d).harts = (s.forsaken d).harts.map fun (h : Hart) =>
      if h.onSlot && h.place.die == d then { h with status := HartStatus.halted } else h := by
    unfold State.harvest
    rw [if_neg (by simp [fresh])]
    rfl
  refine ⟨by rw [gone, same.pkg]; simp, fun n bound on here => ?_⟩
  rw [State.hartAt, harts]
  show (({ s.forsaken d with harts := (s.forsaken d).harts.map _ } : State).hartAt n).status = _
  rw [hartAt_map _ _ (by rw [same.length]; exact bound)]
  have struck : (((s.forsaken d).hartAt n).onSlot && ((s.forsaken d).hartAt n).place.die == d) = true := by
    rw [same.onSlot, same.place, on, here]; simp
  rw [if_pos struck]

/-! Lasting faults (R395). -/

/-- Whether a unit is a channel of a die. -/
def isChannelOf (d : Nat) : ErrUnit → Bool
  | .hbmChannel e _ => e == d
  | _ => false
/-- The state in which a unit stands fenced off. -/
def State.fencing (s : State) (u : ErrUnit) (event : Bool) : State :=
  let s := s.countFault u event
  { s with
    fenced := s.fenced ++ [u], underTest := s.underTest.filter (· != u), transients := s.transients.filter (·.unit != u)
    alerts := s.alerts.filter fun x => u != .hbmChannel x.1 x.2.1 }
theorem countFault_frame (s : State) (u : ErrUnit) (event : Bool) : s.countFault u event = { s with
    dies := (s.countFault u event).dies, log := (s.countFault u event).log, logNext := (s.countFault u event).logNext
    host := (s.countFault u event).host } := by
  unfold State.countFault
  split
  · split
    · exact countError_frame ..
    · rw [State.addCount, modDie_frame]
  · split
    · rw [logOpen_frame]
    · rfl

section
variable {s : State} {u : ErrUnit} {event : Bool}

/-- A unit that is disabled, or whose die is harvested, reports no further fault. -/
theorem lasting_skips (skip : ((!isSpared u && s.fenced.contains u) || (unitDie u).any fun d => s.harvested.contains (s.pkg, d)) = true) :
    s.lasting u event = s := if_pos skip
variable (go : ((!isSpared u && s.fenced.contains u) || (unitDie u).any fun d => s.harvested.contains (s.pkg, d)) = false)
include go
theorem lasting_fences : s.lasting u event = match u with
    | .hbmChannel d _ =>
      if ((s.fencing u event).fenced.filter (isChannelOf d)).length ≤ Config.channelSpares.toNat then s.fencing u event else (s.fencing u event).harvest d
    | .die d => (s.fencing u event).harvest d
    | .port _ => { s.fencing u event with routing := (s.fencing u event).routing + 1 }
    | _ => s.fencing u event := by
  unfold State.lasting
  rw [if_neg (by rw [go]; exact Bool.false_ne_true)]
  cases u <;> rfl
theorem lasting_dies : (s.lasting u event).dies = (s.countFault u event).dies := by
  rw [lasting_fences go]
  cases u with
  | hbmChannel d ch =>
    dsimp only
    split
    · rfl
    · exact harvest_dies _ _
  | die d => exact harvest_dies _ _
  | port n => rfl
  | sramRow d n => rfl
  | hbmRow d n => rfl
  | laneGroup c n => rfl
  | ucie n => rfl
end

/-- In either case the unit is under test no more. -/
theorem lasting_ends_tests (s : State) (u : ErrUnit) (event : Bool) (over_ : u ∉ s.underTest) : u ∉ (s.lasting u event).underTest := by
  cases skip : ((!isSpared u && s.fenced.contains u) || (unitDie u).any fun d => s.harvested.contains (s.pkg, d)) with
  | true => rwa [lasting_skips skip]
  | false => rw [(lasting_fenced s u event skip).2]; simp

/-- A die that is not harvested fences its units. -/
theorem fences_of_unharvested {s : State} {u : ErrUnit} (stands : ∀ d, unitDie u = some d → (s.pkg, d) ∉ s.harvested) :
    ((unitDie u).any fun d => s.harvested.contains (s.pkg, d)) = false := by
  rw [Option.any_eq_false]
  exact fun d die => by simpa using stands d die

/-- A lasting fault leaves its unit fenced off, whether it is new or not. -/
theorem fenced_of_unharvested {s : State} {u : ErrUnit} {event : Bool} (stands : ∀ d, unitDie u = some d → (s.pkg, d) ∉ s.harvested) :
    u ∈ (s.lasting u event).fenced := by
  cases done : !isSpared u && s.fenced.contains u with
  | true =>
    rw [lasting_skips (by rw [done]; rfl)]
    exact List.contains_iff_mem.1 (Bool.and_eq_true_iff.1 done).2
  | false => exact (lasting_fenced s u event (Bool.or_eq_false_iff.2 ⟨done, fences_of_unharvested stands⟩)).1

/-! Parity alerts (R393). -/

section
variable {s : State} {die ch : Nat} {onAddress : Bool}

/-- The alerts within one replay window, the one that has just come among them. -/
def State.alerting (s : State) (die ch : Nat) : State :=
  { s.corrected (.hbmChannel die ch) with
    alerts := (die, ch, s.time) :: s.alerts.filter fun x => decide (s.time ≤ x.2.2 + Config.replayWindow.toNat) }
/-- The earlier alerts of a channel within the window. -/
def State.recentAlerts (s : State) (die ch : Nat) : Nat :=
  (s.alerts.filter fun x => decide (s.time ≤ x.2.2 + Config.replayWindow.toNat) && (x.1 == die && x.2.1 == ch)).length
theorem hbmParityAlert_counts : exec (.hbmParityAlert die ch onAddress) s =
    .next (if 3 ≤ s.recentAlerts die ch + 1 then (s.alerting die ch).lasting (.hbmChannel die ch) false
      else (s.alerting die ch).beginTest (.hbmChannel die ch)) := by
  have frame : s.countCorr die (20 + die) = _ := corrected_frame s (.hbmChannel die ch)
  have count : (((die, ch, s.time) :: s.alerts.filter fun x => decide (s.time ≤ x.2.2 + Config.replayWindow.toNat)).filter
      fun x => x.1 == die && x.2.1 == ch).length = s.recentAlerts die ch + 1 := by
    simp [State.recentAlerts, List.filter_filter, Bool.and_comm]
  have time : (s.countCorr die (20 + die)).time = s.time := by rw [frame]; rfl
  have alerts : (s.countCorr die (20 + die)).alerts = s.alerts := by rw [frame]
  show execHbmParityAlert die ch onAddress s = _
  simp only [execHbmParityAlert, time, alerts, count]
  rfl

theorem alerting_frame (s : State) (die ch : Nat) : (s.alerting die ch).mem = s.mem ∧ (s.alerting die ch).harts = s.harts ∧
    (s.alerting die ch).underTest = s.underTest ∧ (s.alerting die ch).harvested = s.harvested ∧ (s.alerting die ch).pkg = s.pkg ∧
    (s.alerting die ch).fenced = s.fenced := by
  unfold State.alerting
  rw [corrected_frame]
  exact ⟨rfl, rfl, rfl, rfl, rfl, rfl⟩
theorem alerting_counts (s : State) {die : Nat} (ch : Nat) (hd : die < 16) :
    ((s.alerting die ch).die die).rascnt.toNat % 2 ^ 32 = ((s.die die).rascnt.toNat + 1) % 2 ^ 32 ∧
      ((s.alerting die ch).die die).rascnt.toNat / 2 ^ 32 = (s.die die).rascnt.toNat / 2 ^ 32 :=
  corrected_counts s (u := .hbmChannel die ch) rfl hd

theorem parity_replays (hd : die < 16) (few : s.recentAlerts die ch < 2) : ∃ t, exec (.hbmParityAlert die ch onAddress) s = .next t ∧
    t.underTest = s.underTest ++ [.hbmChannel die ch] ∧ t.mem = s.mem ∧ t.harts = s.harts ∧
    (t.die die).rascnt.toNat % 2 ^ 32 = ((s.die die).rascnt.toNat + 1) % 2 ^ 32 := by
  obtain ⟨mem, harts, tests, -, -, -⟩ := alerting_frame s die ch
  refine ⟨(s.alerting die ch).beginTest (.hbmChannel die ch), ?_, ?_, mem, harts, (alerting_counts s ch hd).1⟩
  · rw [hbmParityAlert_counts, if_neg (by omega)]
  · rw [State.beginTest, tests]

/-- The third alert within a window fences the channel off; a die without a spare left is harvested. -/
theorem parity_fences (hd : die < 16) (many : 2 ≤ s.recentAlerts die ch) (stands : (s.pkg, die) ∉ s.harvested) : ∃ t,
    exec (.hbmParityAlert die ch onAddress) s = .next t ∧ .hbmChannel die ch ∈ t.fenced ∧
    t.underTest = s.underTest.filter (· != .hbmChannel die ch) ∧
    (t.die die).rascnt.toNat / 2 ^ 48 = ((s.die die).rascnt.toNat / 2 ^ 48 + 1) % 2 ^ 16 ∧
    ((s.fenced.filter (isChannelOf die)).length < Config.channelSpares.toNat → t.mem = s.mem ∧ t.harts = s.harts ∧ t.harvested = s.harvested) ∧
    (Config.channelSpares.toNat ≤ (s.fenced.filter (isChannelOf die)).length → (s.pkg, die) ∈ t.harvested ∧
      ∀ n, n < s.harts.length → (s.hartAt n).onSlot = true → (s.hartAt n).place.die = die → (t.hartAt n).status = HartStatus.halted) := by
  obtain ⟨mem, harts, tests, harvested, pkg, fenced⟩ := alerting_frame s die ch
  have go : ((!isSpared (.hbmChannel die ch) && (s.alerting die ch).fenced.contains (.hbmChannel die ch)) ||
      (unitDie (.hbmChannel die ch)).any fun d => (s.alerting die ch).harvested.contains ((s.alerting die ch).pkg, d)) = false := by
    simp [isSpared, unitDie, harvested, pkg, stands]
  let t := (s.alerting die ch).fencing (.hbmChannel die ch) false
  have frame := countFault_frame (s.alerting die ch) (.hbmChannel die ch) false
  have t_mem : t.mem = s.mem := by show State.mem (State.countFault _ _ _) = _; rw [frame]; exact mem
  have t_harts : t.harts = s.harts := by show State.harts (State.countFault _ _ _) = _; rw [frame]; exact harts
  have t_harvested : t.harvested = s.harvested := by show State.harvested (State.countFault _ _ _) = _; rw [frame]; exact harvested
  have t_pkg : t.pkg = s.pkg := by show State.pkg (State.countFault _ _ _) = _; rw [frame]; exact pkg
  have used : (t.fenced.filter (isChannelOf die)).length = (s.fenced.filter (isChannelOf die)).length + 1 := by
    have added : t.fenced = s.fenced ++ [.hbmChannel die ch] := by
      show State.fenced (State.countFault _ _ _) ++ _ = _
      rw [frame, ← fenced]
    rw [added]; simp [isChannelOf]
  have handled : (s.alerting die ch).lasting (.hbmChannel die ch) false =
      if (t.fenced.filter (isChannelOf die)).length ≤ Config.channelSpares.toNat then t else t.harvest die := lasting_fences go
  obtain ⟨fences, ends⟩ := lasting_fenced (s.alerting die ch) (.hbmChannel die ch) false go
  refine ⟨(s.alerting die ch).lasting (.hbmChannel die ch) false, ?_, fences, by rw [ends, tests], ?_, fun room => ?_, fun spent => ?_⟩
  · rw [hbmParityAlert_counts, if_pos (by omega)]
  · have counted := countFault_counts (s.alerting die ch) (u := .hbmChannel die ch) false rfl hd
    have before := (alerting_counts s ch hd).2
    rw [die_of_dies (lasting_dies go), counted]
    omega
  · rw [handled, if_pos (by omega)]
    exact ⟨t_mem, t_harts, t_harvested⟩
  · rw [handled, if_neg (by omega)]
    obtain ⟨mem, halts⟩ := harvest_halts (s := t) (d := die) (by rw [t_pkg, t_harvested]; exact stands)
    refine ⟨t_pkg ▸ mem, fun n bound on here => ?_⟩
    have same : t.hartAt n = s.hartAt n := by rw [State.hartAt, t_harts, State.hartAt]
    exact halts n (by rw [t_harts]; exact bound) (by rw [same]; exact on) (by rw [same]; exact here)
end

/-! Tests (R395). -/

section
variable {s : State} {u : ErrUnit}

/-- The state in which the test of a unit has ended. -/
def State.tested (s : State) (u : ErrUnit) : State := { s with underTest := s.underTest.filter (· != u) }
theorem tested_ends (s : State) (u : ErrUnit) : u ∉ (s.tested u).underTest := by simp [State.tested]

theorem selfTest_idle (idle : u ∉ s.underTest) (pass : Bool) : exec (.selfTestComplete u pass) s = .next s :=
  if_pos (List.count_eq_zero.2 idle)

variable (running : u ∈ s.underTest)
include running
theorem selfTest_fails : exec (.selfTestComplete u false) s = .next ((s.tested u).lasting u true) := by
  have some_ : ¬s.underTest.count u = 0 := fun none_ => List.count_eq_zero.1 none_ running
  show execSelfTestComplete u false s = _
  simp only [execSelfTestComplete, some_, if_false, Bool.not_false, if_true]
  rfl

/-- The state in which a test has ended as passed: the errors it held count as transient (R395). -/
def State.passed (s : State) (u : ErrUnit) : State :=
  { s.tested u with transients :=
      List.replicate (s.underTest.count u) ⟨u, s.time⟩ ++ s.transients.filter fun t => decide (s.time < t.at_ + transientSpan) }
theorem selfTest_passes : exec (.selfTestComplete u true) s =
    .next (if 16 ≤ (s.transients.filter fun x => x.unit == u && decide (s.time < x.at_ + 86400000000000)).length + s.underTest.count u
      then (s.passed u).lasting u true else s.passed u) := by
  have some_ : ¬s.underTest.count u = 0 := fun none_ => List.count_eq_zero.1 none_ running
  have joined : ((List.replicate (s.underTest.count u) (⟨u, s.time⟩ : Transient) ++
      s.transients.filter fun t => decide (s.time < t.at_ + transientSpan)).filter (·.unit == u)).length =
      (s.transients.filter fun x => x.unit == u && decide (s.time < x.at_ + 86400000000000)).length + s.underTest.count u := by
    simp [List.filter_append, List.filter_filter, Nat.add_comm]
  rw [← joined]
  show execSelfTestComplete u true s = _
  simp only [execSelfTestComplete, some_, if_false, Bool.not_true, Bool.false_eq_true]
  rfl
end

/-! Lost routes (R379). -/

section
variable {s : State} (quiet : ∀ h ∈ s.harts, h.pend = [])
include quiet

theorem pend_of_quiet (n : Nat) : (s.hartAt n).pend = [] := by
  by_cases bound : n < s.harts.length
  · rw [State.hartAt, List.getD_eq_getElem _ _ bound]
    exact quiet _ (List.getElem_mem bound)
  · rw [State.hartAt, List.getD_eq_default _ _ (Nat.not_lt.1 bound)]
    rfl
/-- With nothing in flight a lost route is noted alone. -/
theorem cutRoute_quiet (r : Nat × Nat) : s.cutRoute r = { s with lostRoutes := s.lostRoutes ++ [r] } := by
  have lands (t : State → Nat → Access → Bool) (l : List Nat) : l.foldl (fun (s : State) n => s.performSome n (t s n)) s = s := by
    refine foldl_keeps (P := (· = s)) l s rfl fun u n same => ?_
    subst same
    simp [State.performSome, pend_of_quiet quiet n, needed, State.performAll]
  let cut : State := { s with lostRoutes := s.lostRoutes ++ [r] }
  have stands (l : List Nat) : l.foldl State.failFlight cut = cut := by
    refine foldl_keeps (P := (· = cut)) l cut rfl fun u n same => ?_
    subst same
    have nothing : ((cut.hartAt n).inFlight) = none := by
      have none_ : (cut.hartAt n).pend = [] := pend_of_quiet quiet n
      unfold Hart.inFlight
      split
      · rw [none_]; rfl
      · rfl
    simp only [State.failFlight, nothing]
  calc s.cutRoute r
      = (List.range s.harts.length).foldl State.failFlight cut := by
        unfold State.cutRoute
        dsimp only
        rw [lands fun s n a => a.returns && a.places.any (fun p => cut.lost p.2.1) && ((s.hartAt n).inFlight.map (·.2)) != some a]
    _ = cut := stands _

theorem routeLost_far {far : Nat} (other : far ≠ s.pkg) : ∃ t, exec (.routeLost s.pkg far) s = .next t ∧
    s.Logs t 84 (Config.eventCode evRoute).toNat (Config.eventDetail evRoute) ∧ t.mem = s.mem ∧ t.harts = s.harts ∧
    ∀ a, pkgOf a = far → t.lost a = true := by
  let u : State := State.breakCtxs { s with lostRoutes := s.lostRoutes ++ [(s.pkg, far)] } (·.1 == far) (pkgOf · == far)
  have runs : exec (.routeLost s.pkg far) s = .next (u.logOpen controllerLog evRoute) := by
    show execRouteLost s.pkg far s = _
    simp only [execRouteLost, cutRoute_quiet quiet, ne_eq, not_true_eq_false, false_and, if_false, if_true]
    rfl
  obtain ⟨head, next, signal⟩ := logOpen_logs u 84 evRoute rfl
  refine ⟨_, runs, ⟨head, next, signal⟩, ?_, ?_, fun a there => ?_⟩
  · rw [logOpen_frame]; rfl
  · rw [logOpen_frame]; rfl
  · rw [logOpen_frame]
    show (pkgOf a != s.pkg && (s.lostRoutes ++ [(s.pkg, far)]).any fun r => r == (s.pkg, pkgOf a) || r == (pkgOf a, s.pkg)) = true
    simp [there, other]
theorem routeLost_between {p q : Nat} (hp : p ≠ s.pkg) (hq : q ≠ s.pkg) :
    exec (.routeLost p q) s = .next { s with lostRoutes := s.lostRoutes ++ [(p, q)] } := by
  show execRouteLost p q s = _
  simp only [execRouteLost, cutRoute_quiet quiet]
  exact if_pos ⟨hp, hq⟩
end

/-! Errors of units (R392). -/

section
variable {s : State} {u : ErrUnit} {source : Fin 85}

theorem linkFlitResend_other (link : isLink u = false) : exec (.linkFlitResend u) s = .next s :=
  congrArg Host.Outcome.next (if_neg (by rw [link]; exact Bool.false_ne_true))
theorem linkFlitResend_link (link : isLink u = true) : exec (.linkFlitResend u) s = .next ((s.corrected u).beginTest u) :=
  congrArg Host.Outcome.next (if_pos link)
/-- A link of no die has its event alone. -/
theorem corrected_undied (die : unitDie u = none) : s.corrected u = s.logOpen (logSource u) evLink := by
  simp only [State.corrected, die]
end

/-- Settles O48: each event by its cases; what a fault leaves by `lasting_fences`, and what a harvest does by `harvest_halts`. -/
theorem rasResults : Obligations.RasResults := by
  unfold Obligations.RasResults
  refine fun s => ⟨fun source code detail => ?log, fun u d link _ => linkFlitResend_link link, fun u source link die named => ?link,
    fun u => linkFlitResend_other, fun u d source die hd named => ?error, fun die ch onAddress hd => ⟨parity_replays hd, parity_fences hd⟩,
    fun u pass idle => selfTest_idle idle pass, fun u running stands => ?fails, fun u running => ?passes,
    fun m die hd => ⟨fun owner => ?clear, fun v other => congrArg Host.Outcome.next (if_neg other), fun v owner nonzero => ?keep⟩, fun far other quiet => ?route,
    fun p q hp hq quiet => routeLost_between quiet hp hq⟩
  case log =>
    obtain ⟨head, next, signal⟩ := logEvent_logs s source code detail
    exact ⟨head, next, signal⟩
  case link =>
    obtain ⟨head, next, signal⟩ := logOpen_logs s source evLink named
    rw [← corrected_undied die] at head next signal
    refine ⟨_, linkFlitResend_link link, ?_, ⟨head, next, signal⟩, ?_, ?_, ?_⟩
    all_goals rw [corrected_undied die, logOpen_frame]; rfl
  case error =>
    obtain ⟨head, next, signal⟩ := corrected_logs (s := s) die named
    refine ⟨(s.corrected u).beginTest u, rfl, ?_, ?_, ?_, ⟨head, next, signal⟩, corrected_counts s die hd⟩
    all_goals rw [corrected_frame]; rfl
  case fails =>
    refine ⟨_, selfTest_fails running, lasting_ends_tests _ u true (tested_ends s u), ?_, fun d die hd again => ?_⟩
    · exact fenced_of_unharvested (s := s.tested u) stands
    · have go : ((!isSpared u && (s.tested u).fenced.contains u) ||
          (unitDie u).any fun d => (s.tested u).harvested.contains ((s.tested u).pkg, d)) = false := by
        refine Bool.or_eq_false_iff.2 ⟨?_, fences_of_unharvested (s := s.tested u) stands⟩
        obtain spared | fresh := again
        · simp [spared]
        · simp [State.tested, fresh]
      rw [die_of_dies (lasting_dies go)]
      exact countFault_counts (s.tested u) true die hd
  case passes =>
    refine ⟨_, selfTest_passes running, ?_, fun few => ?_, fun many stands => ?_⟩
    · split
      · exact lasting_ends_tests _ u true (tested_ends s u)
      · exact tested_ends s u
    · rw [if_neg (Nat.not_le.2 few)]
      exact ⟨rfl, rfl, rfl⟩
    · rw [if_pos many]
      exact fenced_of_unharvested (s := s.passed u) stands
  case clear => exact congrArg Host.Outcome.next ((if_pos owner).trans (if_pos rfl))
  case keep => exact congrArg Host.Outcome.next ((if_pos owner).trans (if_neg nonzero))
  case route =>
    obtain ⟨t, runs, ⟨head, next, signal⟩, rest⟩ := routeLost_far quiet other
    exact ⟨t, runs, ⟨head, next, signal⟩, rest⟩

end Sys2Proof.Machine
end

section
/-! Collectives are read, written and fail (R386, R388 to R390). -/
namespace Sys2Proof.Machine

/-- Where nothing is under test no engine waits for a bank (R395). -/
theorem agentHeld_untested {s : State} (untested : s.underTest = []) (ag : Agent) (l : List (Nat × Nat)) : s.agentHeld ag l = false := by
  simp [State.agentHeld, State.engHeld, untested]

/-! Events of a rank that has no call. -/

section
variable {s : State} {n rank : Nat}

theorem collSent_absent (absent : s.coll n = none ∨ ∃ c, s.coll n = some c ∧ c.call rank = none) : exec (.collSent n rank) s = .next s := by
  show execCollSent n rank s = _
  obtain none_ | ⟨c, found, none_⟩ := absent
  · simp only [execCollSent, none_]
  · simp only [execCollSent, found, none_]
theorem collDone_absent (absent : s.coll n = none ∨ ∃ c, s.coll n = some c ∧ c.call rank = none) : exec (.collDone n rank) s = .next s := by
  show execCollDone n rank s = _
  obtain none_ | ⟨c, found, none_⟩ := absent
  · simp only [execCollDone, none_]
  · simp only [execCollDone, found, none_]
theorem collFail_absent (absent : s.coll n = none ∨ ∃ c, s.coll n = some c ∧ c.call rank = none) (code : BitVec 8) :
    exec (.collFail n rank code) s = .next s := by
  show execCollFail n rank code s = _
  obtain none_ | ⟨c, found, none_⟩ := absent
  · simp only [execCollFail, none_]
  · simp only [execCollFail, found, none_]
end

section
variable {s : State} {n rank : Nat} {c : Coll} {x : CollCall} (found : s.coll n = some c) (call : c.call rank = some x)
include found call

/-- Once all of a rank's `SEND` has been read its data stand, and `SENT` is set (R389). -/
theorem collSent_sends {l : List (Nat × Nat)} (untested : s.underTest = []) (going : c.code = none) (unread : x.data = none)
    (good : collBad x.words c.vds.length = false) (sound : s.collSpoilt x c.vds.length = false) (reached : s.collLost x c.vds.length = false)
    (mapped : s.hbmRange x.agent .load x.b.send (x.b.sendBytes c.vds.length) = some l) :
    let now := l.foldr (fun (p : Nat × Nat) acc => s.readN p.1 p.2 + 2 ^ (8 * p.2) * acc) 0
    let data := x.early.foldl (fun v u => putBits v (64 * u.1) 64 u.2) now % 2 ^ (8 * x.b.sendBytes c.vds.length)
    exec (.collSent n rank) s = .next ((s.modCall n rank fun x => { x with data := some data }).publish x.agent (x.block + 56) (2 ^ 61)) := by
  show execCollSent n rank s = _
  simp only [execCollSent, found, call, going, unread, agentHeld_untested untested, good, sound, reached, State.collRange, mapped,
    Option.isSome_none, Bool.false_eq_true, or_self, if_false]

/-- Once every rank's data stand and nothing is wrong, this rank's end is published (R389). -/
theorem collDone_ends (untested : s.underTest = []) (fine : s.collCodes c = [])
    (all_ : ∀ r, r < c.vds.length → s.collRemote c r = true ∨ ∃ y ∈ c.calls, y.rank = r ∧ y.data.isSome = true) :
    let f := s.collFlags c x.b
    let u := (((c.calls.filter (!·.ended)).foldl (fun (s : State) y => s.collReceive c y) f.2).unmark (.coll c.id rank)).publish x.agent
      (x.block + 56) (2 ^ 63 + 2 ^ 61 + f.1)
    exec (.collDone n rank) s = .next ((if x.b.ctr = 0 then u else (u.bumpCtr x.agent x.b.ctr).getD u).endCall c rank) := by
  have ready : ((List.range c.vds.length).all fun r => s.collRemote c r || c.calls.any fun y => y.rank == r && y.data.isSome) = true := by
    rw [List.all_eq_true]
    intro r mem
    simpa using all_ r (List.mem_range.1 mem)
  have free : (c.calls.any fun y => s.agentHeld y.agent
      [(y.b.recv, y.b.recvBytes c.vds.length), (y.block + 56, 8), (y.b.ctr, if y.b.ctr = 0 then 0 else 8)]) = false :=
    List.any_eq_false.2 fun y _ => by rw [agentHeld_untested untested]; exact Bool.false_ne_true
  show execCollDone n rank s = _
  simp only [execCollDone, found, call, fine, ready, free, List.isEmpty_nil, Bool.not_true, Bool.or_self, Bool.false_eq_true, if_false]
theorem collDone_wrong (wrong : ∃ k, k ∈ s.collCodes c) : exec (.collDone n rank) s = .next s := by
  obtain ⟨k, mem⟩ := wrong
  have some_ : (s.collCodes c).isEmpty = false := List.isEmpty_eq_false_iff_exists_mem.2 ⟨k, mem⟩
  show execCollDone n rank s = _
  simp only [execCollDone, found, call, some_, Bool.not_false, Bool.true_or, if_true]

variable {code : BitVec 8}
theorem collFail_waits (no : s.collMayFail c code.toNat = false) : exec (.collFail n rank code) s = .next s := by
  show execCollFail n rank code s = _
  simp only [execCollFail, found, call, no, Bool.not_false, true_or, if_true]
/-- A collective fails on a rank with a code that holds of it, and tells the rank's hart (R390). -/
theorem collFail_fails (untested : s.underTest = []) (may : s.collMayFail c code.toNat = true) :
    let t : State := { s with colls := s.colls.map fun y => if y.id = n then { y with code := some code.toNat } else y }
    let u := (t.unmark (.coll c.id rank)).publish x.agent (x.block + 56)
      (2 ^ 62 + code.toNat * 2 ^ 48 + (if x.data.isSome then 2 ^ 61 else 0))
    exec (.collFail n rank code) s = .next ((u.deliverEngine x.agent x.block).endCall c rank) := by
  show execCollFail n rank code s = _
  simp only [execCollFail, found, call, may, agentHeld_untested untested, Bool.not_true, Bool.false_eq_true, or_self, if_false]
end

/-- The codes a collective may fail with: any that holds, or, in a deterministic gang, the lowest once every rank has joined (log 37). -/
theorem collMayFail_iff {s : State} {c : Coll} {code : Nat} : s.collMayFail c code = true ↔
    if c.code = none ∧ c.calls.any (·.agent.det) = true then
      (s.collCodes c).head? = some code ∧ ∀ r, r < c.vds.length → s.collRemote c r = true ∨ ∃ y ∈ c.calls, y.rank = r
    else code ∈ s.collCodes c := by
  unfold State.collMayFail
  by_cases strict : c.code = none ∧ c.calls.any (·.agent.det) = true
  · simp [strict.1, strict.2]
  · have loose : (c.code.isNone && c.calls.any (·.agent.det)) = false := by
      rw [← Bool.not_eq_true, Bool.and_eq_true, Option.isNone_iff_eq_none]; exact strict
    rw [if_neg strict]
    simp [loose]

/-! What a rank receives (R386). -/

theorem modCall_readN (s : State) (n rank : Nat) (g : CollCall → CollCall) (pa k : Nat) : (s.modCall n rank g).readN pa k = s.readN pa k :=
  readN_congr (s := s) (t := s.modCall n rank g) (fun _ => rfl) pa k
theorem collReceive_writes {s : State} {c : Coll} {x : CollCall} {va m v pa : Nat} (wf : Mem.wf s.mem = true) (first : x.got = false)
    (none_ : x.put = []) (part : c.parts x = [(va, m, some v)]) (mapped : s.hbmRange x.agent .store va m = some [(pa, m)]) :
    (s.collReceive c x).readN pa m = v % 2 ^ (8 * m) := by
  have left : x.left va m = [(va, m)] := by simp only [CollCall.left, none_, List.isEmpty_nil, if_true]
  have runs : s.collReceive c x = (s.writeN pa (bitsAt v (8 * (va - va)) (8 * m) % 2 ^ (8 * m)) m).modCall c.id x.rank fun y => { y with got := true } := by
    simp only [State.collReceive, first, part, left, List.foldl_cons, List.foldl_nil, State.collRange, mapped, Option.getD_some, State.writeRanges,
      Bool.false_eq_true, if_false]
  rw [runs, modCall_readN, State.readN_writeN s _ _ _ wf, Nat.sub_self, Nat.mul_zero, bitsAt_zero, Nat.mod_mod, Nat.mod_mod]

section
variable {c : Coll} {x : CollCall} (writes : x.b.writes x.rank = true)
include writes

/-- The parts of an all-gather and of an all-to-all: each rank's, from its own data (R386, Table 3). -/
theorem parts_gather (op : x.b.op = 2) : c.parts x = (List.range c.vds.length).map fun r =>
    (x.b.recv + r * (x.b.count * x.b.sew / 8), x.b.count * x.b.sew / 8, (c.dataOf r).map fun d => bitsAt d 0 (8 * (x.b.count * x.b.sew / 8))) := by
  simp [Coll.parts, writes, op]
theorem parts_exchange (op : x.b.op = 3) : c.parts x = (List.range c.vds.length).map fun r =>
    (x.b.recv + r * (x.b.count * x.b.sew / 8), x.b.count * x.b.sew / 8, (c.dataOf r).map fun d =>
      bitsAt d (8 * (x.b.count * x.b.sew / 8) * x.rank) (8 * (x.b.count * x.b.sew / 8))) := by
  simp [Coll.parts, writes, op]
theorem parts_whole (gather : x.b.op ≠ 2) (exchange : x.b.op ≠ 3) :
    c.parts x = [(x.b.recv, x.b.recvBytes c.vds.length, (c.known x.b).map fun data => (x.b.result x.rank data).1)] := by
  simp [Coll.parts, writes, gather, exchange]
end

/-- Settles O50: an equation for each event and each of its conditions, and the parts of `RECV` by the operation. -/
theorem collectiveEventResults : Obligations.CollectiveEventResults := by
  unfold Obligations.CollectiveEventResults
  refine fun s n rank => ⟨fun absent code => ⟨collSent_absent absent, collDone_absent absent, collFail_absent absent code⟩,
    fun c x found call => ⟨fun l => collSent_sends found call, collDone_ends found call, collDone_wrong found call, fun code => ⟨fun no => ?_,
      fun untested may => collFail_fails found call untested (collMayFail_iff.2 may)⟩, fun va m v pa => collReceive_writes, ?_⟩⟩
  · refine collFail_waits found call (Bool.eq_false_iff.2 fun may => no (collMayFail_iff.1 may))
  · rintro seg writes rfl
    exact ⟨parts_gather writes, parts_exchange writes, parts_whole writes⟩

end Sys2Proof.Machine
end

section
/-! Keys of the space-filling curve (R285). -/
namespace Sys2Proof.Machine

/-! A number written digit by digit. -/

section
variable {w : Nat} {digit : Nat → Nat} (fits : ∀ m, digit m < 2 ^ w)
include fits

theorem digits_lt (n : Nat) : (List.range n).foldl (fun k i => k + 2 ^ (w * i) * digit i) 0 < 2 ^ (w * n) := by
  induction n with
  | zero => simp
  | succ n ih =>
    rw [List.range_succ, List.foldl_append, List.foldl_cons, List.foldl_nil, Nat.mul_succ, Nat.pow_add]
    calc _ < 2 ^ (w * n) + 2 ^ (w * n) * digit n := Nat.add_lt_add_right ih _
      _ = 2 ^ (w * n) * (digit n + 1) := by ring
      _ ≤ 2 ^ (w * n) * 2 ^ w := Nat.mul_le_mul_left _ (fits n)
/-- Each digit stands at its place. -/
theorem digits_testBit {n i j : Nat} (hi : i < n) (hj : j < w) :
    ((List.range n).foldl (fun k i => k + 2 ^ (w * i) * digit i) 0).testBit (w * i + j) = (digit i).testBit j := by
  induction n with
  | zero => exact absurd hi (Nat.not_lt_zero _)
  | succ n ih =>
    rw [List.range_succ, List.foldl_append, List.foldl_cons, List.foldl_nil, Nat.add_comm,
      Nat.testBit_two_pow_mul_add _ (digits_lt fits n)]
    obtain below | rfl := Nat.lt_succ_iff_lt_or_eq.1 hi
    · have inside : w * i + j < w * n := by
        calc w * i + j < w * i + w := Nat.add_lt_add_left hj _
          _ = w * (i + 1) := by ring
          _ ≤ w * n := Nat.mul_le_mul_left _ below
      rw [if_pos inside, ih below]
    · rw [if_neg (by omega), Nat.add_sub_cancel_left]
end

/-! The keys, two and three bits of them to each bit of a source. -/

/-- The bits of the sources at one place. -/
def digit2 (x y i : Nat) : Nat := (x.testBit i).toNat + 2 * (y.testBit i).toNat
def digit3 (x y z i : Nat) : Nat := (x.testBit i).toNat + 2 * (y.testBit i).toNat + 4 * (z.testBit i).toNat

theorem interleave_two (x y : Nat) : interleave 2 [x, y] = (List.range 32).foldl (fun k i => k + 2 ^ (2 * i) * digit2 x y i) 0 := by
  show (List.range 32).foldl _ 0 = _
  congr 1
  funext k i
  simp only [List.zipIdx_cons, List.zipIdx_nil, List.foldl_cons, List.foldl_nil, digit2, Nat.pow_add]
  cases x.testBit i <;> cases y.testBit i <;> simp
  ring
theorem interleave_three (x y z : Nat) : interleave 3 [x, y, z] = (List.range 21).foldl (fun k i => k + 2 ^ (3 * i) * digit3 x y z i) 0 := by
  show (List.range 21).foldl _ 0 = _
  congr 1
  funext k i
  simp only [List.zipIdx_cons, List.zipIdx_nil, List.foldl_cons, List.foldl_nil, digit3, Nat.pow_add]
  cases x.testBit i <;> cases y.testBit i <;> cases z.testBit i <;> simp <;> ring

theorem digit2_lt (x y i : Nat) : digit2 x y i < 2 ^ 2 := by
  have := Bool.toNat_lt (x.testBit i)
  have := Bool.toNat_lt (y.testBit i)
  unfold digit2; omega
theorem digit3_lt (x y z i : Nat) : digit3 x y z i < 2 ^ 3 := by
  have := Bool.toNat_lt (x.testBit i)
  have := Bool.toNat_lt (y.testBit i)
  have := Bool.toNat_lt (z.testBit i)
  unfold digit3; omega
theorem digit2_testBit (x y i : Nat) : (digit2 x y i).testBit 0 = x.testBit i ∧ (digit2 x y i).testBit 1 = y.testBit i := by
  unfold digit2
  cases x.testBit i <;> cases y.testBit i <;> decide
theorem digit3_testBit (x y z i : Nat) :
    (digit3 x y z i).testBit 0 = x.testBit i ∧ (digit3 x y z i).testBit 1 = y.testBit i ∧ (digit3 x y z i).testBit 2 = z.testBit i := by
  unfold digit3
  cases x.testBit i <;> cases y.testBit i <;> cases z.testBit i <;> decide

theorem interleave_two_testBit (x y : Nat) {i : Nat} (hi : i < 32) :
    (interleave 2 [x, y]).testBit (2 * i) = x.testBit i ∧ (interleave 2 [x, y]).testBit (2 * i + 1) = y.testBit i := by
  rw [interleave_two]
  exact ⟨(digits_testBit (digit2_lt x y) hi (j := 0) (by decide)).trans (digit2_testBit x y i).1,
    (digits_testBit (digit2_lt x y) hi (j := 1) (by decide)).trans (digit2_testBit x y i).2⟩
theorem interleave_three_testBit (x y z : Nat) {i : Nat} (hi : i < 21) :
    (interleave 3 [x, y, z]).testBit (3 * i) = x.testBit i ∧ (interleave 3 [x, y, z]).testBit (3 * i + 1) = y.testBit i ∧
      (interleave 3 [x, y, z]).testBit (3 * i + 2) = z.testBit i := by
  obtain ⟨low, mid, high⟩ := digit3_testBit x y z i
  rw [interleave_three]
  exact ⟨(digits_testBit (digit3_lt x y z) hi (j := 0) (by decide)).trans low,
    (digits_testBit (digit3_lt x y z) hi (j := 1) (by decide)).trans mid, (digits_testBit (digit3_lt x y z) hi (j := 2) (by decide)).trans high⟩
theorem interleave_lt (x y z : Nat) : interleave 2 [x, y] < 2 ^ 64 ∧ interleave 3 [x, y, z] < 2 ^ 63 := by
  rw [interleave_two, interleave_three]
  exact ⟨digits_lt (digit2_lt x y) 32, digits_lt (digit3_lt x y z) 21⟩

/-! Values given to the positions of a tile. -/

/-- With no delay before it a form gives its values to D at once. -/
theorem giveElems_gets {s : State} {d : Reg} (prompt : s.hart.late = []) (tile : isTile d = true) (l : List (Cell × Nat)) :
    s.giveElems d l = s.modHart fun h => h.gets d l := by
  cases d with
  | q n =>
    refine State.modHart_congr s _ _ ?_
    simp only [popLate_nil _ prompt, Bool.false_eq_true, if_false, Hart.gets]
  | v n =>
    cases l with
    | nil => exact (s.modHart_self (fun h => h.gets (.v n) []) (by simp only [Hart.gets, if_true])).symm
    | cons x l =>
      refine State.modHart_congr s _ _ ?_
      simp only [produce_put _ _ _ prompt, Hart.gets, Hart.image, reduceCtorEq, if_false]
  | x n => exact absurd tile Bool.false_ne_true
  | p n => exact absurd tile Bool.false_ne_true
  | k n => exact absurd tile Bool.false_ne_true
  | s n => exact absurd tile Bool.false_ne_true
  | ma n => exact absurd tile Bool.false_ne_true

/-- A key form gives each active element its key. -/
theorem vsfcOp_gives {s : State} {f : Fields} (c : s.Clear f []) (unphased : s.hart.phased = false) (shape : meshShape s.hart.geom = none)
    (tile : isTile f.d = true) (dim : Nat) (regs : Fields → List Reg) : vsfcOp dim regs f s =
      .next (s.completes f fun h => h.gets f.d ((h.activeCells f h.geom).map fun p =>
        (p, interleave dim ((regs f).map fun r => elemBits (h.tr r).toNat 64 p.r p.c)))) := by
  refine issue_completes _ _ c shape rfl ?_
  simp only [phased_unphased unphased, giveElems_gets c.onTime tile, List.map_map, Function.comp_def]
  exact congrArg Res.done (State.modHart_congr s _ _ rfl)

section
variable {s : State} {f : Fields} (c : s.Clear f []) (unphased : s.hart.phased = false) (shape : meshShape s.hart.geom = none)
  (tile : isTile f.d = true)
include c unphased shape tile
theorem vsfc2d_gives : exec (.vsfc2d f) s = .next (s.completes f fun h => h.gets f.d ((h.activeCells f h.geom).map fun p =>
    (p, interleave 2 [elemBits (h.tr f.a).toNat 64 p.r p.c, elemBits (h.tr f.b).toNat 64 p.r p.c]))) :=
  vsfcOp_gives c unphased shape tile 2 fun f => [f.a, f.b]
theorem vsfc3d_gives : exec (.vsfc3d f) s = .next (s.completes f fun h => h.gets f.d ((h.activeCells f h.geom).map fun p => (p, interleave 3
    [elemBits (h.tr f.a).toNat 64 p.r p.c, elemBits (h.tr f.b).toNat 64 p.r p.c, elemBits (h.tr f.c).toNat 64 p.r p.c]))) :=
  vsfcOp_gives c unphased shape tile 3 fun f => [f.a, f.b, f.c]
end

/-! What D holds then. -/

theorem putElems_eq_pass (t : Nat) (cells : List Cell) (key : Cell → Nat) :
    putElems t (cells.map fun p => (p, key p)) = (pass cells (tileOff 64) 64 (fun p => (key p, 0)) t).1 := by
  rw [pass_image, putElems, List.foldl_map]
/-- Popping the source queues changes the queues, and what an instruction would put back of them. -/
theorem popQueues_frame (h : Hart) (f : Fields) : popQueues h f = { h with undo := (popQueues h f).undo, q := (popQueues h f).q } := by
  have source (h : Hart) (r : Reg) : h.popSource r = { h with q := (h.popSource r).q } := by cases r <;> rfl
  have runs : popQueues h f =
      ((({ h with undo := h.undo.map fun u => { u with heads := sourceHeads h f } } : Hart).popSource f.a).popSource f.b).popSource f.c := rfl
  rw [runs, source _ f.c, source _ f.b, source _ f.a]
/-- Going on to the next instruction raises no flags. -/
theorem retire_fflags (h : Hart) : h.retire.sr.fflags = h.sr.fflags := by
  have same : (loopEnd h.pc h.sr).2.fflags = h.sr.fflags := by
    unfold loopEnd
    dsimp only
    split_ifs <;> rfl
  exact same
theorem elemBits_putElems {h : Hart} {f : Fields} {g : Geom} {i j : Nat} (fits : 64 * g.vl ≤ 1024) (rows : g.vr ≤ 8) (hi : i < g.vr)
    (hj : j < g.len i) (t : Tile) (key : Cell → Nat) (small : ∀ p, key p < 2 ^ 64) :
    elemBits (BitVec.ofNat 8192 (putElems t.toNat ((h.activeCells f g).map fun p => (p, key p)))).toNat 64 i j =
      if h.active f ⟨i, j, i * g.vl + j⟩ = true then key ⟨i, j, i * g.vl + j⟩ else elemBits t.toNat 64 i j := by
  have inside := g.len_le i
  rw [elemBits, bitsAt_ofNat _ (by omega), putElems_eq_pass]
  refine Nat.eq_of_testBit_eq fun b => ?_
  rw [testBit_bitsAt]
  by_cases hb : b < 64
  · rw [sweep_testBit fits hj hi _ _ hb]
    split
    · simp [hb]
    · rw [elemBits, testBit_bitsAt]
  · have high {n : Nat} (hn : n < 2 ^ 64) : n.testBit b = false :=
      Nat.testBit_lt_two_pow (Nat.lt_of_lt_of_le hn (Nat.pow_le_pow_right (by decide) (Nat.not_lt.1 hb)))
    simp only [hb, decide_false, Bool.false_and]
    split
    · exact (high (small _)).symm
    · exact (high (Nat.mod_lt _ (Nat.two_pow_pos 64))).symm

/-- The elements of D, and the flags, after a form has given it values at its active elements. -/
theorem completes_gets {s : State} {f : Fields} {n : Fin 32} (here : s.cur < s.harts.length) (d : f.d = .v n) (fits : 64 * s.hart.geom.vl ≤ 1024)
    (rows : s.hart.geom.vr ≤ 8) (key : Hart → Cell → Nat) (small : ∀ p, key s.hart p < 2 ^ 64) :
    let t := s.completes f fun h => h.gets f.d ((h.activeCells f h.geom).map fun p => (p, key h p))
    (∀ i j, i < s.hart.geom.vr → j < s.hart.geom.len i → elemBits (t.hart.v[n]).toNat 64 i j =
      if s.hart.active f ⟨i, j, i * s.hart.geom.vl + j⟩ = true then key s.hart ⟨i, j, i * s.hart.geom.vl + j⟩
      else elemBits (s.hart.v[n]).toNat 64 i j) ∧ t.hart.sr.fflags = s.hart.sr.fflags := by
  intro t
  let l := (s.hart.activeCells f s.hart.geom).map fun p => (p, key s.hart p)
  have hart : t.hart = (popQueues (s.hart.gets (.v n) l) f).retire := by
    show ((s.modHart _).hart = _)
    rw [State.hart_modHart s _ here, d]
  have v : t.hart.v[n] = (s.hart.gets (.v n) l).v[n] := by rw [hart, popQueues_frame]; rfl
  have flags : t.hart.sr.fflags = (s.hart.gets (.v n) l).sr.fflags := by rw [hart, retire_fflags, popQueues_frame]
  have gets : (s.hart.gets (.v n) l).v[n] = if l = [] then s.hart.v[n] else BitVec.ofNat 8192 (putElems (s.hart.v[n]).toNat l) := by
    unfold Hart.gets
    dsimp only
    split
    · rfl
    · simp [Hart.put, Hart.setV]
  refine ⟨fun i j hi hj => ?_, ?_⟩
  · rw [v, gets, ← elemBits_putElems fits rows hi hj _ _ small]
    split
    next none_ => rw [show List.map _ _ = l from rfl, none_]; simp [putElems]
    next => rfl
  · rw [flags]
    unfold Hart.gets
    dsimp only
    split <;> rfl

/-- Settles O59: the bits of a key by its digits, the elements of D by `completes_gets`. -/
theorem mortonKeys : Obligations.MortonKeys := by
  unfold Obligations.MortonKeys
  refine ⟨fun x y i => interleave_two_testBit x y, fun x y z i => interleave_three_testBit x y z, interleave_lt,
    fun f s n c unphased shape d fits rows => ?_⟩
  have tile : isTile f.d = true := by rw [d]; rfl
  constructor
  · refine ⟨_, vsfc2d_gives c unphased shape tile, ?_⟩
    exact completes_gets c.here d fits rows (fun h p => interleave 2 [elemBits (h.tr f.a).toNat 64 p.r p.c, elemBits (h.tr f.b).toNat 64 p.r p.c])
      fun p => (interleave_lt _ _ 0).1
  · refine ⟨_, vsfc3d_gives c unphased shape tile, ?_⟩
    exact completes_gets c.here d fits rows (fun h p => interleave 3
      [elemBits (h.tr f.a).toNat 64 p.r p.c, elemBits (h.tr f.b).toNat 64 p.r p.c, elemBits (h.tr f.c).toNat 64 p.r p.c])
      fun p => Nat.lt_of_lt_of_le (interleave_lt _ _ _).2 (by decide)

end Sys2Proof.Machine
end

section
/-! Mesh queries and quantities (R273, R274, R286). -/
namespace Sys2Proof.Machine

/-! What a mesh instruction does when nothing holds it up. -/

section
variable {s : State} {f : Fields} {also : List Reg} {chk : Geom → Option Illegal} {tile : Bool} {body : State → Res}
  (c : s.Clear f also) (idle : s.still = true) (unphased : s.hart.phased = false) (shape : chk s.hart.geom = none)
include c idle unphased shape

theorem meshOp_finishes : meshOp f chk also tile body s = .next
    (finish f { illegal := fun s => chk s.hart.geom, also := also, writes := also, wholly := tile
                body := phased true fun s => body (s.inStream f.strm true) } (body s)) := by
  rw [meshOp, issue_clear _ c shape (by simp)]
  simp only [phased_unphased unphased, inStream_still _ _ idle]
theorem meshOp_after {t : State} (h : body s = .done t) : meshOp f chk also tile body s = .next (t.after f) := by
  rw [meshOp_finishes c idle unphased shape, h]; rfl
theorem meshOp_waits {t : State} (h : body s = .wait t) : meshOp f chk also tile body s = .next t := by
  rw [meshOp_finishes c idle unphased shape, h]; rfl
end

/-- The checks of R272 let an instruction go on that finds a sound descriptor. -/
theorem withMesh_found {s : State} {f : Fields} {d : MDesc} (m : MeshFound s f d) (k : MDesc → Res) : withMesh f s k = k d := by
  simp only [withMesh, m.here, m.sound, ← m.read, m.good, Bool.false_eq_true, if_false]
theorem withNoErr_clean {s : State} {d : MDesc} (clean : d.err = false) (k : Res) : withNoErr s d k = k := by
  simp only [withNoErr, clean, Bool.false_eq_true, if_false]
theorem withBind_bound {s : State} {d : MDesc} {g : Nat} (bound : s.bindOf d = some g) (k : Nat → Res) : withBind s d k = k g := by
  simp only [withBind, bound]
theorem withParts_open {s : State} {d : MDesc} {t : List Nat} (p : PartsOpen s d t) (k : List Nat → Res) : withParts s d k = k t := by
  simp only [withParts, p.table, p.sound, p.good, Bool.false_eq_true, if_false]
/-- A field's entry that is sound, and well formed where it is read, is given to the rest. -/
theorem withField_open {s : State} {d : MDesc} {f pa n : Nat} {write : Bool} (has : f < d.nfield)
    (here : s.hbmRange s.agent.publish (if write then .store else .load) (fieldAddr d f 0) 64 = some [(pa, n)])
    (sound : s.poisoned pa 64 = false) (good : write = false → badRecord (s.readN pa 64) = false) (k : Nat → Res) :
    withField s d f write k = k pa := by
  have fits : (!write && badRecord (s.readN pa 64)) = false := by
    cases write with
    | true => rfl
    | false => simpa using good rfl
  simp only [withField, not_le.2 has, here, sound, fits, Bool.false_eq_true, if_false]
/-- Values of a mesh's own arrays that stand as the engine wrote them are given, where no byte of them is lost (R268). -/
theorem withPrivate_sound {s : State} {d : MDesc} {g array n : Nat} {items : List (Nat × Nat)}
    (size : n = if array = 0 then d.capcell * 32 else d.capcell * (d.dim + 1) * 32)
    (sound : s.privateLost s.agent array (d.blk (g % 2) (4 + array)) n items = none) (k : Res) : withPrivate s d g array items k = k := by
  subst size
  simp only [withPrivate, sound]

/-- With no delay before it a number reaches D at once. -/
theorem produceX_gives {t : State} {f : Fields} (onTime : t.hart.late = []) (w : Nat) :
    produceX f t w = .done (t.modHart fun h => h.put f.d (.word (BitVec.ofNat 64 w))) :=
  congrArg Res.done (State.modHart_congr t _ _ (produce_put _ _ _ onTime))
/-- From selector 0x10 on a quantity counts the faces of a colour (R286). -/
theorem mqValue_colour {s : State} {d : MDesc} {sel : Nat} (low : 0x10 ≤ sel) {x : MGen}
    (built : (s.mesh s.hart.ctx d.va).buf ((s.bindOf d).getD d.gen) = some x) (stands : s.intact x = true) :
    s.mqValue d none [] sel = (x.faces.filter (·.colour == sel - 0x10)).length := by
  obtain ⟨n, rfl⟩ := Nat.exists_eq_add_of_le' low
  simp only [State.mqValue, built, stands, orFree, if_true]

section
variable {s : State} {f : Fields} (c : s.Clear f []) (unphased : s.hart.phased = false)
include c unphased

/-- A mesh form without a tile operand that gives D a number. -/
theorem meshOp_gives (idle : s.still = true) {body : State → Res} {n : Nat} (h : body s = produceX f s n) :
    meshOp f noShape [] false body s = .next (s.gives f n) :=
  meshOp_after c idle unphased rfl (h.trans (produceX_gives c.onTime n))

variable {d : MDesc} (m : MeshFound s f d)
include m

/-! The quantities of `mq` (R286). -/

theorem mq_gives (other : f.imm.toNat % 256 ≠ 6) : exec (.mq f) s = .next (s.gives f (s.mqValue d none [] (f.imm.toNat % 256))) := by
  rw [exec_mq, execMq]
  refine meshOp_gives c unphased m.idle ?_
  rw [withMesh_found m, bitsAt_zero]
  exact if_neg other
theorem mq_part_gives (own : f.imm.toNat % 256 = 6) {t : List Nat} (p : PartsOpen s d t) :
    exec (.mq f) s = .next (s.gives f (s.mqValue d (partOf t s.hart.vdid) t 6)) := by
  rw [exec_mq, execMq]
  refine meshOp_gives c unphased m.idle ?_
  rw [withMesh_found m, bitsAt_zero, show f.imm.toNat % 2 ^ 8 = 6 from own]
  simp only [withParts_open p, if_true]

section
variable {g : Nat} (bound : s.bindOf d = some g) (clean : d.err = false) {pa n : Nat} (has : f.imm.toNat % 64 < d.nfield)
  (here : s.hbmRange s.agent.publish .load (fieldAddr d (f.imm.toNat % 64) 0) 64 = some [(pa, n)]) (sound : s.poisoned pa 64 = false)
  (good : badRecord (s.readN pa 64) = false) (valid : (s.readN pa 8).testBit 63 = true)
include bound clean has here sound good valid

theorem mqField_gives (come : g ≤ s.readN (pa + 40) 8) : exec (.mqField f) s = .next (s.gives f (s.readN (pa + 8 * (1 + g % 2)) 8)) := by
  rw [exec_mqField, execMqField]
  refine meshOp_gives c unphased m.idle ?_
  rw [withMesh_found m, withBind_bound bound, bitsAt_zero, show 2 ^ 6 = 64 from rfl, withField_open (write := false) has here sound fun _ => good, valid, withNoErr_clean clean,
    if_neg (not_lt.2 come)]
  rfl
theorem mqField_waits (early : s.readN (pa + 40) 8 < g) : exec (.mqField f) s = .next (s.modHart fun h => h.sleep s.time none false) := by
  rw [exec_mqField, execMqField]
  refine meshOp_waits c m.idle unphased rfl ?_
  rw [withMesh_found m, withBind_bound bound, bitsAt_zero, show 2 ^ 6 = 64 from rfl, withField_open (write := false) has here sound fun _ => good, valid, withNoErr_clean clean,
    if_pos early]
  rfl
end
end

/-! The cell and face queries (R273, R274). -/

/-- What a face query gives at each active element (R274). -/
def facePairs (s : State) (f : Fields) (x : MGen) (t : List Nat) (pick : Nat → Option MFace) (side : Nat × Nat → Nat) : List (Cell × Nat) :=
  ((s.hart.activeCells f s.hart.geom).map fun p => (p, (s.hart.xr f.b).toNat + p.e)).map fun y =>
    (y.1, side (x.facePair (partOf t s.hart.vdid) (pick y.2)))

section
variable {s : State} {f : Fields} {d : MDesc} (unphased : s.hart.phased = false) (m : MeshFound s f d) (shape : meshShape s.hart.geom = none)
  (clean : d.err = false) {g : Nat} (bound : s.bindOf d = some g) {x : MGen} (built : (s.mesh s.hart.ctx d.va).buf g = some x)
  (stands : s.intact x = true)
include unphased m shape clean bound built stands

theorem nbldOp_gives (c : s.Clear f []) (tile : isTile f.d = true) (dim : bitsAt f.imm.toNat 0 2 ≤ d.dim) {needParts : Bool}
    {t : List Nat} (p : needParts = true → PartsOpen s d t) {l : List (Cell × Nat)} (cells : cellsOf s.hart f x.cells.length = .ok l)
    (sound : s.privateLost s.agent 0 (d.blk (g % 2) 4) (d.capcell * 32) (l.map fun c => (c.1.e, c.2)) = none)
    (val : MGen → Option Nat → Nat → Nat) : nbldOp f needParts val s = .next (s.completes f fun h => h.gets f.d (l.map fun c =>
      (c.1, val x (if needParts then partOf t s.hart.vdid else none) c.2))) := by
  have ends (part : Option Nat) : withBind s d (fun g => match (s.mesh s.hart.ctx d.va).buf g with
      | none => meshTrap s 0x02 0
      | some x => match cellsOf s.hart f x.cells.length with
        | .error e => meshTrap s 0x03 e
        | .ok l => withNoErr s d <| withPrivate s d g 0 (l.map fun c => (c.1.e, c.2))
          (.done (s.giveElems f.d (l.map fun c => (c.1, orFree s (s.intact x) c.1.e (val x part c.2)))))) =
      .done (s.modHart fun h => h.gets f.d (l.map fun c => (c.1, val x part c.2))) := by
    simp only [withBind_bound bound, built, cells, withNoErr_clean clean, withPrivate_sound rfl sound, stands, orFree, if_true,
      giveElems_gets c.onTime tile]
  refine issue_completes _ _ c shape rfl ?_
  simp only [phased_unphased unphased, inStream_still _ _ m.idle, withMesh_found m, gt_iff_lt, not_lt.2 dim, if_false]
  cases needParts with
  | false => exact ends none
  | true =>
    simp only [if_true, withParts_open (p rfl)]
    exact ends _

theorem nbld_gives (c : s.Clear f []) (tile : isTile f.d = true) (dim : bitsAt f.imm.toNat 0 2 ≤ d.dim) {t : List Nat} (p : PartsOpen s d t)
    {l : List (Cell × Nat)} (cells : cellsOf s.hart f x.cells.length = .ok l)
    (sound : s.privateLost s.agent 0 (d.blk (g % 2) 4) (d.capcell * 32) (l.map fun c => (c.1.e, c.2)) = none) :
    exec (.nbld f) s = .next (s.completes f fun h => h.gets f.d (l.map fun c =>
      (c.1, x.neighbour (partOf t s.hart.vdid) c.2 (bitsAt f.imm.toNat 0 2) (bitsAt f.imm.toNat 2 2)))) :=
  (exec_nbld f s).trans (nbldOp_gives unphased m shape clean bound built stands c tile dim (needParts := true) (fun _ => p) cells sound
    fun g part c => g.neighbour part c (bitsAt f.imm.toNat 0 2) (bitsAt f.imm.toNat 2 2))
theorem nbldNd_gives (c : s.Clear f []) (tile : isTile f.d = true) (dim : bitsAt f.imm.toNat 0 2 ≤ d.dim)
    {l : List (Cell × Nat)} (cells : cellsOf s.hart f x.cells.length = .ok l)
    (sound : s.privateLost s.agent 0 (d.blk (g % 2) 4) (d.capcell * 32) (l.map fun c => (c.1.e, c.2)) = none) :
    exec (.nbldNd f) s = .next (s.completes f fun h => h.gets f.d (l.map fun c =>
      (c.1, (((x.cells[c.2]?).map (·.nodes)).getD []).getD (bitsAt f.imm.toNat 0 2) 0))) := by
  rw [exec_nbldNd, execNbldNd, nbldOp_gives unphased m shape clean bound built stands c tile dim (needParts := false) (t := [])
    (absurd · Bool.false_ne_true) cells sound]

section
variable {n : Fin 32} (c : s.Clear f [.v (n + 1)]) {t : List Nat} (p : PartsOpen s d t) (dst : f.d = .v n)
  (sound : s.privateLost s.agent 1 (d.blk (g % 2) 5) (d.capcell * (d.dim + 1) * 32)
    (((s.hart.activeCells f s.hart.geom).map fun p => (p, (s.hart.xr f.b).toNat + p.e)).map fun y => (y.1.e, y.2)) = none)
include c p dst sound

theorem fcldOp_gives (pick : MGen → Nat → Option MFace) : fcldOp f pick s = .next (s.completes f fun h =>
    (h.gets (.v n) (facePairs s f x t (pick x) Prod.fst)).gets (.v (n + 1)) (facePairs s f x t (pick x) Prod.snd)) := by
  have late (l : List (Cell × Nat)) : (s.modHart fun h => h.gets (.v n) l).hart.late = [] := by
    rw [State.hart_modHart s _ c.here]
    unfold Hart.gets
    dsimp only
    split <;> exact c.onTime
  rw [List.map_map] at sound
  have pair : pairReg f.d = .v (n + 1) := by rw [dst]; rfl
  refine issue_completes _ _ (pair ▸ c) shape rfl ?_
  simp only [phased_unphased unphased, inStream_still _ _ m.idle, withMesh_found m, withParts_open p, withBind_bound bound, built,
    withNoErr_clean clean, stands, orFree, if_true, dst, pairReg]
  rw [withPrivate_sound rfl (by exact sound), giveElems_gets c.onTime (d := .v n) rfl, giveElems_gets (late _) (d := .v (n + 1)) rfl, State.modHart_modHart]
  simp only [facePairs, List.map_map, Function.comp_def]
theorem fcld_gives : exec (.fcld f) s = .next (s.completes f fun h =>
    (h.gets (.v n) (facePairs s f x t (fun i => x.faces[i]?) Prod.fst)).gets (.v (n + 1)) (facePairs s f x t (fun i => x.faces[i]?) Prod.snd)) :=
  fcldOp_gives unphased m shape clean bound built stands c p dst sound _
theorem fcldC_gives : let pick := fun i => (x.faces.filter (·.colour == bitsAt f.imm.toNat 0 4))[i]?
    exec (.fcldC f) s = .next (s.completes f fun h =>
      (h.gets (.v n) (facePairs s f x t pick Prod.fst)).gets (.v (n + 1)) (facePairs s f x t pick Prod.snd)) :=
  fcldOp_gives unphased m shape clean bound built stands c p dst sound _
end
end

/-- Settles O37: each query by the checks that let it go on, then the value it gives. -/
theorem meshQueryResults : Obligations.MeshQueryResults := by
  unfold Obligations.MeshQueryResults
  intro f s unphased
  refine ⟨fun c shape tile => ⟨vsfc2d_gives c unphased shape tile, vsfc3d_gives c unphased shape tile⟩, fun d m => ⟨?_, ?_⟩⟩
  · intro c sel g gives
    have other {n : Nat} (h : sel = n) (ne : n ≠ 6) : gives (s.mqValue d none [] n) := h ▸ mq_gives c unphased m (by rwa [show f.imm.toNat % 256 = n from h])
    refine ⟨fun h => other h (by decide), fun h => other h (by decide), fun h => other h (by decide), fun h => other h (by decide),
      fun h => other h (by decide), fun h => other h (by decide), fun t h p => mq_part_gives c unphased m h p, fun x low _ built stands => ?_⟩
    rw [← mqValue_colour low built stands]
    exact other rfl (by omega)
  · intro g x clean bound built stands
    refine ⟨?_, ?_, ?_⟩
    · intro e he t l c shape tile dim p cells sound
      simp only [cellForms, List.mem_cons, List.not_mem_nil, or_false] at he
      obtain rfl | rfl := he
      · exact nbld_gives unphased m shape clean bound built stands c tile dim (p rfl) cells sound
      · exact nbldNd_gives unphased m shape clean bound built stands c tile dim cells sound
    · intro e he t n c shape p dst l sound pair
      simp only [faceForms, List.mem_cons, List.not_mem_nil, or_false] at he
      obtain rfl | rfl := he
      · exact fcld_gives unphased m shape clean bound built stands c p dst sound
      · exact fcldC_gives unphased m shape clean bound built stands c p dst sound
    · intro pa n c has here sound good valid
      exact ⟨mqField_gives c unphased m bound clean has here sound good valid, mqField_waits c unphased m bound clean has here sound good valid⟩

end Sys2Proof.Machine
end

section
/-! Mesh instructions that bind, mark, start jobs, and name fields (R270, R275, R276, R281, R283, R284). -/
namespace Sys2Proof.Machine

/-! What a register holds after an instruction has written it. -/

theorem getX_put (h : Hart) {n : Fin 64} (nz : n ≠ 0) (w : Word) : (h.put (.x n) (.word w)).getX n = w := by
  simp [Hart.put, Hart.setX, Hart.getX, nz]
theorem isEmpty_markEmpty (h : Hart) {n : Fin 64} (nz : n ≠ 0) (b : Bool) : (h.markEmpty (.x n) b).isEmpty (.x n) = b := by
  cases b <;> simp [Hart.markEmpty, Hart.isEmpty, setBit, nz]
/-- Going on to the next instruction changes no register but the queues. -/
theorem after_hart {t : State} (here : t.cur < t.harts.length) (f : Fields) : (t.after f).hart = (popQueues t.hart f).retire :=
  State.hart_modHart t _ here
theorem after_getX {t : State} (here : t.cur < t.harts.length) (f : Fields) (n : Fin 64) : (t.after f).hart.getX n = t.hart.getX n := by
  rw [after_hart here, popQueues_frame]; rfl
/-- D holds the number it was given. -/
theorem gives_getX {t : State} (here : t.cur < t.harts.length) {f : Fields} {n : Fin 64} (d : f.d = .x n) (nz : n ≠ 0) (w : Nat) :
    (t.gives f w).hart.getX n = BitVec.ofNat 64 w := by
  rw [State.gives, after_getX (by rwa [State.modHart, State.modHartAt, updAt_length]), State.hart_modHart t _ here, d, getX_put _ nz]

theorem gives_binds {t : State} (here : t.cur < t.harts.length) (f : Fields) (w : Nat) : (t.gives f w).hart.binds = t.hart.binds := by
  rw [State.gives, after_hart (by rwa [State.modHart, State.modHartAt, updAt_length]), State.hart_modHart t _ here, popQueues_frame,
    Hart.retire_binds, Hart.put_binds]
theorem gives_readByte (t : State) (f : Fields) (w a : Nat) : (t.gives f w).readByte a = t.readByte a := by
  rw [State.gives, State.after, State.modHart, modHartAt_readByte, State.modHart, modHartAt_readByte]
/-- Bytes read together make a number of their width. -/
theorem readN_lt (s : State) (pa n : Nat) : s.readN pa n < 2 ^ (8 * n) := by
  rw [State.readN_eq]
  induction n generalizing pa with
  | zero => exact Nat.one_pos
  | succ n ih =>
    rw [State.readVeiled, Nat.mul_succ, Nat.pow_add]
    have low := (s.readByte pa).isLt
    have high := ih (pa + 1)
    omega

/-! Bindings (R270). -/

/-- Where the count of bindings of a generation lies, as the operation and the table of words name it. -/
theorem addRcnt_mem {s t : State} (mem : t.mem = s.mem) (veils : t.veils = s.veils) (pa g : Nat) (up : Bool) (a : Nat) :
    (t.addRcnt pa g up).readByte a = (s.addRcnt pa g up).readByte a := by
  have bytes (a : Nat) : t.readByte a = s.readByte a := by rw [State.readByte_eq, State.readByte_eq, mem, veils]
  simp only [State.addRcnt, readN_congr bytes, State.readByte_eq, State.writeN_mem, State.writeN_veils, State.unveil, mem, veils]
/-- A binding raises the count of its generation, an unbinding lowers it. -/
theorem addRcnt_counts (s : State) (wf : Mem.wf s.mem = true) (pa g : Nat) : let w := s.readN (pa + 8 * (14 + 10 * (g % 2))) 8
    (s.addRcnt pa g true).readN (pa + 8 * (14 + 10 * (g % 2))) 8 = (w + 1) % 2 ^ 64 ∧
    (s.addRcnt pa g false).readN (pa + 8 * (14 + 10 * (g % 2))) 8 = w - 1 := by
  intro w
  have small : w < 2 ^ 64 := readN_lt s _ 8
  constructor
  · exact (State.readN_writeN s _ _ 8 wf).trans (Nat.mod_mod _ _)
  · exact (State.readN_writeN s _ _ 8 wf).trans (Nat.mod_eq_of_lt (Nat.lt_of_le_of_lt (Nat.sub_le _ _) small))
/-- It wakes monitors, and changes nothing else of the current hart. -/
theorem addRcnt_hart (s : State) (pa g : Nat) (up : Bool) : (s.addRcnt pa g up).hart = s.hart.wake (descWord pa (14 + 10 * (g % 2))) 8 := by
  rw [State.hart, State.addRcnt, State.writeN_cur, State.writeN_hartAt]; rfl

theorem withTurn_now {s : State} {d : MDesc} (turn : s.inTurn (.mesh s.hart.ctx d.va) s.hart = true) (k : State → Res) :
    withTurn s d k = k (s.takeTurn (.mesh s.hart.ctx d.va) s.hart) := by
  simp only [withTurn, turn, if_true]
theorem withTurn_later {s : State} {d : MDesc} (turn : s.inTurn (.mesh s.hart.ctx d.va) s.hart = false) (k : State → Res) :
    withTurn s d k = .wait s := by
  simp only [withTurn, turn, Bool.false_eq_true, if_false]

/-- A hart with one more binding. -/
def Hart.binding (h : Hart) (b : Nat × Nat) : Hart := { h with binds := h.binds ++ [b] }
/-- The state in which a hart has bound the newest generation. -/
def State.bound (s : State) (d : MDesc) : State :=
  let v := s.takeTurn (.mesh s.hart.ctx d.va) s.hart
  ((v.addRcnt d.pa d.gen true).setMesh { v.mesh v.hart.ctx d.va with pa := d.pa }).modHart (·.binding (d.va, d.gen))
section
variable {s : State} (here : s.cur < s.harts.length) (d : MDesc)
include here
theorem bound_here : (s.bound d).cur < (s.bound d).harts.length := by
  simpa [State.bound, State.setMesh, State.addRcnt, State.modHart, State.modHartAt, updAt_length, State.takeTurn, State.setTurn] using here
theorem bound_hart : (s.bound d).hart = (s.hart.wake (descWord d.pa (14 + 10 * (d.gen % 2))) 8).binding (d.va, d.gen) := by
  have inside : (s.takeTurn (.mesh s.hart.ctx d.va) s.hart).cur < (s.takeTurn (.mesh s.hart.ctx d.va) s.hart).harts.length := here
  rw [State.bound, State.hart_modHart _ _ (by simpa [State.setMesh, State.addRcnt] using inside)]
  exact congrArg (Hart.binding · _) (addRcnt_hart (s.takeTurn (.mesh s.hart.ctx d.va) s.hart) d.pa d.gen true)
end

theorem mbind_turn {s : State} {d : MDesc} (free : s.bindOf d = none) (room : s.hart.binds.length < 4) (built : d.built = true) (k : Res) :
    (if (s.bindOf d).isSome ∨ s.hart.binds.length ≥ 4 ∨ !d.built then meshTrap s 0x02 0 else k) = k := by
  simp [free, built, not_le.2 room]

section
variable {s : State} {f : Fields} {d : MDesc} (c : s.Clear f []) (m : MeshFound s f d)
include c m

section
variable (free : s.bindOf d = none) (room : s.hart.binds.length < 4) (built : d.built = true)
include free room built
theorem mbind_gives (turn : s.inTurn (.mesh s.hart.ctx d.va) s.hart = true) : exec (.mbind f) s = .next ((s.bound d).gives f d.gen) := by
  rw [exec_mbind, execMbind]
  refine meshOp_after c m.idle m.free rfl ?_
  rw [withMesh_found m, mbind_turn free room built, withTurn_now turn]
  exact produceX_gives (t := s.bound d) (f := f) (by rw [bound_hart c.here, Hart.wake_eq]; exact c.onTime) d.gen
theorem mbind_waits (turn : s.inTurn (.mesh s.hart.ctx d.va) s.hart = false) : exec (.mbind f) s = .next s := by
  rw [exec_mbind, execMbind]
  refine meshOp_waits c m.idle m.free rfl ?_
  rw [withMesh_found m, mbind_turn free room built, withTurn_later turn]
end

section
variable {g : Nat} (bound : s.bindOf d = some g)
include bound
theorem munbind_unbinds (turn : s.inTurn (.mesh s.hart.ctx d.va) s.hart = true) : exec (.munbind f) s = .next (State.after
    (((s.takeTurn (.mesh s.hart.ctx d.va) s.hart).addRcnt d.pa g false).modHart fun h => { h with binds := h.binds.filter (·.1 != d.va) }) f) := by
  rw [exec_munbind, execMunbind]
  refine meshOp_after c m.idle m.free rfl ?_
  rw [withMesh_found m, withBind_bound bound, withTurn_now turn]
theorem munbind_waits (turn : s.inTurn (.mesh s.hart.ctx d.va) s.hart = false) : exec (.munbind f) s = .next s := by
  rw [exec_munbind, execMunbind]
  refine meshOp_waits c m.idle m.free rfl ?_
  rw [withMesh_found m, withBind_bound bound, withTurn_later turn]
end

/-! Marks (R275). -/

section
variable (clean : d.err = false) {g : Nat} (bound : s.bindOf d = some g) {x : MGen} (built : (s.mesh s.hart.ctx d.va).buf g = some x)
  (shape : meshShape s.hart.geom = none) {l : List (Cell × Nat)} (cells : cellsOf s.hart f x.cells.length = .ok l)
include clean bound built shape cells
theorem mmarkOp_late (v : Nat) (late : g ≠ d.gen ∨ (s.mesh s.hart.ctx d.va).snap = true) : mmarkOp v f s = .next (s.gives f 1) := by
  refine meshOp_after c m.idle m.free shape ?_
  simp only [withMesh_found m, withBind_bound bound, built, cells, withNoErr_clean clean, late, if_true]
  exact produceX_gives c.onTime 1
theorem mmarkOp_marks (v : Nat) (newest : g = d.gen) (open_ : (s.mesh s.hart.ctx d.va).snap = false) : mmarkOp v f s =
    .next ((s.setMesh { s.mesh s.hart.ctx d.va with
      marks := l.foldl (fun acc c => raiseMark v acc c.2) (s.mesh s.hart.ctx d.va).marks }).gives f 0) := by
  subst newest
  refine meshOp_after c m.idle m.free shape ?_
  simp only [withMesh_found m, withBind_bound bound, built, cells, withNoErr_clean clean, open_, ne_eq, not_true_eq_false,
    Bool.false_eq_true, or_self, if_false]
  exact produceX_gives (t := s.setMesh _) c.onTime 0
end
end

/-! Jobs (R276, R283). -/

/-- The words of a descriptor are those that stand in memory. -/
theorem word_lt {s : State} {f : Fields} {d : MDesc} (m : MeshFound s f d) (i : Nat) (inside : i < 32) : d.word i < 2 ^ 64 := by
  have stands : d.word i = s.readN (descWord d.pa i) 8 := by
    conv_lhs => rw [m.read]
    simp [MDesc.word, State.readDesc, inside]
  exact stands ▸ readN_lt s _ 8

/-- The instructions that start jobs: where nothing stops one it starts, else D is given 1. -/
def jobOp (stop : MDesc → Bool) (kind : State → JobKind) (f : Fields) (s : State) : Host.Outcome State Fault Refusal :=
  meshOp f noShape [] false (fun s => withMesh f s fun d => withNoErr s d (withTurn s d fun s =>
    if stop d then produceX f s 1 else .done (s.startJob d (kind s) f))) s
theorem jobForms_run (f : Fields) (s : State) : ∀ e ∈ jobForms, exec (e.1 f) s = jobOp (fun d => !e.2.2 d) (e.2.1 f) f s := by
  have stop : (fun d : MDesc => !(!d.busy && d.built)) = fun d => d.busy || !d.built := funext fun d => by simp
  have stopInit : (fun d : MDesc => !(!d.busy && d.gen == 0 && d.blk 0 2 == 0 && d.blk 1 2 == 0)) =
      fun d => d.busy || d.gen != 0 || d.blk 0 2 != 0 || d.blk 1 2 != 0 := funext fun d => by simp only [Bool.not_and, Bool.not_not]; rfl
  intro e he
  simp only [jobForms, List.mem_cons, List.not_mem_nil, or_false] at he
  obtain rfl | rfl | rfl := he
  · show exec (.mrebuild f) s = jobOp (fun d => !(!d.busy && d.built)) _ f s
    rw [stop]; rfl
  · show exec (.mrebuildInit f) s = jobOp (fun d => !(!d.busy && d.gen == 0 && d.blk 0 2 == 0 && d.blk 1 2 == 0)) _ f s
    rw [stopInit]; rfl
  · show exec (.mbal f) s = jobOp (fun d => !(!d.busy && d.built)) _ f s
    rw [stop]; rfl

/-- The marks of a job are all that it adds to the engines' books (R295). -/
theorem markJob_frame (s : State) (j : MeshJob) (write : Bool) (l : List (Nat × Nat)) : s.EngFrame (s.markJob j write l) :=
  foldl_keeps (P := fun t : State => s.EngFrame t) l s (.refl s) fun t _ kept => kept.trans (State.mark_frame t ..)
/-- A job as it starts. -/
def State.newJob (s : State) (d : MDesc) (kind : JobKind) (f : Fields) : MeshJob :=
  ⟨s.nextOp, s.hart.ctx, d.va, kind, f, s.agent, d.gen, (s.mesh s.hart.ctx d.va).marks, none, none, []⟩
/-- The state in which a job has started, but for its marks and for D. -/
def State.jobStarted (s : State) (d : MDesc) (kind : JobKind) (f : Fields) : State :=
  let m := { s.mesh s.hart.ctx d.va with pa := d.pa }
  { (s.setDesc d.pa 2 (d.word 2 ||| 2 ^ 63)).setMesh { m with snap := match kind with
    | .init _ => m.snap
    | _ => true } with
    nextOp := (s.setDesc d.pa 2 (d.word 2 ||| 2 ^ 63)).nextOp + 1
    meshJobs := (s.setDesc d.pa 2 (d.word 2 ||| 2 ^ 63)).meshJobs ++ [s.newJob d kind f] }
theorem startJob_marks {s : State} (idle : s.still = true) (d : MDesc) (kind : JobKind) (f : Fields) :
    ∃ t, (s.jobStarted d kind f).EngFrame t ∧ s.startJob d kind f = t.modHart fun h => h.markEmpty f.d true := by
  unfold State.startJob
  rw [drainAll_still idle]
  exact ⟨_, (markJob_frame ..).trans (markJob_frame ..), rfl⟩

section
variable {s : State} (idle : s.still = true) (d : MDesc) (kind : JobKind) (f : Fields)
include idle
theorem startJob_jobs : (s.startJob d kind f).meshJobs = s.meshJobs ++ [s.newJob d kind f] := by
  obtain ⟨t, frame, runs⟩ := startJob_marks idle d kind f
  have jobs : (s.setDesc d.pa 2 (d.word 2 ||| 2 ^ 63)).meshJobs = s.meshJobs := by rw [State.setDesc, State.writeN_frame]
  rw [runs, frame.eq]
  exact congrArg (· ++ _) jobs
theorem startJob_busy (wf : Mem.wf s.mem = true) : (s.startJob d kind f).readN (d.pa + 16) 8 = (d.word 2 ||| 2 ^ 63) % 2 ^ 64 := by
  obtain ⟨t, frame, runs⟩ := startJob_marks idle d kind f
  have bytes (b : Nat) : (s.startJob d kind f).readByte b = (s.setDesc d.pa 2 (d.word 2 ||| 2 ^ 63)).readByte b := by
    rw [runs, State.modHart, modHartAt_readByte, frame.eq]; rfl
  rw [readN_congr bytes]
  exact State.readN_writeN s _ _ 8 wf
theorem startJob_empties (here : s.cur < s.harts.length) {n : Fin 64} (dst : f.d = .x n) (nz : n ≠ 0) :
    (s.startJob d kind f).hart.isEmpty (.x n) = true := by
  obtain ⟨t, frame, runs⟩ := startJob_marks idle d kind f
  have inside : t.cur < t.harts.length := by
    rw [frame.eq]; simpa [State.jobStarted, State.setMesh, State.setDesc] using here
  rw [runs, State.hart_modHart t _ inside, dst, isEmpty_markEmpty _ nz]
end

section
variable {s : State} {f : Fields} {d : MDesc} (c : s.Clear f []) (m : MeshFound s f d) (clean : d.err = false) (stop : MDesc → Bool)
  (kind : State → JobKind)
include c m clean
theorem jobOp_later (turn : s.inTurn (.mesh s.hart.ctx d.va) s.hart = false) : jobOp stop kind f s = .next s := by
  refine meshOp_waits c m.idle m.free rfl ?_
  rw [withMesh_found m, withNoErr_clean clean, withTurn_later turn]
section
variable (turn : s.inTurn (.mesh s.hart.ctx d.va) s.hart = true)
include turn
theorem jobOp_stops (stopped : stop d = true) : jobOp stop kind f s = .next ((s.takeTurn (.mesh s.hart.ctx d.va) s.hart).gives f 1) := by
  refine meshOp_after c m.idle m.free rfl ?_
  rw [withMesh_found m, withNoErr_clean clean, withTurn_now turn, if_pos stopped]
  exact produceX_gives (t := s.takeTurn _ _) c.onTime 1
theorem jobOp_starts (ready : stop d = false) : jobOp stop kind f s =
    .next (((s.takeTurn (.mesh s.hart.ctx d.va) s.hart).startJob d (kind (s.takeTurn (.mesh s.hart.ctx d.va) s.hart)) f).after f) := by
  refine meshOp_after c m.idle m.free rfl ?_
  rw [withMesh_found m, withNoErr_clean clean, withTurn_now turn, ready]
  rfl
end
end

/-! Fields (R281). -/

/-- Dropping remaps changes no hart. -/
theorem dropRemaps_harts (s : State) (d : MDesc) (n : Nat) : (s.dropRemaps d n).harts = s.harts ∧ (s.dropRemaps d n).cur = s.cur :=
  foldl_keeps (P := fun t : State => t.harts = s.harts ∧ t.cur = s.cur) _ s ⟨rfl, rfl⟩ fun _ _ kept => kept
theorem written_onTime {s : State} (onTime : s.hart.late = []) (pa v n : Nat) (d : MDesc) (i : Nat) :
    ((s.writeN pa v n).dropRemaps d i).hart.late = [] := by
  obtain ⟨harts, cur⟩ := dropRemaps_harts (s.writeN pa v n) d i
  rw [State.hart, cur, State.hartAt, harts, State.writeN_cur]
  show ((s.writeN pa v n).hartAt s.cur).late = []
  rw [State.writeN_hartAt, Hart.wake_eq]
  exact onTime

section
variable {s : State} {f : Fields} {d : MDesc} (c : s.Clear f []) (m : MeshFound s f d) (clean : d.err = false) {pa n : Nat}
  (has : f.imm.toNat % 64 < d.nfield)
  (here : s.hbmRange s.agent.publish .store (fieldAddr d (f.imm.toNat % 64) 0) 64 = some [(pa, n)]) (sound : s.poisoned pa 64 = false)
include c m clean has here sound

theorem mfieldRm_busy (busy : d.busy = true) : exec (.mfieldRm f) s = .next (s.gives f 1) := by
  rw [exec_mfieldRm, execMfieldRm]
  refine meshOp_gives c m.free m.idle ?_
  rw [withMesh_found m, bitsAt_zero, show 2 ^ 6 = 64 from rfl, withField_open (write := true) has here sound (absurd · (by decide)),
    withNoErr_clean clean, if_pos busy]
theorem mfieldRm_removes (idle : d.busy = false) : exec (.mfieldRm f) s =
    .next (((s.writeN pa (putBits (s.readN pa 8) 63 1 0) 8).dropRemaps d (f.imm.toNat % 64)).gives f 0) := by
  rw [exec_mfieldRm, execMfieldRm]
  refine meshOp_after c m.idle m.free rfl ?_
  rw [withMesh_found m, bitsAt_zero, show 2 ^ 6 = 64 from rfl, withField_open (write := true) has here sound (absurd · (by decide)),
    withNoErr_clean clean, idle]
  exact produceX_gives (written_onTime c.onTime _ _ _ _ _) 0
theorem mfield_writes {l : List Piece} {v : Nat} (reads : s.readChk (s.hart.xr f.b).toNat 32 = .ok (l, v)) (good : badTemplate v = false) :
    exec (.mfield f) s = .next (if d.busy then (s.noteAll .read l).gives f 1 else
      (((s.noteAll .read l).writeN pa (putBits v 63 1 1 + d.gen * 2 ^ 256 + d.gen * 2 ^ 320) 48).dropRemaps d (f.imm.toNat % 64)).gives f 0) := by
  have onTime : (s.noteAll .read l).hart.late = [] := by rw [State.noteAll_eq]; exact c.onTime
  rw [exec_mfield, execMfield]
  have run : withMesh f s (fun d => withField s d (bitsAt f.imm.toNat 0 6) true fun pa => match s.readChk (s.hart.xr f.b).toNat 32 with
      | .error e => e
      | .ok (l, v) =>
        if badTemplate v then meshTrap s 0x04 0
        else withNoErr s d (if d.busy then produceX f (s.noteAll .read l) 1 else produceX f (((s.noteAll .read l).writeN pa
          (putBits v 63 1 1 + d.gen * 2 ^ 256 + d.gen * 2 ^ 320) 48).dropRemaps d (bitsAt f.imm.toNat 0 6)) 0)) =
      if d.busy then produceX f (s.noteAll .read l) 1 else produceX f (((s.noteAll .read l).writeN pa
          (putBits v 63 1 1 + d.gen * 2 ^ 256 + d.gen * 2 ^ 320) 48).dropRemaps d (f.imm.toNat % 64)) 0 := by
    rw [withMesh_found m, bitsAt_zero, show 2 ^ 6 = 64 from rfl, withField_open (write := true) has here sound (absurd · (by decide))]
    simp only [reads, good, withNoErr_clean clean, Bool.false_eq_true, if_false]
  cases busy : d.busy
  · refine meshOp_after c m.idle m.free rfl (run.trans ?_)
    rw [busy]
    exact produceX_gives (written_onTime onTime _ _ _ _ _) 0
  · refine meshOp_after c m.idle m.free rfl (run.trans ?_)
    rw [busy]
    exact produceX_gives onTime 1
end

/-! Refreshes (R284). -/

theorem markGhosts_frame (s : State) (r : Refresh) (g : MGen) (w : Nat) : s.EngFrame (s.markGhosts r g w) := by
  unfold State.markGhosts
  split
  · exact .refl s
  · exact foldl_keeps (P := fun t : State => s.EngFrame t) _ s (.refl s) fun t _ kept =>
      (kept.trans (State.mark_frame t ..)).trans (State.mark_frame ..)
/-- The record of a field is that of its entry where it is valid and well formed. -/
theorem entryOf_valid {s : State} {d : MDesc} {n w : Nat} (has : n < d.nfield) (reads : s.meshRead s.agent (fieldAddr d n 0) 64 = .ok w)
    (valid : w.testBit 63 = true) (good : badRecord w = false) : s.entryOf d n = .ok w := by
  simp only [State.entryOf, not_le.2 has, reads, valid, good, if_false, Bool.not_true, Bool.or_self, Bool.false_eq_true]
theorem entriesOf_valid {s : State} {d : MDesc} {entry : Nat → Nat} {l : List Nat} (valid : ∀ n ∈ l, s.entryOf d n = .ok (entry n)) :
    s.entriesOf d l = .ok (l.map fun n => (n, entry n)) := by
  induction l with
  | nil => rfl
  | cons n l ih =>
    rw [State.entriesOf, valid n List.mem_cons_self, ih fun k hk => valid k (List.mem_cons_of_mem n hk)]
    rfl

/-- The refresh that `mghost` starts. -/
def State.newRefresh (s : State) (f : Fields) (d : MDesc) (g : Nat) (x : MGen) : Refresh :=
  ⟨s.nextOp, s.hart.ctx, d.va, d.pa, s.agent, g,
    (namedFields (s.hart.xr f.b).toNat).flatMap fun n => (List.range x.first.length).map fun p => (n, p),
    if f.c = .x 0 then 0 else (s.hart.xr f.c).toNat⟩
/-- The sectors of all its parts. -/
def ghostTotal (h : Hart) (f : Fields) (x : MGen) (entry : Nat → Nat) : Nat :=
  ((namedFields (h.xr f.b).toNat).flatMap fun n => (List.range x.first.length).map fun p =>
    ghostSectors x p (bitsAt (entry n) 0 16)).foldl (· + ·) 0
theorem mghost_starts {s : State} {f : Fields} {d : MDesc} (c : s.Clear f []) (m : MeshFound s f d) (clean : d.err = false) {t : List Nat}
    {g : Nat} {x : MGen} {entry : Nat → Nat} (p : PartsOpen s d t) (bound : s.bindOf d = some g)
    (built : (s.mesh s.hart.ctx d.va).buf g = some x)
    (valid : ∀ n ∈ namedFields (s.hart.xr f.b).toNat, s.entryOf d n = .ok (entry n))
    (bar : f.c = .x 0 ∨ (s.hartBar (s.hart.xr f.c).toNat).isSome = true) :
    ∃ u, ({ s with nextOp := s.nextOp + 1, refreshes := s.refreshes ++ [s.newRefresh f d g x] } : State).EngFrame u ∧
      exec (.mghost f) s = .next (u.gives f (ghostTotal s.hart f x entry)) := by
  have can : ¬(f.c ≠ .x 0 ∧ (s.hartBar (s.hart.xr f.c).toNat).isNone) := by
    rintro ⟨some_, none_⟩
    obtain none' | known := bar
    · exact some_ none'
    · rw [Option.isNone_iff_eq_none.1 none_] at known; exact Bool.false_ne_true known
  let pairs := (namedFields (s.hart.xr f.b).toNat).map fun n => (n, entry n)
  let r := s.newRefresh f d g x
  let started : State := { s with nextOp := s.nextOp + 1, refreshes := s.refreshes ++ [r] }
  let u := pairs.foldl (fun (s : State) e => s.markGhosts r x e.2) started
  have frame : started.EngFrame u := foldl_keeps (P := fun t : State => started.EngFrame t) _ _ (.refl _) fun t e kept =>
    kept.trans (markGhosts_frame t r x e.2)
  refine ⟨u, frame, ?_⟩
  rw [exec_mghost, execMghost]
  refine meshOp_after c m.idle m.free rfl ?_
  have onTime : u.hart.late = [] := by rw [frame.eq]; exact c.onTime
  rw [← produceX_gives onTime]
  simp only [withMesh_found m, withParts_open p, withBind_bound bound, built, entriesOf_valid valid, withNoErr_clean clean, can, if_false,
    drainAll_still m.idle, List.flatMap_map]
  rfl

/-- Settles O38. -/
theorem meshUpdateResults : Obligations.MeshUpdateResults := by
  unfold Obligations.MeshUpdateResults
  intro f s d c m key v
  refine ⟨?_, ?_, ?_, ?_, ?_⟩
  · intro turn free room built
    refine ⟨_, mbind_gives c m free room built turn, ?_, ?_, ?_⟩
    · rw [gives_binds (bound_here c.here d), bound_hart c.here, Hart.wake_eq]; rfl
    · intro a
      rw [gives_readByte, State.bound, State.modHart, modHartAt_readByte]
      exact addRcnt_mem (s := s) (t := v) rfl rfl d.pa d.gen true a
    · exact fun n dst nz => gives_getX (bound_here c.here d) dst nz d.gen
  · intro turn
    refine ⟨fun g bound => munbind_waits c m bound turn, fun free room built => mbind_waits c m free room built turn, fun clean e he => ?_⟩
    rw [jobForms_run f s e he]
    exact jobOp_later c m clean _ _ turn
  · exact fun turn g bound => munbind_unbinds c m bound turn
  · exact fun wf g => addRcnt_counts s wf d.pa g
  · intro clean
    refine ⟨?_, ?_, ?_, ?_⟩
    case refine_1 =>
      intro e he g x l bound built shape cells m'
      simp only [markForms, List.mem_cons, List.not_mem_nil, or_false] at he
      obtain rfl | rfl := he
      · exact ⟨mmarkOp_late c m clean bound built shape cells 2, mmarkOp_marks c m clean bound built shape cells 2⟩
      · exact ⟨mmarkOp_late c m clean bound built shape cells 1, mmarkOp_marks c m clean bound built shape cells 1⟩
    case refine_2 =>
      intro turn e he
      rw [jobForms_run f s e he]
      refine ⟨fun stopped => jobOp_stops c m clean _ _ turn (by simp [stopped]), fun ready => ?_⟩
      have kind : e.2.1 f v = e.2.1 f s := by
        simp only [jobForms, List.mem_cons, List.not_mem_nil, or_false] at he
        obtain rfl | rfl | rfl := he <;> rfl
      refine ⟨?_, startJob_jobs (s := v) m.idle d (e.2.1 f s) f, fun wf => ?_, fun n dst nz => ?_⟩
      · rw [← kind]
        exact jobOp_starts c m clean _ _ turn (by simp [ready])
      · rw [startJob_busy (s := v) m.idle d _ f wf]
        exact Nat.mod_eq_of_lt (Nat.or_lt_two_pow (word_lt m 2 (by decide)) (by decide))
      · exact startJob_empties (s := v) m.idle d _ f c.here dst nz
    case refine_3 =>
      intro pa n has here sound
      refine ⟨mfieldRm_busy c m clean has here sound, mfieldRm_removes c m clean has here sound, fun l v reads good => ?_⟩
      exact mfield_writes c m clean has here sound reads good
    case refine_4 =>
      intro t g x entry p bound built named valid bar
      obtain ⟨u, frame, runs⟩ := mghost_starts c m clean (entry := entry) p bound built (fun n hn => by
        obtain ⟨has, reads, set_, good⟩ := valid n hn
        exact entryOf_valid has reads set_ good) bar
      have inside : u.cur < u.harts.length := by rw [frame.eq]; exact c.here
      refine ⟨_, s.newRefresh f d g x, runs, ?_, rfl, rfl, rfl, rfl, rfl, ?_, fun n dst nz => gives_getX inside dst nz _⟩
      · show u.refreshes = _; rw [frame.eq]
      · show u.mem = _; rw [frame.eq]

end Sys2Proof.Machine
end

section
/-! Mesh jobs, remaps of fields and refreshes of ghosts end (R276 to R280, R282, R284). -/
namespace Sys2Proof.Machine

/-! What the engine's writes leave (R268). -/

/-- A write of an engine changes no remap. -/
theorem engWrite_remaps {s t : State} {ag : Agent} {die cluster va v n : Nat} (h : s.engWrite ag die cluster va v n = .ok t) :
    t.remaps = s.remaps := by
  unfold State.engWrite at h
  split at h
  · cases h
  · next l _ =>
    split_ifs at h
    obtain rfl := Except.ok.inj h
    exact List.foldlRecOn (motive := fun acc : State × Nat => acc.1.remaps = s.remaps) l _ rfl fun acc kept p _ => by
      rw [State.writeN_frame]; exact kept
theorem publish_remaps (s : State) (ag : Agent) (va v : Nat) : (s.publish ag va v).remaps = s.remaps := by
  unfold State.publish
  split
  · rfl
  · split
    · next h => exact engWrite_remaps h
    · rfl
/-- A write of a range that lies in one piece gives its bytes their new values, and keeps all others. -/
theorem meshWrite_writes {s t : State} {ag : Agent} {va v n pa : Nat}
    (range : s.hbmRange ag .store va n = some [(pa, n)]) (done : s.meshWrite ag va v n = .ok t) : t = s.writeN pa (v % 2 ^ (8 * n)) n := by
  have whole : s.engRange ag ag.place.die ag.place.cluster .store va n = .ok [(pa, n)] := by
    unfold State.hbmRange at range
    split at range
    · next l ranges =>
      split_ifs at range
      rw [ranges, Option.some.inj range]
    · cases range
  simp only [State.meshWrite, range, State.engWrite, whole] at done
  split at done
  · next t' ends =>
    split_ifs at ends
    rw [← Except.ok.inj done, ← Except.ok.inj ends]
    rfl
  · cases done

/-! Jobs (R276 to R280). -/

/-- Whether a job builds the first generation. -/
def JobKind.first : JobKind → Bool
  | .init _ => true
  | _ => false
theorem JobKind.first_iff (k : JobKind) : k.first = false ↔ ∀ e, k ≠ .init e := by
  cases k <;> simp [JobKind.first]
/-- The buffer that a job writes. -/
def MeshJob.buffer (j : MeshJob) : Nat := if j.kind.first then 0 else (j.gen + 1) % 2
/-- The descriptor of a job's mesh as it stands. -/
def State.jobDesc (s : State) (j : MeshJob) : MDesc := s.readDesc j.va (s.mesh j.ctx j.va).pa
/-- What a job that runs has built, or its code. -/
def State.jobRun (s : State) (j : MeshJob) : State × MeshJob :=
  match s.runJob j (s.jobDesc j) with
  | .error e => (s, { j with code := some e })
  | .ok (s, g, o) => (s, { j with code := some 0, next := some g, origins := o })

section
variable {s : State} {j : MeshJob} (listed : s.meshJobs.find? (·.id == j.id) = some j) (quiet : s.underTest = [])
include listed quiet
theorem meshJob_runs : exec (.meshJob j.id) s = .next (if j.code.isSome ∨ (s.jobDesc j).blk j.buffer 2 ≠ 0 then s
    else if j.kind.first then (s.jobRun j).1.endJob (s.jobRun j).2 ((s.jobRun j).2.code.getD 0)
    else (s.jobRun j).1.modJob j.id fun _ => (s.jobRun j).2) := by
  show execMeshJob j.id s = _
  unfold execMeshJob
  simp only [listed, agentHeld_untested quiet, Bool.false_eq_true, or_false]
  exact (apply_ite Host.Outcome.next (j.code.isSome ∨ (s.jobDesc j).blk j.buffer 2 ≠ 0) _ _).symm
theorem generationPublish_ends : exec (.generationPublish j.id) s = .next (match j.code with
    | some code => s.endJob j code
    | none => s) := by
  show execGenerationPublish j.id s = _
  unfold execGenerationPublish
  simp only [listed, agentHeld_untested quiet, Bool.false_eq_true, if_false]
  cases j.code <;> rfl
end

/-- What is left of the engine's books once a job has ended, in its turn at the mesh's home. -/
def State.jobEnded (s : State) (j : MeshJob) : State :=
  ({ s with meshJobs := s.meshJobs.filter (·.id != j.id) }.unmark (.mesh j.id)).setTurn (.mesh j.ctx j.va) none
/-- The state in which a job has failed with a code. -/
def State.jobFailed (s : State) (j : MeshJob) (code : Nat) : State :=
  (((s.jobEnded j).setDesc (s.mesh j.ctx j.va).pa 2 (2 ^ 62 + code * 2 ^ 48)).setMesh { s.mesh j.ctx j.va with snap := false }).answerJob j
    (2 + code * 256)
theorem endJob_fails {j : MeshJob} (none_ : j.next = none) (s : State) (code : Nat) : s.endJob j code = s.jobFailed j code := by
  unfold State.endJob
  rw [none_]
  rfl
/-- The first generation is published with no remap. -/
theorem endJob_first {j : MeshJob} {g : MGen} (built : j.next = some g) (first : j.kind.first = true) (s : State) (code : Nat) :
    s.endJob j code = (let n := s.mesh j.ctx j.va
      let e := s.readDesc j.va n.pa
      (((((s.jobEnded j).setDesc e.pa 0 (e.word 0 ||| 2 ^ 31)).setDesc e.pa 1 0).setDesc e.pa 2 (e.word 2 % 2 ^ 63)).setMesh
        { n with buf0 := some g, marks := [], snap := false }).answerJob j 0) := by
  obtain ⟨cells, kind⟩ : ∃ e, j.kind = .init e := by
    by_contra no
    exact Bool.false_ne_true (((JobKind.first_iff _).2 fun e h => no ⟨e, h⟩).symm.trans first)
  unfold State.endJob
  simp only [built, kind, if_true]
  cases (s.mesh j.ctx j.va).buf j.gen <;> rfl
/-- A later generation is published, and its fields are remapped from the one before. -/
theorem endJob_next {j : MeshJob} {g o : MGen} (built : j.next = some g) (later : j.kind.first = false) (s : State) (code : Nat)
    (old : (s.mesh j.ctx j.va).buf j.gen = some o) : s.endJob j code =
      (let m := s.mesh j.ctx j.va
      let d := s.readDesc j.va m.pa
      let gen := (j.gen + 1) % 2 ^ 64
      (((((s.jobEnded j).setDesc d.pa 1 gen).setDesc d.pa 2 (d.word 2 % 2 ^ 63)).setMesh
        { m.setBuf gen g with marks := [], snap := false }).answerJob j 0).startRemaps j d o g) := by
  unfold State.endJob
  rw [built]
  cases kind : j.kind with
  | init e => exact absurd kind ((JobKind.first_iff _).1 later e)
  | rebuild => simp only [old]; rfl
  | balance w => simp only [old]; rfl

/-- The answer of a job fills D and leaves the rest of its hart (R276). -/
theorem answerJob_answers {s : State} {j : MeshJob} (here : j.agent.hart < s.harts.length) {n : Fin 64} (dst : j.f.d = .x n) (nz : n ≠ 0)
    (w : Nat) : let h := s.hartAt j.agent.hart
    let t := (s.answerJob j w).hartAt j.agent.hart
    t.getX n = BitVec.ofNat 64 w ∧ t.isEmpty (.x n) = false ∧ t.sr = h.sr ∧ t.pc = h.pc ∧ t.status = h.status := by
  intro h t
  have filled : t = (h.put (.x n) (.word (BitVec.ofNat 64 w))).markEmpty (.x n) false := by
    show (State.modHartAt _ _ _).hartAt _ = _
    rw [hartAt_modHartAt s _ _ here, dst]
  rw [filled]
  refine ⟨?_, isEmpty_markEmpty _ nz false, ?_, ?_, ?_⟩
  · exact (congrArg (fun x => if n = 0 then (0 : Word) else x[n]) (Hart.markEmpty_x ..)).trans (getX_put h nz _)
  · rw [Hart.markEmpty_sr]; simp [Hart.put]
  · simp
  · simp

/-- Marking what a remap reads and writes changes the engine's books only (R295). -/
theorem markRemap_frame (s : State) (r : Remap) : s.EngFrame (s.markRemap r) := by
  unfold State.markRemap
  split
  · exact .refl s
  · split
    · exact .refl s
    · exact foldl_keeps (P := fun t : State => s.EngFrame t) _ s (.refl s) fun t m kept =>
        foldl_keeps (P := fun t : State => s.EngFrame t) _ _ (kept.trans (State.mark_frame ..)) fun u p same => same.trans (State.mark_frame ..)
/-- A remap of a mesh's fields from the generation before a job's to the one the job has built. -/
def Remap.follows (r : Remap) (j : MeshJob) (d : MDesc) (o g : MGen) : Prop :=
  r.ctx = j.ctx ∧ r.va = j.va ∧ r.gen = j.gen ∧ r.field < d.nfield ∧
    r.moves = j.origins.zipIdx.map fun (x : Origin Nat × Nat) => (g.place x.2, x.1.map o.place)
/-- The remaps that a publication starts are those of the fields of its mesh. -/
theorem startRemaps_remaps (s : State) (j : MeshJob) (d : MDesc) (o g : MGen) :
    ∀ r ∈ (s.startRemaps j d o g).remaps, r ∈ s.remaps ∨ r.follows j d o g := by
  refine List.foldlRecOn (motive := fun t : State => ∀ r ∈ t.remaps, r ∈ s.remaps ∨ r.follows j d o g) _ _ (fun r mem => .inl mem)
    fun t known n mem => ?_
  dsimp only
  split
  · exact known
  · split
    · exact known
    · intro r listed
      rw [publish_remaps, (markRemap_frame ..).eq] at listed
      obtain before | new := List.mem_append.1 listed
      · exact known r before
      · obtain rfl := List.mem_singleton.1 new
        exact .inr ⟨rfl, rfl, rfl, List.mem_range.1 mem, rfl⟩

section
variable {s : State} {j : MeshJob} {d : MDesc} {g : MGen} {o : List (Origin Nat)}
  (stands : ∀ x, (s.mesh j.ctx j.va).buf j.gen = some x → s.intact x = true)
include stands
/-- A job that runs on arrays of its own that stand as written builds the generation of R277 to R283. -/
theorem jobResult_builds {fields tab : List Nat} {free : Bool} (result : s.jobResult j d fields tab = .ok (g, o, free)) :
    s.jobGen j d ((s.mesh j.ctx j.va).buf j.gen) = .ok (g, o) := by
  have sound : (((s.mesh j.ctx j.va).buf j.gen).any fun g => !s.intact g) = false := by
    cases built : (s.mesh j.ctx j.va).buf j.gen with
    | none => rfl
    | some x => simp [stands x built]
  have builds : (match s.jobGen j d ((s.mesh j.ctx j.va).buf j.gen) with
      | .error e => .error e
      | .ok (g, o) => match jobRoom d tab fields g with
        | some code => .error code
        | none => .ok (g, o, false)) = (.ok (g, o, free) : Except Nat (MGen × List (Origin Nat) × Bool)) := by
    unfold State.jobResult at result
    cases kind : j.kind <;> simp only [kind, sound, Bool.false_eq_true, if_false] at result <;> exact result
  split at builds
  · cases builds
  · next gen =>
    split at builds
    · cases builds
    · cases builds; exact gen
theorem runJob_builds {t : State} (runs : s.runJob j d = .ok (t, g, o)) :
    ∃ n, s.jobGen j d ((s.mesh j.ctx j.va).buf j.gen) = .ok (n, o) ∧ g = { n with secret := g.secret } := by
  unfold State.runJob at runs
  dsimp only at runs
  split at runs
  · cases runs
  · cases runs
  · split_ifs at runs
    split at runs
    · cases runs
    · next n o' free result =>
      split at runs
      · cases runs
      · split at runs
        · cases runs
        · split at runs
          · cases runs
          · cases runs
            exact ⟨n, jobResult_builds stands result, rfl⟩
end

/-! Remaps of fields (R282). -/

theorem fieldRemap_waits {s : State} {r : Remap} (listed : s.remaps.find? (·.id == r.id) = some r)
    (prior : ∃ x ∈ s.remaps, x.id < r.id ∧ x.ctx = r.ctx ∧ x.va = r.va ∧ x.field = r.field) : exec (.fieldRemap r.id) s = .next s := by
  have before : (s.remaps.any fun x => decide (x.id < r.id) && x.ctx == r.ctx && x.va == r.va && x.field == r.field) = true := by
    simpa [and_assoc] using prior
  show execFieldRemap r.id s = _
  simp only [execFieldRemap, listed, before, if_true]
theorem fieldRemap_ends {s : State} {r : Remap} (listed : s.remaps.find? (·.id == r.id) = some r) (quiet : s.underTest = [])
    (alone : ∀ x ∈ s.remaps, ¬(x.id < r.id ∧ x.ctx = r.ctx ∧ x.va = r.va ∧ x.field = r.field)) :
    exec (.fieldRemap r.id) s = .next (s.endRemap r) := by
  have first : (s.remaps.any fun x => decide (x.id < r.id) && x.ctx == r.ctx && x.va == r.va && x.field == r.field) = false := by
    simpa [and_assoc] using alone
  have free : s.remapHeld r = false := by simp [State.remapHeld, quiet]
  show execFieldRemap r.id s = _
  simp only [execFieldRemap, listed, first, free, Bool.false_eq_true, if_false]

/-- A remap is no longer listed once it ends. -/
def State.remapEnded (s : State) (r : Remap) : State := { s with remaps := s.remaps.filter (·.id != r.id) }.unmark (.mesh r.id)
/-- The record of a remap's field. -/
def State.remapEntry (s : State) (r : Remap) : Nat := fieldAddr (s.readDesc r.va r.pa) r.field 0
/-- The error that a remap leaves in its mesh's descriptor, and in its field's record. -/
def State.remapError (s : State) (r : Remap) : State := s.setDesc r.pa 2 (putBits (s.readN (descWord r.pa 2) 8) 62 1 1)
def State.remapFailed (s : State) (r : Remap) (w code : Nat) : State :=
  ((s.remapEnded r).publish r.agent (s.remapEntry r) (putBits (putBits (bitsAt w 0 64) 61 2 1) 48 8 code)).remapError r

theorem endRemap_eq (s : State) (r : Remap) : s.endRemap r = match (s.remapEnded r).meshRead r.agent (s.remapEntry r) 64 with
    | .error _ => (s.remapEnded r).remapError r
    | .ok w => match (if badRecord w then .error Config.reservedCode.toNat else (s.remapEnded r).remapWrites r w) with
      | .error code => s.remapFailed r w code
      | .ok l => match (if s.remapBroken r then ((s.remapEnded r).meshVeil r.agent (remapStamp r.ctx r.va r.field (r.gen + 1))
            (l.map fun x => (x.1, x.2.2))).map (·.1) else (s.remapEnded r).meshWrites r.agent l) with
        | .error code => s.remapFailed r w code
        | .ok t => ((t.publish r.agent (s.remapEntry r) (putBits (bitsAt w 0 64) 62 1 0)).publish r.agent (s.remapEntry r + 32) r.gen).publish
            r.agent (s.remapEntry r + 40) ((r.gen + 1) % 2 ^ 64) := rfl

section
variable {s : State} {r : Remap} {w : Nat} (reads : (s.remapEnded r).meshRead r.agent (s.remapEntry r) 64 = .ok w)
include reads
theorem endRemap_malformed (bad : badRecord w = true) : s.endRemap r = s.remapFailed r w Config.reservedCode.toNat := by
  simp only [endRemap_eq, reads, bad, if_true]
variable (good : badRecord w = false)
include good
theorem endRemap_fails {code : Nat} (fails : (s.remapEnded r).remapWrites r w = .error code) : s.endRemap r = s.remapFailed r w code := by
  simp only [endRemap_eq, reads, good, fails, Bool.false_eq_true, if_false]
theorem endRemap_writes {l : List (Nat × Nat × Nat)} {t : State} (sound : s.remapBroken r = false)
    (values : (s.remapEnded r).remapWrites r w = .ok l) (writes : (s.remapEnded r).meshWrites r.agent l = .ok t) :
    s.endRemap r = ((t.publish r.agent (s.remapEntry r) (putBits (bitsAt w 0 64) 62 1 0)).publish r.agent (s.remapEntry r + 32) r.gen).publish
      r.agent (s.remapEntry r + 40) ((r.gen + 1) % 2 ^ 64) := by
  simp only [endRemap_eq, reads, good, values, sound, writes, Bool.false_eq_true, if_false]
end

/-! The values of a remap (R282). -/

/-- The sources of a coarsened cell are read in their order. -/
theorem reads_zip {rd : Nat × Nat → Except Nat Nat} {ps : List (Nat × Nat)} {vs : List Nat}
    (reads : ps.foldr (fun o (acc : Except Nat (List Nat)) => match rd o, acc with
      | .ok v, .ok r => .ok (v :: r)
      | .error e, _ => .error e
      | _, .error e => .error e) (.ok []) = .ok vs) : vs.length = ps.length ∧ ∀ q ∈ ps.zip vs, rd q.1 = .ok q.2 := by
  induction ps generalizing vs with
  | nil => cases reads; simp
  | cons p ps ih =>
    rw [List.foldr_cons] at reads
    split at reads
    · next v rest read later =>
      cases reads
      obtain ⟨length, known⟩ := ih later
      refine ⟨congrArg Nat.succ length, fun q mem => ?_⟩
      obtain rfl | mem := List.mem_cons.1 mem
      · exact read
      · exact known q mem
    · cases reads
    · cases reads
/-- What a move writes: the value of its source, under the rule of its field. -/
def moveValue (dim rule n : Nat) (rd : Nat × Nat → Except Nat Nat) (writes : Nat → Prop) (o : Origin (Nat × Nat)) : Prop :=
  (∀ p, o = .same p → ∃ v, rd p = .ok v ∧ writes v) ∧ (∀ p, o = .child p → ∃ v, rd p = .ok v ∧ writes (if rule = 3 then 0 else v)) ∧
    ∀ ps, o = .coarse ps → ∃ vs : List Nat, vs.length = ps.length ∧ (∀ q ∈ ps.zip vs, rd q.1 = .ok q.2) ∧
      writes (if rule = 0 then vs.headD 0 else if rule = 2 then average dim n vs else 0)
theorem readOrigin_value {rd : Nat × Nat → Except Nat Nat} {o : Origin (Nat × Nat)} {v : Origin Nat} (reads : readOrigin rd o = .ok v)
    {dim rule n : Nat} {writes : Nat → Prop} (written : writes (remapValue dim rule n v)) : moveValue dim rule n rd writes o := by
  cases o with
  | same p =>
    obtain ⟨x, read, rfl⟩ : ∃ x, rd p = .ok x ∧ Origin.same x = v := by
      unfold readOrigin at reads
      cases read : rd p <;> simp [read, Except.map] at reads
      exact ⟨_, rfl, reads⟩
    exact ⟨fun q h => by cases h; exact ⟨x, read, written⟩, nofun, nofun⟩
  | child p =>
    obtain ⟨x, read, rfl⟩ : ∃ x, rd p = .ok x ∧ Origin.child x = v := by
      unfold readOrigin at reads
      cases read : rd p <;> simp [read, Except.map] at reads
      exact ⟨_, rfl, reads⟩
    exact ⟨nofun, fun q h => by cases h; exact ⟨x, read, written⟩, nofun⟩
  | coarse ps =>
    unfold readOrigin at reads
    dsimp only at reads
    generalize all : List.foldr _ _ ps = result at reads
    cases result with
    | error e => cases reads
    | ok vs =>
      cases reads
      obtain ⟨length, known⟩ := reads_zip all
      exact ⟨nofun, nofun, fun q h => by cases h; exact ⟨vs, length, known, written⟩⟩
theorem remapWrites_values {s : State} {r : Remap} {w : Nat} {l : List (Nat × Nat × Nat)} (values : s.remapWrites r w = .ok l) :
    l.length = r.moves.length ∧ ∀ (k : Nat) cell (o : Origin (Nat × Nat)), r.moves[k]? = some (cell, o) →
      ∃ v, readOrigin (fun p => s.meshRead r.agent (arrayAt w r.gen p) (bitsAt w 0 16)) o = .ok v ∧
        l[k]? = some (arrayAt w (r.gen + 1) cell, remapValue r.dim (bitsAt w 56 3) (bitsAt w 0 16) v, bitsAt w 0 16) := by
  unfold State.remapWrites at values
  dsimp only at values
  generalize r.moves = moves at values ⊢
  induction moves generalizing l with
  | nil => cases values; exact ⟨rfl, fun k cell o h => by simp at h⟩
  | cons m moves ih =>
    rw [List.foldr_cons] at values
    split at values
    · next v rest reads later =>
      cases values
      obtain ⟨length, known⟩ := ih later
      refine ⟨congrArg Nat.succ length, fun k cell o move => ?_⟩
      cases k with
      | zero => cases move; exact ⟨v, reads, rfl⟩
      | succ k => exact known k cell o move
    · cases values
    · cases values

/-! Refreshes (R284). -/

section
variable {s : State} {r : Refresh} (listed : s.refreshes.find? (·.id == r.id) = some r) (quiet : s.underTest = [])
  {field p : Nat} {rest : List (Nat × Nat)} {g : MGen} {w : Nat} (next : r.todo = (field, p) :: rest)
  (built : (s.mesh r.ctx r.va).buf r.gen = some g) (stands : s.intact g = true)
  (reads : s.meshRead r.agent (fieldAddr (s.readDesc r.va r.pa) field 0) 64 = .ok w) (good : badRecord w = false)
include listed quiet next built stands reads good
theorem ghostRefresh_copies : exec (.ghostRefresh r.id) s = .next (match s.ghostCopy r.agent none (ghostMoves g w r.gen p) with
    | (t, b, some e) => (t.refreshCredit r (b / 64)).failRefresh r e
    | (t, _, none) => (if rest.all fun x => (g.ghosts.getD x.2 []).isEmpty then t.dropRefresh r
        else { t with refreshes := t.refreshes.map fun x => if x.id == r.id then { x with todo := rest } else x }).refreshCredit r
          (ghostSectors g p (bitsAt w 0 16))) := by
  show execGhostRefresh r.id s = _
  simp only [execGhostRefresh, listed, quiet, List.isEmpty_nil, Bool.not_true, Bool.false_and, Bool.false_eq_true, if_false,
    State.refreshOne, next, built, stands, if_true, reads, good] <;> rfl
end
/-- The moves of a part go from each ghost's owner to the place behind the part's own cells. -/
theorem ghostMoves_getElem? {g : MGen} {p i c : Nat} (ghost : (g.ghosts.getD p [])[i]? = some c) (w gen : Nat) :
    (ghostMoves g w gen p)[i]? = some (arrayAt w gen (p, g.nown.getD p 0 + i), arrayAt w gen (g.place c), bitsAt w 0 16) := by
  simp only [ghostMoves, List.getElem?_map, List.getElem?_zipIdx, ghost, Option.map_some, Nat.zero_add]

/-- Settles O39: a job, a publication, a remap and a refresh, each by what its event does. -/
theorem meshEventResults : Obligations.MeshEventResults := by
  unfold Obligations.MeshEventResults
  refine ⟨fun s j listed quiet => ?_, fun s r listed quiet => ?_, ?_, ?_⟩
  · intro m d ends gen fails
    have runs := meshJob_runs listed quiet
    have publishes := generationPublish_ends listed quiet
    refine ⟨?_, ?_, ?_, ?_, ?_, fun w n dst nz here => answerJob_answers here dst nz w, fun o g => startRemaps_remaps s j d o g⟩
    · intro fresh later free
      have later := (JobKind.first_iff _).2 later
      have waits : ¬(j.code.isSome = true ∨ (s.jobDesc j).blk j.buffer 2 ≠ 0) := by
        simp only [fresh, MeshJob.buffer, later]
        exact fun h => h.elim (absurd · Bool.false_ne_true) (absurd free)
      rw [if_neg waits, later] at runs
      refine ⟨fun e fails => ?_, fun t g o builds => ⟨?_, fun stands => runJob_builds stands builds⟩⟩
      · rw [runs, State.jobRun, show s.runJob j (s.jobDesc j) = .error e from fails]; rfl
      · rw [runs, State.jobRun, show s.runJob j (s.jobDesc j) = .ok (t, g, o) from builds]; rfl
    · intro held
      have waits : j.code.isSome = true ∨ (s.jobDesc j).blk j.buffer 2 ≠ 0 := by
        refine held.imp_right fun ⟨later, bound⟩ => ?_
        rw [MeshJob.buffer, (JobKind.first_iff _).2 later]
        exact bound
      rw [runs, if_pos waits]
    · intro cin fresh kind none_ free
      have first : j.kind.first = true := by rw [kind]; rfl
      have waits : ¬(j.code.isSome = true ∨ (s.jobDesc j).blk j.buffer 2 ≠ 0) := by
        simp only [fresh, MeshJob.buffer, first]
        exact fun h => h.elim (absurd · Bool.false_ne_true) (absurd free)
      rw [if_neg waits, if_pos first] at runs
      refine ⟨fun e error => ?_, fun t g o builds => ?_⟩
      · rw [runs, State.jobRun, show s.runJob j (s.jobDesc j) = .error e from error]
        exact congrArg _ (endJob_fails (j := { j with code := some e }) none_ s e)
      · rw [runs, State.jobRun, show s.runJob j (s.jobDesc j) = .ok (t, g, o) from builds]
        exact congrArg _ (endJob_first (j := { j with code := some 0, next := some g, origins := o }) rfl first t 0)
    · intro fresh
      rw [publishes, fresh]
    · intro code ended
      rw [ended] at publishes
      refine ⟨fun none_ => ?_, fun g o built later old => ?_⟩
      · rw [publishes]
        exact congrArg _ (endJob_fails none_ s code)
      · rw [publishes]
        exact congrArg _ (endJob_next built ((JobKind.first_iff _).2 later) s code old)
  · intro prior u e fails
    refine ⟨fieldRemap_waits listed, ?_, ?_, ?_, ?_⟩
    · intro w l t alone sound reads good values writes
      rw [fieldRemap_ends listed quiet alone]
      exact congrArg _ (endRemap_writes reads good sound values writes)
    · intro w code alone reads
      rw [fieldRemap_ends listed quiet alone]
      exact ⟨fun good fails => congrArg _ (endRemap_fails reads good fails), fun bad => congrArg _ (endRemap_malformed reads bad)⟩
    · intro code alone reads
      rw [fieldRemap_ends listed quiet alone, endRemap_eq, show (s.remapEnded r).meshRead r.agent (s.remapEntry r) 64 = .error code from reads]
      rfl
    · intro w l values
      obtain ⟨length, known⟩ := remapWrites_values values
      refine ⟨length, fun k cell o move => ?_⟩
      obtain ⟨v, reads, written⟩ := known k cell o move
      exact readOrigin_value reads written
  · intro s t ag va v n pa wf range done
    obtain rfl := meshWrite_writes range done
    refine ⟨?_, fun b outside => State.readByte_writeN_ne s _ _ _ _ wf outside⟩
    rw [State.readN_writeN _ _ _ _ wf, Nat.mod_mod]
  · intro s r listed quiet field p rest g w next built stands reads good n ghosts last
    refine ⟨?_, ?_, fun i c ghost => ghostMoves_getElem? ghost w r.gen, ?_⟩
    · intro t b copies
      rw [ghostRefresh_copies listed quiet next built stands reads good, copies]
      simp only [beq_iff_eq]
      rfl
    · intro t b code copies
      rw [ghostRefresh_copies listed quiet next built stands reads good, copies]
    · intro dst src k l v t reads writes
      simp only [State.ghostCopy, reads, writes]

end Sys2Proof.Machine
end

section
/-! Combine buffers (R254 to R263). -/
namespace Sys2Proof.Machine

/-! Buffers and their slots. -/

theorem cbuf_ids (s : State) (ctx cbid : Nat) : (s.cbuf ctx cbid).ctx = ctx ∧ (s.cbuf ctx cbid).cbid = cbid := by
  unfold State.cbuf
  cases found : s.cbufs.find? fun b => b.ctx == ctx && b.cbid == cbid && s.keepsBuf b with
  | none => exact ⟨rfl, rfl⟩
  | some b =>
    have fits := List.find?_some found
    simp only [Bool.and_eq_true, beq_iff_eq] at fits
    exact fits.1
theorem cbufAt_ids (s : State) (ctx : Nat) (d : CDesc) : (s.cbufAt ctx d).ctx = ctx ∧ (s.cbufAt ctx d).cbid = d.cbid := by
  unfold State.cbufAt
  dsimp only
  split <;> exact cbuf_ids s ctx d.cbid
/-- A descriptor that the checks of R255 let pass is that of the buffer they were made for. -/
theorem cbufDesc_cbid {s : State} {ag : Agent} {a : Nat} {d : CDesc} (found : s.cbufDesc ag a = .ok d) : d.cbid = a := by
  unfold State.cbufDesc at found
  split_ifs at found
  split at found
  · cases found
  · dsimp only at found
    split_ifs at found
    split at found
    · cases found
    · split_ifs at found
      split at found
      · cases found
      · split_ifs at found
        cases found
        rfl
theorem slot_setSlot (b : CBuf) (t : CSlot) : (b.setSlot t).slot t.n = some t := by
  simp [CBuf.setSlot, CBuf.slot]
theorem slot_setSlot_ne (b : CBuf) (t : CSlot) {m : Nat} (other : m ≠ t.n) : (b.setSlot t).slot m = b.slot m := by
  have kept (l : List CSlot) : (l.filter (·.n != t.n)).find? (·.n == m) = l.find? (·.n == m) := by
    rw [List.find?_filter]
    congr 1
    funext x
    by_cases h : x.n = m
    · simp [h, other]
    · simp [h]
  rw [CBuf.setSlot, CBuf.slot, List.find?_cons_of_neg (by simpa using Ne.symm other), kept]
  rfl
/-- A buffer of a context whose slots are those of `b`, but for one. -/
def State.holdsSlot (s : State) (ctx cbid : Nat) (b : CBuf) (n : Nat) (t : CSlot) : Prop :=
  ∃ y ∈ s.cbufs, y.ctx = ctx ∧ y.cbid = cbid ∧ y.home = b.home ∧ y.slot n = some t ∧ ∀ m, m ≠ n → y.slot m = b.slot m
theorem setCbuf_holds (s : State) {ctx : Nat} {d : CDesc} {v : State} {y : CBuf} {t : CSlot}
    (slots : y.slots = ((v.cbufAt ctx d).setSlot t).slots) (same : y.ctx = (v.cbufAt ctx d).ctx ∧ y.cbid = (v.cbufAt ctx d).cbid)
    (home : y.home = (v.cbufAt ctx d).home) : (s.setCbuf y).holdsSlot ctx d.cbid (v.cbufAt ctx d) t.n t := by
  have slot (m : Nat) : y.slot m = ((v.cbufAt ctx d).setSlot t).slot m := by rw [CBuf.slot, slots, CBuf.slot]
  obtain ⟨ctx_, cbid⟩ := cbufAt_ids v ctx d
  exact ⟨y, List.mem_cons_self, same.1.trans ctx_, same.2.trans cbid, home, (slot _).trans (slot_setSlot _ t),
    fun m other => (slot m).trans (slot_setSlot_ne _ t other)⟩

/-! What the first operation of a buffer leaves (R333). -/

/-- What the creation of a home may change. -/
structure State.HomeFrame (s t : State) : Prop where
  eq : t = { s with blocks := t.blocks, tuples := t.tuples, reqs := t.reqs, cbufs := t.cbufs, marks := t.marks }
theorem createHome_frame (s : State) (ctx : Nat) : s.HomeFrame (s.createHome ctx) := by
  unfold State.createHome
  split <;> exact ⟨rfl⟩
theorem openBuf_frame (s : State) (ctx cbid : Nat) : s.HomeFrame (s.openBuf ctx cbid) := by
  unfold State.openBuf
  split
  · exact ⟨rfl⟩
  · exact createHome_frame s ctx

/-! The staging of a row (R252). -/

/-- What the staging of a row leaves: memory but for its veils, the buffers, and the harts but for their monitors. -/
structure State.StageFrame (s t : State) : Prop where
  mem : t.mem = s.mem
  cbufs : t.cbufs = s.cbufs
  cur : t.cur = s.cur
  length : t.harts.length = s.harts.length
  harts : ∀ k, t.hartAt k = { s.hartAt k with monitor := (t.hartAt k).monitor }
theorem State.StageFrame.refl (s : State) : s.StageFrame s := ⟨rfl, rfl, rfl, rfl, fun _ => rfl⟩
theorem State.StageFrame.trans {s t u : State} (h : s.StageFrame t) (k : t.StageFrame u) : s.StageFrame u where
  mem := k.mem.trans h.mem
  cbufs := k.cbufs.trans h.cbufs
  cur := k.cur.trans h.cur
  length := k.length.trans h.length
  harts n := by rw [k.harts n, h.harts n]
theorem EngFrame_stage {s t : State} (h : s.EngFrame t) : s.StageFrame t := by
  rw [h.eq]
  exact ⟨rfl, rfl, rfl, rfl, fun _ => rfl⟩
theorem lay_stage (s : State) (v : Veil) : s.StageFrame (s.lay v) where
  mem := rfl
  cbufs := rfl
  cur := rfl
  length := List.length_map _
  harts n := by
    have woken : (s.lay v).hartAt n = (s.hartAt n).wake v.lo (v.hi - v.lo) := by
      simp only [State.lay, State.hartAt, List.getD_eq_getElem?_getD, List.getElem?_map]
      cases s.harts[n]? <;> rfl
    rw [woken]
    exact Hart.wake_eq ..
theorem stageClear_stage (s : State) (l : List (Nat × Nat)) : s.StageFrame (s.stageClear l) := by
  have written : s.StageFrame (s.writeFree (stageStamp s.nextOp) 0 l) :=
    foldl_keeps (P := fun t => s.StageFrame t) _ _ (.refl s) fun t v kept => (kept.trans (lay_stage t v)).trans (EngFrame_stage (State.fires_frame _ _))
  exact written.trans ⟨rfl, rfl, rfl, rfl, fun _ => rfl⟩

/-! The steps at the home, outside deterministic mode (R257, R258). -/

/-- The buffer's home, where an operation of the current hart is performed. -/
def State.atBuffer (s : State) (cbid : Nat) : State := (s.openBuf s.hart.ctx cbid).takeTurn (.buffer s.hart.ctx cbid) s.hart
theorem atBuffer_frame (s : State) (cbid : Nat) : (s.atBuffer cbid).mem = s.mem ∧ (s.atBuffer cbid).veils = s.veils ∧
    (s.atBuffer cbid).harts = s.harts ∧ (s.atBuffer cbid).cur = s.cur ∧ (s.atBuffer cbid).clock = s.clock := by
  rw [State.atBuffer, (openBuf_frame s s.hart.ctx cbid).eq]
  exact ⟨rfl, rfl, rfl, rfl, rfl⟩
/-- What a step gives its hart: the status and a slot's number. -/
def State.statusOf (s : State) (f : Fields) (status slot : Nat) : State :=
  s.modHart fun h => h.put f.d (.word (BitVec.ofNat 64 (status * 2 ^ 32 + slot)))
/-- A slot as an allocation opens it (R257). -/
def CSlot.opened (c : CSlot) (d : CDesc) (row alloc time : Nat) : Prop :=
  c.state = .filling ∧ c.token = bitsAt row 384 32 ∧ c.experts = allocExperts d.k row ∧ c.weights = allocWeights d.k row ∧ c.rows = [] ∧
    c.alloc = alloc ∧ c.deadline = if d.timeout = 0 then none else some (time + d.timeout)

/-- The slot that an allocation opens in a buffer. -/
def CDesc.newSlot (d : CDesc) (v : State) (b : CBuf) (row n : Nat) : CSlot :=
  { n := n, state := .filling, token := allocToken row, experts := allocExperts d.k row, weights := allocWeights d.k row, rows := []
    missing := 0, alloc := b.nextAlloc, deadline := if d.timeout = 0 then none else some (v.time + d.timeout)
    isPartial := false, err := false, spoilt := false, flags := 0, agent := v.agent }
/-- A slot with one more row, and one that has closed once it has them all (R258). -/
def CSlot.adding (c : CSlot) (v : State) (i : Nat) (row : List (Nat × Nat)) : CSlot :=
  { c with rows := c.rows ++ [(i, row.foldr (fun p acc => v.readN p.1 p.2 + 2 ^ (8 * p.2) * acc) 0)]
           spoilt := c.spoilt || row.any fun p => v.poisoned p.1 p.2 }
def CSlot.closes (c : CSlot) : CSlot := if c.full then { c with state := .closing } else c
theorem closes_keeps (c : CSlot) : c.closes.n = c.n ∧ c.closes.rows = c.rows ∧ c.closes.token = c.token ∧ c.closes.full = c.full := by
  unfold CSlot.closes
  split <;> exact ⟨rfl, rfl, rfl, rfl⟩

section
variable {s : State} {cbid : Nat} {d : CDesc} (free : s.hart.det = false) (found : s.cbufDesc s.agent cbid = .ok d) (f : Fields)
include free found

theorem allocRun_full (row : Nat) (full : ((s.atBuffer cbid).cbufAt s.hart.ctx d).freeSlot d.nslot = none) : allocRun f cbid row s =
    .done (((s.atBuffer cbid).setCbuf (((s.atBuffer cbid).cbufAt s.hart.ctx d).count nNOSLOT)).statusOf f 1 0) := by
  rw [State.atBuffer] at full
  simp only [allocRun, found, free, full, Bool.false_eq_true, if_false]
  rfl
theorem allocRun_opens (row : Nat) {n : Nat} (lowest : ((s.atBuffer cbid).cbufAt s.hart.ctx d).freeSlot d.nslot = some n) : ∃ (t : State) (c : CSlot),
    allocRun f cbid row s = .done (t.statusOf f 0 n) ∧ t.harts = s.harts ∧ t.cur = s.cur ∧ t.mem = s.mem ∧
      t.holdsSlot s.hart.ctx cbid ((s.atBuffer cbid).cbufAt s.hart.ctx d) n c ∧
      c.opened d row ((s.atBuffer cbid).cbufAt s.hart.ctx d).nextAlloc s.time := by
  obtain ⟨mem, -, harts, cur, clock⟩ := atBuffer_frame s cbid
  let v := s.atBuffer cbid
  let b := v.cbufAt s.hart.ctx d
  let c := d.newSlot v b row n
  let u := v.setCbuf { (b.setSlot c).count nALLOC with nextAlloc := b.nextAlloc + 1 }
  let m := u.mark c.agent s.hart.place.die s.hart.place.cluster (.slot ⟨s.hart.ctx, cbid⟩ n) true (d.outRow c.token) d.outBytes
  have frame : u.EngFrame m := State.mark_frame ..
  refine ⟨m, c, ?_, ?_, ?_, ?_, ?_, rfl, rfl, rfl, rfl, rfl, rfl, ?_⟩
  · rw [State.atBuffer] at lowest
    simp only [allocRun, found, free, lowest, Bool.false_eq_true, or_false]
    rfl
  · rw [frame.eq]; exact harts
  · rw [frame.eq]; exact cur
  · rw [frame.eq]; exact mem
  · have holds : u.holdsSlot s.hart.ctx d.cbid b n c :=
      setCbuf_holds v (v := v) (y := { (b.setSlot c).count nALLOC with nextAlloc := b.nextAlloc + 1 }) (t := c) rfl ⟨rfl, rfl⟩ rfl
    rw [frame.eq]
    rwa [cbufDesc_cbid found] at holds
  · show (if d.timeout = 0 then none else some (v.time + d.timeout)) = _
    rw [State.time, clock, State.time]

/-! A contribution (R258). -/

section
variable {tag : Nat} (row : List (Nat × Nat))
theorem putRun_late (late : ∀ c, ((s.atBuffer cbid).cbufAt s.hart.ctx d).slot (tagSlot tag) = some c → c.state ≠ .filling ∨ c.token ≠ tagToken tag) :
    putRun f cbid tag row s = .done (((s.atBuffer cbid).setCbuf (((s.atBuffer cbid).cbufAt s.hart.ctx d).count nLATE)).statusOf f 2 0) := by
  cases slot : ((s.atBuffer cbid).cbufAt s.hart.ctx d).slot (tagSlot tag) with
  | none =>
    rw [State.atBuffer] at slot
    simp only [putRun, found, free, slot, Bool.false_eq_true, if_false]
    rfl
  | some c =>
    have late := late c slot
    rw [State.atBuffer] at slot
    simp only [putRun, found, free, slot, late, Bool.false_eq_true, if_false, if_true]
    rfl

variable {c : CSlot} (slot : ((s.atBuffer cbid).cbufAt s.hart.ctx d).slot (tagSlot tag) = some c)
  (expected : ¬(c.state ≠ .filling ∨ c.token ≠ tagToken tag))
include slot expected
omit free in
theorem putRun_unexpected (none_ : c.experts.idxOf? (tagExpert tag) = none) : putRun f cbid tag row s =
    .done (((s.atBuffer cbid).setCbuf (((s.atBuffer cbid).cbufAt s.hart.ctx d).count nUNEXP)).statusOf f 4 0) := by
  rw [State.atBuffer] at slot
  simp only [putRun, found, slot, expected, none_, if_false]
  rfl
variable {i : Nat} (entry : c.experts.idxOf? (tagExpert tag) = some i)
include entry
theorem putRun_again (twice : c.rows.any (·.1 == i) = true) : putRun f cbid tag row s =
    .done (((s.atBuffer cbid).setCbuf (((s.atBuffer cbid).cbufAt s.hart.ctx d).count nDUP)).statusOf f 3 0) := by
  rw [State.atBuffer] at slot
  simp only [putRun, found, free, slot, expected, entry, twice, Bool.false_eq_true, if_false, if_true]
  rfl
omit free in
theorem putRun_adds (first : c.rows.any (·.1 == i) = false) : ∃ (t : State) (x : CSlot), putRun f cbid tag row s = .done (t.statusOf f 0 0) ∧
    s.harts.length = t.harts.length ∧ t.cur = s.cur ∧ (∀ k, t.hartAt k = { s.hartAt k with monitor := (t.hartAt k).monitor }) ∧ t.mem = s.mem ∧
      t.holdsSlot s.hart.ctx cbid ((s.atBuffer cbid).cbufAt s.hart.ctx d) (tagSlot tag) x ∧
      x.rows = c.rows ++ [(i, row.foldr (fun p acc => s.readN p.1 p.2 + 2 ^ (8 * p.2) * acc) 0)] ∧ x.token = c.token ∧
      x.state = if x.full then .closing else .filling := by
  obtain ⟨mem, veils, harts, cur, clock⟩ := atBuffer_frame s cbid
  let v := s.atBuffer cbid
  let b := v.cbufAt s.hart.ctx d
  let x := (c.adding v i row).closes
  obtain ⟨number, rows, same, full⟩ := closes_keeps (c.adding v i row)
  let u := (v.setCbuf (b.setSlot x)).stageClear (v.stagePa x.agent d x.n i)
  have stage : (v.setCbuf (b.setSlot x)).StageFrame u := stageClear_stage ..
  have here : x.n = tagSlot tag := number.trans (show c.n = _ by simpa [CBuf.slot] using List.find?_some slot)
  have bytes (p k : Nat) : v.readN p k = s.readN p k := readN_congr (fun a => by rw [State.readByte_eq, State.readByte_eq, mem, veils]) p k
  refine ⟨u, x, ?_, ?_, stage.cur.trans cur, fun k => ?_, stage.mem.trans mem, ?_, ?_, ?_, ?_⟩
  · rw [State.atBuffer] at slot
    simp only [putRun, found, slot, expected, entry, first, Bool.false_eq_true, if_false]
    rfl
  · exact (congrArg List.length harts).symm.trans stage.length.symm
  · exact (stage.harts k).trans (by rw [show (v.setCbuf (b.setSlot x)).hartAt k = v.hartAt k from rfl, State.hartAt, harts]; rfl)
  · have holds : (v.setCbuf (b.setSlot x)).holdsSlot s.hart.ctx d.cbid b x.n x := setCbuf_holds v rfl ⟨rfl, rfl⟩ rfl
    rw [cbufDesc_cbid found, here] at holds
    obtain ⟨y, listed, same⟩ := holds
    exact ⟨y, stage.cbufs ▸ listed, same⟩
  · rw [rows]
    simp only [CSlot.adding, bytes]
  · exact same
  · rw [full]
    show (c.adding v i row).closes.state = _
    unfold CSlot.closes
    split
    · rfl
    · exact not_not.1 fun other => expected (.inl other)
end
end

/-! The instructions (R254, R263). -/

/-- A home has performed nothing after an operation exactly when its last operation of the cycle, if any, is of a hart not after this one
(R259). -/
theorem inTurn_iff (s : State) (key : HomeKey) (h : Hart) : s.inTurn key h = true ↔ ∀ t ∈ s.turns, t.key = key → t.clock = s.clock →
    ∃ i g, t.last = some (i, g) ∧ (i < h.hartid ∨ i = h.hartid ∧ g ≤ h.gang) := by
  have allows (t : Turn) : (t.key != key || t.allows s.clock h.hartid h.gang) = true ↔ (t.key = key → t.clock = s.clock →
      ∃ i g, t.last = some (i, g) ∧ (i < h.hartid ∨ i = h.hartid ∧ g ≤ h.gang)) := by
    by_cases same : t.key = key
    · by_cases now : t.clock = s.clock
      · cases last : t.last with
        | none => simp [Turn.allows, same, now, last]
        | some x =>
          obtain ⟨i, g⟩ := x
          simp only [Turn.allows, same, now, last, bne_self_eq_false, Bool.false_or, Bool.or_eq_true, Bool.and_eq_true, decide_eq_true_eq,
            beq_iff_eq, true_implies, Option.some.injEq, Prod.mk.injEq]
          exact ⟨fun h => ⟨i, g, ⟨rfl, rfl⟩, h⟩, fun ⟨_, _, ⟨hi, hg⟩, h⟩ => hi ▸ hg ▸ h⟩
      · simp [Turn.allows, now]
    · simp [same]
  simp only [State.inTurn, List.all_eq_true, allows]
/-- Outside a deterministic gang no access is noted (R290). -/
theorem noteAll_free {s : State} (free : s.hart.det = false) (k : RaceKind) (l : List Piece) : s.noteAll k l = s :=
  foldl_keeps (P := fun t => t = s) l s rfl fun t p same => by
    subst same
    simp [State.raceNote, free]
theorem gather_eq (s : State) (l : List Piece) :
    s.gather l = (l.map fun p => (p.pa, p.n)).foldr (fun p acc => s.readN p.1 p.2 + 2 ^ (8 * p.2) * acc) 0 := by
  induction l with
  | nil => rfl
  | cons p l ih => rw [State.gather, ih]; rfl
/-- What an instruction gives D does not depend on its hart's monitor. -/
theorem put_word_monitor (h : Hart) (m : Option Monitor) (r : Reg) (w : Word) :
    (({ h with monitor := m } : Hart).put r (.word w)).x = (h.put r (.word w)).x := by
  cases r with
  | x n => by_cases zero : n = 0 <;> simp [Hart.put, Hart.mend, Hart.setX, zero]
  | _ => rfl
/-- A state of the same harts gives its current hart the same. -/
theorem statusOf_hart {s t : State} (harts : t.harts = s.harts) (cur : t.cur = s.cur) (f : Fields) (status slot : Nat) :
    ((t.statusOf f status slot).after f).hart = ((s.statusOf f status slot).after f).hart := by
  simp only [State.hart, State.hartAt, State.after, State.statusOf, State.modHart, State.modHartAt, harts, cur]
/-- The registers x of a hart whose monitor alone has changed. -/
theorem statusOf_x {s t : State} (here : s.cur < s.harts.length) (length : s.harts.length = t.harts.length) (cur : t.cur = s.cur)
    (harts : ∀ k, t.hartAt k = { s.hartAt k with monitor := (t.hartAt k).monitor }) (f : Fields) (status slot : Nat) :
    ((t.statusOf f status slot).after f).hart.x = ((s.statusOf f status slot).after f).hart.x := by
  have given {u : State} (inside : u.cur < u.harts.length) : ((u.statusOf f status slot).after f).hart.x =
      (u.hart.put f.d (.word (BitVec.ofNat 64 (status * 2 ^ 32 + slot)))).x := by
    rw [after_hart (by rwa [State.statusOf, State.modHart, State.modHartAt, updAt_length]), State.statusOf, State.hart_modHart u _ inside,
      popQueues_frame, Hart.retire_x]
  rw [given here, given (by rwa [cur, ← length]), State.hart, cur, harts, put_word_monitor]
  rfl

/-- Experts that are all known and all different pass the check of R257. -/
theorem experts_legal {l : List Nat} {n : Nat} (known : ∀ e ∈ l, e < n) (apart : l.Nodup) :
    ¬(l.any (fun e => decide (e ≥ n)) || !l.Nodup) = true := by
  simp only [Bool.or_eq_true, List.any_eq_true, decide_eq_true_eq, Bool.not_eq_true', decide_eq_false_iff_not, apart, not_true_eq_false,
    or_false]
  exact fun ⟨e, mem, high⟩ => not_lt.2 high (known e mem)

section
variable {s : State} {f : Fields} {d : CDesc} (c : s.Clear f []) (still : s.still = true) (unphased : s.hart.phased = false)
  (free : s.hart.det = false) (found : s.cbufDesc s.agent (s.hart.xr f.a).toNat = .ok d)
include c still unphased found

section
variable (known : ∀ e ∈ allocExperts d.k (bitsAt (s.hart.tr f.b).toNat 0 1024), e < d.nexp)
  (apart : (allocExperts d.k (bitsAt (s.hart.tr f.b).toNat 0 1024)).Nodup)
include known apart
theorem cballoc_after (turn : s.inTurn (.buffer s.hart.ctx (s.hart.xr f.a).toNat) s.hart = true) {t : State}
    (runs : allocRun f (s.hart.xr f.a).toNat (bitsAt (s.hart.tr f.b).toNat 0 1024) s = .done t) : exec (.cballoc f) s = .next (t.after f) := by
  refine aside_after c ?_
  simp only [phased_unphased unphased, inStream_still _ _ still, found]
  rw [if_neg (experts_legal known apart), if_neg (by simp [turn]), atHome_at_once c.onTime, runs]
theorem cballoc_waits (late : s.inTurn (.buffer s.hart.ctx (s.hart.xr f.a).toNat) s.hart = false) : exec (.cballoc f) s = .next s := by
  refine aside_waits c ?_
  simp only [phased_unphased unphased, inStream_still _ _ still, found]
  rw [if_neg (experts_legal known apart), if_pos (by simp [late])]
end

include free

theorem cbput_after {l : List Piece} (tag : bitsAt (s.hart.xr f.c).toNat 28 4 = 0) (slot : tagSlot (s.hart.xr f.c).toNat < d.nslot)
    (expert : tagExpert (s.hart.xr f.c).toNat < d.nexp) (aligned : (s.hart.xr f.b).toNat % 64 = 0)
    (reads : s.chkRange .load .read (s.hart.xr f.b).toNat d.rowBytes = .ok l)
    (turn : s.inTurn (.buffer s.hart.ctx (s.hart.xr f.a).toNat) s.hart = true) {t : State}
    (runs : putRun f (s.hart.xr f.a).toNat (s.hart.xr f.c).toNat (l.map fun p => (p.pa, p.n)) s = .done t) :
    exec (.cbput f) s = .next (t.after f) := by
  rw [exec_cbput, execCbput]
  refine issue_after _ c rfl rfl ?_
  simp only [phased_unphased unphased, drainAll_still still, found, tag, aligned, turn, reads, ne_eq, not_true_eq_false, false_or, ge_iff_le,
    not_le.2 slot, not_le.2 expert, if_false, Bool.not_true, Bool.false_eq_true, noteAll_free free]
  rw [atHome_at_once c.onTime, runs]

theorem cbstatOp_gives {val : Nat → CDesc → State → Except Nat Word} {w : Word} (gives : val (s.hart.xr f.a).toNat d s = .ok w) :
    cbstatOp f val s = .next (s.completes f fun h => h.put f.d (.word w)) := by
  refine aside_completes c _ ?_
  simp only [phased_unphased unphased, inStream_still _ _ still, found, gives]
  exact congrArg Res.done (State.modHart_congr s _ _ (by
    rw [if_neg (Bool.eq_false_iff.1 free), produce_put _ _ _ c.onTime]))
end

/-- Settles O35: the instructions by the steps at the home. -/
theorem combineResults : Obligations.CombineResults := by
  unfold Obligations.CombineResults
  intro f s d c still unphased free a key v b found gives holds
  refine ⟨inTurn_iff s key s.hart, fun turn => ⟨?_, ?_⟩, fun late known apart => cballoc_waits c still unphased found known apart late, ?_, ?_⟩
  · intro row known apart
    refine ⟨fun full => cballoc_after c still unphased found known apart turn (allocRun_full free found f row full), fun n lowest => ?_⟩
    obtain ⟨t, x, runs, harts, cur, mem, held, opened⟩ := allocRun_opens free found f row lowest
    refine ⟨_, x, cballoc_after c still unphased found known apart turn runs, ?_, mem, held, opened⟩
    exact statusOf_hart harts cur f 0 n
  · intro tag l good slot expert aligned reads
    have after {t : State} (runs : putRun f a tag (l.map fun p => (p.pa, p.n)) s = .done t) :=
      cbput_after c still unphased free found good slot expert aligned reads turn runs
    refine ⟨fun none_ => after (putRun_late free found f _ fun c some_ => nomatch none_.symm.trans some_), fun x named => ⟨fun late => ?_, ?_⟩⟩
    · exact after (putRun_late free found f _ fun y some_ => Option.some.inj (named.symm.trans some_) ▸ late)
    · intro filling token
      have expected : ¬(x.state ≠ .filling ∨ x.token ≠ tagToken tag) := by simp [filling, token]
      refine ⟨fun none_ => after (putRun_unexpected found f _ named expected none_), fun i entry => ⟨fun twice =>
        after (putRun_again free found f _ named expected entry twice), fun first => ?_⟩⟩
      obtain ⟨t, y, runs, length, cur, harts, mem, held, rows, same, state⟩ := putRun_adds found f _ named expected entry first
      refine ⟨_, y, after runs, ?_, mem, held, rows.trans ?_, same, state⟩
      · exact statusOf_x c.here length cur harts f 0 0
      · rw [gather_eq]
  · intro slot
    rw [exec_cbstat, execCbstat]
    refine cbstatOp_gives c still unphased free found ?_
    simp only [ge_iff_le, not_le.2 slot, if_false]
    cases (s.cbuf s.hart.ctx a).slot (s.hart.xr f.b).toNat <;> rfl
  · rw [exec_cbstatBuf, execCbstatBuf]
    refine cbstatOp_gives c still unphased free found ?_
    rw [bitsAt_zero]; rfl

end Sys2Proof.Machine
end

section
/-! Events at a home: of tuples (R244 to R248), and of the slots of combine buffers (R257 to R262). -/
namespace Sys2Proof.Machine

/-! An operation that a hart stalls for ends. -/

/-- The machine as a hart's operation ends: it is the current hart, and stalls no longer. -/
def State.ending (s : State) (n : Nat) : State := ({ s with cur := n } : State).modHart fun h => { h with homeOp := none }

/-- A cancellation at its home, in its turn there if the request still stands. -/
def cancelStep (f : Fields) (k : HomeKind) (s : State) : Option Res :=
  match k with
  | .cancel id => if (s.reqs.find? (·.id == id)).all fun r => s.inTurn (s.reqKey r) s.hart then some (cancelRun f id s) else none
  | _ => none
theorem cancelStep_eq (f : Fields) (k : HomeKind) (s : State) : cancelStep f k s = match k with
    | .cancel id => match s.reqs.find? (·.id == id) with
      | some r => if s.inTurn (s.reqKey r) s.hart then some (cancelRun f id s) else none
      | none => some (cancelRun f id s)
    | _ => none := by
  cases k with
  | cancel id =>
    dsimp only [cancelStep]
    cases s.reqs.find? (·.id == id) <;> rfl
  | _ => rfl

section
variable {s : State} {id : Nat}
theorem homeEnd_none (run : Fields → HomeKind → State → Option Res) (none_ : s.harts.findIdx? (fun h => h.homeOp.any (·.id == id)) = none) :
    s.homeEnd id run = s := by
  simp only [State.homeEnd, none_]
theorem homeEnd_ends {n : Nat} {o : HomeOp} (stalls : s.harts.findIdx? (fun h => h.homeOp.any (·.id == id)) = some n)
    (op : (s.hartAt n).homeOp = some o) (run : Fields → HomeKind → State → Option Res) : s.homeEnd id run =
      match run o.f o.kind (s.ending n) with
      | some r => { finish o.f { wholly := o.kind.wholly, body := fun s => .wait s } r with cur := s.cur }
      | none => s := by
  simp only [State.homeEnd, stalls, op, State.onHart, State.ending]
  cases run o.f o.kind (({ s with cur := n } : State).modHart fun h => { h with homeOp := none }) <;> rfl
/-- Each event of a home ends the operation that a hart stalls for, where no request waits for it. -/
theorem homeEvents_run (none_ : s.reqs.find? (fun r => r.id == id) = none) : ∀ e ∈ homeEvents, exec (e.1 id) s = .next (s.homeEnd id e.2) := by
  simp only [homeEvents, List.forall_mem_cons, List.not_mem_nil, false_implies, implies_true, and_true]
  refine ⟨rfl, ?_, ?_, rfl, rfl⟩
  · show execTupleRequestAtHome id s = _
    simp only [execTupleRequestAtHome, none_] <;> rfl
  · show execTupleCancelAtHome id s = _
    exact congrArg (fun run => Host.Outcome.next (s.homeEnd id run)) (funext₃ cancelStep_eq)
theorem homeEvent_done (none_ : s.reqs.find? (fun r => r.id == id) = none) {n : Nat} {o : HomeOp}
    (stalls : s.harts.findIdx? (fun h => h.homeOp.any (·.id == id)) = some n) (op : (s.hartAt n).homeOp = some o) {e}
    (mem : e ∈ homeEvents) {t : State} (runs : e.2 o.f o.kind (s.ending n) = some (.done t)) :
    exec (e.1 id) s = .next { t.after o.f with cur := s.cur } := by
  rw [homeEvents_run none_ e mem, homeEnd_ends stalls op, runs]
  rfl
end

/-! Terms of a combination (R260). -/

theorem insertTerm_perm (t : Term) (l : List Term) : (insertTerm t l).Perm (t :: l) := by
  induction l with
  | nil => exact .refl _
  | cons x r ih =>
    rw [insertTerm]
    split
    · exact .refl _
    · exact (ih.cons x).trans (.swap t x r)
theorem insertTerm_sorted {t : Term} {l : List Term} (sorted : l.Pairwise fun x y => x.expert ≤ y.expert) :
    (insertTerm t l).Pairwise fun x y => x.expert ≤ y.expert := by
  induction l with
  | nil => exact List.pairwise_singleton _ _
  | cons x r ih =>
    obtain ⟨first, rest⟩ := List.pairwise_cons.1 sorted
    rw [insertTerm]
    split
    · next before =>
      refine List.pairwise_cons.2 ⟨fun y mem => ?_, sorted⟩
      obtain rfl | mem := List.mem_cons.1 mem
      · exact le_of_lt before
      · exact (le_of_lt before).trans (first y mem)
    · next after =>
      refine List.pairwise_cons.2 ⟨fun y mem => ?_, ih rest⟩
      obtain rfl | mem := List.mem_cons.1 ((insertTerm_perm t r).subset mem)
      · exact not_lt.1 after
      · exact first y mem
/-- Terms stand in ascending order of their experts, one for each entry. -/
theorem terms_sorted (t : CSlot) (ok : Nat → Bool) : (t.terms ok).Pairwise fun x y => x.expert ≤ y.expert :=
  List.foldlRecOn (motive := fun l : List Term => l.Pairwise fun x y => x.expert ≤ y.expert) _ _ .nil fun _ sorted _ _ => insertTerm_sorted sorted
theorem terms_perm (t : CSlot) (ok : Nat → Bool) : ((t.terms ok).map Term.entry).Perm ((List.range t.experts.length).filter ok) := by
  have inserts (l : List Nat) (acc : List Term) : ((l.foldl (fun l i => insertTerm ⟨t.experts.getD i 0, i, t.weights.getD i 0⟩ l) acc).map
      Term.entry).Perm (acc.map Term.entry ++ l) := by
    induction l generalizing acc with
    | nil => simp
    | cons i l ih =>
      rw [List.foldl_cons]
      refine (ih _).trans ((((insertTerm_perm _ acc).map Term.entry).append_right l).trans ?_)
      exact List.perm_middle.symm
  exact inserts _ []

/-! The output row (R260, R261). -/

/-- The packed value at an index. -/
theorem bitsAt_packBits (w : Nat) {l : List Nat} {j v : Nat} (h : l[j]? = some v) : bitsAt (packBits w l) (w * j) w = v % 2 ^ w := by
  induction l generalizing j with
  | nil => simp at h
  | cons x l ih =>
    have pos : 0 < 2 ^ w := Nat.two_pow_pos w
    show (x % 2 ^ w + 2 ^ w * packBits w l) / 2 ^ (w * j) % 2 ^ w = _
    cases j with
    | zero =>
      obtain rfl := Option.some.inj h
      rw [Nat.mul_zero, Nat.pow_zero, Nat.div_one, Nat.add_mul_mod_self_left, Nat.mod_mod]
    | succ j =>
      rw [Nat.mul_succ, Nat.add_comm (w * j), Nat.pow_add, ← Nat.div_div_eq_div_mul, Nat.add_mul_div_left _ _ pos,
        Nat.div_eq_of_lt (Nat.mod_lt _ pos), Nat.zero_add]
      exact ih h

/-- The row of an entry that has arrived. -/
def CSlot.row (t : CSlot) (i : Nat) : Nat := ((t.rows.find? (·.1 == i)).map (·.2)).getD 0
/-- The fused sum of the weighted rows of every entry, in ascending order of expert. -/
def CDesc.weightedSum (d : CDesc) (t : CSlot) (j : Nat) : Nat :=
  (t.terms fun _ => true).foldl (fun acc x => (fpFma .f32 .rne (FpFmt.f32.decode x.weight)
    (FpFmt.f32.decode (d.input (t.row x.entry) j).1) (FpFmt.f32.decode acc)).1) 0
/-- What the combination reads for an entry: its row, or that of the fallback. -/
def CDesc.termRow (d : CDesc) (t : CSlot) (fall : Option Nat) (j i : Nat) : Nat × Flags :=
  match t.rows.find? (·.1 == i), fall with
  | some r, _ => d.input r.2 j
  | none, some fb => (bitsAt fb (32 * j) 32, 0)
  | none, none => (0, 0)
/-- The first part of a fold over pairs whose first part does not read the second. -/
theorem foldl_fst {α β γ : Type} {f : α × β → γ → α × β} {g : α → γ → α} {l : List γ} (part : ∀ x ∈ l, ∀ a b, (f (a, b) x).1 = g a x)
    (a : α) (b : β) : (l.foldl f (a, b)).1 = l.foldl g a := by
  induction l generalizing a b with
  | nil => rfl
  | cons x l ih =>
    rw [List.foldl_cons, List.foldl_cons, ← part x List.mem_cons_self a b]
    exact ih (fun y mem => part y (List.mem_cons_of_mem x mem)) _ _

section
variable {d : CDesc} {t : CSlot} (all_ : ∀ i, i < t.experts.length → ∃ r ∈ t.rows, r.1 = i)
include all_
/-- With every row there, each term has the row of its entry. -/
theorem terms_row {x : Term} (mem : x ∈ t.terms fun _ => true) : ∃ r, t.rows.find? (·.1 == x.entry) = some r ∧ r.2 = t.row x.entry := by
  have entry : x.entry < t.experts.length := by
    have listed := (terms_perm t fun _ => true).subset (List.mem_map_of_mem mem)
    simpa using listed
  obtain ⟨r, arrived, is⟩ := all_ _ entry
  cases found : t.rows.find? (·.1 == x.entry) with
  | none => exact absurd is (by simpa using List.find?_eq_none.1 found r arrived)
  | some y => exact ⟨y, rfl, by simp only [CSlot.row, found, Option.map_some, Option.getD_some]⟩
omit all_ in
theorem combine_fold (terms : List Term) (fall : Option Nat) (j : Nat) : d.combine t terms fall j =
    (let acc := terms.foldl (fun (acc : Nat × Flags) x =>
      let e := d.termRow t fall j x.entry
      let r := fpFma .f32 .rne (FpFmt.f32.decode x.weight) (FpFmt.f32.decode e.1) (FpFmt.f32.decode acc.1)
      (r.1, acc.2 ||| e.2 ||| r.2)) (0, 0)
    if d.ofmt = 1 then acc
    else let r := cvtTo 3 16 false .rne (FpFmt.f32.decode acc.1); (r.1, acc.2 ||| r.2)) := rfl
/-- An element of the output is the sum of the weighted rows, in their order, fused. -/
theorem combine_sums (fall : Option Nat) (j : Nat) : (d.combine t (t.terms fun _ => true) fall j).1 =
    if d.ofmt = 1 then d.weightedSum t j else (cvtTo 3 16 false .rne (FpFmt.f32.decode (d.weightedSum t j))).1 := by
  have sum : ((t.terms fun _ => true).foldl (fun (acc : Nat × Flags) x =>
      let e := d.termRow t fall j x.entry
      let r := fpFma .f32 .rne (FpFmt.f32.decode x.weight) (FpFmt.f32.decode e.1) (FpFmt.f32.decode acc.1)
      (r.1, acc.2 ||| e.2 ||| r.2)) (0, 0)).1 = d.weightedSum t j := by
    refine foldl_fst (fun x mem a b => ?_) 0 0
    obtain ⟨r, found, value⟩ := terms_row all_ mem
    simp only [CDesc.termRow, found, value]
  rw [combine_fold]
  dsimp only
  split_ifs
  · exact sum
  · exact congrArg (fun a => (cvtTo 3 16 false .rne (FpFmt.f32.decode a)).1) sum
/-- So an output row holds it at its place (R260). -/
theorem combineRow_bits (whole : t.isPartial = false) (fall : Option Nat) {j : Nat} (inside : j < d.rowlen) :
    bitsAt (d.combineRow t fall).1 (8 * d.osize * j) (8 * d.osize) =
      (if d.ofmt = 1 then d.weightedSum t j else (cvtTo 3 16 false .rne (FpFmt.f32.decode (d.weightedSum t j))).1) % 2 ^ (8 * d.osize) := by
  have terms : t.weighted d.subst = (t.terms fun _ => true, 0, false) := by simp [CSlot.weighted, whole]
  rw [← combine_sums all_ fall j]
  unfold CDesc.combineRow
  rw [terms]
  exact bitsAt_packBits _ (by simp [inside])
end

/-! Slots (R260 to R262, R264). -/

section
variable {s : State} {id : BufferId} {n : Nat} {t : CSlot}
theorem slotCombine_combines (closing : s.slotIn id n .closing = some t) : exec (.slotCombine id n) s =
    .next (if s.combineHeld id t then s else s.combineSlot (s.cbuf id.ctx id.cbid) t) := by
  show execSlotCombine id n s = _
  simp only [execSlotCombine, closing]
theorem combineHeld_untested (quiet : s.underTest = []) : s.combineHeld id t = false := by simp [State.combineHeld, quiet]
theorem combineSlot_writes {b : CBuf} {d : CDesc} {fall : Option Nat} {out : List (Nat × Nat)} (desc : s.slotDesc t.agent b.cbid = some d)
    (plan : s.combinePlan d t = some (fall, out)) : s.combineSlot b t =
      (s.setCbuf (b.setSlot { t with state := .ready, flags := (d.combineRow t fall).2 })).writeRanges (d.combineRow t fall).1 out := by
  simp only [State.combineSlot, desc, plan]
theorem combineSlot_fails {b : CBuf}
    (fails : s.slotDesc t.agent b.cbid = none ∨ ∃ d, s.slotDesc t.agent b.cbid = some d ∧ s.combinePlan d t = none) :
    s.combineSlot b t = (s.setCbuf (b.setSlot { t with state := .ready, err := true })).deliverEngine t.agent t.tag := by
  obtain none_ | ⟨d, desc, plan⟩ := fails
  · simp only [State.combineSlot, none_, CSlot.failed]
  · simp only [State.combineSlot, desc, plan, CSlot.failed]
theorem combineDeadline_closes (filling : s.slotIn id n .filling = some t) : exec (.combineDeadline id n) s = .next (if t.deadline.any s.over
    then s.setCbuf (((s.cbuf id.ctx id.cbid).setSlot { t with
      state := .closing, isPartial := true, missing := 2 ^ t.experts.length - 1 - t.arrived }).count nPARTIAL) else s) := by
  show execCombineDeadline id n s = _
  simp only [execCombineDeadline, filling]
  exact (apply_ite Host.Outcome.next ..).symm
theorem slotRelease_runs (ready : s.slotIn id n .ready = some t) {d : Option CDesc} (desc : s.slotDesc t.agent id.cbid = d) :
    exec (.slotRelease id n) s = .next (if (s.cbuf id.ctx id.cbid).mayRelease d t && !d.any fun d => s.agentHeld t.agent [(d.ctr, 8)]
      then s.releaseSlot id d t else s) := by
  show execSlotRelease id n s = _
  subst desc
  simp only [execSlotRelease, ready]
theorem slotRelease_waits (ready : s.slotIn id n .ready = some t) {d : Option CDesc} (desc : s.slotDesc t.agent id.cbid = d)
    (may : (s.cbuf id.ctx id.cbid).mayRelease d t = false) : exec (.slotRelease id n) s = .next s := by
  rw [slotRelease_runs ready desc, may]
  rfl
theorem slotRelease_releases (ready : s.slotIn id n .ready = some t) {d : Option CDesc} (desc : s.slotDesc t.agent id.cbid = d)
    (may : (s.cbuf id.ctx id.cbid).mayRelease d t = true) (quiet : s.underTest = []) :
    exec (.slotRelease id n) s = .next (s.releaseSlot id d t) := by
  have free : (d.any fun d => s.agentHeld t.agent [(d.ctr, 8)]) = false := by cases d <;> simp [agentHeld_untested quiet]
  rw [slotRelease_runs ready desc, may, free]
  rfl
theorem mayRelease_iff (b : CBuf) (d : Option CDesc) (t : CSlot) : b.mayRelease d t = true ↔
    (∃ e, d = some e ∧ e.asComplete = true ∧ t.agent.det = false) ∨ ∀ x ∈ b.slots, x.state ≠ .free → t.alloc ≤ x.alloc := by
  cases d <;> simp [CBuf.mayRelease]
end

/-! The marks of an operation are nothing that an address or a buffer depends on. -/

section
variable (s : State) (op : EngOp)
theorem unmark_readN (pa n : Nat) : (s.unmark op).readN pa n = s.readN pa n := readN_congr (s := s) (t := s.unmark op) (fun _ => rfl) pa n
theorem unmark_isHbm (pa : Nat) : (s.unmark op).isHbm pa = s.isHbm pa := rfl
theorem unmark_tableOk (pa : Nat) : (s.unmark op).tableOk pa = s.tableOk pa := by simp only [State.tableOk, unmark_isHbm]
theorem unmark_walk (table va n : Nat) : (s.unmark op).walk table va n = s.walk table va n := by
  induction n generalizing table with
  | zero => rfl
  | succ n ih => simp only [State.walk, ih, unmark_readN, unmark_tableOk]
theorem unmark_translateLane (p : Place) (lane : Option Nat) (asid ptroot : Nat) (pl : Priv) (k : AccessKind) (va : Nat) :
    (s.unmark op).translateLane p lane asid ptroot pl k va = s.translateLane p lane asid ptroot pl k va := by
  have walks : (s.unmark op).walkHeld p asid ptroot va = s.walkHeld p asid ptroot va := by
    simp only [State.walkHeld, unmark_walk]
    rfl
  simp only [State.translateLane, walks]
  rfl
theorem unmark_translateAt (p : Place) (asid ptroot : Nat) (pl : Priv) (k : AccessKind) (va : Nat) :
    (s.unmark op).translateAt p asid ptroot pl k va = s.translateAt p asid ptroot pl k va := by
  rw [State.translateAt, unmark_translateLane]
  exact congrArg (_ <|> ·) (unmark_translateLane (s.forgetRun p va) op ..)
theorem unmark_engAddr (ag : Agent) (die cluster : Nat) (k : AccessKind) (va : Nat) :
    (s.unmark op).engAddr ag die cluster k va = s.engAddr ag die cluster k va := by
  simp only [State.engAddr, unmark_translateAt]
  rfl
theorem unmark_hbmRange (ag : Agent) (k : AccessKind) (va n : Nat) : (s.unmark op).hbmRange ag k va n = s.hbmRange ag k va n := by
  simp only [State.hbmRange, State.engRange, unmark_engAddr]
  rfl
theorem unmark_cbuf (ctx cbid : Nat) : (s.unmark op).cbuf ctx cbid = s.cbuf ctx cbid := by
  unfold State.cbuf
  rfl
end

section
variable {s : State} {id : BufferId} {t : CSlot}
/-- A release raises the counter that its descriptor names (R262). -/
theorem releaseSlot_counts {e : CDesc} {pa : Nat} (range : s.hbmRange t.agent.publish .atomic e.ctr 8 = some [(pa, 8)])
    (sound : s.poisoned pa 8 = false) : s.releaseSlot id (some e) t =
      (let u := (s.unmark (.slot id t.n)).writeN pa ((s.readN pa 8 + 1) % 2 ^ 64) 8
      u.setCbuf (((u.cbuf id.ctx id.cbid).setSlot { t with state := .free }).count nRELEASE)) := by
  have sound' : (s.unmark (.slot id t.n)).poisoned pa 8 = false := sound
  simp only [State.releaseSlot, Option.bind_some, State.bumpCtr, unmark_hbmRange, range, sound', unmark_readN, Bool.false_eq_true, if_false]
theorem releaseSlot_uncounted {d : Option CDesc} (range : ∀ e, d = some e → s.hbmRange t.agent.publish .atomic e.ctr 8 = none) :
    s.releaseSlot id d t = ((s.unmark (.slot id t.n)).setCbuf (((s.cbuf id.ctx id.cbid).setSlot { t with
      state := .free, err := true }).count nRELEASE)).deliverEngine t.agent t.tag := by
  cases d with
  | none => simp only [State.releaseSlot, Option.bind_none, unmark_cbuf]
  | some e => simp only [State.releaseSlot, Option.bind_some, State.bumpCtr, unmark_hbmRange, range e rfl, unmark_cbuf]
end

/-! Requests (R245 to R247). -/

section
variable {s : State} {r : TupleReq} (listed : s.reqs.find? (fun x => x.id == r.id) = some r)
include listed
theorem tupleRequestAtHome_performs : exec (.tupleRequestAtHome r.id) s = .next (if r.phase = .flying ∧ !s.overtakes r ∧ s.reqInTurn r
    then ((s.modHartAt r.hart (Hart.dropAccess r.access)).openSpace r.ctx r.tsid).request r else s) := by
  show execTupleRequestAtHome r.id s = _
  simp only [execTupleRequestAtHome, listed]
theorem tupleDelivery_delivers {status image : Nat} (answered : r.phase = .answered status image) :
    exec (.tupleDelivery r.id) s = .next (s.deliver r status image) := by
  show execTupleDelivery r.id s = _
  simp only [execTupleDelivery, listed, answered]
theorem tupleTimeout_withdraws : exec (.tupleTimeout r.id) s = .next (if r.isParked ∧ r.deadline.any s.over then s.answer r 3 0 else s) := by
  show execTupleTimeout r.id s = _
  simp only [execTupleTimeout, listed]
end
/-- A hart that has received the answer to a request of the registers vN, pP and xC: written, and then full. -/
def Hart.answered (h : Hart) (n : Fin 32) (p : Fin 16) (c : Fin 64) (status image : Nat) : Hart :=
  let h := if status = 0 then h.put (.v n) (.tile (BitVec.ofNat 8192 (putBits (h.v[n]).toNat 0 512 image))) else h
  let h := (h.put (.p p) (.bit (status == 0))).put (.x c) (.word (BitVec.ofNat 64 status))
  ((h.markEmpty (.v n) false).markEmpty (.p p) false).markEmpty (.x c) false
section
variable {n : Fin 32} {p : Fin 16} {c : Fin 64}
theorem deliver_answers {s : State} {r : TupleReq} (here : r.hart < s.harts.length) (d : r.f.d = .v n) (ps : psReg r.f = .p p)
    (code : r.f.c = .x c) (status image : Nat) :
    (s.deliver r status image).hartAt r.hart = (s.hartAt r.hart).answered n p c status image := by
  unfold State.deliver
  rw [hartAt_modHartAt { s with reqs := s.reqs.filter (·.id != r.id) } _ _ here, TupleReq.regs, d, ps, code]
  simp only [Hart.putStatus, ps, code]
  rfl
section
variable (h : Hart) (status image : Nat)
theorem answered_status (pnz : p ≠ 0) (cnz : c ≠ 0) : (h.answered n p c status image).getP p = (status == 0) ∧
    (h.answered n p c status image).getX c = BitVec.ofNat 64 status := by
  constructor
  · simp [Hart.answered, Hart.getP, Hart.put, Hart.setX, Hart.setP, Hart.mend, pnz, cnz]
  · simp [Hart.answered, Hart.getX, Hart.put, Hart.setX, cnz]
theorem answered_tile : (h.answered n p c status image).v[n] = if status = 0
    then BitVec.ofNat 8192 (putBits (h.v[n]).toNat 0 512 image) else h.v[n] := by
  have kept (g : Hart) (w : Word) (b : Bool) : ((g.put (.p p) (.bit b)).put (.x c) (.word w)).v = g.v := by
    simp [Hart.put, Hart.mend]
  unfold Hart.answered
  dsimp only
  rw [Hart.markEmpty_v, Hart.markEmpty_v, Hart.markEmpty_v, kept]
  split
  · simp [Hart.put, Hart.setV]
  · rfl
theorem answered_full : (h.answered n p c status image).isEmpty (.v n) = false ∧ (h.answered n p c status image).isEmpty (.p p) = false ∧
    (h.answered n p c status image).isEmpty (.x c) = false := by
  have full {k w : Nat} (b : BitVec w) : (setBit b k false).getLsbD k = false := by
    simp only [setBit, Bool.false_eq_true, if_false, BitVec.getLsbD_and, BitVec.getLsbD_not, BitVec.getLsbD_shiftLeft, BitVec.getLsbD_one]
    simp
    omega
  refine ⟨?_, ?_, ?_⟩
  · by_cases zp : p = 0 <;> by_cases zc : c = 0 <;> simp only [Hart.answered, Hart.isEmpty, Hart.markEmpty, zp, zc, full, if_true, if_false]
  · by_cases zp : p = 0 <;> by_cases zc : c = 0 <;>
      simp only [Hart.answered, Hart.isEmpty, Hart.markEmpty, zp, zc, full, if_true, if_false, Bool.and_false, bne_self_eq_false, Bool.false_and]
  · by_cases zc : c = 0 <;>
      simp only [Hart.answered, Hart.isEmpty, Hart.markEmpty, zc, full, if_true, if_false, Bool.and_false, bne_self_eq_false, Bool.false_and]
end
end

/-! Operations that a hart stalls for, as they end (R244, R245, R248, R257, R258). -/

section
variable {s : State} {id n : Nat} {o : HomeOp} (none_ : s.reqs.find? (fun r => r.id == id) = none)
  (stalls : s.harts.findIdx? (fun h => h.homeOp.any (·.id == id)) = some n) (op : (s.hartAt n).homeOp = some o)
include none_ stalls op

theorem tupleDeposit_ends (free : (s.ending n).hart.det = false) {tsid cap image : Nat} (kind : o.kind = .deposit tsid cap image)
    (turn : (s.ending n).inTurn ((s.ending n).tupleKey (s.ending n).hart.ctx tsid (tupleWord image 0)) (s.ending n).hart = true) :
    let u := s.ending n
    let r := ((u.openSpace u.hart.ctx tsid).takeTurn (u.tupleKey u.hart.ctx tsid (tupleWord image 0)) u.hart).deposit u.hart.ctx tsid cap image
    exec (.tupleDepositAtHome id) s = .next { State.after (r.1.modHart fun h => h.putStatus o.f r.2) o.f with cur := s.cur } := by
  refine homeEvent_done none_ stalls op (e := homeEvents[0]) (List.getElem_mem _) ?_
  rw [kind]
  exact (if_pos turn).trans (congrArg some (depositRun_free free o.f tsid cap image))
theorem tupleRequest_ends {take : Bool} {tsid : Nat} (kind : o.kind = .request take tsid) :
    let u := s.ending n
    let v := u.openSpace u.hart.ctx tsid
    let r := requestOf take false o.f tsid v
    u.inTurn (u.tupleKey u.hart.ctx tsid (tupleWord r.image 0)) u.hart = true →
    (v.tdetOf n tsid (tupleWord r.image 0)).refusesReq n take = false → v.find r ≠ .full →
      exec (.tupleRequestAtHome id) s =
        .next { State.after (((v.addReq r).request r).noteReq n tsid (tupleWord r.image 0) take) o.f with cur := s.cur } := by
  intro u v r turn allowed room
  obtain ⟨harts, cur⟩ := openSpace_frame u u.hart.ctx tsid
  have hart : v.hart = u.hart := by rw [State.hart, cur, State.hartAt, harts]; rfl
  have here : v.cur = n := cur
  refine homeEvent_done none_ stalls op (e := homeEvents[1]) (List.getElem_mem _) ?_
  rw [kind]
  have image : r.image = imageB u.hart o.f := congrArg (imageB · o.f) hart
  rw [image] at turn
  refine (if_pos turn).trans (congrArg some ?_)
  rw [← here] at allowed
  have runs : requestNow take o.f tsid u = .done (((v.addReq r).request r).noteReq v.cur tsid (tupleWord r.image 0) take) :=
    (if_neg (Bool.eq_false_iff.1 allowed)).trans (if_neg room)
  rwa [here] at runs
theorem tupleCancel_ends {k : Nat} (kind : o.kind = .cancel k)
    (turn : ∀ r, (s.ending n).reqs.find? (fun r => r.id == k) = some r → (s.ending n).inTurn ((s.ending n).reqKey r) (s.ending n).hart = true)
    {t : State} (runs : cancelRun o.f k (s.ending n) = .done t) : exec (.tupleCancelAtHome id) s = .next { t.after o.f with cur := s.cur } := by
  refine homeEvent_done none_ stalls op (e := homeEvents[2]) (List.getElem_mem _) ?_
  rw [kind]
  refine (cancelStep_eq o.f (.cancel k) _).symm.trans ?_
  have now : ((s.ending n).reqs.find? (·.id == k)).all (fun r => (s.ending n).inTurn ((s.ending n).reqKey r) (s.ending n).hart) = true := by
    cases found : (s.ending n).reqs.find? (·.id == k) with
    | none => rfl
    | some r => exact turn r found
  exact (if_pos now).trans (congrArg some runs)
theorem cbAlloc_ends {cbid row : Nat} (kind : o.kind = .alloc cbid row)
    (turn : (s.ending n).inTurn (.buffer (s.ending n).hart.ctx cbid) (s.ending n).hart = true) {t : State}
    (runs : allocRun o.f cbid row (s.ending n) = .done t) : exec (.cbAllocAtHome id) s = .next { t.after o.f with cur := s.cur } := by
  refine homeEvent_done none_ stalls op (e := homeEvents[3]) (List.getElem_mem _) ?_
  rw [kind]
  exact (if_pos turn).trans (congrArg some runs)
theorem cbPut_ends {cbid : Nat} {tag : Word} {row : List (Nat × Nat)} (kind : o.kind = .put cbid tag row)
    (turn : (s.ending n).inTurn (.buffer (s.ending n).hart.ctx cbid) (s.ending n).hart = true) {t : State}
    (runs : putRun o.f cbid tag.toNat row (s.ending n) = .done t) : exec (.cbPutAtHome id) s = .next { t.after o.f with cur := s.cur } := by
  refine homeEvent_done none_ stalls op (e := homeEvents[4]) (List.getElem_mem _) ?_
  rw [kind]
  exact (if_pos turn).trans (congrArg some runs)
end

/-- A status of 0 leaves the number alone. -/
theorem statusOf_number (s : State) (f : Fields) (n : Nat) :
    s.statusOf f 0 n = s.modHart fun h => h.put f.d (.word (BitVec.ofNat 64 n)) := by
  rw [State.statusOf, Nat.zero_mul, Nat.zero_add]
theorem statusOf_harts {s t : State} (harts : t.harts = s.harts) (cur : t.cur = s.cur) (f : Fields) (status slot : Nat) :
    ((t.statusOf f status slot).after f).harts = ((s.statusOf f status slot).after f).harts := by
  simp only [State.after, State.statusOf, State.modHart, State.modHartAt, harts, cur]

/-- Settles O36: the stalled operations by what their instructions do at once, the events of requests and of slots each by its own step. -/
theorem homeEventResults : Obligations.HomeEventResults := by
  unfold Obligations.HomeEventResults
  refine ⟨?_, ?_, ?_, ?_⟩
  case refine_1 =>
    intro e mem s id none_
    rw [homeEvents_run none_ e mem]
    refine ⟨fun nobody => congrArg _ (homeEnd_none e.2 nobody), fun n o stalls op => ?_⟩
    rw [homeEnd_ends stalls op]
    exact ⟨fun r runs => by rw [show e.2 o.f o.kind (s.ending n) = some r from runs],
      fun late => by rw [show e.2 o.f o.kind (s.ending n) = none from late]⟩
  case refine_2 =>
    intro s id n o none_ stalls op u ctx gives word
    have here : u.cur < u.harts.length :=
      Nat.lt_of_lt_of_eq (List.findIdx?_eq_some_iff_findIdx_eq.1 stalls).1 (updAt_length ..).symm
    refine ⟨?_, ?_, ?_, ?_⟩
    · intro free tsid cap image kind key r turn
      exact tupleDeposit_ends none_ stalls op free kind turn
    · intro take tsid kind v r turn allowed room
      rw [tupleRequest_ends none_ stalls op kind turn allowed room]
      exact congrArg (fun t => Host.Outcome.next { State.after t o.f with cur := s.cur }) (State.modHart_self _ (fun h => h) rfl).symm
    · intro k kind
      refine ⟨fun gone => ?_, fun r found turn => ?_⟩
      · have runs : cancelRun o.f k u = .done (u.modHart (word 0)) := by
          simp only [cancelRun, gone]
          rfl
        exact tupleCancel_ends none_ stalls op kind (fun r found => nomatch gone.symm.trans found) runs
      · intro v
        have runs : cancelRun o.f k u = .done (if r.isParked = true then (v.answer r 4 0).modHart (word 1) else v.modHart (word 0)) := by
          simp only [cancelRun, found]
          exact (apply_ite Res.done ..).symm
        rw [tupleCancel_ends none_ stalls op kind (fun x same => Option.some.inj (found.symm.trans same) ▸ turn) runs]
        split <;> rfl
    · intro free cbid d key v b holds found turn
      refine ⟨fun row kind => ⟨fun full => ?_, fun k lowest => ?_⟩, fun tag row kind => ⟨fun nobody => ?_, ?_⟩⟩
      · exact cbAlloc_ends none_ stalls op kind turn (allocRun_full free found o.f row full)
      · obtain ⟨t, x, runs, harts, cur, mem, held, state, token, experts, weights, rows, alloc, -⟩ := allocRun_opens free found o.f row lowest
        refine ⟨_, x, cbAlloc_ends none_ stalls op kind turn runs, ?_, mem, held, state, token, experts, weights, rows, alloc⟩
        have same := statusOf_harts harts cur o.f 0 k
        rw [statusOf_number, statusOf_number] at same
        show State.hartAt ((t.statusOf o.f 0 k).after o.f) n = _
        rw [statusOf_number, State.hartAt, same]
        rfl
      · exact cbPut_ends none_ stalls op kind turn
          (putRun_late free found o.f row fun c some_ => nomatch nobody.symm.trans some_)
      · intro c i slot filling token entry first
        have expected : ¬(c.state ≠ .filling ∨ c.token ≠ tagToken tag.toNat) := by simp [filling, token]
        obtain ⟨t, x, runs, length, cur, harts, mem, held, rows, same, state⟩ := putRun_adds found o.f row slot expected entry first
        refine ⟨_, x, cbPut_ends none_ stalls op kind turn runs, ?_, mem, held, same, state, rows.trans ?_⟩
        · have same := statusOf_x here length cur harts o.f 0 0
          have inside (y : State) (is : y.cur = n) : y.hart = y.hartAt n := is ▸ rfl
          rwa [inside ((t.statusOf o.f 0 0).after o.f) cur, inside ((u.statusOf o.f 0 0).after o.f) rfl] at same
        · have bytes (pa k : Nat) : u.readN pa k = s.readN pa k := readN_congr (s := s) (t := u) (fun _ => rfl) pa k
          simp only [bytes]
  case refine_3 =>
    intro s r listed
    have performs := tupleRequestAtHome_performs listed
    refine ⟨?_, ?_, fun status image => tupleDelivery_delivers listed, ?_, ?_⟩
    · intro flying first turn v u
      rw [if_pos ⟨flying, by simp [first], turn⟩] at performs
      refine ⟨fun t oldest => ?_, fun none_ nb => ?_, fun none_ waits full => ?_, fun none_ waits room => ?_⟩
      · exact performs.trans (congrArg _ (request_finds oldest))
      · exact performs.trans (congrArg _ (request_noMatch none_ nb))
      · exact performs.trans (congrArg _ (request_full none_ waits full))
      · exact performs.trans (congrArg _ (request_parks none_ waits room))
    · intro flying held
      rw [performs, if_neg]
      rintro ⟨-, first, turn⟩
      obtain over_ | late := held
      · rw [over_] at first; exact Bool.false_ne_true first
      · rw [late] at turn; exact Bool.false_ne_true turn
    · intro parked
      have withdraws := tupleTimeout_withdraws listed
      exact ⟨fun due => withdraws.trans (by rw [if_pos ⟨parked, due⟩]), fun early => withdraws.trans (by simp [early])⟩
    · intro status image n p c here d ps code pnz cnz t
      obtain ⟨predicate, number⟩ := answered_status (n := n) (s.hartAt r.hart) status image pnz cnz
      obtain ⟨fullD, fullP, fullC⟩ := answered_full (n := n) (p := p) (c := c) (s.hartAt r.hart) status image
      rw [deliver_answers here d ps code status image, d, ps, code]
      refine ⟨predicate, number, ?_, ?_, ?_, fullD, fullP, fullC⟩
      · intro found
        rw [answered_tile, if_pos found, bitsAt_ofNat _ (by decide)]
        exact bitsAt_putBits_same _ 0 512 image
      · intro other
        rw [answered_tile, if_neg other]
      · exact fun x mem => by simpa using (List.mem_filter.1 mem).2
  case refine_4 =>
    intro s id n t b
    have id_ : b.cbid = id.cbid := (cbuf_ids s _ _).2
    refine ⟨?_, ?_, ?_, ?_, ?_, fun ok => ⟨terms_sorted t ok, terms_perm t ok⟩, ?_⟩
    · intro closing quiet
      have combines := slotCombine_combines closing
      rw [combineHeld_untested quiet] at combines
      exact ⟨fun d fall out desc plan => combines.trans (congrArg _ (combineSlot_writes desc plan)),
        fun fails => combines.trans (congrArg _ (combineSlot_fails fails))⟩
    · intro closing held
      rw [slotCombine_combines closing, if_pos held]
    · intro filling early
      rw [combineDeadline_closes filling, early]
      rfl
    · intro filling due
      rw [combineDeadline_closes filling, if_pos due]
    · intro d ready desc may
      rw [id_] at desc
      refine ⟨fun no => slotRelease_waits ready desc (Bool.eq_false_iff.2 fun h => no ((mayRelease_iff _ _ _).1 h)),
        fun yes quiet e pa some_ range sound => ?_, fun yes quiet range => ?_⟩
      · rw [slotRelease_releases ready desc ((mayRelease_iff _ _ _).2 yes) quiet, some_, releaseSlot_counts range sound]
      · rw [slotRelease_releases ready desc ((mayRelease_iff _ _ _).2 yes) quiet, releaseSlot_uncounted range]
    · exact fun d fall j whole all_ inside => combineRow_bits all_ whole fall inside

end Sys2Proof.Machine
end
